-- ==== Sys2Proof/Word.lean ====
section
/-! DEFINITION. The plain types every other file uses: words, lane vectors and finite maps kept as sorted lists. -/

namespace Sys2Proof

abbrev Byte := BitVec 8
abbrev Half := BitVec 16
abbrev Word := BitVec 32
abbrev DWord := BitVec 64

/-- One bit per lane: em, LIVE, predicates and lane masks (R61). -/
abbrev Mask := BitVec 32

/-- One value per lane. -/
abbrev PerLane (α : Type) := Vector α 32

/-- A 32-bit vector register (R66). -/
abbrev Lanes := PerLane Word

/-- The lane vector whose lane `L` holds `f L`. -/
def perLane {α : Type} (f : Nat → α) : PerLane α :=
  ⟨((List.range 32).map f).toArray, by simp⟩

/-- Lane `L` of a lane vector; lanes at or above 32 do not exist and read as lane 0's index wraps. -/
def PerLane.at {α : Type} (v : PerLane α) (L : Nat) : α :=
  v[L % 32]'(Nat.mod_lt _ (by decide))

/-- The lanes of a mask, in increasing order (R4). -/
def lanesOf (m : Mask) : List Nat :=
  (List.range 32).filter fun L => m.getLsbD L

/-- The mask of the lanes where `f` holds. -/
def maskOf (f : Nat → Bool) : Mask :=
  BitVec.ofNat 32 ((List.range 32).foldl (fun acc L => if f L then acc + 2 ^ L else acc) 0)

/-- A finite map: keys strictly rising. -/
abbrev AMap (α : Type) := List (Nat × α)

namespace AMap
variable {α : Type}

def get? : AMap α → Nat → Option α
  | [], _ => none
  | (k, v) :: m, key => if k = key then some v else get? m key

def getD (m : AMap α) (key : Nat) (d : α) : α := (get? m key).getD d

def set : AMap α → Nat → α → AMap α
  | [], key, v => [(key, v)]
  | (k, x) :: m, key, v =>
    if key < k then (key, v) :: (k, x) :: m
    else if k = key then (key, v) :: m
    else (k, x) :: set m key v

def erase : AMap α → Nat → AMap α
  | [], _ => []
  | (k, x) :: m, key => if k = key then erase m key else (k, x) :: erase m key

def has (m : AMap α) (key : Nat) : Bool := (get? m key).isSome

def vals (m : AMap α) : List α := m.map (·.2)

/-- Apply `f` to every value. -/
def mapVals (f : Nat → α → α) (m : AMap α) : AMap α := m.map fun kv => (kv.1, f kv.1 kv.2)

end AMap

end Sys2Proof
end

