-- ==== Sys2Proof/Config.lean ====
section
/-! DEFINITION. What an implementation fixes and the values the spec leaves free: opaque constants, so that no proof can see a value (log entries 3, 8, 9). -/

namespace Sys2Proof.Config

/-- MG_ID.REV, the silicon revision (R365). -/
opaque revision : BitVec 16

/-- A fresh free value for each value of the counter State.free: the results that the spec leaves undefined. -/
opaque freeValue : Nat → BitVec 64

/-- The special functions of R103 outside their exact and special inputs: a fixed function of the operand (R87), not given beyond its error bound. -/
opaque frcp : BitVec 32 → BitVec 32
opaque frsq : BitVec 32 → BitVec 32
opaque fexp2 : BitVec 32 → BitVec 32
opaque flog2 : BitVec 32 → BitVec 32
opaque fsin : BitVec 32 → BitVec 32
opaque fcos : BitVec 32 → BitVec 32

/-- The 8-byte words of a context image past its header and key, for a number of wheels and of trains: the image is not architected (R369). -/
opaque imageWords : Nat → Nat → Nat

end Sys2Proof.Config
end

