-- ==== Sys2Proof/Syntax.lean ====
section
/-! DEFINITION. The instructions and events of spec/opcode_table.json: one constructor a row, with the operand forms of 03. -/

namespace Sys2Proof

/-- Engine class of a clause (R43, Table 3-2). -/
inductive Cls where
  | V | M | C | X | S | E | T | Y | Z | G
  deriving DecidableEq, Repr

/-- A guard: bit 3 negates, bits 2:0 name the predicate (R55). -/
abbrev Guard := BitVec 4

/-- PRED = 0b0111, always. -/
abbrev Guard.always : Guard := 7#4

/-- The scoreboard an instruction names, if any (R47). -/
abbrev Sb := Option (BitVec 3)

/-- A register destination (R54). -/
structure Dst where
  nowb : Bool
  scalar : Bool
  idx : BitVec 8
  deriving DecidableEq, Repr

/-- A predicate destination (R54). -/
structure PDst where
  nowb : Bool
  p : BitVec 3
  deriving DecidableEq, Repr

/-- A source operand (R52, Table 3-8). -/
inductive Src where
  | v (i : BitVec 8)
  | s (i : BitVec 6)
  | b (i : BitVec 2)
  | c (e : BitVec 8)
  deriving DecidableEq, Repr

/-- Integer types (R89, Table 5-1). -/
inductive IntTy where
  | s32 | n32 | s64 | n64 | s16 | n16 | s8 | n8
  deriving DecidableEq, Repr

/-- Rounding directions (R89). -/
inductive Rnd where
  | rne | rtz | rdn | rup
  deriving DecidableEq, Repr

/-- Integer comparisons (Table 5-2). -/
inductive ICc where
  | eq | ne | lt | le | gt | ge
  deriving DecidableEq, Repr

/-- F32 comparisons (R99). -/
inductive FCc where
  | eq | ne | lt | le | gt | ge | num | nan | equ | neu | ltu | leu | gtu | geu
  deriving DecidableEq, Repr

/-- Predicate operations (Table 5-2). -/
inductive POp where
  | and | or | xor | andn | orn
  deriving DecidableEq, Repr

/-- The two directions of `pmov` (R100). -/
inductive PmovOp where
  | toPred (d : PDst) (m : Src)
  | toScalar (d : Dst) (p : BitVec 3)
  deriving DecidableEq, Repr

/-- Special values of `movs` (R91, Table 5-3). -/
inductive Special where
  | lane | train | wheel | wheels | role | core | ctx | clock | param
  deriving DecidableEq, Repr

/-- The two directions of `cvth` (R106). -/
inductive CvthOp where
  | pk (satf : Bool) (rnd : Rnd) (bf : Bool) (a b : Src)
  | up (bf hi : Bool) (a : Src)
  deriving DecidableEq, Repr

/-- The two directions of `cvtn` (R107). -/
inductive CvtnOp where
  | pk (a b c : Src)
  | up (a c : Src)
  deriving DecidableEq, Repr

/-- Shuffle modes (R109). -/
inductive ShMode where
  | abs | sub | add | flip
  deriving DecidableEq, Repr

/-- Segment sizes of `shfx` (R109). -/
inductive Seg where
  | seg2 | seg4 | seg8 | seg16 | seg32
  deriving DecidableEq, Repr

/-- The votes (R110). -/
inductive VoteOp where
  | some (d : PDst)
  | every (d : PDst)
  | agree (d : PDst)
  | mask (d : Dst)
  deriving DecidableEq, Repr

/-- Combining operations of `iscan` and `ired` (R111). -/
inductive ScanOp where
  | add | min | max | or
  deriving DecidableEq, Repr

/-- Type of `iscan` and `ired`: W64 and UNS. -/
inductive ScanTy where
  | s32 | n32 | s64 | n64
  deriving DecidableEq, Repr

/-- Access widths of format M (R58, Table 3-11). -/
inductive MW where
  | n8 | n16 | w32 | w64 | b128 | s8 | s16
  deriving DecidableEq, Repr

/-- Width of an atomic: 32 or 64 bits. -/
inductive AW where
  | w32 | w64
  deriving DecidableEq, Repr

/-- Memory orders (Table 3-11). -/
inductive Ord where
  | plain | acq | rel | acqrel
  deriving DecidableEq, Repr

/-- Retention field CPOL (R119, Table 6-2). -/
inductive Cpol where
  | dflt | stream | keep | fresh
  deriving DecidableEq, Repr

/-- Atomic operations (Table 6-3). -/
inductive AOp where
  | add | and | or | xor | exch | min | max | fadd
  deriving DecidableEq, Repr

/-- A memory operand with index (R22, R116). -/
structure Mem where
  base : Src
  index : Src
  scale : Bool
  off : BitVec 8
  deriving DecidableEq, Repr

/-- A base-only memory operand `[b]` (R115). -/
structure MemB where
  base : Src
  off : BitVec 8
  deriving DecidableEq, Repr

/-- The part of a tile that `tld` and `tst` move (Table 16-3); the data and scale parts have a row stride. -/
inductive Part where
  | data (st : Src)
  | sc (st : Src)
  | ts
  deriving DecidableEq, Repr

/-- A tile base: a GLOBAL pair or a LOCAL byte address (R288). -/
structure TBase where
  glob : Bool
  b : Src
  deriving DecidableEq, Repr

/-- Kinds of `srd` (R259). -/
inductive SrdOp where
  | phase (b : Src)
  | arrive (b : Src)
  | sectors (b : Src)
  | jobs
  deriving DecidableEq, Repr

/-- Widths of `eget` and `eput` (Table 11-1). -/
inductive WD where
  | b32 | b64 | b128
  deriving DecidableEq, Repr

/-- The fields of `ryres` (Table 18-10). -/
inductive RyField where
  | t | prim | inst | u | v | kind | cand
  deriving DecidableEq, Repr

/-- A request of a host or peer: of memory or registers (R371 to R373), or for an attestation report over a nonce (R375). -/
inductive HostReq where
  | attest (nonce : BitVec 64)
  | read (pa len : Nat)
  | write (pa : Nat) (bytes : List (BitVec 8))
  | atomic (op : AOp) (wide : Bool) (pa : Nat) (x : BitVec 64)
  deriving DecidableEq, Repr

/-- The rows of spec/opcode_table.json: 188 instructions, then 70 events. -/
inductive Instr where
  -- class V (05)
  | mov (g : Guard) (ty : IntTy) (d : Dst) (a : Src)
  | movk (g : Guard) (d : Dst) (a b : Src)
  | movs (g : Guard) (d : Dst) (sel : Special)
  | sel (g : Guard) (ty : IntTy) (d : Dst) (a b : Src) (p : BitVec 3)
  | iadd (g : Guard) (sat : Bool) (ty : IntTy) (d : Dst) (a b : Src)
  | isub (g : Guard) (sat : Bool) (ty : IntTy) (d : Dst) (a b : Src)
  | imul (g : Guard) (sat : Bool) (ty : IntTy) (d : Dst) (a b : Src)
  | imulh (g : Guard) (ty : IntTy) (d : Dst) (a b : Src)
  | imad (g : Guard) (sat : Bool) (ty : IntTy) (d : Dst) (a b c : Src)
  | imin (g : Guard) (ty : IntTy) (d : Dst) (a b : Src)
  | imax (g : Guard) (ty : IntTy) (d : Dst) (a b : Src)
  | iabs (g : Guard) (sat : Bool) (ty : IntTy) (d : Dst) (a : Src)
  | iaddx (g : Guard) (uns : Bool) (d : Dst) (a b : Src)
  | imadx (g : Guard) (uns : Bool) (d : Dst) (a b c : Src)
  | and (g : Guard) (ty : IntTy) (d : Dst) (a b : Src)
  | or (g : Guard) (ty : IntTy) (d : Dst) (a b : Src)
  | xor (g : Guard) (ty : IntTy) (d : Dst) (a b : Src)
  | andn (g : Guard) (ty : IntTy) (d : Dst) (a b : Src)
  | lop3 (g : Guard) (d : Dst) (a b t : Src)
  | shl (g : Guard) (ty : IntTy) (d : Dst) (a b : Src)
  | shr (g : Guard) (ty : IntTy) (d : Dst) (a b : Src)
  | sra (g : Guard) (ty : IntTy) (d : Dst) (a b : Src)
  | rot (g : Guard) (ty : IntTy) (d : Dst) (a b : Src)
  | bfx (g : Guard) (ty : IntTy) (d : Dst) (a f : Src)
  | bfi (g : Guard) (ty : IntTy) (d : Dst) (a b f : Src)
  | popc (g : Guard) (ty : IntTy) (d : Dst) (a : Src)
  | clz (g : Guard) (ty : IntTy) (d : Dst) (a : Src)
  | brev (g : Guard) (ty : IntTy) (d : Dst) (a : Src)
  | icmp (g : Guard) (cc : ICc) (ty : IntTy) (d : PDst) (a b : Src)
  | fcmp (g : Guard) (cc : FCc) (d : PDst) (a b : Src)
  | plop (g : Guard) (op : POp) (d : PDst) (pa pb : BitVec 3)
  | pmov (g : Guard) (op : PmovOp)
  | fadd (g : Guard) (sat : Bool) (rnd : Rnd) (d : Dst) (a b : Src)
  | fsub (g : Guard) (sat : Bool) (rnd : Rnd) (d : Dst) (a b : Src)
  | fmul (g : Guard) (sat : Bool) (rnd : Rnd) (d : Dst) (a b : Src)
  | ffma (g : Guard) (sat : Bool) (rnd : Rnd) (d : Dst) (a b c : Src)
  | fmin (g : Guard) (d : Dst) (a b : Src)
  | fmax (g : Guard) (d : Dst) (a b : Src)
  | frnd (g : Guard) (rnd : Rnd) (d : Dst) (a : Src)
  | frcp (g : Guard) (d : Dst) (a : Src)
  | frsq (g : Guard) (d : Dst) (a : Src)
  | fsqrt (g : Guard) (d : Dst) (a : Src)
  | fexp2 (g : Guard) (d : Dst) (a : Src)
  | flog2 (g : Guard) (d : Dst) (a : Src)
  | fsin (g : Guard) (d : Dst) (a : Src)
  | fcos (g : Guard) (d : Dst) (a : Src)
  | hadd2 (g : Guard) (satf : Bool) (rnd : Rnd) (bf : Bool) (d : Dst) (a b : Src)
  | hmul2 (g : Guard) (satf : Bool) (rnd : Rnd) (bf : Bool) (d : Dst) (a b : Src)
  | hfma2 (g : Guard) (satf : Bool) (rnd : Rnd) (bf : Bool) (d : Dst) (a b c : Src)
  | cvti (g : Guard) (rnd : Rnd) (ty : IntTy) (d : Dst) (a : Src)
  | cvtf (g : Guard) (rnd : Rnd) (ty : IntTy) (d : Dst) (a : Src)
  | cvth (g : Guard) (d : Dst) (op : CvthOp)
  | cvtn (g : Guard) (slot : BitVec 3) (d : Dst) (op : CvtnOp)
  | shfl (g : Guard) (w64 : Bool) (mode : ShMode) (d : Dst) (a n : Src)
  | shfx (g : Guard) (w64 : Bool) (seg : Seg) (mode : ShMode) (d : Dst) (a n c : Src)
  | vote (g : Guard) (op : VoteOp) (pa : BitVec 3)
  | rdlane (g : Guard) (w64 : Bool) (d : Dst) (a i : Src)
  | wrlane (g : Guard) (w64 : Bool) (d : Dst) (x i : Src)
  | iscan (g : Guard) (ty : ScanTy) (excl : Bool) (op : ScanOp) (d : Dst) (a : Src)
  | ired (g : Guard) (ty : ScanTy) (op : ScanOp) (d : Dst) (a : Src)
  | emrd (d : Dst)
  | emwr (m : Src)
  | emand (m : Src)
  | emor (m : Src)
  -- class M (06)
  | ld (g : Guard) (sb : Sb) (w : MW) (acq : Bool) (pol : Cpol) (m : Mem) (d : Dst)
  | st (g : Guard) (sb : Sb) (w : MW) (rel : Bool) (pol : Cpol) (m : Mem) (x : Src)
  | ldp (p : BitVec 3) (sb : Sb) (w : MW) (pol : Cpol) (m : Mem) (d : Dst)
  | lds (g : Guard) (sb : Sb) (w : MW) (m : Mem) (d : Dst)
  | sts (g : Guard) (sb : Sb) (w : MW) (m : Mem) (x : Src)
  | ldl (g : Guard) (sb : Sb) (w : MW) (m : Mem) (d : Dst)
  | stl (g : Guard) (sb : Sb) (w : MW) (m : Mem) (x : Src)
  | ldw (g : Guard) (sb : Sb) (w : MW) (m : Mem) (d : Dst)
  | atom (g : Guard) (sb : Sb) (op : AOp) (w : AW) (ord : Ord) (m : MemB) (x : Src) (d : Dst)
  | red (g : Guard) (sb : Sb) (op : AOp) (w : AW) (rel : Bool) (m : MemB) (x : Src)
  | cas (g : Guard) (sb : Sb) (w : AW) (ord : Ord) (m : MemB) (x : Src) (d : Dst)
  | atoml (g : Guard) (sb : Sb) (op : AOp) (w : AW) (m : MemB) (x : Src) (d : Dst)
  | casl (g : Guard) (sb : Sb) (w : AW) (m : MemB) (x : Src) (d : Dst)
  | fence (g : Guard) (sb : Sb)
  | drain (g : Guard) (sb : Sb)
  | barw (g : Guard) (sb : Sb) (m : MemB)
  | bara (g : Guard) (sb : Sb) (m : MemB)
  | barm (g : Guard) (sb : Sb) (m : MemB) (mask : Src)
  | barinit (g : Guard) (sb : Sb) (m : MemB) (mask : Src)
  | mon (g : Guard) (sb : Sb) (w : AW) (acq : Bool) (m : MemB) (d : Dst)
  | mwait (g : Guard) (sb : Sb)
  | prf (g : Guard) (sb : Sb) (w : MW) (pol : Cpol) (m : Mem)
  | own (g : Guard) (sb : Sb) (w : MW) (m : Mem)
  | unown (g : Guard) (sb : Sb) (w : MW) (m : Mem)
  | cwb (g : Guard) (sb : Sb) (w : MW) (m : Mem)
  | cinv (g : Guard) (sb : Sb) (w : MW) (m : Mem)
  -- class C (04)
  | bra (g : Guard) (rel : BitVec 32)
  | brz (g : Guard) (a : Src) (rel : BitVec 32)
  | brnz (g : Guard) (a : Src) (rel : BitVec 32)
  | brany (g : Guard) (p : BitVec 3) (rel : BitVec 32)
  | brall (g : Guard) (p : BitVec 3) (rel : BitVec 32)
  | call (g : Guard) (n : BitVec 6) (rel : BitVec 32)
  | ret (g : Guard) (n : BitVec 6)
  | jmpi (g : Guard) (n : BitVec 6)
  | loop (g : Guard) (n : BitVec 6) (rel : BitVec 32)
  | exit (g : Guard)
  | yield (g : Guard)
  | yieldc (g : Guard) (n : BitVec 6) (rel : BitVec 32)
  | trap (g : Guard) (n : BitVec 8)
  | brk (g : Guard) (n : BitVec 8)
  | nop (g : Guard)
  -- class X (16)
  | tcfg (sb : Sb) (t : BitVec 3) (c : Src)
  | tld (sb : Sb) (t : BitVec 3) (base : TBase) (part : Part)
  | tst (sb : Sb) (t : BitVec 3) (base : TBase) (part : Part)
  | tzero (sb : Sb) (t : BitVec 3)
  | tmma (sb : Sb) (d a b : BitVec 3)
  | tloop (sb : Sb) (d a b : BitVec 3) (r : Src)
  | tmmb (sb : Sb) (d a b : BitVec 3)
  | tvxm (g : Guard) (sb : Sb) (slot : BitVec 3) (pd : BitVec 3) (d a : BitVec 3) (p : Src)
  | tdrain (sb : Sb) (base : TBase) (add z : Bool) (d : BitVec 3) (st : Src)
  | twait (sb : Sb) (t : Option (BitVec 3))
  | tcvt (sb : Sb) (t s : BitVec 3)
  | ttr (sb : Sb) (t s : BitVec 3)
  | tfill (sb : Sb) (t : BitVec 3) (x : Src)
  | wsync (sb : Sb) (m c : Src)
  | wsinfo (sb : Sb) (d : Dst) (k : Src)
  -- class S (14)
  | cpy (sb : Sb) (tb : Option Src) (ls ld r : Src)
  | cpym (sb : Sb) (tb : Option Src) (ls ld r : Src)
  | cpt (sb : Sb) (tb : Option Src) (ls ld r : Src)
  | cpg (sb : Sb) (tb : Option Src) (ls ld r : Src)
  | tbinit (sb : Sb) (force : Bool) (b n : Src)
  | tbarr (sb : Sb) (d : Dst) (b n : Src)
  | tbexp (sb : Sb) (b n : Src)
  | tbwait (sb : Sb) (b ph : Src)
  | rbind (sb : Sb) (k rec : Src)
  | racq (sb : Sb) (d : Dst) (k : Src)
  | rrel (sb : Sb) (k a : Src)
  | srd (sb : Sb) (op : SrdOp) (d : Dst)
  -- class E (11)
  | eqry (sb : Sb) (cur : Bool) (d : Dst) (q v : Src)
  | enext (sb : Sb) (cur : Bool) (d : Dst)
  | erow (g : Guard) (sb : Sb) (strict : Bool) (pd : BitVec 3) (d : Dst) (h : Src)
  | ecol (g : Guard) (sb : Sb) (pd : BitVec 3) (d : Dst) (ref t w : Src)
  | ehchk (g : Guard) (sb : Sb) (pd : BitVec 3) (h : Src)
  | eget (g : Guard) (sb : Sb) (wd : WD) (strict : Bool) (pd : BitVec 3) (d : Dst) (h t o : Src)
  | eput (g : Guard) (sb : Sb) (wd : WD) (strict : Bool) (pd : BitVec 3) (x h t o : Src)
  | ecrt (g : Guard) (sb : Sb) (strict : Bool) (pd : BitVec 3) (d : Dst) (ty : Option (Bool × Src × Src))
  | edel (g : Guard) (sb : Sb) (strict : Bool) (pd : BitVec 3) (h : Src)
  | eadd (g : Guard) (sb : Sb) (ind strict : Bool) (pd : BitVec 3) (h t y : Src)
  | erem (g : Guard) (sb : Sb) (strict : Bool) (pd : BitVec 3) (h t : Src)
  | eset (g : Guard) (sb : Sb) (ind strict : Bool) (pd : BitVec 3) (h t y : Src)
  | ecmt (g : Guard) (sb : Sb) (d : Dst)
  | esync (sb : Sb) (d : Dst) (w : Src)
  | epin (sb : Sb) (strict : Bool) (d : Dst) (w v : Src)
  | eunpin (sb : Sb) (w v : Src)
  | ever (sb : Sb) (view : Bool) (d : Dst) (w : Src)
  -- class T (13)
  | txbeg (sb : Sb) (fb : Bool)
  | txend (sb : Sb) (d : PDst)
  | txabt (g : Guard) (sb : Sb)
  | txst (sb : Sb) (tok : Bool) (d : Dst)
  | txcause (g : Guard) (sb : Sb) (d : Dst)
  -- class Y (18)
  | rycl (g : Guard) (sb : Sb) (k : BitVec 2) (r m : Src)
  | ryany (g : Guard) (k : BitVec 2) (r m : Src)
  | ryocc (g : Guard) (sb : Sb) (k : BitVec 2) (r m : Src)
  | ryacc (g : Guard) (sb : Sb) (pa : BitVec 3)
  | ryres (g : Guard) (sb : Sb) (f : RyField) (d : Dst)
  | rywait (sb : Sb) (d : PDst)
  | ryinv (sb : Sb) (k : Option (BitVec 2))
  | rygeo (sb : Sb) (k : BitVec 2) (rec : Src)
  | rypst (sb : Sb) (d : Dst) (c : Src)
  -- class Z (08, 22)
  | zrd (sb : Sb) (d : Dst) (n : Src)
  | zwr (sb : Sb) (n x : Src)
  | tlbi (sb : Sb) (range : Option (Src × Src))
  | tlbsync (sb : Sb)
  | trapret (next : Bool)
  | ctxsv (sb : Sb) (d : Dst) (c a : Src)
  | ctxld (sb : Sb) (d : Dst) (c a : Src)
  | wsld (sb : Sb) (w a n : Src)
  -- class G (20)
  | gsub (sb : Sb) (d : Dst) (k a : Src)
  | gkick (sb : Sb) (d : Dst) (k v : Src)
  | gsig (sb : Sb) (max : Bool) (t v : Src)
  | gwait (sb : Sb) (t v : Src)
  | gdep (sb : Sb) (d : Dst) (a b : Src)
  -- K forms (R113)
  | movK (g : BitVec 2) (d : Dst) (imm : Word)
  | iaddK (g : BitVec 2) (d : Dst) (a : Src) (imm : Word)
  | isubK (g : BitVec 2) (d : Dst) (a : Src) (imm : Word)
  | imulK (g : BitVec 2) (d : Dst) (a : Src) (imm : Word)
  | andK (g : BitVec 2) (d : Dst) (a : Src) (imm : Word)
  | orK (g : BitVec 2) (d : Dst) (a : Src) (imm : Word)
  | xorK (g : BitVec 2) (d : Dst) (a : Src) (imm : Word)
  | shlK (g : BitVec 2) (d : Dst) (a : Src) (imm : Word)
  | shrK (g : BitVec 2) (d : Dst) (a : Src) (imm : Word)
  | sraK (g : BitVec 2) (d : Dst) (a : Src) (imm : Word)
  | faddK (g : BitVec 2) (d : Dst) (a : Src) (imm : Word)
  | fmulK (g : BitVec 2) (d : Dst) (a : Src) (imm : Word)
  -- events: the core (04, 06)
  | escapementChoose (core port : Nat)
  | readyWaitLimit (core : Nat)
  | deferredTrap (train : Nat)
  | eHang (ctx : Nat)
  | clockTick (core cycles ticks ns : Nat)
  | storeFifoEntryLeave (train : Nat)
  | writePerformed (core id : Nat)
  | releaseMarkerCounted (core id : Nat)
  | loadValueReturn (train op : Nat)
  | monitorWake (train : Nat)
  -- events: translation (08)
  | walkStart (walk : Nat)
  | walkComplete (walk : Nat)
  | fbHeadWrite (ctx : Nat) (v : Word)
  | fbStatusDroppedClear (ctx : Nat)
  | fbReplayGo (ctx : Nat)
  | chimeNotification (die : Nat)
  | chimeHeadWrite (v : Word)
  | tlbiInvalidationBegin (train op : Nat)
  -- events: wheels and contexts (02, 04)
  | wheelAdmit (dispatch wheel core : Nat)
  | trainEnd (train : Nat)
  | preemptRequest (mask : BitVec 16)
  | preemptStop (train : Nat)
  | contextResume (mask : BitVec 16)
  -- events: engines
  | syncPointPublish (train : Nat)
  | commitStep (train : Nat)
  | serialTokenGrant (ctx : Nat)
  | tokenHoldLimit (ctx : Nat)
  | jobStart (job : Nat)
  | sectorDeliver (job sector : Nat)
  | loopSequencerStep (core ctx : Nat)
  | tenantSplit (core : Nat)
  | refreshWindowEnd (bank : Nat)
  | candidatePresent (train lane : Nat)
  | rayQueryComplete (train : Nat)
  -- events: the Remontoir (20)
  | ringEnable (ring : Nat) (ctl : Word)
  | ringRecWrite (ring : Nat) (v : DWord)
  | ringKick (ring : Nat) (v : Word) (host : Bool)
  | ringStatusWrite (ring : Nat) (host : Bool)
  | packetAccept (ring : Nat)
  | stuck (ring : Nat)
  | nodeStart (node : Nat)
  | nodeComplete (node : Nat)
  | nodeFail (node : Nat)
  -- events: the Crown and hosts (22)
  | mgPlimitWrite (v : DWord)
  | contextRegisterWrite (ctx n : Nat) (v : DWord)
  | registerWrite (offset : Nat) (v : DWord)
  | hostWriteIgnored (offset : Nat) (v : DWord)
  | hostAccess (r : HostReq)
  | firmwareVerify (ok : Bool)
  | esuOperation (op : Nat)
  | matrixInstructionComplete (core ctx : Nat)
  | weightStoreWriteComplete (write : Nat)
  -- events that no turn of the schedule gives with operands; a code generator limits the places of those that carry any
  | eEcc (train : Nat) (where_ : DWord) (op : Option Nat)
  | eTenant (core ctx : Nat)
  | ownershipRecall (sector : Nat)
  | watchLost (train : Nat)
  | chimeOverflowClear
  | objectLoad (ctx : Nat) (file : List (BitVec 8)) (base : DWord)
  | mgClkrstGo
  | hostwrClear
  | badwrClear
  | hostWarmRestart (host : Nat)
  | powerOn
  | selfTestComplete
  | selfTestFail (code : Word)
  | fullServiceChange
  | powerLimitExceeded (watts : Half) (celsius : Byte)
  | thermalStop (celsius : Byte)
  | thermalRecover (celsius : Byte)
  | hostReconnect (host : Nat)
  deriving DecidableEq, Repr

end Sys2Proof
end

