-- ==== Sys2Proof/WellFormed.lean ====
section
/-! DEFINITION. The operand checks that depend on the instruction word alone (R46 check 2, R48 to R57): a term that fails one is no instruction, and the decoder answers E_ILL_OPERAND for its word. -/

namespace Sys2Proof

/-- Registers a value of integer type `ty` fills (R88). -/
def IntTy.regs : IntTy → Nat
  | .s64 | .n64 => 2
  | _ => 1

/-- The types that only give a width, codes 0 to 3 (Table 5-2). -/
def IntTy.wide : IntTy → Bool
  | .s32 | .n32 | .s64 | .n64 => true
  | _ => false

/-- The signed types, the ones of `iabs`. -/
def IntTy.signed : IntTy → Bool
  | .s32 | .s64 | .s16 | .s8 => true
  | _ => false

def ScanTy.regs : ScanTy → Nat
  | .s64 | .n64 => 2
  | _ => 1

/-- Bytes of an access (R116). -/
def MW.bytes : MW → Nat
  | .n8 | .s8 => 1
  | .n16 | .s16 => 2
  | .w32 => 4
  | .w64 => 8
  | .b128 => 16

def MW.regs : MW → Nat
  | .w64 => 2
  | .b128 => 4
  | _ => 1

/-- The widths a store may have, codes 0 to 4 (R58). -/
def MW.storable : MW → Bool
  | .s8 | .s16 => false
  | _ => true

def AW.bytes : AW → Nat
  | .w32 => 4
  | .w64 => 8

def AW.regs : AW → Nat
  | .w32 => 1
  | .w64 => 2

def WD.regs : WD → Nat
  | .b32 => 1
  | .b64 => 2
  | .b128 => 4

/-- The entries of the constant table (R53, Table 3-9). -/
def constListed (e : BitVec 8) : Bool :=
  e.toNat < 0x60 || e == 0xE0#8 || e == 0xE1#8 || e == 0xFF#8

/-- A source field of `n` registers; `lat` says whether a latch may stand here (R49, R52, R53, R56). -/
def Src.ok (lat : Bool) (n : Nat) : Src → Bool
  | .v i => i.toNat % n == 0 && i.toNat + n ≤ 256
  | .s i => i.toNat % n == 0 && i.toNat + n ≤ 64
  | .b _ => lat
  | .c e => constListed e

/-- A source that the word alone shows to be per lane (R57): latches are decided when they are read. -/
def Src.perLane : Src → Bool
  | .v _ => true
  | .c e => e == 0xE0#8
  | _ => false

/-- A uniform source of an instruction outside class V. -/
def Src.unif (n : Nat) (x : Src) : Bool := x.ok false n && !x.perLane

/-- A uniform source of a class V instruction or class C tail, where a latch may stand. -/
def Src.unifL (n : Nat) (x : Src) : Bool := x.ok true n && !x.perLane

def Src.isReg : Src → Bool
  | .v _ | .s _ => true
  | _ => false

/-- A vector register or pair. -/
def Src.isVector : Src → Bool
  | .v _ => true
  | _ => false

/-- A scalar register or pair. -/
def Src.isScalar (n : Nat) : Src → Bool
  | .s i => i.toNat % n == 0
  | _ => false

/-- A destination of `n` registers (R54, R56). -/
def Dst.ok (n : Nat) (d : Dst) : Bool :=
  d.idx.toNat % n == 0 && (if d.scalar then d.idx.toNat + n ≤ 64 else d.idx.toNat + n ≤ 256)

/-- A vector destination of `n` registers. -/
def Dst.vec (n : Nat) (d : Dst) : Bool := d.ok n && !d.scalar

/-- A scalar destination of `n` registers. -/
def Dst.sca (n : Nat) (d : Dst) : Bool := d.ok n && d.scalar

/-- A scalar destination, or `_`. -/
def Dst.scaOrNone (n : Nat) (d : Dst) : Bool := d.ok n && (d.scalar || d.nowb)

/-- Destination and sources of a class V instruction: a scalar destination takes no per-lane source (R57). -/
def vOk (n : Nat) (d : Dst) (srcs : List (Nat × Src)) : Bool :=
  d.ok n && srcs.all fun x => x.2.ok true x.1 && !(d.scalar && x.2.perLane)

def srcsOk (srcs : List (Nat × Src)) : Bool := srcs.all fun x => x.2.ok true x.1

/-- Base and index of a memory operand (R56, R116). -/
def Mem.ok (m : Mem) : Bool := m.base.ok false 2 && m.index.ok false 1

def Mem.unif (m : Mem) : Bool := !m.base.perLane && !m.index.perLane

def MemB.ok (m : MemB) : Bool := m.base.ok false 2

/-- A base of an instruction that acts once (R116). -/
def MemB.once (m : MemB) : Bool := m.base.unif 2

/-- A load whose DATA may be scalar: it is then uniform (R116). -/
def loadOk (w : MW) (m : Mem) (d : Dst) : Bool :=
  m.ok && d.ok w.regs && (!d.scalar || m.unif)

def storeOk (w : MW) (m : Mem) (x : Src) : Bool :=
  w.storable && m.ok && x.ok false w.regs

def cacheOk (w : MW) (m : Mem) : Bool := w.storable && m.ok

/-- The base of a tile move: a scalar pair for GLOBAL, a scalar register for LOCAL (R288, Table 16-2). -/
def TBase.ok (b : TBase) : Bool := b.b.isScalar (if b.glob then 2 else 1)

def Part.ok : Part → Bool
  | .data st | .sc st => st.unif 1
  | .ts => true

/-- The barrier of a `.tb` copy stands in DST, whose NOWB bit is zero: a scalar register (R247). -/
def copyOk (tb : Option Src) (ls ld r : Src) : Bool :=
  (match tb with | none => true | some b => b.isScalar 1) && ls.unif 2 && ld.unif 2 && r.unif 2

/-- The payload of a command (R201). -/
def payOk (ind : Bool) (y : Src) : Bool :=
  y.ok false (if ind then 2 else 4) && y.isReg

def rayOk : Src → Bool
  | .v i => i.toNat % 8 == 0
  | _ => false

def pairIdx (n : BitVec 6) : Bool := n.toNat % 2 == 0

/-- The well-formed instructions. Events are always well formed. -/
def instrWf : Instr → Bool
  | .mov _ ty d a => ty.wide && vOk ty.regs d [(ty.regs, a)]
  | .movk _ d a b => vOk 2 d [(1, a), (1, b)]
  | .movs _ d which =>
    match which with
    | .lane => d.ok 1 && !d.scalar
    | .clock | .param => d.ok 2
    | _ => d.ok 1
  | .sel _ ty d a b _ => ty.wide && vOk ty.regs d [(ty.regs, a), (ty.regs, b)]
  | .iadd _ _ ty d a b | .isub _ _ ty d a b | .imul _ _ ty d a b =>
    vOk ty.regs d [(ty.regs, a), (ty.regs, b)]
  | .imulh _ ty d a b => ty.wide && vOk ty.regs d [(ty.regs, a), (ty.regs, b)]
  | .imad _ _ ty d a b c => vOk ty.regs d [(ty.regs, a), (ty.regs, b), (ty.regs, c)]
  | .imin _ ty d a b | .imax _ ty d a b => vOk ty.regs d [(ty.regs, a), (ty.regs, b)]
  | .iabs _ _ ty d a => ty.signed && vOk ty.regs d [(ty.regs, a)]
  | .iaddx _ _ d a b => vOk 2 d [(2, a), (1, b)]
  | .imadx _ _ d a b c => vOk 2 d [(1, a), (1, b), (2, c)]
  | .and _ ty d a b | .or _ ty d a b | .xor _ ty d a b | .andn _ ty d a b =>
    ty.wide && vOk ty.regs d [(ty.regs, a), (ty.regs, b)]
  | .lop3 _ d a b t => vOk 1 d [(1, a), (1, b)] && t.unifL 1
  | .shl _ ty d a b | .shr _ ty d a b | .sra _ ty d a b | .rot _ ty d a b =>
    ty.wide && vOk ty.regs d [(ty.regs, a), (1, b)]
  | .bfx _ ty d a f => ty.wide && vOk ty.regs d [(ty.regs, a), (1, f)]
  | .bfi _ ty d a b f => ty.wide && vOk ty.regs d [(ty.regs, a), (ty.regs, b), (1, f)]
  | .popc _ ty d a | .clz _ ty d a => ty.wide && vOk 1 d [(ty.regs, a)]
  | .brev _ ty d a => ty.wide && vOk ty.regs d [(ty.regs, a)]
  | .icmp _ _ ty _ a b => srcsOk [(ty.regs, a), (ty.regs, b)]
  | .fcmp _ _ _ a b => srcsOk [(1, a), (1, b)]
  | .plop .. => true
  | .pmov _ op =>
    match op with
    | .toPred _ m => m.unifL 1
    | .toScalar d _ => d.sca 1
  | .fadd _ _ _ d a b | .fsub _ _ _ d a b | .fmul _ _ _ d a b => vOk 1 d [(1, a), (1, b)]
  | .ffma _ _ _ d a b c => vOk 1 d [(1, a), (1, b), (1, c)]
  | .fmin _ d a b | .fmax _ d a b => vOk 1 d [(1, a), (1, b)]
  | .frnd _ _ d a => vOk 1 d [(1, a)]
  | .frcp _ d a | .frsq _ d a | .fsqrt _ d a | .fexp2 _ d a | .flog2 _ d a | .fsin _ d a
  | .fcos _ d a => vOk 1 d [(1, a)]
  | .hadd2 _ _ _ _ d a b | .hmul2 _ _ _ _ d a b => vOk 1 d [(1, a), (1, b)]
  | .hfma2 _ _ _ _ d a b c => vOk 1 d [(1, a), (1, b), (1, c)]
  | .cvti _ _ ty d a => vOk ty.regs d [(1, a)]
  | .cvtf _ _ ty d a => vOk 1 d [(ty.regs, a)]
  | .cvth _ d op =>
    match op with
    | .pk _ _ _ a b => vOk 1 d [(1, a), (1, b)]
    | .up _ _ a => vOk 1 d [(1, a)]
  | .cvtn _ _ d op =>
    match op with
    | .pk a b c => vOk 1 d [(1, a), (1, b), (1, c)]
    | .up a c => vOk 1 d [(1, a), (1, c)]
  | .shfl _ w _ d a n => vOk (if w then 2 else 1) d [(if w then 2 else 1, a), (1, n)]
  | .shfx _ w _ _ d a n c =>
    vOk (if w then 2 else 1) d [(if w then 2 else 1, a), (1, n), (if w then 2 else 1, c)]
  | .vote _ op _ =>
    match op with
    | .mask d => d.sca 1
    | _ => true
  | .rdlane _ w d a i => d.sca (if w then 2 else 1) && a.ok true (if w then 2 else 1) && i.unifL 1
  | .wrlane _ w d x i => d.vec (if w then 2 else 1) && x.unifL (if w then 2 else 1) && i.unifL 1
  | .iscan _ ty _ _ d a => d.vec ty.regs && a.ok true ty.regs
  | .ired _ ty _ d a => d.ok ty.regs && a.ok true ty.regs
  | .emrd d => d.sca 1
  | .emwr m | .emand m | .emor m => m.unifL 1
  | .ld _ _ w _ _ m d => loadOk w m d
  | .st _ _ w _ _ m x => storeOk w m x
  | .ldp p _ w _ m d => p != 7#3 && m.ok && d.vec w.regs
  | .lds _ _ w m d | .ldw _ _ w m d => loadOk w m d
  | .ldl _ _ w m d => m.ok && d.vec w.regs
  | .sts _ _ w m x | .stl _ _ w m x => storeOk w m x
  | .atom _ _ op w _ m x d =>
    !(op == .fadd && w == .w64) && m.ok && x.ok false w.regs && d.vec w.regs
  | .red _ _ op w _ m x => !(op == .fadd && w == .w64) && m.ok && x.ok false w.regs
  | .cas _ _ w _ m x d => m.ok && x.ok false w.regs && d.vec (2 * w.regs)
  | .atoml _ _ op w m x d =>
    !(op == .fadd && w == .w64) && m.ok && x.ok false w.regs && d.vec w.regs
  | .casl _ _ w m x d => m.ok && x.ok false w.regs && d.vec (2 * w.regs)
  | .fence .. | .drain .. | .mwait .. => true
  | .barw _ _ m | .bara _ _ m => m.once
  | .barm _ _ m k | .barinit _ _ m k => m.once && k.unif 1
  | .mon _ _ w _ m d => m.once && d.sca w.regs
  | .prf _ _ w _ m => cacheOk w m
  | .own _ _ w m | .unown _ _ w m | .cwb _ _ w m | .cinv _ _ w m => cacheOk w m
  | .bra .. => true
  | .brz _ a _ | .brnz _ a _ => a.unifL 1
  | .brany .. | .brall .. => true
  | .call _ n _ | .ret _ n | .jmpi _ n => pairIdx n
  | .loop .. | .exit .. | .yield .. | .yieldc .. | .trap .. | .brk .. | .nop .. => true
  | .tcfg _ _ c => c.unif 1
  | .tld _ _ b p | .tst _ _ b p => b.ok && p.ok
  | .tzero .. | .tmma .. | .tmmb .. => true
  | .tloop _ _ _ _ r => r.isScalar 1
  | .tvxm _ _ _ _ _ _ p => p.ok false 2 && p.isVector
  | .tdrain _ b _ _ _ st => b.ok && st.unif 1
  | .twait .. | .tcvt .. | .ttr .. => true
  | .tfill _ _ x => x.unif 1
  | .wsync _ m c => m.unif 2 && c.unif 1
  | .wsinfo _ d k => d.sca 1 && k.unif 1
  | .cpy _ tb ls ld r | .cpym _ tb ls ld r | .cpt _ tb ls ld r | .cpg _ tb ls ld r =>
    copyOk tb ls ld r
  | .tbinit _ _ b n | .tbexp _ b n => b.unif 1 && n.unif 1
  | .tbarr _ d b n => d.scaOrNone 1 && b.unif 1 && n.unif 1
  | .tbwait _ b ph => b.unif 1 && ph.unif 1
  | .rbind _ k rec => k.unif 1 && rec.unif 2
  | .racq _ d k => d.sca 2 && k.unif 1
  | .rrel _ k a => k.unif 1 && a.unif 1
  | .srd _ op d =>
    d.sca 1 && (match op with | .phase b | .arrive b | .sectors b => b.unif 1 | .jobs => true)
  | .eqry _ _ d q v => d.sca 1 && q.unif 2 && v.unif 1
  | .enext _ _ d => d.sca 2
  | .erow _ _ _ _ d h => d.vec 2 && h.ok false 2
  | .ecol _ _ _ d ref t w => d.vec 2 && ref.ok false 2 && t.ok false 1 && w.unif 1
  | .ehchk _ _ _ h => h.ok false 2
  | .eget _ _ wd _ _ d h t o => d.vec wd.regs && h.ok false 2 && t.ok false 1 && o.ok false 1
  | .eput _ _ wd _ _ x h t o => x.ok false wd.regs && x.isReg && h.ok false 2 && t.ok false 1 && o.ok false 1
  | .ecrt _ _ _ _ d ty =>
    d.vec 2 && (match ty with | none => true | some (ind, t, y) => t.ok false 1 && payOk ind y)
  | .edel _ _ _ _ h => h.ok false 2
  | .eadd _ _ ind _ _ h t y | .eset _ _ ind _ _ h t y =>
    h.ok false 2 && t.ok false 1 && payOk ind y
  | .erem _ _ _ _ h t => h.ok false 2 && t.ok false 1
  | .ecmt _ _ d => d.scaOrNone 1
  | .esync _ d w => d.scaOrNone 1 && w.unif 1
  | .epin _ _ d w v => d.sca 1 && w.unif 1 && v.unif 1
  | .eunpin _ w v => w.unif 1 && v.unif 1
  | .ever _ _ d w => d.sca 1 && w.unif 1
  | .txbeg .. | .txend .. | .txabt .. => true
  | .txst _ _ d => d.sca 1
  | .txcause _ _ d => d.vec 1
  | .rycl _ _ _ r m | .ryocc _ _ _ r m => rayOk r && m.ok false 1
  | .ryany _ _ r m => rayOk r && m.ok false 1
  | .ryacc .. => true
  | .ryres _ _ _ d => d.vec 1
  | .rywait .. | .ryinv .. => true
  | .rygeo _ _ rec => rec.unif 2
  | .rypst _ d c => d.sca 1 && c.unif 1
  | .zrd _ d n => d.sca 1 && n.unif 1
  | .zwr _ n x => n.unif 1 && x.unif 1
  | .tlbi _ r => match r with | none => true | some (va, n) => va.isScalar 2 && n.unif 1
  | .tlbsync .. | .trapret .. => true
  | .ctxsv _ d c a | .ctxld _ d c a => d.sca 1 && c.unif 1 && a.unif 2
  | .wsld _ w a n => w.unif 1 && a.unif 2 && n.unif 1
  | .gsub _ d k a => d.scaOrNone 1 && k.unif 1 && a.unif 2
  | .gkick _ d k v => d.scaOrNone 1 && k.unif 1 && v.unif 1
  | .gsig _ _ t v | .gwait _ t v => t.unif 2 && v.unif 2
  | .gdep _ d a b => d.sca 1 && a.unif 2 && b.unif 2
  | .movK _ d _ => d.ok 1
  | .iaddK _ d a _ | .isubK _ d a _ | .imulK _ d a _ | .andK _ d a _ | .orK _ d a _
  | .xorK _ d a _ | .shlK _ d a _ | .shrK _ d a _ | .sraK _ d a _ | .faddK _ d a _
  | .fmulK _ d a _ => vOk 1 d [(1, a)]
  | _ => true

end Sys2Proof
end

