-- ==== Sys2Proof/Decode.lean ====
section
/-! DEFINITION. Clause headers, the decoder from words to instructions with the two decode traps it can find (R43, R46, R50 to R59), and the encoder written from the same tables. -/

namespace Sys2Proof

/-- The two traps decoding an instruction word can raise, in the order R46 gives. -/
inductive DecErr where
  | illOp
  | illOperand
  deriving DecidableEq, Repr

/-- A decoded clause header (R43, Table 3-1). `count` is COUNT, the instruction words minus one. -/
structure Header where
  cls : Cls
  count : Nat
  waitsb : BitVec 8
  yields : Bool
  tailc : Bool
  lua : BitVec 16
  lub : BitVec 16
  deriving DecidableEq, Repr

/-- CLASS codes (Table 3-2). -/
def Cls.ofCode : BitVec 4 → Option Cls
  | 0 => some .V | 1 => some .M | 2 => some .C | 3 => some .X | 4 => some .S
  | 5 => some .E | 6 => some .T | 7 => some .Y | 8 => some .Z | 9 => some .G
  | _ => none

def Cls.code : Cls → BitVec 4
  | .V => 0 | .M => 1 | .C => 2 | .X => 3 | .S => 4 | .E => 5 | .T => 6 | .Y => 7 | .Z => 8 | .G => 9

/-- Some set bit of a last-use field lies above COUNT (R43). -/
def lastUseBeyond (lu : BitVec 16) (count : Nat) : Bool :=
  decide (2 ^ (count + 1) ≤ lu.toNat)

/-- Decode a header word; none is E_ILL_CLAUSE (R43). -/
def decodeHeader (w : DWord) : Option Header :=
  match Cls.ofCode (w.extractLsb' 60 4) with
  | none => none
  | some cls =>
    let count := (w.extractLsb' 56 4).toNat
    let tailc := w.getLsbD 46
    let lua := w.extractLsb' 30 16
    let lub := w.extractLsb' 14 16
    if (cls == .C && tailc) || lastUseBeyond lua count || lastUseBeyond lub count
        || w.extractLsb' 0 14 != 0 then none
    else some { cls := cls, count := count, waitsb := w.extractLsb' 48 8, yields := w.getLsbD 47,
                tailc := tailc, lua := lua, lub := lub }

/-- The header word of a clause with no scoreboard wait and no last use. -/
def plainHeader (cls : Cls) (count : Nat) : DWord :=
  BitVec.ofNat 64 (cls.code.toNat * 2 ^ 60 + count % 16 * 2 ^ 56)

/-! ## Format fields (R50, Tables 3-4 to 3-7) -/

structure VF where
  opc : BitVec 10
  dst : BitVec 10
  sa : BitVec 10
  sb : BitVec 10
  sc : BitVec 10
  pred : BitVec 4
  sbn : BitVec 3
  sbe : BitVec 1
  mod : BitVec 6
  deriving DecidableEq, Repr

def VF.ofWord (w : DWord) : VF where
  opc := w.extractLsb' 54 10
  dst := w.extractLsb' 44 10
  sa := w.extractLsb' 34 10
  sb := w.extractLsb' 24 10
  sc := w.extractLsb' 14 10
  pred := w.extractLsb' 10 4
  sbn := w.extractLsb' 7 3
  sbe := w.extractLsb' 6 1
  mod := w.extractLsb' 0 6

def VF.toWord (f : VF) : DWord :=
  f.opc ++ f.dst ++ f.sa ++ f.sb ++ f.sc ++ f.pred ++ f.sbn ++ f.sbe ++ f.mod

structure KF where
  opc : BitVec 10
  dst : BitVec 10
  sa : BitVec 10
  pred2 : BitVec 2
  imm : Word
  deriving DecidableEq, Repr

def KF.ofWord (w : DWord) : KF where
  opc := w.extractLsb' 54 10
  dst := w.extractLsb' 44 10
  sa := w.extractLsb' 34 10
  pred2 := w.extractLsb' 32 2
  imm := w.extractLsb' 0 32

def KF.toWord (f : KF) : DWord := f.opc ++ f.dst ++ f.sa ++ f.pred2 ++ f.imm

structure MF where
  opc : BitVec 10
  data : BitVec 10
  base : BitVec 10
  index : BitVec 10
  off : BitVec 8
  cpol : BitVec 2
  pred : BitVec 4
  sbn : BitVec 3
  sbe : BitVec 1
  mod : BitVec 6
  deriving DecidableEq, Repr

def MF.ofWord (w : DWord) : MF where
  opc := w.extractLsb' 54 10
  data := w.extractLsb' 44 10
  base := w.extractLsb' 34 10
  index := w.extractLsb' 24 10
  off := w.extractLsb' 16 8
  cpol := w.extractLsb' 14 2
  pred := w.extractLsb' 10 4
  sbn := w.extractLsb' 7 3
  sbe := w.extractLsb' 6 1
  mod := w.extractLsb' 0 6

def MF.toWord (f : MF) : DWord :=
  f.opc ++ f.data ++ f.base ++ f.index ++ f.off ++ f.cpol ++ f.pred ++ f.sbn ++ f.sbe ++ f.mod

structure BF where
  opc : BitVec 10
  sa : BitVec 10
  pred : BitVec 4
  res : BitVec 8
  rel : Word
  deriving DecidableEq, Repr

def BF.ofWord (w : DWord) : BF where
  opc := w.extractLsb' 54 10
  sa := w.extractLsb' 44 10
  pred := w.extractLsb' 40 4
  res := w.extractLsb' 32 8
  rel := w.extractLsb' 0 32

def BF.toWord (f : BF) : DWord := f.opc ++ f.sa ++ f.pred ++ f.res ++ f.rel

/-! ## Codes of the small types -/

def IntTy.ofCode : BitVec 3 → IntTy
  | 0 => .s32 | 1 => .n32 | 2 => .s64 | 3 => .n64 | 4 => .s16 | 5 => .n16 | 6 => .s8 | _ => .n8

def IntTy.code : IntTy → BitVec 3
  | .s32 => 0 | .n32 => 1 | .s64 => 2 | .n64 => 3 | .s16 => 4 | .n16 => 5 | .s8 => 6 | .n8 => 7

def Rnd.ofCode : BitVec 2 → Rnd
  | 0 => .rne | 1 => .rtz | 2 => .rdn | _ => .rup

def Rnd.code : Rnd → BitVec 2
  | .rne => 0 | .rtz => 1 | .rdn => 2 | .rup => 3

def ICc.ofCode : BitVec 3 → Option ICc
  | 0 => some .eq | 1 => some .ne | 2 => some .lt | 3 => some .le | 4 => some .gt | 5 => some .ge
  | _ => none

def ICc.code : ICc → BitVec 3
  | .eq => 0 | .ne => 1 | .lt => 2 | .le => 3 | .gt => 4 | .ge => 5

def FCc.ofCode : BitVec 4 → Option FCc
  | 0 => some .eq | 1 => some .ne | 2 => some .lt | 3 => some .le | 4 => some .gt | 5 => some .ge
  | 6 => some .num | 7 => some .nan | 8 => some .equ | 9 => some .neu | 10 => some .ltu
  | 11 => some .leu | 12 => some .gtu | 13 => some .geu | _ => none

def FCc.code : FCc → BitVec 4
  | .eq => 0 | .ne => 1 | .lt => 2 | .le => 3 | .gt => 4 | .ge => 5 | .num => 6 | .nan => 7
  | .equ => 8 | .neu => 9 | .ltu => 10 | .leu => 11 | .gtu => 12 | .geu => 13

def POp.ofCode : BitVec 3 → Option POp
  | 0 => some .and | 1 => some .or | 2 => some .xor | 3 => some .andn | 4 => some .orn | _ => none

def POp.code : POp → BitVec 3
  | .and => 0 | .or => 1 | .xor => 2 | .andn => 3 | .orn => 4

def Special.ofCode : BitVec 4 → Option Special
  | 0 => some .lane | 1 => some .train | 2 => some .wheel | 3 => some .wheels | 4 => some .role
  | 5 => some .core | 6 => some .ctx | 7 => some .clock | 8 => some .param | _ => none

def Special.code : Special → BitVec 4
  | .lane => 0 | .train => 1 | .wheel => 2 | .wheels => 3 | .role => 4 | .core => 5 | .ctx => 6
  | .clock => 7 | .param => 8

def ShMode.ofCode : BitVec 2 → ShMode
  | 0 => .abs | 1 => .sub | 2 => .add | _ => .flip

def ShMode.code : ShMode → BitVec 2
  | .abs => 0 | .sub => 1 | .add => 2 | .flip => 3

def Seg.ofCode : BitVec 3 → Option Seg
  | 0 => some .seg2 | 1 => some .seg4 | 2 => some .seg8 | 3 => some .seg16 | 4 => some .seg32
  | _ => none

def Seg.code : Seg → BitVec 3
  | .seg2 => 0 | .seg4 => 1 | .seg8 => 2 | .seg16 => 3 | .seg32 => 4

def ScanOp.ofCode : BitVec 2 → ScanOp
  | 0 => .add | 1 => .min | 2 => .max | _ => .or

def ScanOp.code : ScanOp → BitVec 2
  | .add => 0 | .min => 1 | .max => 2 | .or => 3

/-- Bits W64 and UNS of `iscan` and `ired`. -/
def ScanTy.ofCode : BitVec 2 → ScanTy
  | 0 => .s32 | 1 => .n32 | 2 => .s64 | _ => .n64

def ScanTy.code : ScanTy → BitVec 2
  | .s32 => 0 | .n32 => 1 | .s64 => 2 | .n64 => 3

def MW.ofCode : BitVec 3 → Option MW
  | 0 => some .n8 | 1 => some .n16 | 2 => some .w32 | 3 => some .w64 | 4 => some .b128
  | 5 => some .s8 | 6 => some .s16 | _ => none

def MW.code : MW → BitVec 3
  | .n8 => 0 | .n16 => 1 | .w32 => 2 | .w64 => 3 | .b128 => 4 | .s8 => 5 | .s16 => 6

def AW.ofCode : BitVec 3 → Option AW
  | 2 => some .w32 | 3 => some .w64 | _ => none

def AW.code : AW → BitVec 3
  | .w32 => 2 | .w64 => 3

def Ord.ofCode : BitVec 2 → Ord
  | 0 => .plain | 1 => .acq | 2 => .rel | _ => .acqrel

def Ord.code : Ord → BitVec 2
  | .plain => 0 | .acq => 1 | .rel => 2 | .acqrel => 3

def Cpol.ofCode : BitVec 2 → Cpol
  | 0 => .dflt | 1 => .stream | 2 => .keep | _ => .fresh

def Cpol.code : Cpol → BitVec 2
  | .dflt => 0 | .stream => 1 | .keep => 2 | .fresh => 3

def AOp.ofCode : BitVec 3 → AOp
  | 0 => .add | 1 => .and | 2 => .or | 3 => .xor | 4 => .exch | 5 => .min | 6 => .max | _ => .fadd

def AOp.code : AOp → BitVec 3
  | .add => 0 | .and => 1 | .or => 2 | .xor => 3 | .exch => 4 | .min => 5 | .max => 6 | .fadd => 7

def WD.ofCode : BitVec 2 → Option WD
  | 0 => some .b32 | 1 => some .b64 | 2 => some .b128 | _ => none

def WD.code : WD → BitVec 2
  | .b32 => 0 | .b64 => 1 | .b128 => 2

def RyField.ofCode : BitVec 3 → Option RyField
  | 0 => some .t | 1 => some .prim | 2 => some .inst | 3 => some .u | 4 => some .v | 5 => some .kind
  | 6 => some .cand | _ => none

def RyField.code : RyField → BitVec 3
  | .t => 0 | .prim => 1 | .inst => 2 | .u => 3 | .v => 4 | .kind => 5 | .cand => 6

def bit1 (b : Bool) : BitVec 1 := if b then 1 else 0

/-! ## Operand fields -/

abbrev Dec (α : Type) := Except DecErr α

/-- The check that raises E_ILL_OP unless `b`. -/
def op (b : Bool) : Dec Unit := if b then .ok () else .error .illOp

/-- The check that raises E_ILL_OPERAND unless `b`. -/
def opd (b : Bool) : Dec Unit := if b then .ok () else .error .illOperand

/-- A listed code, or E_ILL_OP. -/
def opt {α : Type} : Option α → Dec α
  | some x => .ok x
  | none => .error .illOp

/-- A source field (R52, Table 3-8). -/
def decSrc (f : BitVec 10) : Dec Src :=
  match f.extractLsb' 8 2 with
  | 0 => .ok (.v (f.extractLsb' 0 8))
  | 1 => if f.extractLsb' 6 2 = 0 then .ok (.s (f.extractLsb' 0 6)) else .error .illOperand
  | 2 => if f.extractLsb' 2 6 = 0 then .ok (.b (f.extractLsb' 0 2)) else .error .illOperand
  | _ => .ok (.c (f.extractLsb' 0 8))

def encSrc : Src → BitVec 10
  | .v i => 0#2 ++ i
  | .s i => 1#2 ++ (0#2 ++ i)
  | .b i => 2#2 ++ (0#6 ++ i)
  | .c e => 3#2 ++ e

/-- A register destination field (R54). -/
def decDst (f : BitVec 10) : Dst := ⟨f.getLsbD 9, f.getLsbD 8, f.extractLsb' 0 8⟩

def encDst (d : Dst) : BitVec 10 := bit1 d.nowb ++ (bit1 d.scalar ++ d.idx)

/-- A predicate destination field: bits 8:3 zero (R54). -/
def decPDst (f : BitVec 10) : Dec PDst :=
  if f.extractLsb' 3 6 = 0 then .ok ⟨f.getLsbD 9, f.extractLsb' 0 3⟩ else .error .illOperand

def encPDst (d : PDst) : BitVec 10 := bit1 d.nowb ++ (0#6 ++ d.p)

/-- A predicate source or tile field: bits 9:3 zero (R97, R286). -/
def decP (f : BitVec 10) : Dec (BitVec 3) :=
  if f.extractLsb' 3 7 = 0 then .ok (f.extractLsb' 0 3) else .error .illOperand

def encP (p : BitVec 3) : BitVec 10 := 0#7 ++ p

/-- A DST read as a source, its NOWB bit zero: a register (R201, R247). -/
def decDstSrc (f : BitVec 10) : Dec Src := if f.getLsbD 9 then .error .illOperand else decSrc f

/-- A scalar register named by a class C instruction (R82, R83, R85). -/
def decS (f : BitVec 10) : Dec (BitVec 6) :=
  if f.extractLsb' 6 4 = 4 then .ok (f.extractLsb' 0 6) else .error .illOperand

def encS (n : BitVec 6) : BitVec 10 := 4#4 ++ n

/-- Scoreboard fields: SBE = 0 with SBN ≠ 0 is E_ILL_OP (R47). -/
def decSb (sbe : BitVec 1) (sbn : BitVec 3) : Dec Sb :=
  if sbe = 1 then .ok (some sbn) else if sbn = 0 then .ok none else .error .illOp

def sbnOf : Sb → BitVec 3
  | some n => n
  | none => 0

def sbeOf : Sb → BitVec 1
  | some _ => 1
  | none => 0

/-! ## Class V -/

namespace VF

/-- SB and SC reserved. -/
def only1 (f : VF) : Bool := f.sb == 0 && f.sc == 0
/-- SC reserved. -/
def only2 (f : VF) : Bool := f.sc == 0
/-- SA, SB and SC reserved. -/
def only0 (f : VF) : Bool := f.sa == 0 && f.sb == 0 && f.sc == 0
def noMod (f : VF) : Bool := f.mod == 0
def always (f : VF) : Bool := f.pred == 7
def ty (f : VF) : IntTy := IntTy.ofCode (f.mod.extractLsb' 0 3)
/-- MOD of an instruction whose TY only gives the width. -/
def wideMod (f : VF) : Bool := f.mod.extractLsb' 3 3 == 0 && f.ty.wide
/-- MOD with SAT in bit 3 and TY below. -/
def satMod (f : VF) : Bool := f.mod.extractLsb' 4 2 == 0
def sat3 (f : VF) : Bool := f.mod.getLsbD 3
/-- MOD of `fadd` and its family: SAT in bit 2, RND in bits 1:0. -/
def fMod (f : VF) : Bool := f.mod.extractLsb' 3 3 == 0
def rnd0 (f : VF) : Rnd := Rnd.ofCode (f.mod.extractLsb' 0 2)
def sb? (f : VF) : Dec Sb := decSb f.sbe f.sbn

end VF

def decMov (f : VF) : Dec Instr := do
  op (f.only1 && f.wideMod)
  let a ← decSrc f.sa
  pure (.mov f.pred f.ty (decDst f.dst) a)

/-- Two-source instructions with a width. -/
def decWide2 (k : Guard → IntTy → Dst → Src → Src → Instr) (f : VF) : Dec Instr := do
  op (f.only2 && f.wideMod)
  let a ← decSrc f.sa
  let b ← decSrc f.sb
  pure (k f.pred f.ty (decDst f.dst) a b)

def decWide1 (k : Guard → IntTy → Dst → Src → Instr) (f : VF) : Dec Instr := do
  op (f.only1 && f.wideMod)
  let a ← decSrc f.sa
  pure (k f.pred f.ty (decDst f.dst) a)

def decSat2 (k : Guard → Bool → IntTy → Dst → Src → Src → Instr) (f : VF) : Dec Instr := do
  op (f.only2 && f.satMod)
  let a ← decSrc f.sa
  let b ← decSrc f.sb
  pure (k f.pred f.sat3 f.ty (decDst f.dst) a b)

def decTy2 (k : Guard → IntTy → Dst → Src → Src → Instr) (f : VF) : Dec Instr := do
  op (f.only2 && f.mod.extractLsb' 3 3 == 0)
  let a ← decSrc f.sa
  let b ← decSrc f.sb
  pure (k f.pred f.ty (decDst f.dst) a b)

def decF2 (k : Guard → Bool → Rnd → Dst → Src → Src → Instr) (f : VF) : Dec Instr := do
  op (f.only2 && f.fMod)
  let a ← decSrc f.sa
  let b ← decSrc f.sb
  pure (k f.pred (f.mod.getLsbD 2) f.rnd0 (decDst f.dst) a b)

def decPlain2 (k : Guard → Dst → Src → Src → Instr) (f : VF) : Dec Instr := do
  op (f.only2 && f.noMod)
  let a ← decSrc f.sa
  let b ← decSrc f.sb
  pure (k f.pred (decDst f.dst) a b)

def decPlain1 (k : Guard → Dst → Src → Instr) (f : VF) : Dec Instr := do
  op (f.only1 && f.noMod)
  let a ← decSrc f.sa
  pure (k f.pred (decDst f.dst) a)

def decH2 (k : Guard → Bool → Rnd → Bool → Dst → Src → Src → Instr) (f : VF) : Dec Instr := do
  op (f.only2 && f.mod.extractLsb' 4 2 == 0)
  let a ← decSrc f.sa
  let b ← decSrc f.sb
  pure (k f.pred f.sat3 (Rnd.ofCode (f.mod.extractLsb' 1 2)) (f.mod.getLsbD 0) (decDst f.dst) a b)

def decCvt (k : Guard → Rnd → IntTy → Dst → Src → Instr) (f : VF) : Dec Instr := do
  op (f.only1 && f.mod.extractLsb' 5 1 == 0)
  let a ← decSrc f.sa
  pure (k f.pred (Rnd.ofCode (f.mod.extractLsb' 3 2)) f.ty (decDst f.dst) a)

def decCvth (f : VF) : Dec Instr :=
  if f.mod.getLsbD 0 then do
    op (f.only1 && f.mod.extractLsb' 3 3 == 0)
    let a ← decSrc f.sa
    pure (.cvth f.pred (decDst f.dst) (.up (f.mod.getLsbD 2) (f.mod.getLsbD 1) a))
  else do
    op (f.only2 && !f.mod.getLsbD 1)
    let a ← decSrc f.sa
    let b ← decSrc f.sb
    pure (.cvth f.pred (decDst f.dst)
      (.pk (f.mod.getLsbD 5) (Rnd.ofCode (f.mod.extractLsb' 3 2)) (f.mod.getLsbD 2) a b))

def decCvtn (f : VF) : Dec Instr :=
  if f.mod.getLsbD 3 then do
    op (f.mod.extractLsb' 4 2 == 0 && f.sb == 0)
    let a ← decSrc f.sa
    let c ← decSrc f.sc
    pure (.cvtn f.pred (f.mod.extractLsb' 0 3) (decDst f.dst) (.up a c))
  else do
    op (f.mod.extractLsb' 4 2 == 0)
    let a ← decSrc f.sa
    let b ← decSrc f.sb
    let c ← decSrc f.sc
    pure (.cvtn f.pred (f.mod.extractLsb' 0 3) (decDst f.dst) (.pk a b c))

def decVote (f : VF) : Dec Instr := do
  op (f.only1 && f.mod.extractLsb' 2 4 == 0)
  let pa ← decP f.sa
  match f.mod.extractLsb' 0 2 with
  | 0 => do let d ← decPDst f.dst; pure (.vote f.pred (.some d) pa)
  | 1 => do let d ← decPDst f.dst; pure (.vote f.pred (.every d) pa)
  | 2 => do let d ← decPDst f.dst; pure (.vote f.pred (.agree d) pa)
  | _ => pure (.vote f.pred (.mask (decDst f.dst)) pa)

def decPmov (f : VF) : Dec Instr :=
  if f.mod.getLsbD 0 then do
    op (f.only1 && f.mod.extractLsb' 1 5 == 0)
    let p ← decP f.sa
    pure (.pmov f.pred (.toScalar (decDst f.dst) p))
  else do
    op (f.only1 && f.mod.extractLsb' 1 5 == 0)
    let d ← decPDst f.dst
    let m ← decSrc f.sa
    pure (.pmov f.pred (.toPred d m))

/-- The four `em` instructions: PRED always (R112). -/
def decEm (k : Src → Instr) (f : VF) : Dec Instr := do
  op (f.dst == 0 && f.only1 && f.noMod && f.always)
  let m ← decSrc f.sa
  pure (k m)

/-- Class V opcodes in format V (Table 3-12). -/
def decV (f : VF) : Dec Instr := do
  op (f.sbe == 0 && f.sbn == 0)
  match f.opc.toNat with
  | 0x00 => decMov f
  | 0x01 => decPlain2 .movk f
  | 0x02 => do
    op (f.only0 && f.mod.extractLsb' 4 2 == 0)
    let sel ← opt (Special.ofCode (f.mod.extractLsb' 0 4))
    pure (.movs f.pred (decDst f.dst) sel)
  | 0x03 => do
    op f.wideMod
    let a ← decSrc f.sa
    let b ← decSrc f.sb
    let p ← decP f.sc
    pure (.sel f.pred f.ty (decDst f.dst) a b p)
  | 0x04 => decSat2 .iadd f
  | 0x05 => decSat2 .isub f
  | 0x06 => decSat2 .imul f
  | 0x07 => decWide2 .imulh f
  | 0x08 => do
    op f.satMod
    let a ← decSrc f.sa
    let b ← decSrc f.sb
    let c ← decSrc f.sc
    pure (.imad f.pred f.sat3 f.ty (decDst f.dst) a b c)
  | 0x09 => decTy2 .imin f
  | 0x0A => decTy2 .imax f
  | 0x0B => do
    op (f.only1 && f.satMod && f.ty.signed)
    let a ← decSrc f.sa
    pure (.iabs f.pred f.sat3 f.ty (decDst f.dst) a)
  | 0x0C => do
    op (f.only2 && f.mod.extractLsb' 1 5 == 0)
    let a ← decSrc f.sa
    let b ← decSrc f.sb
    pure (.iaddx f.pred (f.mod.getLsbD 0) (decDst f.dst) a b)
  | 0x0D => do
    op (f.mod.extractLsb' 1 5 == 0)
    let a ← decSrc f.sa
    let b ← decSrc f.sb
    let c ← decSrc f.sc
    pure (.imadx f.pred (f.mod.getLsbD 0) (decDst f.dst) a b c)
  | 0x10 => decWide2 .and f
  | 0x11 => decWide2 .or f
  | 0x12 => decWide2 .xor f
  | 0x13 => decWide2 .andn f
  | 0x14 => do
    op f.noMod
    let a ← decSrc f.sa
    let b ← decSrc f.sb
    let t ← decSrc f.sc
    pure (.lop3 f.pred (decDst f.dst) a b t)
  | 0x15 => decWide2 .shl f
  | 0x16 => decWide2 .shr f
  | 0x17 => decWide2 .sra f
  | 0x18 => decWide2 .rot f
  | 0x19 => decWide2 .bfx f
  | 0x1A => do
    op f.wideMod
    let a ← decSrc f.sa
    let b ← decSrc f.sb
    let c ← decSrc f.sc
    pure (.bfi f.pred f.ty (decDst f.dst) a b c)
  | 0x1B => decWide1 .popc f
  | 0x1C => decWide1 .clz f
  | 0x1D => decWide1 .brev f
  | 0x20 => do
    op f.only2
    let cc ← opt (ICc.ofCode (f.mod.extractLsb' 3 3))
    let d ← decPDst f.dst
    let a ← decSrc f.sa
    let b ← decSrc f.sb
    pure (.icmp f.pred cc f.ty d a b)
  | 0x21 => do
    op (f.only2 && f.mod.extractLsb' 4 2 == 0)
    let cc ← opt (FCc.ofCode (f.mod.extractLsb' 0 4))
    let d ← decPDst f.dst
    let a ← decSrc f.sa
    let b ← decSrc f.sb
    pure (.fcmp f.pred cc d a b)
  | 0x22 => do
    op (f.only2 && f.mod.extractLsb' 3 3 == 0)
    let o ← opt (POp.ofCode (f.mod.extractLsb' 0 3))
    let d ← decPDst f.dst
    let pa ← decP f.sa
    let pb ← decP f.sb
    pure (.plop f.pred o d pa pb)
  | 0x23 => decPmov f
  | 0x28 => decF2 .fadd f
  | 0x29 => decF2 .fsub f
  | 0x2A => decF2 .fmul f
  | 0x2B => do
    op f.fMod
    let a ← decSrc f.sa
    let b ← decSrc f.sb
    let c ← decSrc f.sc
    pure (.ffma f.pred (f.mod.getLsbD 2) f.rnd0 (decDst f.dst) a b c)
  | 0x2C => decPlain2 .fmin f
  | 0x2D => decPlain2 .fmax f
  | 0x2E => do
    op (f.only1 && f.mod.extractLsb' 2 4 == 0)
    let a ← decSrc f.sa
    pure (.frnd f.pred f.rnd0 (decDst f.dst) a)
  | 0x30 => decPlain1 .frcp f
  | 0x31 => decPlain1 .frsq f
  | 0x32 => decPlain1 .fsqrt f
  | 0x33 => decPlain1 .fexp2 f
  | 0x34 => decPlain1 .flog2 f
  | 0x35 => decPlain1 .fsin f
  | 0x36 => decPlain1 .fcos f
  | 0x38 => decH2 .hadd2 f
  | 0x39 => decH2 .hmul2 f
  | 0x3A => do
    op (f.mod.extractLsb' 4 2 == 0)
    let a ← decSrc f.sa
    let b ← decSrc f.sb
    let c ← decSrc f.sc
    pure (.hfma2 f.pred f.sat3 (Rnd.ofCode (f.mod.extractLsb' 1 2)) (f.mod.getLsbD 0)
      (decDst f.dst) a b c)
  | 0x40 => decCvt .cvti f
  | 0x41 => decCvt .cvtf f
  | 0x42 => decCvth f
  | 0x43 => decCvtn f
  | 0x48 => do
    op (f.only2 && f.mod.extractLsb' 2 3 == 0)
    let a ← decSrc f.sa
    let n ← decSrc f.sb
    pure (.shfl f.pred (f.mod.getLsbD 5) (ShMode.ofCode (f.mod.extractLsb' 0 2)) (decDst f.dst) a n)
  | 0x49 => do
    let seg ← opt (Seg.ofCode (f.mod.extractLsb' 2 3))
    let a ← decSrc f.sa
    let n ← decSrc f.sb
    let c ← decSrc f.sc
    pure (.shfx f.pred (f.mod.getLsbD 5) seg (ShMode.ofCode (f.mod.extractLsb' 0 2))
      (decDst f.dst) a n c)
  | 0x4A => decVote f
  | 0x4B => do
    op (f.only2 && f.mod.extractLsb' 0 5 == 0)
    let a ← decSrc f.sa
    let i ← decSrc f.sb
    pure (.rdlane f.pred (f.mod.getLsbD 5) (decDst f.dst) a i)
  | 0x4C => do
    op (f.only2 && f.mod.extractLsb' 0 5 == 0)
    let x ← decSrc f.sa
    let i ← decSrc f.sb
    pure (.wrlane f.pred (f.mod.getLsbD 5) (decDst f.dst) x i)
  | 0x4D => do
    op (f.only1 && f.mod.extractLsb' 5 1 == 0)
    let a ← decSrc f.sa
    pure (.iscan f.pred (ScanTy.ofCode (f.mod.extractLsb' 3 2)) (f.mod.getLsbD 2)
      (ScanOp.ofCode (f.mod.extractLsb' 0 2)) (decDst f.dst) a)
  | 0x4E => do
    op (f.only1 && f.mod.extractLsb' 5 1 == 0 && !f.mod.getLsbD 2)
    let a ← decSrc f.sa
    pure (.ired f.pred (ScanTy.ofCode (f.mod.extractLsb' 3 2))
      (ScanOp.ofCode (f.mod.extractLsb' 0 2)) (decDst f.dst) a)
  | 0x50 => do
    op (f.only0 && f.noMod && f.always)
    pure (.emrd (decDst f.dst))
  | 0x51 => decEm .emwr f
  | 0x52 => decEm .emand f
  | 0x53 => decEm .emor f
  | _ => .error .illOp

def decK1 (k : BitVec 2 → Dst → Src → Word → Instr) (f : KF) : Dec Instr := do
  let a ← decSrc f.sa
  pure (k f.pred2 (decDst f.dst) a f.imm)

/-- The K forms (R113, Table 3-12). -/
def decVK (f : KF) : Dec Instr :=
  match f.opc.toNat with
  | 0x200 => do
    op (f.sa == 0)
    pure (.movK f.pred2 (decDst f.dst) f.imm)
  | 0x204 => decK1 .iaddK f
  | 0x205 => decK1 .isubK f
  | 0x206 => decK1 .imulK f
  | 0x210 => decK1 .andK f
  | 0x211 => decK1 .orK f
  | 0x212 => decK1 .xorK f
  | 0x215 => decK1 .shlK f
  | 0x216 => decK1 .shrK f
  | 0x217 => decK1 .sraK f
  | 0x228 => decK1 .faddK f
  | 0x22A => decK1 .fmulK f
  | _ => .error .illOp

/-! ## Class M -/

namespace MF
def sb? (f : MF) : Dec Sb := decSb f.sbe f.sbn
def ord (f : MF) : Ord := Ord.ofCode (f.mod.extractLsb' 3 2)
def width (f : MF) : Option MW := MW.ofCode (f.mod.extractLsb' 0 3)
def aw (f : MF) : Option AW := AW.ofCode (f.mod.extractLsb' 0 3)
def scale (f : MF) : Bool := f.mod.getLsbD 5
def plain (f : MF) : Bool := f.ord == .plain
def noPol (f : MF) : Bool := f.cpol == 0
/-- OP is MOD[5]:CPOL[1:0] (R114). -/
def aop (f : MF) : AOp := AOp.ofCode (bit1 f.scale ++ f.cpol)
def idxAbsent (f : MF) : Bool := f.index == 0x3FF
end MF

def decMem (f : MF) : Dec Mem := do
  let b ← decSrc f.base
  let i ← decSrc f.index
  pure ⟨b, i, f.scale, f.off⟩

def decMemB (f : MF) : Dec MemB := do
  let b ← decSrc f.base
  pure ⟨b, f.off⟩

def decLoad (pol : Bool) (k : Guard → Sb → MW → Mem → Dst → Instr) (f : MF) : Dec Instr := do
  let sb ← f.sb?
  op (f.plain && (pol || f.noPol))
  let w ← opt f.width
  let m ← decMem f
  pure (k f.pred sb w m (decDst f.data))

def decStore (k : Guard → Sb → MW → Mem → Src → Instr) (f : MF) : Dec Instr := do
  let sb ← f.sb?
  op (f.plain && f.noPol)
  let w ← opt f.width
  op w.storable
  let m ← decMem f
  let x ← decSrc f.data
  pure (k f.pred sb w m x)

/-- `prf`, `own`, `unown`, `cwb`, `cinv`. -/
def decCache (pol : Bool) (k : Guard → Sb → MW → Mem → Instr) (f : MF) : Dec Instr := do
  let sb ← f.sb?
  op (f.data == 0 && f.plain && (pol || f.noPol))
  let w ← opt f.width
  op w.storable
  let m ← decMem f
  pure (k f.pred sb w m)

/-- `fence`, `drain`, `mwait`. -/
def decNoArg (k : Guard → Sb → Instr) (f : MF) : Dec Instr := do
  let sb ← f.sb?
  op (f.data == 0 && f.base == 0 && f.index == 0 && f.off == 0 && f.noPol && f.mod == 0)
  pure (k f.pred sb)

/-- `barw` and `bara`. -/
def decBar (k : Guard → Sb → MemB → Instr) (f : MF) : Dec Instr := do
  let sb ← f.sb?
  op (f.data == 0 && f.idxAbsent && f.noPol && f.mod == 3)
  let m ← decMemB f
  pure (k f.pred sb m)

/-- `barm` and `barinit`. -/
def decBarM (k : Guard → Sb → MemB → Src → Instr) (f : MF) : Dec Instr := do
  let sb ← f.sb?
  op (f.data == 0 && f.noPol && f.mod == 3)
  let m ← decMemB f
  let x ← decSrc f.index
  pure (k f.pred sb m x)

/-- `fadd` has the 32-bit width only (R131). -/
def aopOk (o : AOp) (w : AW) : Bool := !(o == .fadd && w == .w64)

def decM (f : MF) : Dec Instr :=
  match f.opc.toNat with
  | 0x00 => do
    let sb ← f.sb?
    op (f.plain || f.ord == .acq)
    let w ← opt f.width
    let m ← decMem f
    pure (.ld f.pred sb w (f.ord == .acq) (Cpol.ofCode f.cpol) m (decDst f.data))
  | 0x01 => do
    let sb ← f.sb?
    op (f.plain || f.ord == .rel)
    let w ← opt f.width
    op w.storable
    let m ← decMem f
    let x ← decSrc f.data
    pure (.st f.pred sb w (f.ord == .rel) (Cpol.ofCode f.cpol) m x)
  | 0x02 => do
    let sb ← f.sb?
    op (f.plain && f.pred.extractLsb' 3 1 == 0 && f.pred.extractLsb' 0 3 != 7)
    let w ← opt f.width
    let m ← decMem f
    pure (.ldp (f.pred.extractLsb' 0 3) sb w (Cpol.ofCode f.cpol) m (decDst f.data))
  | 0x03 => decLoad false .lds f
  | 0x04 => decStore .sts f
  | 0x05 => decLoad false .ldl f
  | 0x06 => decStore .stl f
  | 0x07 => decLoad false .ldw f
  | 0x10 => do
    let sb ← f.sb?
    let w ← opt f.aw
    op (aopOk f.aop w)
    let m ← decMemB f
    let x ← decSrc f.index
    pure (.atom f.pred sb f.aop w f.ord m x (decDst f.data))
  | 0x11 => do
    let sb ← f.sb?
    let w ← opt f.aw
    op ((f.plain || f.ord == .rel) && f.idxAbsent && aopOk f.aop w)
    let m ← decMemB f
    let x ← decSrc f.data
    pure (.red f.pred sb f.aop w (f.ord == .rel) m x)
  | 0x12 => do
    let sb ← f.sb?
    op (!f.scale && f.noPol)
    let w ← opt f.aw
    let m ← decMemB f
    let x ← decSrc f.index
    pure (.cas f.pred sb w f.ord m x (decDst f.data))
  | 0x13 => do
    let sb ← f.sb?
    op f.plain
    let w ← opt f.aw
    op (aopOk f.aop w)
    let m ← decMemB f
    let x ← decSrc f.index
    pure (.atoml f.pred sb f.aop w m x (decDst f.data))
  | 0x14 => do
    let sb ← f.sb?
    op (f.plain && !f.scale && f.noPol)
    let w ← opt f.aw
    let m ← decMemB f
    let x ← decSrc f.index
    pure (.casl f.pred sb w m x (decDst f.data))
  | 0x18 => decNoArg .fence f
  | 0x19 => decNoArg .drain f
  | 0x20 => decBar .barw f
  | 0x21 => decBar .bara f
  | 0x22 => decBarM .barm f
  | 0x23 => decBarM .barinit f
  | 0x28 => do
    let sb ← f.sb?
    op ((f.plain || f.ord == .acq) && f.idxAbsent && !f.scale && f.noPol)
    let w ← opt f.aw
    let m ← decMemB f
    pure (.mon f.pred sb w (f.ord == .acq) m (decDst f.data))
  | 0x29 => decNoArg .mwait f
  | 0x30 => decCache true (fun g sb w m => .prf g sb w (Cpol.ofCode f.cpol) m) f
  | 0x31 => decCache false .own f
  | 0x32 => decCache false .unown f
  | 0x33 => decCache false .cwb f
  | 0x34 => decCache false .cinv f
  | _ => .error .illOp

/-! ## Class C -/

def decC (f : BF) : Dec Instr := do
  op (f.res == 0)
  match f.opc.toNat with
  | 0x00 => do op (f.sa == 0); pure (.bra f.pred f.rel)
  | 0x01 => do let a ← decSrc f.sa; pure (.brz f.pred a f.rel)
  | 0x02 => do let a ← decSrc f.sa; pure (.brnz f.pred a f.rel)
  | 0x03 => do let p ← decP f.sa; pure (.brany f.pred p f.rel)
  | 0x04 => do let p ← decP f.sa; pure (.brall f.pred p f.rel)
  | 0x05 => do let n ← decS f.sa; pure (.call f.pred n f.rel)
  | 0x06 => do op (f.rel == 0); let n ← decS f.sa; pure (.ret f.pred n)
  | 0x07 => do op (f.rel == 0); let n ← decS f.sa; pure (.jmpi f.pred n)
  | 0x08 => do let n ← decS f.sa; pure (.loop f.pred n f.rel)
  | 0x09 => do op (f.sa == 0 && f.rel == 0); pure (.exit f.pred)
  | 0x0A => do op (f.sa == 0 && f.rel == 0); pure (.yield f.pred)
  | 0x0B => do let n ← decS f.sa; pure (.yieldc f.pred n f.rel)
  | 0x0C => do
    op (f.sa == 0 && f.rel.extractLsb' 8 24 == 0)
    pure (.trap f.pred (f.rel.extractLsb' 0 8))
  | 0x0D => do
    op (f.sa == 0 && f.rel.extractLsb' 8 24 == 0)
    pure (.brk f.pred (f.rel.extractLsb' 0 8))
  | 0x0E => do op (f.sa == 0 && f.rel == 0); pure (.nop f.pred)
  | _ => .error .illOp

/-! ## The carriers: classes X, S, E, T, Y, Z and G -/

/-- The checks of a carrier that acts once and takes no MOD (R247, R286, R356, R366). -/
def onceChk (f : VF) : Dec Sb := do
  let sb ← f.sb?
  op f.always
  pure sb

def decTBase (glob : Bool) (f : BitVec 10) : Dec TBase := do
  let b ← decSrc f
  pure ⟨glob, b⟩

def decTileMove (k : Sb → BitVec 3 → TBase → Part → Instr) (f : VF) : Dec Instr := do
  let sb ← onceChk f
  op (f.only2 && f.mod.extractLsb' 3 3 == 0)
  match f.mod.extractLsb' 1 2 with
  | 0 => do
    let t ← decP f.dst
    let b ← decTBase (f.mod.getLsbD 0) f.sa
    let st ← decSrc f.sb
    pure (k sb t b (.data st))
  | 1 => do
    let t ← decP f.dst
    let b ← decTBase (f.mod.getLsbD 0) f.sa
    let st ← decSrc f.sb
    pure (k sb t b (.sc st))
  | 2 => do
    op (f.sb == 0)
    let t ← decP f.dst
    let b ← decTBase (f.mod.getLsbD 0) f.sa
    pure (k sb t b .ts)
  | _ => .error .illOp

/-- Three tiles. -/
def decTile3 (k : Sb → BitVec 3 → BitVec 3 → BitVec 3 → Instr) (f : VF) : Dec Instr := do
  let sb ← onceChk f
  op (f.only2 && f.noMod)
  let d ← decP f.dst
  let a ← decP f.sa
  let b ← decP f.sb
  pure (k sb d a b)

/-- Two tiles. -/
def decTile2 (k : Sb → BitVec 3 → BitVec 3 → Instr) (f : VF) : Dec Instr := do
  let sb ← onceChk f
  op (f.only1 && f.noMod)
  let d ← decP f.dst
  let a ← decP f.sa
  pure (k sb d a)

/-- A tile and a 32-bit operand. -/
def decTileX (k : Sb → BitVec 3 → Src → Instr) (f : VF) : Dec Instr := do
  let sb ← onceChk f
  op (f.only1 && f.noMod)
  let t ← decP f.dst
  let x ← decSrc f.sa
  pure (k sb t x)

def decX (f : VF) : Dec Instr :=
  match f.opc.toNat with
  | 0x00 => decTileX .tcfg f
  | 0x01 => decTileMove .tld f
  | 0x02 => decTileMove .tst f
  | 0x03 => do
    let sb ← onceChk f
    op (f.only0 && f.noMod)
    let t ← decP f.dst
    pure (.tzero sb t)
  | 0x04 => decTile3 .tmma f
  | 0x05 => do
    let sb ← onceChk f
    op f.noMod
    let d ← decP f.dst
    let a ← decP f.sa
    let b ← decP f.sb
    let r ← decSrc f.sc
    pure (.tloop sb d a b r)
  | 0x06 => decTile3 .tmmb f
  | 0x07 => do
    let sb ← f.sb?
    op f.only2
    let d ← decP f.dst
    let a ← decP f.sa
    let p ← decSrc f.sb
    pure (.tvxm f.pred sb (f.mod.extractLsb' 0 3) (f.mod.extractLsb' 3 3) d a p)
  | 0x08 => do
    let sb ← onceChk f
    op (f.dst == 0 && f.mod.extractLsb' 3 3 == 0)
    let d ← decP f.sa
    let b ← decTBase (f.mod.getLsbD 0) f.sb
    let st ← decSrc f.sc
    pure (.tdrain sb b (f.mod.getLsbD 1) (f.mod.getLsbD 2) d st)
  | 0x09 =>
    if f.mod.getLsbD 0 then do
      let sb ← onceChk f
      op (f.dst == 0 && f.only0 && f.mod.extractLsb' 1 5 == 0)
      pure (.twait sb none)
    else do
      let sb ← onceChk f
      op (f.dst == 0 && f.only1 && f.mod.extractLsb' 1 5 == 0)
      let t ← decP f.sa
      pure (.twait sb (some t))
  | 0x0A => decTile2 .tcvt f
  | 0x0B => decTile2 .ttr f
  | 0x0C => decTileX .tfill f
  | 0x10 => do
    let sb ← onceChk f
    op (f.dst == 0 && f.only2 && f.noMod)
    let m ← decSrc f.sa
    let c ← decSrc f.sb
    pure (.wsync sb m c)
  | 0x11 => do
    let sb ← onceChk f
    op (f.only1 && f.noMod)
    let k ← decSrc f.sa
    pure (.wsinfo sb (decDst f.dst) k)
  | _ => .error .illOp

def decCopy (k : Sb → Option Src → Src → Src → Src → Instr) (f : VF) : Dec Instr := do
  let sb ← onceChk f
  op (f.mod.extractLsb' 1 5 == 0 && (f.mod.getLsbD 0 || f.dst == 0))
  let tb ← (if f.mod.getLsbD 0 then do let b ← decDstSrc f.dst; pure (some b) else pure none)
  let ls ← decSrc f.sa
  let ld ← decSrc f.sb
  let r ← decSrc f.sc
  pure (k sb tb ls ld r)

/-- No destination, two sources, no MOD. -/
def decOnce2 (k : Sb → Src → Src → Instr) (f : VF) : Dec Instr := do
  let sb ← onceChk f
  op (f.dst == 0 && f.only2 && f.noMod)
  let a ← decSrc f.sa
  let b ← decSrc f.sb
  pure (k sb a b)

/-- A destination and two sources, no MOD. -/
def decOnceD2 (k : Sb → Dst → Src → Src → Instr) (f : VF) : Dec Instr := do
  let sb ← onceChk f
  op (f.only2 && f.noMod)
  let a ← decSrc f.sa
  let b ← decSrc f.sb
  pure (k sb (decDst f.dst) a b)

/-- A destination and one source, no MOD. -/
def decOnceD1 (k : Sb → Dst → Src → Instr) (f : VF) : Dec Instr := do
  let sb ← onceChk f
  op (f.only1 && f.noMod)
  let a ← decSrc f.sa
  pure (k sb (decDst f.dst) a)

def decS_ (f : VF) : Dec Instr :=
  match f.opc.toNat with
  | 0x00 => decCopy .cpy f
  | 0x01 => decCopy .cpym f
  | 0x02 => decCopy .cpt f
  | 0x03 => decCopy .cpg f
  | 0x04 => do
    let sb ← onceChk f
    op (f.dst == 0 && f.only2 && f.mod.extractLsb' 1 5 == 0)
    let b ← decSrc f.sa
    let n ← decSrc f.sb
    pure (.tbinit sb (f.mod.getLsbD 0) b n)
  | 0x05 => decOnceD2 .tbarr f
  | 0x06 => decOnce2 .tbexp f
  | 0x07 => decOnce2 .tbwait f
  | 0x08 => decOnce2 .rbind f
  | 0x09 => decOnceD1 .racq f
  | 0x0A => decOnce2 .rrel f
  | 0x0B => do
    let sb ← onceChk f
    op (f.only1 && f.mod.extractLsb' 2 4 == 0 && (f.mod.extractLsb' 0 2 != 3 || f.sa == 0))
    match f.mod.extractLsb' 0 2 with
    | 0 => do let b ← decSrc f.sa; pure (.srd sb (.phase b) (decDst f.dst))
    | 1 => do let b ← decSrc f.sa; pure (.srd sb (.arrive b) (decDst f.dst))
    | 2 => do let b ← decSrc f.sa; pure (.srd sb (.sectors b) (decDst f.dst))
    | _ => pure (.srd sb .jobs (decDst f.dst))
  | _ => .error .illOp

/-- `edel`: a handle only. -/
def decCmd1 (k : Guard → Sb → Bool → BitVec 3 → Src → Instr) (f : VF) : Dec Instr := do
  let sb ← f.sb?
  op (f.dst == 0 && f.only1 && f.mod.extractLsb' 4 2 == 0)
  let h ← decSrc f.sa
  pure (k f.pred sb f.sat3 (f.mod.extractLsb' 0 3) h)

/-- `eadd` and `eset`. -/
def decCmdY (k : Guard → Sb → Bool → Bool → BitVec 3 → Src → Src → Src → Instr) (f : VF) :
    Dec Instr := do
  let sb ← f.sb?
  op (f.dst == 0 && f.mod.extractLsb' 5 1 == 0)
  let h ← decSrc f.sa
  let t ← decSrc f.sb
  let y ← decSrc f.sc
  pure (k f.pred sb (f.mod.getLsbD 4) f.sat3 (f.mod.extractLsb' 0 3) h t y)

def decE (f : VF) : Dec Instr :=
  match f.opc.toNat with
  | 0x00 => do
    let sb ← onceChk f
    op (f.only2 && f.mod.getLsbD 5 == false && f.mod.extractLsb' 0 4 == 0)
    let q ← decSrc f.sa
    let v ← decSrc f.sb
    pure (.eqry sb (f.mod.getLsbD 4) (decDst f.dst) q v)
  | 0x01 => do
    let sb ← onceChk f
    op (f.only0 && f.mod.getLsbD 5 == false && f.mod.extractLsb' 0 4 == 0)
    pure (.enext sb (f.mod.getLsbD 4) (decDst f.dst))
  | 0x02 => do
    let sb ← f.sb?
    op (f.only1 && f.mod.extractLsb' 4 2 == 0)
    let h ← decSrc f.sa
    pure (.erow f.pred sb f.sat3 (f.mod.extractLsb' 0 3) (decDst f.dst) h)
  | 0x03 => do
    let sb ← f.sb?
    op (f.mod.extractLsb' 3 3 == 0)
    let r ← decSrc f.sa
    let t ← decSrc f.sb
    let w ← decSrc f.sc
    pure (.ecol f.pred sb (f.mod.extractLsb' 0 3) (decDst f.dst) r t w)
  | 0x04 => do
    let sb ← f.sb?
    op (f.dst == 0 && f.only1 && f.mod.extractLsb' 3 3 == 0)
    let h ← decSrc f.sa
    pure (.ehchk f.pred sb (f.mod.extractLsb' 0 3) h)
  | 0x05 => do
    let sb ← f.sb?
    let wd ← opt (WD.ofCode (f.mod.extractLsb' 4 2))
    let h ← decSrc f.sa
    let t ← decSrc f.sb
    let o ← decSrc f.sc
    pure (.eget f.pred sb wd f.sat3 (f.mod.extractLsb' 0 3) (decDst f.dst) h t o)
  | 0x06 => do
    let sb ← f.sb?
    let wd ← opt (WD.ofCode (f.mod.extractLsb' 4 2))
    let x ← decDstSrc f.dst
    let h ← decSrc f.sa
    let t ← decSrc f.sb
    let o ← decSrc f.sc
    pure (.eput f.pred sb wd f.sat3 (f.mod.extractLsb' 0 3) x h t o)
  | 0x07 =>
    if f.mod.getLsbD 5 then do
      let sb ← f.sb?
      op (f.only0 && !f.mod.getLsbD 4)
      pure (.ecrt f.pred sb f.sat3 (f.mod.extractLsb' 0 3) (decDst f.dst) none)
    else do
      let sb ← f.sb?
      op f.only2
      let t ← decSrc f.sa
      let y ← decSrc f.sb
      pure (.ecrt f.pred sb f.sat3 (f.mod.extractLsb' 0 3) (decDst f.dst)
        (some (f.mod.getLsbD 4, t, y)))
  | 0x08 => decCmd1 .edel f
  | 0x09 => decCmdY .eadd f
  | 0x0A => do
    let sb ← f.sb?
    op (f.dst == 0 && f.only2 && f.mod.extractLsb' 4 2 == 0)
    let h ← decSrc f.sa
    let t ← decSrc f.sb
    pure (.erem f.pred sb f.sat3 (f.mod.extractLsb' 0 3) h t)
  | 0x0B => decCmdY .eset f
  | 0x0C => do
    let sb ← f.sb?
    op (f.only0 && f.noMod)
    pure (.ecmt f.pred sb (decDst f.dst))
  | 0x0D => decOnceD1 .esync f
  | 0x0E => do
    let sb ← onceChk f
    op (f.only2 && f.mod.extractLsb' 4 2 == 0 && f.mod.extractLsb' 0 3 == 0)
    let w ← decSrc f.sa
    let v ← decSrc f.sb
    pure (.epin sb f.sat3 (decDst f.dst) w v)
  | 0x0F => decOnce2 .eunpin f
  | 0x10 => do
    let sb ← onceChk f
    op (f.only1 && f.mod.getLsbD 5 == false && f.mod.extractLsb' 0 4 == 0)
    let w ← decSrc f.sa
    pure (.ever sb (f.mod.getLsbD 4) (decDst f.dst) w)
  | _ => .error .illOp

/-- Class T; `last` says that the word is its clause's last and no tail (R232). -/
def decT (last : Bool) (f : VF) : Dec Instr :=
  match f.opc.toNat with
  | 0x00 => do
    let sb ← onceChk f
    op (f.dst == 0 && f.only0 && f.mod.extractLsb' 1 5 == 0 && (!f.mod.getLsbD 0 || last))
    pure (.txbeg sb (f.mod.getLsbD 0))
  | 0x01 => do
    let sb ← onceChk f
    op (f.only0 && f.noMod && last)
    let d ← decPDst f.dst
    pure (.txend sb d)
  | 0x02 => do
    let sb ← f.sb?
    op (f.dst == 0 && f.only0 && f.noMod)
    pure (.txabt f.pred sb)
  | 0x03 => do
    let sb ← onceChk f
    op (f.only0 && f.mod.extractLsb' 1 5 == 0)
    pure (.txst sb (f.mod.getLsbD 0) (decDst f.dst))
  | 0x04 => do
    let sb ← f.sb?
    op (f.only0 && f.noMod)
    pure (.txcause f.pred sb (decDst f.dst))
  | _ => .error .illOp

def decRay (k : Guard → Sb → BitVec 2 → Src → Src → Instr) (f : VF) : Dec Instr := do
  let sb ← f.sb?
  op (f.dst == 0 && f.only2 && f.mod.extractLsb' 2 4 == 0)
  let r ← decSrc f.sa
  let m ← decSrc f.sb
  pure (k f.pred sb (f.mod.extractLsb' 0 2) r m)

def decY (f : VF) : Dec Instr :=
  match f.opc.toNat with
  | 0x00 => decRay .rycl f
  | 0x01 => do
    op (f.sbe == 0 && f.sbn == 0)
    decRay (fun g _ k r m => .ryany g k r m) f
  | 0x02 => decRay .ryocc f
  | 0x03 => do
    let sb ← f.sb?
    op (f.dst == 0 && f.only1 && f.noMod)
    let p ← decP f.sa
    pure (.ryacc f.pred sb p)
  | 0x04 => do
    let sb ← f.sb?
    op (f.only0 && f.mod.extractLsb' 3 3 == 0)
    let fld ← opt (RyField.ofCode (f.mod.extractLsb' 0 3))
    pure (.ryres f.pred sb fld (decDst f.dst))
  | 0x05 => do
    let sb ← onceChk f
    op (f.only0 && f.noMod)
    let d ← decPDst f.dst
    pure (.rywait sb d)
  | 0x06 => do
    let sb ← onceChk f
    op (f.dst == 0 && f.only0 && f.mod.extractLsb' 3 3 == 0
      && (!f.mod.getLsbD 0 || f.mod.extractLsb' 1 2 == 0))
    pure (.ryinv sb (if f.mod.getLsbD 0 then none else some (f.mod.extractLsb' 1 2)))
  | 0x07 => do
    let sb ← onceChk f
    op (f.dst == 0 && f.only1 && f.mod.extractLsb' 2 4 == 0)
    let rec_ ← decSrc f.sa
    pure (.rygeo sb (f.mod.extractLsb' 0 2) rec_)
  | 0x08 => decOnceD1 .rypst f
  | _ => .error .illOp

def decZ (f : VF) : Dec Instr :=
  match f.opc.toNat with
  | 0x00 => decOnceD1 .zrd f
  | 0x01 => decOnce2 .zwr f
  | 0x02 =>
    if f.mod.getLsbD 0 then do
      let sb ← onceChk f
      op (f.dst == 0 && f.only0 && f.mod.extractLsb' 1 5 == 0)
      pure (.tlbi sb none)
    else do
      let sb ← onceChk f
      op (f.dst == 0 && f.only2 && f.mod.extractLsb' 1 5 == 0)
      let va ← decSrc f.sa
      let n ← decSrc f.sb
      pure (.tlbi sb (some (va, n)))
  | 0x03 => do
    let sb ← onceChk f
    op (f.dst == 0 && f.only0 && f.noMod)
    pure (.tlbsync sb)
  | 0x04 => do
    op (f.always && f.sbe == 0 && f.sbn == 0 && f.dst == 0 && f.only0 && f.mod.extractLsb' 1 5 == 0)
    pure (.trapret (f.mod.getLsbD 0))
  | 0x05 => decOnceD2 .ctxsv f
  | 0x06 => decOnceD2 .ctxld f
  | 0x07 => do
    let sb ← onceChk f
    op (f.dst == 0 && f.noMod)
    let w ← decSrc f.sa
    let a ← decSrc f.sb
    let n ← decSrc f.sc
    pure (.wsld sb w a n)
  | _ => .error .illOp

def decG (f : VF) : Dec Instr :=
  match f.opc.toNat with
  | 0x00 => decOnceD2 .gsub f
  | 0x01 => decOnceD2 .gkick f
  | 0x02 => do
    let sb ← onceChk f
    op (f.dst == 0 && f.only2 && f.mod.extractLsb' 1 5 == 0)
    let t ← decSrc f.sa
    let v ← decSrc f.sb
    pure (.gsig sb (f.mod.getLsbD 0) t v)
  | 0x03 => decOnce2 .gwait f
  | 0x04 => decOnceD2 .gdep f
  | _ => .error .illOp

/-! ## The decoder -/

/-- The fields of a word read by the format of its class (R50, R51), before the checks of R52 to R57. -/
def decodeRaw (cls : Cls) (last : Bool) (w : DWord) : Dec Instr :=
  match cls with
  | .V => if w.getLsbD 63 then decVK (KF.ofWord w) else decV (VF.ofWord w)
  | .M => decM (MF.ofWord w)
  | .C => decC (BF.ofWord w)
  | .X => decX (VF.ofWord w)
  | .S => decS_ (VF.ofWord w)
  | .E => decE (VF.ofWord w)
  | .T => decT last (VF.ofWord w)
  | .Y => decY (VF.ofWord w)
  | .Z => decZ (VF.ofWord w)
  | .G => decG (VF.ofWord w)

/-- Decode one instruction word of a clause of class `cls` (R46, checks 1 and 2 as far as the word alone decides them). -/
def decodeWord (cls : Cls) (last : Bool) (w : DWord) : Dec Instr :=
  match decodeRaw cls last w with
  | .error e => .error e
  | .ok i => if instrWf i then .ok i else .error .illOperand

/-! ## The encoder -/

/-- A format V word. -/
def vw (opc : BitVec 10) (dst sa sb sc : BitVec 10) (g : Guard) (s : Sb) (mod : BitVec 6) : DWord :=
  VF.toWord ⟨opc, dst, sa, sb, sc, g, sbnOf s, sbeOf s, mod⟩

def kw (opc : BitVec 10) (dst sa : BitVec 10) (g : BitVec 2) (imm : Word) : DWord :=
  KF.toWord ⟨opc, dst, sa, g, imm⟩

def mw (opc : BitVec 10) (data base index : BitVec 10) (off : BitVec 8) (pol : BitVec 2) (g : Guard)
    (s : Sb) (mod : BitVec 6) : DWord :=
  MF.toWord ⟨opc, data, base, index, off, pol, g, sbnOf s, sbeOf s, mod⟩

def bw (opc : BitVec 10) (sa : BitVec 10) (g : Guard) (rel : Word) : DWord :=
  BF.toWord ⟨opc, sa, g, 0, rel⟩

/-- MOD of format M (Table 3-11). -/
def mmod (scale : Bool) (o : Ord) (w : BitVec 3) : BitVec 6 := bit1 scale ++ o.code ++ w

def tyMod (ty : IntTy) : BitVec 6 := 0#3 ++ ty.code
def satTyMod (sat : Bool) (ty : IntTy) : BitVec 6 := 0#2 ++ bit1 sat ++ ty.code
def fModOf (sat : Bool) (r : Rnd) : BitVec 6 := 0#3 ++ bit1 sat ++ r.code
def hModOf (satf : Bool) (r : Rnd) (bf : Bool) : BitVec 6 := 0#2 ++ bit1 satf ++ r.code ++ bit1 bf
def cvtMod (r : Rnd) (ty : IntTy) : BitVec 6 := 0#1 ++ r.code ++ ty.code
def pdMod (strict : Bool) (pd : BitVec 3) : BitVec 6 := 0#2 ++ bit1 strict ++ pd
def flagMod (b : Bool) : BitVec 6 := 0#5 ++ bit1 b
def curMod (b : Bool) : BitVec 6 := 0#1 ++ bit1 b ++ 0#4

/-- A base-plus-index access. -/
def memw (opc : BitVec 10) (data : BitVec 10) (m : Mem) (pol : Cpol) (g : Guard) (s : Sb) (o : Ord)
    (w : MW) : DWord :=
  mw opc data (encSrc m.base) (encSrc m.index) m.off pol.code g s (mmod m.scale o w.code)

/-- An atomic: OP in MOD[5]:CPOL (R114). -/
def atomw (opc : BitVec 10) (data index : BitVec 10) (m : MemB) (o : AOp) (g : Guard) (s : Sb)
    (ord : Ord) (w : AW) : DWord :=
  mw opc data (encSrc m.base) index m.off (o.code.extractLsb' 0 2) g s
    (mmod (o.code.getLsbD 2) ord w.code)

def noargw (opc : BitVec 10) (g : Guard) (s : Sb) : DWord := mw opc 0 0 0 0 0 g s 0

def barWord (opc : BitVec 10) (m : MemB) (index : BitVec 10) (g : Guard) (s : Sb) : DWord :=
  mw opc 0 (encSrc m.base) index m.off 0 g s 3

def partMod (glob : Bool) (p : Part) : BitVec 6 :=
  0#3 ++ (match p with | .data _ => 0#2 | .sc _ => 1#2 | .ts => 2#2) ++ bit1 glob

def partSb : Part → BitVec 10
  | .data st | .sc st => encSrc st
  | .ts => 0

/-- A carrier word that acts once. -/
def ow (opc : BitVec 10) (dst sa sb sc : BitVec 10) (s : Sb) (mod : BitVec 6) : DWord :=
  vw opc dst sa sb sc Guard.always s mod

def copyw (opc : BitVec 10) (s : Sb) (tb : Option Src) (ls ld r : Src) : DWord :=
  match tb with
  | none => ow opc 0 (encSrc ls) (encSrc ld) (encSrc r) s 0
  | some b => ow opc (encSrc b) (encSrc ls) (encSrc ld) (encSrc r) s 1

/-- The class and word of an instruction; events have none. -/
def encode : Instr → Option (Cls × DWord)
  | .mov g ty d a => some (.V, vw 0x00 (encDst d) (encSrc a) 0 0 g none (tyMod ty))
  | .movk g d a b => some (.V, vw 0x01 (encDst d) (encSrc a) (encSrc b) 0 g none 0)
  | .movs g d s => some (.V, vw 0x02 (encDst d) 0 0 0 g none (0#2 ++ s.code))
  | .sel g ty d a b p => some (.V, vw 0x03 (encDst d) (encSrc a) (encSrc b) (encP p) g none (tyMod ty))
  | .iadd g sat ty d a b => some (.V, vw 0x04 (encDst d) (encSrc a) (encSrc b) 0 g none (satTyMod sat ty))
  | .isub g sat ty d a b => some (.V, vw 0x05 (encDst d) (encSrc a) (encSrc b) 0 g none (satTyMod sat ty))
  | .imul g sat ty d a b => some (.V, vw 0x06 (encDst d) (encSrc a) (encSrc b) 0 g none (satTyMod sat ty))
  | .imulh g ty d a b => some (.V, vw 0x07 (encDst d) (encSrc a) (encSrc b) 0 g none (tyMod ty))
  | .imad g sat ty d a b c =>
    some (.V, vw 0x08 (encDst d) (encSrc a) (encSrc b) (encSrc c) g none (satTyMod sat ty))
  | .imin g ty d a b => some (.V, vw 0x09 (encDst d) (encSrc a) (encSrc b) 0 g none (tyMod ty))
  | .imax g ty d a b => some (.V, vw 0x0A (encDst d) (encSrc a) (encSrc b) 0 g none (tyMod ty))
  | .iabs g sat ty d a => some (.V, vw 0x0B (encDst d) (encSrc a) 0 0 g none (satTyMod sat ty))
  | .iaddx g u d a b => some (.V, vw 0x0C (encDst d) (encSrc a) (encSrc b) 0 g none (flagMod u))
  | .imadx g u d a b c =>
    some (.V, vw 0x0D (encDst d) (encSrc a) (encSrc b) (encSrc c) g none (flagMod u))
  | .and g ty d a b => some (.V, vw 0x10 (encDst d) (encSrc a) (encSrc b) 0 g none (tyMod ty))
  | .or g ty d a b => some (.V, vw 0x11 (encDst d) (encSrc a) (encSrc b) 0 g none (tyMod ty))
  | .xor g ty d a b => some (.V, vw 0x12 (encDst d) (encSrc a) (encSrc b) 0 g none (tyMod ty))
  | .andn g ty d a b => some (.V, vw 0x13 (encDst d) (encSrc a) (encSrc b) 0 g none (tyMod ty))
  | .lop3 g d a b t => some (.V, vw 0x14 (encDst d) (encSrc a) (encSrc b) (encSrc t) g none 0)
  | .shl g ty d a b => some (.V, vw 0x15 (encDst d) (encSrc a) (encSrc b) 0 g none (tyMod ty))
  | .shr g ty d a b => some (.V, vw 0x16 (encDst d) (encSrc a) (encSrc b) 0 g none (tyMod ty))
  | .sra g ty d a b => some (.V, vw 0x17 (encDst d) (encSrc a) (encSrc b) 0 g none (tyMod ty))
  | .rot g ty d a b => some (.V, vw 0x18 (encDst d) (encSrc a) (encSrc b) 0 g none (tyMod ty))
  | .bfx g ty d a f => some (.V, vw 0x19 (encDst d) (encSrc a) (encSrc f) 0 g none (tyMod ty))
  | .bfi g ty d a b f =>
    some (.V, vw 0x1A (encDst d) (encSrc a) (encSrc b) (encSrc f) g none (tyMod ty))
  | .popc g ty d a => some (.V, vw 0x1B (encDst d) (encSrc a) 0 0 g none (tyMod ty))
  | .clz g ty d a => some (.V, vw 0x1C (encDst d) (encSrc a) 0 0 g none (tyMod ty))
  | .brev g ty d a => some (.V, vw 0x1D (encDst d) (encSrc a) 0 0 g none (tyMod ty))
  | .icmp g cc ty d a b =>
    some (.V, vw 0x20 (encPDst d) (encSrc a) (encSrc b) 0 g none (cc.code ++ ty.code))
  | .fcmp g cc d a b => some (.V, vw 0x21 (encPDst d) (encSrc a) (encSrc b) 0 g none (0#2 ++ cc.code))
  | .plop g o d pa pb => some (.V, vw 0x22 (encPDst d) (encP pa) (encP pb) 0 g none (0#3 ++ o.code))
  | .pmov g o =>
    match o with
    | .toPred d m => some (.V, vw 0x23 (encPDst d) (encSrc m) 0 0 g none 0)
    | .toScalar d p => some (.V, vw 0x23 (encDst d) (encP p) 0 0 g none 1)
  | .fadd g sat r d a b => some (.V, vw 0x28 (encDst d) (encSrc a) (encSrc b) 0 g none (fModOf sat r))
  | .fsub g sat r d a b => some (.V, vw 0x29 (encDst d) (encSrc a) (encSrc b) 0 g none (fModOf sat r))
  | .fmul g sat r d a b => some (.V, vw 0x2A (encDst d) (encSrc a) (encSrc b) 0 g none (fModOf sat r))
  | .ffma g sat r d a b c =>
    some (.V, vw 0x2B (encDst d) (encSrc a) (encSrc b) (encSrc c) g none (fModOf sat r))
  | .fmin g d a b => some (.V, vw 0x2C (encDst d) (encSrc a) (encSrc b) 0 g none 0)
  | .fmax g d a b => some (.V, vw 0x2D (encDst d) (encSrc a) (encSrc b) 0 g none 0)
  | .frnd g r d a => some (.V, vw 0x2E (encDst d) (encSrc a) 0 0 g none (0#4 ++ r.code))
  | .frcp g d a => some (.V, vw 0x30 (encDst d) (encSrc a) 0 0 g none 0)
  | .frsq g d a => some (.V, vw 0x31 (encDst d) (encSrc a) 0 0 g none 0)
  | .fsqrt g d a => some (.V, vw 0x32 (encDst d) (encSrc a) 0 0 g none 0)
  | .fexp2 g d a => some (.V, vw 0x33 (encDst d) (encSrc a) 0 0 g none 0)
  | .flog2 g d a => some (.V, vw 0x34 (encDst d) (encSrc a) 0 0 g none 0)
  | .fsin g d a => some (.V, vw 0x35 (encDst d) (encSrc a) 0 0 g none 0)
  | .fcos g d a => some (.V, vw 0x36 (encDst d) (encSrc a) 0 0 g none 0)
  | .hadd2 g sf r bf d a b =>
    some (.V, vw 0x38 (encDst d) (encSrc a) (encSrc b) 0 g none (hModOf sf r bf))
  | .hmul2 g sf r bf d a b =>
    some (.V, vw 0x39 (encDst d) (encSrc a) (encSrc b) 0 g none (hModOf sf r bf))
  | .hfma2 g sf r bf d a b c =>
    some (.V, vw 0x3A (encDst d) (encSrc a) (encSrc b) (encSrc c) g none (hModOf sf r bf))
  | .cvti g r ty d a => some (.V, vw 0x40 (encDst d) (encSrc a) 0 0 g none (cvtMod r ty))
  | .cvtf g r ty d a => some (.V, vw 0x41 (encDst d) (encSrc a) 0 0 g none (cvtMod r ty))
  | .cvth g d o =>
    match o with
    | .pk sf r bf a b =>
      some (.V, vw 0x42 (encDst d) (encSrc a) (encSrc b) 0 g none
        (bit1 sf ++ r.code ++ bit1 bf ++ 0#1 ++ 0#1))
    | .up bf hi a =>
      some (.V, vw 0x42 (encDst d) (encSrc a) 0 0 g none (0#3 ++ bit1 bf ++ bit1 hi ++ 1#1))
  | .cvtn g k d o =>
    match o with
    | .pk a b c => some (.V, vw 0x43 (encDst d) (encSrc a) (encSrc b) (encSrc c) g none (0#3 ++ k))
    | .up a c => some (.V, vw 0x43 (encDst d) (encSrc a) 0 (encSrc c) g none (1#3 ++ k))
  | .shfl g w m d a n =>
    some (.V, vw 0x48 (encDst d) (encSrc a) (encSrc n) 0 g none (bit1 w ++ 0#3 ++ m.code))
  | .shfx g w s m d a n c =>
    some (.V, vw 0x49 (encDst d) (encSrc a) (encSrc n) (encSrc c) g none (bit1 w ++ s.code ++ m.code))
  | .vote g o pa =>
    match o with
    | .some d => some (.V, vw 0x4A (encPDst d) (encP pa) 0 0 g none 0)
    | .every d => some (.V, vw 0x4A (encPDst d) (encP pa) 0 0 g none 1)
    | .agree d => some (.V, vw 0x4A (encPDst d) (encP pa) 0 0 g none 2)
    | .mask d => some (.V, vw 0x4A (encDst d) (encP pa) 0 0 g none 3)
  | .rdlane g w d a i => some (.V, vw 0x4B (encDst d) (encSrc a) (encSrc i) 0 g none (bit1 w ++ 0#5))
  | .wrlane g w d x i => some (.V, vw 0x4C (encDst d) (encSrc x) (encSrc i) 0 g none (bit1 w ++ 0#5))
  | .iscan g ty ex o d a =>
    some (.V, vw 0x4D (encDst d) (encSrc a) 0 0 g none (0#1 ++ ty.code ++ bit1 ex ++ o.code))
  | .ired g ty o d a => some (.V, vw 0x4E (encDst d) (encSrc a) 0 0 g none (0#1 ++ ty.code ++ 0#1 ++ o.code))
  | .emrd d => some (.V, vw 0x50 (encDst d) 0 0 0 Guard.always none 0)
  | .emwr m => some (.V, vw 0x51 0 (encSrc m) 0 0 Guard.always none 0)
  | .emand m => some (.V, vw 0x52 0 (encSrc m) 0 0 Guard.always none 0)
  | .emor m => some (.V, vw 0x53 0 (encSrc m) 0 0 Guard.always none 0)
  | .ld g s w acq pol m d => some (.M, memw 0x00 (encDst d) m pol g s (if acq then .acq else .plain) w)
  | .st g s w rel pol m x => some (.M, memw 0x01 (encSrc x) m pol g s (if rel then .rel else .plain) w)
  | .ldp p s w pol m d => some (.M, memw 0x02 (encDst d) m pol (0#1 ++ p) s .plain w)
  | .lds g s w m d => some (.M, memw 0x03 (encDst d) m .dflt g s .plain w)
  | .sts g s w m x => some (.M, memw 0x04 (encSrc x) m .dflt g s .plain w)
  | .ldl g s w m d => some (.M, memw 0x05 (encDst d) m .dflt g s .plain w)
  | .stl g s w m x => some (.M, memw 0x06 (encSrc x) m .dflt g s .plain w)
  | .ldw g s w m d => some (.M, memw 0x07 (encDst d) m .dflt g s .plain w)
  | .atom g s o w ord m x d => some (.M, atomw 0x10 (encDst d) (encSrc x) m o g s ord w)
  | .red g s o w rel m x =>
    some (.M, atomw 0x11 (encSrc x) 0x3FF m o g s (if rel then .rel else .plain) w)
  | .cas g s w ord m x d =>
    some (.M, mw 0x12 (encDst d) (encSrc m.base) (encSrc x) m.off 0 g s (mmod false ord w.code))
  | .atoml g s o w m x d => some (.M, atomw 0x13 (encDst d) (encSrc x) m o g s .plain w)
  | .casl g s w m x d =>
    some (.M, mw 0x14 (encDst d) (encSrc m.base) (encSrc x) m.off 0 g s (mmod false .plain w.code))
  | .fence g s => some (.M, noargw 0x18 g s)
  | .drain g s => some (.M, noargw 0x19 g s)
  | .barw g s m => some (.M, barWord 0x20 m 0x3FF g s)
  | .bara g s m => some (.M, barWord 0x21 m 0x3FF g s)
  | .barm g s m k => some (.M, barWord 0x22 m (encSrc k) g s)
  | .barinit g s m k => some (.M, barWord 0x23 m (encSrc k) g s)
  | .mon g s w acq m d =>
    some (.M, mw 0x28 (encDst d) (encSrc m.base) 0x3FF m.off 0 g s
      (mmod false (if acq then .acq else .plain) w.code))
  | .mwait g s => some (.M, noargw 0x29 g s)
  | .prf g s w pol m => some (.M, memw 0x30 0 m pol g s .plain w)
  | .own g s w m => some (.M, memw 0x31 0 m .dflt g s .plain w)
  | .unown g s w m => some (.M, memw 0x32 0 m .dflt g s .plain w)
  | .cwb g s w m => some (.M, memw 0x33 0 m .dflt g s .plain w)
  | .cinv g s w m => some (.M, memw 0x34 0 m .dflt g s .plain w)
  | .bra g r => some (.C, bw 0x00 0 g r)
  | .brz g a r => some (.C, bw 0x01 (encSrc a) g r)
  | .brnz g a r => some (.C, bw 0x02 (encSrc a) g r)
  | .brany g p r => some (.C, bw 0x03 (encP p) g r)
  | .brall g p r => some (.C, bw 0x04 (encP p) g r)
  | .call g n r => some (.C, bw 0x05 (encS n) g r)
  | .ret g n => some (.C, bw 0x06 (encS n) g 0)
  | .jmpi g n => some (.C, bw 0x07 (encS n) g 0)
  | .loop g n r => some (.C, bw 0x08 (encS n) g r)
  | .exit g => some (.C, bw 0x09 0 g 0)
  | .yield g => some (.C, bw 0x0A 0 g 0)
  | .yieldc g n r => some (.C, bw 0x0B (encS n) g r)
  | .trap g n => some (.C, bw 0x0C 0 g (0#24 ++ n))
  | .brk g n => some (.C, bw 0x0D 0 g (0#24 ++ n))
  | .nop g => some (.C, bw 0x0E 0 g 0)
  | .tcfg s t c => some (.X, ow 0x00 (encP t) (encSrc c) 0 0 s 0)
  | .tld s t b p => some (.X, ow 0x01 (encP t) (encSrc b.b) (partSb p) 0 s (partMod b.glob p))
  | .tst s t b p => some (.X, ow 0x02 (encP t) (encSrc b.b) (partSb p) 0 s (partMod b.glob p))
  | .tzero s t => some (.X, ow 0x03 (encP t) 0 0 0 s 0)
  | .tmma s d a b => some (.X, ow 0x04 (encP d) (encP a) (encP b) 0 s 0)
  | .tloop s d a b r => some (.X, ow 0x05 (encP d) (encP a) (encP b) (encSrc r) s 0)
  | .tmmb s d a b => some (.X, ow 0x06 (encP d) (encP a) (encP b) 0 s 0)
  | .tvxm g s k pd d a p => some (.X, vw 0x07 (encP d) (encP a) (encSrc p) 0 g s (pd ++ k))
  | .tdrain s b add z d st =>
    some (.X, ow 0x08 0 (encP d) (encSrc b.b) (encSrc st) s (0#3 ++ bit1 z ++ bit1 add ++ bit1 b.glob))
  | .twait s t =>
    match t with
    | some t => some (.X, ow 0x09 0 (encP t) 0 0 s 0)
    | none => some (.X, ow 0x09 0 0 0 0 s 1)
  | .tcvt s t u => some (.X, ow 0x0A (encP t) (encP u) 0 0 s 0)
  | .ttr s t u => some (.X, ow 0x0B (encP t) (encP u) 0 0 s 0)
  | .tfill s t x => some (.X, ow 0x0C (encP t) (encSrc x) 0 0 s 0)
  | .wsync s m c => some (.X, ow 0x10 0 (encSrc m) (encSrc c) 0 s 0)
  | .wsinfo s d k => some (.X, ow 0x11 (encDst d) (encSrc k) 0 0 s 0)
  | .cpy s tb ls ld r => some (.S, copyw 0x00 s tb ls ld r)
  | .cpym s tb ls ld r => some (.S, copyw 0x01 s tb ls ld r)
  | .cpt s tb ls ld r => some (.S, copyw 0x02 s tb ls ld r)
  | .cpg s tb ls ld r => some (.S, copyw 0x03 s tb ls ld r)
  | .tbinit s f b n => some (.S, ow 0x04 0 (encSrc b) (encSrc n) 0 s (flagMod f))
  | .tbarr s d b n => some (.S, ow 0x05 (encDst d) (encSrc b) (encSrc n) 0 s 0)
  | .tbexp s b n => some (.S, ow 0x06 0 (encSrc b) (encSrc n) 0 s 0)
  | .tbwait s b n => some (.S, ow 0x07 0 (encSrc b) (encSrc n) 0 s 0)
  | .rbind s k r => some (.S, ow 0x08 0 (encSrc k) (encSrc r) 0 s 0)
  | .racq s d k => some (.S, ow 0x09 (encDst d) (encSrc k) 0 0 s 0)
  | .rrel s k a => some (.S, ow 0x0A 0 (encSrc k) (encSrc a) 0 s 0)
  | .srd s o d =>
    match o with
    | .phase b => some (.S, ow 0x0B (encDst d) (encSrc b) 0 0 s 0)
    | .arrive b => some (.S, ow 0x0B (encDst d) (encSrc b) 0 0 s 1)
    | .sectors b => some (.S, ow 0x0B (encDst d) (encSrc b) 0 0 s 2)
    | .jobs => some (.S, ow 0x0B (encDst d) 0 0 0 s 3)
  | .eqry s c d q v => some (.E, ow 0x00 (encDst d) (encSrc q) (encSrc v) 0 s (curMod c))
  | .enext s c d => some (.E, ow 0x01 (encDst d) 0 0 0 s (curMod c))
  | .erow g s st pd d h => some (.E, vw 0x02 (encDst d) (encSrc h) 0 0 g s (pdMod st pd))
  | .ecol g s pd d r t w =>
    some (.E, vw 0x03 (encDst d) (encSrc r) (encSrc t) (encSrc w) g s (0#3 ++ pd))
  | .ehchk g s pd h => some (.E, vw 0x04 0 (encSrc h) 0 0 g s (0#3 ++ pd))
  | .eget g s wd st pd d h t o =>
    some (.E, vw 0x05 (encDst d) (encSrc h) (encSrc t) (encSrc o) g s (wd.code ++ bit1 st ++ pd))
  | .eput g s wd st pd x h t o =>
    some (.E, vw 0x06 (encSrc x) (encSrc h) (encSrc t) (encSrc o) g s (wd.code ++ bit1 st ++ pd))
  | .ecrt g s st pd d ty =>
    match ty with
    | none => some (.E, vw 0x07 (encDst d) 0 0 0 g s (1#1 ++ 0#1 ++ bit1 st ++ pd))
    | some (ind, t, y) =>
      some (.E, vw 0x07 (encDst d) (encSrc t) (encSrc y) 0 g s (0#1 ++ bit1 ind ++ bit1 st ++ pd))
  | .edel g s st pd h => some (.E, vw 0x08 0 (encSrc h) 0 0 g s (pdMod st pd))
  | .eadd g s ind st pd h t y =>
    some (.E, vw 0x09 0 (encSrc h) (encSrc t) (encSrc y) g s (0#1 ++ bit1 ind ++ bit1 st ++ pd))
  | .erem g s st pd h t => some (.E, vw 0x0A 0 (encSrc h) (encSrc t) 0 g s (pdMod st pd))
  | .eset g s ind st pd h t y =>
    some (.E, vw 0x0B 0 (encSrc h) (encSrc t) (encSrc y) g s (0#1 ++ bit1 ind ++ bit1 st ++ pd))
  | .ecmt g s d => some (.E, vw 0x0C (encDst d) 0 0 0 g s 0)
  | .esync s d w => some (.E, ow 0x0D (encDst d) (encSrc w) 0 0 s 0)
  | .epin s st d w v => some (.E, ow 0x0E (encDst d) (encSrc w) (encSrc v) 0 s (pdMod st 0))
  | .eunpin s w v => some (.E, ow 0x0F 0 (encSrc w) (encSrc v) 0 s 0)
  | .ever s view d w => some (.E, ow 0x10 (encDst d) (encSrc w) 0 0 s (curMod view))
  | .txbeg s fb => some (.T, ow 0x00 0 0 0 0 s (flagMod fb))
  | .txend s d => some (.T, ow 0x01 (encPDst d) 0 0 0 s 0)
  | .txabt g s => some (.T, vw 0x02 0 0 0 0 g s 0)
  | .txst s tok d => some (.T, ow 0x03 (encDst d) 0 0 0 s (flagMod tok))
  | .txcause g s d => some (.T, vw 0x04 (encDst d) 0 0 0 g s 0)
  | .rycl g s k r m => some (.Y, vw 0x00 0 (encSrc r) (encSrc m) 0 g s (0#4 ++ k))
  | .ryany g k r m => some (.Y, vw 0x01 0 (encSrc r) (encSrc m) 0 g none (0#4 ++ k))
  | .ryocc g s k r m => some (.Y, vw 0x02 0 (encSrc r) (encSrc m) 0 g s (0#4 ++ k))
  | .ryacc g s pa => some (.Y, vw 0x03 0 (encP pa) 0 0 g s 0)
  | .ryres g s f d => some (.Y, vw 0x04 (encDst d) 0 0 0 g s (0#3 ++ f.code))
  | .rywait s d => some (.Y, ow 0x05 (encPDst d) 0 0 0 s 0)
  | .ryinv s k =>
    match k with
    | none => some (.Y, ow 0x06 0 0 0 0 s 1)
    | some k => some (.Y, ow 0x06 0 0 0 0 s (0#3 ++ k ++ 0#1))
  | .rygeo s k r => some (.Y, ow 0x07 0 (encSrc r) 0 0 s (0#4 ++ k))
  | .rypst s d c => some (.Y, ow 0x08 (encDst d) (encSrc c) 0 0 s 0)
  | .zrd s d n => some (.Z, ow 0x00 (encDst d) (encSrc n) 0 0 s 0)
  | .zwr s n x => some (.Z, ow 0x01 0 (encSrc n) (encSrc x) 0 s 0)
  | .tlbi s r =>
    match r with
    | none => some (.Z, ow 0x02 0 0 0 0 s 1)
    | some (va, n) => some (.Z, ow 0x02 0 (encSrc va) (encSrc n) 0 s 0)
  | .tlbsync s => some (.Z, ow 0x03 0 0 0 0 s 0)
  | .trapret n => some (.Z, ow 0x04 0 0 0 0 none (flagMod n))
  | .ctxsv s d c a => some (.Z, ow 0x05 (encDst d) (encSrc c) (encSrc a) 0 s 0)
  | .ctxld s d c a => some (.Z, ow 0x06 (encDst d) (encSrc c) (encSrc a) 0 s 0)
  | .wsld s w a n => some (.Z, ow 0x07 0 (encSrc w) (encSrc a) (encSrc n) s 0)
  | .gsub s d k a => some (.G, ow 0x00 (encDst d) (encSrc k) (encSrc a) 0 s 0)
  | .gkick s d k v => some (.G, ow 0x01 (encDst d) (encSrc k) (encSrc v) 0 s 0)
  | .gsig s mx t v => some (.G, ow 0x02 0 (encSrc t) (encSrc v) 0 s (flagMod mx))
  | .gwait s t v => some (.G, ow 0x03 0 (encSrc t) (encSrc v) 0 s 0)
  | .gdep s d a b => some (.G, ow 0x04 (encDst d) (encSrc a) (encSrc b) 0 s 0)
  | .movK g d i => some (.V, kw 0x200 (encDst d) 0 g i)
  | .iaddK g d a i => some (.V, kw 0x204 (encDst d) (encSrc a) g i)
  | .isubK g d a i => some (.V, kw 0x205 (encDst d) (encSrc a) g i)
  | .imulK g d a i => some (.V, kw 0x206 (encDst d) (encSrc a) g i)
  | .andK g d a i => some (.V, kw 0x210 (encDst d) (encSrc a) g i)
  | .orK g d a i => some (.V, kw 0x211 (encDst d) (encSrc a) g i)
  | .xorK g d a i => some (.V, kw 0x212 (encDst d) (encSrc a) g i)
  | .shlK g d a i => some (.V, kw 0x215 (encDst d) (encSrc a) g i)
  | .shrK g d a i => some (.V, kw 0x216 (encDst d) (encSrc a) g i)
  | .sraK g d a i => some (.V, kw 0x217 (encDst d) (encSrc a) g i)
  | .faddK g d a i => some (.V, kw 0x228 (encDst d) (encSrc a) g i)
  | .fmulK g d a i => some (.V, kw 0x22A (encDst d) (encSrc a) g i)
  | _ => none

/-- The instruction read from a row's bits: the header in bits 63:0, the instruction word in bits 127:64; bits at or above `nbits` are zero. -/
def decodeTableWord (nbits w : Nat) : Option Instr :=
  let v := w % 2 ^ nbits
  match decodeHeader (BitVec.ofNat 64 v) with
  | none => none
  | some h =>
    let cls := if h.tailc && h.count == 0 then Cls.C else h.cls
    match decodeWord cls (h.count == 0 && !h.tailc) (BitVec.ofNat 64 (v / 2 ^ 64)) with
    | .ok i => some i
    | .error _ => none

end Sys2Proof
end

