-- ==== Sys2Proof/Machine/State.lean ====
section
/-! DEFINITION. The state of the Tropin as plain data: the package, the contexts, the cores, the engines and their queues, the trains; the reasons a step can stop; the state after reset; and the closed set of updates by which every meaning changes the state. -/

namespace Sys2Proof.Machine

/-- Why a step stops with a fault. -/
inductive Fault where
  /-- Raised by every instruction row when State.cur names no train with an open clause: the instruction has no agent (R15). The model's own stop, safe. -/
  | noIssuingTrain
  deriving DecidableEq, Repr

/-- Why a step is refused. -/
inductive Refusal where
  /-- An instruction whose meaning is not written. Safe. -/
  | notModelled (mnemonic : String)
  deriving DecidableEq, Repr

/-! ## Trains -/

/-- A register, for interlocks (R47). -/
inductive Reg where
  | v (n : Nat)
  | s (n : Nat)
  | p (n : Nat)
  deriving DecidableEq, Repr

/-- A latch result (R49): uniform or per lane, 32 or 64 bits wide. -/
structure Latch where
  unif : Bool
  wide : Bool
  vals : PerLane DWord
  deriving DecidableEq, Repr

/-- The trap registers (R74, Table 4-6). -/
structure TrapRegs where
  tm : Bool
  incl : Bool
  cause : Byte
  trappc : DWord
  thdr : DWord
  tnext : DWord
  tval : DWord
  tlanes : Mask
  tem : Mask
  deriving DecidableEq, Repr

def TrapRegs.reset : TrapRegs := ⟨false, false, 0, 0, 0, 0, 0, 0, 0⟩

/-- The open clause of a train (R43, R44): header address and word, the instruction words fetched with it, the index of the next one, and the results of the earlier ones, the latest first. -/
structure Clause where
  hdr : DWord
  word : DWord
  words : List DWord
  idx : Nat
  latches : List (Option Latch)
  /-- `trapret` resumed it: no latch can be read in it (R77) -/
  resumed : Bool
  /-- the trap registers that its `zwr` leave for the next clause (R368) -/
  zw : Option TrapRegs := none
  /-- context registers its `zwr` wrote, with the values it still reads (R368) -/
  zold : List (Nat × DWord) := []
  deriving DecidableEq, Repr

/-- A deferred trap (R204): its cause, lanes (none: `em` when it is taken), value, issue order, and whether its instruction issued in trap mode. -/
structure Deferred where
  order : Nat
  cause : Byte
  lanes : Option Mask
  tval : DWord
  inTm : Bool
  /-- an instruction was waiting on the trapped instruction's destination: the trap is taken before it -/
  early : Bool
  /-- the trapped instruction's destination -/
  dests : List Reg
  deriving DecidableEq, Repr

/-- What a waiting train waits for (R71, Table 4-5). -/
inductive WaitOn where
  | barrier (addr : Nat)
  | monitor
  | tb (addr : Nat) (phase : Nat)
  | ring (k : Nat)
  | token (va : DWord) (pa : Nat) (v : DWord)
  deriving DecidableEq, Repr

/-- A wait: what for, whether its end has come, and the cycles it has lasted. -/
structure Wait where
  on : WaitOn
  woken : Bool
  age : Nat
  deriving DecidableEq, Repr

/-- The watch of `mon` (R142). -/
structure Watch where
  sector : Nat
  wts : Nat
  va : DWord
  lost : Bool
  /-- a write to the sector with a greater wts has been performed -/
  hit : Bool
  deriving DecidableEq, Repr

/-- Page attributes (Table 8-1). -/
inductive Attr where
  | cached | uncached | device
  deriving DecidableEq, Repr

/-- Atomic placements (R133). -/
inductive Place where
  | near | memside | link
  deriving DecidableEq, Repr

/-- One lane's part of a memory access: lane, VA, PA and data, with the attribute and placement of its page; `exp` is the expected value of `cas`. -/
structure LaneAcc where
  lane : Nat
  va : DWord
  pa : Nat
  data : BitVec 128
  exp : DWord
  attr : Attr
  place : Place
  deriving DecidableEq, Repr

/-- What a write does at its serving point. -/
inductive WKind where
  | store
  | atom (op : AOp)
  | cas
  deriving DecidableEq, Repr

/-- A store FIFO entry, and later a write on its way to its serving point (R118, R124, R127). -/
structure Write where
  id : Nat
  /-- the instruction it is a part of -/
  op : Nat
  train : Nat
  kind : WKind
  n : Nat
  acc : List LaneAcc
  fresh : Bool
  rel : Bool
  acq : Bool
  /-- identities of the earlier writes a release waits for -/
  after : List Nat
  dst : Option Dst
  deriving DecidableEq, Repr

/-- How a loaded value is extended (R118). -/
inductive Ext where
  | zero | sign
  deriving DecidableEq, Repr

/-- A load that has issued and is not performed. -/
structure Load where
  id : Nat
  /-- the instruction it is a part of -/
  op : Nat
  n : Nat
  regs : Nat
  ext : Ext
  acc : List LaneAcc
  fresh : Bool
  acq : Bool
  /-- `ldp`: the predicate and the lanes that keep it -/
  ldp : Option (BitVec 3 × Mask)
  dst : Dst
  deriving DecidableEq, Repr

/-- A long-latency instruction of the train that has not completed (R47). -/
structure Inflight where
  id : Nat
  addr : DWord
  sb : Sb
  dests : List Reg
  tiles : List Nat
  inTm : Bool
  deriving DecidableEq, Repr

/-- A park record (R157): why the train is stopped at its instruction. -/
structure Park where
  /-- every unfinished lane -/
  lanes : Mask
  /-- those that a pre-emption stop leaves to reissue at resume (R78) -/
  resume : Mask
  /-- lanes that are no resume lanes wait for FB_REPLAY -/
  faulted : Bool
  /-- the stop is at a header whose clause was not fetched -/
  atHeader : Bool
  /-- the instruction's identity when some lanes have already issued, else 0 -/
  op : Nat
  /-- pages of the translation faults it waits on -/
  pages : List Nat
  /-- lanes that have completed, and whether the instruction has counted in ZS_CPOLCONF (R119, R168) -/
  did : Mask
  conf : Bool
  deriving DecidableEq, Repr

/-- The transaction state of a train (R224, Table 13-1). Granules are physical. -/
structure Tx where
  on : Bool
  fb : Bool
  em : Mask
  opened : Mask
  aborted : Mask
  cause : PerLane (BitVec 4)
  rs : PerLane (AMap DWord)
  ws : PerLane (AMap (BitVec 8 × DWord))
  /-- `txend` has issued: lanes whose commit step is still to come, and the largest write time met -/
  ending : Option (Mask × Nat)
  /-- VAs of the pages its sets were read or written through, and the `tlbi` instructions that have covered one since (R165) -/
  pages : List Nat
  stale : List Nat
  deriving DecidableEq, Repr

def Tx.reset : Tx :=
  { on := false, fb := false, em := 0, opened := 0, aborted := 0, cause := perLane fun _ => 0,
    rs := perLane fun _ => [], ws := perLane fun _ => [], ending := none, pages := [], stale := [] }

/-- A query cursor (R206, R207): the world, the version joined, and the chunk ids still to yield. -/
structure Cursor where
  world : Nat
  version : Nat
  chunks : List Nat
  deriving DecidableEq, Repr

/-- A hit of a ray (R319). -/
structure Hit where
  t : Word
  inst : Nat
  prim : Word
  instVa : Nat
  triVa : Nat
  u : Word
  v : Word
  opaqueHit : Bool
  /-- the object-level leaf word, for the HPT -/
  leaf : DWord
  deriving DecidableEq, Repr

/-- State of one lane of a query (R320). -/
inductive RayLane where
  | outside
  | busy
  | pending (h : Hit)
  | done (h : Option Hit) (kind : Nat)
  deriving DecidableEq, Repr

/-- Query kinds (R319). -/
inductive RayKind where
  | closest | any | occluded
  deriving DecidableEq, Repr

/-- A geometry binding (R313). -/
structure Geo where
  root : DWord
  gid : Word
  gen : Word
  quant : Int
  predict : Bool
  deriving DecidableEq, Repr

/-- An instruction that waits for lanes of the query: `rywait` for every lane, `ryres` for its own (R328, R329). -/
inductive RayFor where
  | pred (d : PDst)
  | field (f : RyField) (d : Dst)
  deriving DecidableEq, Repr

structure RayWait where
  op : Nat
  lanes : Mask
  what : RayFor
  deriving DecidableEq, Repr

/-- A ray query of a train (R327): what its instruction captured, the binding, the state of its lanes. -/
structure RayQuery where
  op : Nat
  kind : RayKind
  geo : Nat
  bind : Geo
  mask : PerLane Byte
  rays : PerLane (List Word)
  lanes : PerLane RayLane
  /-- candidates rejected so far, per lane, as instance and triangle record VAs -/
  rejected : PerLane (List (Nat × Nat))
  /-- CAND -/
  cand : PerLane Nat
  /-- the hit that a completing query writes to the HPT (R323) -/
  best : PerLane (Option Hit)
  /-- lanes already looked up -/
  looked : Mask
  /-- the tmax of a lane's shortened traversal, until a second one is needed (R322) -/
  tp : PerLane (Option Word)
  waits : List RayWait
  opened : Bool
  held : Bool
  deriving DecidableEq, Repr

/-- A resolved translation a stalled instruction keeps until it issues: a fault met by its walk, and the lanes that waited on it. -/
structure XlFault where
  page : Nat
  present : Bool
  malformed : Bool
  lanes : Mask
  deriving DecidableEq, Repr

/-- A cached translation (R154). `big` is a 512 MiB page; `page` is the VA of the page start. -/
structure Tlb where
  tag : BitVec 16
  page : Nat
  big : Bool
  pa : Nat
  attr : Attr
  place : Nat
  r : Bool
  w : Bool
  x : Bool
  d : Bool
  mig : Bool
  /-- access counter of an L3 entry (R161) -/
  count : Nat
  deriving DecidableEq, Repr

structure Train where
  wheel : Nat
  index : Nat
  pc : DWord
  em : Mask
  live : Mask
  s : AMap Word
  v : AMap Lanes
  p : Vector Mask 8
  sb : Vector Nat 8
  clause : Option Clause
  trap : TrapRegs
  deferred : List Deferred
  park : Option Park
  wait : Option Wait
  /-- the phase kept for a `yieldc` (R73) -/
  keptPhase : Option Nat
  watch : Option Watch
  fifo : List Write
  loads : List Load
  inflight : List Inflight
  xl : List XlFault
  lastPage : PerLane (Option Tlb)
  tx : Tx
  cursors : Vector (Option Cursor) 2
  /-- per-lane command sequence numbers, counted from wheel start (R183) -/
  seq : PerLane Nat
  ray : Option RayQuery
  /-- copy instructions issued, for the k-th collective (R248) -/
  copies : Nat
  /-- cycles ready without issuing, and clauses retired since the wheel's last barrier release (R69) -/
  readyAge : Nat
  retired : Nat
  /-- the clause that ended last offered a train switch (R43) -/
  yielded : Bool
  /-- waits in a token queue (R238) -/
  tokenWait : Bool
  /-- the largest write time of the train's performed writes (R127) -/
  wtsMax : Nat
  /-- the instruction whose completion the next clause waits for (R215, R232) -/
  gate : Option Nat
  /-- LIVE became zero and the train is ending (R84) -/
  ending : Bool
  /-- stopped by pre-emption (R78) -/
  stopped : Bool
  /-- the word at which `trapret` resumes the clause whose header is at `pc` (R77) -/
  resume : Option DWord
  /-- the instruction it stands at waited in place when it last tried to issue (R47, R78) -/
  stall : Bool
  deriving DecidableEq, Repr

/-! ## Wheels and dispatches -/

/-- A byte memory in canonical form: addresses strictly rising, no entry equal to zero, which is what an unlisted byte reads as (log entry 4). -/
abbrev Bytes := List Host.Cell

/-- A tile register (R283): data bytes, scale codes and TSCALE, control. -/
structure Tile where
  data : Bytes
  scales : AMap Byte
  tscale : Word
  control : Word
  deriving DecidableEq, Repr

def Tile.reset : Tile := ⟨[], [], 0x3F800000, 0⟩

/-- State of a ring slot (R262). -/
inductive SlotState where
  | free
  | filling (q : Nat)
  | ready (q : Nat)
  | acquired (q : Nat)
  | draining (q : Nat)
  deriving DecidableEq, Repr

/-- A layout record as read (R244, Table 14-1); lists run over the four dimensions. -/
structure Layout where
  base : Nat
  ndim : Nat
  esize : Nat
  oob : Nat
  loc : Bool
  owned : Bool
  size : List Nat
  stride : List Int
  tile : List Nat
  owners : Nat
  peers : Nat
  deriving DecidableEq, Repr

/-- A bound ring of a wheel (R260, R261), with the train that bound it and the address of its `rbind`. -/
structure WRing where
  lay : Layout
  slotBase : Nat
  slotBytes : Nat
  drain : Bool
  org : List Int
  count : List Nat
  slots : List SlotState
  /-- tiles whose transfer waits for room in the checker, with the instruction that asked for it (R12) -/
  todo : List (Nat × Nat)
  /-- next tile to hand out -/
  next : Nat
  by_ : Nat
  addr : DWord
  deriving DecidableEq, Repr

/-- The four kinds of copy (R250 to R253). -/
inductive CopyKind where
  | cpy | cpym | cpt | cpg
  deriving DecidableEq, Repr

/-- One train's slice of a collective copy (R248): what its instruction named, the fields of its box record and the layouts as read. A refused slice moves nothing. -/
structure Slice where
  train : Nat
  index : Nat
  op : Nat
  kind : CopyKind
  tb : Option Nat
  ls : DWord
  ld : DWord
  src : Layout
  dst : Layout
  srcOrg : List Int
  dstOrg : List Int
  ext : List Nat
  nrecv : Nat
  own : Nat
  rstride : Int
  idx : Nat
  /-- sectors added to the barrier and not yet delivered -/
  pending : Nat
  refused : Bool
  deriving DecidableEq, Repr

/-- The k-th collective of a wheel while it assembles (R248, R249). -/
structure Collective where
  k : Nat
  slices : List Slice
  deriving DecidableEq, Repr

structure Wheel where
  dispatch : Nat
  index : Nat
  core : Nat
  /-- chunk of a query-domain wheel -/
  chunk : Option Nat
  local_ : Bytes
  tiles : Vector Tile 8
  geos : Vector (Option Geo) 4
  rings : Vector (Option WRing) 4
  colls : List Collective
  deriving DecidableEq, Repr

/-- The launch record (R67, Table 4-2). -/
structure Launch where
  entry : DWord
  query : Bool
  wheelsOrQuery : DWord
  trains : Nat
  watched : Bool
  hang : Nat
  sync : Bool
  idempotent : Bool
  strict : Bool
  priv : Bool
  roleMap : Word
  budget : Vector Nat 4
  prio : Vector Nat 4
  local_ : Nat
  tiles : Nat
  param : DWord
  slots : Vector Word 8
  cmdArea : DWord
  viewWorld : Nat
  viewVersion : Word
  wsBase : Nat
  wsLen : Nat
  trapVector : DWord
  deriving DecidableEq, Repr

structure Dispatch where
  sub : Nat
  /-- acceptance order of its node -/
  order : Nat
  ctx : Nat
  node : Option Nat
  launch : Launch
  /-- number of wheels; chunks of a query domain -/
  wheels : Nat
  chunks : List Nat
  /-- the join of a query domain has ended (R64, R182) -/
  joined : Bool
  /-- wheel indices already started -/
  started : List Nat
  ended : Nat
  /-- the pinned view version (R191, R203) -/
  view : Option Nat
  failed : Option (Byte × DWord)
  /-- a cause that fails its node though a handler took the trap: a host that is gone, a failed sync point (R353) -/
  doom : Option (Byte × DWord)
  se : Bool
  /-- write times that its wheels' cores start past, and that its trains have reached (R10) -/
  acq : Nat
  wts : Nat
  /-- kernel pins of the loaded variant (R41) -/
  pins : List (Nat × Nat)
  deriving DecidableEq, Repr

/-! ## Cores -/

/-- An L1 line (R126): the copy's bytes relative to the line, its lease and write time. -/
structure L1Line where
  bytes : Bytes
  rts : Nat
  wts : Nat
  deriving DecidableEq, Repr

structure Core where
  clock : Nat
  cycles : DWord
  /-- cycles since the clock's last tick (R126) -/
  owed : Nat
  l1 : AMap L1Line
  /-- owned sectors, least recently used first (R144) -/
  owned : List Nat
  writes : List Write
  tlb : List Tlb
  ports : Vector (Option Nat) 2
  /-- some train has been ready 4,096 cycles: both ports choose again at every clause end (R69) -/
  urgent : Bool
  /-- the matrix array is split between two contexts (R298) -/
  split : Bool
  deriving DecidableEq, Repr

def Core.reset : Core :=
  { clock := 0, cycles := 0, owed := 0, l1 := [], owned := [], writes := [], tlb := [],
    ports := ⟨#[none, none], rfl⟩, urgent := false, split := false }

/-- Write time and largest granted lease of a line (R126). -/
structure Line where
  wts : Nat
  rts : Nat
  deriving DecidableEq, Repr

/-- The owner of a sector (R144): its core, the context whose train registered it, and the tag and VA by which it did. -/
structure Owner where
  core : Nat
  ctx : Nat
  tag : BitVec 16
  va : Nat
  deriving DecidableEq, Repr

/-- A granule locked by a token holder's lane (R239). -/
structure Lock where
  train : Nat
  lane : Nat
  deriving DecidableEq, Repr

/-! ## Translation -/

/-- One lookup that waits on a walk (R167). -/
structure Waiter where
  train : Nat
  lanes : Mask
  kind : BitVec 3
  nopark : Bool
  /-- the train stays at the instruction until the walk ends -/
  stays : Bool
  /-- what a report says of the train: its core, dispatch, wheel and index when it looked the page up (R158, R167) -/
  core : Nat
  dispatch : Nat
  wheel : Nat
  index : Nat
  deriving DecidableEq, Repr

/-- A walk, waiting for a walker or in flight (R155), and the time its first lookup started it (R167). -/
structure Walk where
  cluster : Nat
  die : Nat
  ctx : Nat
  page : Nat
  born : Nat
  running : Bool
  waiters : List Waiter
  deriving DecidableEq, Repr

/-- A fault-pending mark (R158). -/
structure Mark where
  cluster : Nat
  ctx : Nat
  page : Nat
  deriving DecidableEq, Repr

/-- A fault buffer entry (Table 8-3). -/
structure FbEntry where
  page : DWord
  kind : Byte
  flags : Byte
  core : Half
  count : Word
  dispatch : Word
  wheel : Word
  train : Byte
  lanes : Half
  seq : Word
  deriving DecidableEq, Repr

/-- A Chime entry (Table 8-5). -/
structure ChimeEntry where
  page : DWord
  tag : Half
  dies : Byte
  thresholds : Word
  deriving DecidableEq, Repr

structure Chime where
  slots : AMap ChimeEntry
  head : Word
  tail : Word
  overflow : Bool
  drops : Nat
  /-- notifications on their way: die, tag, page (R161) -/
  coming : List (Nat × Half × DWord)
  deriving DecidableEq, Repr

/-- An HPT entry with its whole key (R321, R322). -/
structure HptEntry where
  part : Nat
  tag : Half
  gid : Word
  key : List Nat
  gen : Word
  inst : Nat
  leaf : DWord
  deriving DecidableEq, Repr

/-- A `tlbi` that has issued (R164), or a `tlbsync` that has issued and not completed (R165). -/
structure Tlbi where
  sync : Bool
  train : Nat
  op : Nat
  ctx : Nat
  lo : Nat
  hi : Nat
  begun : Bool
  /-- accesses with a smaller identity issued before it began -/
  mark : Nat
  deriving DecidableEq, Repr

/-! ## Contexts -/

structure Context where
  stopped : Bool
  preempt : Bool
  /-- `ctxsv` has written it to an image and freed its cores -/
  saved : Bool
  hangbuf : DWord
  hangLimit : DWord
  lease : Word
  cpolconf : Word
  ptbase : DWord
  xtag : Half
  migthresh : Half
  worldtab : DWord
  hptpart : Word
  vctx : BitVec 4
  mxstep : DWord
  mxstall : DWord
  spillbase : DWord
  spillsize : Word
  fb : AMap FbEntry
  fbHead : Word
  fbTail : Word
  fbDropped : Bool
  fbDrops : Half
  fbSeq : Word
  /-- trains parked at a replay's start that have not reissued: FB_REPLAY.GO reads 1 -/
  replaying : List Nat
  replayHeld : Bool
  regulator : Nat
  token : Option (Nat × Nat)
  tokenGrant : Nat
  tokenQueue : List Nat
  /-- HPT counters of each C-die (R332) -/
  hptCounts : Vector (Vector Word 5) 4
  /-- the context belongs to this host (R374) -/
  host : Option Nat
  deriving DecidableEq, Repr

def Context.reset (c : Nat) : Context :=
  { stopped := false, preempt := false, saved := false, hangbuf := 0, hangLimit := 0x1000000, lease := 256,
    cpolconf := 0, ptbase := 0, xtag := 0, migthresh := 0, worldtab := 0, hptpart := 0,
    vctx := BitVec.ofNat 4 c, mxstep := 0, mxstall := 0, spillbase := 0, spillsize := 0,
    fb := [], fbHead := 0, fbTail := 0, fbDropped := false, fbDrops := 0, fbSeq := 0,
    replaying := [], replayHeld := false, regulator := 0, token := none, tokenGrant := 0,
    tokenQueue := [],
    hptCounts := Vector.replicate 4 (Vector.replicate 5 0), host := none }

/-! ## Engine work -/

/-- Operands an engine instruction captured at issue (R48, R205). -/
structure Cap where
  act : Mask
  em : Mask
  a : PerLane DWord
  b : PerLane DWord
  c : PerLane DWord
  x : PerLane (BitVec 128)
  deriving DecidableEq, Repr

/-- An engine instruction that has issued and not completed. -/
structure EngineOp where
  id : Nat
  train : Nat
  instr : Instr
  cap : Cap
  held : Bool
  /-- steps a loop has run, and the k's that the step in progress has folded (R299) -/
  step : Nat
  pos : Nat
  /-- the words of the record it read at issue -/
  words : List Nat
  deriving DecidableEq, Repr

/-- A sync point in progress: `esync` has passed its checks and started it; its stages take effect together at its publication (R186 to R189, R195, R215). -/
structure SyncPoint where
  train : Nat
  op : Nat
  ctx : Nat
  world : Nat
  deriving DecidableEq, Repr

/-- What the ESU keeps of a retained older version of a world: its chunk lists by archetype, and the entries of its version map (R191, R193). -/
structure VerState where
  ctx : Nat
  world : Nat
  version : Nat
  lists : List (Nat × List Nat)
  map : List (Nat × Nat)
  deriving DecidableEq, Repr

/-- Spaces of an engine access. -/
inductive Space where
  | glob | loc
  deriving DecidableEq, Repr

/-- Where a byte that a job writes comes from. -/
inductive ByteSrc where
  | zero
  | mem (sp : Space) (a : Nat)
  | imm (b : Byte)
  deriving DecidableEq, Repr

/-- One (receiver, destination sector) pair of a slice: the bytes it writes, each with its source (R254, R257). -/
structure Sector where
  space : Space
  slice : Nat
  bytes : List (Nat × ByteSrc)
  deriving DecidableEq, Repr

/-- What a job is (R254, R260, R288, R295, R346, R370): a copy, a tile move of a matrix instruction, a ring transfer, a write of the weight store. -/
inductive JobKind where
  | copy (tb : Option Nat) (slices : List Slice)
  | tile (op : Nat)
  | ringFill (ring q : Nat)
  | ringDrain (ring q : Nat)
  | weights (train op w a n done : Nat)
  deriving DecidableEq, Repr

structure Job where
  /-- the issue of the instruction that completed it: its place in the checker's order (R12) -/
  order : Nat
  core : Nat
  wheel : Option Nat
  ctx : Nat
  priv : Bool
  kind : JobKind
  node : Option Nat
  started : Bool
  held : Bool
  /-- sectors read, as space and sector number; sectors written -/
  reads : List (Space × Nat)
  writes : List (Space × Nat)
  sectors : List Sector
  /-- waited-on words whose writes were dropped (R140) -/
  clobber : List Nat
  deriving DecidableEq, Repr

/-! ## The Remontoir -/

/-- A ring record as read at enable (R342). -/
structure RingRec where
  slots : Nat
  widx : Nat
  head : Nat
  errlog : Nat
  log2n : Nat
  retry : Nat
  quantum : Nat
  deriving DecidableEq, Repr

structure Ring where
  recVa : DWord
  ctl : Word
  kt : Word
  h : Word
  c : Nat
  stuck : Bool
  loglost : Bool
  ignored : Half
  errcount : Byte
  rec_ : RingRec
  deficit : Vector Nat 4
  held : Bool
  /-- the zero that its enable writes to HEAD is still to be written (R341) -/
  headDue : Bool
  /-- nanoseconds for which its next slot has stayed unmatched (R345) -/
  waitNs : Nat
  deriving DecidableEq, Repr

def Ring.reset : Ring :=
  { recVa := 0, ctl := 0, kt := 0, h := 0, c := 0, stuck := false, loglost := false, ignored := 0,
    errcount := 0, rec_ := ⟨0, 0, 0, 0, 3, 0, 1⟩, deficit := Vector.replicate 4 0, held := false,
    headDue := false, waitNs := 0 }

/-- A footprint entry (Table 20-5). -/
structure Fp where
  kind : Nat
  reads : Bool
  writes : Bool
  base : Nat
  len : Nat
  world : Nat
  type : Nat
  scope : Nat
  /-- the entry belongs to a dispatch whose view pins its world (R197) -/
  pinned : Bool
  /-- the entry of everything that a SYNC node declares (R197) -/
  sync : Bool
  deriving DecidableEq, Repr

inductive NodeState where
  | waiting
  | started
  | complete
  | failed
  deriving DecidableEq, Repr

structure Node where
  ring : Nat
  ctx : Nat
  /-- acceptance order over all rings -/
  order : Nat
  kind : Nat
  prio : Nat
  serial : Bool
  hold : Bool
  idempotent : Bool
  arg0 : DWord
  arg1 : DWord
  token : DWord
  tokval : DWord
  fps : List Fp
  /-- predecessors not complete -/
  edges : List Nat
  state : NodeState
  cause : Byte
  trappc : DWord
  se : Bool
  replays : Nat
  /-- jobs of a COPY or COLLECT node still to finish, and the entries that the checker of its core has no room for yet (R12) -/
  jobs : List Nat
  todo : List (Nat × Slice)
  core : Nat
  cost : Nat
  held : Bool
  /-- its launch was refused (R68) -/
  refused : Bool
  /-- a SIGNAL node's word is written -/
  signalled : Bool
  /-- the write time that the completions it follows, and later its own work, have reached (R10) -/
  wts : Nat
  deriving DecidableEq, Repr

/-! ## Package -/

structure Mg where
  svc : BitVec 3
  failcode : Word
  hostwr : Bool
  badwr : Bool
  hostdown : Bool
  clockMhz : Half
  watts : Half
  plimit : Half
  celsius : Byte
  /-- contexts that a thermal stop holds (R379), and those that the change to full service stopped (R377) -/
  hold : Option (BitVec 16)
  change : Option (BitVec 16)
  coreMap : BitVec 800
  refreshNs : Nat
  hostsDown : List Nat
  /-- the switch that the fabric ports hang on keeps a directory of shared ranges (R372, log entry 75) -/
  shared : Bool
  /-- the signature index of the identity key, in the secure store (R375) -/
  sigIndex : Nat
  deriving DecidableEq, Repr

/-- The core-enable map of the model's part: the first 192 cores of each C-die (R8, log entry 2). -/
def coreMapReset : BitVec 800 :=
  BitVec.ofNat 800 ((2 ^ 192 - 1) * (1 + 2 ^ 200 + 2 ^ 400 + 2 ^ 600))

def Mg.reset : Mg :=
  { svc := 0, failcode := 0, hostwr := false, badwr := false, hostdown := false, clockMhz := 3300,
    watts := 0, plimit := 2600, celsius := 0, hold := none, change := none, coreMap := coreMapReset,
    refreshNs := 0, hostsDown := [], shared := true, sigIndex := 0 }

/-- An attestation report (R375): the nonce, the digests of the firmware and of the configuration, the defect-map signature, and the index and value of the signature over them. -/
structure Attestation where
  nonce : DWord
  firmware : DWord
  config : DWord
  defects : DWord
  index : Nat
  sig : DWord
  deriving DecidableEq, Repr

/-- What a host's request returns: the bytes read, or a report. -/
inductive Reply where
  | data (v : Nat)
  | report (r : Attestation)
  deriving DecidableEq, Repr

/-- A loaded object (R39, R41): its context, its kernels by entry address with their pins, and the cause that refuses its launches. -/
structure Obj where
  ctx : Nat
  lo : Nat
  hi : Nat
  refusal : Option Byte
  kernels : List (Nat × List (Nat × Nat))
  deriving DecidableEq, Repr

/-- A saved context (R369): what its image holds; `live` until a `ctxld` has loaded it. -/
structure Image where
  live : Bool
  ctx : Nat
  size : Nat
  context : Context
  /-- dispatches of the context, and what the ESU keeps of its worlds' older versions -/
  dispatches : AMap Dispatch
  vers : List VerState
  syncs : List SyncPoint
  skips : List (Nat × Nat)
  marks : List Mark
  wheels : AMap Wheel
  trains : AMap Train
  jobs : AMap Job
  esu : AMap EngineOp
  matrix : AMap EngineOp
  stream : AMap EngineOp
  ray : AMap EngineOp
  /-- the `tlbi` and `tlbsync` of its trains that have not completed (R164, R165) -/
  tlbis : List Tlbi
  /-- the clock that the core of each of its wheels had reached (R263) -/
  clocks : AMap Nat
  /-- its started nodes (R355) -/
  nodes : List Nat
  deriving DecidableEq, Repr

/-- A turn of the agenda: an event, the issue of the next instruction word of the train that holds a port, or the start of self-test (R376). -/
inductive Turn where
  | event (e : Instr)
  | issue (core port : Nat)
  | selfTest
  /-- the completion of a `tlbsync` (R165) -/
  | syncDone (train op : Nat)
  /-- a write of `n` bytes to the MMIO space, by a host or not -/
  | mmio (host : Bool) (off n v : Nat)
  deriving DecidableEq, Repr

structure State where
  agenda : List Turn
  cur : Option Nat
  free : Nat
  nextId : Nat
  mg : Mg
  mem : Bytes
  wmem : Bytes
  lines : AMap Line
  owners : AMap Owner
  locks : AMap Lock
  ctxs : Vector Context 16
  cores : AMap Core
  l2 : AMap (List Tlb)
  l3 : AMap (List Tlb)
  marks : List Mark
  walks : AMap Walk
  tlbis : List Tlbi
  chime : Chime
  hpt : AMap (List HptEntry)
  objects : List Obj
  images : AMap Image
  dispatches : AMap Dispatch
  wheels : AMap Wheel
  trains : AMap Train
  esu : AMap EngineOp
  matrix : AMap EngineOp
  stream : AMap EngineOp
  /-- `rygeo` and `ryinv` that have issued and not taken effect -/
  ray : AMap EngineOp
  syncs : List SyncPoint
  vers : List VerState
  /-- records that a failed sync point skipped and its area still counts: context and VA (R186, R195) -/
  skips : List (Nat × Nat)
  jobs : AMap Job
  rings : Vector Ring 64
  nodes : AMap Node
  /-- the ring whose turn it is at each priority (R351) -/
  pool : Vector Nat 4
  /-- host requests that wait at a slice for a locked granule (R239) -/
  hosts : List HostReq
  /-- what the latest request that returns something returned (R373, R375) -/
  reply : Option Reply
  deriving DecidableEq, Repr

/-- The machine right after reset: power-on, the Crown ROM running and compute in reset (R376). -/
def State.reset : State :=
  { agenda := [], cur := none, free := 0, nextId := 1, mg := Mg.reset, mem := [], wmem := [],
    lines := [], owners := [], locks := [],
    ctxs := ⟨((List.range 16).map Context.reset).toArray, by simp⟩, cores := [], l2 := [], l3 := [],
    marks := [], walks := [], tlbis := [],
    chime := { slots := [], head := 0, tail := 0, overflow := false, drops := 0, coming := [] },
    hpt := [], objects := [], images := [], dispatches := [], wheels := [], trains := [], esu := [],
    matrix := [], stream := [], ray := [], syncs := [], vers := [], skips := [], jobs := [], rings := Vector.replicate 64 Ring.reset, nodes := [],
    pool := Vector.replicate 4 0, hosts := [], reply := none }

/-! ## Byte memories -/

/-- Read one byte; an unlisted address reads zero (log entry 4). -/
def Bytes.get (m : Bytes) (a : Nat) : Byte := AMap.getD m a 0

/-- Write one byte, keeping the canonical form. -/
def Bytes.put (m : Bytes) (a : Nat) (b : Byte) : Bytes :=
  if b = 0 then AMap.erase m a else AMap.set m a b

/-- Addresses strictly rising from `lo` on, and no listed byte is zero. -/
def Bytes.wfFrom (lo : Nat) : Bytes → Bool
  | [] => true
  | (a, b) :: m => lo ≤ a && b != 0 && Bytes.wfFrom (a + 1) m

/-- The canonical form of a memory. -/
def Memory.wf (m : Bytes) : Bool := Bytes.wfFrom 0 m

/-! ## Updates -/

/-- The updates of the state: every meaning changes the state through these and nothing else. -/
inductive Upd where
  | agenda (x : List Turn)
  | cur (x : Option Nat)
  | free (x : Nat)
  | nextId (x : Nat)
  | mg (x : Mg)
  | byte (a : Nat) (b : Byte)
  | wbyte (a : Nat) (b : Byte)
  | line (k : Nat) (x : Line)
  | owners (x : AMap Owner)
  | locks (x : AMap Lock)
  | ctx (c : Nat) (x : Context)
  | core (k : Nat) (x : Core)
  | l2 (k : Nat) (x : List Tlb)
  | l3 (k : Nat) (x : List Tlb)
  | marks (x : List Mark)
  | walk (k : Nat) (x : Option Walk)
  | tlbis (x : List Tlbi)
  | chime (x : Chime)
  | hpt (k : Nat) (x : List HptEntry)
  | objects (x : List Obj)
  | image (k : Nat) (x : Image)
  | dispatch (k : Nat) (x : Option Dispatch)
  | wheel (k : Nat) (x : Option Wheel)
  | train (k : Nat) (x : Option Train)
  | esu (k : Nat) (x : Option EngineOp)
  | matrix (k : Nat) (x : Option EngineOp)
  | stream (k : Nat) (x : Option EngineOp)
  | ray (k : Nat) (x : Option EngineOp)
  | syncs (x : List SyncPoint)
  | vers (x : List VerState)
  | skips (x : List (Nat × Nat))
  | job (k : Nat) (x : Option Job)
  | ring (k : Nat) (x : Ring)
  | node (k : Nat) (x : Node)
  | pool (x : Vector Nat 4)
  | hosts (x : List HostReq)
  | reply (x : Option Reply)
  deriving DecidableEq, Repr

def putOpt {α : Type} (m : AMap α) (k : Nat) : Option α → AMap α
  | some x => AMap.set m k x
  | none => AMap.erase m k

/-- What holds of every train the machine stores: em lies inside LIVE (R61), p7 reads 1 (R97), the program counter is a multiple of 8 (R44, log entry 70), and an open bracket keeps em inside OPEN outside trap mode (R224). -/
def Train.norm (t : Train) : Train :=
  let em := t.em &&& t.live
  { t with
    em := if t.tx.on && !t.trap.tm then em &&& t.tx.opened else em
    pc := t.pc &&& 0xFFFFFFFFFFFFFFF8#64
    p := t.p.set 7 0xFFFFFFFF }

/-- MG_PLIMIT is clipped to 300 to 2,600 W (R365). -/
def Mg.norm (m : Mg) : Mg :=
  { m with plimit := if m.plimit < 300 then 300 else if 2600 < m.plimit then 2600 else m.plimit }

/-- ZS_HANG_LIMIT and ZS_LEASE are clipped to their ranges (R367). -/
def Context.norm (c : Context) : Context :=
  { c with
    hangLimit := if c.hangLimit < 0x10000 then 0x10000
      else if 0x10000000000 < c.hangLimit then 0x10000000000 else c.hangLimit
    lease := if c.lease < 1 then 1 else if 65535 < c.lease then 65535 else c.lease }

/-- Apply one update. -/
def State.upd (s : State) : Upd → State
  | .agenda x => { s with agenda := x }
  | .cur x => { s with cur := x }
  | .free x => { s with free := x }
  | .nextId x => { s with nextId := x }
  | .mg x => { s with mg := x.norm }
  | .byte a b => { s with mem := s.mem.put a b }
  | .wbyte a b => { s with wmem := s.wmem.put a b }
  | .line k x => { s with lines := AMap.set s.lines k x }
  | .owners x => { s with owners := x }
  | .locks x => { s with locks := x }
  | .ctx c x => if h : c < 16 then { s with ctxs := s.ctxs.set c x.norm h } else s
  | .core k x => { s with cores := AMap.set s.cores k x }
  | .l2 k x => { s with l2 := AMap.set s.l2 k x }
  | .l3 k x => { s with l3 := AMap.set s.l3 k x }
  | .marks x => { s with marks := x }
  | .walk k x => { s with walks := putOpt s.walks k x }
  | .tlbis x => { s with tlbis := x }
  | .chime x => { s with chime := x }
  | .hpt k x => { s with hpt := AMap.set s.hpt k x }
  | .objects x => { s with objects := x }
  | .image k x => { s with images := AMap.set s.images k x }
  | .dispatch k x => { s with dispatches := putOpt s.dispatches k x }
  | .wheel k x => { s with wheels := putOpt s.wheels k x }
  | .train k x => { s with trains := putOpt s.trains k (x.map Train.norm) }
  | .esu k x => { s with esu := putOpt s.esu k x }
  | .matrix k x => { s with matrix := putOpt s.matrix k x }
  | .stream k x => { s with stream := putOpt s.stream k x }
  | .ray k x => { s with ray := putOpt s.ray k x }
  | .syncs x => { s with syncs := x }
  | .vers x => { s with vers := x }
  | .skips x => { s with skips := x }
  | .job k x => { s with jobs := putOpt s.jobs k x }
  | .ring k x => if h : k < 64 then { s with rings := s.rings.set k x h } else s
  | .node k x => { s with nodes := AMap.set s.nodes k x }
  | .pool x => { s with pool := x }
  | .hosts x => { s with hosts := x }
  | .reply x => { s with reply := x }

/-- A state reached from `s` by updates. -/
inductive Reach (s : State) : State → Prop where
  | refl : Reach s s
  | step {t : State} (h : Reach s t) (u : Upd) : Reach s (t.upd u)

/-- A state of a run that began at `s`. -/
abbrev Run (s : State) := { t : State // Reach s t }

/-- Why a meaning ends before its end: a synchronous trap of the current train (lanes and value by R46 where none is given), an operation held by a translation fault of a page, or a stop of the machine. -/
inductive Stop where
  | trap (cause : Byte) (lanes : Option Mask) (tval : Option DWord)
  | held (page : DWord) (kind : BitVec 3) (present malformed : Bool)
  | wait
  | fault (f : Fault)
  | refused (r : Refusal)
  deriving DecidableEq, Repr

/-- A meaning as a computation over the state it started in. -/
abbrev M (s : State) := StateT (Run s) (Except Stop)

end Sys2Proof.Machine
end

