-- ==== Sys2Proof/Machine/Ops.lean ====
section
/-! DEFINITION. The operations every meaning is built from: applying updates, ending a step, byte memories, the registers of a train, aborting a transaction lane, taking a trap and failing a dispatch. -/

namespace Sys2Proof.Machine

variable {s : State}

/-! ## Updates -/

/-- Apply updates in order. -/
def State.upds (s : State) (us : List Upd) : State := us.foldl State.upd s

/-- The state now. -/
def now : M s State := fun r => .ok (r.1, r)

/-- Apply one update. -/
def upd (u : Upd) : M s Unit := fun r => .ok ((), ⟨r.1.upd u, r.2.step u⟩)

/-- Apply updates in order. -/
def updAll : List Upd → M s Unit
  | [] => pure ()
  | u :: us => do
    upd u
    updAll us

/-- End the meaning early. -/
def stop {α : Type} (e : Stop) : M s α := fun _ => .error e

/-- End the meaning early unless `b` holds. -/
def need (b : Bool) (e : Stop) : M s Unit := if b then pure () else stop e

/-- A value that is there, or the stop `e`. -/
def orStop {α : Type} (o : Option α) (e : Stop) : M s α :=
  match o with
  | some a => pure a
  | none => stop e

/-- Draw a fresh free value (log entry 8). -/
def freshFree : M s DWord := do
  let t ← now
  upd (.free (t.free + 1))
  pure (Config.freeValue t.free)

/-- Draw a fresh identity (log entry 8). -/
def freshId : M s Nat := do
  let t ← now
  upd (.nextId (t.nextId + 1))
  pure t.nextId

/-! ## Byte memories -/

/-- `n` bytes from `a` on, little-endian (R2). -/
def Bytes.read (m : Bytes) (a : Nat) : Nat → Nat
  | 0 => 0
  | n + 1 => (Bytes.get m a).toNat + 256 * Bytes.read m (a + 1) n

/-- Write the low `n` bytes of `v` from `a` on, little-endian (R2). -/
def Bytes.write (m : Bytes) (a : Nat) : Nat → Nat → Bytes
  | 0, _ => m
  | n + 1, v => Bytes.write (Bytes.put m a (BitVec.ofNat 8 v)) (a + 1) n (v / 256)

/-- The updates that write the low `n` bytes of `v` to physical memory. -/
def byteUpds (a : Nat) : Nat → Nat → List Upd
  | 0, _ => []
  | n + 1, v => .byte a (BitVec.ofNat 8 v) :: byteUpds (a + 1) n (v / 256)

/-- Write bytes to physical memory. -/
def putMem (a n v : Nat) : M s Unit := updAll (byteUpds a n v)

/-- A 52-bit field of a wide number: `len` bits from bit `lo`. -/
def bits (v lo len : Nat) : Nat := v / 2 ^ lo % 2 ^ len

def bitAt (v i : Nat) : Bool := v / 2 ^ i % 2 == 1

/-! ## Registers of a train -/

/-- s0 to s63; a register never written or freed reads as zero (R48). -/
def Train.sreg (t : Train) (i : Nat) : Word := AMap.getD t.s i 0

/-- v0 to v255. -/
def Train.vreg (t : Train) (i : Nat) : Lanes := AMap.getD t.v i (perLane fun _ => 0)

/-- p0 to p7; p7 reads as 1 in every lane (R97). -/
def Train.pred (t : Train) (i : Nat) : Mask :=
  if i = 7 then 0xFFFFFFFF else t.p[i % 8]'(Nat.mod_lt _ (by decide))

/-- A 64-bit scalar pair (R56). -/
def Train.pair (t : Train) (i : Nat) : DWord := t.sreg (i + 1) ++ t.sreg i

def Train.setS (t : Train) (i : Nat) (x : Word) : Train := { t with s := AMap.set t.s i x }

def Train.setPair (t : Train) (i : Nat) (x : DWord) : Train :=
  (t.setS i (x.extractLsb' 0 32)).setS (i + 1) (x.extractLsb' 32 32)

/-- Write the lanes of `m` of a vector register. -/
def Train.setV (t : Train) (i : Nat) (m : Mask) (f : Nat → Word) : Train :=
  let old := t.vreg i
  { t with v := AMap.set t.v i (perLane fun L => if m.getLsbD L then f L else old.at L) }

/-- Write the lanes of `m` of a predicate; a write to p7 is discarded (R54). -/
def Train.setP (t : Train) (i : Nat) (m x : Mask) : Train :=
  if i = 7 then t
  else { t with p := t.p.set (i % 8) ((t.pred i &&& ~~~m) ||| (x &&& m)) (Nat.mod_lt _ (by decide)) }

/-- Free `n` registers (R48). -/
def Train.freeV (t : Train) (i : Nat) : Nat → Train
  | 0 => t
  | n + 1 => Train.freeV { t with v := AMap.erase t.v i } (i + 1) n

def Train.freeS (t : Train) (i : Nat) : Nat → Train
  | 0 => t
  | n + 1 => Train.freeS { t with s := AMap.erase t.s i } (i + 1) n

/-- Write `n` registers of a destination, register k of lane L getting `f L k`; NOWB discards the write (R54). A scalar destination takes lane `L0`. -/
def Train.setDst (t : Train) (d : Dst) (m : Mask) (L0 : Nat) (f : Nat → Nat → Word) : Nat → Train
  | 0 => t
  | n + 1 =>
    let t := Train.setDst t d m L0 f n
    if d.nowb then t
    else if d.scalar then t.setS (d.idx.toNat + n) (f L0 n)
    else t.setV (d.idx.toNat + n) m fun L => f L n

/-- Register k of a value of up to four registers. -/
def regPart (x : BitVec 128) (k : Nat) : Word := x.extractLsb' (32 * k) 32

def dwPart (x : DWord) (k : Nat) : Word := x.extractLsb' (32 * k) 32

/-- The lowest lane of a mask; 32 when it is empty. -/
def lowest (m : Mask) : Nat := ((List.range 32).find? fun L => m.getLsbD L).getD 32

/-! ## The dispatch of a train -/

def State.wheelOf (s : State) (t : Train) : Option Wheel := AMap.get? s.wheels t.wheel

def State.dispatchOf (s : State) (t : Train) : Option Dispatch :=
  (s.wheelOf t).bind fun w => AMap.get? s.dispatches w.dispatch

/-- Role of train index `i` (R65, R67). -/
def Launch.role (l : Launch) (i : Nat) : Nat := bits l.roleMap.toNat (2 * i) 2

def Launch.roleBudget (l : Launch) (i : Nat) : Nat :=
  l.budget[l.role i % 4]'(Nat.mod_lt _ (by decide))

def Launch.rolePrio (l : Launch) (i : Nat) : Nat :=
  l.prio[l.role i % 4]'(Nat.mod_lt _ (by decide))

/-- The vector registers a train may name (R52, R65). -/
def State.budgetOf (s : State) (t : Train) : Nat :=
  match s.dispatchOf t with
  | some d => d.launch.roleBudget t.index
  | none => 0

/-- The context number of a train. -/
def State.ctxOf (s : State) (t : Train) : Nat :=
  match s.dispatchOf t with
  | some d => d.ctx
  | none => 0

def State.ctx (s : State) (c : Nat) : Context := s.ctxs[c % 16]'(Nat.mod_lt _ (by decide))

/-- The core of a train. -/
def State.coreOf (s : State) (t : Train) : Nat :=
  match s.wheelOf t with
  | some w => w.core
  | none => 0

def State.core (s : State) (k : Nat) : Core := AMap.getD s.cores k Core.reset

/-- C-die of a core: 200 physical core indices a die (R8). -/
def dieOf (core : Nat) : Nat := core / 200

/-- Enabled cores of the die below `core`. -/
def rankOf (map : BitVec 800) (core : Nat) : Nat :=
  ((List.range (core % 200)).filter fun i => map.getLsbD (200 * dieOf core + i)).length

/-- Cluster of a core, 12 clusters of 16 enabled cores a die, numbered through the four dies (R8). -/
def State.clusterOf (s : State) (core : Nat) : Nat := 12 * dieOf core + rankOf s.mg.coreMap core / 16

/-- The train runs privileged (R45). -/
def State.privOf (s : State) (t : Train) : Bool :=
  t.trap.tm || (match s.dispatchOf t with | some d => d.launch.priv | none => false)

/-! ## Transaction lanes (R224) -/

/-- Abort causes (Table 13-4). -/
inductive Abort where
  | conflict | ovfR | ovfW | fault | preempt | explicit | nest | locked | unsupported
  deriving DecidableEq, Repr

def Abort.code : Abort → BitVec 4
  | .conflict => 1 | .ovfR => 2 | .ovfW => 3 | .fault => 4 | .preempt => 5
  | .explicit => 6 | .nest => 7 | .locked => 8 | .unsupported => 9

/-- Abort the open lanes of `m` with a cause (R224). -/
def Train.abortLanes (t : Train) (m : Mask) (c : Abort) : Train :=
  let m := m &&& t.tx.opened
  { t with
    em := t.em &&& ~~~m
    tx := { t.tx with
      opened := t.tx.opened &&& ~~~m
      aborted := t.tx.aborted ||| m
      cause := perLane fun L => if m.getLsbD L then c.code else t.tx.cause.at L
      rs := perLane fun L => if m.getLsbD L then [] else t.tx.rs.at L
      ws := perLane fun L => if m.getLsbD L then [] else t.tx.ws.at L } }

/-- Release the token locks of lanes of a train (R239). -/
def unlockLanes (l : AMap Lock) (id : Nat) (m : Mask) : AMap Lock :=
  l.filter fun kv => !(kv.2.train == id && m.getLsbD kv.2.lane)

/-- The train is inside a bracket, outside trap mode: R228 governs its instructions. -/
def Train.inTx (t : Train) : Bool := t.tx.on && !t.trap.tm

/-! ## Traps (R74, R75, Table 4-6) -/

/-- The point a trap is taken at. -/
structure TrapAt where
  pc : DWord
  incl : Bool
  thdr : DWord
  tnext : DWord
  deriving DecidableEq, Repr

/-- The header after the open clause: its header + 8 × (COUNT + 2). -/
def Clause.nextHdr (c : Clause) : DWord := c.hdr + BitVec.ofNat 64 (8 * (c.words.length + 1))

/-- Address of instruction word i of the clause. -/
def Clause.wordAddr (c : Clause) (i : Nat) : DWord := c.hdr + BitVec.ofNat 64 (8 * (i + 1))

/-- The instruction word a clause stands at. -/
def Clause.cur (c : Clause) : DWord := c.words.getD c.idx 0

/-- Where a train stands: at an instruction word of its open clause, or at a header whose clause has not begun. -/
def Train.here (t : Train) : TrapAt :=
  match t.clause with
  | some c => { pc := c.wordAddr c.idx, incl := true, thdr := c.hdr, tnext := c.nextHdr }
  | none => { pc := t.pc, incl := false, thdr := t.pc, tnext := t.pc }

/-- The value a trap reports when its definition names no other: the instruction word (R46). -/
def Train.word (t : Train) : DWord :=
  match t.clause with
  | some c => c.cur
  | none => 0

/-- The train stops at once: no open clause, no wait, nothing parked. -/
def Train.cut (t : Train) : Train :=
  { t with clause := none, wait := none, park := none, xl := [], resume := none, stall := false }

/-- The train is of dispatch `d`. -/
def State.ofDispatch (s : State) (d : Nat) (t : Train) : Bool :=
  match s.wheelOf t with
  | some w => w.dispatch == d
  | none => false

/-- Fail dispatch `d` with a cause and an address: its trains stop at their next clause boundary, its open lanes write nothing, its trains leave the token queue and its token is released (R75, R238, R241). A train that stood in the queue is not granted it any more, and ends where it stands. Only the first failure is kept. -/
def failUpds (s : State) (d : Nat) (cause : Byte) (pc : DWord) : List Upd :=
  match AMap.get? s.dispatches d with
  | none => []
  | some x =>
    let mine := s.trains.filter fun kv => s.ofDispatch d kv.2
    let ids := mine.map (·.1)
    let cx := s.ctx x.ctx
    let txs := (mine.filter fun kv => kv.2.tx.on).map fun kv =>
      Upd.train kv.1 (some { kv.2.abortLanes 0xFFFFFFFF .fault with
        tx := { (kv.2.abortLanes 0xFFFFFFFF .fault).tx with fb := false } })
    let tok :=
      if cx.tokenQueue.any (ids.contains ·) || (match cx.token with | some h => ids.contains h.1 | none => false) then
        [Upd.ctx x.ctx { cx with
          tokenQueue := cx.tokenQueue.filter fun i => !ids.contains i
          token := match cx.token with
            | some h => if ids.contains h.1 then none else some h
            | none => none }]
      else []
    .dispatch d (some { x with failed := x.failed.or (some (cause, pc)) })
      :: .locks (s.locks.filter fun kv => !ids.contains kv.2.train) :: tok ++ txs

/-- The train that traps, after the entry (R74); lanes of an open bracket abort first (R227). The phase kept for a `yieldc` lives from E_HANG to the execution that `trapret` resumes (R73). -/
def Train.trapped (t : Train) (at_ : TrapAt) (cause : Byte) (lanes : Mask) (tval vec : DWord) : Train :=
  let t := if t.inTx then t.abortLanes t.tx.opened .fault else t
  { t.cut with
    trap := { tm := true, incl := at_.incl, cause := cause, trappc := at_.pc, thdr := at_.thdr,
              tnext := at_.tnext, tval := tval, tlanes := lanes, tem := t.em }
    em := t.live
    pc := vec
    keptPhase := if cause = 0x0F then t.keptPhase else none }

/-- The node of a train's dispatch will fail with a cause when the dispatch ends; the first such cause stands (R353, log entry 78). -/
def doomUpds (s : State) (t : Train) (cause : Byte) (pc : DWord) : List Upd :=
  match s.wheelOf t, s.dispatchOf t with
  | some w, some d => [.dispatch w.dispatch (some { d with doom := d.doom.or (some (cause, pc)) })]
  | _, _ => []

/-- Take a trap of train `id` at a point; a host that is gone also fails the node (R353): the entry of R74, or the fatal end of R75 when there is no vector, when the train is in trap mode, or when the trapping instruction issued in trap mode. -/
def trapUpds (s : State) (id : Nat) (t : Train) (at_ : TrapAt) (cause : Byte) (lanes : Mask)
    (tval : DWord) (inTm : Bool) : List Upd :=
  let vec : DWord := match s.dispatchOf t with
    | some d => d.launch.trapVector
    | none => 0
  if vec = 0 || t.trap.tm || inTm then
    .train id (some t.cut) ::
      (match s.wheelOf t with
       | some w => failUpds (s.upd (.train id (some t.cut))) w.dispatch cause at_.pc
       | none => [])
  else
    (if t.inTx then [.locks (unlockLanes s.locks id t.tx.opened)] else []) ++
      [.train id (some (t.trapped at_ cause lanes tval vec))] ++ (if cause = 0x13 then doomUpds s t cause at_.pc else [])

/-- Trap the train that issues, at the word it stands at. Lanes and value default to R46. -/
def trapCur (s : State) (cause : Byte) (lanes : Option Mask) (tval : Option DWord) : State :=
  match s.cur with
  | none => s
  | some id =>
    match AMap.get? s.trains id with
    | none => s
    | some t => s.upds (trapUpds s id t t.here cause (lanes.getD t.em) (tval.getD t.word) false)

/-- Trap causes (Table 4-10). -/
def eIllClause : Byte := 0x01
def eIllOp : Byte := 0x02
def eIllOperand : Byte := 0x03
def eMisalign : Byte := 0x04
def ePerm : Byte := 0x06
def eBarMask : Byte := 0x07
def eBarClobber : Byte := 0x08
def eHandle : Byte := 0x09
def eEntFull : Byte := 0x0A
def eTxMisuse : Byte := 0x0B
def eOverlap : Byte := 0x0C
def eFmt : Byte := 0x0D
def eHangC : Byte := 0x0F
def eSwTrap : Byte := 0x10
def eBreak : Byte := 0x11
def eEccC : Byte := 0x12
def eHostGone : Byte := 0x13
def ePlacement : Byte := 0x15
def eTenantC : Byte := 0x16
def eRing : Byte := 0x17
def ePriv : Byte := 0x18
def eVersion : Byte := 0x19
def eLaunchField : Byte := 0x20
def eNoVariant : Byte := 0x21
def eObjFormat : Byte := 0x22
def eLaunchPriv : Byte := 0x23
def eLaunchFit : Byte := 0x24
def eNodeField : Byte := 0x25
def ePredFailed : Byte := 0x26

/-- A synchronous trap with the lanes and value of R46. -/
def raise {α : Type} (cause : Byte) : M s α := stop (.trap cause none none)

/-- A synchronous trap with its own lanes and value. -/
def raiseAt {α : Type} (cause : Byte) (lanes : Mask) (tval : DWord) : M s α :=
  stop (.trap cause (some lanes) (some tval))

/-! ## Outcomes -/

/-- The state in which the instruction of the issuing train waits in place: nothing changes but the note that it waited (R47, R78). -/
def stalled (s : State) : State :=
  match s.cur with
  | none => s
  | some id =>
    match AMap.get? s.trains id with
    | none => s
    | some t => s.upd (.train id (some { t with stall := true }))

/-- What an instruction's stop becomes: a trap of the issuing train, an issue that waits in place and is tried again, or a stop of the machine. -/
def stopped (s : State) : Stop → Host.Outcome State Fault Refusal
  | .trap c l v => .next (trapCur s c l v)
  | .held _ _ _ _ => .next (stalled s)
  | .wait => .next (stalled s)
  | .fault f => .fault f
  | .refused r => .refused r

/-- The outcome of an instruction's meaning. -/
def runM (s : State) (m : M s Unit) : Host.Outcome State Fault Refusal :=
  match m ⟨s, .refl⟩ with
  | .ok r => .next r.2.1
  | .error e => stopped s e

/-- What an event's stop becomes: nothing, or a stop of the machine. An event has no issuing train. -/
def passed (s : State) : Stop → Host.Outcome State Fault Refusal
  | .fault f => .fault f
  | .refused r => .refused r
  | _ => .next s

/-- The outcome of an event's meaning. -/
def runE (s : State) (m : M s Unit) : Host.Outcome State Fault Refusal :=
  match m ⟨s, .refl⟩ with
  | .ok r => .next r.2.1
  | .error e => passed s e

end Sys2Proof.Machine
end

