-- ==== Sys2Proof/Machine/Operands.lean ====
section
/-! DEFINITION. Operands: the constant table, reading sources, which operands each instruction names and how, the checks and waits an instruction makes before its meaning (R46 to R57), and how it retires. -/

namespace Sys2Proof.Machine

variable {s : State}

/-! ## Sources -/

/-- Entries that hold binary32 values (Table 3-9). -/
def isF32Entry (e : BitVec 8) : Bool := 0x50 ≤ e.toNat && e.toNat < 0x60

/-- The constant table (R53, Table 3-9) for a train's index and a lane. -/
def constVal (e : BitVec 8) (train L : Nat) : Word :=
  if e.toNat < 0x40 then BitVec.ofNat 32 e.toNat
  else if e.toNat < 0x50 then 0xFFFFFFFF#32 - BitVec.ofNat 32 (e.toNat - 0x40)
  else match e with
    | 0x50 => 0x3F000000
    | 0x51 => 0x3F800000
    | 0x52 => 0x40000000
    | 0x53 => 0x40800000
    | 0x54 => 0x3E800000
    | 0x55 => 0xBF000000
    | 0x56 => 0xBF800000
    | 0x57 => 0xC0000000
    | 0x58 => 0xC0800000
    | 0x59 => 0x80000000
    | 0x5A => 0x7F800000
    | 0x5B => 0xFF800000
    | 0x5C => 0x40490FDB
    | 0x5D => 0x3E22F983
    | 0x5E => 0x3F317218
    | 0x5F => 0x3FB8AA3B
    | 0xE0 => BitVec.ofNat 32 L
    | 0xE1 => BitVec.ofNat 32 train
    | _ => 0

/-- A constant at more than 32 bits: integers by sign, F32 entries with zero high bits (R53). R56 extends the entry of a constant BASE by sign; the model takes R53 for an F32 entry there too (DEDUCED, log entry 22). -/
def constWide (e : BitVec 8) (train L n : Nat) : BitVec n :=
  if isF32Entry e then (constVal e train L).setWidth n else (constVal e train L).signExtend n

/-- The latch result at distance N+1 (R49). -/
def Clause.latch (c : Clause) (i : BitVec 2) : Option Latch := (c.latches[i.toNat]?).join

/-- A 32-bit source in lane L (R52). -/
def src32 (t : Train) (c : Clause) (x : Src) (L : Nat) : Word :=
  match x with
  | .v i => (t.vreg i.toNat).at L
  | .s i => t.sreg i.toNat
  | .b i => match c.latch i with
    | some l => (l.vals.at L).setWidth 32
    | none => 0
  | .c e => constVal e t.index L

/-- A 64-bit source in lane L (R56). -/
def src64 (t : Train) (c : Clause) (x : Src) (L : Nat) : DWord :=
  match x with
  | .v i => (t.vreg (i.toNat + 1)).at L ++ (t.vreg i.toNat).at L
  | .s i => t.pair i.toNat
  | .b i => match c.latch i with
    | some l => l.vals.at L
    | none => 0
  | .c e => constWide e t.index L 64

/-- A 128-bit source in lane L (R56). -/
def src128 (t : Train) (x : Src) (L : Nat) : BitVec 128 :=
  match x with
  | .v i => (((t.vreg (i.toNat + 3)).at L ++ (t.vreg (i.toNat + 2)).at L) ++
      ((t.vreg (i.toNat + 1)).at L ++ (t.vreg i.toNat).at L))
  | .s i => t.pair (i.toNat + 2) ++ t.pair i.toNat
  | .b _ => 0
  | .c e => constWide e t.index L 128

/-- A source of `n` registers, n being 1 or 2, zero-extended to 64 bits. -/
def srcN (t : Train) (c : Clause) (n : Nat) (x : Src) (L : Nat) : DWord :=
  if n = 2 then src64 t c x L else (src32 t c x L).setWidth 64

/-- A source of `n` registers, n being 1, 2 or 4, zero-extended to 128 bits. -/
def srcQ (t : Train) (c : Clause) (n : Nat) (x : Src) (L : Nat) : BitVec 128 :=
  if n = 4 then src128 t x L else (srcN t c n x L).setWidth 128

/-! ## What an instruction names -/

/-- The operands of an instruction: destinations and sources with their register counts, predicates read and written, scalar registers a class C instruction writes, sources that must be uniform when they are latches, and the fields LUA and LUB cover (Table 3-3). -/
structure Use where
  g : Guard := Guard.always
  sb : Sb := none
  dst : List (Dst × Nat) := []
  srcs : List (Src × Nat) := []
  unif : List (Src × Nat) := []
  lua : Option (Src × Nat) := none
  lub : Option (Src × Nat) := none
  /-- the destination is read too -/
  rmw : Bool := false
  /-- registers at the end of the destination group that are read and not written: the expected value of a compare and swap (R132) -/
  kept : Nat := 0
  preds : List (BitVec 3) := []
  pdst : List (BitVec 3) := []
  swr : List Nat := []
  deriving DecidableEq, Repr

/-- A class V instruction: sources SA, SB, SC in order; a scalar destination needs uniform sources (R57). -/
def Use.v (g : Guard) (d : Dst) (n : Nat) (srcs : List (Src × Nat)) : Use :=
  { g := g, dst := [(d, n)], srcs := srcs, unif := if d.scalar then srcs else [],
    lua := srcs[0]?, lub := srcs[1]? }

/-- A K form: SA is covered by LUA, nothing by LUB (Table 3-3). -/
def Use.k (g : BitVec 2) (d : Dst) (srcs : List (Src × Nat)) : Use :=
  { g := match g with
      | 0 => 7
      | 1 => 0
      | 2 => 1
      | _ => 8
    dst := [(d, 1)], srcs := srcs, unif := if d.scalar then srcs else [], lua := srcs[0]? }

def pdstOf (d : PDst) : List (BitVec 3) := if d.nowb then [] else [d.p]

/-- Base and index of a memory operand, as sources. -/
def memSrcs (m : Mem) : List (Src × Nat) := [(m.base, 2), (m.index, 1)]

/-- A load: LUA covers BASE and LUB covers INDEX. -/
def Use.load (g : Guard) (sb : Sb) (n : Nat) (m : Mem) (d : Dst) : Use :=
  { g := g, sb := sb, dst := [(d, n)], srcs := memSrcs m, lua := some (m.base, 2), lub := some (m.index, 1) }

/-- A store: LUB covers DATA. -/
def Use.store (g : Guard) (sb : Sb) (n : Nat) (m : Mem) (x : Src) : Use :=
  { g := g, sb := sb, srcs := (x, n) :: memSrcs m, lua := some (m.base, 2), lub := some (x, n) }

/-- An atomic: LUB covers INDEX, which holds the operand; `red` has it in DATA. -/
def Use.atomic (g : Guard) (sb : Sb) (n : Nat) (m : MemB) (x : Src) (dst : List (Dst × Nat)) : Use :=
  { g := g, sb := sb, dst := dst, srcs := [(m.base, 2), (x, n)], lua := some (m.base, 2), lub := some (x, n) }

/-- An instruction of a carrier class: sources SA, SB, SC in order. -/
def Use.e (g : Guard) (sb : Sb) (dst : List (Dst × Nat)) (srcs : List (Src × Nat)) : Use :=
  { g := g, sb := sb, dst := dst, srcs := srcs, lua := srcs[0]?, lub := srcs[1]? }

def Use.once (sb : Sb) (dst : List (Dst × Nat)) (srcs : List (Src × Nat)) : Use :=
  Use.e Guard.always sb dst srcs

def baseSrc (b : TBase) : Src × Nat := (b.b, if b.glob then 2 else 1)

def partSrcs : Part → List (Src × Nat)
  | .data st | .sc st => [(st, 1)]
  | .ts => []

def copyUse (sb : Sb) (tb : Option Src) (ls ld r : Src) : Use :=
  let u := Use.once sb [] [(ls, 2), (ld, 2), (r, 2)]
  match tb with
  | none => u
  | some b => { u with srcs := (b, 1) :: u.srcs }

def payRegs (ind : Bool) : Nat := if ind then 2 else 4

/-- The 64-bit system registers (Table 22-4). -/
def zregWide (n : Nat) : Bool :=
  [0x02, 0x03, 0x04, 0x07, 0x08, 0x09, 0x0C, 0x0F, 0x12, 0x13, 0x14, 0x15].contains n

/-- Registers of a system register's value, as far as the word shows its number. -/
def zregs : Src → Nat
  | .c e => if zregWide (constVal e 0 0).toNat then 2 else 1
  | _ => 1

/-- The operands of each instruction. -/
def instrUse : Instr → Use
  | .mov g ty d a => .v g d ty.regs [(a, ty.regs)]
  | .movk g d a b => .v g d 2 [(a, 1), (b, 1)]
  | .movs g d w => .v g d (match w with | .clock | .param => 2 | _ => 1) []
  | .sel g ty d a b p => { Use.v g d ty.regs [(a, ty.regs), (b, ty.regs)] with preds := [p] }
  | .iadd g _ ty d a b | .isub g _ ty d a b | .imul g _ ty d a b | .imulh g ty d a b
  | .imin g ty d a b | .imax g ty d a b | .and g ty d a b | .or g ty d a b | .xor g ty d a b
  | .andn g ty d a b => .v g d ty.regs [(a, ty.regs), (b, ty.regs)]
  | .imad g _ ty d a b c => .v g d ty.regs [(a, ty.regs), (b, ty.regs), (c, ty.regs)]
  | .iabs g _ ty d a => .v g d ty.regs [(a, ty.regs)]
  | .iaddx g _ d a b => .v g d 2 [(a, 2), (b, 1)]
  | .imadx g _ d a b c => .v g d 2 [(a, 1), (b, 1), (c, 2)]
  | .lop3 g d a b t =>
    let u := Use.v g d 1 [(a, 1), (b, 1), (t, 1)]
    { u with unif := (t, 1) :: u.unif, rmw := true }
  | .shl g ty d a b | .shr g ty d a b | .sra g ty d a b | .rot g ty d a b =>
    .v g d ty.regs [(a, ty.regs), (b, 1)]
  | .bfx g ty d a f => .v g d ty.regs [(a, ty.regs), (f, 1)]
  | .bfi g ty d a b f => .v g d ty.regs [(a, ty.regs), (b, ty.regs), (f, 1)]
  | .popc g ty d a | .clz g ty d a => .v g d 1 [(a, ty.regs)]
  | .brev g ty d a => .v g d ty.regs [(a, ty.regs)]
  | .icmp g _ ty d a b =>
    { g := g, srcs := [(a, ty.regs), (b, ty.regs)], lua := some (a, ty.regs), lub := some (b, ty.regs),
      pdst := pdstOf d }
  | .fcmp g _ d a b =>
    { g := g, srcs := [(a, 1), (b, 1)], lua := some (a, 1), lub := some (b, 1), pdst := pdstOf d }
  | .plop g _ d pa pb => { g := g, preds := [pa, pb], pdst := pdstOf d }
  | .pmov g o =>
    match o with
    | .toPred d m => { g := g, srcs := [(m, 1)], unif := [(m, 1)], lua := some (m, 1), pdst := pdstOf d }
    | .toScalar d p => { g := g, dst := [(d, 1)], preds := [p] }
  | .fadd g _ _ d a b | .fsub g _ _ d a b | .fmul g _ _ d a b | .fmin g d a b | .fmax g d a b
  | .hadd2 g _ _ _ d a b | .hmul2 g _ _ _ d a b => .v g d 1 [(a, 1), (b, 1)]
  | .ffma g _ _ d a b c | .hfma2 g _ _ _ d a b c => .v g d 1 [(a, 1), (b, 1), (c, 1)]
  | .frnd g _ d a | .frcp g d a | .frsq g d a | .fsqrt g d a | .fexp2 g d a | .flog2 g d a
  | .fsin g d a | .fcos g d a => .v g d 1 [(a, 1)]
  | .cvti g _ ty d a => .v g d ty.regs [(a, 1)]
  | .cvtf g _ ty d a => .v g d 1 [(a, ty.regs)]
  | .cvth g d o =>
    match o with
    | .pk _ _ _ a b => .v g d 1 [(a, 1), (b, 1)]
    | .up _ _ a => .v g d 1 [(a, 1)]
  | .cvtn g _ d o =>
    match o with
    | .pk a b c => .v g d 1 [(a, 1), (b, 1), (c, 1)]
    | .up a c => { Use.v g d 1 [(a, 1), (c, 1)] with lub := none }
  | .shfl g w _ d a n => .v g d (if w then 2 else 1) [(a, if w then 2 else 1), (n, 1)]
  | .shfx g w _ _ d a n c =>
    .v g d (if w then 2 else 1) [(a, if w then 2 else 1), (n, 1), (c, if w then 2 else 1)]
  | .vote g o pa =>
    match o with
    | .some d | .every d | .agree d => { g := g, preds := [pa], pdst := pdstOf d }
    | .mask d => { g := g, preds := [pa], dst := [(d, 1)] }
  | .rdlane g w d a i =>
    { Use.v g d (if w then 2 else 1) [(a, if w then 2 else 1), (i, 1)] with unif := [(i, 1)] }
  | .wrlane g w d x i =>
    { Use.v g d (if w then 2 else 1) [(x, if w then 2 else 1), (i, 1)] with
      unif := [(x, if w then 2 else 1), (i, 1)], rmw := true }
  | .iscan g ty _ _ d a => .v g d ty.regs [(a, ty.regs)]
  | .ired g ty _ d a => { Use.v g d ty.regs [(a, ty.regs)] with unif := [] }
  | .emrd d => { dst := [(d, 1)] }
  | .emwr m | .emand m | .emor m => { srcs := [(m, 1)], unif := [(m, 1)], lua := some (m, 1) }
  | .ld g s w _ _ m d | .lds g s w m d | .ldl g s w m d | .ldw g s w m d => .load g s w.regs m d
  | .ldp p s w _ m d =>
    { Use.load (0#1 ++ p) s w.regs m d with pdst := [p], preds := [p] }
  | .st g s w _ _ m x | .sts g s w m x | .stl g s w m x => .store g s w.regs m x
  | .atom g s _ w _ m x d | .atoml g s _ w m x d => .atomic g s w.regs m x [(d, w.regs)]
  | .red g s _ w _ m x => .atomic g s w.regs m x []
  | .cas g s w _ m x d | .casl g s w m x d =>
    { Use.atomic g s w.regs m x [(d, 2 * w.regs)] with rmw := true, kept := w.regs }
  | .fence g s | .drain g s | .mwait g s => { g := g, sb := s }
  | .barw g s m | .bara g s m =>
    { g := g, sb := s, srcs := [(m.base, 2)], lua := some (m.base, 2) }
  | .barm g s m k | .barinit g s m k =>
    { g := g, sb := s, srcs := [(m.base, 2), (k, 1)], lua := some (m.base, 2), lub := some (k, 1) }
  | .mon g s w _ m d =>
    { g := g, sb := s, dst := [(d, w.regs)], srcs := [(m.base, 2)], lua := some (m.base, 2) }
  | .prf g s _ _ m | .own g s _ m | .unown g s _ m | .cwb g s _ m | .cinv g s _ m =>
    { g := g, sb := s, srcs := memSrcs m, lua := some (m.base, 2), lub := some (m.index, 1) }
  | .bra g _ | .exit g | .yield g | .trap g _ | .brk g _ | .nop g => { g := g }
  | .brz g a _ | .brnz g a _ => { g := g, srcs := [(a, 1)], unif := [(a, 1)], lua := some (a, 1) }
  | .brany g p _ | .brall g p _ => { g := g, preds := [p] }
  | .call g n _ => { g := g, lua := some (.s n, 2), swr := [n.toNat, n.toNat + 1] }
  | .ret g n | .jmpi g n => { g := g, srcs := [(.s n, 2)], lua := some (.s n, 2) }
  | .loop g n _ => { g := g, srcs := [(.s n, 1)], lua := some (.s n, 1), swr := [n.toNat] }
  | .yieldc g n _ => { g := g, srcs := [(.s n, 1)], lua := some (.s n, 1) }
  | .tcfg s _ c => .once s [] [(c, 1)]
  | .tld s _ b p | .tst s _ b p => .once s [] (baseSrc b :: partSrcs p)
  | .tzero s _ | .tmma s _ _ _ | .tmmb s _ _ _ | .twait s _ | .tcvt s _ _ | .ttr s _ _ => .once s [] []
  | .tloop s _ _ _ r => { sb := s, srcs := [(r, 1)] }
  | .tvxm g s _ pd _ _ p =>
    { g := g, sb := s, srcs := [(p, 2)], lub := some (p, 2), pdst := if pd = 7 then [] else [pd] }
  | .tdrain s b _ _ _ st => { sb := s, srcs := [baseSrc b, (st, 1)], lub := some (baseSrc b) }
  | .tfill s _ x => .once s [] [(x, 1)]
  | .wsync s m c => .once s [] [(m, 2), (c, 1)]
  | .wsinfo s d k => .once s [(d, 1)] [(k, 1)]
  | .cpy s tb ls ld r | .cpym s tb ls ld r | .cpt s tb ls ld r | .cpg s tb ls ld r =>
    copyUse s tb ls ld r
  | .tbinit s _ b n | .tbexp s b n => .once s [] [(b, 1), (n, 1)]
  | .tbarr s d b n => .once s [(d, 1)] [(b, 1), (n, 1)]
  | .tbwait s b ph => .once s [] [(b, 1), (ph, 1)]
  | .rbind s k rec => .once s [] [(k, 1), (rec, 2)]
  | .racq s d k => .once s [(d, 2)] [(k, 1)]
  | .rrel s k a => .once s [] [(k, 1), (a, 1)]
  | .srd s o d =>
    .once s [(d, 1)] (match o with | .phase b | .arrive b | .sectors b => [(b, 1)] | .jobs => [])
  | .eqry s _ d q v => .once s [(d, 1)] [(q, 2), (v, 1)]
  | .enext s _ d => .once s [(d, 2)] []
  | .erow g s _ pd d h => { Use.e g s [(d, 2)] [(h, 2)] with pdst := [pd] }
  | .ecol g s pd d r t w => { Use.e g s [(d, 2)] [(r, 2), (t, 1), (w, 1)] with pdst := [pd] }
  | .ehchk g s pd h => { Use.e g s [] [(h, 2)] with pdst := [pd] }
  | .eget g s wd _ pd d h t o =>
    { Use.e g s [(d, wd.regs)] [(h, 2), (t, 1), (o, 1)] with pdst := [pd] }
  | .eput g s wd _ pd x h t o =>
    let u := Use.e g s [] [(h, 2), (t, 1), (o, 1)]
    { u with srcs := (x, wd.regs) :: u.srcs, pdst := [pd] }
  | .ecrt g s _ pd d ty =>
    { Use.e g s [(d, 2)] (match ty with | none => [] | some (ind, t, y) => [(t, 1), (y, payRegs ind)])
      with pdst := [pd] }
  | .edel g s _ pd h => { Use.e g s [] [(h, 2)] with pdst := [pd] }
  | .eadd g s ind _ pd h t y | .eset g s ind _ pd h t y =>
    { Use.e g s [] [(h, 2), (t, 1), (y, payRegs ind)] with pdst := [pd] }
  | .erem g s _ pd h t => { Use.e g s [] [(h, 2), (t, 1)] with pdst := [pd] }
  | .ecmt g s d => .e g s [(d, 1)] []
  | .esync s d w => .once s [(d, 1)] [(w, 1)]
  | .epin s _ d w v => .once s [(d, 1)] [(w, 1), (v, 1)]
  | .eunpin s w v => .once s [] [(w, 1), (v, 1)]
  | .ever s _ d w => .once s [(d, 1)] [(w, 1)]
  | .txbeg s _ => .once s [] []
  | .txend s d => { Use.once s [] [] with pdst := pdstOf d }
  | .txabt g s => .e g s [] []
  | .txst s _ d => .once s [(d, 1)] []
  | .txcause g s d => .e g s [(d, 1)] []
  | .rycl g s _ r m | .ryocc g s _ r m => .e g s [] [(r, 8), (m, 1)]
  | .ryany g _ r m => .e g none [] [(r, 8), (m, 1)]
  | .ryacc g s pa => { Use.e g s [] [] with preds := [pa] }
  | .ryres g s _ d => .e g s [(d, 1)] []
  | .rywait s d => { Use.once s [] [] with pdst := pdstOf d }
  | .ryinv s _ => .once s [] []
  | .rygeo s _ rec => .once s [] [(rec, 2)]
  | .rypst s d c => .once s [(d, 1)] [(c, 1)]
  | .zrd s d n => .once s [(d, zregs n)] [(n, 1)]
  | .zwr s n x => .once s [] [(n, 1), (x, zregs n)]
  | .tlbi s r => .once s [] (match r with | none => [] | some (va, n) => [(va, 2), (n, 1)])
  | .tlbsync s => .once s [] []
  | .trapret _ => .once none [] []
  | .ctxsv s d c a | .ctxld s d c a => .once s [(d, 1)] [(c, 1), (a, 2)]
  | .wsld s w a n => .once s [] [(w, 1), (a, 2), (n, 1)]
  | .gsub s d k a => .once s [(d, 1)] [(k, 1), (a, 2)]
  | .gkick s d k v => .once s [(d, 1)] [(k, 1), (v, 1)]
  | .gsig s _ t v | .gwait s t v => .once s [] [(t, 2), (v, 2)]
  | .gdep s d a b => .once s [(d, 1)] [(a, 2), (b, 2)]
  | .movK g d _ => .k g d []
  | .iaddK g d a _ | .isubK g d a _ | .imulK g d a _ | .andK g d a _ | .orK g d a _ | .xorK g d a _
  | .shlK g d a _ | .shrK g d a _ | .sraK g d a _ | .faddK g d a _ | .fmulK g d a _ =>
    .k g d [(a, 1)]
  | _ => {}

/-! ## Checks before the meaning -/

/-- The registers of an operand. -/
def srcRegs (x : Src × Nat) : List Reg :=
  match x.1 with
  | .v i => (List.range x.2).map fun k => .v (i.toNat + k)
  | .s i => (List.range x.2).map fun k => .s (i.toNat + k)
  | _ => []

def dstRegs (d : Dst × Nat) : List Reg :=
  if d.1.nowb then []
  else (List.range d.2).map fun k => if d.1.scalar then .s (d.1.idx.toNat + k) else .v (d.1.idx.toNat + k)

/-- Registers of a destination that is read as well, whatever NOWB says. -/
def dstRegsAll (d : Dst × Nat) : List Reg :=
  (List.range d.2).map fun k => if d.1.scalar then .s (d.1.idx.toNat + k) else .v (d.1.idx.toNat + k)

/-- The registers an instruction reads or writes. -/
def Use.regs (u : Use) : List Reg :=
  u.srcs.flatMap srcRegs ++ u.dst.flatMap dstRegs ++ (if u.rmw then u.dst.flatMap dstRegsAll else [])
    ++ u.preds.map (fun p => .p p.toNat) ++ u.pdst.map (fun p => .p p.toNat)
    ++ (if u.g.extractLsb' 0 3 = 7 then [] else [.p (u.g.extractLsb' 0 3).toNat])
    ++ u.swr.map .s

/-- A vector operand stays below the role budget (R52). -/
def budgetOk (budget : Nat) (x : Src × Nat) : Bool :=
  match x.1 with
  | .v i => i.toNat + x.2 ≤ budget
  | _ => true

def budgetOkD (budget : Nat) (d : Dst × Nat) : Bool :=
  d.1.scalar || d.1.idx.toNat + d.2 ≤ budget

/-- A latch names a result of the same width (R49, R88). -/
def latchOk (c : Clause) (x : Src × Nat) : Bool :=
  match x.1 with
  | .b i => match c.latch i with
    | some l => l.wide == (x.2 == 2)
    | none => false
  | _ => true

/-- A latch that stands where a uniform source is needed holds a uniform result (R57). -/
def latchUnif (c : Clause) (x : Src × Nat) : Bool :=
  match x.1 with
  | .b i => match c.latch i with
    | some l => l.unif
    | none => false
  | _ => true

/-- A last-use bit covers a register (R48). -/
def lastUseOk (set : Bool) (x : Option (Src × Nat)) : Bool :=
  !set || (match x with
    | some (.v _, _) | some (.s _, _) => true
    | _ => false)

/-- LUA and LUB of the instruction a clause stands at. -/
def Clause.lua (c : Clause) : Bool := c.word.getLsbD (30 + c.idx)
def Clause.lub (c : Clause) : Bool := c.word.getLsbD (14 + c.idx)

/-- The operand checks that depend on the train: role budget, latches, last-use bits (R48, R49, R52, R57). -/
def operandsOk (budget : Nat) (c : Clause) (u : Use) : Bool :=
  u.srcs.all (budgetOk budget) && u.dst.all (budgetOkD budget) && u.srcs.all (latchOk c)
    && u.unif.all (latchUnif c) && lastUseOk c.lua u.lua && lastUseOk c.lub u.lub

/-- Some register is the destination of an incomplete long-latency instruction other than `op` (R47). -/
def Train.interlocked (t : Train) (u : Use) (op : Nat) : Bool :=
  let rs := u.regs
  t.inflight.any fun f => f.id != op && f.dests.any (rs.contains ·)

/-- Scoreboard count. -/
def Train.sbCount (t : Train) (i : BitVec 3) : Nat := t.sb[i.toNat]'i.isLt

/-- The scoreboard an instruction names is full (R47). -/
def Train.sbFull (t : Train) (x : Sb) : Bool :=
  match x with
  | some i => 63 ≤ t.sbCount i
  | none => false

/-- The lanes where a guard holds (R55). -/
def Train.guardMask (t : Train) (g : Guard) : Mask :=
  let p := t.pred (g.extractLsb' 0 3).toNat
  if g.getLsbD 3 then ~~~p else p

/-- An instruction about to have its effect: its train, clause, operands and active lanes. After a park: `op` is its identity when some of its lanes have issued before, else 0; `rest` the lanes that still wait for FB_REPLAY; `did` those that have completed; `conf` that it has counted in ZS_CPOLCONF. -/
structure Iss where
  id : Nat
  t : Train
  c : Clause
  u : Use
  act : Mask
  op : Nat
  rest : Mask := 0
  did : Mask := 0
  conf : Bool := false
  deriving DecidableEq, Repr

/-- The train that issues, with its open clause. -/
def issuing (s : State) : Option (Nat × Train × Clause) :=
  match s.cur with
  | none => none
  | some id =>
    match AMap.get? s.trains id with
    | none => none
    | some t =>
      match t.clause with
      | none => none
      | some c => some (id, t, c)

/-- The checks and waits of an instruction before the traps of its own definition (R46, R47): an ill-formed instruction and a bad operand trap, an interlock or a full scoreboard waits in place. An instruction reissued after a park acts for its parked lanes, at resume for its resume lanes alone, and its guard is not evaluated again (R78, R160). -/
def begin_ (s : State) (i : Instr) : Except Stop Iss :=
  match issuing s with
  | none => .error (.fault .noIssuingTrain)
  | some (id, t, c) =>
    let u := instrUse i
    if !(instrWf i && operandsOk (s.budgetOf t) c u) then .error (.trap eIllOperand none none)
    else match t.park with
      | some p =>
        if (p.faulted && p.resume = 0) || t.interlocked u p.op then .error .wait
        else
          let act := if p.faulted then p.resume else p.lanes
          .ok { id := id, t := t, c := c, u := u, act := act, op := p.op, rest := p.lanes &&& ~~~act, did := p.did,
                conf := p.conf }
      | none =>
        if t.interlocked u 0 || t.sbFull u.sb then .error .wait
        else .ok { id := id, t := t, c := c, u := u, act := t.em &&& t.guardMask u.g, op := 0 }

/-! ## Retiring -/

/-- Free the registers a covered field names (R48). -/
def Train.freeOpd (t : Train) (x : Option (Src × Nat)) : Train :=
  match x with
  | some (.v i, n) => t.freeV i.toNat n
  | some (.s i, n) => t.freeS i.toNat n
  | _ => t

/-- Apply the last-use bits of the instruction (R48). -/
def Train.frees (t : Train) (c : Clause) (u : Use) : Train :=
  let t := if c.lua then t.freeOpd u.lua else t
  if c.lub then t.freeOpd u.lub else t

/-- End the clause; the next header is at `pc` (R44). What its `zwr` wrote to the trap registers takes effect (R368). -/
def Train.endClause (t : Train) (c : Clause) (pc : DWord) (yields : Bool) : Train :=
  { t with
    clause := none, pc := pc, retired := t.retired + 1, readyAge := 0, stall := false
    yielded := yields || c.word.getLsbD 47
    trap := match c.zw with
      | some x => { x with tm := t.trap.tm }
      | none => t.trap }

/-- Go on to the next word of the clause, or end it after its last word. -/
def Train.advance (t : Train) (c : Clause) (l : Option Latch) : Train :=
  if c.idx + 1 < c.words.length then
    { t with clause := some { c with idx := c.idx + 1, latches := (if c.resumed then none else l) :: c.latches }
             pc := c.wordAddr (c.idx + 1), readyAge := 0, stall := false }
  else t.endClause c c.nextHdr false

/-- A latch result of `n` registers: zero in inactive lanes (R49). -/
def latchOf (unif : Bool) (n : Nat) (m : Mask) (f : Nat → DWord) : Latch :=
  { unif := unif, wide := n == 2, vals := perLane fun L => if m.getLsbD L then f L else 0 }

/-- The lane a uniform instruction runs in: the lowest active one. -/
def Iss.L0 (r : Iss) : Nat := lowest r.act % 32

/-- The train after a class V instruction with a register destination: sources freed, `n` registers of the destination written in the active lanes (or once, when the destination is scalar and some lane is active), the latch result kept, the next word reached (R48, R49, R54, R57, R87). -/
def Iss.done (r : Iss) (d : Dst) (n : Nat) (f : Nat → DWord) : Train :=
  let t := r.t.frees r.c r.u
  if d.scalar then
    let go := r.act != 0
    let x := f r.L0
    let t := if go then t.setDst d r.act 0 (fun _ k => dwPart x k) n else t
    t.advance r.c (some (latchOf true n (if go then 0xFFFFFFFF else 0) fun _ => x))
  else
    (t.setDst d r.act 0 (fun L k => dwPart (f L) k) n).advance r.c (some (latchOf false n r.act f))

/-- The train after an instruction that reduces lanes to a scalar: it acts under PRED = always whatever em holds, otherwise when some lane is active (R108). -/
def Iss.reduced (r : Iss) (d : Dst) (n : Nat) (x : DWord) : Train :=
  let t := r.t.frees r.c r.u
  let go := r.u.g == Guard.always || r.act != 0
  let t := if go then t.setDst d r.act 0 (fun _ k => dwPart x k) n else t
  t.advance r.c (some (latchOf true n (if go then 0xFFFFFFFF else 0) fun _ => x))

/-- The train after an instruction that writes a predicate in the active lanes. -/
def Iss.donePred (r : Iss) (d : PDst) (x : Mask) : Train :=
  let t := r.t.frees r.c r.u
  (if d.nowb then t else t.setP d.p.toNat r.act x).advance r.c none

/-- The train after an instruction with no register result that changed it by `f`. -/
def Iss.doneWith (r : Iss) (f : Train → Train) : Train :=
  (f (r.t.frees r.c r.u)).advance r.c none

/-- The meaning of an instruction that changes its own train and nothing else: the train it leaves, or why it stops. -/
def local_ (s : State) (i : Instr) (f : Iss → Except Stop Train) : Host.Outcome State Fault Refusal :=
  match begin_ s i with
  | .error e => stopped s e
  | .ok r =>
    match f r with
    | .error e => stopped s e
    | .ok t => .next (s.upd (.train r.id (some t)))

/-- A class V instruction with a register destination of `n` registers, by lane. -/
def alu (s : State) (i : Instr) (d : Dst) (n : Nat) (f : Iss → Nat → DWord) :
    Host.Outcome State Fault Refusal :=
  local_ s i fun r => .ok (r.done d n (f r))

/-- A class V instruction that writes a predicate, by lane. -/
def aluPred (s : State) (i : Instr) (d : PDst) (f : Iss → Nat → Bool) :
    Host.Outcome State Fault Refusal :=
  local_ s i fun r => .ok (r.donePred d (maskOf (f r)))

/-- The execution that `trapret` resumes the clause at (R73, R77). -/
def Iss.resumes (r : Iss) : Bool := r.c.resumed && r.c.latches.isEmpty && !r.t.trap.tm

/-- A source of the issuing train. -/
def Iss.x (r : Iss) (a : Src) (L : Nat) : Word := src32 r.t r.c a L
def Iss.d (r : Iss) (a : Src) (L : Nat) : DWord := src64 r.t r.c a L
def Iss.n (r : Iss) (n : Nat) (a : Src) (L : Nat) : DWord := srcN r.t r.c n a L
/-- A source of an instruction that acts once: lane 0 stands for the train. -/
def Iss.x0 (r : Iss) (a : Src) : Word := src32 r.t r.c a 0
def Iss.d0 (r : Iss) (a : Src) : DWord := src64 r.t r.c a 0

/-- Raise the scoreboard an instruction names and interlock its destinations under identity `op` (R47). -/
def Iss.started (r : Iss) (op : Nat) (dests : List Reg) (tiles : List Nat) (t : Train) : Train :=
  { t with
    sb := match r.u.sb with
      | some i => t.sb.set i.toNat (t.sbCount i + 1) i.isLt
      | none => t.sb
    inflight := t.inflight ++ [(⟨op, r.c.wordAddr r.c.idx, r.u.sb, dests, tiles, r.t.trap.tm⟩ : Inflight)] }

/-- Registers freed by the instruction's last-use bits that it has written in lanes completed before keep those results; freeing clears the other lanes (R48, R168). -/
def Iss.freesDone (r : Iss) (t : Train) : Train :=
  let f := t.frees r.c r.u
  if r.did = 0 then f
  else (r.u.dst.flatMap fun d => dstRegs (d.1, d.2 - r.u.kept)).foldl (fun f x => match x with
    | .v i => if AMap.has t.v i && !AMap.has f.v i then f.setV i r.did fun L => (t.vreg i).at L else f
    | _ => f) f

/-- Sources freed and the next word reached; a park, a wait and the outcomes of walks end with the instruction (R48, R168). -/
def Iss.retired (r : Iss) (t : Train) : Train :=
  ({ r.freesDone t with park := none, wait := none, xl := [] }).advance r.c none

/-- A long-latency instruction has issued: scoreboard raised, destinations interlocked, sources freed, the next word reached (R47, R48). -/
def Iss.issued (r : Iss) (op : Nat) (dests : List Reg) (tiles : List Nat) (f : Train → Train) : Train :=
  r.retired (r.started op dests tiles (f r.t))

/-- Complete a long-latency instruction of a train: lower its scoreboard and end its interlocks (R47). -/
def Train.complete (t : Train) (op : Nat) : Train :=
  match t.inflight.find? fun f => f.id == op with
  | none => t
  | some f =>
    { t with
      inflight := t.inflight.filter fun f => f.id != op
      gate := if t.gate = some op then none else t.gate
      sb := match f.sb with
        | some i => t.sb.set i.toNat (t.sbCount i - 1) i.isLt
        | none => t.sb }

end Sys2Proof.Machine
end

