-- ==== Sys2Proof/Machine/Float.lean ====
section
/-! DEFINITION. Binary floating point by exact arithmetic: unpacking, one rounding, sums, products, fused products, comparisons, conversions and the special functions (R99 to R106). -/

namespace Sys2Proof.Machine

/-- A binary format: `p` bits of precision, `eb` exponent bits, 2^`emin` the spacing of its subnormals. -/
structure Fmt where
  p : Nat
  eb : Nat
  emin : Int
  deriving DecidableEq, Repr

def f32 : Fmt := ⟨24, 8, -149⟩
def f16 : Fmt := ⟨11, 5, -24⟩
def bf16 : Fmt := ⟨8, 8, -133⟩

/-- The pattern of +∞ without its sign. -/
def Fmt.inf (f : Fmt) : Nat := (2 ^ f.eb - 1) * 2 ^ (f.p - 1)
def Fmt.sign (f : Fmt) : Nat := 2 ^ (f.p - 1 + f.eb)
/-- The canonical quiet NaN (R101, R104). -/
def Fmt.nan (f : Fmt) : Nat := f.inf + 2 ^ (f.p - 2)
/-- The largest finite magnitude. -/
def Fmt.big (f : Fmt) : Nat := f.inf - 1

/-- An exact value: a NaN, an infinity, or (−1)^neg × m × 2^e. -/
inductive FV where
  | nan
  | inf (neg : Bool)
  | num (neg : Bool) (m : Nat) (e : Int)
  deriving DecidableEq, Repr

def Fmt.unpack (f : Fmt) (x : Nat) : FV :=
  let neg := x / f.sign % 2 == 1
  let y := x % f.sign
  let ex := y / 2 ^ (f.p - 1)
  let m := y % 2 ^ (f.p - 1)
  if y = f.inf then .inf neg
  else if f.inf < y then .nan
  else if ex = 0 then .num neg m f.emin
  else .num neg (m + 2 ^ (f.p - 1)) (f.emin + (ex - 1 : Nat))

/-- Whether a quotient with remainder is rounded away from zero: `q` the kept part, `r` of `2^k` the rest. -/
def roundUp (rnd : Rnd) (neg : Bool) (q r full : Nat) : Bool :=
  match rnd with
  | .rne => full < 2 * r || (2 * r == full && q % 2 == 1)
  | .rtz => false
  | .rdn => neg && r != 0
  | .rup => !neg && r != 0

/-- m × 2^−k rounded to an integer magnitude. -/
def roundShift (rnd : Rnd) (neg : Bool) (m k : Nat) : Nat :=
  let q := m / 2 ^ k
  if roundUp rnd neg q (m % 2 ^ k) (2 ^ k) then q + 1 else q

def withSign (f : Fmt) (neg : Bool) (y : Nat) : Nat := if neg then f.sign + y else y

/-- What an overflow gives: ∞ or the largest finite value, by the direction (R102); always the largest under SATF (R104, R106). -/
def overflow (f : Fmt) (rnd : Rnd) (satf neg : Bool) : Nat :=
  let toInf := match rnd with
    | .rne => true
    | .rtz => false
    | .rdn => neg
    | .rup => !neg
  withSign f neg (if toInf && !satf then f.inf else f.big)

/-- Round (−1)^neg × m × 2^e once. -/
def Fmt.round (f : Fmt) (rnd : Rnd) (satf neg : Bool) (m : Nat) (e : Int) : Nat :=
  if m = 0 then withSign f neg 0
  else
    let eu := max (e + (m.log2 : Int) + 1 - (f.p : Int)) f.emin
    let q := if eu ≤ e then m * 2 ^ (e - eu).toNat else roundShift rnd neg m (eu - e).toNat
    let y := (eu - f.emin).toNat * 2 ^ (f.p - 1) + q
    if f.inf ≤ y then overflow f rnd satf neg else withSign f neg y

/-- Round an exact value; under SATF an infinity becomes the largest finite value of its sign (R104). -/
def Fmt.pack (f : Fmt) (rnd : Rnd) (satf : Bool) : FV → Nat
  | .nan => f.nan
  | .inf neg => withSign f neg (if satf then f.big else f.inf)
  | .num neg m e => f.round rnd satf neg m e

def FV.neg : FV → FV
  | .nan => .nan
  | .inf b => .inf !b
  | .num b m e => .num (!b) m e

def FV.mul : FV → FV → FV
  | .nan, _ => .nan
  | _, .nan => .nan
  | .inf a, .inf b => .inf (a != b)
  | .inf a, .num b m _ => if m = 0 then .nan else .inf (a != b)
  | .num a m _, .inf b => if m = 0 then .nan else .inf (a != b)
  | .num a m e, .num b n g => .num (a != b) (m * n) (e + g)

/-- The signed integer (−1)^neg × m × 2^(e − base), for base ≤ e. -/
def scaled (neg : Bool) (m : Nat) (e base : Int) : Int :=
  let v : Int := (m * 2 ^ (e - base).toNat : Nat)
  if neg then -v else v

/-- Exact sum, with the sign of a zero sum by R101. -/
def FV.add (rnd : Rnd) : FV → FV → FV
  | .nan, _ => .nan
  | _, .nan => .nan
  | .inf a, .inf b => if a == b then .inf a else .nan
  | .inf a, .num _ _ _ => .inf a
  | .num _ _ _, .inf b => .inf b
  | .num a m e, .num b n g =>
    let base := min e g
    let x := scaled a m e base + scaled b n g base
    if x = 0 then
      let neg := if m = 0 && n = 0 && a == b then a else rnd == .rdn
      .num neg 0 base
    else .num (x < 0) x.natAbs base

/-- Order of two values that are no NaN. -/
def FV.cmp : FV → FV → Option Ordering
  | .nan, _ => none
  | _, .nan => none
  | .inf a, .inf b => some (if a == b then .eq else if a then .lt else .gt)
  | .inf a, .num _ _ _ => some (if a then .lt else .gt)
  | .num _ _ _, .inf b => some (if b then .gt else .lt)
  | .num a m e, .num b n g =>
    let base := min e g
    some (compare (scaled a m e base) (scaled b n g base))

/-! ## FP32 (R101, R102) -/

def v32 (x : Word) : FV := f32.unpack x.toNat

def r32 (rnd : Rnd) (v : FV) : Word := BitVec.ofNat 32 (f32.pack rnd false v)

/-- SAT (R101). -/
def sat32 (x : Word) : Word :=
  match v32 x with
  | .nan => 0
  | v =>
    match v.cmp (v32 0x3F800000) with
    | some .gt => 0x3F800000
    | _ => if x.getLsbD 31 then 0 else x

def finish32 (sat : Bool) (x : Word) : Word := if sat then sat32 x else x

def fadd32 (sat : Bool) (rnd : Rnd) (a b : Word) : Word := finish32 sat (r32 rnd ((v32 a).add rnd (v32 b)))
def fsub32 (sat : Bool) (rnd : Rnd) (a b : Word) : Word :=
  finish32 sat (r32 rnd ((v32 a).add rnd (v32 b).neg))
def fmul32 (sat : Bool) (rnd : Rnd) (a b : Word) : Word := finish32 sat (r32 rnd ((v32 a).mul (v32 b)))
def ffma32 (sat : Bool) (rnd : Rnd) (a b c : Word) : Word :=
  finish32 sat (r32 rnd (((v32 a).mul (v32 b)).add rnd (v32 c)))

/-- minimumNumber and maximumNumber: −0 lies below +0 (R102). -/
def fminmax32 (isMax : Bool) (a b : Word) : Word :=
  match (v32 a).cmp (v32 b) with
  | some .lt => if isMax then b else a
  | some .gt => if isMax then a else b
  | some .eq => if a.getLsbD 31 != isMax then a else b
  | none =>
    if v32 a != .nan then a else if v32 b != .nan then b else 0x7FC00000

/-- The integer a value rounds to. -/
def roundInt (rnd : Rnd) (neg : Bool) (m : Nat) (e : Int) : Nat :=
  if 0 ≤ e then m * 2 ^ e.toNat else roundShift rnd neg m (-e).toNat

def frnd32 (rnd : Rnd) (a : Word) : Word :=
  match v32 a with
  | .nan => 0x7FC00000
  | .inf _ => a
  | .num neg m e => BitVec.ofNat 32 (f32.round .rne false neg (roundInt rnd neg m e) 0)

/-- F32 to an integer in `lo` to `hi` (R105). -/
def cvtiF (rnd : Rnd) (lo hi : Int) (a : Word) : Int :=
  match v32 a with
  | .nan => 0
  | .inf neg => if neg then lo else hi
  | .num neg m e =>
    let v : Int := roundInt rnd neg m e
    max lo (min hi (if neg then -v else v))

/-- An integer to F32 (R105). -/
def cvtfI (rnd : Rnd) (x : Int) : Word :=
  BitVec.ofNat 32 (f32.round rnd false (x < 0) x.natAbs 0)

/-! ## Paired 16-bit values (R104, R106) -/

def hfmt (bf : Bool) : Fmt := if bf then bf16 else f16

def half (x : Word) (hi : Bool) : Nat := (if hi then x.extractLsb' 16 16 else x.extractLsb' 0 16).toNat

/-- Apply an operation to both halves. -/
def halves (f : Bool → Nat) : Word := BitVec.ofNat 16 (f true) ++ BitVec.ofNat 16 (f false)

/-- A source of a paired instruction: an F32 constant entry gives its value rounded RNE in both halves (R53). -/
def hsrc (bf : Bool) (x : Src) (w : Word) : Word :=
  match x with
  | .c e => if isF32Entry e then halves fun _ => (hfmt bf).pack .rne false (v32 w) else w
  | _ => w

def hadd (bf satf : Bool) (rnd : Rnd) (a b : Word) : Word :=
  halves fun h => (hfmt bf).pack rnd satf
    (((hfmt bf).unpack (half a h)).add rnd ((hfmt bf).unpack (half b h)))
def hmul (bf satf : Bool) (rnd : Rnd) (a b : Word) : Word :=
  halves fun h => (hfmt bf).pack rnd satf
    (((hfmt bf).unpack (half a h)).mul ((hfmt bf).unpack (half b h)))
def hfma (bf satf : Bool) (rnd : Rnd) (a b c : Word) : Word :=
  halves fun h => (hfmt bf).pack rnd satf
    ((((hfmt bf).unpack (half a h)).mul ((hfmt bf).unpack (half b h))).add rnd
      ((hfmt bf).unpack (half c h)))

/-- `cvth.pk`: SATF covers overflow alone, so an infinite source stays infinite. -/
def cvthPk (bf satf : Bool) (rnd : Rnd) (a b : Word) : Word :=
  halves fun h => match v32 (if h then b else a) with
    | .inf neg => withSign (hfmt bf) neg (hfmt bf).inf
    | x => (hfmt bf).pack rnd satf x

/-- `cvth.up`: exact. -/
def cvthUp (bf hi : Bool) (a : Word) : Word := r32 .rne ((hfmt bf).unpack (half a hi))

/-! ## Special functions (R103, Table 5-8)

Exact results are delivered exactly. Elsewhere the result is the fixed function that Config leaves open, held to the bound of Table 5-8: a value outside it gives way to the rounded one (log entry 9). -/

/-- Fixed-point scale of the reference values: 2^−fxS. -/
def fxS : Nat := 400

/-- A finite F32 pattern as a fixed-point number. -/
def toFx (x : Word) : Option Int :=
  match v32 x with
  | .num neg m e => some (scaled neg m e (-(fxS : Int)))
  | _ => none

/-- A fixed-point number rounded to F32. -/
def ofFx (v : Int) : Word := BitVec.ofNat 32 (f32.round .rne false (v < 0) v.natAbs (-(fxS : Int)))

/-- The spacing of binary32 values at a fixed-point number. -/
def ulpFx (v : Int) : Int :=
  (2 ^ (max ((v.natAbs.log2 : Int) - 23) (fxS - 149)).toNat : Nat)

/-- The open function's value where it meets the bound against the reference `v`, else the rounded reference. -/
def bounded (y : Word) (v bound : Int) : Word :=
  match toFx y with
  | some w => if (w - v).natAbs ≤ bound.natAbs then y else ofFx v
  | none => ofFx v

/-- A power of two: the exponent, for m × 2^e. -/
def pow2? (m : Nat) (e : Int) : Option Int := if m = 2 ^ m.log2 then some (e + m.log2) else none

/-- `frcp`. No F32 value meets the bound where the reciprocal is 2^128 or more, and R103 states no result there: it is the open function's value (log entry 9). -/
def frcpV (a : Word) : Word :=
  match v32 a with
  | .nan => 0x7FC00000
  | .inf neg => BitVec.ofNat 32 (withSign f32 neg 0)
  | .num neg m e =>
    if m = 0 then BitVec.ofNat 32 (withSign f32 neg f32.inf)
    else
      let v : Int := (2 ^ (fxS - e).toNat / m : Nat)
      if 2 ^ (fxS + 128) ≤ v then Config.frcp a
      else match pow2? m e with
        | some k => BitVec.ofNat 32 (f32.round .rne false neg 1 (-k))
        | none =>
          let v := if neg then -v else v
          bounded (Config.frcp a) v (ulpFx v)

/-- The integer square root, bit by bit from bit `k` down. -/
def isqrtGo (n r : Nat) : Nat → Nat
  | 0 => r
  | k + 1 => isqrtGo n (if (r + 2 ^ k) * (r + 2 ^ k) ≤ n then r + 2 ^ k else r) k

def isqrt (n : Nat) : Nat := isqrtGo n 0 (n.log2 / 2 + 1)

/-- √(m × 2^e) as a fixed-point number. -/
def sqrtFx (m : Nat) (e : Int) : Nat := isqrt (m * 2 ^ (e + 2 * fxS).toNat)

def frsqV (a : Word) : Word :=
  match v32 a with
  | .nan => 0x7FC00000
  | .inf neg => if neg then 0x7FC00000 else 0
  | .num neg m e =>
    if m = 0 then BitVec.ofNat 32 (withSign f32 neg f32.inf)
    else if neg then 0x7FC00000
    else
      let open_ :=
        let v : Int := (2 ^ (2 * fxS) / sqrtFx m e : Nat)
        bounded (Config.frsq a) v (2 * ulpFx v)
      match pow2? m e with
      | some k => if k % 2 = 0 then BitVec.ofNat 32 (f32.round .rne false false 1 (-(k / 2))) else open_
      | none => open_

/-- Correctly rounded: the integer root keeps a sticky bit. -/
def fsqrtV (a : Word) : Word :=
  match v32 a with
  | .nan => 0x7FC00000
  | .inf neg => if neg then 0x7FC00000 else a
  | .num neg m e =>
    if m = 0 then a
    else if neg then 0x7FC00000
    else
      let n := m * 2 ^ (e + 300).toNat
      let q := isqrt n
      BitVec.ofNat 32 (f32.round .rne false false (2 * q + (if q * q = n then 0 else 1)) (-151))

/-- Σ x^k/k! for k below `n`, in fixed point of scale 2^−fxS: `term` is x^k/k!. -/
def expSeries (x term : Int) (k : Nat) : Nat → Int
  | 0 => 0
  | n + 1 => term + expSeries x (term * x / (2 ^ fxS : Nat) / ((k + 1 : Nat) : Int)) (k + 1) n

/-- Σ 1/((2k+1) × b^(2k+1)) × 2^fxS: the inverse hyperbolic tangent of 1/b, or with `alt` its arc tangent. -/
def atanSeries (alt : Bool) (b : Nat) (pow : Nat) (k : Nat) : Nat → Int
  | 0 => 0
  | n + 1 =>
    let term : Int := ((pow / (2 * k + 1) : Nat) : Int)
    (if alt && k % 2 == 1 then -term else term) + atanSeries alt b (pow / (b * b)) (k + 1) n

/-- ln 2 = 2 artanh(1/3) and π = 16 atan(1/5) − 4 atan(1/239), in fixed point. -/
def ln2Fx : Int := 2 * atanSeries false 3 (2 ^ fxS / 3) 0 130
def piFx : Int := 16 * atanSeries true 5 (2 ^ fxS / 5) 0 90 - 4 * atanSeries true 239 (2 ^ fxS / 239) 0 30

def fexp2V (a : Word) : Word :=
  match v32 a with
  | .nan => 0x7FC00000
  | .inf neg => if neg then 0 else 0x7F800000
  | .num neg m e =>
    let x := scaled neg m e (-(fxS : Int))
    let one : Int := (2 ^ fxS : Nat)
    let n := x / one
    let fr := x % one
    if 128 ≤ n then 0x7F800000
    else if x < -150 * one then 0
    else if fr = 0 && -149 ≤ n then BitVec.ofNat 32 (f32.round .rne false false 1 n)
    else
      let y := expSeries (fr * ln2Fx / one) one 0 80
      let v := if 0 ≤ n then y * (2 ^ n.toNat : Nat) else y / (2 ^ (-n).toNat : Nat)
      bounded (Config.fexp2 a) v (2 * ulpFx v)

/-- Binary digits of log2 of y in [1, 2), y of scale 2^−fxS, by squaring. -/
def log2Digits (y acc : Nat) : Nat → Nat
  | 0 => acc
  | n + 1 =>
    let z := y * y / 2 ^ fxS
    if 2 ^ (fxS + 1) ≤ z then log2Digits (z / 2) (2 * acc + 1) n else log2Digits z (2 * acc) n

def flog2V (a : Word) : Word :=
  match v32 a with
  | .nan => 0x7FC00000
  | .inf neg => if neg then 0x7FC00000 else 0x7F800000
  | .num neg m e =>
    if m = 0 then 0xFF800000
    else if neg then 0x7FC00000
    else match pow2? m e with
      | some k => cvtfI .rne k
      | none =>
        let lg := m.log2
        let y := m * 2 ^ (fxS - lg)
        let v : Int := (e + lg) * (2 ^ fxS : Nat) + ((log2Digits y 0 200 * 2 ^ (fxS - 200) : Nat) : Int)
        let near := 0x3F000000 ≤ a.toNat && a.toNat ≤ 0x40000000
        bounded (Config.flog2 a) v (if near then (2 ^ (fxS - 22) : Nat) else 2 * ulpFx v)

/-- Σ (−1)^k x^(2k+j)/(2k+j)!, `term` the term of index i: sine for j = 1, cosine for j = 0. -/
def trigSeries (x2 term : Int) (i : Nat) : Nat → Int
  | 0 => 0
  | n + 1 =>
    term + trigSeries x2 (-(term * x2 / (2 ^ fxS : Nat) / (((i + 1) * (i + 2) : Nat) : Int))) (i + 2) n

/-- sin (or cos) of 2πa for a finite a: exact at multiples of 0.25. -/
def trigV (isCos : Bool) (open_ : Word → Word) (a : Word) : Word :=
  match v32 a with
  | .nan => 0x7FC00000
  | .inf _ => 0x7FC00000
  | .num neg m e =>
    let one : Int := (2 ^ fxS : Nat)
    let x := scaled neg m e (-(fxS : Int)) % one
    if 4 * x % one = 0 then
      let q := (4 * x / one + (if isCos then 1 else 0)) % 4
      if q = 1 then 0x3F800000
      else if q = 3 then 0xBF800000
      else if !isCos && m = 0 && neg then 0x80000000
      else 0
    else
      let z := x * (2 * piFx) / one
      let z2 := z * z / one
      let v := if isCos then trigSeries z2 one 0 70 else trigSeries z2 z 1 70
      bounded (open_ a) v (2 ^ (fxS - 21) : Nat)

def fsinV (a : Word) : Word := trigV false Config.fsin a
def fcosV (a : Word) : Word := trigV true Config.fcos a

end Sys2Proof.Machine
end

