-- ==== Sys2Proof/Machine/Formats.lean ====
section
/-! DEFINITION. The element formats of the matrix engine: values of codes, conversion into a format, format slots, scales and accumulation; and `cvtn` (R107, R267 to R281). -/

namespace Sys2Proof.Machine

/-! ## Element formats (R267 to R271) -/

/-- The eleven element formats (Table 15-1). -/
inductive Elem where
  | f32 | bf16 | f16 | f8a | f8b | f6a | f4a | lg6 | hs4 | hs8 | i8
  deriving DecidableEq, Repr

def Elem.ofCode : Nat → Option Elem
  | 0x00 => some .f32
  | 0x01 => some .bf16
  | 0x02 => some .f16
  | 0x03 => some .f8a
  | 0x04 => some .f8b
  | 0x05 => some .f6a
  | 0x06 => some .f4a
  | 0x07 => some .lg6
  | 0x08 => some .hs4
  | 0x09 => some .hs8
  | 0x0A => some .i8
  | _ => none

/-- Width in bits. -/
def Elem.bits : Elem → Nat
  | .f32 => 32
  | .bf16 | .f16 => 16
  | .f8a | .f8b | .hs8 | .i8 => 8
  | .f6a | .lg6 => 6
  | .f4a | .hs4 => 4

/-- The IEEE format of a 16-bit or 32-bit element. -/
def Elem.wide? : Elem → Option Fmt
  | .f32 => some Machine.f32
  | .bf16 => some Machine.bf16
  | .f16 => some Machine.f16
  | _ => none

/-- Exponent bits and fraction bits of a format without infinities (R269). -/
def Elem.mini? : Elem → Option (Nat × Nat × Int)
  | .f8a => some (4, 3, 7)
  | .f8b => some (5, 2, 15)
  | .f6a => some (3, 2, 3)
  | .f4a => some (2, 1, 1)
  | _ => none

/-- The linearising table T (Table 15-2). -/
def lgTable : Nat → Nat
  | 0 => 0x4000
  | 1 => 0x4C1C
  | 2 => 0x5A82
  | _ => 0x6BA2

/-- (−1)^neg × 2^⌊m/4⌋ × T[m mod 4] / 2^14. -/
def lgValue (neg : Bool) (m : Int) : FV := .num neg (lgTable (m % 4).toNat) (m / 4 - 14)

/-- The log magnitude of an LG6 code, none for zero (R270). -/
def lgLog (code : Nat) : Option Int :=
  let x := code % 32
  if x = 16 then none else some (if x < 16 then (x : Int) else (x : Int) - 32)

def twos (w code : Nat) : Int := if code < 2 ^ (w - 1) then (code : Int) else (code : Int) - (2 ^ w : Nat)

/-- The value of a minifloat code (R269). -/
def miniValue (eb fb : Nat) (bias : Int) (code : Nat) : FV :=
  let neg := code / 2 ^ (eb + fb) % 2 == 1
  let ex := code / 2 ^ fb % 2 ^ eb
  let m := code % 2 ^ fb
  if ex = 0 then .num neg m (1 - bias - fb) else .num neg (m + 2 ^ fb) ((ex : Int) - bias - fb)

/-- The exact value of a code (R268 to R272). -/
def Elem.value (f : Elem) (code : Nat) : FV :=
  match f with
  | .f32 => Machine.f32.unpack code
  | .bf16 => Machine.bf16.unpack code
  | .f16 => Machine.f16.unpack code
  | .f8a => miniValue 4 3 7 code
  | .f8b => miniValue 5 2 15 code
  | .f6a => miniValue 3 2 3 code
  | .f4a => miniValue 2 1 1 code
  | .lg6 => match lgLog code with
    | none => .num (code / 32 % 2 == 1) 0 0
    | some m => lgValue (code / 32 % 2 == 1) m
  | .hs4 =>
    let n := 2 * twos 4 code + 1
    .num (n < 0) n.natAbs (-1)
  | .hs8 =>
    let n := 2 * twos 8 code + 1
    .num (n < 0) n.natAbs (-1)
  | .i8 =>
    let n := twos 8 code
    .num (n < 0) n.natAbs 0

/-- Largest finite magnitude m × 2^e (Table 15-1). -/
def Elem.max : Elem → Nat × Int
  | .f32 => (2 ^ 24 - 1, 104)
  | .bf16 => (255, 120)
  | .f16 => (65504, 0)
  | .f8a => (480, 0)
  | .f8b => (114688, 0)
  | .f6a => (28, 0)
  | .f4a => (6, 0)
  | .lg6 => (27554, -11)
  | .hs4 => (15, -1)
  | .hs8 => (255, -1)
  | .i8 => (127, 0)

/-! ## Conversion into a format (R277) -/

/-- A magnitude into a minifloat: past the largest finite value it saturates. -/
def miniEncode (eb fb : Nat) (bias : Int) (rnd : Rnd) : FV → Nat
  | .nan => 0
  | .inf neg => (if neg then 2 ^ (eb + fb) else 0) + (2 ^ (eb + fb) - 1)
  | .num neg m e =>
    let emin : Int := 1 - bias - fb
    let eu := max (e + (m.log2 : Int) - fb) emin
    let q := if m = 0 then 0 else if eu ≤ e then m * 2 ^ (e - eu).toNat else roundShift rnd neg m (eu - e).toNat
    let y := if m = 0 then 0 else (eu - emin).toNat * 2 ^ fb + q
    (if neg then 2 ^ (eb + fb) else 0) + min y (2 ^ (eb + fb) - 1)

/-- Rounding goes to the larger of two neighbouring magnitudes lo ≤ x < hi. -/
def goesUp (rnd : Rnd) (neg : Bool) (x lo hi : Nat) (loEven : Bool) : Bool :=
  match rnd with
  | .rne => lo + hi < 2 * x || (lo + hi == 2 * x && !loEven)
  | .rtz => false
  | .rdn => neg && lo < x
  | .rup => !neg && lo < x

/-- Into LG6: among the 32 magnitudes of m from −16 (zero) to 15; a tie goes to an even m. -/
def lgEncode (rnd : Rnd) : FV → Nat
  | .nan => 0x10
  | .inf neg => (if neg then 32 else 0) + 15
  | .num neg m e =>
    let base : Int := min e (-18)
    let x := m * 2 ^ (e - base).toNat
    let mag (i : Nat) : Nat := if i = 0 then 0 else lgTable (i % 4) * 2 ^ (i / 4) * 2 ^ ((-18 : Int) - base).toNat
    let i := ((List.range 32).filter fun i => mag i ≤ x).length - 1
    let i := if i < 31 && goesUp rnd neg x (mag i) (mag (i + 1)) (i % 2 == 0) then i + 1 else i
    (if neg then 32 else 0) + (i + 16) % 32

/-- (−1)^neg × m × 2^e as a fraction of two integers, the denominator a power of 2. -/
def fraction (neg : Bool) (m : Nat) (e : Int) : Int × Nat :=
  let n : Int := (m * 2 ^ e.toNat : Nat)
  (if neg then -n else n, 2 ^ (-e).toNat)

/-- The half-step integer n of a value (R277); `lo` to `hi` are the integers of the format. -/
def hsLevel (rnd : Rnd) (lo hi : Int) : FV → Int
  | .nan => 0
  | .inf neg => if neg then lo else hi
  | .num neg m e =>
    let (p, q) := fraction neg m e
    let fl := p / (q : Int)
    let below := (2 * p - q) / (2 * q : Int)
    let above := -((q - 2 * p) / (2 * q : Int))
    let n := match rnd with
      | .rne => if p % (q : Int) = 0 then (if fl % 2 = 0 then fl else fl - 1) else fl
      | .rdn => below
      | .rup => above
      | .rtz => if neg then min above (-1) else max below 0
    max lo (min hi n)

def i8Level (rnd : Rnd) : FV → Int
  | .nan => 0
  | .inf neg => if neg then -128 else 127
  | .num neg m e =>
    let y : Int := (roundInt rnd neg m e : Nat)
    max (-128) (min 127 (if neg then -y else y))

/-- Encode an exact value (R277). -/
def Elem.encode (f : Elem) (rnd : Rnd) (sat16 : Bool) (x : FV) : Nat :=
  match f with
  | .f32 => Machine.f32.pack rnd false x
  | .bf16 => Machine.bf16.pack rnd sat16 x
  | .f16 => Machine.f16.pack rnd sat16 x
  | .f8a => miniEncode 4 3 7 rnd x
  | .f8b => miniEncode 5 2 15 rnd x
  | .f6a => miniEncode 3 2 3 rnd x
  | .f4a => miniEncode 2 1 1 rnd x
  | .lg6 => lgEncode rnd x
  | .hs4 => (hsLevel rnd (-8) 7 x % 16).toNat
  | .hs8 => (hsLevel rnd (-128) 127 x % 256).toNat
  | .i8 => (i8Level rnd x % 256).toNat

/-! ## Format slots (R275, R276) -/

structure Slot where
  elem : Elem
  scale : Nat
  rnd : Rnd
  sat16 : Bool
  deriving DecidableEq, Repr

def rndOf : Nat → Rnd
  | 0 => .rne
  | 1 => .rtz
  | 2 => .rdn
  | _ => .rup

/-- The fields of a descriptor whose reserved bits are zero and whose element code names a format. -/
def slotFields (w : Word) : Option Slot :=
  if bits w.toNat 11 21 ≠ 0 then none
  else (Elem.ofCode (bits w.toNat 0 5)).map fun f =>
    { elem := f, scale := bits w.toNat 5 3, rnd := rndOf (bits w.toNat 8 2), sat16 := w.getLsbD 10 }

/-- The slot check of a matrix instruction; in reduced service only BF16 and F32 serve (R276, R377). -/
def matrixSlot (reduced : Bool) (w : Word) : Option Slot :=
  match slotFields w with
  | none => none
  | some x =>
    if 2 < x.scale || (x.scale ≠ 0 && x.elem.wide?.isSome) || (reduced && x.elem ≠ .bf16 && x.elem ≠ .f32) then none
    else some x

/-! ## Scales (R274, R278) -/

/-- The value of an SE8 code. -/
def se8 (e : Nat) : FV := if e = 255 then .nan else .num false 1 ((e : Int) - 127)

/-- The magnitude m × 2^e is at most n × 2^g. -/
def magLe (m : Nat) (e : Int) (n : Nat) (g : Int) : Bool :=
  let base := min e g
  m * 2 ^ (e - base).toNat ≤ n * 2 ^ (g - base).toNat

/-- The largest finite magnitude of a block, 0 when there is none. -/
def blockMax (xs : List FV) : Nat × Int :=
  xs.foldl (fun b x => match x with
    | .num _ m e => if magLe m e b.1 b.2 then b else (m, e)
    | _ => b) (0, 0)

/-- The SE8 code chosen for a block (R278). -/
def chooseSe8 (f : Elem) (xs : List FV) : Nat :=
  if xs.contains .nan then 255
  else
    let (m, e) := blockMax xs
    if m = 0 then 127
    else ((List.range 255).find? fun (c : Nat) => magLe m e f.max.1 (f.max.2 + (c : Int) - 127)).getD 254

/-- x × 2^k. -/
def FV.scale (x : FV) (k : Int) : FV :=
  match x with
  | .num b m e => .num b m (e + k)
  | y => y

/-- x / s exactly, as far as any rounding into a format can tell: a quotient of 400 more bits, its last bit set when something remains. -/
def FV.div (x s : FV) : FV :=
  match x, s with
  | .num a m e, .num b n g =>
    if n = 0 then .nan
    else
      let q := m * 2 ^ 400 / n
      .num (a != b) (2 * q + (if m * 2 ^ 400 % n = 0 then 0 else 1)) (e - g - 401)
  | .inf a, .num b n _ => if n = 0 then .nan else .inf (a != b)
  | _, _ => .nan

/-! ## Accumulation (R279, R280) -/

/-- One product; LG6 × LG6 adds the logs (R270). -/
def elemProduct (fa fb : Elem) (x y : Nat) : FV :=
  if fa = .lg6 ∧ fb = .lg6 then
    match lgLog x, lgLog y with
    | some m, some n => lgValue ((x / 32 % 2 == 1) != (y / 32 % 2 == 1)) (m + n)
    | _, _ => .num false 0 0
  else (fa.value x).mul (fb.value y)

/-- One addition into an accumulator; an exact zero leaves it. -/
def accAdd (acc : Word) (c : FV) : Word :=
  match c with
  | .num _ 0 _ => acc
  | _ => r32 .rne ((v32 acc).add .rne c)

def fvSum (xs : List FV) : FV := xs.foldl (FV.add .rne) (.num false 0 0)

/-- Consecutive pieces of `n` elements. -/
def chunks {α : Type} (n : Nat) (l : List α) : List (List α) :=
  (List.range ((l.length + n - 1) / n)).map fun i => (l.drop (n * i)).take n

/-- The sum of a group of 8 on the 16-bit path, truncated at 2^(emax − 39). -/
def groupSum (ps : List FV) : FV :=
  if ps.contains .nan || (ps.contains (.inf true) && ps.contains (.inf false)) then .nan
  else if ps.contains (.inf true) then .inf true
  else if ps.contains (.inf false) then .inf false
  else
    let tops := ps.filterMap fun p => match p with
      | .num _ m e => if m = 0 then none else some (e + (m.log2 : Int))
      | _ => none
    match tops with
    | [] => .num false 0 0
    | t :: ts =>
      let unit := ts.foldl max t - 39
      let total : Int := ps.foldl (fun acc p => match p with
        | .num neg m e =>
          let (x, d) := fraction neg m (e - unit)
          acc + x / (d : Int)
        | _ => acc) 0
      .num (total < 0) total.natAbs unit

/-- The scale of an operand row: its SE8 codes, or its per-tensor scale. -/
inductive RowScale where
  | none
  | se8 (codes : List Nat)
  | tensor (w : Word)
  deriving DecidableEq, Repr

def RowScale.at (x : RowScale) (q : Nat) : FV :=
  match x with
  | .none => .num false 1 0
  | .se8 l => Machine.se8 (l.getD q 127)
  | .tensor w => v32 w

/-- Fold the products of two rows of codes into an accumulator (R280). -/
def foldRows (fa fb : Elem) (sa sb : RowScale) (acc : Word) (xs ys : List Nat) : Word :=
  let ps := xs.zipWith (elemProduct fa fb) ys
  if fa = .f32 ∨ fb = .f32 then
    ps.foldl (fun a p => r32 .rne ((v32 a).add .rne p)) acc
  else if fa.wide?.isSome || fb.wide?.isSome then
    (chunks 8 ps).foldl (fun a g => accAdd a (groupSum g)) acc
  else
    ((chunks 32 ps).zipIdx).foldl (fun a g => accAdd a (((fvSum g.1).mul (sa.at g.2)).mul (sb.at g.2))) acc

/-! ## `cvtn` (R107) -/

/-- Elements a 32-bit word holds. -/
def Elem.perWord (f : Elem) : Nat := if f.bits = 6 then 4 else 32 / f.bits

def elemOf (f : Elem) (w : Word) (k : Nat) : Nat := bits w.toNat (f.bits * k) f.bits

def putElem (f : Elem) (w : Word) (k x : Nat) : Word :=
  let lo := f.bits * k
  BitVec.ofNat 32 (w.toNat - bits w.toNat lo f.bits * 2 ^ lo + x % 2 ^ f.bits * 2 ^ lo)

/-- The format slot of the issuing train's dispatch. -/
def slotWord (s : State) (t : Train) (slot : BitVec 3) : Word :=
  match s.dispatchOf t with
  | some d => d.launch.slots[slot.toNat]'slot.isLt
  | none => 0

def execCvtn (g : Guard) (slot : BitVec 3) (d : Dst) (op : CvtnOp) (s : State) : Host.Outcome State Fault Refusal :=
  local_ s (.cvtn g slot d op) fun r =>
    let w := slotWord s r.t slot
    match slotFields w with
    | none => .error (.trap eFmt (some r.act) (some (w.setWidth 64)))
    | some f =>
      let n := f.elem.perWord
      .ok (r.done d 1 fun L =>
        match op with
        | .pk a b c => (putElem f.elem (r.x b L) ((r.x c L).toNat % n)
            (f.elem.encode f.rnd f.sat16 (v32 (r.x a L)))).setWidth 64
        | .up a c => (r32 .rne (f.elem.value (elemOf f.elem (r.x a L) ((r.x c L).toNat % n)))).setWidth 64)

end Sys2Proof.Machine
end

