-- ==== Sys2Proof/Machine/Flags.lean ====
section
/-! DEFINITION. The predicate computations: integer and F32 comparisons, predicate logic and votes (R97 to R100, R110). The Tropin has no other flags. -/

namespace Sys2Proof.Machine

/-- Width in bits of an integer type (Table 5-1). -/
def IntTy.w : IntTy → Nat
  | .s32 | .n32 => 32
  | .s64 | .n64 => 64
  | .s16 | .n16 => 16
  | .s8 | .n8 => 8

/-- Integer comparison (R98). -/
def iccHolds (cc : ICc) (a b : Int) : Bool :=
  match cc with
  | .eq => a == b
  | .ne => a != b
  | .lt => a < b
  | .le => a ≤ b
  | .gt => b < a
  | .ge => b ≤ a

/-- F32 comparison; `none` is unordered (R99). -/
def fccHolds (cc : FCc) (o : Option Ordering) : Bool :=
  match cc with
  | .eq => o == some .eq
  | .ne => o == some .lt || o == some .gt
  | .lt => o == some .lt
  | .le => o == some .lt || o == some .eq
  | .gt => o == some .gt
  | .ge => o == some .gt || o == some .eq
  | .num => o.isSome
  | .nan => o.isNone
  | .equ => o.isNone || o == some .eq
  | .neu => o != some .eq
  | .ltu => o.isNone || o == some .lt
  | .leu => o != some .gt
  | .gtu => o.isNone || o == some .gt
  | .geu => o != some .lt

/-- Predicate logic (R100). -/
def popApply (op : POp) (a b : Mask) : Mask :=
  match op with
  | .and => a &&& b
  | .or => a ||| b
  | .xor => a ^^^ b
  | .andn => a &&& ~~~b
  | .orn => a ||| ~~~b

/-- All lanes or none. -/
def allLanes (b : Bool) : Mask := if b then 0xFFFFFFFF else 0

/-- Some active lane has pA (R110). -/
def voteSome (act p : Mask) : Mask := allLanes (act &&& p != 0)
def voteEvery (act p : Mask) : Mask := allLanes (act &&& p == act)
def voteAgree (act p : Mask) : Mask := allLanes (act &&& p == 0 || act &&& p == act)

end Sys2Proof.Machine
end

