-- ==== Sys2Proof/Machine/Alu.lean ====
section
/-! DEFINITION. Class V but for `cvtn`: one meaning per instruction (05, R87 to R113). -/

namespace Sys2Proof.Machine

abbrev Out := Host.Outcome State Fault Refusal

/-! ## Integer values (R88, R92) -/

/-- The low w bits of an operand, read under TY. -/
def intOf (ty : IntTy) (x : DWord) : Int :=
  let u := x.toNat % 2 ^ IntTy.w ty
  if ty.signed && 2 ^ (IntTy.w ty - 1) ≤ u then (u : Int) - (2 ^ IntTy.w ty : Nat) else u

def IntTy.lo (ty : IntTy) : Int := if ty.signed then -(2 ^ (IntTy.w ty - 1) : Nat) else 0
def IntTy.hi (ty : IntTy) : Int :=
  if ty.signed then (2 ^ (IntTy.w ty - 1) : Nat) - 1 else (2 ^ IntTy.w ty : Nat) - 1

/-- Keep the width of the result: 64 bits, or 32 with the high bits zero. -/
def keepW (n : Nat) (x : DWord) : DWord := if n = 2 then x else (x.setWidth 32).setWidth 64

/-- An exact result delivered: saturated or wrapped to w bits, then extended to the register width by TY (R92). -/
def deliver (sat : Bool) (ty : IntTy) (x : Int) : DWord :=
  let x := if sat then min (max x (IntTy.lo ty)) (IntTy.hi ty) else x
  keepW ty.regs (BitVec.ofInt 64 (intOf ty (BitVec.ofInt 64 x)))

/-- A two-source integer instruction. -/
def int2 (s : State) (i : Instr) (sat : Bool) (ty : IntTy) (d : Dst) (a b : Src) (f : Int → Int → Int) :
    Out :=
  alu s i d ty.regs fun r L => deliver sat ty (f (intOf ty (r.n ty.regs a L)) (intOf ty (r.n ty.regs b L)))

/-- A two-source 64-bit or 32-bit bitwise instruction. -/
def bit2 (s : State) (i : Instr) (ty : IntTy) (d : Dst) (a b : Src) (f : DWord → DWord → DWord) : Out :=
  alu s i d ty.regs fun r L => keepW ty.regs (f (r.n ty.regs a L) (r.n ty.regs b L))

/-- A shift or rotate: the count is a 32-bit unsigned number (R94). -/
def shift2 (s : State) (i : Instr) (ty : IntTy) (d : Dst) (a b : Src) (f : Nat → DWord → Nat → DWord) :
    Out :=
  alu s i d ty.regs fun r L => keepW ty.regs (f (IntTy.w ty) (r.n ty.regs a L) (r.x b L).toNat)

/-- A 32-bit instruction of one, two or three F32 sources. -/
def flt1 (s : State) (i : Instr) (d : Dst) (a : Src) (f : Word → Word) : Out :=
  alu s i d 1 fun r L => (f (r.x a L)).setWidth 64
def flt2 (s : State) (i : Instr) (d : Dst) (a b : Src) (f : Word → Word → Word) : Out :=
  alu s i d 1 fun r L => (f (r.x a L) (r.x b L)).setWidth 64
def flt3 (s : State) (i : Instr) (d : Dst) (a b c : Src) (f : Word → Word → Word → Word) : Out :=
  alu s i d 1 fun r L => (f (r.x a L) (r.x b L) (r.x c L)).setWidth 64

/-- A K form: SA and a 32-bit immediate (R113). -/
def kform (s : State) (i : Instr) (d : Dst) (a : Src) (f : Word → Word) : Out := flt1 s i d a f

/-! ## Moves (R91) -/

def execMov (g : Guard) (ty : IntTy) (d : Dst) (a : Src) (s : State) : Out :=
  alu s (.mov g ty d a) d ty.regs fun r L => r.n ty.regs a L

def execMovk (g : Guard) (d : Dst) (a b : Src) (s : State) : Out :=
  alu s (.movk g d a b) d 2 fun r L => r.x b L ++ r.x a L

/-- A special value (R64); `none` while the ESU has not fixed WHEELS. -/
def specialVal (s : State) (t : Train) (which : Special) (L : Nat) : Option DWord :=
  match which with
  | .lane => some (BitVec.ofNat 64 L)
  | .train => some (BitVec.ofNat 64 t.index)
  | .wheel => some (match s.wheelOf t with | some w => BitVec.ofNat 64 w.index | none => 0)
  | .wheels =>
    match s.dispatchOf t with
    | some d => if d.launch.query && !d.joined then none else some (BitVec.ofNat 64 (d.wheels % 2 ^ 32))
    | none => some 0
  | .role => some (match s.dispatchOf t with | some d => BitVec.ofNat 64 (d.launch.role t.index) | none => 0)
  | .core => some (BitVec.ofNat 64 (s.coreOf t))
  | .ctx => some ((s.ctx (s.ctxOf t)).vctx.setWidth 64)
  | .clock => some (s.core (s.coreOf t)).cycles
  | .param => some (match s.dispatchOf t with | some d => d.launch.param | none => 0)

def execMovs (g : Guard) (d : Dst) (which : Special) (s : State) : Out :=
  local_ s (.movs g d which) fun r =>
    match specialVal s r.t which 0 with
    | none => .error .wait
    | some _ => .ok (r.done d (match which with | .clock | .param => 2 | _ => 1)
        fun L => (specialVal s r.t which L).getD 0)

def execSel (g : Guard) (ty : IntTy) (d : Dst) (a b : Src) (p : BitVec 3) (s : State) : Out :=
  alu s (.sel g ty d a b p) d ty.regs fun r L =>
    if (r.t.pred p.toNat).getLsbD L then r.n ty.regs a L else r.n ty.regs b L

/-! ## Integer arithmetic (R92, R93) -/

def execIadd (g : Guard) (sat : Bool) (ty : IntTy) (d : Dst) (a b : Src) (s : State) : Out :=
  int2 s (.iadd g sat ty d a b) sat ty d a b fun x y => x + y

def execIsub (g : Guard) (sat : Bool) (ty : IntTy) (d : Dst) (a b : Src) (s : State) : Out :=
  int2 s (.isub g sat ty d a b) sat ty d a b fun x y => x - y

def execImul (g : Guard) (sat : Bool) (ty : IntTy) (d : Dst) (a b : Src) (s : State) : Out :=
  int2 s (.imul g sat ty d a b) sat ty d a b fun x y => x * y

/-- The high half of the 2w-bit product, rounded toward −∞. -/
def execImulh (g : Guard) (ty : IntTy) (d : Dst) (a b : Src) (s : State) : Out :=
  int2 s (.imulh g ty d a b) false ty d a b fun x y => (x * y) / (2 ^ IntTy.w ty : Nat)

def execImad (g : Guard) (sat : Bool) (ty : IntTy) (d : Dst) (a b c : Src) (s : State) : Out :=
  alu s (.imad g sat ty d a b c) d ty.regs fun r L =>
    deliver sat ty (intOf ty (r.n ty.regs a L) * intOf ty (r.n ty.regs b L) + intOf ty (r.n ty.regs c L))

def execImin (g : Guard) (ty : IntTy) (d : Dst) (a b : Src) (s : State) : Out :=
  int2 s (.imin g ty d a b) false ty d a b min

def execImax (g : Guard) (ty : IntTy) (d : Dst) (a b : Src) (s : State) : Out :=
  int2 s (.imax g ty d a b) false ty d a b max

def execIabs (g : Guard) (sat : Bool) (ty : IntTy) (d : Dst) (a : Src) (s : State) : Out :=
  alu s (.iabs g sat ty d a) d ty.regs fun r L =>
    deliver sat ty ((intOf ty (r.n ty.regs a L)).natAbs : Int)

/-- A 32-bit operand extended to 64 bits: by zero for TY 1, else by sign (R93). -/
def extX (uns : Bool) (x : Word) : DWord := if uns then x.setWidth 64 else x.signExtend 64

def execIaddx (g : Guard) (uns : Bool) (d : Dst) (a b : Src) (s : State) : Out :=
  alu s (.iaddx g uns d a b) d 2 fun r L => r.d a L + extX uns (r.x b L)

def execImadx (g : Guard) (uns : Bool) (d : Dst) (a b c : Src) (s : State) : Out :=
  alu s (.imadx g uns d a b c) d 2 fun r L => extX uns (r.x a L) * extX uns (r.x b L) + r.d c L

/-! ## Bitwise operations, shifts and fields (R94 to R96) -/

def execAnd (g : Guard) (ty : IntTy) (d : Dst) (a b : Src) (s : State) : Out :=
  bit2 s (.and g ty d a b) ty d a b fun x y => x &&& y

def execOr (g : Guard) (ty : IntTy) (d : Dst) (a b : Src) (s : State) : Out :=
  bit2 s (.or g ty d a b) ty d a b fun x y => x ||| y

def execXor (g : Guard) (ty : IntTy) (d : Dst) (a b : Src) (s : State) : Out :=
  bit2 s (.xor g ty d a b) ty d a b fun x y => x ^^^ y

def execAndn (g : Guard) (ty : IntTy) (d : Dst) (a b : Src) (s : State) : Out :=
  bit2 s (.andn g ty d a b) ty d a b fun x y => x &&& ~~~y

/-- Bit by bit through the truth table: x, a and b carry weights 1, 2 and 4 (R95). -/
def lop3Val (x a b t : Word) : Word :=
  BitVec.ofNat 32 ((List.range 32).foldl (fun acc i =>
    let k := (if x.getLsbD i then 1 else 0) + (if a.getLsbD i then 2 else 0) + (if b.getLsbD i then 4 else 0)
    if t.getLsbD k then acc + 2 ^ i else acc) 0)

/-- The old value of a 32-bit destination. -/
def oldDst (t : Train) (d : Dst) (L : Nat) : Word :=
  if d.scalar then t.sreg d.idx.toNat else (t.vreg d.idx.toNat).at L

/-- A table value with any of bits 31:8 set traps. -/
def execLop3 (g : Guard) (d : Dst) (a b t : Src) (s : State) : Out :=
  local_ s (.lop3 g d a b t) fun r =>
    if 256 ≤ (r.x0 t).toNat then .error (.trap eIllOperand none none)
    else .ok (r.done d 1 fun L => (lop3Val (oldDst r.t d L) (r.x a L) (r.x b L) (r.x0 t)).setWidth 64)

def shlVal (w : Nat) (x : DWord) (n : Nat) : DWord := if w ≤ n then 0 else x <<< n
def shrVal (w : Nat) (x : DWord) (n : Nat) : DWord := if w ≤ n then 0 else x >>> n
/-- Copies of bit w−1 fill from the left; for n ≥ w every bit is that bit. -/
def sraVal (w : Nat) (x : DWord) (n : Nat) : DWord :=
  (if w = 64 then x else (x.setWidth 32).signExtend 64).sshiftRight (min n 63)
def rotVal (w : Nat) (x : DWord) (n : Nat) : DWord :=
  let k := n % w
  (x <<< k) ||| (x >>> (w - k))

def execShl (g : Guard) (ty : IntTy) (d : Dst) (a b : Src) (s : State) : Out :=
  shift2 s (.shl g ty d a b) ty d a b shlVal

def execShr (g : Guard) (ty : IntTy) (d : Dst) (a b : Src) (s : State) : Out :=
  shift2 s (.shr g ty d a b) ty d a b shrVal

def execSra (g : Guard) (ty : IntTy) (d : Dst) (a b : Src) (s : State) : Out :=
  shift2 s (.sra g ty d a b) ty d a b sraVal

def execRot (g : Guard) (ty : IntTy) (d : Dst) (a b : Src) (s : State) : Out :=
  shift2 s (.rot g ty d a b) ty d a b rotVal

/-- Position and length of a field operand (R96). -/
def fieldPos (f : Word) : Nat := bits f.toNat 0 8
def fieldLen (w : Nat) (f : Word) : Nat := min (bits f.toNat 8 8) w

def bfxVal (ty : IntTy) (x : DWord) (f : Word) : DWord :=
  let len := fieldLen (IntTy.w ty) f
  let u := x.toNat / 2 ^ fieldPos f % 2 ^ len
  let v : Int := if ty.signed && 0 < len && 2 ^ (len - 1) ≤ u then (u : Int) - (2 ^ len : Nat) else u
  BitVec.ofInt 64 v

def bfiVal (w : Nat) (a b : DWord) (f : Word) : DWord :=
  let mask : DWord := BitVec.ofNat 64 ((2 ^ fieldLen w f - 1) * 2 ^ fieldPos f % 2 ^ w)
  (a &&& ~~~mask) ||| (BitVec.ofNat 64 (b.toNat * 2 ^ fieldPos f) &&& mask)

def execBfx (g : Guard) (ty : IntTy) (d : Dst) (a f : Src) (s : State) : Out :=
  alu s (.bfx g ty d a f) d ty.regs fun r L => keepW ty.regs (bfxVal ty (r.n ty.regs a L) (r.x f L))

def execBfi (g : Guard) (ty : IntTy) (d : Dst) (a b f : Src) (s : State) : Out :=
  alu s (.bfi g ty d a b f) d ty.regs fun r L =>
    keepW ty.regs (bfiVal (IntTy.w ty) (r.n ty.regs a L) (r.n ty.regs b L) (r.x f L))

def popcVal (w : Nat) (x : DWord) : Nat := ((List.range w).filter fun i => x.getLsbD i).length
def clzVal (w : Nat) (x : DWord) : Nat := if x = 0 then w else w - 1 - x.toNat.log2
/-- Bit i of the result is bit w−1−i of the source. -/
def brevVal (w : Nat) (x : DWord) : DWord :=
  BitVec.ofNat 64 ((List.range w).foldl (fun acc i => 2 * acc + (if x.getLsbD i then 1 else 0)) 0)

def execPopc (g : Guard) (ty : IntTy) (d : Dst) (a : Src) (s : State) : Out :=
  alu s (.popc g ty d a) d 1 fun r L => BitVec.ofNat 64 (popcVal (IntTy.w ty) (r.n ty.regs a L))

def execClz (g : Guard) (ty : IntTy) (d : Dst) (a : Src) (s : State) : Out :=
  alu s (.clz g ty d a) d 1 fun r L => BitVec.ofNat 64 (clzVal (IntTy.w ty) (r.n ty.regs a L))

def execBrev (g : Guard) (ty : IntTy) (d : Dst) (a : Src) (s : State) : Out :=
  alu s (.brev g ty d a) d ty.regs fun r L => brevVal (IntTy.w ty) (r.n ty.regs a L)

/-! ## Compares and predicates (R97 to R100) -/

def execIcmp (g : Guard) (cc : ICc) (ty : IntTy) (d : PDst) (a b : Src) (s : State) : Out :=
  aluPred s (.icmp g cc ty d a b) d fun r L =>
    iccHolds cc (intOf ty (r.n ty.regs a L)) (intOf ty (r.n ty.regs b L))

def execFcmp (g : Guard) (cc : FCc) (d : PDst) (a b : Src) (s : State) : Out :=
  aluPred s (.fcmp g cc d a b) d fun r L => fccHolds cc ((v32 (r.x a L)).cmp (v32 (r.x b L)))

def execPlop (g : Guard) (op : POp) (d : PDst) (pa pb : BitVec 3) (s : State) : Out :=
  local_ s (.plop g op d pa pb) fun r =>
    .ok (r.donePred d (popApply op (r.t.pred pa.toNat) (r.t.pred pb.toNat)))

def execPmov (g : Guard) (op : PmovOp) (s : State) : Out :=
  match op with
  | .toPred d m => local_ s (.pmov g (.toPred d m)) fun r => .ok (r.donePred d (r.x0 m))
  | .toScalar d p => local_ s (.pmov g (.toScalar d p)) fun r =>
      .ok (r.reduced d 1 ((r.act &&& r.t.pred p.toNat).setWidth 64))

/-! ## FP32 (R101, R102) -/

def execFadd (g : Guard) (sat : Bool) (rnd : Rnd) (d : Dst) (a b : Src) (s : State) : Out :=
  flt2 s (.fadd g sat rnd d a b) d a b (fadd32 sat rnd)

def execFsub (g : Guard) (sat : Bool) (rnd : Rnd) (d : Dst) (a b : Src) (s : State) : Out :=
  flt2 s (.fsub g sat rnd d a b) d a b (fsub32 sat rnd)

def execFmul (g : Guard) (sat : Bool) (rnd : Rnd) (d : Dst) (a b : Src) (s : State) : Out :=
  flt2 s (.fmul g sat rnd d a b) d a b (fmul32 sat rnd)

def execFfma (g : Guard) (sat : Bool) (rnd : Rnd) (d : Dst) (a b c : Src) (s : State) : Out :=
  flt3 s (.ffma g sat rnd d a b c) d a b c (ffma32 sat rnd)

def execFmin (g : Guard) (d : Dst) (a b : Src) (s : State) : Out :=
  flt2 s (.fmin g d a b) d a b (fminmax32 false)

def execFmax (g : Guard) (d : Dst) (a b : Src) (s : State) : Out :=
  flt2 s (.fmax g d a b) d a b (fminmax32 true)

def execFrnd (g : Guard) (rnd : Rnd) (d : Dst) (a : Src) (s : State) : Out :=
  flt1 s (.frnd g rnd d a) d a (frnd32 rnd)

/-! ## Special functions (R103) -/

def execFrcp (g : Guard) (d : Dst) (a : Src) (s : State) : Out := flt1 s (.frcp g d a) d a frcpV
def execFrsq (g : Guard) (d : Dst) (a : Src) (s : State) : Out := flt1 s (.frsq g d a) d a frsqV
def execFsqrt (g : Guard) (d : Dst) (a : Src) (s : State) : Out := flt1 s (.fsqrt g d a) d a fsqrtV
def execFexp2 (g : Guard) (d : Dst) (a : Src) (s : State) : Out := flt1 s (.fexp2 g d a) d a fexp2V
def execFlog2 (g : Guard) (d : Dst) (a : Src) (s : State) : Out := flt1 s (.flog2 g d a) d a flog2V
def execFsin (g : Guard) (d : Dst) (a : Src) (s : State) : Out := flt1 s (.fsin g d a) d a fsinV
def execFcos (g : Guard) (d : Dst) (a : Src) (s : State) : Out := flt1 s (.fcos g d a) d a fcosV

/-! ## Paired 16-bit arithmetic and conversions (R104 to R106) -/

def execHadd2 (g : Guard) (satf : Bool) (rnd : Rnd) (bf : Bool) (d : Dst) (a b : Src) (s : State) : Out :=
  flt2 s (.hadd2 g satf rnd bf d a b) d a b fun x y => hadd bf satf rnd (hsrc bf a x) (hsrc bf b y)

def execHmul2 (g : Guard) (satf : Bool) (rnd : Rnd) (bf : Bool) (d : Dst) (a b : Src) (s : State) : Out :=
  flt2 s (.hmul2 g satf rnd bf d a b) d a b fun x y => hmul bf satf rnd (hsrc bf a x) (hsrc bf b y)

def execHfma2 (g : Guard) (satf : Bool) (rnd : Rnd) (bf : Bool) (d : Dst) (a b c : Src) (s : State) : Out :=
  flt3 s (.hfma2 g satf rnd bf d a b c) d a b c fun x y z =>
    hfma bf satf rnd (hsrc bf a x) (hsrc bf b y) (hsrc bf c z)

def execCvti (g : Guard) (rnd : Rnd) (ty : IntTy) (d : Dst) (a : Src) (s : State) : Out :=
  alu s (.cvti g rnd ty d a) d ty.regs fun r L =>
    deliver false ty (cvtiF rnd (IntTy.lo ty) (IntTy.hi ty) (r.x a L))

def execCvtf (g : Guard) (rnd : Rnd) (ty : IntTy) (d : Dst) (a : Src) (s : State) : Out :=
  alu s (.cvtf g rnd ty d a) d 1 fun r L => (cvtfI rnd (intOf ty (r.n ty.regs a L))).setWidth 64

def execCvth (g : Guard) (d : Dst) (op : CvthOp) (s : State) : Out :=
  match op with
  | .pk satf rnd bf a b =>
    flt2 s (.cvth g d (.pk satf rnd bf a b)) d a b fun x y => cvthPk bf satf rnd x y
  | .up bf hi a => flt1 s (.cvth g d (.up bf hi a)) d a fun x => cvthUp bf hi x

/-! ## Shuffles and lane moves (R109, R110) -/

/-- Source lane of a shuffle over the ring of 32 lanes. -/
def shflLane (mode : ShMode) (L n : Nat) : Nat :=
  match mode with
  | .abs => n % 32
  | .sub => (L + 32 - n % 32) % 32
  | .add => (L + n) % 32
  | .flip => L ^^^ (n % 32)

def Seg.size : Seg → Nat
  | .seg2 => 2
  | .seg4 => 4
  | .seg8 => 8
  | .seg16 => 16
  | .seg32 => 32

/-- Source lane of a segmented shuffle, if it lies in the segment of L. -/
def shfxLane (mode : ShMode) (S L n : Nat) : Option Nat :=
  let B := L / S * S
  let x : Int := match mode with
    | .abs => ((B + n % S : Nat) : Int)
    | .sub => (L : Int) - n
    | .add => ((L + n : Nat) : Int)
    | .flip => ((L ^^^ (n % S) : Nat) : Int)
  if (B : Int) ≤ x && x < B + S then some x.toNat else none

def regs64 (w : Bool) : Nat := if w then 2 else 1

def execShfl (g : Guard) (w64 : Bool) (mode : ShMode) (d : Dst) (a n : Src) (s : State) : Out :=
  alu s (.shfl g w64 mode d a n) d (regs64 w64) fun r L =>
    r.n (regs64 w64) a (shflLane mode L (r.x n L).toNat)

def execShfx (g : Guard) (w64 : Bool) (seg : Seg) (mode : ShMode) (d : Dst) (a n c : Src) (s : State) :
    Out :=
  alu s (.shfx g w64 seg mode d a n c) d (regs64 w64) fun r L =>
    match shfxLane mode (Seg.size seg) L (r.x n L).toNat with
    | some k => if r.act.getLsbD k then r.n (regs64 w64) a k else r.n (regs64 w64) c L
    | none => r.n (regs64 w64) c L

def execVote (g : Guard) (op : VoteOp) (pa : BitVec 3) (s : State) : Out :=
  match op with
  | .some d => local_ s (.vote g (.some d) pa) fun r =>
      .ok (r.donePred d (voteSome r.act (r.t.pred pa.toNat)))
  | .every d => local_ s (.vote g (.every d) pa) fun r =>
      .ok (r.donePred d (voteEvery r.act (r.t.pred pa.toNat)))
  | .agree d => local_ s (.vote g (.agree d) pa) fun r =>
      .ok (r.donePred d (voteAgree r.act (r.t.pred pa.toNat)))
  | .mask d => local_ s (.vote g (.mask d) pa) fun r =>
      .ok (r.reduced d 1 ((r.act &&& r.t.pred pa.toNat).setWidth 64))

def execRdlane (g : Guard) (w64 : Bool) (d : Dst) (a i : Src) (s : State) : Out :=
  local_ s (.rdlane g w64 d a i) fun r =>
    .ok (r.reduced d (regs64 w64) (r.n (regs64 w64) a ((r.x0 i).toNat % 32)))

/-- Only lane i mod 32 is written, and only when it is active; its latch result stands in that lane alone (log entry 10). -/
def execWrlane (g : Guard) (w64 : Bool) (d : Dst) (x i : Src) (s : State) : Out :=
  local_ s (.wrlane g w64 d x i) fun r =>
    let k := (r.x0 i).toNat % 32
    .ok ({ r with act := r.act &&& maskOf (· == k) }.done d (regs64 w64) fun L => r.n (regs64 w64) x L)

/-! ## Scans (R111) -/

def ScanTy.ity : ScanTy → IntTy
  | .s32 => .s32
  | .n32 => .n32
  | .s64 => .s64
  | .n64 => .n64

def scanId (op : ScanOp) (ty : IntTy) : Int :=
  match op with
  | .add | .or => 0
  | .min => IntTy.hi ty
  | .max => IntTy.lo ty

/-- One combining step; `or` is bitwise over the patterns. -/
def scanStep (op : ScanOp) (ty : IntTy) (x y : Int) : Int :=
  match op with
  | .add => x + y
  | .min => min x y
  | .max => max x y
  | .or => intOf ty (BitVec.ofInt 64 x ||| BitVec.ofInt 64 y)

/-- The combination of a over lanes, in increasing lane order. -/
def scanOver (op : ScanOp) (ty : IntTy) (f : Nat → Int) (lanes : List Nat) : DWord :=
  deliver false ty (lanes.foldl (fun acc K => scanStep op ty acc (f K)) (scanId op ty))

def execIscan (g : Guard) (ty : ScanTy) (excl : Bool) (op : ScanOp) (d : Dst) (a : Src) (s : State) : Out :=
  alu s (.iscan g ty excl op d a) d ty.regs fun r L =>
    scanOver op (ScanTy.ity ty) (fun K => intOf (ScanTy.ity ty) (r.n ty.regs a K))
      ((lanesOf r.act).filter fun K => K < L || (K == L && !excl))

def execIred (g : Guard) (ty : ScanTy) (op : ScanOp) (d : Dst) (a : Src) (s : State) : Out :=
  local_ s (.ired g ty op d a) fun r =>
    let x := scanOver op (ScanTy.ity ty) (fun K => intOf (ScanTy.ity ty) (r.n ty.regs a K)) (lanesOf r.act)
    .ok (if d.scalar then r.reduced d ty.regs x else r.done d ty.regs fun _ => x)

/-! ## The execution mask (R112) -/

def execEmrd (d : Dst) (s : State) : Out :=
  local_ s (.emrd d) fun r => .ok (r.reduced d 1 (r.t.em.setWidth 64))

def execEmwr (m : Src) (s : State) : Out :=
  local_ s (.emwr m) fun r => .ok (r.doneWith fun t => { t with em := r.x0 m })

def execEmand (m : Src) (s : State) : Out :=
  local_ s (.emand m) fun r => .ok (r.doneWith fun t => { t with em := t.em &&& r.x0 m })

def execEmor (m : Src) (s : State) : Out :=
  local_ s (.emor m) fun r => .ok (r.doneWith fun t => { t with em := t.em ||| r.x0 m })

/-! ## K forms (R113) -/

/-- A K form has no SA: its result is the immediate. -/
def execMovK (g : BitVec 2) (d : Dst) (imm : Word) (s : State) : Out :=
  alu s (.movK g d imm) d 1 fun _ _ => imm.setWidth 64

def intK (f : Int → Int → Int) (x y : Word) : Word :=
  (deliver false .s32 (f (intOf .s32 (x.setWidth 64)) (intOf .s32 (y.setWidth 64)))).setWidth 32

def shiftK (f : Nat → DWord → Nat → DWord) (x y : Word) : Word := (f 32 (x.setWidth 64) y.toNat).setWidth 32

def execIaddK (g : BitVec 2) (d : Dst) (a : Src) (imm : Word) (s : State) : Out :=
  kform s (.iaddK g d a imm) d a fun x => intK (fun p q => p + q) x imm
def execIsubK (g : BitVec 2) (d : Dst) (a : Src) (imm : Word) (s : State) : Out :=
  kform s (.isubK g d a imm) d a fun x => intK (fun p q => p - q) x imm
def execImulK (g : BitVec 2) (d : Dst) (a : Src) (imm : Word) (s : State) : Out :=
  kform s (.imulK g d a imm) d a fun x => intK (fun p q => p * q) x imm
def execAndK (g : BitVec 2) (d : Dst) (a : Src) (imm : Word) (s : State) : Out :=
  kform s (.andK g d a imm) d a fun x => x &&& imm
def execOrK (g : BitVec 2) (d : Dst) (a : Src) (imm : Word) (s : State) : Out :=
  kform s (.orK g d a imm) d a fun x => x ||| imm
def execXorK (g : BitVec 2) (d : Dst) (a : Src) (imm : Word) (s : State) : Out :=
  kform s (.xorK g d a imm) d a fun x => x ^^^ imm
def execShlK (g : BitVec 2) (d : Dst) (a : Src) (imm : Word) (s : State) : Out :=
  kform s (.shlK g d a imm) d a fun x => shiftK shlVal x imm
def execShrK (g : BitVec 2) (d : Dst) (a : Src) (imm : Word) (s : State) : Out :=
  kform s (.shrK g d a imm) d a fun x => shiftK shrVal x imm
def execSraK (g : BitVec 2) (d : Dst) (a : Src) (imm : Word) (s : State) : Out :=
  kform s (.sraK g d a imm) d a fun x => shiftK sraVal x imm
def execFaddK (g : BitVec 2) (d : Dst) (a : Src) (imm : Word) (s : State) : Out :=
  kform s (.faddK g d a imm) d a fun x => fadd32 false .rne x imm
def execFmulK (g : BitVec 2) (d : Dst) (a : Src) (imm : Word) (s : State) : Out :=
  kform s (.fmulK g d a imm) d a fun x => fmul32 false .rne x imm

end Sys2Proof.Machine
end

