-- ==== Sys2Proof/Machine/Control.lean ====
section
/-! DEFINITION. Class C but for `yieldc`: branches, calls, counted loops, `exit`, `yield`, software traps (R80 to R86). -/

namespace Sys2Proof.Machine

/-- The condition of R80: always, or some active lane. -/
def Iss.cond (r : Iss) : Bool := r.u.g == Guard.always || r.act != 0

/-- The address a class C instruction names: its own word + 8 × REL32 (R80). -/
def Iss.target (r : Iss) (rel : BitVec 32) : DWord :=
  r.c.wordAddr r.c.idx + (rel.signExtend 64 <<< 3)

/-- The train after a transfer: sources freed, the clause ended, its next header at `pc` (R44). -/
def Iss.jump (r : Iss) (pc : DWord) (yields : Bool) (f : Train → Train) : Train :=
  (f (r.t.frees r.c r.u)).endClause r.c pc yields

/-- A branch that is taken when its condition holds and `p` does. -/
def branch (s : State) (i : Instr) (rel : BitVec 32) (p : Iss → Bool) : Out :=
  local_ s i fun r => .ok (if r.cond && p r then r.jump (r.target rel) false id else r.doneWith id)

def execBra (g : Guard) (rel : BitVec 32) (s : State) : Out := branch s (.bra g rel) rel fun _ => true

def execBrz (g : Guard) (a : Src) (rel : BitVec 32) (s : State) : Out :=
  branch s (.brz g a rel) rel fun r => r.x0 a == 0

def execBrnz (g : Guard) (a : Src) (rel : BitVec 32) (s : State) : Out :=
  branch s (.brnz g a rel) rel fun r => r.x0 a != 0

def execBrany (g : Guard) (p : BitVec 3) (rel : BitVec 32) (s : State) : Out :=
  branch s (.brany g p rel) rel fun r => r.act &&& r.t.pred p.toNat != 0

/-- Not taken when no lane is active, even under PRED = always (R81). -/
def execBrall (g : Guard) (p : BitVec 3) (rel : BitVec 32) (s : State) : Out :=
  branch s (.brall g p rel) rel fun r => r.act != 0 && r.act &&& r.t.pred p.toNat == r.act

/-- The link is the next header (R82). -/
def execCall (g : Guard) (n : BitVec 6) (rel : BitVec 32) (s : State) : Out :=
  local_ s (.call g n rel) fun r =>
    .ok (if r.cond then r.jump (r.target rel) false fun t => t.setPair n.toNat r.c.nextHdr
         else r.doneWith id)

/-- Jump to a scalar pair; a misaligned address traps with itself as value (R82). -/
def jumpPair (s : State) (i : Instr) (n : BitVec 6) : Out :=
  local_ s i fun r =>
    let a := r.t.pair n.toNat
    if !r.cond then .ok (r.doneWith id)
    else if a &&& 7 = 0 then .ok (r.jump a false id)
    else .error (.trap eMisalign none (some a))

def execRet (g : Guard) (n : BitVec 6) (s : State) : Out := jumpPair s (.ret g n) n

def execJmpi (g : Guard) (n : BitVec 6) (s : State) : Out := jumpPair s (.jmpi g n) n

/-- Count down and branch while non-zero (R83). -/
def execLoop (g : Guard) (n : BitVec 6) (rel : BitVec 32) (s : State) : Out :=
  local_ s (.loop g n rel) fun r =>
    let x := r.t.sreg n.toNat - 1
    .ok (if !r.cond then r.doneWith id
         else if x = 0 then r.doneWith fun t => t.setS n.toNat x
         else r.jump (r.target rel) false fun t => t.setS n.toNat x)

/-- End the active lanes; the train goes on at its next clause, or begins to end when no lane is left, and leaves trap mode with that (R84). Inside a bracket it raises E_TX_MISUSE (R228). -/
def execExit (g : Guard) (s : State) : Out :=
  local_ s (.exit g) fun r =>
    if r.t.inTx then .error (.trap eTxMisuse none none)
    else if !r.cond then .ok (r.doneWith id)
    else .ok (r.jump r.c.nextHdr false fun t =>
      let live := t.live &&& ~~~r.act
      { t with live := live, em := t.em &&& ~~~r.act, ending := live = 0,
               trap := { t.trap with tm := t.trap.tm && live != 0 } })

/-- End the clause; the port chooses again (R86). -/
def execYield (g : Guard) (s : State) : Out :=
  local_ s (.yield g) fun r =>
    .ok (if r.cond then r.jump r.c.nextHdr true id else r.doneWith id)

/-- A software trap: ZS_TVAL is n, ZS_TLANES the active lanes (R86). -/
def softTrap (s : State) (i : Instr) (cause : Byte) (n : BitVec 8) : Out :=
  local_ s i fun r =>
    if r.cond then .error (.trap cause (some r.act) (some (n.setWidth 64))) else .ok (r.doneWith id)

def execTrap (g : Guard) (n : BitVec 8) (s : State) : Out := softTrap s (.trap g n) eSwTrap n

def execBrk (g : Guard) (n : BitVec 8) (s : State) : Out := softTrap s (.brk g n) eBreak n

def execNop (g : Guard) (s : State) : Out := local_ s (.nop g) fun r => .ok (r.doneWith id)

end Sys2Proof.Machine
end

