-- ==== Sys2Proof/Machine/Translate.lean ====
section
/-! DEFINITION. The translation engine: page tables, the physical map, the four levels of cached translations, walks, translation faults, the fault buffer and the access counters (R149 to R162, R364). -/

namespace Sys2Proof.Machine

variable {s : State}

/-! ## The physical map (R151, R364, R377) -/

/-- What a physical address is. -/
inductive Region where
  | gddr
  | wspace
  | mmio
  | fabric
  | none
  deriving DecidableEq, Repr

/-- In reduced service only column 0's 32 GiB are populated (R377). -/
def regionOf (reduced : Bool) (pa : Nat) : Region :=
  if pa < (if reduced then 0x800000000 else 0x2000000000) then .gddr
  else if 0x4000000000 ≤ pa && pa < 0x4400000000 then .wspace
  else if 0xF000000000 ≤ pa && pa < 0xF040000000 then .mmio
  else if 0x8000000000000 ≤ pa && pa < 0x10000000000000 then .fabric
  else .none

def State.reduced (s : State) : Bool := s.mg.svc == 3

def State.region (s : State) (pa : Nat) : Region := regionOf s.reduced pa

/-- The attribute that an access through a translation has: through a switch that keeps no directory, every page of the fabric window is UNCACHED, which is no conflict of cache policy (R119, R372). -/
def State.attrOf (s : State) (e : Tlb) (pa : Nat) : Attr :=
  if !s.mg.shared && s.region pa == .fabric && e.attr == .cached then .uncached else e.attr

/-- Endpoint of a fabric address (R372). -/
def endpointOf (pa : Nat) : Nat := bits pa 41 10

/-- The address lies in the range of a host whose link is down (R374). -/
def State.hostGone (s : State) (pa : Nat) : Bool :=
  s.region pa == .fabric && s.mg.hostsDown.contains (endpointOf pa)

/-! ## Write times, owners and watches (R126, R142, R144) -/

def State.line (s : State) (pa : Nat) : Line := AMap.getD s.lines (pa / 1024) ⟨0, 0⟩

/-- The core that owns the sector of an address. -/
def State.ownerOf (s : State) (pa : Nat) : Option Nat := (AMap.get? s.owners (pa / 128)).map (·.core)

/-- End the ownership of a sector (R144); owned data already stands in memory (log entry 5). -/
def disown (sector : Nat) : M s Unit := do
  let t ← now
  match AMap.get? t.owners sector with
  | none => pure ()
  | some o =>
    let k := o.core
    let c := t.core k
    upd (.core k { c with owned := c.owned.filter (· != sector) })
    upd (.owners (AMap.erase t.owners sector))

/-- Any other agent's access recalls the sector; `by_` is the accessing core, if it is one (R144). -/
def recallOwner (by_ : Option Nat) (pa : Nat) : M s Unit := do
  let t ← now
  match t.ownerOf pa with
  | none => pure ()
  | some k => if by_ = some k then pure () else disown (pa / 128)

/-- Register a sector as owned by a core, for a context that named it by a VA; the core's leased copy of the line goes, so that no load falls back on it once ownership ends (R130); past 1,024 owned sectors the least recently used is given up (R144). -/
def takeOwn (k ctx va pa : Nat) : M s Unit := do
  recallOwner (some k) pa
  let t ← now
  let c := t.core k
  let sector := pa / 128
  upd (.owners (AMap.set t.owners sector ⟨k, ctx, (t.ctx ctx).xtag, va⟩))
  upd (.core k { c with owned := c.owned.filter (· != sector) ++ [sector], l1 := AMap.erase c.l1 (pa / 1024) })
  if 1024 < (c.owned.filter (· != sector)).length + 1 then
    match c.owned.filter (· != sector) with
    | old :: _ => disown old
    | [] => pure ()
  else pure ()

/-- A use of an owned sector makes it the most recently used. -/
def touchOwn (k pa : Nat) : M s Unit := do
  let t ← now
  if t.ownerOf pa = some k then
    let c := t.core k
    upd (.core k { c with owned := c.owned.filter (· != pa / 128) ++ [pa / 128] })
  else pure ()

/-- Mark the watches a performed write meets: same sector, greater wts (R142). -/
def hitWatches (sector wts : Nat) : M s Unit := do
  let t ← now
  updAll ((t.trains.filter fun kv =>
      match kv.2.watch with
      | some w => w.sector == sector && w.wts < wts && !w.hit
      | none => false).map fun kv =>
    .train kv.1 (some { kv.2 with watch := kv.2.watch.map fun w => { w with hit := true } }))

/-- Take a write time on the line of an address: greater than every lease granted on it, its previous wts and `floor` (R126, R127). -/
def takeWts (pa floor : Nat) : M s Nat := do
  let t ← now
  let l := t.line pa
  let w := max (max l.wts l.rts + 1) (floor + 1)
  upd (.line (pa / 1024) { l with wts := w })
  hitWatches (pa / 128) w
  pure w

/-- Perform a write of `n` bytes at its serving point: other owners are recalled, a write time is taken, the bytes are written. The bytes lie in one sector. -/
def homeWrite (by_ : Option Nat) (floor pa n v : Nat) : M s Nat := do
  recallOwner by_ pa
  let w ← takeWts pa floor
  putMem pa n v
  pure w

/-- Read `n` bytes of one sector at their serving point; another owner than core `by_` is recalled. -/
def homeRead (by_ : Option Nat) (pa n : Nat) : M s Nat := do
  recallOwner by_ pa
  let t ← now
  pure (Bytes.read t.mem pa n)

/-! ## Page tables (R149, R150) -/

/-- A leaf found by a walk: the entry's own address, the entry, and whether it maps 512 MiB. -/
structure Leaf where
  at_ : Nat
  e : Nat
  big : Bool
  deriving DecidableEq, Repr

inductive WalkRes where
  | leaf (l : Leaf)
  | absent_
  | malformed
  deriving DecidableEq, Repr

def pteV (e : Nat) : Bool := bitAt e 0
def pteR (e : Nat) : Bool := bitAt e 1
def pteW (e : Nat) : Bool := bitAt e 2
def pteX (e : Nat) : Bool := bitAt e 3
def ptePa (e : Nat) : Nat := bits e 16 36 * 65536
def pteLeaf (e : Nat) : Bool := bitAt e 52
def pteA (e : Nat) : Bool := bitAt e 53
def pteD (e : Nat) : Bool := bitAt e 54
def pteAttr (e : Nat) : Nat := bits e 55 2
def ptePlace (e : Nat) : Nat := bits e 57 2
def pteMig (e : Nat) : Bool := bitAt e 59

/-- A leaf's fields are malformed (R150). -/
def leafBad (e : Nat) (big : Bool) : Bool :=
  bits e 60 4 != 0 || pteAttr e == 3 || (big && bits e 16 13 != 0) || (pteW e && !pteR e)

/-- Walk the tables of a tree for a VA (R149). -/
def walkTable (mem : Bytes) (root va : Nat) : WalkRes :=
  let a0 := root + 8 * bits va 42 13
  let e0 := Bytes.read mem a0 8
  if !pteV e0 then .absent_
  else if pteLeaf e0 then .malformed
  else
    let a1 := ptePa e0 + 8 * bits va 29 13
    let e1 := Bytes.read mem a1 8
    if !pteV e1 then .absent_
    else if pteLeaf e1 then (if leafBad e1 true then .malformed else .leaf ⟨a1, e1, true⟩)
    else
      let a2 := ptePa e1 + 8 * bits va 16 13
      let e2 := Bytes.read mem a2 8
      if !pteV e2 then .absent_
      else if !pteLeaf e2 || leafBad e2 false then .malformed
      else .leaf ⟨a2, e2, false⟩

def attrOf (n : Nat) : Attr :=
  match n with
  | 0 => .cached
  | 1 => .uncached
  | _ => .device

/-- Access kinds (Table 8-3): bit 0 read, bit 1 write, bit 2 execute. -/
def kRead : BitVec 3 := 1
def kWrite : BitVec 3 := 2
def kExec : BitVec 3 := 4
def kRw : BitVec 3 := 3

/-- The rights a leaf or a cached translation gives cover an access. -/
def rightsOk (r w x : Bool) (kind : BitVec 3) : Bool :=
  (!kind.getLsbD 0 || r) && (!kind.getLsbD 1 || w) && (!kind.getLsbD 2 || x)

/-- Set A, and D for a write, by an indivisible OR at the entry (R152). -/
def setAD (l : Leaf) (kind : BitVec 3) : M s Nat := do
  let e := l.e ||| 2 ^ 53 ||| (if kind.getLsbD 1 then 2 ^ 54 else 0)
  if e = l.e then pure l.e
  else do
    let _ ← homeWrite none 0 l.at_ 8 e
    pure e

/-- The translation a leaf gives. -/
def tlbOf (tag : BitVec 16) (va : Nat) (e : Nat) (big : Bool) : Tlb :=
  let size := if big then 2 ^ 29 else 2 ^ 16
  { tag := tag, page := va / size * size, big := big, pa := ptePa e / size * size, attr := attrOf (pteAttr e),
    place := ptePlace e, r := pteR e, w := pteW e, x := pteX e, d := pteD e, mig := pteMig e, count := 0 }

/-! ## Cached translations (R154, R155) -/

def Tlb.size (e : Tlb) : Nat := if e.big then 2 ^ 29 else 2 ^ 16

def Tlb.covers (e : Tlb) (tag : BitVec 16) (va : Nat) : Bool :=
  e.tag == tag && va / e.size * e.size == e.page

def Tlb.paOf (e : Tlb) (va : Nat) : Nat := e.pa + (va - e.page)

def tlbFind (l : List Tlb) (tag : BitVec 16) (va : Nat) : Option Tlb := l.find? fun e => e.covers tag va

/-- Install a translation, keeping the `cap` most recent (log entry 5). -/
def tlbPut (l : List Tlb) (cap : Nat) (e : Tlb) : List Tlb :=
  (e :: l.filter fun x => !(x.tag == e.tag && x.page == e.page && x.big == e.big)).take cap

/-- Drop the translations of a tag that overlap a range. -/
def tlbDrop (l : List Tlb) (tag : BitVec 16) (lo hi : Nat) : List Tlb :=
  l.filter fun e => !(e.tag == tag && e.page < hi && lo < e.page + e.size)

/-- The 64 KiB part of a translation a lane's last-page register keeps. -/
def Tlb.part (e : Tlb) (va : Nat) : Tlb :=
  let page := va / 65536 * 65536
  { e with page := page, big := false, pa := e.pa + (page - e.page) }

def State.tagOf (s : State) (c : Nat) : BitVec 16 := (s.ctx c).xtag

def State.l2Of (s : State) (k : Nat) : List Tlb := AMap.getD s.l2 k []
def State.l3Of (s : State) (k : Nat) : List Tlb := AMap.getD s.l3 k []

/-- Install in the L3 TLB of a die; an entry that stands there already keeps its access count (R161). -/
def installL3 (die : Nat) (e : Tlb) : M s Unit := do
  let t ← now
  let old := t.l3Of die
  let e3 := match old.find? fun x => x.tag == e.tag && x.page == e.page && x.big == e.big with
    | some x => { e with count := x.count }
    | none => e
  upd (.l3 die (tlbPut old 65536 e3))

/-- Install in the three TLBs of a core. -/
def installTlb (core : Nat) (e : Tlb) : M s Unit := do
  let t ← now
  let c := t.core core
  let cl := t.clusterOf core
  upd (.core core { c with tlb := tlbPut c.tlb 64 e })
  upd (.l2 cl (tlbPut (t.l2Of cl) 4096 e))
  installL3 (dieOf core) e

/-- What a lookup of a lane finds. -/
inductive XRes where
  | ok (e : Tlb)
  | fault (f : XlFault)
  | miss
  deriving DecidableEq, Repr

/-- Look a VA up in a list of caches: a hit without the right is a fault, a write that finds D clear walks again (R152, R156). -/
def lookupIn (found : Option Tlb) (kind : BitVec 3) (page : Nat) : XRes :=
  match found with
  | none => .miss
  | some e =>
    if !rightsOk e.r e.w e.x kind then .fault ⟨page, true, false, 0⟩
    else if kind.getLsbD 1 && !e.d then .miss
    else .ok e

/-- The first level that holds a VA: the lane's last-page register, then the core's L1, the cluster's L2, the die's L3 (R155). A hit fills no level above it (log entry 65). -/
def State.findTlb (s : State) (last : Option Tlb) (core : Nat) (tag : BitVec 16) (va : Nat) : Option Tlb :=
  ((last.filter fun e => e.covers tag va).or (tlbFind (s.core core).tlb tag va)).or
    ((tlbFind (s.l2Of (s.clusterOf core)) tag va).or (tlbFind (s.l3Of (dieOf core)) tag va))

/-- Two faults are the same finding of one page. -/
def XlFault.same (a b : XlFault) : Bool := a.page == b.page && a.present == b.present && a.malformed == b.malformed

/-- Translate one lane of a train at issue; a fault its walk has already met is kept in `xl`. -/
def State.laneX (s : State) (t : Train) (L va : Nat) (kind : BitVec 3) : XRes :=
  let page := va / 65536 * 65536
  match t.xl.find? fun f => f.page == page with
  | some f => .fault f
  | none => lookupIn (s.findTlb (t.lastPage.at L) (s.coreOf t) (s.tagOf (s.ctxOf t)) va) kind page

/-- The last-page registers of lanes give up a page whose translation a fault removes (R156). -/
def Train.dropPages (t : Train) (lanes : Mask) (tag : BitVec 16) (page : Nat) : Train :=
  { t with lastPage := perLane fun L =>
      if lanes.getLsbD L then (t.lastPage.at L).filter fun e => !e.covers tag page else t.lastPage.at L }

/-- Remove a page's translation from the path of a core (R156). -/
def dropPath (core : Nat) (tag : BitVec 16) (page : Nat) : M s Unit := do
  let t ← now
  let c := t.core core
  let cl := t.clusterOf core
  let die := dieOf core
  upd (.core core { c with tlb := tlbDrop c.tlb tag page (page + 65536) })
  upd (.l2 cl (tlbDrop (t.l2Of cl) tag page (page + 65536)))
  upd (.l3 die (tlbDrop (t.l3Of die) tag page (page + 65536)))

/-! ## Fault reports (R158) -/

/-- A report: the page, the access, how many instructions and lanes, and the first train. -/
structure Report where
  page : Nat
  kind : BitVec 3
  nopark : Bool
  malformed : Bool
  present : Bool
  core : Nat
  count : Nat
  dispatch : Nat
  wheel : Nat
  train : Nat
  lanes : Nat
  deriving DecidableEq, Repr

def flagByte (nopark malformed present : Bool) : Byte :=
  BitVec.ofNat 8 ((if nopark then 1 else 0) + (if malformed then 2 else 0) + (if present then 4 else 0))

/-- Merge a report into an entry. -/
def FbEntry.merge (e : FbEntry) (r : Report) : FbEntry :=
  let f := flagByte r.nopark r.malformed r.present
  { e with
    kind := e.kind ||| r.kind.setWidth 8
    flags := (e.flags &&& f &&& 1) ||| ((e.flags ||| f) &&& 6)
    count := BitVec.ofNat 32 (min (e.count.toNat + r.count) 0xFFFFFFFF)
    lanes := BitVec.ofNat 16 (min (e.lanes.toNat + r.lanes) 0xFFFF) }

def FbEntry.ofReport (r : Report) (seq : Word) : FbEntry :=
  { page := BitVec.ofNat 64 r.page, kind := r.kind.setWidth 8, flags := flagByte r.nopark r.malformed r.present,
    core := BitVec.ofNat 16 r.core, count := BitVec.ofNat 32 (min r.count 0xFFFFFFFF),
    dispatch := BitVec.ofNat 32 r.dispatch, wheel := BitVec.ofNat 32 r.wheel,
    train := BitVec.ofNat 8 r.train, lanes := BitVec.ofNat 16 (min r.lanes 0xFFFF), seq := seq }

/-- The slot of the unconsumed entry of a page. -/
def Context.fbSlot (c : Context) (page : Nat) : Option Nat :=
  ((List.range (c.fbTail - c.fbHead).toNat).map fun k => ((c.fbHead.toNat + k) % 8)).find? fun i =>
    match AMap.get? c.fb i with
    | some e => e.page.toNat == page
    | none => false

/-- Merge into the page's entry, if there is one. -/
def Context.mergeFault (c : Context) (r : Report) : Context :=
  match c.fbSlot r.page with
  | none => c
  | some i =>
    match AMap.get? c.fb i with
    | none => c
    | some e => { c with fb := AMap.set c.fb i (e.merge r) }

/-- A report that reaches the fault buffer: merged, appended or dropped; SEQ counts every report (R158). -/
def Context.report (c : Context) (r : Report) : Context :=
  let c := { c with fbSeq := c.fbSeq + 1 }
  if (c.fbSlot r.page).isSome then c.mergeFault r
  else if (c.fbTail - c.fbHead).toNat = 8 then
    { c with fbDropped := true, fbDrops := if c.fbDrops = 0xFFFF then c.fbDrops else c.fbDrops + 1 }
  else { c with fb := AMap.set c.fb (c.fbTail.toNat % 8) (FbEntry.ofReport r c.fbSeq), fbTail := c.fbTail + 1 }

/-- Report a fault through the cluster's marks (R158): on a marked page it only adds to the report made. -/
def reportFault (cluster : Option Nat) (ctx : Nat) (r : Report) : M s Unit := do
  let t ← now
  match cluster with
  | none => upd (.ctx ctx ((t.ctx ctx).report r))
  | some cl =>
    let m : Mark := ⟨cl, ctx, r.page⟩
    if t.marks.contains m then upd (.ctx ctx ((t.ctx ctx).mergeFault r))
    else do
      upd (.marks (t.marks ++ [m]))
      upd (.ctx ctx ((t.ctx ctx).report r))

def laneCount (m : Mask) : Nat := (lanesOf m).length

/-- The low half of a train's dispatch submission number, and its wheel index (Table 8-3). -/
def State.subOf (s : State) (t : Train) : Nat :=
  match s.dispatchOf t with
  | some d => d.sub % 2 ^ 32
  | none => 0
def State.wheelIndex (s : State) (t : Train) : Nat :=
  match s.wheelOf t with
  | some w => w.index
  | none => 0

/-- The report of a train's lanes. -/
def trainReport (s : State) (t : Train) (f : XlFault) (kind : BitVec 3) (nopark : Bool) (lanes : Nat) : Report :=
  { page := f.page, kind := kind, nopark := nopark, malformed := f.malformed, present := f.present,
    core := s.coreOf t, count := 1, dispatch := s.subOf t, wheel := s.wheelIndex t, train := t.index, lanes := lanes }

/-! ## Walks (R155, R167) -/

/-- A lookup joins a walk: behind those that came before, but ahead of the first one when both came at one time and its train index is the lower (R167). -/
def Walk.join (x : State) (v : Walk) (w : Waiter) : Walk :=
  match v.waiters with
  | y :: l =>
    if v.born = x.mg.refreshNs && w.index < y.index then { v with waiters := w :: y :: l }
    else { v with waiters := v.waiters ++ [w] }
  | [] => { v with waiters := [w] }

/-- Join the walk of a page that another lookup of the cluster has started, whatever its access kind, or ask for one (R167). -/
def requestWalk (id : Nat) (t : Train) (page : Nat) (kind : BitVec 3) (lanes : Mask)
    (nopark stays : Bool) : M s Unit := do
  let x ← now
  let core := x.coreOf t
  let cl := x.clusterOf core
  let ctx := x.ctxOf t
  let w : Waiter := { train := id, lanes := lanes, kind := kind, nopark := nopark, stays := stays, core := core,
                      dispatch := x.subOf t, wheel := x.wheelIndex t, index := t.index }
  match x.walks.find? fun kv => kv.2.cluster == cl && x.tagOf kv.2.ctx == x.tagOf ctx && kv.2.page == page with
  | some (k, v) =>
    if v.waiters.any fun y => y.train == id && y.stays && stays then pure ()
    else upd (.walk k (some (v.join x w)))
  | none => do
    let k ← freshId
    upd (.walk k (some { cluster := cl, die := dieOf core, ctx := ctx, page := page, born := x.mg.refreshNs,
                         running := false, waiters := [w] }))

/-! ## Checks of a translated lane (R117, R151, R153, R364, R374) -/

/-- The trap a translated lane meets, if any: space, device, placement, host. -/
def accessCause (s : State) (priv allowDevice : Bool) (e : Tlb) (va : Nat) : Option Byte :=
  let pa := e.paOf va
  match s.region pa with
  | .wspace => some ePerm
  | .none => some ePerm
  | rg =>
    if rg == .mmio && !priv then some ePerm
    else if e.attr == .device && !allowDevice then some ePerm
    else if e.place == 3 || ((e.place == 2) != (rg == .fabric)) then some ePlacement
    else if s.hostGone pa then some eHostGone
    else none

/-- A dispatch with FLAGS.PRIV: it may reach MMIO (R364). -/
def State.privDispatch (s : State) (t : Train) : Bool :=
  match s.dispatchOf t with
  | some d => d.launch.priv
  | none => false

/-! ## Access counters (R161) -/

/-- Count one sector access of a core's lanes that missed its L1 against the die's L3 entry of a counted page (log entry 79). -/
def chimeCount (core : Nat) (tag : BitVec 16) (ctx va : Nat) : M s Unit := do
  let t ← now
  let die := dieOf core
  let l := t.l3Of die
  match tlbFind l tag va with
  | none => pure ()
  | some e =>
    let th := (t.ctx ctx).migthresh.toNat
    if !e.mig || th = 0 then pure ()
    else
      let hit := e.count + 1 = th
      let e' := { e with count := if hit then 0 else (e.count + 1) % 65536 }
      do
        upd (.l3 die (l.map fun x => if x == e then e' else x))
        if hit then
          upd (.chime { t.chime with coming := t.chime.coming ++
            [(die, tag, BitVec.ofNat 64 (va / 65536 * 65536))] })
        else pure ()

/-- Count the sector accesses among those of an access that miss the core's L1, each sector once (R161). -/
def chimeAll (core ctx : Nat) (acc : List (Nat × Nat)) : M s Unit := do
  let t ← now
  ((acc.map fun a => a.2 / 128).dedup).forM fun k =>
    match acc.find? fun a => a.2 / 128 == k with
    | some a => chimeCount core (t.tagOf ctx) ctx a.1
    | none => pure ()

/-! ## Engine translation -/

/-- The walkers of a die are taken by earlier requests, or the context holds its 128 of them while another's request waits (R155). -/
def walkersBusy (t : State) (die ctx : Nat) : Bool :=
  let mine := t.walks.filter fun kv => kv.2.die == die
  256 ≤ mine.length || (128 ≤ (mine.filter fun kv => kv.2.running && kv.2.ctx == ctx).length &&
    mine.any fun kv => !kv.2.running && kv.2.ctx != ctx)

/-- Translate for an engine acting for a context. An engine looks in the L3 TLB of its C-die alone, and its walk takes a free walker and ends within the step; it waits while no walker is free (log entry 65). A fault, that of a cached translation without the right too, holds the operation (R156, R254). -/
def walkNow (core ctx va : Nat) (kind : BitVec 3) : M s Tlb := do
  let t ← now
  let tag := t.tagOf ctx
  let page := va / 65536 * 65536
  let walk : M s Tlb := do
    need (!walkersBusy t (dieOf core) ctx) .wait
    match walkTable t.mem (t.ctx ctx).ptbase.toNat va with
    | .absent_ => stop (.held (BitVec.ofNat 64 page) kind false false)
    | .malformed => stop (.held (BitVec.ofNat 64 page) kind false true)
    | .leaf l =>
      if rightsOk (pteR l.e) (pteW l.e) (pteX l.e) kind then do
        let e ← setAD l kind
        let x := tlbOf tag va e l.big
        installL3 (dieOf core) x
        pure x
      else stop (.held (BitVec.ofNat 64 page) kind true false)
  match tlbFind (t.l3Of (dieOf core)) tag va with
  | some e =>
    if !rightsOk e.r e.w e.x kind then stop (.held (BitVec.ofNat 64 page) kind true false)
    else if kind.getLsbD 1 && !e.d then walk
    else pure e
  | none => walk

end Sys2Proof.Machine
end

