-- ==== Sys2Proof/Machine/Mem.lean ====
section
/-! DEFINITION. Class M at issue: addresses and checks, global loads and stores into their queues, local and weight store, atomics, fences, barriers, monitors, prefetch and ownership; and the transactional loads and stores (R114 to R145, R225 to R228). -/

namespace Sys2Proof.Machine

variable {s : State}

/-! ## Issuing in the monad -/

/-- The checks and waits of an instruction, then its train and operands. -/
def beginM (i : Instr) : M s Iss := do
  let t ← now
  match begin_ t i with
  | .error e => stop e
  | .ok r => pure r

/-- Change a train, if it is resident. -/
def modTrain (id : Nat) (f : Train → Train) : M s Unit := do
  let t ← now
  match AMap.get? t.trains id with
  | none => pure ()
  | some x => upd (.train id (some (f x)))

/-- Change the issuing train by `f` and retire its instruction, which has completed. -/
def finishNow (r : Iss) (f : Train → Train) : M s Unit := modTrain r.id fun t => r.retired (f t)

/-- The same for an instruction that writes a register at once: the write stands over the freeing of sources (R48). -/
def finishDst (r : Iss) (f : Train → Train) : M s Unit := modTrain r.id fun t => f (r.retired t)

/-- The Regulator's count of a context starts again: a train of it has issued a clause or ended a wait (R71). -/
def restartCount (c : Nat) : M s Unit := do
  let t ← now
  if (t.ctx c).regulator = 0 then pure () else upd (.ctx c { t.ctx c with regulator := 0 })

/-- The train waits, and its wait has not ended. -/
def Train.waiting (t : Train) : Bool :=
  match t.wait with
  | some w => !w.woken
  | none => false

/-- End the waits of the trains that satisfy a test (R71). -/
def wakeTrains (f : Nat → Train → Bool) : M s Unit := do
  let t ← now
  let l := t.trains.filter fun kv => kv.2.waiting && f kv.1 kv.2
  updAll (l.map fun kv => .train kv.1 (some { kv.2 with wait := kv.2.wait.map fun w => { w with woken := true } }))
  ((l.map fun kv => t.ctxOf kv.2).dedup).forM restartCount

/-- A barrier release of a wheel restarts its trains' clause counts (R69). -/
def wheelReleased (wheel : Nat) : M s Unit := do
  let t ← now
  updAll ((t.trains.filter fun kv => kv.2.wheel == wheel).map fun kv => .train kv.1 (some { kv.2 with retired := 0 }))

/-- Acts once for the train: always under PRED = always, else when some lane is active (R116). -/
def Iss.acts (r : Iss) : Bool := r.u.g == Guard.always || r.act != 0

/-- Lanes of an access that acts once, for its translation and its report: the lowest active lane, or lane 0. -/
def Iss.one (r : Iss) : Mask := if r.act = 0 then 1 else maskOf (· == lowest r.act)

/-- Writes of a train that have left its FIFO and are not performed. -/
def Core.writesOf (c : Core) (id : Nat) : List Write := c.writes.filter fun w => w.train == id

/-- An acquire of the train is not yet performed: no later access is (R128). -/
def acqPending (t : Train) (c : Core) (id : Nat) : Bool :=
  t.loads.any (·.acq) || t.fifo.any (·.acq) || (c.writesOf id).any (·.acq)

def RayLane.works (l : RayLane) : Bool := l == .busy

def RayQuery.busyMask (q : RayQuery) : Mask := maskOf fun L => (q.lanes.at L).works

/-- Instructions of the train before `op` wait for its query: a `rywait`, or `ryres` of every lane that is busy. What comes after them is not performed before the query's reads (R333). -/
def Train.queryFirst (t : Train) (op : Nat) : Bool :=
  match t.ray with
  | none => false
  | some q =>
    let ws := q.waits.filter fun w => w.op < op
    !ws.isEmpty && (ws.any (fun w => match w.what with | .pred _ => true | .field _ _ => false) ||
      q.busyMask &&& ~~~(ws.foldl (fun m w => m ||| w.lanes) 0) == 0)

/-- Every earlier load, store and atomic of the train is performed. -/
def quiet (t : Train) (c : Core) (id : Nat) : Bool :=
  t.fifo.isEmpty && t.loads.isEmpty && (c.writesOf id).isEmpty

/-- A `tlbsync` of the train has issued and not completed: no later access is performed before it does (R165). -/
def syncPending (s : State) (id : Nat) : Bool := s.tlbis.any fun i => i.sync && i.train == id

/-- No acquire and no `tlbsync` of the train holds its later accesses back (R128, R165). -/
def accessMay (s : State) (t : Train) (id : Nat) : Bool :=
  !acqPending t (s.core (s.coreOf t)) id && !syncPending s id

/-- Begin a memory access: it waits while an acquire or a `tlbsync` is pending. -/
def beginMem (i : Instr) : M s Iss := do
  let r ← beginM i
  let t ← now
  need (accessMay t r.t r.id) .wait
  pure r

/-- Some part of an instruction is still to come. -/
def partsLeft (t : Train) (c : Core) (op : Nat) : Bool :=
  t.loads.any (·.op == op) || t.fifo.any (·.op == op) || c.writes.any (·.op == op) ||
    (match t.park with | some p => p.op == op | none => false)

/-- Complete an instruction once none of its parts is left (R47). -/
def finishOp (id op : Nat) : M s Unit := do
  let t ← now
  match AMap.get? t.trains id with
  | none => pure ()
  | some x => if partsLeft x (t.core (t.coreOf x)) op then pure () else upd (.train id (some (x.complete op)))

/-! ## Addresses and checks (R116, R117) -/

/-- BASE + s × INDEX + n × OFFSET, modulo 2^64. -/
def memAddr (r : Iss) (n : Nat) (m : Mem) (L : Nat) : DWord :=
  r.d m.base L + (r.x m.index L).setWidth 64 * (if m.scale then BitVec.ofNat 64 n else 1)
    + m.off.signExtend 64 * BitVec.ofNat 64 n

def memAddrB (r : Iss) (n : Nat) (m : MemB) (L : Nat) : DWord :=
  r.d m.base L + m.off.signExtend 64 * BitVec.ofNat 64 n

/-- A translated lane. -/
structure Acc where
  lane : Nat
  va : DWord
  pa : Nat
  e : Tlb
  deriving DecidableEq, Repr

inductive Verdict where
  | good (a : Acc)
  | trap (cause : Byte)
  | fault (f : XlFault)
  | miss
  deriving DecidableEq, Repr

/-- What the checks of R117 say of one lane, alignment and range first. -/
def laneVerdict (s : State) (r : Iss) (n : Nat) (kind : BitVec 3) (allowDevice : Bool) (va : DWord) (L : Nat) :
    Verdict :=
  if va.toNat % n ≠ 0 then .trap eMisalign
  else if 2 ^ 55 ≤ va.toNat then .trap ePerm
  else
    match s.laneX r.t L va.toNat kind with
    | .miss => .miss
    | .fault f => .fault f
    | .ok e =>
      match accessCause s (s.privDispatch r.t) allowDevice e va.toNat with
      | some c => .trap c
      | none => .good ⟨L, va, e.paOf va.toNat, e⟩

/-- Lanes that satisfy a test. -/
def lanesWhere (vs : List (Nat × DWord × Verdict)) (f : DWord → Verdict → Bool) : Mask :=
  maskOf fun L => vs.any fun x => x.1 == L && f x.2.1 x.2.2

/-- Raise a cause for the lanes of a mask, with the address of the lowest (R117). -/
def raiseLanes {α : Type} (cause : Byte) (m : Mask) (addr : Nat → DWord) : M s α :=
  stop (.trap cause (some m) (some (addr (lowest m % 32))))

/-- Ask for the walks of the missing lanes, one for each page. -/
def askWalks (r : Iss) (kind : BitVec 3) (nopark stays : Bool) (vs : List (Nat × DWord × Verdict)) : M s Unit := do
  let miss := vs.filter fun x => x.2.2 == .miss
  let pages := (miss.map fun x => x.2.1.toNat / 65536 * 65536).dedup
  pages.forM fun p =>
    requestWalk r.id r.t p kind (lanesWhere miss fun va _ => va.toNat / 65536 * 65536 == p) nopark stays

/-- Report the faults that a cached translation showed at this issue, and drop the translation, from the last-page registers of the faulting lanes too; those a walk met are reported already (R156, R158). -/
def reportHits (r : Iss) (kind : BitVec 3) (nopark : Bool) (vs : List (Nat × DWord × Verdict)) : M s Unit := do
  let fs := (vs.filterMap fun x => match x.2.2 with
    | .fault f => if r.t.xl.any f.same then none else some f
    | _ => none).dedup
  let t ← now
  let core := t.coreOf r.t
  let tag := t.tagOf (t.ctxOf r.t)
  fs.forM fun f => do
    let lanes := lanesWhere vs fun _ v => v == .fault f
    modTrain r.id fun t => { t.dropPages lanes tag f.page with xl := t.xl ++ [{ f with lanes := lanes }] }
    dropPath core tag f.page
    reportFault (some (t.clusterOf core)) (t.ctxOf r.t) (trainReport t r.t f kind nopark (laneCount lanes))

/-- All checks of an access of `lanes`: it raises, or asks for walks and answers none, or answers the translated lanes and the mask of the faulted ones. -/
def settle (r : Iss) (n : Nat) (kind : BitVec 3) (allowDevice : Bool) (addr : Nat → DWord) (lanes : Mask) :
    M s (Option (List Acc × Mask)) := do
  let t ← now
  let vs := (lanesOf lanes).map fun L => (L, addr L, laneVerdict t r n kind allowDevice (addr L) L)
  let mis := lanesWhere vs fun _ v => v == .trap eMisalign
  let range := lanesWhere vs fun va _ => 2 ^ 55 ≤ va.toNat
  if mis ≠ 0 then raiseLanes eMisalign mis addr
  else if range ≠ 0 then raiseLanes ePerm range addr
  else if vs.any fun x => x.2.2 == .miss then do
    askWalks r kind false true vs
    pure none
  else
    match vs.find? fun x => match x.2.2 with | .trap _ => true | _ => false with
    | some (_, _, .trap c) => raiseLanes c (lanesWhere vs fun _ v => v == .trap c) addr
    | _ => do
      reportHits r kind false vs
      pure (some (vs.filterMap fun x => match x.2.2 with | .good a => some a | _ => none,
                  lanesWhere vs fun _ v => match v with | .fault _ => true | _ => false))

/-- Each translated lane's last-page register takes its page; a faulted lane's is dropped (R155, R156). -/
def lastPages (t : Train) (goods : List Acc) (faulted : Mask) : Train :=
  { t with lastPage := perLane fun L =>
      match goods.find? fun a => a.lane == L with
      | some a => some (a.e.part a.va.toNat)
      | none => if faulted.getLsbD L then none else t.lastPage.at L }

/-- Conflicting retention counts once per instruction, saturating (R119). -/
def countConf (r : Iss) (b : Bool) : M s Unit := do
  if b && !r.conf then do
    let t ← now
    let c := t.ctxOf r.t
    let x := t.ctx c
    upd (.ctx c { x with cpolconf := if x.cpolconf = 0xFFFFFFFF then x.cpolconf else x.cpolconf + 1 })
  else pure ()

/-- The train parked for lanes that met a translation fault at this issue, and for those that still wait (R157). -/
def Train.parked (t : Train) (r : Iss) (op : Nat) (faulted did : Mask) (conf : Bool) : Train :=
  { t with
    xl := []
    park := some { lanes := faulted ||| r.rest, resume := 0, faulted := true, atHeader := false, op := op,
                   pages := (match t.park with | some p => p.pages | none => []) ++ t.xl.map (·.page), did := did,
                   conf := conf } }

/-- Make the access for the translated lanes and park the train for the faulted ones; the instruction retires when none is left (R157, R168). `conf` says that it has conflicting retention. -/
def makeAccess (r : Iss) (dests : List Reg) (goods : List Acc) (faulted : Mask) (conf : Bool)
    (add : Nat → Nat → Train → Train) : M s Unit := do
  countConf r conf
  let op ← if r.op = 0 then freshId else pure r.op
  let part ← freshId
  modTrain r.id fun t =>
    let t := lastPages t goods faulted
    let t := if r.op = 0 then r.started op dests [] t else t
    let t := if goods.isEmpty then t else add op part t
    if faulted ||| r.rest = 0 then r.retired t
    else t.parked r op faulted (r.did ||| maskOf fun L => goods.any (·.lane == L)) (r.conf || conf)
  finishOp r.id op

/-- Some lane's page conflicts with the retention asked; behind a switch that keeps no directory, no page of the fabric window does (R119, R372). -/
def conflicts (t : State) (pol : Cpol) (goods : List Acc) : Bool :=
  (pol == .stream || pol == .keep) && goods.any fun a => a.e.attr != .cached && (t.mg.shared || t.region a.pa != .fabric)

def placeOf (n : Nat) : Place :=
  match n with
  | 0 => .near
  | 1 => .memside
  | _ => .link

/-- A lane's part of an access, with the attribute and the placement of its own page (R133). -/
def accOf (t : State) (a : Acc) (data : BitVec 128) (exp : DWord) : LaneAcc :=
  { lane := a.lane, va := a.va, pa := a.pa, data := data, exp := exp, attr := t.attrOf a.e a.pa, place := placeOf a.e.place }

/-- Some lane's page has an attribute. -/
def Write.has (w : Write) (p : Attr) : Bool := w.acc.any fun a => a.attr == p
def Load.has (l : Load) (p : Attr) : Bool := l.acc.any fun a => a.attr == p

/-! ## Transactional loads and stores (R225 to R228, R239)

A transactional load is performed in the step that issues it, which is one of the moments R225 allows (log entry 11). -/

/-- Granule of a physical address. -/
def granule (pa : Nat) : Nat := pa / 8 * 8

/-- Granules an access touches. -/
def granulesOf (pa n : Nat) : List Nat := if n = 16 then [pa, pa + 8] else [granule pa]

/-- Abort lanes of a train and release their locks (R224). -/
def abortTx (id : Nat) (m : Mask) (c : Abort) : M s Unit := do
  let t ← now
  match AMap.get? t.trains id with
  | none => pure ()
  | some x =>
    upd (.locks (unlockLanes t.locks id (m &&& x.tx.opened)))
    upd (.train id (some (x.abortLanes m c)))

/-- Grant order of a train's token: the earlier holder is the older (R239). -/
def grantOf (t : State) (id : Nat) : Nat :=
  match AMap.get? t.trains id with
  | some x => (t.ctx (t.ctxOf x)).tokenGrant
  | none => 0

/-- What a transactional touch of a granule by a lane meets at the Detent: nothing that stops it, a younger holder's lock that it breaks, or a lock that turns it away (R239). -/
inductive Touch where
  | free
  | breaks (k : Lock)
  | blocked
  deriving DecidableEq, Repr

def touchOf (t : State) (id : Nat) (x : Train) (L g : Nat) : Touch :=
  match AMap.get? t.locks g with
  | none => .free
  | some k =>
    if k.train = id && k.lane = L then .free
    else if x.tx.fb && k.train ≠ id && grantOf t id < grantOf t k.train then .breaks k
    else .blocked

/-- A lane touches a granule: a holder's lane takes the lock; the answer is whether it goes on. -/
def touchGranule (id L g : Nat) : M s Bool := do
  let t ← now
  match AMap.get? t.trains id with
  | none => pure false
  | some x =>
    let take : M s Bool := do
      let y ← now
      if x.tx.fb then do
        upd (.locks (AMap.set y.locks g ⟨id, L⟩))
        pure true
      else pure true
    match touchOf t id x L g with
    | .free => take
    | .breaks k => do
      abortTx k.train (maskOf (· == k.lane)) .locked
      take
    | .blocked => pure false

/-- A write touches a byte. -/
def Write.touches (w : Write) (pa : Nat) : Bool := w.acc.any fun a => a.pa ≤ pa && pa < a.pa + w.n

/-- The byte an entry holds at an address: the highest lane's (R118). -/
def Write.byteAt (w : Write) (pa : Nat) : Byte :=
  w.acc.foldl (fun b a => if a.pa ≤ pa && pa < a.pa + w.n then a.data.extractLsb' (8 * (pa - a.pa)) 8 else b) 0

def Write.overlaps (w : Write) (pa n : Nat) : Bool := (List.range n).any fun i => w.touches (pa + i)

/-- A store or atomic of the core that has left its FIFO is still to be performed on some of the bytes. -/
def Core.pending (c : Core) (pa n : Nat) : Bool := c.writes.any fun w => w.overlaps pa n

/-- Where a load's byte is in the FIFO: `none` not there, `some none` held by an atomic, `some (some b)` the byte. -/
def fifoByte (fifo : List Write) (pa : Nat) : Option (Option Byte) :=
  match fifo.reverse.find? fun w => w.touches pa with
  | none => none
  | some w => some (if w.kind == .store then some (w.byteAt pa) else none)

/-- The bytes of a load: all forwarded from the FIFO, none there, or the load waits (R118). -/
inductive FifoRead where
  | clear
  | fwd (v : Nat)
  | waits
  deriving DecidableEq, Repr

def fifoRead (fifo : List Write) (pa n : Nat) : FifoRead :=
  let bs := (List.range n).map fun i => fifoByte fifo (pa + i)
  if bs.all (· == none) then .clear
  else if bs.all fun b => match b with | some (some _) => true | _ => false then
    .fwd (bs.foldr (fun b acc => (match b with | some (some x) => x.toNat | _ => 0) + 256 * acc) 0)
  else .waits

/-- Byte mask of an access of `n` bytes in the granule of `g`. -/
def byteMask (pa n g : Nat) : BitVec 8 :=
  BitVec.ofNat 8 ((List.range 8).foldl (fun m i => if pa ≤ g + i && g + i < pa + n then m + 2 ^ i else m) 0)

/-- A granule needs no read, or is free of unperformed earlier writes of the core, or forwarded. -/
def granuleReady (t : Train) (c : Core) (L : Nat) (want : BitVec 8) (g : Nat) : Bool :=
  AMap.has (t.tx.rs.at L) g || (match AMap.get? (t.tx.ws.at L) g with
    | some (m, _) => want &&& ~~~m == 0
    | none => false) ||
  match fifoRead t.fifo g 8 with
  | .fwd _ => true
  | .waits => false
  | .clear => !c.pending g 8

/-- Bytes of WS over a value: those whose mask bit is set. -/
def overlay (ws : Option (BitVec 8 × DWord)) (v : Nat) : Nat :=
  match ws with
  | none => v
  | some (m, x) =>
    (List.range 8).foldl (fun acc i =>
      acc + (if m.getLsbD i then (x.extractLsb' (8 * i) 8).toNat else v / 256 ^ i % 256) * 256 ^ i) 0

/-- A lane reads bytes of one granule: WS where it holds them all, the recorded value, FIFO, or the serving point; a value read is recorded; none when the lane aborts. -/
def txReadGranule (id L va g : Nat) (want : BitVec 8) : M s (Option Nat) := do
  let ok ← touchGranule id L g
  let t ← now
  match AMap.get? t.trains id with
  | none => pure none
  | some x =>
    let rs := x.tx.rs.at L
    let ws := x.tx.ws.at L
    if !ok then do
      abortTx id (maskOf (· == L)) .locked
      pure none
    else match AMap.get? rs g with
      | some v => pure (some (overlay (AMap.get? ws g) v.toNat))
      | none =>
        match AMap.get? ws g with
        | some (m, v) => if want &&& ~~~m = 0 then pure (some v.toNat) else txRec x rs ws
        | none => txRec x rs ws
where
  /-- Read the granule at its serving point and record it; a ninth granule aborts. -/
  txRec (x : Train) (rs : AMap DWord) (ws : AMap (BitVec 8 × DWord)) : M s (Option Nat) := do
    if 8 ≤ rs.length then do
      abortTx id (maskOf (· == L)) .ovfR
      pure none
    else do
      let t ← now
      let core := t.coreOf x
      let v ← match fifoRead x.fifo g 8 with
        | .fwd v => pure v
        | _ => do
          if t.ownerOf g = some core then pure () else chimeCount core (t.tagOf (t.ctxOf x)) (t.ctxOf x) va
          homeRead (some core) g 8
      let c := (← now).core core
      upd (.core core { c with l1 := AMap.erase c.l1 (g / 1024) })
      modTrain id fun y => { y with tx := { y.tx with
        rs := y.tx.rs.set (L % 32) (AMap.set rs g (BitVec.ofNat 64 v)) (Nat.mod_lt _ (by decide)) } }
      pure (some (overlay (AMap.get? ws g) v))

/-- A lane's transactional load of `n` bytes. -/
def txRead (id L va pa n : Nat) : M s (Option Nat) := do
  if n = 16 then do
    match ← txReadGranule id L va pa 0xFF with
    | none => pure none
    | some lo =>
      match ← txReadGranule id L va (pa + 8) 0xFF with
      | none => pure none
      | some hi => pure (some (lo + 2 ^ 64 * hi))
  else do
    match ← txReadGranule id L va (granule pa) (byteMask pa n (granule pa)) with
    | none => pure none
    | some v => pure (some (bits v (8 * (pa % 8)) (8 * n)))

/-- A lane writes bytes of one granule into its write set. -/
def txWriteGranule (id L g : Nat) (mask : BitVec 8) (v : DWord) : M s Unit := do
  let t ← now
  match AMap.get? t.trains id with
  | none => pure ()
  | some x =>
    if !x.tx.opened.getLsbD L then pure ()
    else if !(← touchGranule id L g) then abortTx id (maskOf (· == L)) .locked
    else
      let ws := x.tx.ws.at L
      let old := (AMap.get? ws g).getD (0, 0)
      if 8 ≤ ws.length && !AMap.has ws g then abortTx id (maskOf (· == L)) .ovfW
      else
        let nv := BitVec.ofNat 64 (overlay (some (mask, v)) old.2.toNat)
        modTrain id fun y => { y with tx := { y.tx with
          ws := y.tx.ws.set (L % 32) (AMap.set ws g (old.1 ||| mask, nv)) (Nat.mod_lt _ (by decide)) } }

/-- A lane's transactional store of `n` bytes. -/
def txWrite (id L pa n : Nat) (v : BitVec 128) : M s Unit := do
  if n = 16 then do
    txWriteGranule id L pa 0xFF (v.extractLsb' 0 64)
    txWriteGranule id L (pa + 8) 0xFF (v.extractLsb' 64 64)
  else
    txWriteGranule id L (granule pa) (BitVec.ofNat 8 ((2 ^ n - 1) * 2 ^ (pa % 8)))
      (BitVec.ofNat 64 (bits v.toNat 0 (8 * n) * 2 ^ (8 * (pa % 8))))

/-- Check and translate the lanes of a transactional access: lanes that fail a check or fault abort with FAULT, lanes on UNCACHED, DEVICE or LINK pages with UNSUPPORTED (R227, R228); none while walks are missing. -/
def txSettle (r : Iss) (n : Nat) (kind : BitVec 3) (addr : Nat → DWord) (lanes : Mask) : M s (Option (List Acc)) := do
  let t ← now
  let vs := (lanesOf lanes).map fun L => (L, addr L, laneVerdict t r n kind true (addr L) L)
  if vs.any fun x => x.2.2 == .miss then do
    askWalks r kind true true vs
    pure none
  else do
    reportHits r kind true vs
    abortTx r.id (lanesWhere vs fun _ v => match v with | .trap _ => true | .fault _ => true | _ => false) .fault
    let goods := vs.filterMap fun x => match x.2.2 with | .good a => some a | _ => none
    let bad (a : Acc) : Bool := t.attrOf a.e a.pa != .cached || a.e.place == 2
    abortTx r.id (maskOf fun L => goods.any fun a => a.lane == L && bad a) .unsupported
    modTrain r.id fun t => { t with tx := { t.tx with
      pages := (t.tx.pages ++ goods.map fun (a : Acc) => a.va.toNat / 65536 * 65536).dedup } }
    pure (some (goods.filter fun a => !bad a))

/-- An unsupported instruction inside a bracket: the lanes abort, and the instruction has the effect it has with no active lane; one that acts once is not executed (R228). -/
def unsupported (r : Iss) (m : Mask) : M s Unit := do
  abortTx r.id m .unsupported
  finishNow r id

/-! ## Global loads and stores (R118 to R120) -/

/-- Extend a loaded value of `n` bytes (R118). -/
def extLoad (e : Ext) (n v : Nat) : BitVec 128 :=
  match e with
  | .zero => BitVec.ofNat 128 v
  | .sign => ((BitVec.ofNat 128 v <<< (128 - 8 * n)).sshiftRight (128 - 8 * n))

def mwExt : MW → Ext
  | .s8 | .s16 => .sign
  | _ => .zero

/-- Write a loaded value into the lanes of a train. -/
def putLoaded (t : Train) (d : Dst) (n : Nat) (lane : Nat) (x : BitVec 128) : Train :=
  t.setDst d (maskOf (· == lane)) 0 (fun _ k => regPart x k) n

/-- The lanes of a load: a uniform load is made for the lowest active lane (R116). -/
def Iss.loadLanes (r : Iss) (d : Dst) : Mask :=
  if d.scalar then (if r.act = 0 then 0 else r.one) else r.act

/-- One lane's step of a transactional load: destination written unless the lane aborts. -/
def txLoadLane (id : Nat) (w : MW) (d : Dst) (a : Acc) : M s Unit := do
  match ← txRead id a.lane a.va.toNat a.pa w.bytes with
  | none => pure ()
  | some v => modTrain id fun t => putLoaded t d w.regs a.lane (extLoad (mwExt w) w.bytes v)

/-- The lanes of a transactional access reach the Detent. Locks that a holder breaks fall first, and the access issues again. Then it waits in place until what its core has already written to a granule that it is to lock is performed, and until `ready`; a lane that a lock turns away waits for nothing (R225, R239, R240; log entry 11). -/
def txEnter (r : Iss) (n : Nat) (goods : List Acc) (ready : Core → Acc → Nat → Bool) : M s Bool := do
  let t ← now
  let c := t.core (t.coreOf r.t)
  let touch (a : Acc) (g : Nat) : Touch := touchOf t r.id r.t a.lane g
  let broken := goods.flatMap fun a => (granulesOf a.pa n).filterMap fun g => match touch a g with
    | .breaks k => some k
    | _ => none
  if broken.isEmpty then do
    need (goods.all fun a =>
      ((granulesOf a.pa n).any fun g => touch a g == .blocked) ||
        (granulesOf a.pa n).all fun g => (!r.t.tx.fb || AMap.has t.locks g || !c.pending g 8) && ready c a g) .wait
    pure true
  else do
    broken.forM fun k => abortTx k.train (maskOf (· == k.lane)) .locked
    pure false

def txLoad (r : Iss) (w : MW) (addr : Nat → DWord) (d : Dst) : M s Unit := do
  match ← txSettle r w.bytes kRead addr (r.loadLanes d) with
  | none => pure ()
  | some goods => do
    if ← txEnter r w.bytes goods (fun c a g => granuleReady r.t c a.lane (byteMask a.pa w.bytes g) g) then do
      modTrain r.id fun t => lastPages t goods 0
      finishNow r id
      goods.forM fun a => txLoadLane r.id w d a
    else pure ()

def txStore (r : Iss) (w : MW) (addr : Nat → DWord) (x : Src) : M s Unit := do
  match ← txSettle r w.bytes kWrite addr r.act with
  | none => pure ()
  | some goods => do
    if ← txEnter r w.bytes goods (fun _ _ _ => true) then do
      modTrain r.id fun t => lastPages t goods 0
      finishNow r id
      goods.forM fun a => txWrite r.id a.lane a.pa w.bytes (srcQ r.t r.c w.regs x a.lane)
    else pure ()

/-- A load waiting to be performed. -/
def mkLoad (y : State) (part op : Nat) (w : MW) (goods : List Acc) (fresh acq : Bool) (ldp : Option (BitVec 3 × Mask))
    (d : Dst) : Load :=
  { id := part, op := op, n := w.bytes, regs := w.regs, ext := mwExt w, acc := goods.map fun a => accOf y a 0 0,
    fresh := fresh, acq := acq, ldp := ldp, dst := d }

def execLd (g : Guard) (sb : Sb) (w : MW) (acq : Bool) (pol : Cpol) (m : Mem) (d : Dst) (s : State) : Out :=
  runM s do
    let r ← beginMem (.ld g sb w acq pol m d)
    let addr := memAddr r w.bytes m
    if r.t.inTx then
      if acq then unsupported r r.act else txLoad r w addr d
    else
      match ← settle r w.bytes kRead (w.bytes ≤ 8) addr (r.loadLanes d) with
      | none => pure ()
      | some (goods, faulted) => do
        let y ← now
        makeAccess r (dstRegs (d, w.regs)) goods faulted (conflicts y pol goods) fun op part t =>
          { t with loads := t.loads ++ [mkLoad y part op w goods (pol == .fresh) acq none d] }

/-- A store FIFO holds 32 entries (R118). -/
def fifoFull (t : Train) : Bool := 32 ≤ t.fifo.length

/-- A FIFO entry of an instruction. -/
def fifoEntry (op part id : Nat) (kind : WKind) (n : Nat) (acc : List LaneAcc)
    (fresh rel acq : Bool) (dst : Option Dst) : Write :=
  { id := part, op := op, train := id, kind := kind, n := n, acc := acc, fresh := fresh, rel := rel, acq := acq, after := [], dst := dst }

def execSt (g : Guard) (sb : Sb) (w : MW) (rel : Bool) (pol : Cpol) (m : Mem) (x : Src) (s : State) : Out :=
  runM s do
    let r ← beginMem (.st g sb w rel pol m x)
    let addr := memAddr r w.bytes m
    if r.t.inTx then
      if rel then unsupported r r.act else txStore r w addr x
    else
      match ← settle r w.bytes kWrite (w.bytes ≤ 8) addr r.act with
      | none => pure ()
      | some (goods, faulted) => do
        let y ← now
        need (goods.isEmpty || (!fifoFull r.t && !r.t.queryFirst y.nextId)) .wait
        makeAccess r [] goods faulted (conflicts y pol goods) fun op part t =>
          { t with fifo := t.fifo ++ [fifoEntry op part r.id .store w.bytes
              (goods.map fun a => accOf y a (srcQ r.t r.c w.regs x a.lane) 0) (pol == .fresh) rel false none] }

/-- Lanes that hit are loaded and clear pN at completion; the rest keep pN and their walks start (R120). -/
def execLdp (p : BitVec 3) (sb : Sb) (w : MW) (pol : Cpol) (m : Mem) (d : Dst) (s : State) : Out :=
  runM s do
    let r ← beginMem (.ldp p sb w pol m d)
    let addr := memAddr r w.bytes m
    if r.t.inTx then unsupported r r.act
    else do
      let t ← now
      let vs := (lanesOf r.act).map fun L => (L, addr L, laneVerdict t r w.bytes kRead false (addr L) L)
      let mis := lanesWhere vs fun _ v => v == .trap eMisalign
      let range := lanesWhere vs fun va _ => 2 ^ 55 ≤ va.toNat
      if mis ≠ 0 then raiseLanes eMisalign mis addr
      else if range ≠ 0 then raiseLanes ePerm range addr
      else
        match vs.find? fun x => match x.2.2 with | .trap _ => true | _ => false with
        | some (_, _, .trap c) => raiseLanes c (lanesWhere vs fun _ v => v == .trap c) addr
        | _ => do
          let goods := vs.filterMap fun x => match x.2.2 with | .good a => some a | _ => none
          let y ← now
          reportHits r kRead true vs
          let hit := maskOf fun L => goods.any (·.lane == L)
          makeAccess r (dstRegs (d, w.regs) ++ [.p p.toNat]) goods 0 (conflicts y pol goods) fun op part t =>
            { t with loads := t.loads ++ [mkLoad y part op w goods (pol == .fresh) false (some (p, hit)) d] }
          askWalks r kRead true false vs

/-! ## Local store (R121, R122, R134, R140, R258) -/

/-- Bytes of the wheel's allotment (R67). -/
def localSize (s : State) (t : Train) : Nat :=
  match s.dispatchOf t with
  | some d => d.launch.local_
  | none => 0

/-- Waiting words of a wheel: address and size of each barrier word and transaction barrier a train waits on. -/
def waitedWords (s : State) (wheel : Nat) : List (Nat × Nat) :=
  s.trains.filterMap fun kv =>
    if kv.2.wheel = wheel then
      match kv.2.wait with
      | some w =>
        if w.woken then none
        else match w.on with
          | .barrier a => some (a, 8)
          | .tb a _ => some (a, 16)
          | _ => none
      | none => none
    else none

/-- The lowest waited-on word that a list of bytes touches. -/
def clobbered (words : List (Nat × Nat)) (bytes : List Nat) : Option Nat :=
  ((words.filter fun w => bytes.any fun b => w.1 ≤ b && b < w.1 + w.2).map (·.1)).min?

/-- The allotment byte of byte `i` of a lane's access: direct, or through the lane-interleaved map (R122). -/
def localByte (inter : Bool) (L a i : Nat) : Nat :=
  if inter then 128 * ((a + i) / 4) + 4 * L + (a + i) % 4 else a + i

/-- Alignment and range checks of a local access (R117, R122). -/
def localCheck (r : Iss) (inter : Bool) (n : Nat) (addr : Nat → DWord) (lanes : Mask) : M s Unit := do
  let t ← now
  let lim := localSize t r.t
  let mis := lanes &&& maskOf fun L => (addr L).toNat % n != 0
  let range := lanes &&& maskOf fun L =>
    let a := (addr L).toNat
    if inter then lim < 128 * ((a + n - 1) / 4) + 128 else lim < a + n
  if mis ≠ 0 then raiseLanes eMisalign mis addr
  else if range ≠ 0 then raiseLanes ePerm range addr
  else pure ()

/-- Read and write a lane's bytes of the allotment. -/
def localGet (b : Bytes) (inter : Bool) (L a n : Nat) : Nat :=
  (List.range n).foldr (fun i acc => (Bytes.get b (localByte inter L a i)).toNat + 256 * acc) 0

def localPut (b : Bytes) (inter : Bool) (L a n v : Nat) : Bytes :=
  (List.range n).foldl (fun b i => Bytes.put b (localByte inter L a i) (BitVec.ofNat 8 (v / 256 ^ i))) b

/-- The wheel of the issuing train. -/
def wheelM (r : Iss) : M s Wheel := do
  let t ← now
  orStop (t.wheelOf r.t) (.fault .noIssuingTrain)

/-- A write by one of `lanes` that touches a waited-on word raises E_BAR_CLOBBER before any write. -/
def clobberCheck (r : Iss) (lanes : Mask) (bytes : Nat → List Nat) : M s Unit := do
  let t ← now
  let words := waitedWords t r.t.wheel
  let bad := lanes &&& maskOf fun L => (clobbered words (bytes L)).isSome
  if bad = 0 then pure ()
  else raiseAt eBarClobber bad (BitVec.ofNat 64 ((clobbered words (bytes (lowest bad % 32))).getD 0))

/-- A local load: performed when it executes. -/
def localLoad (i : Instr) (inter : Bool) (w : MW) (m : Mem) (d : Dst) : M s Unit := do
  let r ← beginMem i
  let addr := memAddr r w.bytes m
  let lanes := r.loadLanes d
  localCheck r inter w.bytes addr lanes
  let wh ← wheelM r
  modTrain r.id fun t =>
    let t := r.retired t
    (lanesOf lanes).foldl (fun t L => putLoaded t d w.regs L
      (extLoad (mwExt w) w.bytes (localGet wh.local_ inter L (addr L).toNat w.bytes))) t

/-- A local store: lanes apply in increasing order. -/
def localStore (i : Instr) (inter : Bool) (w : MW) (m : Mem) (x : Src) : M s Unit := do
  let r ← beginMem i
  let addr := memAddr r w.bytes m
  localCheck r inter w.bytes addr r.act
  clobberCheck r r.act fun L => (List.range w.bytes).map (localByte inter L (addr L).toNat)
  let wh ← wheelM r
  upd (.wheel r.t.wheel (some { wh with local_ := (lanesOf r.act).foldl (fun b L =>
    localPut b inter L (addr L).toNat w.bytes (srcQ r.t r.c w.regs x L).toNat) wh.local_ }))
  finishNow r id

def execLds (g : Guard) (sb : Sb) (w : MW) (m : Mem) (d : Dst) (s : State) : Out :=
  runM s (localLoad (.lds g sb w m d) false w m d)
def execSts (g : Guard) (sb : Sb) (w : MW) (m : Mem) (x : Src) (s : State) : Out :=
  runM s (localStore (.sts g sb w m x) false w m x)
def execLdl (g : Guard) (sb : Sb) (w : MW) (m : Mem) (d : Dst) (s : State) : Out :=
  runM s (localLoad (.ldl g sb w m d) true w m d)
def execStl (g : Guard) (sb : Sb) (w : MW) (m : Mem) (x : Src) (s : State) : Out :=
  runM s (localStore (.stl g sb w m x) true w m x)

/-- The new value of an atomic of `n` bytes (Table 6-3). -/
def aopVal (op : AOp) (n old x : Nat) : Nat :=
  let ty : IntTy := if n = 8 then .s64 else .s32
  let sx := intOf ty (BitVec.ofNat 64 x)
  let so := intOf ty (BitVec.ofNat 64 old)
  match op with
  | .add => (old + x) % 2 ^ (8 * n)
  | .and => old &&& x
  | .or => old ||| x
  | .xor => old ^^^ x
  | .exch => x
  | .min => if sx < so then x else old
  | .max => if so < sx then x else old
  | .fadd => (fadd32 false .rne (BitVec.ofNat 32 old) (BitVec.ofNat 32 x)).toNat

/-- What a write kind leaves at its location. -/
def wkindVal (k : WKind) (n old x exp : Nat) : Nat :=
  match k with
  | .store => x
  | .atom op => aopVal op n old x
  | .cas => if old = exp then x else old

/-- A lane's read-modify-write of bytes of the allotment: the store it leaves, the lanes that have written, the old values. A `cas` whose comparison fails writes nothing (R132). -/
def localRmw (k : WKind) (n : Nat) (addr x exp : Nat → Nat) (acc : Bytes × Mask × List (Nat × Nat)) (L : Nat) :
    Bytes × Mask × List (Nat × Nat) :=
  let old := localGet acc.1 false L (addr L) n
  let olds := acc.2.2 ++ [(L, old)]
  if k == .cas && old != exp L then (acc.1, acc.2.1, olds)
  else (localPut acc.1 false L (addr L) n (wkindVal k n old (x L) (exp L)), acc.2.1 ||| maskOf (· == L), olds)

/-- Read-modify-write of the local store, lane by lane in increasing order (R134); old values go to the destination. A lane that would write a waited-on word traps before any lane's write (R140). -/
def localAtomic (i : Instr) (k : WKind) (w : AW) (m : MemB) (x : Src) (d : Dst) : M s Unit := do
  let r ← beginMem i
  let addr := memAddrB r w.bytes m
  if r.t.inTx then unsupported r r.act
  else do
    localCheck r false w.bytes addr r.act
    let wh ← wheelM r
    let exp (L : Nat) : Nat :=
      if k == .cas then (srcN r.t r.c w.regs (.v (d.idx + BitVec.ofNat 8 w.regs)) L).toNat else 0
    let (b, wrote, olds) := (lanesOf r.act).foldl (localRmw k w.bytes (fun L => (addr L).toNat)
      (fun L => (srcN r.t r.c w.regs x L).toNat) exp) (wh.local_, (0 : Mask), [])
    clobberCheck r wrote fun L => (List.range w.bytes).map (localByte false L (addr L).toNat)
    upd (.wheel r.t.wheel (some { wh with local_ := b }))
    modTrain r.id fun t =>
      olds.foldl (fun t p => putLoaded t d w.regs p.1 (BitVec.ofNat 128 p.2)) (r.retired t)

def execAtoml (g : Guard) (sb : Sb) (op : AOp) (w : AW) (m : MemB) (x : Src) (d : Dst) (s : State) : Out :=
  runM s (localAtomic (.atoml g sb op w m x d) (.atom op) w m x d)
def execCasl (g : Guard) (sb : Sb) (w : AW) (m : MemB) (x : Src) (d : Dst) (s : State) : Out :=
  runM s (localAtomic (.casl g sb w m x d) .cas w m x d)

/-! ## Weight store (R123, R300, R302) -/

/-- Where the refresh clock stands in bank k's period: the window is the first 500 of 64,000 ns. -/
def bankPhase (ns k : Nat) : Nat := (ns + 64000 - 1000 * (k % 64)) % 64000

def bankBusy (ns k : Nat) : Bool := bankPhase ns k < 500

/-- Some byte of a range of the weight store lies in a bank inside its window. -/
def weightStalled (t : State) (at_ n : Nat) : Bool :=
  (List.range (min 65 ((at_ + n + 1023) / 1024 - at_ / 1024))).any fun i =>
    bankBusy t.mg.refreshNs ((at_ / 1024 + i) % 64)

def execLdw (g : Guard) (sb : Sb) (w : MW) (m : Mem) (d : Dst) (s : State) : Out :=
  runM s do
    let r ← beginMem (.ldw g sb w m d)
    let addr := memAddr r w.bytes m
    let lanes := r.loadLanes d
    let t ← now
    let (base, len) := match t.dispatchOf r.t with
      | some x => (x.launch.wsBase, x.launch.wsLen)
      | none => (0, 0)
    let mis := lanes &&& maskOf fun L => (addr L).toNat % w.bytes != 0
    let range := lanes &&& maskOf fun L => 65536 * len < (addr L).toNat + w.bytes
    if mis ≠ 0 then raiseLanes eMisalign mis addr
    else if range ≠ 0 then raiseLanes ePerm range addr
    else if (lanesOf lanes).any fun L => weightStalled t (65536 * base + (addr L).toNat) w.bytes then stop .wait
    else modTrain r.id fun x =>
      (lanesOf lanes).foldl (fun x L => putLoaded x d w.regs L
        (extLoad (mwExt w) w.bytes (Bytes.read t.wmem (65536 * base + (addr L).toNat) w.bytes))) (r.retired x)

/-! ## Atomics (R131 to R133) -/

/-- An atomic enters the store FIFO; its whole DATA is interlocked until the old value returns (R133). -/
def atomicIssue (i : Instr) (k : WKind) (w : AW) (kind : BitVec 3) (ord : Ord) (m : MemB) (x : Src)
    (d : Option Dst) : M s Unit := do
  let r ← beginMem i
  let addr := memAddrB r w.bytes m
  if r.t.inTx then unsupported r r.act
  else
    match ← settle r w.bytes kind false addr r.act with
    | none => pure ()
    | some (goods, faulted) => do
      let y ← now
      need (goods.isEmpty || (!fifoFull r.t && !r.t.queryFirst y.nextId)) .wait
      let exp (L : Nat) : DWord :=
        match d with
        | some d => if k == .cas then srcN r.t r.c w.regs (.v (d.idx + BitVec.ofNat 8 w.regs)) L else 0
        | none => 0
      let dests := match d with
        | some d => dstRegs (d, if k == .cas then 2 * w.regs else w.regs)
        | none => []
      makeAccess r dests goods faulted (goods.any fun a => a.e.attr == .uncached && a.e.place == 0) fun op part t =>
        { t with fifo := t.fifo ++ [fifoEntry op part r.id k w.bytes
            (goods.map fun a => accOf y a ((srcN r.t r.c w.regs x a.lane).setWidth 128) (exp a.lane)) false (ord == .rel || ord == .acqrel)
            (ord == .acq || ord == .acqrel) d] }

def execAtom (g : Guard) (sb : Sb) (op : AOp) (w : AW) (ord : Ord) (m : MemB) (x : Src) (d : Dst) (s : State) :
    Out :=
  runM s (atomicIssue (.atom g sb op w ord m x d) (.atom op) w kRw ord m x (some d))
def execRed (g : Guard) (sb : Sb) (op : AOp) (w : AW) (rel : Bool) (m : MemB) (x : Src) (s : State) : Out :=
  runM s (atomicIssue (.red g sb op w rel m x) (.atom op) w kRw (if rel then .rel else .plain) m x none)
def execCas (g : Guard) (sb : Sb) (w : AW) (ord : Ord) (m : MemB) (x : Src) (d : Dst) (s : State) : Out :=
  runM s (atomicIssue (.cas g sb w ord m x d) .cas w kRw ord m x (some d))

/-! ## Fences (R136) -/

/-- The largest lease held in a core's L1. -/
def Core.maxRts (c : Core) : Nat := c.l1.foldl (fun m kv => max m kv.2.rts) 0

/-- Wait in place for the fence's conditions, then move the clock past every lease the L1 holds. -/
def execFence (g : Guard) (sb : Sb) (s : State) : Out :=
  runM s do
    let r ← beginM (.fence g sb)
    let t ← now
    let k := t.coreOf r.t
    let c := t.core k
    if r.t.inTx then unsupported r 0xFFFFFFFF
    else if !r.acts then finishNow r id
    else do
      need (quiet r.t c r.id) .wait
      upd (.core k { c with clock := max c.clock (c.maxRts + 1) })
      finishNow r id

def execDrain (g : Guard) (sb : Sb) (s : State) : Out :=
  runM s do
    let r ← beginM (.drain g sb)
    need (!r.acts || r.t.fifo.isEmpty) .wait
    finishNow r id

/-! ## Wheel barriers (R137 to R141) -/

/-- A barrier word's fields (Table 6-4). -/
structure BarWord where
  valid : Bool
  rsvd : Nat
  masked : Bool
  phase : Nat
  members : Nat
  arrived : Nat
  expect : Nat
  deriving DecidableEq, Repr

def BarWord.ofNat (w : Nat) : BarWord :=
  { valid := bitAt w 63, rsvd := bits w 53 10, masked := bitAt w 52, phase := bits w 48 4,
    members := bits w 32 16, arrived := bits w 16 16, expect := bits w 0 16 }

def BarWord.toNat (w : BarWord) : Nat :=
  (if w.valid then 2 ^ 63 else 0) + w.rsvd * 2 ^ 53 + (if w.masked then 2 ^ 52 else 0) + w.phase * 2 ^ 48
    + w.members * 2 ^ 32 + w.arrived * 2 ^ 16 + w.expect

/-- Trains per wheel of the issuing train's dispatch. -/
def trainsOf (s : State) (t : Train) : Nat :=
  match s.dispatchOf t with
  | some d => d.launch.trains
  | none => 1

/-- Checks of a barrier address; an instruction that acts once raises for `em`. -/
def barAddr (r : Iss) (m : MemB) : M s Nat := do
  let t ← now
  let a := memAddrB r 8 m 0
  if a.toNat % 8 ≠ 0 then raiseAt eMisalign r.t.em a
  else if localSize t r.t < a.toNat + 8 then raiseAt ePerm r.t.em a
  else pure a.toNat

/-- Write a barrier word. -/
def putBar (wheel a : Nat) (w : BarWord) : M s Unit := do
  let t ← now
  match AMap.get? t.wheels wheel with
  | none => pure ()
  | some wh => upd (.wheel wheel (some { wh with local_ := Bytes.write wh.local_ a 8 w.toNat }))

/-- End every wait of a wheel's trains on a barrier word, and restart their clause counts (R69, R139). -/
def wakeBarrier (wheel a : Nat) : M s Unit := do
  wheelReleased wheel
  wakeTrains fun _ x => x.wheel == wheel && (match x.wait with | some w => w.on == .barrier a | none => false)

/-- Every arrived train but T takes E_BAR_MASK: at its waiting instruction, or at its next clause boundary (R139). -/
def barMaskOthers (wheel T a arrived : Nat) : M s Unit := do
  let t ← now
  (t.trains.filter fun kv => kv.2.wheel == wheel && kv.2.index != T && bitAt arrived kv.2.index).forM fun kv => do
    let y ← now
    match kv.2.wait with
    | some w =>
      if w.on == .barrier a && !w.woken then do
        restartCount (y.ctxOf kv.2)
        let y ← now
        updAll (trapUpds y kv.1 { kv.2 with wait := none } kv.2.here eBarMask kv.2.em (BitVec.ofNat 64 a) false)
      else deferTo kv.1
    | none => deferTo kv.1
where
  deferTo (k : Nat) : M s Unit := do
    let n ← freshId
    modTrain k fun x => { x with deferred := x.deferred ++
      [⟨n, eBarMask, none, BitVec.ofNat 64 a, false, false, []⟩] }

/-- One arrival (R139): `mask` is the operand of `barm`, `stay` says that the train waits for the flip. -/
def arrive (r : Iss) (a : Nat) (mask : Option Word) (stay : Bool) : M s Unit := do
  let t ← now
  let wh ← wheelM r
  let n := trainsOf t r.t
  let T := r.t.index
  let w := BarWord.ofNat (Bytes.read wh.local_ a 8)
  let bad (m : Nat) : Bool := m == 0 || 2 ^ n ≤ m
  if !w.valid || w.rsvd ≠ 0 || bad w.expect then raise eIllOperand
  else if (match mask with | some m => bad m.toNat | none => false) then raise eIllOperand
  else
    let w := match mask with
      | some m => if w.arrived = 0 && !w.masked then { w with members := m.toNat, masked := true } else w
      | none => w
    let members := if w.masked then w.members else w.expect
    let clash := mask.isSome != w.masked || (match mask with | some m => m.toNat != w.members | none => false)
      || !bitAt members T || bitAt w.arrived T
    if clash then do
      putBar r.t.wheel a { w with arrived := 0, members := 0, masked := false }
      barMaskOthers r.t.wheel T a w.arrived
      let y ← now
      updAll (trapUpds y r.id r.t r.t.here eBarMask r.t.em (BitVec.ofNat 64 a) false)
    else
      let arr := w.arrived + 2 ^ T
      if arr = members then do
        putBar r.t.wheel a { w with phase := (w.phase + 1) % 16, arrived := 0, members := 0, masked := false }
        wakeBarrier r.t.wheel a
        finishNow r id
      else do
        putBar r.t.wheel a { w with arrived := arr }
        if stay then modTrain r.id fun t => { t with wait := some ⟨.barrier a, false, 0⟩ }
        else finishNow r id

/-- A barrier instruction: an arrival waits until the train's accesses are performed (R141); a train that waits goes on once the phase has flipped. -/
def barrierInstr (i : Instr) (m : MemB) (mask : Option Src) (stay : Bool) : M s Unit := do
  let r ← beginMem i
  match r.t.wait with
  | some w => if w.woken then finishNow r id else stop .wait
  | none =>
    if r.t.inTx then unsupported r 0xFFFFFFFF
    else if !r.acts then finishNow r id
    else do
      let a ← barAddr r m
      let t ← now
      let c := t.core (t.coreOf r.t)
      need (r.t.fifo.isEmpty && r.t.loads.isEmpty &&
        (c.writesOf r.id).all fun w => w.kind == .store && w.acc.all fun a => a.attr == .cached) .wait
      arrive r a (mask.map r.x0) stay

def execBarw (g : Guard) (sb : Sb) (m : MemB) (s : State) : Out :=
  runM s (barrierInstr (.barw g sb m) m none true)
def execBara (g : Guard) (sb : Sb) (m : MemB) (s : State) : Out :=
  runM s (barrierInstr (.bara g sb m) m none false)
def execBarm (g : Guard) (sb : Sb) (m : MemB) (mask : Src) (s : State) : Out :=
  runM s (barrierInstr (.barm g sb m mask) m (some mask) true)

/-- `barinit`; the word's reserved bits keep what software wrote (R3). -/
def execBarinit (g : Guard) (sb : Sb) (m : MemB) (mask : Src) (s : State) : Out :=
  runM s do
    let r ← beginMem (.barinit g sb m mask)
    if r.t.inTx then unsupported r 0xFFFFFFFF
    else if !r.acts then finishNow r id
    else do
      let a ← barAddr r m
      let t ← now
      let v := (r.x0 mask).toNat
      if v = 0 || 2 ^ trainsOf t r.t ≤ v then raise eIllOperand
      else do
        match clobbered (waitedWords t r.t.wheel) ((List.range 8).map (a + ·)) with
        | some w => raiseAt eBarClobber r.t.em (BitVec.ofNat 64 w)
        | none => do
          let wh ← wheelM r
          putBar r.t.wheel a { BarWord.ofNat (Bytes.read wh.local_ a 8) with
            valid := true, masked := false, phase := 0, members := 0, arrived := 0, expect := v }
          finishNow r id

/-! ## Monitors (R142) -/

/-- Read at the serving point and arm the watch on the sector, in one step; it waits in place until no earlier write of the core to the bytes is unperformed. -/
def execMon (g : Guard) (sb : Sb) (w : AW) (acq : Bool) (m : MemB) (d : Dst) (s : State) : Out :=
  runM s do
    let r ← beginMem (.mon g sb w acq m d)
    if r.t.inTx then unsupported r 0xFFFFFFFF
    else if !r.acts then finishNow r id
    else do
      let addr := memAddrB r w.bytes m
      match ← settle r w.bytes kRead false addr r.one with
      | none => pure ()
      | some ([], faulted) =>
        makeAccess r (dstRegs (d, w.regs)) [] faulted false fun _ _ t => t
      | some (a :: _, _) => do
        let t ← now
        let k := t.coreOf r.t
        let c := t.core k
        need (!(r.t.fifo.any fun x => x.overlaps a.pa w.bytes) && !c.pending a.pa w.bytes
          && !(r.t.loads.any fun l => l.acc.any fun b => b.pa < a.pa + w.bytes && a.pa < b.pa + l.n)) .wait
        if t.ownerOf a.pa = some k then pure () else chimeCount k (t.tagOf (t.ctxOf r.t)) (t.ctxOf r.t) a.va.toNat
        let v ← homeRead (some k) a.pa w.bytes
        let t ← now
        let wts := (t.line a.pa).wts
        let c := t.core k
        upd (.core k { c with l1 := AMap.erase c.l1 (a.pa / 1024),
                              clock := if acq then max c.clock wts else c.clock })
        modTrain r.id fun t =>
          let t := lastPages t [a] 0
          let t := { t with watch := some ⟨a.pa / 128, wts, a.va, false, false⟩ }
          (r.retired t).setDst d 0xFFFFFFFF 0 (fun _ j => dwPart (BitVec.ofNat 64 v) j) w.regs
        if r.op = 0 then pure () else finishOp r.id r.op

/-- Return at once when no watch is armed, when it was hit or lost; else wait. The return clears the watch. -/
def execMwait (g : Guard) (sb : Sb) (s : State) : Out :=
  runM s do
    let r ← beginMem (.mwait g sb)
    if r.t.inTx then unsupported r 0xFFFFFFFF
    else if !r.acts then finishNow r id
    else
      match r.t.watch with
      | none => finishNow r id
      | some w =>
        if w.hit || w.lost then finishNow r fun t => { t with watch := none }
        else if r.t.wait.isSome then stop .wait
        else modTrain r.id fun t => { t with wait := some ⟨.monitor, false, 0⟩ }

/-! ## Prefetch, ownership and write-back (R143 to R145) -/

/-- The bytes of a line, relative to its start. -/
def lineBytes (mem : Bytes) (line : Nat) : Bytes :=
  (mem.filter fun kv => kv.1 / 1024 == line).map fun kv => (kv.1 % 1024, kv.2)

/-- Fill a line into a core's L1 with a new lease (R126). -/
def fillLine (core : Nat) (lease : Nat) (pa : Nat) : M s Unit := do
  recallOwner (some core) pa
  let t ← now
  let c := t.core core
  let l := t.line pa
  let rts := c.clock + lease
  upd (.line (pa / 1024) { l with rts := max l.rts rts })
  upd (.core core { c with l1 := AMap.set c.l1 (pa / 1024) ⟨lineBytes t.mem (pa / 1024), rts, l.wts⟩ })

/-- The core's L1 serves a load of a CACHED page's bytes: its sector is owned, or its line is held under a lease that lasts (R118, R126). -/
def l1Serves (s : State) (core pa : Nat) : Bool :=
  s.ownerOf pa == some core || (match AMap.get? (s.core core).l1 (pa / 1024) with
    | some l => (s.core core).clock ≤ l.rts
    | none => false)

/-- `prf` drops lanes that miss or lie on other than CACHED pages; CPOL 3 fills only the LLC (R143). A dropped lane counts no conflict of retention (log entry 66). Its fill is a sector access when the L1 does not serve the line. -/
def execPrf (g : Guard) (sb : Sb) (w : MW) (pol : Cpol) (m : Mem) (s : State) : Out :=
  runM s do
    let r ← beginMem (.prf g sb w pol m)
    let addr := memAddr r w.bytes m
    let t ← now
    let core := t.coreOf r.t
    let ctx := t.ctxOf r.t
    (lanesOf r.act).forM fun L => do
      let va := (addr L).toNat
      let y ← now
      if 2 ^ 55 ≤ va then pure ()
      else match y.laneX r.t L va kRead with
        | .ok e => do
          modTrain r.id fun t => lastPages t [⟨L, addr L, e.paOf va, e⟩] 0
          if y.attrOf e (e.paOf va) != .cached || (accessCause y (y.privDispatch r.t) false e va).isSome || pol == .fresh
              || l1Serves y core (e.paOf va) then pure ()
          else do
            chimeCount core (y.tagOf ctx) ctx va
            fillLine core (y.ctx ctx).lease.toNat (e.paOf va)
        | _ => pure ()
    finishNow r id

/-- Lanes that `own` acts on: CACHED pages without LINK placement. -/
def ownable (t : State) (a : Acc) : Bool := t.attrOf a.e a.pa == .cached && a.e.place != 2

/-- `own` registers the sectors; on other pages it has no effect and counts a conflict (R144). DEVICE pages take R144's case and not E_PERM of R117 (log entry 12). -/
def execOwn (g : Guard) (sb : Sb) (w : MW) (m : Mem) (s : State) : Out :=
  runM s do
    let r ← beginMem (.own g sb w m)
    if r.t.inTx then unsupported r r.act
    else
      match ← settle r 1 kRw true (memAddr r w.bytes m) r.act with
      | none => pure ()
      | some (goods, faulted) => do
        let t ← now
        (goods.filter (ownable t)).forM fun a => takeOwn (t.coreOf r.t) (t.ctxOf r.t) a.va.toNat a.pa
        makeAccess r [] goods faulted (goods.any fun a => !ownable t a) fun _ _ t => t

/-- The lanes of `unown`, `cwb` and `cinv`: lanes with no usable translation are dropped with no fault (R117). -/
def cacheLanes (r : Iss) (addr : Nat → DWord) : M s (Option (List Acc)) := do
  let t ← now
  let vs := (lanesOf r.act).map fun L => (L, addr L, laneVerdict t r 1 0 true (addr L) L)
  let range := lanesWhere vs fun va _ => 2 ^ 55 ≤ va.toNat
  let hole (va : DWord) (L : Nat) : Bool :=
    match t.laneX r.t L va.toNat 0 with
    | .ok e => t.region (e.paOf va.toNat) == .wspace || t.region (e.paOf va.toNat) == .none
    | _ => false
  if range ≠ 0 then raiseLanes ePerm range addr
  else if vs.any fun x => x.2.2 == .miss then do
    askWalks r 0 false true vs
    pure none
  else
    let vs := vs.filter fun x => !hole x.2.1 x.1
    match vs.find? fun x => match x.2.2 with | .trap _ => true | _ => false with
    | some (_, _, .trap c) => raiseLanes c (lanesWhere vs fun _ v => v == .trap c) addr
    | _ => pure (some (vs.filterMap fun x => match x.2.2 with | .good a => some a | _ => none))

/-- A cache instruction: act on each usable lane's sector, then retire. -/
def cacheInstr (i : Instr) (w : MW) (m : Mem) (f : Nat → Acc → M s Unit) : M s Unit := do
  let r ← beginMem i
  if r.t.inTx then unsupported r r.act
  else
    match ← cacheLanes r (memAddr r w.bytes m) with
    | none => pure ()
    | some goods => do
      let t ← now
      goods.forM fun a => f (t.coreOf r.t) a
      finishNow r fun t => lastPages t goods 0

/-- End the core's own ownership of a sector. -/
def release (core : Nat) (a : Acc) : M s Unit := do
  let t ← now
  if t.ownerOf a.pa = some core then disown (a.pa / 128) else pure ()

def execUnown (g : Guard) (sb : Sb) (w : MW) (m : Mem) (s : State) : Out :=
  runM s (cacheInstr (.unown g sb w m) w m release)

/-- Owned data already stands at the home in this model, so writing back changes nothing (log entry 5). -/
def execCwb (g : Guard) (sb : Sb) (w : MW) (m : Mem) (s : State) : Out :=
  runM s (cacheInstr (.cwb g sb w m) w m fun _ _ => pure ())

/-- Drop the L1 copy and release the sector (R145). -/
def execCinv (g : Guard) (sb : Sb) (w : MW) (m : Mem) (s : State) : Out :=
  runM s (cacheInstr (.cinv g sb w m) w m fun core a => do
    release core a
    let t ← now
    let c := t.core core
    upd (.core core { c with l1 := AMap.erase c.l1 (a.pa / 1024) }))

end Sys2Proof.Machine
end

