-- ==== Sys2Proof/Machine/Issue.lean ====
section
/-! DEFINITION. The Escapement and the issue of one word: readiness, the ranking of trains, fetching and decoding a clause header, decoding the word a train stands at (R43 to R47, R69). -/

namespace Sys2Proof.Machine

variable {s : State}

/-! ## Fetching a clause (R44) -/

/-- What fetching one word at a VA finds. -/
inductive Fetch where
  | word (w : DWord)
  /-- no fetch is allowed: the cause, and the value it reports: the word where memory holds it, the VA where its host is gone (R374) -/
  | refused (cause : Byte) (w : Option DWord)
  | park (f : XlFault)
  | miss (page : Nat)
  deriving DecidableEq, Repr

/-- What fetching one word at a VA finds (R44). A page whose placement does not fit raises E_PLACEMENT as for any access (log entry 67). -/
def fetchWord (s : State) (t : Train) (va : Nat) : Fetch :=
  let page := va / 65536 * 65536
  if 2 ^ 55 ≤ va then .refused ePerm none
  else
    let found := s.findTlb none (s.coreOf t) (s.tagOf (s.ctxOf t)) va
    let held (e : Tlb) : DWord := BitVec.ofNat 64 (Bytes.read s.mem (e.paOf va) 8)
    match t.xl.find? fun f => f.page == page with
    | some f => if f.present then .refused ePerm none else .park f
    | none =>
      match found with
      | none => .miss page
      | some e =>
        match accessCause s false false e va with
        | some c =>
          .refused c (if c = eHostGone then some (BitVec.ofNat 64 va)
            else match s.region (e.paOf va) with
              | .gddr | .fabric => some (held e)
              | _ => none)
        | none => if e.x then .word (held e) else .refused ePerm (some (held e))

/-- The class an instruction word of a clause is decoded in, and whether it may be one of the instructions that must stand last (R60, R232). -/
def wordClass (h : Header) (i : Nat) : Cls × Bool :=
  if i = h.count && h.tailc then (.C, false) else (h.cls, i = h.count)

/-- What the train finds at the header it stands at. -/
inductive Peek where
  /-- the clause can begin -/
  | clause (c : Clause)
  /-- the clause waits for a scoreboard or a register (R47) -/
  | blocked
  /-- a trap at the header: cause, the header word where it could be read, next header -/
  | trap (cause : Byte) (tval : Option DWord) (tnext : DWord)
  | park (f : XlFault)
  | miss (page : Nat)
  deriving DecidableEq, Repr

/-- Fetch the words of a clause. -/
def fetchWords (s : State) (t : Train) (va : Nat) : Nat → Except Fetch (List DWord)
  | 0 => .ok []
  | n + 1 =>
    match fetchWord s t va with
    | .word w =>
      match fetchWords s t (va + 8) n with
      | .ok ws => .ok (w :: ws)
      | .error e => .error e
    | f => .error f

/-- Registers of a word that decodes; a word that does not traps when the clause reaches it. -/
def wordUse (h : Header) (i : Nat) (w : DWord) : Option Use :=
  match decodeWord (wordClass h i).1 (wordClass h i).2 w with
  | .ok x => some (instrUse x)
  | .error _ => none

/-- The word that a clause stands at names one of some registers. -/
def Clause.names (c : Clause) (l : List Reg) : Bool :=
  match (decodeHeader c.word).bind fun h => wordUse h c.idx c.cur with
  | some u => l.any (u.regs.contains ·)
  | none => false

/-! ## Engine queues that may be full (R11, R12, R248, R298) -/

/-- An operation stands in the matrix queue of a context on a core. -/
def mxIn (t : State) (core ctx : Nat) (e : EngineOp) : Bool :=
  match AMap.get? t.trains e.train with
  | some x => t.coreOf x == core && t.ctxOf x == ctx
  | none => false

def mxQueue (t : State) (core ctx : Nat) : AMap EngineOp := t.matrix.filter fun kv => mxIn t core ctx kv.2

/-- Jobs of a core that are not complete. -/
def coreJobs (t : State) (core : Nat) : AMap Job := t.jobs.filter fun kv => kv.2.core == core

/-- Copy collectives that a core's wheels assemble. -/
def assembling (t : State) (core : Nat) : Nat :=
  ((t.wheels.filter fun kv => kv.2.core == core).map fun kv => kv.2.colls.length).foldl (· + ·) 0

/-- The checker holds 64 incomplete jobs (R12). -/
def checkerFull (t : State) (core : Nat) : Bool := 64 ≤ (coreJobs t core).length + assembling t core

/-- Class X instructions that run as jobs (R288, R295). R293 does not say whether the local reads of a `tloop` take part in the checker: the model keeps them out (DESIGN CHOICE, log entry 84). -/
def isTileJob : Instr → Bool
  | .tld .. | .tst .. | .tdrain .. => true
  | _ => false

/-- Ring instructions, whose transfers are jobs (R262). -/
def isTransfer : Instr → Bool
  | .rbind .. | .rrel .. => true
  | _ => false

/-- The matrix queue of a train takes no further instruction, or the checker no further job. R298 gives a tenant of a split array 16 class X instructions and the spec gives no depth for a whole one: the model uses 16 there too (DESIGN CHOICE, log entry 83). -/
def mxFull (s : State) (t : Train) (i : Instr) : Bool :=
  16 ≤ (mxQueue s (s.coreOf t) (s.ctxOf t)).length || (isTileJob i && checkerFull s (s.coreOf t))

/-- A copy of the train would open a collective, and the wheel assembles four already or the checker takes no further job. -/
def copyFull (s : State) (t : Train) : Bool :=
  match s.wheelOf t with
  | none => false
  | some w => !(w.colls.any fun c => c.k == t.copies) && (4 ≤ w.colls.length || checkerFull s w.core)

/-- The engine queue that an instruction of a class enters is full (R11). -/
def queueFull (s : State) (t : Train) (c : Cls) (i : Instr) : Bool :=
  c == .X && mxFull s t i || match i with
    | .cpy .. | .cpym .. | .cpt .. | .cpg .. => copyFull s t
    | .wsld .. | .rbind .. | .rrel .. => checkerFull s (s.coreOf t)
    | _ => false

/-- A clause waits while a scoreboard of WAITSB is busy, a register it names is the destination of an incomplete instruction, or the engine queue that one of its instructions enters is full (R11, R47, R69). A queue that fills up while the clause is open holds its instruction in place (log entry 68). -/
def clauseBlocked (s : State) (t : Train) (h : Header) (ws : List DWord) : Bool :=
  ((List.range 8).any fun i => h.waitsb.getLsbD i && t.sbCount (BitVec.ofNat 3 i) != 0) ||
    (!t.inTx && ws.zipIdx.any fun x => match decodeWord (wordClass h x.2).1 (wordClass h x.2).2 x.1 with
      | .ok i => queueFull s t (wordClass h x.2).1 i
      | .error _ => false) ||
    (!t.inflight.isEmpty && (ws.zipIdx.any fun x => match wordUse h x.2 x.1 with
      | some u => t.interlocked u 0
      | none => false))

/-- The header after the one at `pc`, whose word is `w` (Table 4-6). -/
def hdrNext (pc w : DWord) : DWord := pc + BitVec.ofNat 64 (8 * ((w.extractLsb' 56 4).toNat + 2))

/-- A fetch that stops at the header. Where the header cannot be read, its word is a free value and there is no next header (log entry 13). A gone host's page is an access whose VA is the value (R374). -/
def fetchStop (f : Fetch) (pc : DWord) (hdr : Option DWord) : Peek :=
  match f with
  | .word _ => .blocked
  | .refused c w =>
    if c = eHostGone then .trap c w (match hdr with | some x => hdrNext pc x | none => pc)
    else match hdr.or w with
      | some x => .trap c (some x) (hdrNext pc x)
      | none => .trap c none pc
  | .park x => .park x
  | .miss p => .miss p

/-- Fetch and decode the header a train stands at, and check whether its clause can begin (R43 to R47). -/
def peekClause (s : State) (t : Train) : Peek :=
  match fetchWord s t t.pc.toNat with
  | .word w =>
    match decodeHeader w with
    | none => .trap eIllClause (some w) (hdrNext t.pc w)
    | some h =>
      if h.cls == .Z && !s.privOf t then .trap ePriv (some w) (hdrNext t.pc w)
      else
        match fetchWords s t (t.pc.toNat + 8) (h.count + 1) with
        | .error f => fetchStop f t.pc (some w)
        | .ok ws =>
          match t.resume with
          | some a =>
            let k := (a - t.pc).toNat / 8
            if k = 0 || h.count + 1 < k then .trap eIllClause (some w) (hdrNext t.pc w)
            else .clause { hdr := t.pc, word := w, words := ws, idx := k - 1, latches := [], resumed := true }
          | none =>
            if clauseBlocked s t h ws then .blocked
            else .clause { hdr := t.pc, word := w, words := ws, idx := 0, latches := [], resumed := false }
  | f => fetchStop f t.pc none

/-! ## Readiness and ranking (R69) -/

/-- A deferred trap the train takes at this point (R204): the first in issue order, once its point has come, and no later one before it (log entry 80); those of instructions issued before trap mode wait while it lasts, and all of them for the end of a bracket whose `txend` is on its way (R227). -/
def Train.dueTrap (t : Train) : Option Deferred :=
  if t.resume.isSome || t.tx.ending.isSome then none
  else match t.deferred.find? fun d => d.inTm || !t.trap.tm with
    | some d => if t.clause.isNone || d.early then some d else none
    | none => none

/-- The context's trains may run. -/
def ctxRuns (s : State) (c : Nat) : Bool := !(s.ctx c).stopped && !(s.ctx c).preempt

/-- Every train of the context has stopped: its engine work stands at a checkpoint (R78). -/
def frozen (s : State) (c : Nat) : Bool := (s.ctx c).stopped

/-- The train is not held by a wait, a park, a stop or an engine it must follow. -/
def Train.free (s : State) (t : Train) : Bool :=
  !t.ending && !t.stopped && (ctxRuns s (s.ctxOf t) || (t.clause.isSome && !frozen s (s.ctxOf t))) && (t.gate.isNone || t.clause.isSome) && !t.tokenWait && t.tx.ending.isNone
    && (match t.wait with | some w => w.woken | none => true)
    && (match t.park with | some p => !p.faulted || p.resume != 0 | none => true)
    && (match s.dispatchOf t with | some d => d.failed.isNone || t.clause.isSome | none => false)
    && t.dueTrap.isNone

/-- The train stays at its instruction or header until some walk ends. -/
def walking (s : State) (id : Nat) : Bool := s.walks.any fun kv => kv.2.waiters.any fun w => w.train == id && w.stays

def trainReady (s : State) (id : Nat) (t : Train) : Bool :=
  t.free s && (t.clause.isSome ||
    (match peekClause s t with
     | .blocked => false
     | .miss _ => !walking s id
     | _ => true))

/-- Rank of a train, smaller first: waited 4,096 cycles (longest first), role priority, clauses since release, age of the wheel, train index. -/
def rankKeys (s : State) (t : Train) : List Nat :=
  let (sub, prio) := match s.dispatchOf t with
    | some d => (d.order, d.launch.rolePrio t.index)
    | none => (0, 0)
  let w := match s.wheelOf t with
    | some w => w.index
    | none => 0
  [if 4096 ≤ t.readyAge then 0 else 1, if 4096 ≤ t.readyAge then 2 ^ 64 - t.readyAge else 0, 3 - prio, t.retired,
   sub, w, t.index]

def lexLt : List Nat → List Nat → Bool
  | a :: as, b :: bs => a < b || (a == b && lexLt as bs)
  | _, _ => false

/-- The first train in rank order. -/
def bestTrain (s : State) (l : List (Nat × Train)) : Option Nat :=
  (l.foldl (fun (b : Option (Nat × List Nat)) kv =>
    let k := rankKeys s kv.2
    match b with
    | none => some (kv.1, k)
    | some x => if lexLt k x.2 then some (kv.1, k) else b) none).map (·.1)

/-- Ready trains of a core that hold no other port. -/
def candidates (s : State) (core : Nat) (other : Option Nat) : List (Nat × Train) :=
  s.trains.filter fun kv => s.coreOf kv.2 == core && other != some kv.1 && trainReady s kv.1 kv.2

/-- The holder keeps the port for its next clause: no switch was offered, it is ready, no train has waited too long and no ready train outranks it on keys 1 and 2. -/
def keepsPort (s : State) (core : Nat) (id : Nat) (t : Train) (l : List (Nat × Train)) : Bool :=
  t.clause.isNone && trainReady s id t && (t.resume.isSome ||
    (!t.yielded && !(s.core core).urgent &&
      l.all fun kv => !lexLt ((rankKeys s kv.2).take 3) ((rankKeys s t).take 3)))

/-- The train a port is busy with: one inside a clause that neither waits nor is parked. -/
def portBusy (s : State) (h : Option Nat) : Bool :=
  match h with
  | none => false
  | some id =>
    match AMap.get? s.trains id with
    | none => false
    | some t => t.clause.isSome && t.free s

def portAt (c : Core) (port : Nat) : Option Nat := c.ports[port % 2]'(Nat.mod_lt _ (by decide))

/-- A deferred trap where `trapret` resumes a clause: it comes before the resumed word where that is the one that waited for its destination (R204). -/
def Deferred.at_ (d : Deferred) (c : Clause) : Deferred := { d with early := c.names d.dests }

/-- Begin the clause of a train at its header: open it, trap, park or ask for a walk. -/
def openClause (id : Nat) : M s Unit := do
  let x ← now
  match AMap.get? x.trains id with
  | none => pure ()
  | some t =>
    match peekClause x t with
    | .blocked => pure ()
    | .clause c => do
      restartCount (x.ctxOf t)
      modTrain id fun t =>
        { t with clause := some c, pc := c.wordAddr c.idx, yielded := false, readyAge := 0, xl := [], park := none,
                 resume := none, deferred := if t.resume.isSome then t.deferred.map (·.at_ c) else t.deferred }
    | .trap cause tval tnext => do
      let v ← match tval with
        | some v => pure v
        | none => freshFree
      let x ← now
      updAll (trapUpds x id { t with xl := [], park := none } ⟨t.pc, false, t.pc, tnext⟩ cause t.em v false)
    | .park f => modTrain id fun t =>
        { t with
          park := some { lanes := t.em, resume := 0, faulted := true, atHeader := true, op := 0, pages := [f.page],
                         did := 0, conf := false }
          xl := [] }
    | .miss page => requestWalk id t page kExec t.em false true

/-- ESCAPEMENT_CHOOSE: a free port takes the train that keeps it or the best ready one, and its header is fetched and decoded (R43, R69). -/
def choosePort (core port : Nat) : M s Unit := do
  let x ← now
  let c := x.core core
  let h := portAt c port
  if portBusy x h then pure ()
  else
    let l := candidates x core (portAt c (port + 1))
    let pick := match h.bind fun id => (AMap.get? x.trains id).map fun t => (id, t) with
      | some (id, t) => if keepsPort x core id t l then some id else bestTrain x l
      | none => bestTrain x l
    do
      upd (.core core { c with ports := c.ports.set (port % 2) pick (Nat.mod_lt _ (by decide)) })
      match pick with
      | none => pure ()
      | some id =>
        match AMap.get? x.trains id with
        | some t => if t.clause.isSome then pure () else openClause id
        | none => pure ()

def execEscapementChoose (core port : Nat) (s : State) : Out := runE s (choosePort core port)

/-- READY_WAIT_LIMIT: a train of the core has been ready without issuing for 4,096 cycles; both ports choose again at every clause end while one has (R69). -/
def execReadyWaitLimit (core : Nat) (s : State) : Out :=
  runE s do
    let x ← now
    let c := x.core core
    let late := x.trains.any fun kv => x.coreOf kv.2 == core && 4096 ≤ kv.2.readyAge && trainReady x kv.1 kv.2
    upd (.core core { c with urgent := late })

/-! ## The word a train stands at -/

/-- What issuing for a port comes to: nothing, a decode trap, or an instruction of a train. -/
inductive IssueRes where
  | nothing
  | illegal (id : Nat) (cause : Byte)
  | run (id : Nat) (i : Instr)
  deriving DecidableEq, Repr

/-- Decode the word of a train's open clause (R46, R51, R60). -/
def decodeCur (id : Nat) (t : Train) : IssueRes :=
  match t.clause with
  | none => .nothing
  | some c =>
    match decodeHeader c.word with
    | none => .nothing
    | some h =>
      match decodeWord (wordClass h c.idx).1 (wordClass h c.idx).2 c.cur with
      | .ok i => .run id i
      | .error .illOp => .illegal id eIllOp
      | .error .illOperand => .illegal id eIllOperand

/-- The instruction the train that holds a port issues next. -/
def issueAt (s : State) (core port : Nat) : IssueRes :=
  match portAt (s.core core) port with
  | none => .nothing
  | some id =>
    match AMap.get? s.trains id with
    | none => .nothing
    | some t => if t.free s && s.coreOf t == core then decodeCur id t else .nothing

/-- The state in which the word of a port's turn issues: when no clause is open there, the port first chooses and the header is fetched and decoded. -/
def prepareIssue (s : State) (core port : Nat) : State :=
  if portBusy s (portAt (s.core core) port) then s
  else match choosePort core port (⟨s, .refl⟩ : Run s) with
    | .ok r => r.2.1
    | .error _ => s

end Sys2Proof.Machine
end

