-- ==== Sys2Proof/Machine/Tx.lean ====
section
/-! DEFINITION. Class T and the Detent: opening a bracket, the serial token, commit steps and the completion of `txend` (R224, R229 to R241). -/

namespace Sys2Proof.Machine

variable {s : State}

/-- The transaction state a bracket opens with (R233). -/
def Tx.opening (em : Mask) (fb : Bool) : Tx :=
  { Tx.reset with on := true, fb := fb, em := em, opened := em }

/-- R228: a `txbeg` inside a bracket aborts every open lane with NEST and does nothing else. -/
def nest (r : Iss) : M s Unit := do
  abortTx r.id 0xFFFFFFFF .nest
  finishNow r id

/-- The plain form opens at issue; with FB the train joins its context's token queue and stays at its word (R232, R233, R238). -/
def execTxbeg (sb : Sb) (fb : Bool) (s : State) : Out :=
  runM s do
    let r ← beginM (.txbeg sb fb)
    if r.t.tx.on then nest r
    else if !fb then finishNow r fun t => { t with tx := Tx.opening t.em false }
    else do
      need (!r.t.tokenWait) .wait
      let t ← now
      let c := t.ctxOf r.t
      let x := t.ctx c
      upd (.ctx c { x with tokenQueue := x.tokenQueue ++ [r.id] })
      modTrain r.id fun t => { t with tokenWait := true }

/-- Release the token a train holds (R238). -/
def releaseToken (id : Nat) : M s Unit := do
  let t ← now
  match AMap.get? t.trains id with
  | none => pure ()
  | some x =>
    let c := t.ctxOf x
    let y := t.ctx c
    match y.token with
    | some h => if h.1 = id then upd (.ctx c { y with token := none }) else pure ()
    | none => pure ()

/-- SERIAL_TOKEN_GRANT: a free token goes to the head of the queue, whose bracket opens and whose `txbeg.fb` completes (R233, R238). -/
def execSerialTokenGrant (ctx : Nat) (s : State) : Out :=
  runE s do
    let t ← now
    let x := t.ctx ctx
    match x.token, x.tokenQueue with
    | none, id :: rest =>
      match AMap.get? t.trains id with
      | none => upd (.ctx ctx { x with tokenQueue := rest })
      | some tr => do
        let g ← freshId
        upd (.ctx ctx { x with tokenQueue := rest, token := some (id, 0), tokenGrant := g })
        let tr := { tr with tokenWait := false, tx := Tx.opening tr.em true }
        upd (.train id (some (match tr.clause with
          | some c => tr.advance c none
          | none => tr)))
    | _, _ => pure ()

/-- TOKEN_HOLD_LIMIT: a holder of 2^20 cycles loses its open lanes with LOCKED and the token; TXON stays (R238). -/
def execTokenHoldLimit (ctx : Nat) (s : State) : Out :=
  runE s do
    let t ← now
    let x := t.ctx ctx
    match x.token with
    | some (id, held) =>
      if held < 2 ^ 20 then pure ()
      else do
        abortTx id 0xFFFFFFFF .locked
        modTrain id fun t => { t with tx := { t.tx with fb := false } }
        let t ← now
        upd (.ctx ctx { t.ctx ctx with token := none })
    | none => pure ()

/-- The completion of `txend` (R230, R234): pD in the lanes of TXEM, `em` back, the bracket closed, the token released, the clock past every wts met. -/
def txFinish (id : Nat) : M s Unit := do
  let t ← now
  match AMap.get? t.trains id with
  | none => pure ()
  | some x =>
    let w := match x.tx.ending with
      | some e => e.2
      | none => 0
    let op := x.gate.getD 0
    let pd := (x.inflight.find? fun f => f.id == op).bind fun f => f.dests.head?
    let k := t.coreOf x
    let c := t.core k
    upd (.core k { c with clock := max c.clock w })
    if x.tx.fb then releaseToken id else pure ()
    let x := match pd with
      | some (.p n) => x.setP n x.tx.em x.tx.aborted
      | _ => x
    let x := { x with em := x.tx.em &&& x.live, tx := { x.tx with on := false, fb := false, ending := none } }
    upd (.train id (some (x.complete op)))

/-- Everything the train did before is performed, then its commit steps begin; the next clause waits for its completion (R230, R232, R234). -/
def execTxend (sb : Sb) (d : PDst) (s : State) : Out :=
  runM s do
    let r ← beginM (.txend sb d)
    if !r.t.tx.on then raise eTxMisuse
    else do
      let t ← now
      need (quiet r.t (t.core (t.coreOf r.t)) r.id && !r.t.queryFirst t.nextId) .wait
      let op ← freshId
      let dests := if d.nowb || d.p == 7 then [] else [Reg.p d.p.toNat]
      modTrain r.id fun _ => { r.issued op dests [] id with
        gate := some op, tx := { r.t.tx with ending := some (r.t.tx.opened, 0) } }
      if r.t.tx.opened = 0 then txFinish r.id else pure ()

def execTxabt (g : Guard) (sb : Sb) (s : State) : Out :=
  runM s do
    let r ← beginM (.txabt g sb)
    if !r.t.tx.on then raise eTxMisuse
    else do
      abortTx r.id r.act .explicit
      finishNow r id

def execTxst (sb : Sb) (tok : Bool) (d : Dst) (s : State) : Out :=
  local_ s (.txst sb tok d) fun r =>
    let x := r.t.tx
    let v : Word :=
      if tok then BitVec.ofNat 32 ((if x.on then 1 else 0) + (if x.fb then 2 else 0))
      else if x.on then x.opened else 0
    .ok ((r.retired r.t).setDst d 0xFFFFFFFF 0 (fun _ _ => v) 1)

def execTxcause (g : Guard) (sb : Sb) (d : Dst) (s : State) : Out :=
  local_ s (.txcause g sb d) fun r =>
    .ok ((r.retired r.t).setDst d r.act 0 (fun L _ => (r.t.tx.cause.at L).setWidth 32) 1)

/-! ## Commit steps (R229) -/

/-- Some granule is locked by another than this lane. -/
def lockedOut (locks : AMap Lock) (id L : Nat) (gs : List Nat) : Bool :=
  gs.any fun g => match AMap.get? locks g with
    | some k => !(k.train == id && k.lane == L)
    | none => false

/-- The updates that write the masked bytes of a granule. -/
def granuleUpds (g : Nat) (m : BitVec 8) (v : DWord) : List Upd :=
  ((List.range 8).filter fun i => m.getLsbD i).map fun i => .byte (g + i) (v.extractLsb' (8 * i) 8)

/-- One write time for all writes of a step: past every lease and write time of the lines it reads or writes and every write of the train (R126, R127, R229). -/
def stepWts (t : State) (floor : Nat) (gs : List Nat) : Nat :=
  gs.foldl (fun w g => max w (max (t.line g).wts (t.line g).rts + 1)) (floor + 1)

/-- Take the write time `w` on the line of a granule. -/
def stampLine (w g : Nat) : M s Unit := do
  let t ← now
  upd (.line (g / 1024) { t.line g with wts := w })
  hitWatches (g / 128) w

/-- The `txend` has met a write time (R230). -/
def metWts (id w : Nat) : M s Unit :=
  modTrain id fun x => { x with tx := { x.tx with ending := x.tx.ending.map fun e => (e.1, max e.2 w) } }

/-- The step's sector accesses, at the homes, are counted against the pages that the bracket translated (R161). -/
def countStepAccesses (core ctx : Nat) (pages gs : List Nat) : M s Unit :=
  ((gs.map (· / 128)).dedup).forM fun k => do
    let t ← now
    match pages.find? fun p => match tlbFind (t.l3Of (dieOf core)) (t.tagOf ctx) p with
        | some e => e.paOf p / 65536 == 128 * k / 65536
        | none => false with
    | some p => chimeCount core (t.tagOf ctx) ctx p
    | none => pure ()

/-- The validation and commit of one lane. The step comes after what the core has already written to its granules, which the core's trains have seen (R124, R130, R381). -/
def commitLane (id L : Nat) : M s Unit := do
  let t ← now
  match AMap.get? t.trains id with
  | none => pure ()
  | some x =>
    let rs := x.tx.rs.at L
    let ws := x.tx.ws.at L
    let gs := rs.map (·.1) ++ ws.map (·.1)
    if lockedOut t.locks id L gs then abortTx id (maskOf (· == L)) .locked
    else if gs.any fun g => (t.core (t.coreOf x)).pending g 8 then pure ()
    else do
      countStepAccesses (t.coreOf x) (t.ctxOf x) x.tx.pages gs
      gs.forM fun g => recallOwner none g
      let t ← now
      metWts id ((rs.map fun gv => (t.line gv.1).wts).foldl max 0)
      if rs.any fun gv => Bytes.read t.mem gv.1 8 != gv.2.toNat then abortTx id (maskOf (· == L)) .conflict
      else do
        let written := (ws.filter fun e => e.2.1 != 0).map (·.1)
        let w := stepWts t (max x.wtsMax (t.core (t.coreOf x)).clock) gs
        if written.isEmpty then pure () else metWts id w
        written.forM fun g => stampLine w g
        updAll (ws.flatMap fun e => granuleUpds e.1 e.2.1 e.2.2)
        let t ← now
        upd (.locks (unlockLanes t.locks id (maskOf (· == L))))
        modTrain id fun x => { x with
          wtsMax := if written.isEmpty then x.wtsMax else max x.wtsMax w
          tx := { x.tx with
            opened := x.tx.opened &&& ~~~(maskOf (· == L))
            rs := x.tx.rs.set (L % 32) [] (Nat.mod_lt _ (by decide))
            ws := x.tx.ws.set (L % 32) [] (Nat.mod_lt _ (by decide)) } }

/-- COMMIT_STEP: the lowest open lane of a train whose `txend` has issued; the last step completes it (R229, R234). -/
def execCommitStep (train : Nat) (s : State) : Out :=
  runE s do
    let t ← now
    match AMap.get? t.trains train with
    | none => pure ()
    | some x =>
      if x.tx.ending.isNone then pure ()
      else do
        if x.tx.opened ≠ 0 then commitLane train (lowest x.tx.opened) else pure ()
        let t ← now
        match AMap.get? t.trains train with
        | none => pure ()
        | some x => if x.tx.opened = 0 then txFinish train else pure ()

end Sys2Proof.Machine
end

