-- ==== Sys2Proof/Machine/Sys.lean ====
section
/-! DEFINITION. The system instructions of class Z: system registers, invalidation of translations, return from a trap (R77, R163 to R165, R366 to R368). -/

namespace Sys2Proof.Machine

variable {s : State}

/-- Begin an instruction of a class that a bracket does not support: inside one, every open lane aborts and nothing is executed (R228). -/
def beginOnce (i : Instr) (body : Iss → M s Unit) : M s Unit := do
  let r ← beginM i
  if r.t.inTx then unsupported r 0xFFFFFFFF else body r

/-- An instruction that acts per lane, of such a class: inside a bracket every open lane aborts, and it goes on with no active lane (R220, R228). -/
def beginLanes (i : Instr) (body : Iss → M s Unit) : M s Unit := do
  let r ← beginM i
  if r.t.inTx then do
    abortTx r.id 0xFFFFFFFF .unsupported
    let t ← now
    body { r with t := (AMap.get? t.trains r.id).getD r.t, act := 0 }
  else body r

/-! ## System registers (Table 22-4) -/

/-- ZS_WSREFRESH (R302). -/
def wsRefresh : DWord := 0x00000040040FA1F4

def TrapRegs.status (x : TrapRegs) : Word :=
  BitVec.ofNat 32 ((if x.tm then 1 else 0) + (if x.incl then 2 else 0))

/-- The value of a listed system register. -/
def zregGet (t : Train) (c : Context) (n : Nat) : Option DWord :=
  match n with
  | 0x00 => some (t.trap.status.setWidth 64)
  | 0x01 => some (t.trap.cause.setWidth 64)
  | 0x02 => some t.trap.trappc
  | 0x03 => some t.trap.tnext
  | 0x04 => some t.trap.tval
  | 0x05 => some (t.trap.tlanes.setWidth 64)
  | 0x06 => some (t.trap.tem.setWidth 64)
  | 0x07 => some t.trap.thdr
  | 0x08 => some c.hangbuf
  | 0x09 => some c.hangLimit
  | 0x0A => some (c.lease.setWidth 64)
  | 0x0B => some (c.cpolconf.setWidth 64)
  | 0x0C => some c.ptbase
  | 0x0D => some (c.xtag.setWidth 64)
  | 0x0E => some (c.migthresh.setWidth 64)
  | 0x0F => some c.worldtab
  | 0x10 => some (c.hptpart.setWidth 64)
  | 0x11 => some (c.vctx.setWidth 64)
  | 0x12 => some wsRefresh
  | 0x13 => some c.mxstep
  | 0x14 => some c.mxstall
  | 0x15 => some c.spillbase
  | 0x16 => some (c.spillsize.setWidth 64)
  | _ => none

/-- The effect of `zwr` on the trap registers. -/
def zregPutTrain (x : TrapRegs) (n : Nat) (v : DWord) : TrapRegs :=
  match n with
  | 0x00 => { x with incl := v.getLsbD 1 }
  | 0x01 => { x with cause := v.setWidth 8 }
  | 0x02 => { x with trappc := v, incl := false }
  | 0x03 => { x with tnext := v }
  | 0x04 => { x with tval := v }
  | 0x05 => { x with tlanes := v.setWidth 32 }
  | 0x06 => { x with tem := v.setWidth 32 }
  | 0x07 => { x with thdr := v, incl := false }
  | _ => x

/-- A value that must be a multiple of `n`; where it is not, the spec states no value and a free multiple of `n` stands (log entry 14). -/
def multipleOf (n : Nat) (v : DWord) : M s DWord := do
  if v.toNat % n = 0 then pure v
  else do
    let f ← freshFree
    pure (f - BitVec.ofNat 64 (f.toNat % n))

/-- Write a per-context register of access T; the clips of Table 22-4 are in State.upd. -/
def zregPutCtx (ctx n : Nat) (v : DWord) : M s Unit := do
  match n with
  | 0x08 => do
    let v ← multipleOf 32 v
    let t ← now
    upd (.ctx ctx { t.ctx ctx with hangbuf := v })
  | 0x09 => do
    let t ← now
    upd (.ctx ctx { t.ctx ctx with hangLimit := v })
  | 0x0A => do
    let t ← now
    upd (.ctx ctx { t.ctx ctx with lease := v.setWidth 32 })
  | 0x0B => do
    let t ← now
    upd (.ctx ctx { t.ctx ctx with cpolconf := v.setWidth 32 })
  | _ => pure ()

/-- The operands of `zrd` and `zwr` once the register's width is known. -/
def Iss.zuse (r : Iss) (u : Use) : Iss := { r with u := u }

/-- The register number is checked first, then the width. What a `zwr` of the same clause wrote is not yet read (R368). -/
def execZrd (sb : Sb) (d : Dst) (n : Src) (s : State) : Out :=
  runM s do
    beginOnce (.zrd sb d n) fun r => do
      let t ← now
      let k := (r.x0 n).toNat
      match zregGet r.t (t.ctx (t.ctxOf r.t)) k with
      | none => raise eIllOperand
      | some new =>
        let v := ((r.c.zold.find? (·.1 == k)).map (·.2)).getD new
        let m := if zregWide k then 2 else 1
        if !(d.sca m) then raise eIllOperand
        else
          let r := r.zuse (Use.once sb [(d, m)] [(n, 1)])
          do
            need (!r.t.interlocked r.u 0) .wait
            finishDst r fun t => t.setDst d 0xFFFFFFFF 0 (fun _ j => dwPart v j) m

/-- Registers a train may write; the others are read-only or belong to the Crown. The write takes effect for the train's next clause; the other trains of the context see a context register at once, within the bound of R126 (R368). -/
def execZwr (sb : Sb) (n x : Src) (s : State) : Out :=
  runM s do
    beginOnce (.zwr sb n x) fun r => do
      let k := (r.x0 n).toNat
      let m := if zregWide k then 2 else 1
      if 0x16 < k || !(x.unif m) then raise eIllOperand
      else if k = 0x12 || k = 0x13 || k = 0x14 then raise eIllOperand
      else if 0x0C ≤ k then raise ePriv
      else
        let r := r.zuse (Use.once sb [] [(n, 1), (x, m)])
        do
          need (!r.t.interlocked r.u 0) .wait
          let v := srcN r.t r.c m x 0
          if k < 8 then
            let c := { r.c with zw := some (zregPutTrain (r.c.zw.getD r.t.trap) k v) }
            finishNow { r with c := c } fun t => { t with keptPhase := if k = 2 || k = 7 then none else t.keptPhase }
          else do
            let t ← now
            let old := (zregGet r.t (t.ctx (t.ctxOf r.t)) k).getD 0
            let c := if r.c.zold.any (·.1 == k) then r.c else { r.c with zold := r.c.zold ++ [(k, old)] }
            zregPutCtx (t.ctxOf r.t) k v
            finishNow { r with c := c } id

/-! ## Return from a trap (R77) -/

/-- The train after `trapret`: at ZS_TNEXT, at ZS_THDR to resume the trapped clause, or at ZS_TRAPPC. An address there that `zwr` left at no multiple of 8 loses its low three bits (log entry 70). -/
def Iss.trapReturn (r : Iss) (next : Bool) : Train :=
  let x := r.t.trap
  let t := { r.t with em := x.tem &&& r.t.live, trap := { x with tm := false }, park := none, wait := none, xl := [] }
  if next then { t.endClause r.c x.tnext false with keptPhase := none }
  else if x.incl then { t.endClause r.c x.thdr false with resume := some x.trappc }
  else { t.endClause r.c x.trappc false with keptPhase := none }

def execTrapret (next : Bool) (s : State) : Out :=
  runM s do
    beginOnce (.trapret next) fun r =>
      if !r.t.trap.tm then raise ePriv else upd (.train r.id (some (r.trapReturn next)))

/-! ## Invalidation of translations (R163 to R165) -/

/-- A `tlbi` over a range waits for its invalidation to begin. -/
def tlbiIssue (r : Iss) (lo hi : Nat) : M s Unit := do
  let op ← freshId
  modTrain r.id fun _ => r.issued op [] [] id
  let t ← now
  upd (.tlbis (t.tlbis ++ [({ sync := false, train := r.id, op := op, ctx := t.ctxOf r.t, lo := lo, hi := hi, begun := false,
                              mark := 0 } : Tlbi)]))

def execTlbi (sb : Sb) (range : Option (Src × Src)) (s : State) : Out :=
  runM s do
    beginOnce (.tlbi sb range) fun r =>
      match range with
      | none => tlbiIssue r 0 (2 ^ 55)
      | some (va, n) =>
        let a := r.d0 va
        let k := (r.x0 n).toNat
        if a.toNat % 65536 ≠ 0 then raiseAt eMisalign r.t.em a
        else if 2 ^ 55 ≤ a.toNat || k = 0 then raise ePerm
        else tlbiIssue r a.toNat (min (a.toNat + 65536 * k) (2 ^ 55))

/-- Entries of a tag that overlap a range. -/
def Tlb.hits (e : Tlb) (tag : BitVec 16) (lo hi : Nat) : Bool := e.tag == tag && e.page < hi && lo < e.page + e.size

/-- The physical range an entry maps the part of a VA range to. -/
def Tlb.paRange (e : Tlb) (lo hi : Nat) : Nat × Nat :=
  let a := max lo e.page
  let b := min hi (e.page + e.size)
  (e.paOf a, e.paOf a + (b - a))

/-- Every cached translation of the machine. -/
def allTlbs (t : State) : List Tlb :=
  t.cores.flatMap (fun kv => kv.2.tlb) ++ t.l2.flatMap (·.2) ++ t.l3.flatMap (·.2)
    ++ t.trains.flatMap fun kv => kv.2.lastPage.toList.filterMap id

/-- Remove the entries of a tag that overlap a range from every level. -/
def dropAll (tag : BitVec 16) (lo hi : Nat) : M s Unit := do
  let t ← now
  updAll (t.cores.map fun kv => .core kv.1 { kv.2 with tlb := tlbDrop kv.2.tlb tag lo hi })
  updAll (t.l2.map fun kv => .l2 kv.1 (tlbDrop kv.2 tag lo hi))
  updAll (t.l3.map fun kv => .l3 kv.1 (tlbDrop kv.2 tag lo hi))
  updAll (t.trains.map fun kv => .train kv.1 (some { kv.2 with
    lastPage := perLane fun L => (kv.2.lastPage.at L).filter fun e => !e.hits tag lo hi }))

/-- A `tlbi`'s train has no unperformed store, `red`, `atom` or `cas` from before it. -/
def tlbiReady (t : State) (i : Tlbi) : Bool :=
  match AMap.get? t.trains i.train with
  | none => true
  | some x => !(x.fifo.any fun w => w.id < i.op) &&
      !(((t.core (t.coreOf x)).writesOf i.train).any fun w => w.id < i.op)

/-- A bracket's sets, or the wait of a `gwait`, rest on a translation of a page in a range. -/
def Train.readsThrough (t : Train) (lo hi : Nat) : Bool :=
  (t.tx.on && t.tx.opened != 0 && t.tx.pages.any fun p => lo ≤ p && p < hi) ||
    (match t.wait with
     | some w => match w.on with
       | .token va _ _ => lo ≤ va.toNat && va.toNat < hi
       | _ => false
     | none => false)

/-- The train after a `tlbi` over such a page: its bracket's sets are old accesses, and a `gwait` issues again, which translates its token afresh; its wait is not ended by that (R165, R358). -/
def Train.retranslates (t : Train) (op lo hi : Nat) : Train :=
  { t with
    tx := if t.tx.pages.any fun p => lo ≤ p && p < hi then { t.tx with stale := op :: t.tx.stale } else t.tx
    wait := t.wait.map fun w => match w.on with
      | .token va _ _ => if lo ≤ va.toNat && va.toNat < hi then { w with woken := true } else w
      | _ => w }

/-- TLBI_INVALIDATION_BEGIN: the removal, the ends of ownership and watches, the restarts of walks, and the completion of the `tlbi` (R164). -/
def execTlbiInvalidationBegin (train op : Nat) (s : State) : Out :=
  runE s do
    let t ← now
    match t.tlbis.find? fun i => i.train == train && i.op == op && !i.begun && !i.sync with
    | none => pure ()
    | some i =>
      if !tlbiReady t i then pure ()
      else do
        let tag := t.tagOf i.ctx
        let pas := (((allTlbs t).filter fun e => e.hits tag i.lo i.hi).map fun e => e.paRange i.lo i.hi).dedup
        dropAll tag i.lo i.hi
        (t.owners.filter fun kv => (kv.2.tag == tag && i.lo ≤ kv.2.va && kv.2.va < i.hi) ||
            pas.any fun r => r.1 < 128 * kv.1 + 128 && 128 * kv.1 < r.2).forM fun kv =>
          disown kv.1
        let y ← now
        updAll ((y.trains.filter fun kv => y.tagOf (y.ctxOf kv.2) == tag && kv.2.readsThrough i.lo i.hi).map fun kv =>
          .train kv.1 (some (kv.2.retranslates i.op i.lo i.hi)))
        let y ← now
        updAll ((y.trains.filter fun kv => y.ctxOf kv.2 == i.ctx && (match kv.2.watch with
            | some w => i.lo ≤ w.va.toNat && w.va.toNat < i.hi
            | none => false)).map fun kv =>
          .train kv.1 (some { kv.2 with watch := kv.2.watch.map fun w => { w with lost := true } }))
        updAll ((y.walks.filter fun kv => y.tagOf kv.2.ctx == tag && i.lo < kv.2.page + 65536 && kv.2.page < i.hi).map
          fun kv => .walk kv.1 (some { kv.2 with running := false }))
        upd (.tlbis (y.tlbis.map fun j =>
          if j.train == train && j.op == op then { j with begun := true, mark := y.nextId } else j))
        modTrain train fun x => x.complete op

/-- An access of the tag issued before an invalidation and translated inside its range, or a bracket whose sets were read or written through it. -/
def oldAccess (t : State) (i : Tlbi) : Bool :=
  let tag := t.tagOf i.ctx
  let hit (id : Nat) (acc : List LaneAcc) : Bool :=
    id < i.mark && acc.any fun a => i.lo ≤ a.va.toNat && a.va.toNat < i.hi
  t.trains.any fun kv =>
    let x := kv.2
    t.tagOf (t.ctxOf x) == tag &&
      (x.fifo.any (fun w => hit w.id w.acc) || x.loads.any (fun l => hit l.id l.acc) ||
        ((t.core (t.coreOf x)).writesOf kv.1).any (fun w => hit w.id w.acc) ||
        (x.tx.on && x.tx.opened != 0 && x.tx.stale.contains i.op))

/-- `tlbsync` issues and raises its scoreboard; the train's later accesses and engine instructions wait for its completion (R163, R165). -/
def execTlbsync (sb : Sb) (s : State) : Out :=
  runM s do
    beginOnce (.tlbsync sb) fun r => do
      let op ← freshId
      modTrain r.id fun _ => r.issued op [] [] id
      let t ← now
      upd (.tlbis (t.tlbis ++ [({ sync := true, train := r.id, op := op, ctx := t.ctxOf r.t, lo := 0, hi := 0,
                                  begun := false, mark := 0 } : Tlbi)]))

/-- A `tlbsync` completes once every earlier `tlbi` of the train has begun its removal, and no access remains through an old translation (R165). -/
def syncComplete (train op : Nat) : M s Unit := do
  let t ← now
  if !(t.tlbis.any fun i => i.sync && i.train == train && i.op == op) then pure ()
  else
    let mine := t.tlbis.filter fun i => i.train == train && !i.sync && i.op < op
    if mine.all fun i => i.begun && !oldAccess t i then do
      upd (.tlbis (t.tlbis.filter fun i => !(i.train == train && i.op ≤ op)))
      modTrain train fun x => x.complete op
    else pure ()

def execSyncTurn (train op : Nat) (s : State) : Out := runE s (syncComplete train op)

end Sys2Proof.Machine
end

