-- ==== Sys2Proof/Machine/Registers.lean ====
section
/-! DEFINITION. The MMIO register blocks (Table 22-2): what each register reads, which events a register write amounts to, and the effects of those that touch registers alone (R158, R159, R162, R341, R344, R364, R365, R373). -/

namespace Sys2Proof.Machine

variable {s : State}

/-! ## Reading -/

def flag (b : Bool) (i : Nat) : Nat := if b then 2 ^ i else 0

/-- MG_STATE (Table 22-3). -/
def Mg.state (m : Mg) : DWord :=
  BitVec.ofNat 64 (m.failcode.toNat * 2 ^ 32 + flag m.hostwr 5 + flag m.badwr 4 + flag m.hostdown 3 + m.svc.toNat)

/-- The contexts that are stopped, a bit each. -/
def State.stoppedMask (s : State) : Nat :=
  (List.range 16).foldl (fun a c => a + flag (s.ctx c).stopped c) 0

def mgRead (s : State) (off : Nat) : DWord :=
  match off with
  | 0x00 => BitVec.ofNat 64 (0x0300 * 65536 + Config.revision.toNat)
  | 0x08 => s.mg.state
  | 0x10 => BitVec.ofNat 64 s.stoppedMask
  | 0x20 => s.mg.clockMhz.setWidth 64
  | 0x28 => s.mg.watts.setWidth 64
  | 0x30 => s.mg.plimit.setWidth 64
  | 0x38 => s.mg.celsius.setWidth 64
  | _ => 0

def State.ring (s : State) (k : Nat) : Ring := s.rings[k % 64]'(Nat.mod_lt _ (by decide))

/-- RING_CTL's fields. -/
def ringEn (ctl : Word) : Bool := ctl.getLsbD 0
def ringCrown (ctl : Word) : Bool := ctl.getLsbD 1
def ringCtx (ctl : Word) : Nat := bits ctl.toNat 4 4

def Ring.status (r : Ring) : DWord :=
  BitVec.ofNat 64 (r.errcount.toNat * 2 ^ 56 + flag r.loglost 49 + flag r.stuck 48 + r.ignored.toNat * 2 ^ 32 + r.h.toNat)

def ringRead (r : Ring) (off : Nat) : DWord :=
  match off with
  | 0x00 => r.recVa
  | 0x08 => r.ctl.setWidth 64
  | 0x10 => r.kt.setWidth 64
  | 0x18 => r.status
  | _ => 0

def FbEntry.bytes (e : FbEntry) : Nat :=
  e.page.toNat + 2 ^ 64 * (e.kind.toNat + 2 ^ 8 * e.flags.toNat + 2 ^ 16 * e.core.toNat + 2 ^ 32 * e.count.toNat)
    + 2 ^ 128 * (e.dispatch.toNat + 2 ^ 32 * e.wheel.toNat)
    + 2 ^ 192 * (e.train.toNat + 2 ^ 16 * e.lanes.toNat + 2 ^ 32 * e.seq.toNat)

/-- A replay has trains that have not reissued (R160). -/
def State.replayBusy (s : State) (c : Nat) : Bool :=
  (s.ctx c).replaying.any fun id => match AMap.get? s.trains id with
    | some t => match t.park with
      | some p => !p.faulted
      | none => false
    | none => false

/-- The fault buffer block of a context (Table 8-4). A slot never written reads zero. -/
def fbRead (s : State) (c off : Nat) : DWord :=
  let x := s.ctx c
  if off = 0x00 then x.fbHead.setWidth 64
  else if off = 0x08 then x.fbTail.setWidth 64
  else if off = 0x10 then BitVec.ofNat 64 (x.fbDrops.toNat * 65536 + flag x.fbDropped 0)
  else if off = 0x18 then BitVec.ofNat 64 (flag (s.replayBusy c || x.replayHeld) 0)
  else if 0x100 ≤ off && off < 0x200 then
    match AMap.get? x.fb ((off - 0x100) / 32) with
    | some e => BitVec.ofNat 64 (bits e.bytes (8 * (off % 32)) 64)
    | none => 0
  else 0

def ChimeEntry.bytes (e : ChimeEntry) : Nat :=
  e.page.toNat + 2 ^ 64 * (e.tag.toNat + 2 ^ 16 * e.dies.toNat + 2 ^ 32 * e.thresholds.toNat)

/-- The Chime queue block (R162). -/
def chimeRead (x : Chime) (off : Nat) : DWord :=
  if off = 0x00 then x.head.setWidth 64
  else if off = 0x08 then x.tail.setWidth 64
  else if off = 0x10 then BitVec.ofNat 64 (x.drops * 65536 + flag x.overflow 0)
  else if 0x100 ≤ off && off < 0x500 then
    match AMap.get? x.slots ((off - 0x100) / 16) with
    | some e => BitVec.ofNat 64 (bits e.bytes (8 * (off % 16)) 64)
    | none => 0
  else 0

/-- The register block of a context; the per-train numbers have no register here. -/
def ctxRead (x : Context) (n : Nat) : DWord :=
  match n with
  | 0x08 => x.hangbuf
  | 0x09 => x.hangLimit
  | 0x0A => x.lease.setWidth 64
  | 0x0B => x.cpolconf.setWidth 64
  | 0x0C => x.ptbase
  | 0x0D => x.xtag.setWidth 64
  | 0x0E => x.migthresh.setWidth 64
  | 0x0F => x.worldtab
  | 0x10 => x.hptpart.setWidth 64
  | 0x11 => x.vctx.setWidth 64
  | 0x12 => wsRefresh
  | 0x13 => x.mxstep
  | 0x14 => x.mxstall
  | 0x15 => x.spillbase
  | 0x16 => x.spillsize.setWidth 64
  | _ => 0

/-- The eight bytes at a multiple of 8 in the MMIO space (Table 22-2); what no table lists reads as zero. -/
def mmioWord (s : State) (off : Nat) : DWord :=
  if off < 0x100000 then mgRead s off
  else if off < 0x101000 then ringRead (s.ring ((off - 0x100000) / 0x40)) (off % 0x40)
  else if 0x200000 ≤ off && off < 0x210000 then fbRead s ((off - 0x200000) / 0x1000) (off % 0x1000)
  else if 0x300000 ≤ off && off < 0x301000 then chimeRead s.chime (off - 0x300000)
  else if 0x400000 ≤ off && off < 0x402000 then ctxRead (s.ctx ((off - 0x400000) / 0x200)) (off % 0x200 / 8)
  else 0

/-- Start of the MMIO space. -/
def mmioBase : Nat := 0xF000000000

/-- Read `n` aligned bytes of the MMIO space. -/
def mmioRead (s : State) (off n : Nat) : Nat := bits (mmioWord s (off / 8 * 8)).toNat (8 * (off % 8)) (8 * n)

/-! ## Writing -/

/-- The events a write of a whole register amounts to. `v` holds zero where nothing is written to a bit that acts on being written 1, and the old value elsewhere (log entry 15). -/
def regEvents (host : Bool) (s : State) (off : Nat) (v : DWord) : List Instr :=
  let lo : Word := v.setWidth 32
  if host then
    if off = 0x30 then [.mgPlimitWrite v]
    else if off = 0x40 then (if v.getLsbD 0 then [.mgClkrstGo] else [])
    else if 0x100000 ≤ off && off < 0x101000 && !ringCrown (s.ring ((off - 0x100000) / 0x40)).ctl
        && off % 0x40 = 0x10 then [.ringKick ((off - 0x100000) / 0x40) lo true]
    else if 0x100000 ≤ off && off < 0x101000 && !ringCrown (s.ring ((off - 0x100000) / 0x40)).ctl
        && off % 0x40 = 0x18 then [.ringStatusWrite ((off - 0x100000) / 0x40) true]
    else [.hostWriteIgnored off v]
  else if off < 0x100000 then
    match off with
    | 0x08 => (if v.getLsbD 5 then [.hostwrClear] else []) ++ (if v.getLsbD 4 then [.badwrClear] else [])
    | 0x10 => [.preemptRequest (v.setWidth 16)]
    | 0x18 => [.contextResume (v.setWidth 16)]
    | 0x30 => [.mgPlimitWrite v]
    | 0x40 => if v.getLsbD 0 then [.mgClkrstGo] else []
    | _ => [.registerWrite off v]
  else if off < 0x101000 then
    let k := (off - 0x100000) / 0x40
    match off % 0x40 with
    | 0x00 => [.ringRecWrite k v]
    | 0x08 => [.ringEnable k lo]
    | 0x10 => [.ringKick k lo false]
    | 0x18 => [.ringStatusWrite k false]
    | _ => [.registerWrite off v]
  else if 0x200000 ≤ off && off < 0x210000 then
    let c := (off - 0x200000) / 0x1000
    match off % 0x1000 with
    | 0x00 => [.fbHeadWrite c lo]
    | 0x10 => if v.getLsbD 0 then [.fbStatusDroppedClear c] else []
    | 0x18 => if v.getLsbD 0 then [.fbReplayGo c] else []
    | _ => [.registerWrite off v]
  else if 0x300000 ≤ off && off < 0x301000 then
    match off - 0x300000 with
    | 0x00 => [.chimeHeadWrite lo]
    | 0x10 => if v.getLsbD 0 then [.chimeOverflowClear] else []
    | _ => [.registerWrite off v]
  else if 0x400000 ≤ off && off < 0x402000 then [.contextRegisterWrite ((off - 0x400000) / 0x200) (off % 0x200 / 8) v]
  else [.registerWrite off v]

/-- Registers whose bits act on being written: what is not written of them is zero. -/
def actsOnWrite (off : Nat) : Bool :=
  off == 0x08 || off == 0x10 || off == 0x18 || off == 0x40 ||
    (0x200000 ≤ off && off < 0x210000 && (off % 0x1000 == 0x10 || off % 0x1000 == 0x18)) || off == 0x300010

/-- The register write of a turn: the bytes written stand over those the register holds then, and its events come next. A write of the upper half of RING_KICK writes only ignored bits and is no kick (R341). -/
def mmioPut (host : Bool) (off n v : Nat) : M s Unit := do
  let t ← now
  let o := off / 8 * 8
  let sh := 8 * (off % 8)
  let old := if actsOnWrite o then 0 else (mmioWord t o).toNat
  let new := old - bits old sh (8 * n) * 2 ^ sh + bits v 0 (8 * n) * 2 ^ sh
  let upperKick := 0x100000 ≤ o && o < 0x101000 && o % 0x40 == 0x10 && 4 ≤ off % 8
  if upperKick && !(host && ringCrown (t.ring ((o - 0x100000) / 0x40)).ctl) then pure ()
  else upd (.agenda ((regEvents host t o (BitVec.ofNat 64 new)).map .event ++ t.agenda))

def execMmioTurn (host : Bool) (off n v : Nat) (s : State) : Out := runE s (mmioPut host off n v)

/-- The register writes that stand at the head of the agenda, and the turns after them. -/
def mmioAhead : List Turn → List Turn × List Turn
  | .mmio h o n v :: l => let r := mmioAhead l; (.mmio h o n v :: r.1, r.2)
  | l => ([], l)

/-- A write of `n` aligned bytes to the MMIO space: it comes next, before any other turn, behind the register writes of lower lanes of the same access (R4). -/
def mmioWrite (host : Bool) (off n v : Nat) : M s Unit := do
  let t ← now
  let r := mmioAhead t.agenda
  upd (.agenda (r.1 ++ .mmio host off n v :: r.2))

/-! ## Register events -/

/-- FB_HEAD_WRITE: a value outside FB_TAIL − 8 to FB_TAIL is ignored (R159). -/
def execFbHeadWrite (ctx : Nat) (v : Word) (s : State) : Out :=
  runE s do
    let t ← now
    let x := t.ctx ctx
    if (x.fbTail - v).toNat ≤ 8 then upd (.ctx ctx { x with fbHead := v }) else pure ()

/-- FB_STATUS_DROPPED_CLEAR (R159). -/
def execFbStatusDroppedClear (ctx : Nat) (s : State) : Out :=
  runE s do
    let t ← now
    upd (.ctx ctx { t.ctx ctx with fbDropped := false, fbDrops := 0 })

/-- CHIME_HEAD_WRITE (R162). -/
def execChimeHeadWrite (v : Word) (s : State) : Out :=
  runE s do
    let t ← now
    if (t.chime.tail - v).toNat ≤ 64 then upd (.chime { t.chime with head := v }) else pure ()

/-- CHIME_OVERFLOW_CLEAR; CHIME_STATUS works as FB_STATUS, so DROPS is cleared too (R162). -/
def execChimeOverflowClear (s : State) : Out :=
  runE s do
    let t ← now
    upd (.chime { t.chime with overflow := false, drops := 0 })

/-- The slot of the unconsumed Chime entry of a tag and page. -/
def Chime.slot (x : Chime) (tag : Half) (page : DWord) : Option Nat :=
  ((List.range (x.tail - x.head).toNat).map fun k => (x.head.toNat + k) % 64).find? fun i =>
    match AMap.get? x.slots i with
    | some e => e.tag == tag && e.page == page
    | none => false

/-- A notification that reaches the Chime queue (R162). -/
def Chime.notify (x : Chime) (die : Nat) (tag : Half) (page : DWord) : Chime :=
  match (x.slot tag page).bind fun i => (AMap.get? x.slots i).map fun e => (i, e) with
  | some (i, e) =>
    let e := { e with
      dies := e.dies ||| BitVec.ofNat 8 (2 ^ die)
      thresholds := if e.thresholds = 0xFFFFFFFF then e.thresholds else e.thresholds + 1 }
    { x with slots := AMap.set x.slots i e }
  | none =>
    if (x.tail - x.head).toNat = 64 then { x with overflow := true, drops := min (x.drops + 1) 0xFFFF }
    else
      let e : ChimeEntry := { page := page, tag := tag, dies := BitVec.ofNat 8 (2 ^ die), thresholds := 1 }
      { x with slots := AMap.set x.slots (x.tail.toNat % 64) e, tail := x.tail + 1 }

/-- CHIME_NOTIFICATION: the die's oldest notification arrives (R161, R162). -/
def execChimeNotification (die : Nat) (s : State) : Out :=
  runE s do
    let t ← now
    match t.chime.coming.find? fun n => n.1 == die with
    | none => pure ()
    | some n =>
      upd (.chime (Chime.notify { t.chime with coming := t.chime.coming.erase n } die n.2.1 n.2.2))

/-- MG_PLIMIT_WRITE: the clip is in State.upd (R365). -/
def execMgPlimitWrite (v : DWord) (s : State) : Out :=
  runE s do
    let t ← now
    upd (.mg { t.mg with plimit := v.setWidth 16 })

/-- MG_CLKRST_GO: CLOCK restarts from 0 on every enabled core (R365). -/
def clockReset : M s Unit := do
  let t ← now
  updAll (t.cores.map fun kv => .core kv.1 { kv.2 with cycles := 0 })

def execMgClkrstGo (s : State) : Out := runE s clockReset

def execHostwrClear (s : State) : Out :=
  runE s do
    let t ← now
    upd (.mg { t.mg with hostwr := false })

def execBadwrClear (s : State) : Out :=
  runE s do
    let t ← now
    upd (.mg { t.mg with badwr := false })

/-- The context has resident trains. -/
def State.residentIn (s : State) (c : Nat) : Bool := s.trains.any fun kv => s.ctxOf kv.2 == c

/-- No earlier entry of the prediction table stays usable under these tags (R324). -/
def dropHpt (tags : List Half) : M s Unit := do
  let t ← now
  updAll (t.hpt.map fun kv => .hpt kv.1 (kv.2.filter fun e => !tags.contains e.tag))

/-- The new value of a context register written through its block: what the table gives no value for is free (log entry 14). -/
def ctxRegPut (c n : Nat) (v : DWord) : M s Unit := do
  match n with
  | 0x0C => do
    let v ← multipleOf 65536 v
    let t ← now
    upd (.ctx c { t.ctx c with ptbase := v })
  | 0x0D => do
    let t ← now
    dropHpt [(t.ctx c).xtag, v.setWidth 16]
    upd (.ctx c { t.ctx c with xtag := v.setWidth 16 })
  | 0x0E => do
    let t ← now
    upd (.ctx c { t.ctx c with migthresh := v.setWidth 16 })
  | 0x0F => do
    let t ← now
    upd (.ctx c { t.ctx c with worldtab := v })
  | 0x10 => do
    let t ← now
    dropHpt [(t.ctx c).xtag]
    upd (.ctx c { t.ctx c with hptpart := v.setWidth 32 &&& 0xF })
  | 0x11 => do
    let t ← now
    upd (.ctx c { t.ctx c with vctx := v.setWidth 4 })
  | 0x15 => do
    let v ← multipleOf 65536 v
    let t ← now
    upd (.ctx c { t.ctx c with spillbase := v })
  | 0x16 => do
    let k := v.toNat % 2 ^ 17
    let k ← if k ≤ 65536 then pure k else do
      let f ← freshFree
      pure (f.toNat % 65537)
    let t ← now
    upd (.ctx c { t.ctx c with spillsize := BitVec.ofNat 32 k })
  | _ => zregPutCtx c n v

/-- The Crown creates a context in a number whose last context is saved: every register takes its reset value (R367, log entry 74). A replay held for the saved context goes with its image (R79); a thermal stop holds the new context too (R379). -/
def createCtx (c : Nat) : M s Unit := do
  let t ← now
  let x := t.ctx c
  if !x.saved then pure ()
  else do
    if x.replayHeld then updAll ((t.images.filter fun kv => kv.2.live && kv.2.ctx == c).map fun kv =>
        .image kv.1 { kv.2 with context := { kv.2.context with replayHeld := true } })
    else pure ()
    dropHpt [x.xtag, 0]
    upd (.ctx c { Context.reset c with host := x.host, stopped := t.mg.hold.isSome })
    upd (.mg { t.mg with hold := t.mg.hold.map fun m => m ||| BitVec.ofNat 16 (2 ^ c) })

/-- CONTEXT_REGISTER_WRITE: ignored, with BADWR, while the context has resident trains; read-only numbers keep their value (R364, R367). The first write to a number whose context is saved creates a context there. -/
def execContextRegisterWrite (ctx n : Nat) (v : DWord) (s : State) : Out :=
  runE s do
    let t ← now
    if t.residentIn ctx then upd (.mg { t.mg with badwr := true })
    else do
      createCtx ctx
      ctxRegPut ctx n v

/-- REGISTER_WRITE: a reserved or read-only register ignores the write (R365). -/
def execRegisterWrite (_offset : Nat) (_v : DWord) (s : State) : Out := runE s (pure ())

/-- HOST_WRITE_IGNORED: nothing but HOSTWR changes (R373). -/
def execHostWriteIgnored (_offset : Nat) (_v : DWord) (s : State) : Out :=
  runE s do
    let t ← now
    upd (.mg { t.mg with hostwr := true })

/-- Ring k, when k names one. -/
def modRing (k : Nat) (f : Ring → Ring) : M s Unit := do
  let t ← now
  if k < 64 then upd (.ring k (f (t.ring k))) else pure ()

def modNode (k : Nat) (f : Node → Node) : M s Unit := do
  let t ← now
  match AMap.get? t.nodes k with
  | some n => upd (.node k (f n))
  | none => pure ()

/-- RING_REC_WRITE: ignored while the ring is enabled (R341). -/
def execRingRecWrite (ring : Nat) (v : DWord) (s : State) : Out :=
  runE s (modRing ring fun r => if ringEn r.ctl then r else { r with recVa := v })

/-- RING_STATUS_WRITE clears IGNORED, ERRCOUNT and LOGLOST; a host writes only a ring of its own kind (R341, R373). -/
def execRingStatusWrite (ring : Nat) (host : Bool) (s : State) : Out :=
  runE s do
    let t ← now
    if host && ringCrown (t.ring ring).ctl then upd (.mg { t.mg with hostwr := true })
    else modRing ring fun r => { r with ignored := 0, errcount := 0, loglost := false }

/-- The kick rule of R344; a kick is accepted or ignored, and the answer says which. -/
def Ring.kick (r : Ring) (v : Word) : Ring × Bool :=
  let n := 2 ^ r.rec_.log2n
  if !ringEn r.ctl then (r, false)
  else if 0 < (v - r.kt).toNat && (v - r.kt).toNat ≤ (r.h + BitVec.ofNat 32 n - r.kt).toNat then
    ({ r with kt := v }, true)
  else ({ r with ignored := if r.ignored = 0xFFFF then r.ignored else r.ignored + 1 }, false)

/-- The ring's context belongs to a host whose link is down: its kicks are ignored (R374). -/
def State.ringGone (s : State) (k : Nat) : Bool :=
  match (s.ctx (ringCtx (s.ring k).ctl)).host with
  | some h => s.mg.hostsDown.contains h
  | none => false

/-- RING_KICK (R344, R373, R374). -/
def execRingKick (ring : Nat) (v : Word) (host : Bool) (s : State) : Out :=
  runE s do
    let t ← now
    if host && ringCrown (t.ring ring).ctl then upd (.mg { t.mg with hostwr := true })
    else if t.ringGone ring then pure ()
    else modRing ring fun r => (r.kick v).1

end Sys2Proof.Machine
end

