-- ==== Sys2Proof/Machine/Walks.lean ====
section
/-! DEFINITION. Translation events: walks, replays, and the events of ownership and watches (R142, R144, R155 to R160, R167). -/

namespace Sys2Proof.Machine

variable {s : State}

/-- Run a computation; where it stops, nothing of it stands and the stop is the answer. -/
def tryM {α : Type} (m : M s α) : M s (Except Stop α) := fun r =>
  match m r with
  | .ok (a, r') => .ok (.ok a, r')
  | .error e => .ok (.error e, r)

/-- Run a computation from a state and keep only its answer. -/
def peekM {α : Type} (t : State) (m : M t α) : Option α :=
  match m ⟨t, .refl⟩ with
  | .ok r => some r.1
  | .error _ => none

/-! ## Walks (R155) -/

/-- The walk of a die that a free walker takes next: in arrival order, no context above 128 while another's request waits. -/
def nextWalk (s : State) (die : Nat) : Option Nat :=
  let mine := s.walks.filter fun kv => kv.2.die == die
  let running := mine.filter fun kv => kv.2.running
  let waiting := mine.filter fun kv => !kv.2.running
  if 256 ≤ running.length then none
  else (waiting.find? fun kv =>
    (running.filter fun r => r.2.ctx == kv.2.ctx).length < 128 || waiting.all fun w => w.2.ctx == kv.2.ctx).map (·.1)

/-- WALK_START. -/
def execWalkStart (walk : Nat) (s : State) : Out :=
  runE s do
    let t ← now
    match AMap.get? t.walks walk with
    | none => pure ()
    | some w => if nextWalk t w.die = some walk then upd (.walk walk (some { w with running := true })) else pure ()

/-- The cores of some lookups. -/
def waiterCores (ws : List Waiter) : List Nat := (ws.map (·.core)).dedup

/-- The last-page registers of a train's lanes take a translation (R155). -/
def Train.loadPages (t : Train) (lanes : Mask) (e : Tlb) : Train :=
  { t with lastPage := perLane fun L => if lanes.getLsbD L then some e else t.lastPage.at L }

/-- A leaf serves a lookup: a fetch and a cache instruction need no right of it, the first because a page without X is found at the header (R44). -/
def Waiter.served (w : Waiter) (l : Leaf) : Bool :=
  w.kind == kExec || rightsOk (pteR l.e) (pteW l.e) (pteX l.e) w.kind

/-- The access kinds of lookups, together. -/
def kindsOf (ws : List Waiter) : BitVec 3 := ws.foldl (fun k w => k ||| w.kind) 0

/-- A walk ends with a translation for the lookups it serves: it is cached for their cores, and the register of each lane that misses is loaded with its 64 KiB part, those of an `ldp` too; a fetch uses no such register (R155, R167). -/
def walkInstall (w : Walk) (ws : List Waiter) (l : Leaf) : M s Unit := do
  let t ← now
  let e ← setAD l (kindsOf ws)
  let x := tlbOf (t.tagOf w.ctx) w.page e l.big
  (waiterCores ws).forM fun k => installTlb k x
  (ws.filter fun y => y.kind != kExec).forM fun y =>
    modTrain y.train fun t => t.loadPages y.lanes (x.part w.page)

/-- A walk ends with a fault for some lookups: one report for all of them, which names the first one's train as it was when it looked the page up, and each train that stays at its instruction learns the fault (R156, R158, R167). -/
def walkFault (w : Walk) (ws : List Waiter) (present malformed : Bool) : M s Unit := do
  let t ← now
  let tag := t.tagOf w.ctx
  ws.forM fun x => modTrain x.train fun y =>
    let y := if present then y.dropPages x.lanes tag w.page else y
    if x.stays then { y with xl := y.xl ++ [⟨w.page, present, malformed, x.lanes⟩] } else y
  if present then (waiterCores ws).forM fun k => dropPath k tag w.page else pure ()
  match ws.filter fun x => x.kind != 0 with
  | [] => pure ()
  | first :: rest =>
    let ws := first :: rest
    let lanes := (ws.map fun x => laneCount x.lanes).foldl (· + ·) 0
    reportFault (some w.cluster) w.ctx
      { page := w.page, kind := kindsOf ws, nopark := ws.all (·.nopark), malformed := malformed, present := present,
        core := first.core, count := ws.length, dispatch := first.dispatch, wheel := first.wheel, train := first.index,
        lanes := lanes }

/-- WALK_COMPLETE: one walk answers every lookup that waits on it; those whose right the leaf lacks fault (R156, R167). -/
def execWalkComplete (walk : Nat) (s : State) : Out :=
  runE s do
    let t ← now
    match AMap.get? t.walks walk with
    | none => pure ()
    | some w =>
      if !w.running then pure ()
      else do
        upd (.walk walk none)
        match walkTable t.mem (t.ctx w.ctx).ptbase.toNat w.page with
        | .absent_ => walkFault w w.waiters false false
        | .malformed => walkFault w w.waiters false true
        | .leaf l => do
          let (good, bad) := w.waiters.partition fun x => x.served l
          if good.isEmpty then pure () else walkInstall w good l
          if bad.isEmpty then pure () else walkFault w bad true false

/-! ## Replay (R160) -/

/-- A parked train goes on; one parked at a header fetches it again, and has not reissued before that fetch resolves. -/
def Train.replayed (t : Train) : Train :=
  { t with park := t.park.map fun p => { p with faulted := false, resume := 0 }, xl := [] }

/-- FB_REPLAY_GO: held while the context is saved or an earlier replay lasts; else the marks are cleared and every parked train, held operation, job, query and ring goes on. A train whose walk has met a fault that it has not parked for yet looks the page up again (R160). -/
def execFbReplayGo (ctx : Nat) (s : State) : Out :=
  runE s do
    let t ← now
    let x := t.ctx ctx
    if t.replayBusy ctx || x.saved then upd (.ctx ctx { x with replayHeld := true })
    else do
      let parked := t.trains.filter fun kv => t.ctxOf kv.2 == ctx && (!kv.2.xl.isEmpty || match kv.2.park with
        | some p => p.faulted
        | none => false)
      upd (.marks (t.marks.filter fun m => m.ctx != ctx))
      upd (.ctx ctx { x with replaying := parked.map (·.1), replayHeld := false })
      updAll (parked.map fun kv => .train kv.1 (some kv.2.replayed))
      let mine (id : Nat) : Bool := match AMap.get? t.trains id with
        | some y => t.ctxOf y == ctx
        | none => false
      updAll ((t.esu.filter fun kv => kv.2.held && mine kv.2.train).map fun kv =>
        .esu kv.1 (some { kv.2 with held := false }))
      updAll ((t.matrix.filter fun kv => kv.2.held && mine kv.2.train).map fun kv =>
        .matrix kv.1 (some { kv.2 with held := false }))
      updAll ((t.stream.filter fun kv => kv.2.held && mine kv.2.train).map fun kv =>
        .stream kv.1 (some { kv.2 with held := false }))
      updAll ((t.ray.filter fun kv => kv.2.held && mine kv.2.train).map fun kv =>
        .ray kv.1 (some { kv.2 with held := false }))
      updAll ((t.jobs.filter fun kv => kv.2.held && kv.2.ctx == ctx).map fun kv =>
        .job kv.1 (some { kv.2 with held := false }))
      updAll ((t.nodes.filter fun kv => kv.2.held && kv.2.ctx == ctx).map fun kv =>
        .node kv.1 { kv.2 with held := false })
      updAll (((List.range 64).filter fun k => (t.ring k).held && ringCtx (t.ring k).ctl == ctx).map fun k =>
        .ring k { t.ring k with held := false })
      let y ← now
      updAll ((y.trains.filter fun kv => y.ctxOf kv.2 == ctx && (match kv.2.ray with
          | some q => q.held
          | none => false)).map fun kv =>
        .train kv.1 (some { kv.2 with ray := kv.2.ray.map fun q => { q with held := false } }))

/-! ## Ownership and watches (R142, R144) -/

/-- OWNERSHIP_RECALL: the sector is written back and its ownership ends. -/
def execOwnershipRecall (sector : Nat) (s : State) : Out := runE s (disown sector)

/-- The train waits in an `mwait`. -/
def Train.monitoring (t : Train) : Bool :=
  match t.wait with
  | some w => w.on == .monitor
  | none => false

/-- MONITOR_WAKE: a write with a greater wts reached the watched sector, or the watch was lost (R142); or a write to the token that a `gwait` waits on, which waits as `mon` does, satisfies it (R358). -/
def execMonitorWake (train : Nat) (s : State) : Out :=
  runE s do
    let t ← now
    match AMap.get? t.trains train with
    | none => pure ()
    | some x =>
      match x.wait with
      | some w =>
        match w.on with
        | .token _ pa v =>
          if v.toNat ≤ Bytes.read t.mem pa 8 then wakeTrains fun k _ => k == train else pure ()
        | .monitor => match x.watch with
          | some y => if y.hit || y.lost then wakeTrains fun k _ => k == train else pure ()
          | none => pure ()
        | _ => pure ()
      | none => pure ()

/-- WATCH_LOST: the home slice drops the watch, which ends a waiting `mwait`. -/
def execWatchLost (train : Nat) (s : State) : Out :=
  runE s do
    let t ← now
    match AMap.get? t.trains train with
    | none => pure ()
    | some x =>
      match x.watch with
      | none => pure ()
      | some w => do
        upd (.train train (some { x with watch := some { w with lost := true } }))
        wakeTrains fun k y => k == train && y.monitoring

end Sys2Proof.Machine
end

