-- ==== Sys2Proof/Machine/Perform.lean ====
section
/-! DEFINITION. How loads, stores and atomics are performed: entries leave the store FIFO, writes are applied at their serving points, values return; deferred traps; and the accesses an engine makes for a context (R118, R124 to R133, R204, R254). -/

namespace Sys2Proof.Machine

variable {s : State}

/-! ## Writes (R124, R126, R127, R133) -/

/-- Some granule of the bytes is locked by a token holder (R239). -/
def lockedBytes (locks : AMap Lock) (pa n : Nat) : Bool :=
  locks.any fun kv => kv.1 < pa + n && pa < kv.1 + 8

/-- Two writes touch a common byte. -/
def Write.meets (a b : Write) : Bool := b.acc.any fun x => a.overlaps x.pa b.n

/-- The locks of other trains' lanes: a holder's own earlier stores do not wait for its locks (R239). -/
def othersLocks (locks : AMap Lock) (train : Nat) : AMap Lock := locks.filter fun kv => kv.2.train != train

/-- A write may be performed now: its release has been counted, no older write of the core to its bytes stands before it, DEVICE accesses keep their order, no lock of another train holds it. -/
def writeReady (t : State) (older : List Write) (w : Write) : Bool :=
  w.after.isEmpty && !(older.any fun o => o.meets w)
    && !(w.has .device && older.any fun o => o.train == w.train && o.has .device)
    && !(w.acc.any fun a => lockedBytes (othersLocks t.locks w.train) a.pa w.n)

/-- Forget, or update, the issuing core's L1 copy of bytes written at a write time. -/
def l1Written (core pa n v wts : Nat) (drop : Bool) : M s Unit := do
  let t ← now
  let c := t.core core
  match AMap.get? c.l1 (pa / 1024) with
  | none => pure ()
  | some l =>
    if drop then upd (.core core { c with l1 := AMap.erase c.l1 (pa / 1024) })
    else upd (.core core { c with l1 := AMap.set c.l1 (pa / 1024) { l with
        bytes := Bytes.write l.bytes (pa % 1024) n v, wts := max l.wts wts } })

/-- The core's leased copy of a line goes, so that no later load returns an older value than one just read at the home (R130). -/
def dropL1 (core pa : Nat) : M s Unit := do
  let t ← now
  let c := t.core core
  upd (.core core { c with l1 := AMap.erase c.l1 (pa / 1024) })

/-- Apply one lane of a write where its own page places it; answers the old value, its write time, and the new write time. A `cas` whose comparison fails writes nothing (R132, R133). -/
def applyLane (core ctx floor : Nat) (w : Write) (a : LaneAcc) : M s (Nat × Nat × Nat) := do
  let t ← now
  if t.region a.pa == .mmio then do
    mmioWrite false (a.pa - mmioBase) w.n a.data.toNat
    pure (0, 0, 0)
  else do
    let near := w.kind != .store && a.place == .near && a.attr == .cached
    if near then takeOwn core ctx a.va.toNat a.pa else touchOwn core a.pa
    let old ← homeRead (some core) a.pa w.n
    let t ← now
    let seen := (t.line a.pa).wts
    let v := wkindVal w.kind w.n old (bits a.data.toNat 0 (8 * w.n)) a.exp.toNat
    if w.kind == .cas && old != a.exp.toNat then do
      dropL1 core a.pa
      pure (old, seen, 0)
    else do
      let now_ ← homeWrite (some core) floor a.pa w.n v
      l1Written core a.pa w.n v now_ (w.fresh || w.kind != .store)
      pure (old, seen, now_)

/-- The dispatch of a train has had a side effect (R354). -/
def sideEffect (id : Nat) : M s Unit := do
  let t ← now
  match (AMap.get? t.trains id).bind t.wheelOf with
  | none => pure ()
  | some w => match AMap.get? t.dispatches w.dispatch with
    | some d => upd (.dispatch w.dispatch (some { d with se := true }))
    | none => pure ()

/-- The lanes of a write whose accesses miss the core's L1: a store finds no line there, an atomic or an access of an uncached page no owned sector (R161). -/
def writeMisses (t : State) (core : Nat) (w : Write) : List (Nat × Nat) :=
  (w.acc.filter fun a => t.ownerOf a.pa != some core &&
    (w.kind != .store || a.attr != .cached || !AMap.has (t.core core).l1 (a.pa / 1024))).map fun a => (a.va.toNat, a.pa)

/-- Perform a write that has left its FIFO: every lane in order; old values to the destination; an acquire moves the core's clock; a release lies past the train's writes and past what its core has acquired (R127, R128, R131 to R133, R382). -/
def performWrite (core : Nat) (w : Write) : M s Unit := do
  let t ← now
  let ctx := match AMap.get? t.trains w.train with
    | some x => t.ctxOf x
    | none => 0
  let c := t.core core
  upd (.core core { c with writes := c.writes.filter fun x => x.id != w.id })
  chimeAll core ctx (writeMisses t core w)
  if w.kind != .store || w.acc.any (fun a => a.place == .link) then sideEffect w.train else pure ()
  w.acc.forM fun a => do
    let t ← now
    let floor := match AMap.get? t.trains w.train with
      | some x => if w.rel then max x.wtsMax (t.core core).clock else 0
      | none => 0
    let (old, seen, wts) ← applyLane core ctx floor w a
    modTrain w.train fun x =>
      let x := { x with wtsMax := max x.wtsMax wts }
      match w.dst with
      | some d => putLoaded x d (w.n / 4) a.lane (BitVec.ofNat 128 old)
      | none => x
    if w.acq then do
      let t ← now
      let c := t.core core
      upd (.core core { c with clock := max c.clock seen })
    else pure ()
  finishOp w.train w.op

/-- Writes of the core before one. -/
def olderWrites (c : Core) (id : Nat) : List Write := c.writes.takeWhile fun x => x.id != id

/-- WRITE_PERFORMED. -/
def execWritePerformed (core id : Nat) (s : State) : Out :=
  runE s do
    let t ← now
    let c := t.core core
    match c.writes.find? fun w => w.id == id with
    | none => pure ()
    | some w => if writeReady t (olderWrites c id) w then performWrite core w else pure ()

/-- RELEASE_MARKER_COUNTED: the writes the marker counts have all been performed (R127). -/
def execReleaseMarkerCounted (core id : Nat) (s : State) : Out :=
  runE s do
    let t ← now
    let c := t.core core
    upd (.core core { c with writes := c.writes.map fun w =>
      if w.id == id && !(c.writes.any fun o => w.after.contains o.id) then { w with after := [] } else w })

/-- An earlier load of the train holds the entry back: any load, for a release; a load of its bytes; a DEVICE load, for a DEVICE entry (R119, R125, R127). -/
def leaveHeld (t : Train) (w : Write) : Bool :=
  t.loads.any fun l => l.id < w.id &&
    (w.rel || (w.has .device && l.has .device) ||
      l.acc.any fun a => (List.range l.n).any fun i => w.touches (a.pa + i))

/-- A token holder of the core holds a lock on bytes that another train's entry writes: the entry waits in its FIFO, since outside it would hold back the holder's own writes and reads of its core (R124, R239, R240; log entry 11). -/
def coreLocked (t : State) (train : Nat) (w : Write) : Bool :=
  (othersLocks t.locks train).any fun kv => w.overlaps kv.1 8 && (match AMap.get? t.trains kv.2.train, AMap.get? t.trains train with
    | some y, some x => t.coreOf y == t.coreOf x
    | _, _ => false)

/-- STORE_FIFO_ENTRY_LEAVE: the oldest entry leaves, a release as a marker that counts the train's writes under way; a store to sectors the core owns is performed at once (R118, R124, R127). -/
def execStoreFifoEntryLeave (train : Nat) (s : State) : Out :=
  runE s do
    let t ← now
    match AMap.get? t.trains train with
    | none => pure ()
    | some x =>
      match x.fifo with
      | [] => pure ()
      | w :: rest =>
        if leaveHeld x w || coreLocked t train w then pure ()
        else do
          let k := t.coreOf x
          let c := t.core k
          let w := { w with after := if w.rel then (c.writesOf train).map (·.id) else [] }
          upd (.train train (some { x with fifo := rest }))
          upd (.core k { c with writes := c.writes ++ [w] })
          if w.kind == .store && w.acc.all (fun a => a.attr == .cached && t.ownerOf a.pa == some k) &&
              writeReady t c.writes w then performWrite k w
          else pure ()

/-! ## Loads (R118, R119, R126, R128) -/

/-- A lane of a load is served at the home: fresh, or on a page whose accesses the home serves. -/
def Load.atHome (l : Load) (a : LaneAcc) : Bool := l.fresh || a.attr != .cached

/-- An older access keeps a load waiting (R118, R119, R130, R133). An acquire waits for every write of its core to its bytes, so that it reads no release before the writes that the release covers are performed (R127, R382). -/
def loadHeld (id : Nat) (t : Train) (c : Core) (l : Load) : Bool :=
  let older := t.fifo.filter fun w => w.id < l.id
  l.acc.any (fun a =>
    fifoRead older a.pa l.n == .waits
      || (t.loads.any fun o => o.id < l.id && o.acc.any fun b => b.pa < a.pa + l.n && a.pa < b.pa + o.n)
      || (c.writes.any fun w => w.overlaps a.pa l.n &&
            (l.acq || (w.kind != .store && w.train == id) || (l.atHome a && fifoRead older a.pa l.n == .clear))))
    || (l.has .device && ((t.loads.any fun o => o.id < l.id && o.has .device)
          || older.any (fun w => w.has .device) || (c.writesOf id).any fun w => w.has .device && w.id < l.id))

/-- Bytes under way from the core over bytes found. -/
def coreOverlay (c : Core) (pa n v : Nat) : Nat :=
  (List.range n).foldl (fun acc i =>
    let b := match (c.writes.filter fun w => w.kind == .store && w.touches (pa + i)).getLast? with
      | some w => (w.byteAt (pa + i)).toNat
      | none => v / 256 ^ i % 256
    acc + b * 256 ^ i) 0

/-- One lane's value and its write time. -/
def loadLane (core ctx : Nat) (fifo : List Write) (l : Load) (a : LaneAcc) : M s (Nat × Nat) := do
  match fifoRead fifo a.pa l.n with
  | .fwd v => pure (v, 0)
  | _ => do
    let t ← now
    if t.region a.pa == .mmio then pure (mmioRead t (a.pa - mmioBase) l.n, 0)
    else if l.atHome a then do
      let v ← homeRead (some core) a.pa l.n
      let t ← now
      let c := t.core core
      upd (.core core { c with l1 := AMap.erase c.l1 (a.pa / 1024) })
      pure (v, (t.line a.pa).wts)
    else
      let c := t.core core
      match AMap.get? c.l1 (a.pa / 1024) with
      | some x =>
        if t.ownerOf a.pa = some core then do
          touchOwn core a.pa
          pure (coreOverlay c a.pa l.n (Bytes.read t.mem a.pa l.n), (t.line a.pa).wts)
        else if c.clock ≤ x.rts then pure (coreOverlay c a.pa l.n (Bytes.read x.bytes (a.pa % 1024) l.n), x.wts)
        else fill c
      | none =>
        if t.ownerOf a.pa = some core then do
          touchOwn core a.pa
          pure (coreOverlay c a.pa l.n (Bytes.read t.mem a.pa l.n), (t.line a.pa).wts)
        else fill c
where
  /-- Read at the home and take a new lease. -/
  fill (c : Core) : M s (Nat × Nat) := do
    let t ← now
    fillLine core (t.ctx ctx).lease.toNat a.pa
    let t ← now
    pure (coreOverlay c a.pa l.n (Bytes.read t.mem a.pa l.n), (t.line a.pa).wts)

/-- The lanes of a load whose accesses miss the core's L1 (R161). -/
def loadMisses (t : State) (core : Nat) (fifo : List Write) (l : Load) : List (Nat × Nat) :=
  (l.acc.filter fun a => (match fifoRead fifo a.pa l.n with | .fwd _ => false | _ => true) &&
    t.ownerOf a.pa != some core && (l.atHome a || !l1Serves t core a.pa)).map fun a => (a.va.toNat, a.pa)

/-- LOAD_VALUE_RETURN: the value of a load part is fixed and written; an acquire moves the core's clock; `ldp` clears its predicate (R118, R120, R128). -/
def execLoadValueReturn (train op : Nat) (s : State) : Out :=
  runE s do
    let t ← now
    match AMap.get? t.trains train with
    | none => pure ()
    | some x =>
      match x.loads.find? fun l => l.id == op with
      | none => pure ()
      | some l =>
        let core := t.coreOf x
        let ctx := t.ctxOf x
        let fifo := x.fifo.filter fun w => w.id < l.id
        if loadHeld train x (t.core core) l then pure ()
        else do
          chimeAll core ctx (loadMisses t core fifo l)
          l.acc.forM fun a => do
            let (v, wts) ← loadLane core ctx fifo l a
            modTrain train fun y => putLoaded y l.dst l.regs a.lane (extLoad l.ext l.n v)
            if l.acq then do
              let t ← now
              let c := t.core core
              upd (.core core { c with clock := max c.clock wts })
            else pure ()
          modTrain train fun y =>
            let y := { y with loads := y.loads.filter fun o => o.id != l.id }
            match l.ldp with
            | some (p, m) => y.setP p.toNat m 0
            | none => y
          finishOp train l.op

/-! ## Deferred traps (R204) -/

/-- A deferred trap of the instruction `op` joins the others in issue order; it comes early where the word that the train stands at waits for its destination. -/
def Train.defers (t : Train) (op : Nat) (cause : Byte) (lanes : Option Mask) (tval : Option DWord) : Train :=
  let f := t.inflight.find? fun f => f.id == op
  let dests := match f with | some f => f.dests | none => []
  let d : Deferred :=
    { order := op, cause := cause, lanes := lanes, tval := tval.getD (match f with | some f => f.addr | none => 0),
      inTm := (match f with | some f => f.inTm | none => false)
      early := (match t.clause with | some c => c.names dests | none => false), dests := dests }
  { t with deferred := (t.deferred.filter fun x => x.order < op) ++ [d] ++ t.deferred.filter fun x => op ≤ x.order }

/-- An instruction found a trap after it issued: it completes with no effect and its trap is deferred. Its value is the instruction's address unless the cause names another. -/
def deferTrap (id op : Nat) (cause : Byte) (lanes : Option Mask) (tval : Option DWord) : M s Unit :=
  modTrain id fun t => (t.defers op cause lanes tval).complete op

/-- DEFERRED_TRAP: the first due trap is taken at the boundary, or before the waiting instruction; a train that is ending fails its dispatch (R75, R204). -/
def execDeferredTrap (train : Nat) (s : State) : Out :=
  runE s do
    let t ← now
    match AMap.get? t.trains train with
    | none => pure ()
    | some x =>
      if x.ending then
        match x.deferred, t.wheelOf x with
        | d :: _, some w => do
          updAll (failUpds t w.dispatch d.cause x.here.pc)
          modTrain train fun x => { x with deferred := [] }
        | _, _ => pure ()
      else
        match x.dueTrap with
        | none => pure ()
        | some d =>
          let x := { x with deferred := x.deferred.erase d }
          updAll (trapUpds t train x x.here d.cause (d.lanes.getD x.em) d.tval d.inTm)

/-! ## Engine accesses (R13, R153, R254, R364) -/

/-- Every write the issuing train could read at the issue of `op` is performed, and so is every earlier acquire and `tlbsync` of the train (R13, R128, R165). -/
def issueDone (t : State) (train op : Nat) : Bool :=
  match AMap.get? t.trains train with
  | none => true
  | some x => !(x.fifo.any fun w => w.id < op) && !((t.core (t.coreOf x)).writes.any fun w => w.id < op)
      && !(x.loads.any fun l => l.acq && l.id < op) && !(t.tlbis.any fun i => i.sync && i.train == train && i.op < op)

/-- An engine may act for the operation `op` of a train: what precedes its issue is performed, and the reads of a query that it waited for are made (R13, R128, R165, R333). -/
def engineMay (t : State) (train op : Nat) : Bool :=
  issueDone t train op && !(match AMap.get? t.trains train with
    | some x => x.queryFirst op
    | none => false)

/-- Translate an engine's access and check it; a cause stops the operation with the VA as its value. -/
def engineX (core ctx : Nat) (priv dev : Bool) (va : Nat) (kind : BitVec 3) : M s Nat := do
  if 2 ^ 55 ≤ va then stop (.trap ePerm none (some (BitVec.ofNat 64 va)))
  else do
    let e ← walkNow core ctx va kind
    let t ← now
    match accessCause t priv dev e va with
    | some c => stop (.trap c none (some (BitVec.ofNat 64 va)))
    | none => pure (e.paOf va)

/-- Read `n` bytes that lie in one sector. -/
def engineRead (core ctx : Nat) (priv dev : Bool) (va n : Nat) : M s Nat := do
  let pa ← engineX core ctx priv dev va kRead
  let t ← now
  if t.region pa == .mmio then pure (mmioRead t (pa - mmioBase) n) else homeRead none pa n

/-- Write `n` bytes that lie in one sector; a locked granule holds the writer back; the issuing core's clock follows the write, so that any later acquire of its trains sees it (R13, R239). The answer says whether the page is LINK-placed (R354). -/
def engineWrite (core ctx : Nat) (priv dev : Bool) (va n v : Nat) : M s Bool := do
  let pa ← engineX core ctx priv dev va kWrite
  let t ← now
  if lockedBytes t.locks pa n then stop .wait
  else if t.region pa == .mmio then do
    mmioWrite false (pa - mmioBase) n v
    pure false
  else do
    let w ← homeWrite none 0 pa n v
    let t ← now
    let c := t.core core
    upd (.core core { c with clock := max c.clock w, l1 := AMap.erase c.l1 (pa / 1024) })
    pure (t.region pa == .fabric)

/-- Report the fault that holds an engine operation, as the fault of a train (R158, R219). -/
def reportHeld (id : Nat) (page : DWord) (kind : BitVec 3) (present malformed : Bool) (lanes : Nat) : M s Unit := do
  let t ← now
  match AMap.get? t.trains id with
  | none => pure ()
  | some x =>
    let core := t.coreOf x
    if present then dropPath core (t.tagOf (t.ctxOf x)) page.toNat else pure ()
    reportFault (some (t.clusterOf core)) (t.ctxOf x)
      (trainReport t x ⟨page.toNat, present, malformed, 0⟩ kind false lanes)

end Sys2Proof.Machine
end

