-- ==== Sys2Proof/Machine/Jobs.lean ====
section
/-! DEFINITION. What the engines share: transaction barriers, engine jobs and their footprints, delivery of sectors, and how a job ends (R12, R13, R140, R254, R255 to R258). -/

namespace Sys2Proof.Machine

variable {s : State}

/-! ## Transaction barriers (Table 14-4) -/

structure TBar where
  rsvd : Nat
  pend : Nat
  reset : Nat
  arr : Nat
  phase : Nat
  deriving DecidableEq, Repr

def TBar.ofNat (w : Nat) : TBar :=
  { rsvd := bits w 68 60, pend := bits w 36 32, reset := bits w 20 16, arr := bits w 4 16, phase := bits w 0 4 }

def TBar.toNat (b : TBar) : Nat :=
  b.rsvd * 2 ^ 68 + b.pend * 2 ^ 36 + b.reset * 2 ^ 20 + b.arr * 2 ^ 4 + b.phase

/-- A flip, when both counts have come to zero (R257). -/
def TBar.flip (b : TBar) : TBar × Bool :=
  if b.arr = 0 && b.pend = 0 then ({ b with phase := (b.phase + 1) % 16, arr := b.reset, pend := 0 }, true)
  else (b, false)

def localOf (t : State) (wheel : Nat) : Bytes :=
  match AMap.get? t.wheels wheel with
  | some w => w.local_
  | none => []

def tbGet (t : State) (wheel a : Nat) : TBar := TBar.ofNat (Bytes.read (localOf t wheel) a 16)

/-- Write bytes of a wheel's local store. -/
def putLocal (wheel : Nat) (f : Bytes → Bytes) : M s Unit := do
  let t ← now
  match AMap.get? t.wheels wheel with
  | none => pure ()
  | some w => upd (.wheel wheel (some { w with local_ := f w.local_ }))

/-- End the waits on a transaction barrier that a phase other than the current one ends (R256, R257). -/
def wakeTb (wheel a : Nat) : M s Unit := do
  let t ← now
  let now_ := (tbGet t wheel a).phase
  wakeTrains fun _ x => x.wheel == wheel && (match x.wait with | some ⟨.tb b ph, _, _⟩ => b == a && ph != now_ | _ => false)

/-- Update a barrier and flip it if it is complete; a flip is a barrier release of the wheel (R69, R257). -/
def tbUpdate (wheel a : Nat) (f : TBar → TBar) : M s Unit := do
  let t ← now
  let (b, flipped) := (f (tbGet t wheel a)).flip
  putLocal wheel fun m => Bytes.write m a 16 b.toNat
  if flipped then do
    wheelReleased wheel
    wakeTb wheel a
  else pure ()

/-- Add to the sectors a barrier expects, modulo 2^32. -/
def tbExpect (wheel a : Nat) (n : Int) : M s Unit :=
  tbUpdate wheel a fun b => { b with pend := (((b.pend : Int) + n) % (2 ^ 32 : Nat)).toNat }

/-- The checks of a barrier address; each trap reports the instruction word (R46, R255). -/
def tbCheck (t : State) (tr : Train) (a : Nat) : Option Byte :=
  if a % 16 ≠ 0 then some eMisalign
  else if localSize t tr < a + 16 then some ePerm
  else if (tbGet t tr.wheel a).rsvd ≠ 0 then some eIllOperand
  else none

def tbCheckM (r : Iss) (a : Nat) : M s Unit := do
  let t ← now
  match tbCheck t r.t a with
  | some c => raise c
  | none => pure ()

/-! ## Engine queues -/

/-- An engine instruction issues: it captures its operands and stands in a queue under its own identity; `dests` and `tiles` are interlocked (R47, R48, R205). -/
def enqueue (r : Iss) (i : Instr) (cap : Cap) (words : List Nat) (dests : List Reg) (tiles : List Nat)
    (q : Nat → EngineOp → Upd) (f : Train → Train) : M s Nat := do
  let op ← freshId
  modTrain r.id fun _ => r.issued op dests tiles f
  upd (q op { id := op, train := r.id, instr := i, cap := cap, held := false, step := 0, pos := 0, words := words })
  pure op

/-- Operands read in every lane: up to three 64-bit ones and one of 128 bits. -/
def capOf (r : Iss) (a b c : Nat → DWord) (x : Nat → BitVec 128) : Cap :=
  { act := r.act, em := r.t.em, a := perLane a, b := perLane b, c := perLane c, x := perLane x }

def zero64 : Nat → DWord := fun _ => 0
def zero128 : Nat → BitVec 128 := fun _ => 0

/-- The head of a train's operations in a queue. -/
def firstOf (q : AMap EngineOp) (train : Nat) : Option Nat := (q.find? fun kv => kv.2.train == train).map (·.1)

/-- Some operation of a train stands in a queue. -/
def hasOps (q : AMap EngineOp) (train : Nat) : Bool := q.any fun kv => kv.2.train == train

/-- Complete an operation of a train, or complete it with a deferred trap. Its writes count among the train's earlier ones, so a later release is placed after them (R13, R263). -/
def endOp (id op : Nat) (trap : Option (Byte × Option Mask × Option DWord)) : M s Unit := do
  let t ← now
  modTrain id fun x => { x with wtsMax := max x.wtsMax (t.core (t.coreOf x)).clock }
  match trap with
  | some (c, lanes, v) => deferTrap id op c lanes v
  | none => modTrain id fun t => t.complete op

/-! ## Elements and moves (R245, R248 to R253) -/

/-- In-bounds coordinates of an element, or none; STRICT refuses. -/
def normCoords (l : Layout) (c : List Int) : Except Byte (Option (List Int)) :=
  let ks := List.range l.ndim
  let inb := ks.all fun k => 0 ≤ c.getD k 0 && c.getD k 0 < (l.size.getD k 0 : Int)
  if inb then .ok (some c)
  else match l.oob with
    | 0 => .ok none
    | 1 => .ok (some (ks.map fun k => c.getD k 0 % (l.size.getD k 1 : Int)))
    | _ => .error ePerm

def dot (l : Layout) (c : List Int) : Int :=
  ((List.range l.ndim).map fun k => c.getD k 0 * l.stride.getD k 0).foldl (· + ·) 0

/-- A byte address modulo 2^64. -/
def wrap64 (x : Int) : Nat := (x % (2 ^ 64 : Nat)).toNat

/-- The coordinates of a box, dimension 0 fastest. -/
def boxCoords : List Nat → List (List Int)
  | [] => [[]]
  | n :: ns => (boxCoords ns).flatMap fun rest => (List.range n).map fun (i : Nat) => (i : Int) :: rest

def addC (a b : List Int) : List Int := (List.range 4).map fun k => a.getD k 0 + b.getD k 0

def setC (a : List Int) (k : Nat) (x : Int) : List Int := (List.range 4).map fun j => if j = k then x else a.getD j 0

/-- Extents, 1 beyond the source's dimensions. -/
def Slice.exts (x : Slice) : List Nat := (List.range 4).map fun k => if k < x.src.ndim then x.ext.getD k 0 else 1

/-- The elements a slice moves: receiver, source and destination coordinates; `idx` is the index list of `cpg`. An empty slice moves nothing (R248). -/
def Slice.moves (x : Slice) (idx : Nat → Int) : List (Nat × List Int × List Int) :=
  let d := x.src.ndim - 1
  let box := boxCoords x.exts
  if x.exts.contains 0 then []
  else match x.kind with
  | .cpy => box.map fun e => (0, addC x.srcOrg e, addC x.dstOrg e)
  | .cpt => box.map fun e => (0, addC x.srcOrg e, addC x.dstOrg [e.getD 1 0, e.getD 0 0, e.getD 2 0, e.getD 3 0])
  | .cpym =>
    let extd : Int := (x.ext.getD d 0 : Nat)
    let ownBox := boxCoords (x.exts.set d x.own)
    (List.range x.nrecv).flatMap fun r =>
      (box.map fun e => (r, addC x.srcOrg e, addC x.dstOrg e)) ++
      (ownBox.map fun e => (r, addC (setC x.srcOrg d (x.srcOrg.getD d 0 + extd + (r * x.own : Nat))) e,
                               addC (setC x.dstOrg d (x.dstOrg.getD d 0 + extd)) e))
  | .cpg =>
    box.map fun e =>
      let m := (e.getD d 0).toNat
      (0, setC (addC x.srcOrg e) d (idx m), addC x.dstOrg e)

def spaceOf (l : Layout) : Space := if l.loc then .loc else .glob

def Slice.off (x : Slice) (r : Nat) : Int := if x.kind == .cpym then x.rstride * (r : Nat) else 0

def ringOf (w : Wheel) (k : Nat) : Option WRing := w.rings[k % 4]'(Nat.mod_lt _ (by decide))

/-! ## Footprints (R12) -/

/-- Two jobs name bytes of one address space. -/
def sameSpace (sp : Space) (a b : Job) : Bool :=
  match sp with
  | .glob => a.ctx == b.ctx
  | .loc => a.wheel == b.wheel

/-- A later job must wait for an earlier one: it writes what the earlier one reads or writes, or reads what it writes. -/
def conflict (later earlier : Job) : Bool :=
  (later.writes.any fun w => sameSpace w.1 later earlier && (earlier.reads.contains w || earlier.writes.contains w))
    || later.reads.any fun r => sameSpace r.1 later earlier && earlier.writes.contains r

/-- A job stands before another in the checker's order. -/
def jobBefore (a b : Nat × Job) : Bool := a.2.order < b.2.order || (a.2.order == b.2.order && a.1 < b.1)

def isCopy : Instr → Bool
  | .cpy .. | .cpym .. | .cpt .. | .cpg .. => true
  | _ => false

/-- Sectors a list of bytes covers. -/
def sectorsOf (sp : Space) (bytes : List Nat) : List (Space × Nat) := (bytes.map fun a => (sp, a / 128)).dedup

/-- The elements of tile q of a ring, with each one's place in its slot (R260). -/
def WRing.cells (r : WRing) (q : Nat) : List (Nat × List Int) :=
  let l := r.lay
  let digits := (List.range 4).map fun k => q / (r.count.take k).foldl (· * ·) 1 % max 1 (r.count.getD k 1)
  let slot := r.slotBase + (q % r.slots.length) * r.slotBytes
  (boxCoords ((List.range 4).map fun k => if k < l.ndim then l.tile.getD k 1 else 1)).zipIdx.map fun (c, i) =>
    (slot + 2 ^ l.esize * i, (List.range 4).map fun k =>
      if k < l.ndim then (r.org.getD k 0 + (digits.getD k 0 : Int)) * (l.tile.getD k 1 : Int) + c.getD k 0 else 0)

/-! ## Delivery (R254) -/

/-- Read `n` bytes of one sector for a job. -/
def jobRead (j : Job) (sp : Space) (a n : Nat) : M s Nat :=
  match sp with
  | .glob => engineRead j.core j.ctx j.priv false a n
  | .loc => do
    let t ← now
    pure (match j.wheel with
      | some w => Bytes.read (localOf t w) a n
      | none => 0)

def srcByte (j : Job) : ByteSrc → M s Byte
  | .zero => pure 0
  | .imm b => pure b
  | .mem sp a => do
    let v ← jobRead j sp a 1
    pure (BitVec.ofNat 8 v)

/-- Perform bytes of one GLOBAL sector at its serving point (R124): one write time; a locked granule holds them back (R239); the core's clock follows, so that an acquire of its trains sees them (R263). -/
def engineBytes (core ctx : Nat) (priv : Bool) (bytes : List (Nat × Byte)) : M s Bool := do
  match bytes with
  | [] => pure false
  | (a, _) :: _ => do
    let base := a / 128 * 128
    let pa ← engineX core ctx priv false base kWrite
    let t ← now
    if bytes.any fun b => lockedBytes t.locks (pa + b.1 % 128) 1 then stop .wait
    else do
      recallOwner none pa
      let w ← takeWts pa 0
      updAll (bytes.map fun b => .byte (pa + b.1 % 128) b.2)
      let t ← now
      let c := t.core core
      upd (.core core { c with clock := max c.clock w, l1 := AMap.erase c.l1 (pa / 1024) })
      pure (t.region pa == .fabric)

/-- The node of a job, or its wheel's dispatch, has had a side effect (R354). -/
def jobSideEffect (j : Job) : M s Unit := do
  let t ← now
  match j.node, j.wheel with
  | some n, _ => modNode n fun x => { x with se := true }
  | none, some w => match (AMap.get? t.wheels w).map (·.dispatch) with
    | some k => match AMap.get? t.dispatches k with
      | some d => upd (.dispatch k (some { d with se := true }))
      | none => pure ()
    | none => pure ()
  | none, none => pure ()

/-- Write bytes of a wheel's local store for a job: those of a waited-on word are dropped, and the lowest such word is the answer (R140, R258). -/
def engineLocal (wheel : Nat) (bytes : List (Nat × Byte)) : M s (Option Nat) := do
  let t ← now
  let words := waitedWords t wheel
  let hit (a : Nat) : Bool := words.any fun w => w.1 ≤ a && a < w.1 + w.2
  putLocal wheel fun m => (bytes.filter fun b => !hit b.1).foldl (fun m b => Bytes.put m b.1 b.2) m
  pure (clobbered words (bytes.map (·.1)))

/-- Deliver bytes of one sector; the answer is a dropped word. -/
def deliverBytes (j : Job) (sec : Sector) : M s (Option Nat) := do
  let vals ← sec.bytes.mapM fun b => do
    let v ← srcByte j b.2
    pure (b.1, v)
  match sec.space, j.wheel with
  | .loc, some w => engineLocal w vals
  | .loc, none => pure none
  | .glob, _ => do
    let link ← engineBytes j.core j.ctx j.priv vals
    if link then jobSideEffect j else pure ()
    pure none

/-- Bytes grouped by sector, in order of first appearance; within a sector the last write of a byte stands. -/
def bySector (sp : Space) (slice : Nat) (bytes : List (Nat × ByteSrc)) : List Sector :=
  ((bytes.map fun b => b.1 / 128).dedup).map fun k =>
    { space := sp, slice := slice
      bytes := (bytes.filter fun b => b.1 / 128 == k).foldl
        (fun acc b => acc.filter (fun x => x.1 != b.1) ++ [b]) [] }

/-! ## The end of a job -/

/-- End the waits for a slot of a ring. -/
def wakeRing (wheel k : Nat) : M s Unit :=
  wakeTrains fun _ x => x.wheel == wheel && (match x.wait with | some w => w.on == .ring k | none => false)

def setRing (wheel k : Nat) (f : WRing → WRing) : M s Unit := do
  let t ← now
  match AMap.get? t.wheels wheel with
  | none => pure ()
  | some w => upd (.wheel wheel (some { w with
      rings := w.rings.set (k % 4) ((ringOf w k).map f) (Nat.mod_lt _ (by decide)) }))

/-- A slot of tile q changes its state. -/
def setSlot (wheel k q : Nat) (x : SlotState) : M s Unit := do
  setRing wheel k fun r => { r with slots := r.slots.set (q % r.slots.length) x }
  wakeRing wheel k

/-- A job of a node has ended; the node's completion covers its writes (R10). -/
def nodeJobEnd (node job core : Nat) (cause : Option Byte) : M s Unit := do
  let t ← now
  modNode node fun n => { n with
    jobs := n.jobs.filter (· != job), cause := if n.cause = 0 then cause.getD 0 else n.cause
    wts := max n.wts (t.core core).clock }

/-- Work that waits for room in a core's checker: a ring's next transfer, or the next entry of a COPY or COLLECT node. -/
inductive Todo where
  | ring (order wheel k q : Nat)
  | entry (order node : Nat) (x : Slice)
  deriving DecidableEq, Repr

def Todo.order : Todo → Nat
  | .ring n .. | .entry n .. => n

/-- What waits on a core; an entry of a saved context waits with it (R355). -/
def todos (t : State) (core : Nat) : List Todo :=
  ((t.wheels.filter fun kv => kv.2.core == core).flatMap fun kv => (List.range 4).filterMap fun k =>
    (ringOf kv.2 k).bind fun r => r.todo.head?.map fun q => .ring q.2 kv.1 k q.1) ++
  (t.nodes.filter fun kv => kv.2.core == core && !(t.ctx kv.2.ctx).saved).filterMap fun kv => kv.2.todo.head?.map fun x => .entry x.1 kv.1 x.2

/-- The oldest of what waits: room goes to the instruction issued, or the node started, first (log entry 16). -/
def oldestTodo (l : List Todo) : Option Todo :=
  l.foldl (fun b x => match b with
    | none => some x
    | some y => if x.order < y.order then some x else b) none

/-- A job that has not started. -/
def newJob (order core ctx : Nat) (wheel node : Option Nat) (priv : Bool) (kind : JobKind) : Job :=
  { order := order, core := core, wheel := wheel, ctx := ctx, priv := priv, kind := kind, node := node, started := false,
    held := false, reads := [], writes := [], sectors := [], clobber := [] }

/-- Context and PRIV of a wheel's jobs. -/
def wheelSide (t : State) (w : Wheel) : Nat × Bool :=
  match AMap.get? t.dispatches w.dispatch with
  | some d => (d.ctx, d.launch.priv)
  | none => (0, false)

/-- The job of tile q of a ring. -/
def transferJob (t : State) (order wheel k q : Nat) (w : Wheel) (drain : Bool) : Job :=
  newJob order w.core (wheelSide t w).1 (some wheel) none (wheelSide t w).2 (if drain then .ringDrain k q else .ringFill k q)

/-- The job of one entry of a COPY or COLLECT node. -/
def entryJob (order node : Nat) (n : Node) (x : Slice) : Job := newJob order n.core n.ctx none (some node) false (.copy none [x])

/-- Ring transfers and node copies become jobs while the checker has room (R12, R262, R346). -/
def pumpJobs (core : Nat) : Nat → M s Unit
  | 0 => pure ()
  | n + 1 => do
    let t ← now
    match if checkerFull t core then none else oldestTodo (todos t core) with
    | none => pure ()
    | some (.ring order wheel k q) => do
      match AMap.get? t.wheels wheel with
      | none => pure ()
      | some w => do
        setRing wheel k fun r => { r with todo := r.todo.drop 1 }
        let id ← freshId
        upd (.job id (some (transferJob t order wheel k q w ((ringOf w k).elim false (·.drain)))))
      pumpJobs core n
    | some (.entry order node x) => do
      let id ← freshId
      match AMap.get? t.nodes node with
      | none => pure ()
      | some y => do
        upd (.job id (some (entryJob order node y x)))
        upd (.node node { y with jobs := y.jobs ++ [id], todo := y.todo.drop 1 })
      pumpJobs core n

/-- Room for every transfer that the checker can take. -/
def pump (core : Nat) : M s Unit := pumpJobs core 64

/-- End a job: each slice completes or takes its trap, sectors not delivered are withdrawn from its barrier, a ring slot moves on (R254, R257, R262). The slot of a drain that was refused or stopped is free again, since nothing is left to drain (R261; log entry 81). -/
def endJob (id : Nat) (j : Job) (cause : Option Byte) : M s Unit := do
  upd (.job id none)
  match j.node with
  | some n => nodeJobEnd n id j.core cause
  | none => pure ()
  match j.kind, j.wheel with
  | .copy tb slices, some w => do
    slices.forM fun x =>
      if x.refused then pure ()
      else do
        match tb with
        | some a => if cause.isSome && x.pending ≠ 0 then tbExpect w a (-(x.pending : Int)) else pure ()
        | none => pure ()
        endOp x.train x.op (jobTrap j cause)
  | .tile op, _ => do
    let t ← now
    match AMap.get? t.matrix op with
    | none => pure ()
    | some e => do
      upd (.matrix op none)
      endOp e.train op (jobTrap j cause)
  | .ringFill k q, some w => do
    if cause.isNone then setSlot w k q (.ready q) else pure ()
    ringTrap w k (jobTrap j cause)
  | .ringDrain k q, some w => do
    setSlot w k q .free
    ringTrap w k (jobTrap j cause)
  | .weights train op _ _ _ _, _ => endOp train op (cause.map fun c => (c, none, none))
  | _, _ => pure ()
  pump j.core
where
  /-- The trap its supplying trains take: the cause that stopped it, else that of the lowest waited-on word whose write was dropped (R140, R254). -/
  jobTrap (j : Job) (cause : Option Byte) : Option (Byte × Option Mask × Option DWord) :=
    match cause, j.clobber.min? with
    | some c, _ => some (c, none, none)
    | none, some a => some (eBarClobber, none, some (BitVec.ofNat 64 a))
    | none, none => none
  /-- The train that bound the ring takes a transfer's trap. -/
  ringTrap (w k : Nat) (c : Option (Byte × Option Mask × Option DWord)) : M s Unit := do
    let t ← now
    match c, (AMap.get? t.wheels w).bind fun x => ringOf x k with
    | some (c, _, v), some r => do
      let n ← freshId
      modTrain r.by_ fun x => { x with deferred := x.deferred ++ [⟨n, c, none, v.getD r.addr, false, false, []⟩] }
    | _, _ => pure ()

/-- The train a job's fault is reported for: the lowest supplying one (R254). -/
def jobTrain (t : State) (j : Job) : Option Nat :=
  match j.kind, j.wheel with
  | .copy _ slices, _ => ((slices.map fun x => (x.index, x.train)).foldl (fun (b : Option (Nat × Nat)) x =>
      match b with
      | none => some x
      | some y => if x.1 < y.1 then some x else some y) none).map (·.2)
  | .tile op, _ => (AMap.get? t.matrix op).map (·.train)
  | .ringFill k _, some w | .ringDrain k _, some w => ((AMap.get? t.wheels w).bind fun x => ringOf x k).map (·.by_)
  | .weights train _ _ _ _ _, _ => some train
  | _, _ => none

/-- The report of work that has no train (Table 8-3). -/
def bareReport (page : Nat) (kind : BitVec 3) (present malformed : Bool) (sub : Nat) : Report :=
  { page := page, kind := kind, nopark := false, malformed := malformed, present := present, core := 0xFFFF,
    count := 1, dispatch := sub % 2 ^ 32, wheel := 0xFFFFFFFF, train := 0xFF, lanes := 1 }

/-- Report the fault of work that has no train, on the service die. A cached translation without the right leaves the L3 TLB that the work looks in (R156, R158). -/
def bareFault (core ctx : Nat) (page : DWord) (kind : BitVec 3) (present malformed : Bool) (sub : Nat) : M s Unit := do
  let t ← now
  let die := dieOf core
  if present then upd (.l3 die (tlbDrop (t.l3Of die) (t.tagOf ctx) page.toNat (page.toNat + 65536))) else pure ()
  reportFault none ctx (bareReport page.toNat kind present malformed sub)

/-- A step of a job: a trap ends it, a translation fault holds it and is reported, a lock delays it. -/
def jobStep (id : Nat) (j : Job) (m : M s Unit) : M s Unit := do
  match ← tryM m with
  | .ok () => pure ()
  | .error (.trap c _ _) => do
    let t ← now
    endJob id ((AMap.get? t.jobs id).getD j) (some c)
  | .error (.held page kind present malformed) => do
    let t ← now
    match AMap.get? t.jobs id with
    | none => pure ()
    | some x => upd (.job id (some { x with held := true }))
    match jobTrain t j with
    | some tr => reportHeld tr page kind present malformed 1
    | none => bareFault j.core j.ctx page kind present malformed (j.node.getD 0)
  | .error .wait => pure ()
  | .error e => stop e

/-- One delivered pair of a slice is taken off its barrier. -/
def countDelivered (id : Nat) (j : Job) (slice : Nat) : M s Unit := do
  match j.kind with
  | .copy (some a) slices => do
    upd (.job id (some { j with kind := .copy (some a) (slices.zipIdx.map fun (x, i) =>
      if i = slice then { x with pending := x.pending - 1 } else x) }))
    match j.wheel with
    | some w => tbExpect w a (-1)
    | none => pure ()
  | _ => pure ()

/-- SECTOR_DELIVER: one of a started job's destination sectors is delivered; the last one ends the job (R254, R257). -/
def execSectorDeliver (job sector : Nat) (s : State) : Out :=
  runE s do
    let t ← now
    match AMap.get? t.jobs job with
    | none => pure ()
    | some j =>
      match j.sectors[sector]? with
      | none => pure ()
      | some sec =>
        if !j.started || j.held || frozen t j.ctx then pure ()
        else jobStep job j do
          let dropped ← deliverBytes j sec
          let j := { j with
            sectors := j.sectors.eraseIdx sector
            clobber := match dropped with
              | some a => j.clobber ++ [a]
              | none => j.clobber }
          upd (.job job (some j))
          countDelivered job j sec.slice
          let t ← now
          match AMap.get? t.jobs job with
          | some j => if j.sectors.isEmpty then endJob job j none else pure ()
          | none => pure ()

end Sys2Proof.Machine
end

