-- ==== Sys2Proof/Machine/Stream.lean ====
section
/-! DEFINITION. The stream engine, class S, and `yieldc`: layout records, collective copies, transaction barriers and rings (R85, R244 to R263). -/

namespace Sys2Proof.Machine

variable {s : State}

/-! ## Records in memory -/

/-- Read `n` 8-byte words at a multiple of 8 as one number. -/
def readWords (core ctx : Nat) (priv : Bool) (va : Nat) : Nat → M s Nat
  | 0 => pure 0
  | n + 1 => do
    let lo ← engineRead core ctx priv false va 8
    let hi ← readWords core ctx priv (va + 8) n
    pure (lo + 2 ^ 64 * hi)

/-- Four fields of `w` bits from bit `lo`. -/
def four (v lo w : Nat) : List Nat := (List.range 4).map fun k => bits v (lo + w * k) w

/-- A two's complement field. -/
def signedOf (w v : Nat) : Int := if v < 2 ^ (w - 1) then (v : Int) else (v : Int) - (2 ^ w : Nat)

/-- The layout record in 1,024 bits, unless it is to be refused (R244, Table 14-1). -/
def layoutOf (v : Nat) : Option Layout :=
  let l : Layout :=
    { base := bits v 0 64, ndim := bits v 64 8, esize := bits v 72 8, oob := bits v 80 8, loc := bits v 88 8 == 1,
      owned := bitAt v 96, size := four v 128 32, stride := (four v 256 64).map (signedOf 64),
      tile := four v 512 16, owners := bits v 576 64, peers := bits v 640 64 }
  let es := 2 ^ l.esize
  let ok := 1 ≤ l.ndim && l.ndim ≤ 4 && l.esize ≤ 4 && l.oob ≤ 2 && bits v 88 8 ≤ 1 && bits v 97 31 == 0
    && bits v 704 320 == 0 && (!l.loc || (l.base < 2 ^ 32 && !l.owned))
    && (if l.owned then l.owners % 8 == 0 && l.peers % 8 == 0 else l.owners == 0 && l.peers == 0)
    && (List.range 4).all fun k =>
      let sz := l.size.getD k 0
      let tl := l.tile.getD k 0
      let st := l.stride.getD k 0
      if k < l.ndim then 1 ≤ sz && 1 ≤ tl && st % (es : Int) == 0 else sz == 0 && tl == 0 && st == 0
  if ok then some l else none

/-- Read a layout record for a context. -/
def readLayout (core ctx : Nat) (priv : Bool) (va : DWord) : M s Layout := do
  if va.toNat % 128 ≠ 0 then stop (.trap eMisalign none none)
  else do
    let v ← readWords core ctx priv va.toNat 16
    orStop (layoutOf v) (.trap eIllOperand none none)

/-! ## Elements (R245, R246) -/

/-- Blocks of the owner table along dimension k, and the index of the block of an element. -/
def blockIndex (l : Layout) (c : List Int) : Nat :=
  (List.range l.ndim).foldr (fun k acc =>
    let t := l.tile.getD k 1
    (c.getD k 0).toNat / t + ((l.size.getD k 1 + t - 1) / t) * acc) 0

/-- The byte address of an element, none when it is out of bounds under ZERO; `off` moves the base. -/
def elemAddr (core ctx : Nat) (priv : Bool) (l : Layout) (off : Int) (c : List Int) : M s (Option Nat) := do
  match normCoords l c with
  | .error e => stop (.trap e none none)
  | .ok none => pure none
  | .ok (some c) =>
    if l.owned then do
      let e ← engineRead core ctx priv false (l.owners + 8 * blockIndex l c) 8
      let p ← engineRead core ctx priv false (l.peers + 8 * bits e 56 8) 8
      if p = 0 then stop (.trap ePerm none none)
      else pure (some (wrap64 ((p : Int) + (bits e 0 56 : Int) +
        dot l (c.zipIdx.map fun (i, k) => i % (l.tile.getD k 1 : Int)))))
    else pure (some (wrap64 ((l.base : Int) + off + dot l c)))

/-- The address of an element, or the cause that refuses the job for it. -/
def elemTry (core ctx : Nat) (priv : Bool) (l : Layout) (off : Int) (c : List Int) : M s (Option Nat × Option Byte) := do
  match ← tryM (elemAddr core ctx priv l off c) with
  | .ok a => pure (a, none)
  | .error (.trap e _ _) => pure (none, some e)
  | .error e => stop e

/-! ## Slices (R248 to R253) -/

/-- The (receiver, destination sector) pairs in which a slice writes (R257). -/
def slicePairs (core ctx : Nat) (priv : Bool) (x : Slice) : M s Nat := do
  let l ← (x.moves fun _ => 0).mapM fun mv => do
    match (← elemTry core ctx priv x.dst (x.off mv.1) mv.2.2).1 with
    | some a => pure ((List.range (2 ^ x.dst.esize)).map fun i => (mv.1, (a + i) / 128))
    | none => pure []
  pure l.flatten.dedup.length

/-- The bytes a slice writes, by receiver, and the bytes it reads (R250 to R253). -/
def sliceBytes (core ctx : Nat) (priv : Bool) (x : Slice) :
    M s (List (Nat × Nat × ByteSrc) × List Nat × Option Byte) := do
  let n := (x.ext.getD (x.src.ndim - 1) 0)
  let idx ← if x.kind == .cpg then (List.range n).mapM fun m => do
      let v ← engineRead core ctx priv false (x.idx + 4 * m) 4
      pure (signedOf 32 v)
    else pure []
  let es := 2 ^ x.dst.esize
  let parts ← (x.moves fun m => idx.getD m 0).mapM fun mv => do
    let d ← elemTry core ctx priv x.dst (x.off mv.1) mv.2.2
    let a ← elemTry core ctx priv x.src 0 mv.2.1
    let reads := match a.1 with
      | some a => (List.range es).map fun i => a + i
      | none => []
    let writes := match d.1 with
      | some d => (List.range es).map fun i =>
          (mv.1, d + i, match a.1 with
            | some a => ByteSrc.mem (spaceOf x.src) (a + i)
            | none => ByteSrc.zero)
      | none => []
    pure (writes, reads, d.2.or a.2)
  pure ((parts.map (·.1)).flatten, (parts.map (·.2.1)).flatten, (parts.filterMap (·.2.2)).head?)

/-- The box record of a copy and its checks (R249, R251, R253). -/
def readSlice (core ctx : Nat) (priv : Bool) (base : Slice) (va : Nat) : M s Slice := do
  if va % 16 ≠ 0 then stop (.trap eMisalign none none)
  else do
    let v ← readWords core ctx priv va (if base.kind == .cpym || base.kind == .cpg then 8 else 6)
    let x := { base with
      srcOrg := (four v 0 32).map (signedOf 32), dstOrg := (four v 128 32).map (signedOf 32), ext := four v 256 32,
      nrecv := if base.kind == .cpym then bits v 384 32 else 1, own := bits v 416 32, rstride := signedOf 64 (bits v 448 64), idx := bits v 384 64 }
    let bad := (List.range 4).any fun k =>
      (x.src.ndim ≤ k && (x.srcOrg.getD k 0 != 0 || x.ext.getD k 0 != 0)) || (x.dst.ndim ≤ k && x.dstOrg.getD k 0 != 0)
    if bad || x.src.esize ≠ x.dst.esize then stop (.trap eIllOperand none none)
    else if x.kind == .cpt && (3 ≤ x.src.esize || x.src.ndim == 1 || x.dst.ndim == 1) then
      stop (.trap eIllOperand none none)
    else if x.kind == .cpym && (x.nrecv == 0 || 16 < x.nrecv) then stop (.trap eIllOperand none none)
    else if x.kind == .cpg && x.idx % 4 != 0 then stop (.trap eMisalign none none)
    else pure x

/-- The instruction that completes a collective: the last issued. -/
def lastOp (l : List Nat) : Nat := l.foldl max 0

/-- What the slices of a collective agree in (R249): kind, barrier and both layout VAs. -/
def Slice.agrees (x y : Slice) : Bool := x.kind == y.kind && x.tb == y.tb && x.ls == y.ls && x.ld == y.ld

/-- The wheel's k-th collective takes a slice; with the last one it becomes a job, or no job where its slices do not agree, those refused alone included (R248, R249). -/
def addSlice (wheel trains k : Nat) (x : Slice) : M s Unit := do
  let t ← now
  match AMap.get? t.wheels wheel with
  | none => pure ()
  | some w =>
    match w.colls.find? fun c => c.k == k with
    | none => pure ()
    | some c =>
      let slices := c.slices ++ [x]
      if slices.length < trains then
        upd (.wheel wheel (some { w with colls := w.colls.map fun c =>
          if c.k == k then { c with slices := slices } else c }))
      else do
        upd (.wheel wheel (some { w with colls := w.colls.filter fun c => c.k != k }))
        let live := slices.filter fun y => !y.refused
        if live.isEmpty then pump w.core
        else if slices.all x.agrees then do
          let id ← freshId
          upd (.job id (some (newJob (lastOp (slices.map (·.op))) w.core (wheelSide t w).1 (some wheel) none (wheelSide t w).2
            (.copy x.tb slices))))
        else do
          live.forM fun z => do
            match z.tb with
            | some a => if z.pending = 0 then pure () else tbExpect wheel a (-(z.pending : Int))
            | none => pure ()
            endOp z.train z.op (some (eIllOperand, none, none))
          pump w.core

/-- A layout that stands where none was read. -/
def Layout.empty : Layout :=
  { base := 0, ndim := 1, esize := 0, oob := 0, loc := false, owned := false, size := [], stride := [], tile := [],
    owners := 0, peers := 0 }

/-- A slice of nothing. -/
def Slice.bare : Slice :=
  { train := 0, index := 0, op := 0, kind := .cpy, tb := none, ls := 0, ld := 0, src := Layout.empty, dst := Layout.empty,
    srcOrg := [], dstOrg := [], ext := [], nrecv := 1, own := 0, rstride := 0, idx := 0, pending := 0, refused := false }

/-- A copy instruction's slice before its records are read. -/
def bareSlice (e : EngineOp) (index : Nat) : Slice :=
  let (kind, tb) : CopyKind × Bool := match e.instr with
    | .cpym _ tb _ _ _ => (.cpym, tb.isSome)
    | .cpt _ tb _ _ _ => (.cpt, tb.isSome)
    | .cpg _ tb _ _ _ => (.cpg, tb.isSome)
    | .cpy _ tb _ _ _ => (.cpy, tb.isSome)
    | _ => (.cpy, false)
  { Slice.bare with
    train := e.train, index := index, op := e.id, kind := kind
    tb := if tb then some ((e.cap.x.at 0).toNat % 2 ^ 32) else none
    ls := e.cap.a.at 0, ld := e.cap.b.at 0 }

/-! ## The engine's side of class S -/

/-- What an operation needs to know of its train. -/
structure OpCtx where
  tr : Train
  wheel : Wheel
  ctx : Nat
  priv : Bool
  trains : Nat
  size : Nat
  deriving DecidableEq, Repr

def opCtx (t : State) (e : EngineOp) : Option OpCtx :=
  match AMap.get? t.trains e.train with
  | none => none
  | some tr => (t.wheelOf tr).map fun w =>
    { tr := tr, wheel := w, ctx := t.ctxOf tr, priv := t.privDispatch tr, trains := trainsOf t tr,
      size := localSize t tr }

/-- The slice of a copy instruction, from its records. -/
def sliceOf (e : EngineOp) (o : OpCtx) : M s Slice := do
  let core := o.wheel.core
  let base := bareSlice e o.tr.index
  let src ← readLayout core o.ctx o.priv base.ls
  let dst ← readLayout core o.ctx o.priv base.ld
  readSlice core o.ctx o.priv { base with src := src, dst := dst } (e.cap.c.at 0).toNat

/-- A slice reaches the engine: its records are read, its sectors are added to its barrier (R248, R257). -/
def sliceArrives (e : EngineOp) (o : OpCtx) : M s Unit := do
  let x ← sliceOf e o
  match x.tb with
  | none => addSlice o.tr.wheel o.trains e.step x
  | some a => do
    let n ← slicePairs o.wheel.core o.ctx o.priv x
    if n = 0 then pure () else tbExpect o.tr.wheel a n
    addSlice o.tr.wheel o.trains e.step { x with pending := n }

/-- Tiles of a ring's walk. -/
def WRing.total (r : WRing) : Nat := r.count.foldl (· * ·) 1

/-- A ring transfer is asked for by the instruction `op`; it becomes a job when the checker has room (R12, R262). -/
def ringJob (wheel k q op core : Nat) (drain : Bool) : M s Unit := do
  setRing wheel k fun r => { r with
    slots := r.slots.set (q % r.slots.length) (if drain then .draining q else .filling q), todo := r.todo ++ [(q, op)] }
  pump core

/-- Read and check a ring record (R260). -/
def readRing (core ctx : Nat) (priv : Bool) (size va : Nat) : M s WRing := do
  if va % 64 ≠ 0 then stop (.trap eMisalign none none)
  else do
    let v ← readWords core ctx priv va 8
    let l ← readLayout core ctx priv (BitVec.ofNat 64 (bits v 0 64))
    let r : WRing :=
      { lay := l, slotBase := bits v 64 32, slotBytes := bits v 96 32, drain := bits v 144 8 == 1,
        org := (four v 256 32).map (signedOf 32), count := four v 384 32,
        slots := List.replicate (bits v 128 16) .free, todo := [], next := 0, by_ := 0, addr := 0 }
    let tile := (l.tile.take l.ndim).foldl (· * ·) 1 * 2 ^ l.esize
    let ok := r.slotBase % 128 == 0 && r.slotBytes % 128 == 0 && tile ≤ r.slotBytes && 1 ≤ r.slots.length
      && r.slots.length ≤ 64 && r.slotBase + r.slots.length * r.slotBytes ≤ size && bits v 144 8 ≤ 1
      && (List.range 4).all (fun k => if k < l.ndim then 1 ≤ r.count.getD k 0 else r.count.getD k 0 == 1)
      && r.total < 2 ^ 32
    need ok (.trap eRing none none)
    pure r

/-- Bind or unbind a ring; a train that waits in `racq` looks at the ring again (R261, R262). -/
def ringBind (e : EngineOp) (o : OpCtx) (k rec : Nat) : M s Unit := do
  let put (x : Option WRing) : M s Unit := do
    let t ← now
    match AMap.get? t.wheels o.tr.wheel with
    | none => pure ()
    | some w => do
      upd (.wheel o.tr.wheel (some { w with rings := w.rings.set (k % 4) x (Nat.mod_lt _ (by decide)) }))
      wakeRing o.tr.wheel k
  match ringOf o.wheel k with
  | none =>
    if rec = 0 then pure ()
    else do
      let r ← readRing o.wheel.core o.ctx o.priv o.size rec
      let addr := match o.tr.inflight.find? fun f => f.id == e.id with
        | some f => f.addr
        | none => 0
      put (some { r with by_ := e.train, addr := addr })
      if r.drain then pure ()
      else (List.range (min r.slots.length r.total)).forM fun q => ringJob o.tr.wheel k q e.id o.wheel.core false
  | some r =>
    if rec ≠ 0 || r.slots.any (fun x => match x with | .acquired _ => true | _ => false) then
      stop (.trap eRing none none)
    else if r.slots.any (fun x => match x with | .draining _ => true | _ => false) then stop .wait
    else do
      let t ← now
      updAll ((t.jobs.filter fun kv => kv.2.wheel == some o.tr.wheel && (match kv.2.kind with
        | .ringFill j _ => j == k
        | _ => false)).map fun kv => .job kv.1 none)
      put none
      pump o.wheel.core

/-- The tile in the acquired slot at an address. -/
def WRing.acquiredAt (r : WRing) (a : Nat) : Option Nat :=
  let i := if r.slotBytes = 0 then 0 else (a - r.slotBase) / r.slotBytes
  match r.slots[i]? with
  | some (.acquired q) => if a = r.slotBase + i * r.slotBytes then some q else none
  | _ => none

/-- The tile that the release of tile q's slot moves: q itself in a DRAIN ring, the slot's next in a FILL ring (R262). -/
def WRing.after (r : WRing) (q : Nat) : Option Nat :=
  if r.drain then some q else if q + r.slots.length < r.total then some (q + r.slots.length) else none

/-- Release an acquired slot: refill it, drain it, or leave it free (R262). -/
def ringRelease (op : Nat) (o : OpCtx) (k a : Nat) : M s Unit := do
  match if k < 4 then ringOf o.wheel k else none with
  | none => stop (.trap eRing none none)
  | some r =>
    match r.acquiredAt a with
    | none => stop (.trap eRing none none)
    | some q => match r.after q with
      | some n => ringJob o.tr.wheel k n op o.wheel.core r.drain
      | none => setSlot o.tr.wheel k q .free

/-- The copies of a train that have neither completed nor been refused (R259). -/
def copyCount (t : State) (o : OpCtx) (id : Nat) : Nat :=
  ((o.wheel.colls.flatMap (·.slices)).filter fun x => x.train == id && !x.refused).length +
    (t.jobs.filter fun kv => match kv.2.kind with
      | .copy _ l => l.any fun x => x.train == id && !x.refused
      | _ => false).length

/-- Write a scalar destination of an operation that completes. -/
def opDst (id : Nat) (d : Dst) (n : Nat) (v : DWord) : M s Unit :=
  modTrain id fun t => t.setDst d 0xFFFFFFFF 0 (fun _ j => dwPart v j) n

/-- One class S operation at the engine; the answer says whether it completes now. An arrival covers its train's writes: whoever acquires the flip publishes them with its own later releases (R263). -/
def streamRun (e : EngineOp) (o : OpCtx) : M s Bool := do
  let t ← now
  let wh := o.tr.wheel
  let a := (e.cap.a.at 0).toNat
  let n := (e.cap.b.at 0).toNat
  match e.instr with
  | .tbinit _ force _ _ =>
    let b := tbGet t wh a
    if force && (waitedWords t wh).contains (a, 16) then
      stop (.trap eBarClobber none (some (BitVec.ofNat 64 a)))
    else if force || b.reset = 0 then do
      putLocal wh fun m => Bytes.write m a 16 (TBar.toNat { b with pend := 0, reset := n, arr := n, phase := 0 })
      wakeTb wh a
      pure true
    else if b.reset ≠ n then stop (.trap eIllOperand none none)
    else pure true
  | .tbexp _ _ _ => do
    tbExpect wh a n
    pure true
  | .tbarr _ d _ _ =>
    let b := tbGet t wh a
    if b.reset = 0 || b.arr = 0 then stop (.trap eIllOperand none none)
    else do
      opDst e.train d 1 (BitVec.ofNat 64 b.phase)
      let c := t.core o.wheel.core
      upd (.core o.wheel.core { c with clock := max c.clock o.tr.wtsMax })
      tbUpdate wh a fun b => { b with pend := (b.pend + n) % 2 ^ 32, arr := b.arr - 1 }
      pure true
  | .srd _ k d => do
    let b := tbGet t wh a
    let v := match k with
      | .phase _ => b.phase
      | .arrive _ => b.arr
      | .sectors _ => b.pend
      | .jobs => copyCount t o e.train
    opDst e.train d 1 (BitVec.ofNat 64 v)
    pure true
  | .rbind _ _ _ => do
    ringBind e o a n
    pure true
  | .rrel _ _ _ => do
    ringRelease e.id o a n
    pure true
  | _ => do
    sliceArrives e o
    pure false

/-- The value of a trap that an engine finds: the instruction's address, but a waited-on barrier's word and a gone host's VA (R204, R258, R374). -/
def foundValue (c : Byte) (v : Option DWord) : Option DWord := if c = eBarClobber || c = eHostGone then v else none

/-- An operation whose effect waits for every earlier access of its train (R256, R262). -/
def afterAccesses : Instr → Bool
  | .tbarr .. | .rrel .. => true
  | _ => false

/-- The head of a train's stream queue acts (R247, R254): a trap is deferred and reports the instruction's address but for a waited-on barrier's, and a refused copy still counts as its train's slice. -/
def streamStep (id : Nat) (e : EngineOp) : M s Unit := do
  let t ← now
  match opCtx t e with
  | none => upd (.stream id none)
  | some o =>
    if e.held || frozen t o.ctx || firstOf t.stream e.train ≠ some id || !engineMay t e.train e.id
        || (afterAccesses e.instr && o.tr.loads.any fun l => l.id < e.id) then pure ()
    else
      match ← tryM (streamRun e o) with
      | .ok done => do
        upd (.stream id none)
        if done then endOp e.train id none else pure ()
      | .error (.trap c lanes v) => do
        upd (.stream id none)
        if isCopy e.instr then addSlice o.tr.wheel o.trains e.step { bareSlice e o.tr.index with refused := true }
        else pure ()
        endOp e.train id (some (c, lanes, foundValue c v))
      | .error (.held page kind present malformed) => do
        upd (.stream id (some { e with held := true }))
        reportHeld e.train page kind present malformed 1
      | .error .wait => pure ()
      | .error x => stop x

/-! ## Class S at issue -/

/-- A class S instruction enters the train's stream queue; a ring instruction that makes jobs waits in place for room in the checker (R12; log entry 68). -/
def streamIssue (r : Iss) (i : Instr) (dests : List Reg) (a b : DWord) : M s Unit := do
  let t ← now
  need (!(isTransfer i && checkerFull t (t.coreOf r.t))) .wait
  let _ ← enqueue r i (capOf r (fun _ => a) (fun _ => b) zero64 zero128) [] dests [] (fun k e => .stream k (some e)) id
  pure ()

/-- A copy: it joins the wheel's k-th collective, and stalls where that would be a fifth, or a 65th job (R12, R248). -/
def copyIssue (i : Instr) (tb : Option Src) (ls ld rec : Src) : M s Unit :=
  beginOnce i fun r => do
    let a := match tb with
      | some b => (r.x0 b).toNat
      | none => 0
    if tb.isSome then tbCheckM r a else pure ()
    let w ← wheelM r
    let t ← now
    let k := r.t.copies
    if w.colls.any fun c => c.k == k then pure ()
    else do
      need (!copyFull t r.t) .wait
      upd (.wheel r.t.wheel (some { w with colls := w.colls ++ [{ k := k, slices := [] }] }))
    let _ ← enqueue r i (capOf r (fun _ => r.d0 ls) (fun _ => r.d0 ld) (fun _ => r.d0 rec) fun _ => BitVec.ofNat 128 a)
      [] [] [] (fun n e => .stream n (some { e with step := k })) (fun t => { t with copies := k + 1 })
    pure ()

def execCpy (sb : Sb) (tb : Option Src) (ls ld rec : Src) (s : State) : Out :=
  runM s (copyIssue (.cpy sb tb ls ld rec) tb ls ld rec)
def execCpym (sb : Sb) (tb : Option Src) (ls ld rec : Src) (s : State) : Out :=
  runM s (copyIssue (.cpym sb tb ls ld rec) tb ls ld rec)
def execCpt (sb : Sb) (tb : Option Src) (ls ld rec : Src) (s : State) : Out :=
  runM s (copyIssue (.cpt sb tb ls ld rec) tb ls ld rec)
def execCpg (sb : Sb) (tb : Option Src) (ls ld rec : Src) (s : State) : Out :=
  runM s (copyIssue (.cpg sb tb ls ld rec) tb ls ld rec)

/-- A barrier instruction: its address is checked at issue (R255). -/
def barIssue (i : Instr) (dests : List Reg) (b : Src) (n : Option Src) : M s Unit :=
  beginOnce i fun r => do
    let a := (r.x0 b).toNat
    tbCheckM r a
    let v : Word := match n with
      | some n => r.x0 n
      | none => 0
    streamIssue r i dests (BitVec.ofNat 64 a) (v.setWidth 64)

def execTbinit (sb : Sb) (force : Bool) (b n : Src) (s : State) : Out :=
  runM s do
    beginOnce (.tbinit sb force b n) fun r => do
      let a := (r.x0 b).toNat
      let k := (r.x0 n).toNat
      tbCheckM r a
      if k = 0 || 65535 < k then raise eIllOperand
      else streamIssue r (.tbinit sb force b n) [] (BitVec.ofNat 64 a) (BitVec.ofNat 64 k)
def execTbarr (sb : Sb) (d : Dst) (b n : Src) (s : State) : Out :=
  runM s (barIssue (.tbarr sb d b n) (dstRegs (d, 1)) b (some n))
def execTbexp (sb : Sb) (b n : Src) (s : State) : Out := runM s (barIssue (.tbexp sb b n) [] b (some n))

/-- Kinds of `srd` that name a barrier check its address (R259). -/
def execSrd (sb : Sb) (op : SrdOp) (d : Dst) (s : State) : Out :=
  runM s (match op with
    | .phase b | .arrive b | .sectors b => barIssue (.srd sb op d) (dstRegs (d, 1)) b none
    | .jobs => beginOnce (.srd sb op d) fun r => streamIssue r (.srd sb op d) (dstRegs (d, 1)) 0 0)

/-- `tbwait`, an acquire: after the train's earlier class S instructions, wait in place until PHASE differs (R128, R256, R263). -/
def execTbwait (sb : Sb) (b ph : Src) (s : State) : Out :=
  runM s do
    beginOnce (.tbwait sb b ph) fun r =>
      match r.t.wait with
      | some w => if w.woken then finishNow r id else stop .wait
      | none => do
        let t ← now
        need (!hasOps t.stream r.id && accessMay t r.t r.id) .wait
        let a := (r.x0 b).toNat
        tbCheckM r a
        let p := (r.x0 ph).toNat % 16
        if (tbGet t r.t.wheel a).phase ≠ p then finishNow r id
        else modTrain r.id fun t => { t with wait := some ⟨.tb a p, false, 0⟩ }

/-- `rbind`: a ring number above 3 is found at issue (R261). -/
def execRbind (sb : Sb) (k rec : Src) (s : State) : Out :=
  runM s do
    beginOnce (.rbind sb k rec) fun r =>
      if 3 < (r.x0 k).toNat then raise eIllOperand
      else streamIssue r (.rbind sb k rec) [] ((r.x0 k).setWidth 64) (r.d0 rec)

def execRrel (sb : Sb) (k a : Src) (s : State) : Out :=
  runM s do
    beginOnce (.rrel sb k a) fun r =>
      streamIssue r (.rrel sb k a) [] ((r.x0 k).setWidth 64) ((r.x0 a).setWidth 64)

/-- An instruction issues and meets a deferred trap at once. -/
def issueTrap (r : Iss) (dests : List Reg) (cause : Byte) : M s Unit := do
  let op ← freshId
  modTrain r.id fun _ => r.issued op dests [] id
  deferTrap r.id op cause none none

/-- `racq`: wait in place for the slot of the next tile; past the last tile, answer without waiting (R262). -/
def execRacq (sb : Sb) (d : Dst) (k : Src) (s : State) : Out :=
  runM s do
    beginOnce (.racq sb d k) fun r => do
      let t ← now
      need (!hasOps t.stream r.id && accessMay t r.t r.id && (match r.t.wait with | some w => w.woken | none => true)) .wait
      let w ← wheelM r
      let kk := (r.x0 k).toNat
      match if kk < 4 then ringOf w kk else none with
      | none => issueTrap r (dstRegs (d, 2)) eRing
      | some g =>
        let q := g.next
        let answer (lo hi : Nat) : M s Unit :=
          finishDst r fun t => t.setDst d 0xFFFFFFFF 0 (fun _ j => BitVec.ofNat 32 (if j = 0 then lo else hi)) 2
        if g.total ≤ q then answer 0xFFFFFFFF g.total
        else
          let i := q % g.slots.length
          let ready := if g.drain then g.slots[i]? == some .free else g.slots[i]? == some (.ready q)
          if ready then do
            setRing r.t.wheel kk fun g => { g with next := q + 1, slots := g.slots.set i (.acquired q) }
            answer (g.slotBase + i * g.slotBytes) q
          else modTrain r.id fun t => { t with wait := some ⟨.ring kk, false, 0⟩ }

/-! ## `yieldc` (R73, R85) -/

/-- Wait for a phase flip, then go on at the target. A phase kept from a wait that E_HANG abandoned stands for the reading of the `yieldc` that `trapret` resumes at, and is dropped with it (R73). The reading, like that of `tbwait`, comes after the train's earlier class S instructions have acted at the engine (log entry 69). -/
def execYieldc (g : Guard) (n : BitVec 6) (rel : BitVec 32) (s : State) : Out :=
  runM s do
    let r ← beginM (.yieldc g n rel)
    let drop (t : Train) : Train := { t with wait := none, keptPhase := if t.trap.tm then t.keptPhase else none }
    let go : M s Unit := upd (.train r.id (some (r.jump (r.target rel) false drop)))
    match r.t.wait with
    | some w => if w.woken then go else stop .wait
    | none =>
      if r.t.inTx then raise eTxMisuse
      else if !r.cond then upd (.train r.id (some (r.doneWith drop)))
      else do
        let t ← now
        need (!hasOps t.stream r.id && accessMay t r.t r.id) .wait
        let a := (r.t.sreg n.toNat).toNat
        tbCheckM r a
        let cur := (tbGet t r.t.wheel a).phase
        let ph := match r.t.keptPhase with
          | some p => if r.resumes then p else cur
          | none => cur
        if cur ≠ ph then go
        else modTrain r.id fun t => { drop t with wait := some ⟨.tb a ph, false, 0⟩ }

end Sys2Proof.Machine
end

