-- ==== Sys2Proof/Machine/Checker.lean ====
section
/-! DEFINITION. The footprint checker of a core, and the start of copies and ring transfers: what each job moves, what stands before it, and when it may start (R12, R250 to R254, R260, R288, R295). -/

namespace Sys2Proof.Machine

variable {s : State}

/-! ## Tiles (R283 to R285) -/

/-- The fields of a control word (Table 16-1). -/
def ctlCfg (c : Word) : Bool := c.getLsbD 20
def ctlAcc (c : Word) : Bool := c.getLsbD 19
def ctlLayout (c : Word) : Bool := c.getLsbD 18
def ctlCols (c : Word) : Nat := bits c.toNat 10 8 + 1
def ctlRows (c : Word) : Nat := bits c.toNat 5 5 + 1
def ctlSlot (c : Word) : BitVec 3 := c.extractLsb' 0 3

/-- Row bytes of an operand (R285). -/
def elemRowBytes (f : Elem) (cols : Nat) : Nat :=
  if f.bits = 6 then 3 * ((cols + 3) / 4) else (cols * f.bits + 7) / 8

def illOperand : Stop := .trap eIllOperand none none

/-- The slot of a matrix instruction. -/
def mxSlot (o : OpCtx) (n : BitVec 3) : M s Slot := do
  let t ← now
  orStop (matrixSlot (t.mg.svc == 3) (slotWord t o.tr n)) (.trap eFmt none none)

def tileOf (w : Wheel) (i : BitVec 3) : Tile := w.tiles[i.toNat]'i.isLt

/-- A configured tile of the kind wanted. -/
def getTile (o : OpCtx) (i : BitVec 3) (acc : Option Bool) : M s Tile := do
  let x := tileOf o.wheel i
  need (ctlCfg x.control && (match acc with | some a => ctlAcc x.control == a | none => true)) illOperand
  pure x

/-! ## What a tile job moves (R288, R295) -/

/-- Some LOCAL byte lies beyond the allotment. -/
def beyond (sp : Space) (size : Nat) (l : List Nat) : Bool :=
  match sp with
  | .loc => l.any fun a => size ≤ a
  | .glob => false

/-- What a tile job moves: rows of `n` bytes at addresses, in one space. -/
structure Span where
  sp : Space
  n : Nat
  at_ : List Nat
  deriving DecidableEq, Repr

def Span.bytes (x : Span) : List Nat := x.at_.flatMap fun a => (List.range x.n).map fun i => a + i

/-- What a part of a tile moves: bytes of a row, the bits of them that hold elements (R273), rows, and the alignment asked. -/
structure Shape where
  n : Nat
  bits : Nat
  rows : Nat
  align : Nat
  deriving DecidableEq, Repr

/-- The shape of the data of a tile. -/
def dataShape (o : OpCtx) (x : Tile) : M s Shape := do
  let cols := ctlCols x.control
  if ctlAcc x.control then pure ⟨4 * cols, 32 * cols, ctlRows x.control, 16⟩
  else do
    let f ← mxSlot o (ctlSlot x.control)
    pure ⟨elemRowBytes f.elem cols, f.elem.bits * cols, ctlRows x.control, 16⟩

/-- The shape of a part of a tile. -/
def partShape (o : OpCtx) (x : Tile) (p : Part) : M s Shape := do
  match p with
  | .data _ => dataShape o x
  | .sc _ => do
    need (!ctlAcc x.control) illOperand
    pure ⟨8, 64, ctlRows x.control, 8⟩
  | .ts => do
    need (!ctlAcc x.control) illOperand
    pure ⟨4, 32, 1, 4⟩

/-- The rows that a tile job moves, from its captured base and stride. -/
def tileSpan (e : EngineOp) (glob : Bool) (sh : Shape) : Span :=
  let b := (e.cap.a.at 0).toNat
  let st := (e.cap.b.at 0).toNat
  { sp := if glob then .glob else .loc, n := sh.n
    at_ := (List.range sh.rows).map fun r => if glob then (b + r * st) % 2 ^ 64 else b + r * st }

/-- Base, stride and checks common to the tile jobs: alignment, then bounds; GLOBAL pages as R117 asks. -/
def spanCheck (j : Job) (o : OpCtx) (e : EngineOp) (glob : Bool) (sh : Shape) (kind : BitVec 3) : M s Span := do
  need ((e.cap.a.at 0).toNat % sh.align == 0 && (e.cap.b.at 0).toNat % sh.align == 0) (.trap eMisalign none none)
  let x := tileSpan e glob sh
  if glob then
    ((x.bytes.map fun a => a / 128).dedup).forM fun k => do
      match ← tryM (engineX j.core j.ctx j.priv false (128 * k) kind) with
      | .ok _ => pure ()
      | .error (.trap c _ _) => stop (.trap c none none)
      | .error y => stop y
  else need (!(beyond .loc o.size x.bytes)) (.trap ePerm none none)
  pure x

/-- An instruction may change what a tile holds: its row count, its row bytes. -/
def reshapes (i : BitVec 3) : Instr → Bool
  | .tcfg _ t _ | .tcvt _ t _ | .ttr _ t _ => t == i
  | _ => false

/-- The tile of a tile job. -/
def jobTile : Instr → Option (BitVec 3)
  | .tld _ i _ _ | .tst _ i _ _ | .tdrain _ _ _ _ i _ => some i
  | _ => none

/-- Sectors that a tile job reads and writes. Where an instruction before it in its train's queue may still change the tile, every byte that a tile of any shape could have stands for them (log entry 16). -/
def tileFoot (op : Nat) : M s (List (Space × Nat) × List (Space × Nat)) := do
  let t ← now
  match (AMap.get? t.matrix op).bind fun e => (opCtx t e).bind fun o => (jobTile e.instr).map fun i => (e, o, i) with
  | none => pure ([], [])
  | some (e, o, i) => do
    let later := t.matrix.any fun kv => kv.1 < op && reshapes i kv.2.instr &&
      (match AMap.get? t.trains kv.2.train with | some x => x.wheel == o.tr.wheel | none => false)
    let x := tileOf o.wheel i
    let foot (glob : Bool) (sh : M s Shape) : M s (List (Space × Nat)) := do
      let sh ← if later then pure ⟨128, 1024, 32, 1⟩ else sh
      let sp := tileSpan e glob sh
      pure (sectorsOf sp.sp sp.bytes)
    match e.instr with
    | .tld _ _ base p => do
      let f ← foot base.glob (partShape o x p)
      pure (f, [])
    | .tst _ _ base p => do
      let f ← foot base.glob (partShape o x p)
      pure ([], f)
    | .tdrain _ base add _ _ _ => do
      let f ← foot base.glob (dataShape o x)
      pure (if add then f else [], f)
    | _ => pure ([], [])

/-! ## What a copy moves (R250 to R253) -/

/-- A slice at its job's start: its place among the slices, the bytes it writes by receiver, the bytes it reads, and the cause that refuses the job for it. -/
structure CopyPart where
  slice : Slice
  place : Nat
  writes : List (Nat × Nat × ByteSrc)
  reads : List Nat
  cause : Option Byte

/-- The slices of a copy; one that was refused moves nothing. -/
def copyParts (j : Job) (slices : List Slice) : M s (List CopyPart) :=
  slices.zipIdx.mapM fun (x, i) => do
    if x.refused then pure ⟨x, i, [], [], none⟩
    else do
      let (w, r, c) ← sliceBytes j.core j.ctx j.priv x
      pure ⟨x, i, w, r, c⟩

/-- Sectors that a copy reads, index lists included, and writes (R254). -/
def copyFoot (l : List CopyPart) : List (Space × Nat) × List (Space × Nat) :=
  let idxs := (l.filter fun p => p.slice.kind == .cpg && !p.slice.refused).flatMap fun p =>
    sectorsOf .glob ((List.range (4 * p.slice.ext.getD (p.slice.src.ndim - 1) 0)).map fun i => p.slice.idx + i)
  ((l.flatMap fun p => sectorsOf (spaceOf p.slice.src) p.reads).dedup ++ idxs,
   (l.flatMap fun p => sectorsOf (spaceOf p.slice.dst) (p.writes.map fun b => b.2.1)).dedup)

/-- Sectors of the lists that a slice's addresses come from: the index list of `cpg`, owner and peer tables. -/
def Slice.lists (x : Slice) : List (Space × Nat) :=
  let range (a n : Nat) : List (Space × Nat) := (List.range ((a + n + 127) / 128 - a / 128)).map fun i => (Space.glob, a / 128 + i)
  let own (l : Layout) : List (Space × Nat) :=
    if l.owned then
      range l.owners (8 * ((List.range l.ndim).map fun k => (l.size.getD k 1 + l.tile.getD k 1 - 1) / l.tile.getD k 1).foldl (· * ·) 1)
        ++ range l.peers 2048
    else []
  (if x.kind == .cpg then range x.idx (4 * x.ext.getD (x.src.ndim - 1) 0) else []) ++ own x.src ++ own x.dst

/-! ## What a ring transfer moves (R260) -/

/-- The bytes of tile q: each LOCAL byte with its memory byte, and the cause that refuses the transfer. -/
def ringMoves (j : Job) (r : WRing) (q : Nat) : M s (List (Nat × Option Nat) × Option Byte) := do
  let parts ← (r.cells q).mapM fun (at_, c) => do
    let a ← elemTry j.core j.ctx j.priv r.lay 0 c
    pure ((List.range (2 ^ r.lay.esize)).map fun b => (at_ + b, a.1.map (· + b)), a.2)
  pure ((parts.map (·.1)).flatten, (parts.filterMap (·.2)).head?)

/-- Sectors that a ring transfer reads and writes. -/
def ringFoot (r : WRing) (bytes : List (Nat × Option Nat)) : List (Space × Nat) × List (Space × Nat) :=
  let loc := sectorsOf .loc (bytes.map (·.1))
  let mem := sectorsOf (spaceOf r.lay) (bytes.filterMap (·.2))
  if r.drain then (loc, mem) else (mem, loc)

/-! ## The checker (R12) -/

/-- Work of a core that is or will be a job. Its place in the order is the instruction that made it; `id` is that of a job, none of what waits for room or stands in a stream queue. -/
structure Work where
  order : Nat
  id : Option Nat
  /-- its reads and writes are its footprint where that is known -/
  job : Job
  /-- the ring of a transfer -/
  ring : Option WRing
  /-- its footprint is known -/
  known : Bool
  /-- nothing hides what it will be -/
  sure : Bool

/-- A computation's answer in a state, as far as the state shows it: `some none` where it would trap. -/
def peekTrap {α : Type} (t : State) (m : M t α) : Option (Option α) :=
  peekM t do
    match ← tryM m with
    | .ok x => pure (some x)
    | .error (.trap _ _ _) => pure none
    | .error e => stop e

/-- Jobs of a core as work. -/
def jobWork (t : State) (kv : Nat × Job) : Work :=
  { order := kv.2.order, id := some kv.1, job := kv.2, known := kv.2.started, sure := true
    ring := match kv.2.kind with
      | .ringFill k _ | .ringDrain k _ => (kv.2.wheel.bind fun w => AMap.get? t.wheels w).bind fun w => ringOf w k
      | _ => none }

/-- A transfer that is still no job. -/
def transferWork (t : State) (order wheel k : Nat) (w : Wheel) (r : WRing) (sure : Bool) (q : Nat) : Work :=
  { order := order, id := none, job := transferJob t order wheel k q w r.drain, ring := some r, known := false, sure := sure }

/-- What waits for room. -/
def waitingWork (t : State) (core : Nat) : List Work :=
  ((t.wheels.filter fun kv => kv.2.core == core).flatMap fun kv => (List.range 4).flatMap fun k =>
    match ringOf kv.2 k with
    | none => []
    | some r => r.todo.map fun q => transferWork t q.2 kv.1 k kv.2 r true q.1) ++
  (t.nodes.filter fun kv => kv.2.core == core).flatMap fun kv => kv.2.todo.map fun x =>
    { order := x.1, id := none, job := entryJob x.1 kv.1 kv.2 x.2, ring := none, known := false, sure := true }

/-- Copy instructions of a wheel's k-th collective that stand in the stream queue. -/
def queuedCopies (t : State) (wheel k : Nat) : AMap EngineOp :=
  t.stream.filter fun kv => isCopy kv.2.instr && kv.2.step == k &&
    (match AMap.get? t.trains kv.2.train with | some x => x.wheel == wheel | none => false)

/-- The collectives of a wheel that every train has issued, from their arrived slices and the records of the others; slices that do not agree make no job (R248, R249). -/
def collectiveWork (t : State) (wheel : Nat) (w : Wheel) : List Work :=
  w.colls.filterMap fun c =>
    let q := queuedCopies t wheel c.k
    let trains := match AMap.get? t.dispatches w.dispatch with
      | some d => d.launch.trains
      | none => 0
    if c.slices.length + q.length < trains then none
    else
      let seen := q.map fun kv => (opCtx t kv.2).bind fun o => peekTrap t (sliceOf kv.2 o)
      let slices := c.slices ++ seen.filterMap fun x => x.bind id
      let order := lastOp (c.slices.map (·.op) ++ q.map (·.1))
      match slices.filter fun x => !x.refused with
      | [] => if seen.all (·.isSome) then none else some (work order [] false)
      | x :: l =>
        let sure := seen.all (·.isSome) && q.all fun kv => issueDone t kv.2.train kv.1
        if sure && !slices.all x.agrees then none else some (work order (x :: l) sure)
where
  work (order : Nat) (slices : List Slice) (sure : Bool) : Work :=
    { order := order, id := none, ring := none, known := false, sure := sure
      job := newJob order w.core (wheelSide t w).1 (some wheel) none (wheelSide t w).2 (.copy none slices) }

/-- The transfers of a bind or a release in a stream queue. -/
def ringWork (t : State) (core : Nat) (kv : Nat × EngineOp) : List Work :=
  match opCtx t kv.2 with
  | none => []
  | some o =>
    let a := (kv.2.cap.a.at 0).toNat
    let b := (kv.2.cap.b.at 0).toNat
    let sure := issueDone t kv.2.train kv.1
    if o.wheel.core ≠ core then []
    else match kv.2.instr with
      | .rbind .. =>
        if b = 0 then []
        else match peekTrap t (readRing core o.ctx o.priv o.size b) with
          | some none => []
          | some (some r) =>
            if r.drain then [] else (List.range (min r.slots.length r.total)).map (transferWork t kv.1 o.tr.wheel a o.wheel r sure)
          | none => [{ order := kv.1, id := none, job := transferJob t kv.1 o.tr.wheel a 0 o.wheel false, ring := none, known := false, sure := false }]
      | .rrel .. =>
        ((if a < 4 then ringOf o.wheel a else none).bind fun r => (r.acquiredAt b).bind fun q => (r.after q).map
          (transferWork t kv.1 o.tr.wheel a o.wheel r true)).toList
      | _ => []

/-- Sectors of the lists that a job's addresses come from, read at its start (R246, R253). -/
def Work.lists (w : Work) : List (Space × Nat) :=
  match w.job.kind, w.ring with
  | .copy _ l, _ => (l.filter fun x => !x.refused).flatMap Slice.lists
  | _, some r => Slice.lists { Slice.bare with src := r.lay }
  | _, none => []

/-- The footprint that work has, as memory and the tiles stand. -/
def Work.foot (w : Work) : M s (List (Space × Nat) × List (Space × Nat)) :=
  match w.job.kind, w.ring with
  | .copy _ l, _ => do
    let p ← copyParts w.job l
    pure (copyFoot p)
  | .tile op, _ => tileFoot op
  | .ringFill _ q, some r | .ringDrain _ q, some r => do
    let (b, _) ← ringMoves w.job r q
    pure (ringFoot r b)
  | .weights _ _ _ a n _, _ => pure ((List.range (n / 128)).map fun i => (Space.glob, a / 128 + i), [])
  | _, _ => pure ([], [])

/-- Earlier work keeps a job from starting: their footprints meet, or, of one context, the earlier one's is not yet known (R12; log entry 16). -/
def Work.blocks (w : Work) (j : Job) : Bool := if w.known then conflict j w.job else w.job.ctx == j.ctx

/-- The next in the order takes its footprint, if the lists it comes from are not still to be written by what precedes it; work that would trap has none. -/
def Work.settle (t : State) (done : List Work) (w : Work) : List Work :=
  let at_ (f : List (Space × Nat) × List (Space × Nat)) : Work := { w with known := true, job := { w.job with reads := f.1, writes := f.2 } }
  done ++ [
    if w.known || !w.sure || done.any (·.blocks { w.job with reads := w.lists, writes := [] }) then w
    else match peekTrap t w.foot with
      | some f => at_ (f.getD ([], []))
      | none => w]

/-- Insert work by its place in the order. -/
def Work.insert (w : Work) : List Work → List Work
  | [] => [w]
  | x :: l => if w.order < x.order then w :: x :: l else x :: Work.insert w l

/-- The work of a core before a job, in order. -/
def earlierWork (t : State) (id : Nat) (j : Job) : List Work :=
  let all := (coreJobs t j.core).map (jobWork t) ++ waitingWork t j.core ++
    ((t.wheels.filter fun kv => kv.2.core == j.core).flatMap fun kv => collectiveWork t kv.1 kv.2) ++ t.stream.flatMap (ringWork t j.core)
  let before := all.filter fun w => w.order < j.order || (w.order == j.order && (match w.id with | some k => k < id | none => false))
  (before.foldl (fun l w => w.insert l) []).foldl (Work.settle t) []

/-- The checker permits a job whose footprint is known: a free job slot, and nothing before it keeps it back (R12, R254; log entry 16). -/
def mayStart (t : State) (id : Nat) (j : Job) : Bool :=
  ((coreJobs t j.core).filter fun kv => kv.2.started).length < 8 && (earlierWork t id j).all fun w => !w.blocks j

/-! ## Starting jobs (R254) -/

/-- The allotment of a job's wheel. -/
def jobLocal (t : State) (j : Job) : Nat :=
  match j.wheel.bind fun w => AMap.get? t.wheels w with
  | some w => match AMap.get? t.dispatches w.dispatch with
    | some d => d.launch.local_
    | none => 0
  | none => 0

/-- Give a job its footprint and sectors, if the checker permits it; one that moves nothing ends at once. -/
def startWith (id : Nat) (j : Job) (reads writes : List (Space × Nat)) (sectors : List Sector) : M s Unit := do
  let t ← now
  let j := { j with started := true, reads := reads, writes := writes, sectors := sectors }
  if !mayStart t id j then stop .wait
  else do
    upd (.job id (some j))
    if sectors.isEmpty then endJob id j none else pure ()

/-- The bytes of a slice that no slice of a higher train writes (R250). -/
def keepBytes (index : Nat) (mine : List (Nat × Nat × ByteSrc)) (all : List (Nat × List (Nat × Nat × ByteSrc))) :
    List (Nat × Nat × ByteSrc) :=
  let later := (all.filter fun x => index < x.1).flatMap fun x => x.2.map fun b => b.2.1
  mine.filter fun b => !later.contains b.2.1

/-- A copy job starts once the checker permits it: first the lists that its addresses come from are read, then bounds, allotment and overlap are checked before anything is written (R245, R246, R252 to R254). -/
def startCopy (id : Nat) (j : Job) (slices : List Slice) : M s Unit := do
  let t ← now
  let size := jobLocal t j
  need (mayStart t id { j with reads := (slices.filter fun x => !x.refused).flatMap Slice.lists }) .wait
  let parts ← copyParts j slices
  let (reads, writes) := copyFoot parts
  need (mayStart t id { j with reads := reads, writes := writes }) .wait
  match (parts.filterMap (·.cause)).head? with
  | some c => stop (.trap c none none)
  | none =>
  if parts.any fun p => beyond (spaceOf p.slice.dst) size (p.writes.map fun b => b.2.1) || beyond (spaceOf p.slice.src) size p.reads then
    stop (.trap ePerm none none)
  else
    let overlap := parts.any fun p => p.slice.kind == .cpt && parts.any fun y =>
      spaceOf p.slice.src == spaceOf y.slice.dst && y.writes.any fun b => p.reads.contains b.2.1
    if overlap then stop (.trap eOverlap none none)
    else
      let all := parts.map fun p => (p.slice.index, p.writes)
      let sectors := parts.flatMap fun p =>
        let keep := keepBytes p.slice.index p.writes all
        (List.range p.slice.nrecv).flatMap fun r =>
          let touched := ((p.writes.filter fun b => b.1 == r).map fun b => b.2.1 / 128).dedup
          let mine := (keep.filter fun b => b.1 == r).map (·.2)
          touched.map fun k =>
            match (bySector (spaceOf p.slice.dst) p.place mine).find? fun c => c.bytes.any fun b => b.1 / 128 == k with
            | some c => c
            | none => { space := spaceOf p.slice.dst, slice := p.place, bytes := [] }
      startWith id j reads writes sectors

/-- A ring transfer starts: tile q between its slot and memory, its LOCAL bytes below the allotment's end (R254, R260). -/
def startRing (id : Nat) (j : Job) (r : WRing) (q : Nat) : M s Unit := do
  let t ← now
  let l := r.lay
  need (mayStart t id { j with reads := Slice.lists { Slice.bare with src := l } }) .wait
  let (bytes, cause) ← ringMoves j r q
  let (reads, writes) := ringFoot r bytes
  need (mayStart t id { j with reads := reads, writes := writes }) .wait
  match cause with
  | some c => stop (.trap c none none)
  | none =>
  if beyond (spaceOf l) (jobLocal t j) (bytes.filterMap (·.2)) || beyond .loc (jobLocal t j) (bytes.map (·.1)) then
    stop (.trap ePerm none none)
  else if r.drain then
    startWith id j reads writes
      (bySector (spaceOf l) 0 (bytes.filterMap fun b => b.2.map fun a => (a, ByteSrc.mem .loc b.1)))
  else
    startWith id j reads writes
      (bySector .loc 0 (bytes.map fun b => (b.1, match b.2 with
        | some a => ByteSrc.mem (spaceOf l) a
        | none => ByteSrc.zero)))

end Sys2Proof.Machine
end

