-- ==== Sys2Proof/Machine/Matrix.lean ====
section
/-! DEFINITION. The matrix engine, class X: tiles, products, loops, drains, weight reads and waits (R283 to R303). -/

namespace Sys2Proof.Machine

variable {s : State}

/-! ## Tiles (R283 to R285) -/

/-- The bytes of row r as one number. -/
def Tile.row (x : Tile) (r : Nat) : Nat :=
  Bytes.read (x.data.filter fun kv => 128 * r ≤ kv.1 && kv.1 < 128 * r + 128) (128 * r) 128

/-- Write the first `n` bytes of row r. -/
def Tile.putRow (x : Tile) (r n v : Nat) : Tile := { x with data := Bytes.write x.data (128 * r) n v }

/-- Codes of a row of packed elements (R273). -/
def unpackRow (f : Elem) (v cols : Nat) : List Nat := (List.range cols).map fun c => bits v (f.bits * c) f.bits

def packRow (f : Elem) (l : List Nat) : Nat := l.foldr (fun x acc => x % 2 ^ f.bits + 2 ^ f.bits * acc) 0

/-- SE8 codes of a row, as one number of 8 bytes. -/
def Tile.codes (x : Tile) (r : Nat) : List Nat :=
  (List.range 8).map fun q => (AMap.getD x.scales (8 * r + q) 127).toNat

def Tile.putCode (x : Tile) (r q e : Nat) : Tile := { x with scales := AMap.set x.scales (8 * r + q) (BitVec.ofNat 8 e) }

/-- The scale of a row of an operand tile (R274, R285). -/
def Tile.rowScale (x : Tile) (sl : Slot) (r : Nat) : RowScale :=
  match sl.scale with
  | 1 => .se8 (x.codes r)
  | 2 => .tensor x.tscale
  | _ => .none

/-- Accumulator words of a row. -/
def Tile.accs (x : Tile) (r cols : Nat) : List Word :=
  let v := x.row r
  (List.range cols).map fun c => BitVec.ofNat 32 (bits v (32 * c) 32)

def Tile.putAccs (x : Tile) (r : Nat) (l : List Word) : Tile :=
  x.putRow r (4 * l.length) (l.foldr (fun w acc => w.toNat + 2 ^ 32 * acc) 0)

/-- Every 32-bit word of the data, the scales and TSCALE as after `tzero` and `tfill` (R287). -/
def Tile.filled (x : Tile) (w : Word) : Tile :=
  { x with
    data := (List.range 32).foldr (fun (r : Nat) (m : Bytes) =>
      (List.range 128).foldr (fun (i : Nat) (m : Bytes) =>
        let b : Byte := w.extractLsb' (8 * (i % 4)) 8
        if b = 0 then m else (128 * r + i, b) :: m) m) []
    scales := []
    tscale := 0x3F800000 }

/-! ## Checks (R276, R284, R291, R292) -/

def putTile (wheel : Nat) (i : BitVec 3) (x : Tile) : M s Unit := do
  let t ← now
  match AMap.get? t.wheels wheel with
  | none => pure ()
  | some w => upd (.wheel wheel (some { w with tiles := w.tiles.set i.toNat x i.isLt }))

/-- Format groups (Table 16-4): the largest K of a step names each but the two of 128. -/
inductive MxGroup where
  | f32 | half | narrow8 | log | narrow4
  deriving DecidableEq, Repr

def Elem.group : Elem → MxGroup
  | .f32 => .f32
  | .bf16 | .f16 => .half
  | .f8a | .f8b | .f6a | .hs8 | .i8 => .narrow8
  | .lg6 => .log
  | .f4a | .hs4 => .narrow4

def MxGroup.stepK : MxGroup → Nat
  | .f32 => 32
  | .half => 64
  | .narrow8 | .log => 128
  | .narrow4 => 256

/-- What a product instruction works on. -/
structure Mm where
  d : Tile
  a : Tile
  b : Tile
  fa : Slot
  fb : Slot
  k : Nat
  deriving DecidableEq, Repr

/-- Shapes first, then slots, groups and the step K (R292). -/
def mmCheck (o : OpCtx) (d a b : BitVec 3) : M s Mm := do
  let xd ← getTile o d (some true)
  let xa ← getTile o a (some false)
  let xb ← getTile o b (some false)
  need (!ctlLayout xa.control && ctlLayout xb.control && ctlRows xa.control == ctlRows xd.control
    && ctlRows xb.control == ctlCols xd.control && ctlCols xa.control == ctlCols xb.control) illOperand
  let fa ← mxSlot o (ctlSlot xa.control)
  let fb ← mxSlot o (ctlSlot xb.control)
  need (fa.elem.group == fb.elem.group) (.trap eFmt none none)
  need (ctlCols xa.control ≤ fa.elem.group.stepK) illOperand
  pure { d := xd, a := xa, b := xb, fa := fa, fb := fb, k := ctlCols xa.control }

/-! ## Products (R292) -/

/-- Scale codes from block `q` on. -/
def RowScale.from (x : RowScale) (q : Nat) : RowScale :=
  match x with
  | .se8 l => .se8 (l.drop q)
  | y => y

/-- An operand row: its codes and its scale. -/
def opRow (x : Tile) (sl : Slot) (k r : Nat) : List Nat × RowScale := (unpackRow sl.elem (x.row r) k, x.rowScale sl r)

/-- Fold `n` values of k from `lo` on into an accumulator. -/
def foldPart (fa fb : Elem) (acc : Word) (x y : List Nat × RowScale) (lo n : Nat) : Word :=
  foldRows fa fb (x.2.from (lo / 32)) (y.2.from (lo / 32)) acc ((x.1.drop lo).take n) ((y.1.drop lo).take n)

/-- The accumulator tile after the products of `n` values of k from `lo` on. -/
def Mm.part (m : Mm) (lo n : Nat) : Tile :=
  let cols := ctlCols m.d.control
  let bs := (List.range cols).map fun j => opRow m.b m.fb m.k j
  (List.range (ctlRows m.d.control)).foldl (fun d i =>
    let x := opRow m.a m.fa m.k i
    d.putAccs i ((m.d.accs i cols).zipWith (fun acc y => foldPart m.fa.elem m.fb.elem acc x y lo n) bs)) m.d

/-- `tmma`: the new accumulator tile. -/
def Mm.product (m : Mm) : Tile := m.part 0 m.k

/-- `tmmb`: sixteen independent 8 × 8 products. -/
def Mm.blocks (m : Mm) : Tile :=
  let q := m.k / 4
  let bs := (List.range 32).map fun j => opRow m.b m.fb m.k j
  (List.range 32).foldl (fun d i =>
    let x := opRow m.a m.fa m.k i
    let accs := (m.d.accs i 32).zipIdx.map fun (acc, c) =>
      foldPart m.fa.elem m.fb.elem acc x (bs.getD (8 * (i / 8) + c % 8) ([], .none)) (q * (c / 8)) q
    d.putAccs i accs) m.d

/-- A step of the array has retired (R298). -/
def countStep (ctx : Nat) : M s Unit := do
  let t ← now
  let c := t.ctx ctx
  upd (.ctx ctx { c with mxstep := c.mxstep + 1 })

/-! ## Weight reads (R294, R302) -/

/-- A weight block: row stride and size in bytes. -/
def weightStride (sl : Slot) (k : Nat) : Nat := (elemRowBytes sl.elem k + 15) / 16 * 16

def weightSize (sl : Slot) (n k : Nat) : Nat :=
  n * weightStride sl k + (match sl.scale with | 1 => 8 * n | 2 => 4 | _ => 0)

/-- Row j of the weight matrix at offset `at_` of the weight store. -/
def weightRow (m : Bytes) (sl : Slot) (at_ n k j : Nat) : List Nat × RowScale :=
  let rs := weightStride sl k
  (unpackRow sl.elem (Bytes.read m (at_ + j * rs) (elemRowBytes sl.elem k)) k,
   match sl.scale with
   | 1 => .se8 ((List.range 8).map fun q => Bytes.read m (at_ + n * rs + 8 * j + q) 1)
   | 2 => .tensor (BitVec.ofNat 32 (Bytes.read m (at_ + n * rs) 4))
   | _ => .none)

/-- The bound range of the train's dispatch: offset and length in bytes. -/
def weightBound (t : State) (tr : Train) : Nat × Nat :=
  match t.dispatchOf tr with
  | some d => (65536 * d.launch.wsBase, 65536 * d.launch.wsLen)
  | none => (0, 0)

/-- Tile and slot checks of `tvxm`. -/
def tvxmCheck (o : OpCtx) (slot d a : BitVec 3) : M s (Tile × Tile × Slot × Slot) := do
  let xd ← getTile o d (some true)
  let xa ← getTile o a (some false)
  need (ctlRows xd.control == 32 && !ctlLayout xa.control && ctlRows xa.control == 32) illOperand
  let fa ← mxSlot o (ctlSlot xa.control)
  let fw ← mxSlot o slot
  need (fa.elem.group == fw.elem.group) (.trap eFmt none none)
  need (ctlCols xa.control ≤ fw.elem.group.stepK) illOperand
  pure (xd, xa, fa, fw)

/-- `tvxm`: the pointer checks over every active lane, then the lanes (R294). -/
def tvxmRun (e : EngineOp) (o : OpCtx) (slot pd d a : BitVec 3) : M s Unit := do
  let (xd, xa, fa, fw) ← tvxmCheck o slot d a
  let t ← now
  let (base, len) := weightBound t o.tr
  let n := ctlCols xd.control
  let k := ctlCols xa.control
  let p (L : Nat) : Nat := (e.cap.a.at L).toNat
  let mis := e.cap.act &&& maskOf fun L => p L ≠ 0 && p L % 128 ≠ 0
  let far := e.cap.act &&& maskOf fun L => p L ≠ 0 && len < p L + weightSize fw n k
  if mis ≠ 0 then raiseAt eMisalign mis (e.cap.a.at (lowest mis % 32))
  else if far ≠ 0 then stop (.trap ePerm (some far) none)
  else do
    let live := e.cap.act &&& maskOf fun L => p L ≠ 0
    let out := (lanesOf e.cap.act).foldl (fun x L =>
      if p L = 0 then x.putAccs L (List.replicate n 0)
      else
        let ar := opRow xa fa k L
        x.putAccs L ((xd.accs L n).zipIdx.map fun (acc, j) =>
          foldPart fa.elem fw.elem acc ar (weightRow t.wmem fw (base + p L) n k j) 0 k)) xd
    putTile o.tr.wheel d out
    modTrain e.train fun x => x.setP pd.toNat e.cap.act live
    countStep o.ctx

/-- A `tvxm` at the head of its queue waits for a bank in its refresh window (R302). -/
def tvxmStalled (t : State) (e : EngineOp) (o : OpCtx) : Bool :=
  match e.instr with
  | .tvxm _ _ slot _ d a _ =>
    match matrixSlot (t.mg.svc == 3) (slotWord t o.tr slot) with
    | none => false
    | some fw =>
      let n := weightSize fw (ctlCols (tileOf o.wheel d).control) (ctlCols (tileOf o.wheel a).control)
      (lanesOf e.cap.act).any fun L =>
        let p := (e.cap.a.at L).toNat
        p ≠ 0 && weightStalled t ((weightBound t o.tr).1 + p) n
  | _ => false

/-! ## Single instructions (R287, R289, R290) -/

/-- The control a `tcfg` may write: reserved fields always, the shape when CFG is set. -/
def tcfgRun (e : EngineOp) (o : OpCtx) (i : BitVec 3) : M s Unit := do
  let c : Word := (e.cap.a.at 0).setWidth 32
  need (bits c.toNat 21 11 == 0 && bits c.toNat 3 2 == 0) illOperand
  if ctlCfg c then
    if ctlAcc c then need (!ctlLayout c && ctlSlot c == 0 && ctlCols c ≤ 32) illOperand
    else do
      let f ← mxSlot o (ctlSlot c)
      need (elemRowBytes f.elem (ctlCols c) ≤ 128) illOperand
  else pure ()
  putTile o.tr.wheel i { tileOf o.wheel i with control := c }

/-- Write a row of an operand tile from exact values, choosing its scale (R278, R289). -/
def narrowRow (x : Tile) (sl : Slot) (r : Nat) (vals : List FV) : Tile :=
  let enc (v : FV) : Nat := sl.elem.encode sl.rnd sl.sat16 v
  match sl.scale with
  | 1 =>
    let blocks := (chunks 32 vals).zipIdx
    let x := blocks.foldl (fun x b => x.putCode r b.2 (chooseSe8 sl.elem b.1)) x
    let out := blocks.flatMap fun b =>
      let c := chooseSe8 sl.elem b.1
      b.1.map fun v => enc (if c = 255 then .nan else v.scale (127 - (c : Int)))
    x.putRow r (elemRowBytes sl.elem vals.length) (packRow sl.elem out)
  | 2 => x.putRow r (elemRowBytes sl.elem vals.length) (packRow sl.elem (vals.map fun v => enc (v.div (v32 x.tscale))))
  | _ => x.putRow r (elemRowBytes sl.elem vals.length) (packRow sl.elem (vals.map enc))

/-- `tcvt` between an accumulator and an operand of equal shape. -/
def tcvtRun (o : OpCtx) (i j : BitVec 3) : M s Unit := do
  let t ← getTile o i none
  let x ← getTile o j none
  need (ctlAcc t.control != ctlAcc x.control && ctlRows t.control == ctlRows x.control
    && ctlCols t.control == ctlCols x.control) illOperand
  let rows := List.range (ctlRows t.control)
  let cols := ctlCols t.control
  if ctlAcc x.control then do
    let sl ← mxSlot o (ctlSlot t.control)
    putTile o.tr.wheel i (rows.foldl (fun y r => narrowRow y sl r ((x.accs r cols).map v32)) t)
  else do
    let sl ← mxSlot o (ctlSlot x.control)
    putTile o.tr.wheel i (rows.foldl (fun y r =>
      let (codes, sc) := opRow x sl cols r
      y.putAccs r (codes.zipIdx.map fun (c, k) => r32 .rne ((sl.elem.value c).mul (sc.at (k / 32))))) t)

/-- `ttr`: an operand of at most 32 columns of 8, 16 or 32 bits, transposed. -/
def ttrRun (o : OpCtx) (i j : BitVec 3) : M s Unit := do
  let t ← getTile o i none
  let x ← getTile o j (some false)
  let sl ← mxSlot o (ctlSlot x.control)
  let cols := ctlCols x.control
  let rows := ctlRows x.control
  need (8 ≤ sl.elem.bits && sl.scale ≠ 1 && cols ≤ 32) illOperand
  let src := (List.range rows).map fun r => unpackRow sl.elem (x.row r) cols
  let control := BitVec.ofNat 32 (x.control.toNat % 2 ^ 5 + 2 ^ 5 * (cols - 1) + 2 ^ 10 * (rows - 1)
    + (if ctlLayout x.control then 0 else 2 ^ 18) + 2 ^ 20)
  let out := (List.range cols).foldl (fun (y : Tile) c =>
    y.putRow c (elemRowBytes sl.elem rows) (packRow sl.elem (src.map fun l => l.getD c 0))) t
  putTile o.tr.wheel i { out with control := control, tscale := x.tscale }

/-- Whole cycles that cover a time. -/
def cyclesOf (mhz ns : Nat) : Nat := (ns * mhz + 999) / 1000

/-- The value of `wsinfo` (R303). -/
def wsinfoVal (t : State) (k : Nat) : Word :=
  let ph := bankPhase t.mg.refreshNs k
  let f := t.mg.clockMhz.toNat
  if ph < 500 then BitVec.ofNat 32 (2 ^ 31 + cyclesOf f (500 - ph)) else BitVec.ofNat 32 (cyclesOf f (64000 - ph))

/-- One instruction that only touches tiles, weights and registers. -/
def mxRun (e : EngineOp) (o : OpCtx) : M s Unit := do
  let wh := o.tr.wheel
  match e.instr with
  | .tcfg _ i _ => tcfgRun e o i
  | .tzero _ i => putTile wh i ((tileOf o.wheel i).filled 0)
  | .tfill _ i _ => putTile wh i ((tileOf o.wheel i).filled ((e.cap.a.at 0).setWidth 32))
  | .tmma _ d a b => do
    let m ← mmCheck o d a b
    putTile wh d m.product
    countStep o.ctx
  | .tmmb _ d a b => do
    let m ← mmCheck o d a b
    need (ctlRows m.d.control == 32 && ctlCols m.d.control == 32 && m.k == m.fa.elem.group.stepK) illOperand
    putTile wh d m.blocks
    countStep o.ctx
  | .tvxm _ _ slot pd d a _ => tvxmRun e o slot pd d a
  | .tcvt _ i j => tcvtRun o i j
  | .ttr _ i j => ttrRun o i j
  | .wsinfo _ d _ => do
    let k := (e.cap.a.at 0).toNat
    need (k < 64) illOperand
    let t ← now
    opDst e.train d 1 ((wsinfoVal t k).setWidth 64)
  | _ => pure ()

/-! ## The engine's queues (R297, R298) -/

/-- The head of a queue, when its operands are settled (R13). -/
def mxHead (t : State) (core ctx : Nat) : Option (Nat × EngineOp) :=
  match mxQueue t core ctx with
  | [] => none
  | (k, e) :: _ => if engineMay t e.train e.id && !e.held && !frozen t ctx then some (k, e) else none

def isLoop : Instr → Bool
  | .tloop .. => true
  | _ => false

/-- MATRIX_INSTRUCTION_COMPLETE: the single instruction at the head of a queue takes effect and completes; what its checks find is deferred, and then it has no effect (R286, R291). -/
def execMatrixInstructionComplete (core ctx : Nat) (s : State) : Out :=
  runE s do
    let t ← now
    match mxHead t core ctx with
    | none => pure ()
    | some (k, e) =>
      match opCtx t e with
      | none => upd (.matrix k none)
      | some o =>
        if isTileJob e.instr || isLoop e.instr || tvxmStalled t e o then pure ()
        else
          match ← tryM (mxRun e o) with
          | .ok () => do
            upd (.matrix k none)
            endOp e.train k none
          | .error (.trap c lanes v) => do
            upd (.matrix k none)
            endOp e.train k (some (c, lanes, v))
          | .error x => stop x

/-! ## Loops (R293) -/

/-- Word i of a loop record. -/
def EngineOp.rec_ (e : EngineOp) (i : Nat) : Nat := e.words.getD i 0

/-- The checks of a loop before its first step. -/
def loopCheck (e : EngineOp) (o : OpCtx) (m : Mm) : M s Unit := do
  let r := (e.cap.a.at 0).toNat
  need (r % 32 == 0) (.trap eMisalign none none)
  need (r + 32 ≤ o.size) (.trap ePerm none none)
  need ((List.range 6).all (fun i => e.rec_ i % 16 == 0) && e.rec_ 7 % 8 == 0) (.trap eMisalign none none)
  let n := e.rec_ 6
  need (n ≠ 0) illOperand
  let last (i : Nat) (rows : Nat) (rb : Nat) : Nat :=
    e.rec_ i + (n - 1) * e.rec_ (i + 2) + (rows - 1) * e.rec_ (i + 1) + rb
  let ra := ctlRows m.a.control
  let rb := ctlRows m.b.control
  need (last 0 ra (elemRowBytes m.fa.elem m.k) ≤ o.size && last 3 rb (elemRowBytes m.fb.elem m.k) ≤ o.size
    && (m.fa.scale ≠ 1 || e.rec_ 7 + 512 * (n - 1) + 8 * ra ≤ o.size)
    && (m.fb.scale ≠ 1 || e.rec_ 7 + 512 * (n - 1) + 256 + 8 * rb ≤ o.size)) (.trap ePerm none none)

/-- Load an operand tile of a step from the local store; what lies beyond the elements of a row is cleared (R273, R285). -/
def loopTile (loc : Bytes) (e : EngineOp) (x : Tile) (sl : Slot) (k base sc : Nat) : Tile :=
  (List.range (ctlRows x.control)).foldl (fun (x : Tile) r =>
    let x := x.putRow r 128 (Bytes.read loc (e.rec_ base + e.step * e.rec_ (base + 2) + r * e.rec_ (base + 1))
      (elemRowBytes sl.elem k) % 2 ^ (sl.elem.bits * k))
    if sl.scale = 1 then
      (List.range 8).foldl (fun (x : Tile) q => x.putCode r q (Bytes.read loc (e.rec_ 7 + 512 * e.step + sc + 8 * r + q) 1)) x
    else x) x

/-- The k's at which a step may stop inside (Table 16-9). -/
def MxGroup.inner (g : MxGroup) (split : Bool) : List Nat :=
  match g, split with
  | .f32, false => [16]
  | .f32, true => [8, 16, 24]
  | .half, true => [32]
  | .narrow8, true => [64]
  | .narrow4, true => [128]
  | _, _ => []

/-- The boundary a step of `k` comes to next: an inner one, or its end (R299). -/
def Mm.bound (m : Mm) (split : Bool) (pos : Nat) : Nat :=
  ((m.fa.elem.group.inner split).find? fun b => pos < b && b < m.k).getD m.k

/-- One step as far as its next boundary: the operands are read when it begins, the tiles written in the order a, b, D; the answer is the k's folded, or none where the step has ended (R293, R299). -/
def loopStep (e : EngineOp) (o : OpCtx) (d a b : BitVec 3) : M s (Option Nat) := do
  let m ← mmCheck o d a b
  if e.pos = 0 then do
    if e.step = 0 then loopCheck e o m else pure ()
    putTile o.tr.wheel a (loopTile o.wheel.local_ e m.a m.fa m.k 0 0)
    let t ← now
    let w ← orStop (t.wheelOf o.tr) illOperand
    putTile o.tr.wheel b (loopTile o.wheel.local_ e (tileOf w b) m.fb m.k 3 256)
  else pure ()
  let t ← now
  let w ← orStop (t.wheelOf o.tr) illOperand
  let hi := m.bound (t.core o.wheel.core).split e.pos
  putTile o.tr.wheel d (Mm.part { m with a := tileOf w a, b := tileOf w b, d := tileOf w d } e.pos (hi - e.pos))
  if hi < m.k then pure (some hi)
  else do
    countStep o.ctx
    pure none

/-- LOOP_SEQUENCER_STEP: the loop at the head of a queue runs to the next boundary of its step, and completes after its last step (R293, R299). -/
def execLoopSequencerStep (core ctx : Nat) (s : State) : Out :=
  runE s do
    let t ← now
    match mxHead t core ctx with
    | none => pure ()
    | some (k, e) =>
      match e.instr, opCtx t e with
      | .tloop _ d a b _, some o =>
        match ← tryM (loopStep e o d a b) with
        | .ok (some n) => upd (.matrix k (some { e with pos := n }))
        | .ok none =>
          if e.step + 1 < e.rec_ 6 then upd (.matrix k (some { e with step := e.step + 1, pos := 0 }))
          else do
            upd (.matrix k none)
            endOp e.train k none
        | .error (.trap c lanes v) => do
          upd (.matrix k none)
          endOp e.train k (some (c, lanes, v))
        | .error x => stop x
      | .tloop .., none => upd (.matrix k none)
      | _, _ => pure ()

/-! ## Tile moves and drains (R288, R295) -/

/-- The bytes of row r of a part, as one number. -/
def partRow (x : Tile) (p : Part) (r : Nat) : Nat :=
  match p with
  | .data _ => x.row r
  | .sc _ => (x.codes r).foldr (fun c acc => c + 256 * acc) 0
  | .ts => x.tscale.toNat

/-- A tile after row r of a part is loaded; data beyond the row is cleared. -/
def putPart (x : Tile) (p : Part) (r v : Nat) : Tile :=
  match p with
  | .data _ => x.putRow r 128 v
  | .sc _ => (List.range 8).foldl (fun x q => x.putCode r q (bits v (8 * q) 8)) x
  | .ts => { x with tscale := BitVec.ofNat 32 v }

/-- The bytes a job writes, from rows of values. -/
def Span.writes (x : Span) (rows : Nat → Nat) : List (Nat × ByteSrc) :=
  x.at_.zipIdx.flatMap fun (a, r) => (List.range x.n).map fun i => (a + i, .imm (BitVec.ofNat 8 (bits (rows r) (8 * i) 8)))

/-- Read `n` bytes, lowest first, those already written in this step as they are now. -/
def readOver (j : Job) (sp : Space) (new : AMap Byte) (a : Nat) : Nat → M s Nat
  | 0 => pure 0
  | n + 1 => do
    let x ← match AMap.get? new a with
      | some b => pure b.toNat
      | none => jobRead j sp a 1
    let y ← readOver j sp new (a + 1) n
    pure (x + 256 * y)

/-- The bytes after `n` elements of a row are added from address `a` on, one after the other. -/
def addRow (j : Job) (sp : Space) : AMap Byte → Nat → List Word → M s (AMap Byte)
  | new, _, [] => pure new
  | new, a, d :: ds => do
    let old ← readOver j sp new a 4
    let v := fadd32 false .rne (BitVec.ofNat 32 old) d
    addRow j sp ((List.range 4).foldl (fun m i => AMap.set m (a + i) (v.extractLsb' (8 * i) 8)) new) (a + 4) ds

def addRows (j : Job) (sp : Space) : AMap Byte → List (Nat × List Word) → M s (AMap Byte)
  | new, [] => pure new
  | new, r :: rs => do
    let new ← addRow j sp new r.1 r.2
    addRows j sp new rs

/-- An add-on-store: every element read, added and written in this one step, the rows in order where they overlap (R295). -/
def drainAdd (j : Job) (x : Span) (accs : Nat → List Word) : M s Job := do
  let new ← addRows j x.sp [] (x.at_.zipIdx.map fun (a, r) => (a, accs r))
  let drops ← (bySector x.sp 0 (new.map fun b => (b.1, ByteSrc.imm b.2))).mapM fun sec => deliverBytes j sec
  if x.sp == .glob then jobSideEffect j else pure ()
  pure { j with clobber := drops.filterMap id }

/-- A tile job at the head of its queue starts: a load and an add-on-store are done in this step, other stores deliver their sectors one by one. -/
def startTile (id : Nat) (j : Job) (op : Nat) : M s Unit := do
  let t ← now
  match AMap.get? t.matrix op with
  | none => upd (.job id none)
  | some e =>
    match opCtx t e with
    | none => upd (.job id none)
    | some o =>
      match e.instr with
      | .tld _ i base p => do
        let x ← getTile o i none
        let sh ← partShape o x p
        let sp ← spanCheck j o e base.glob sh kRead
        need (mayStart t id { j with reads := sectorsOf sp.sp sp.bytes }) .wait
        let vals ← sp.at_.mapM fun a => readOver j sp.sp [] a sh.n
        putTile o.tr.wheel i (vals.zipIdx.foldl (fun x (v, r) => putPart x p r (v % 2 ^ sh.bits)) x)
        endJob id j none
      | .tst _ i base p => do
        let x ← getTile o i none
        let sh ← partShape o x p
        let sp ← spanCheck j o e base.glob sh kWrite
        startWith id j [] (sectorsOf sp.sp sp.bytes) (bySector sp.sp 0 (sp.writes fun r => partRow x p r % 2 ^ sh.bits))
      | .tdrain _ base add z d _ => do
        let x ← getTile o d (some true)
        let sh ← dataShape o x
        let sp ← spanCheck j o e base.glob sh (if add then kRw else kWrite)
        let foot := sectorsOf sp.sp sp.bytes
        if z then putTile o.tr.wheel d { x with data := [] } else pure ()
        if add then do
          need (mayStart t id { j with reads := foot, writes := foot }) .wait
          let j ← drainAdd j sp fun r => x.accs r (ctlCols x.control)
          endJob id j none
        else startWith id j [] foot (bySector sp.sp 0 (sp.writes x.row))
      | _ => pure ()

/-! ## Class X at issue (R286) -/

/-- TILES of the train's dispatch. -/
def tilesOf (t : State) (tr : Train) : Nat :=
  match t.dispatchOf tr with
  | some d => d.launch.tiles
  | none => 0

/-- The one class X instruction that acts per lane. -/
def isLanes : Instr → Bool
  | .tvxm .. => true
  | _ => false

/-- A class X instruction enters its queue, where it interlocks its destinations and tiles; a full queue waits. -/
def mxIssue (i : Instr) (tiles : List (BitVec 3)) (dests : List Reg) (cap : Iss → M s (Cap × List Nat)) : M s Unit := do
  let r ← beginM i
  let t ← now
  if tiles.any fun x => tilesOf t r.t ≤ x.toNat then raise eIllOperand
  else (if isLanes i then beginLanes i else beginOnce i) fun r => do
    let t ← now
    let core := t.coreOf r.t
    let ctx := t.ctxOf r.t
    need (!mxFull t r.t i) .wait
    let (c, words) ← cap r
    let op ← enqueue r i c words dests (tiles.map (·.toNat)) (fun k e => .matrix k (some e)) id
    if isTileJob i then do
      let id ← freshId
      upd (.job id (some (newJob op core ctx (some r.t.wheel) none (t.privDispatch r.t) (.tile op))))
    else pure ()

/-- Operands read once: two values. -/
def cap2 (a b : DWord) (r : Iss) : M s (Cap × List Nat) :=
  pure (capOf r (fun _ => a) (fun _ => b) zero64 zero128, [])

def capNone (r : Iss) : M s (Cap × List Nat) := cap2 0 0 r

def baseVal (r : Iss) (b : TBase) : DWord := if b.glob then r.d0 b.b else (r.x0 b.b).setWidth 64

def strideOf (r : Iss) : Part → DWord
  | .data st | .sc st => (r.x0 st).setWidth 64
  | .ts => 0

def execTcfg (sb : Sb) (t : BitVec 3) (c : Src) (s : State) : Out :=
  runM s (mxIssue (.tcfg sb t c) [t] [] fun r => cap2 ((r.x0 c).setWidth 64) 0 r)
def execTld (sb : Sb) (t : BitVec 3) (base : TBase) (part : Part) (s : State) : Out :=
  runM s (mxIssue (.tld sb t base part) [t] [] fun r => cap2 (baseVal r base) (strideOf r part) r)
def execTst (sb : Sb) (t : BitVec 3) (base : TBase) (part : Part) (s : State) : Out :=
  runM s (mxIssue (.tst sb t base part) [t] [] fun r => cap2 (baseVal r base) (strideOf r part) r)
def execTzero (sb : Sb) (t : BitVec 3) (s : State) : Out := runM s (mxIssue (.tzero sb t) [t] [] capNone)
def execTfill (sb : Sb) (t : BitVec 3) (x : Src) (s : State) : Out :=
  runM s (mxIssue (.tfill sb t x) [t] [] fun r => cap2 ((r.x0 x).setWidth 64) 0 r)
def execTmma (sb : Sb) (d a b : BitVec 3) (s : State) : Out := runM s (mxIssue (.tmma sb d a b) [d, a, b] [] capNone)
def execTmmb (sb : Sb) (d a b : BitVec 3) (s : State) : Out := runM s (mxIssue (.tmmb sb d a b) [d, a, b] [] capNone)
def execTcvt (sb : Sb) (t x : BitVec 3) (s : State) : Out := runM s (mxIssue (.tcvt sb t x) [t, x] [] capNone)
def execTtr (sb : Sb) (t x : BitVec 3) (s : State) : Out := runM s (mxIssue (.ttr sb t x) [t, x] [] capNone)

/-- `tloop` reads its record at issue (R293), after the train's earlier acquires (R128). -/
def execTloop (sb : Sb) (d a b : BitVec 3) (r : Src) (s : State) : Out :=
  runM s (mxIssue (.tloop sb d a b r) [d, a, b] [] fun x => do
    let t ← now
    need (accessMay t x.t x.id) .wait
    let w ← wheelM x
    let p := (x.x0 r).toNat
    let (c, _) ← cap2 (BitVec.ofNat 64 p) 0 x
    pure (c, (List.range 8).map fun i => Bytes.read w.local_ (p + 4 * i) 4))

/-- `tvxm` captures its guard and each lane's pointer. -/
def execTvxm (g : Guard) (sb : Sb) (slot : BitVec 3) (pd : BitVec 3) (d a : BitVec 3) (p : Src) (s : State) : Out :=
  runM s (mxIssue (.tvxm g sb slot pd d a p) [d, a] (if pd = 7 then [] else [.p pd.toNat]) fun r =>
    pure (capOf r (fun L => r.d p L) zero64 zero64 zero128, []))

def execTdrain (sb : Sb) (base : TBase) (add z : Bool) (d : BitVec 3) (st : Src) (s : State) : Out :=
  runM s (mxIssue (.tdrain sb base add z d st) [d] [] fun r => cap2 (baseVal r base) ((r.x0 st).setWidth 64) r)

def execWsinfo (sb : Sb) (d : Dst) (k : Src) (s : State) : Out :=
  runM s (mxIssue (.wsinfo sb d k) [] (dstRegs (d, 1)) fun r => cap2 ((r.x0 k).setWidth 64) 0 r)

/-- `twait`: wait in place for the train's class X instructions that name the tile, or for all of them (R296). -/
def execTwait (sb : Sb) (t : Option (BitVec 3)) (s : State) : Out :=
  runM s do
    let r ← beginM (.twait sb t)
    let x ← now
    need (match t with | some i => i.toNat < tilesOf x r.t | none => true) illOperand
    if r.t.inTx then unsupported r 0xFFFFFFFF
    else do
      need (match t with
        | some i => !(r.t.inflight.any fun f => f.tiles.contains i.toNat)
        | none => !hasOps x.matrix r.id) .wait
      finishNow r id

/-- Every bank of a mask is outside its window and stays so for `c` cycles. -/
def banksClear (t : State) (m : DWord) (c : Nat) : Bool :=
  (List.range 64).all fun k =>
    let ph := bankPhase t.mg.refreshNs k
    !m.getLsbD k || (500 ≤ ph && 1000 * c ≤ (64000 - ph) * t.mg.clockMhz.toNat)

/-- The windows of a mask leave a gap of `c` cycles: from the end of some bank's window to the next one's start. -/
def gapExists (mhz : Nat) (m : DWord) (c : Nat) : Bool :=
  m == 0 || (List.range 64).any fun k => m.getLsbD k &&
    (match (List.range 64).find? fun i => m.getLsbD ((k + i + 1) % 64) with
     | some i => 1000 * c ≤ (1000 * (i + 1) - 500) * mhz
     | none => false)

/-- `wsync` waits in place for a gap; where there can be none it traps at issue (R303). -/
def execWsync (sb : Sb) (m c : Src) (s : State) : Out :=
  runM s do
    beginOnce (.wsync sb m c) fun r => do
      let t ← now
      let mask := r.d0 m
      let n := (r.x0 c).toNat
      if !gapExists t.mg.clockMhz.toNat mask n then raise eIllOperand
      else do
        need (banksClear t mask n) .wait
        finishNow r id

/-! ## Refresh windows and tenants (R298, R302) -/

/-- REFRESH_WINDOW_END: time reaches the end of a bank's window; reads that stalled on it go on. -/
def execRefreshWindowEnd (bank : Nat) (s : State) : Out :=
  runE s do
    let t ← now
    let ph := bankPhase t.mg.refreshNs bank
    if ph < 500 then upd (.mg { t.mg with refreshNs := t.mg.refreshNs + (500 - ph) }) else pure ()

/-- Contexts with tiles on a core. -/
def tenants (t : State) (core : Nat) : List Nat :=
  ((t.wheels.filter fun kv => kv.2.core == core).filterMap fun kv =>
    (AMap.get? t.dispatches kv.2.dispatch).bind fun d => if d.launch.tiles = 0 then none else some d.ctx).dedup

/-- TENANT_SPLIT: the array is split while wheels of two contexts with tiles are resident, and whole otherwise; results do not change (R298). -/
def execTenantSplit (core : Nat) (s : State) : Out :=
  runE s do
    let t ← now
    upd (.core core { t.core core with split := 2 ≤ (tenants t core).length })

end Sys2Proof.Machine
end

