-- ==== Sys2Proof/Machine/Contexts.lean ====
section
/-! DEFINITION. Room for wheels on cores, bound ranges of the weight store, and the instructions that save and load a context and write the weight store (R62, R79, R283, R301, R366, R369, R370). -/

namespace Sys2Proof.Machine

variable {s : State}

/-! ## Room (R62, R283) -/

/-- Wheels of a core. -/
def wheelsOn (t : State) (core : Nat) : AMap Wheel := t.wheels.filter fun kv => kv.2.core == core

def sumNat (l : List Nat) : Nat := l.foldl (· + ·) 0

/-- Compute serves on this core: full service, or column 0 in reduced service (Table 22-7). -/
def coreServes (t : State) (core : Nat) : Bool :=
  core < 800 && t.mg.coreMap.getLsbD core && (t.mg.svc == 4 || (t.mg.svc == 3 && dieOf core == 0))

/-- A core has room for a wheel of a dispatch (R62, R283). -/
def roomFor (t : State) (core : Nat) (d : Dispatch) : Bool :=
  let ws := wheelsOn t core
  let dl (w : Wheel) : Option Dispatch := AMap.get? t.dispatches w.dispatch
  let get (f : Launch → Nat) : Nat := sumNat (ws.map fun kv => match dl kv.2 with | some x => f x.launch | none => 0)
  let ctxs := (ws.filterMap fun kv => (dl kv.2).map (·.ctx)).dedup
  get (·.trains) + d.launch.trains ≤ 32 && get (·.local_) + d.launch.local_ ≤ 524288 && get (·.tiles) + d.launch.tiles ≤ 32
    && (ctxs.contains d.ctx || ctxs.length < 2)

/-- Vector registers held by the trains on a core, written since launch and not freed, of one context or of all (R66). -/
def regsOn (t : State) (core : Nat) (c : Option Nat) : Nat :=
  sumNat ((t.trains.filter fun kv => t.coreOf kv.2 == core && (c.isNone || c == some (t.ctxOf kv.2))).map (·.2.v.length))

/-- Registers of a context that one core's 1,024 and its Barrel's 2,048 do not hold (log entry 64). -/
def spilledOn (t : State) (c core : Nat) : Nat := min (regsOn t core (some c)) (regsOn t core none - 3072)

/-- A core admits wheels of a context while the context's spill area has room, or, where it has none, the Barrel (R66). -/
def spillRoom (t : State) (core c : Nat) : Bool :=
  let n := (t.ctx c).spillsize.toNat
  if n = 0 then regsOn t core none < 3072
  else sumNat ((t.trains.map fun kv => t.coreOf kv.2).dedup.map (spilledOn t c)) < 512 * n

/-! ## Bound ranges (R301) -/

/-- Two ranges meet, given by base and length. -/
def rangesMeet (a n b m : Nat) : Bool := n != 0 && m != 0 && a < b + m && b < a + n

/-- A running dispatch binds part of a range (R10, R301). -/
def rangeBound (t : State) (base len : Nat) : Bool :=
  t.dispatches.any fun kv => rangesMeet base len kv.2.launch.wsBase kv.2.launch.wsLen

/-! ## At issue (R366, R369, R370) -/

/-- The instructions of PRIV dispatches: in trap mode they raise E_PRIV. -/
def beginPriv (i : Instr) (body : Iss → M s Unit) : M s Unit :=
  beginOnce i fun r => if r.t.trap.tm then raise ePriv else body r

/-- The checks of `ctxsv` and `ctxld` at issue, and their place in the train's queue. -/
def ctxIssue (i : Instr) (d : Dst) (c a : Src) : M s Unit :=
  beginPriv i fun r =>
    let k := (r.x0 c).setWidth 64
    let va := r.d0 a
    if 15 < k.toNat then raise eIllOperand
    else if va.toNat % 256 ≠ 0 then raiseAt eMisalign r.t.em va
    else streamIssue r i (dstRegs (d, 1)) va k

def execCtxsv (sb : Sb) (d : Dst) (c a : Src) (s : State) : Out := runM s (ctxIssue (.ctxsv sb d c a) d c a)
def execCtxld (sb : Sb) (d : Dst) (c a : Src) (s : State) : Out := runM s (ctxIssue (.ctxld sb d c a) d c a)

/-- `wsld`: its copy is an engine job (R13, R370). -/
def execWsld (sb : Sb) (w a n : Src) (s : State) : Out :=
  runM s do
    beginPriv (.wsld sb w a n) fun r => do
      let wo := (r.x0 w).toNat
      let va := r.d0 a
      let k := (r.x0 n).toNat
      if k = 0 || 262144 < wo + k then raise eIllOperand
      else if va.toNat % 128 ≠ 0 then raiseAt eMisalign r.t.em va
      else do
        let t ← now
        let core := t.coreOf r.t
        need (!checkerFull t core) .wait
        let op ← freshId
        modTrain r.id fun _ => r.issued op [] [] id
        let j ← freshId
        upd (.job j (some (newJob op core (t.ctxOf r.t) (some r.t.wheel) none (t.privDispatch r.t)
          (.weights r.id op (65536 * wo) va.toNat (65536 * k) 0))))

/-! ## The weight store written (R301, R370) -/

/-- A `wsld` starts: not in reduced service, and not into a range that a running dispatch binds. -/
def startWeights (id : Nat) (j : Job) (w a n : Nat) : M s Unit := do
  let t ← now
  let j := { j with started := true, reads := (List.range (n / 128)).map fun i => (Space.glob, a / 128 + i) }
  if !mayStart t id j then stop .wait
  else if t.reduced || rangeBound t (w / 65536) (n / 65536) then stop (.trap ePerm none none)
  else upd (.job id (some j))

/-- Copy `n` words of 8 bytes from memory to the weight store. -/
def weightWords (j : Job) (w a : Nat) : Nat → M s Unit
  | 0 => pure ()
  | n + 1 => do
    let v ← engineRead j.core j.ctx j.priv false a 8
    updAll ((List.range 8).map fun i => .wbyte (w + i) (BitVec.ofNat 8 (v / 256 ^ i)))
    weightWords j (w + 8) (a + 8) n

/-- WEIGHT_STORE_WRITE_COMPLETE: the next 64 KiB of a started `wsld` are written; it completes with the last of them, and stops between them under pre-emption (R370). -/
def execWeightStoreWriteComplete (write : Nat) (s : State) : Out :=
  runE s do
    let t ← now
    match AMap.get? t.jobs write with
    | none => pure ()
    | some j =>
      match j.kind with
      | .weights train op w a n k =>
        if !j.started || j.held || frozen t j.ctx then pure ()
        else jobStep write j do
          weightWords j (w + k) (a + k) 8192
          let j := { j with kind := .weights train op w a n (k + 65536) }
          if n ≤ k + 65536 then endJob write j none else upd (.job write (some j))
      | _ => pure ()

/-! ## Saving a context (R79, R369) -/

/-- A wheel belongs to a context. -/
def wheelIn (t : State) (c : Nat) (w : Wheel) : Bool :=
  match AMap.get? t.dispatches w.dispatch with
  | some d => d.ctx == c
  | none => false

def trainIn (t : State) (c id : Nat) : Bool :=
  match AMap.get? t.trains id with
  | some x => t.ctxOf x == c
  | none => false

/-- Entity operations that have reached the ESU have completed or are held (R221). A sync point in progress does not keep the context from being saved: it runs on in the image. -/
def saveReady (t : State) (c : Nat) : Bool :=
  t.esu.all fun kv => !trainIn t c kv.2.train || kv.2.held || firstOf t.esu kv.2.train != some kv.1
    || t.syncs.any fun p => p.op == kv.1

/-- A train as an image keeps it: its last pages are lost. -/
def Train.imaged (t : Train) : Train := { t with lastPage := perLane fun _ => none }

/-- The image of a context. -/
def imageOf (t : State) (c size : Nat) : Image :=
  let ops (q : AMap EngineOp) : AMap EngineOp := q.filter fun kv => trainIn t c kv.2.train
  { live := true, ctx := c, size := size, context := t.ctx c,
    dispatches := t.dispatches.filter fun kv => kv.2.ctx == c, vers := t.vers.filter (·.ctx == c),
    syncs := t.syncs.filter (·.ctx == c), skips := t.skips.filter (·.1 == c),
    marks := t.marks.filter (·.ctx == c), wheels := t.wheels.filter fun kv => wheelIn t c kv.2,
    trains := (t.trains.filter fun kv => t.ctxOf kv.2 == c).map fun kv => (kv.1, kv.2.imaged),
    jobs := t.jobs.filter fun kv => kv.2.ctx == c, esu := ops t.esu, matrix := ops t.matrix, stream := ops t.stream,
    ray := ops t.ray, tlbis := t.tlbis.filter fun i => trainIn t c i.train,
    clocks := (t.wheels.filter fun kv => wheelIn t c kv.2).map fun kv => (kv.1, (t.core kv.2.core).clock)
    nodes := (t.nodes.filter fun kv => kv.2.ctx == c && kv.2.state == .started).map (·.1) }

/-- The context leaves its cores; what its trains owned is owned no longer (R144). -/
def vacate (im : Image) : M s Unit := do
  let t ← now
  (t.owners.filter fun kv => kv.2.ctx == im.ctx).forM fun kv => disown kv.1
  upd (.ctx im.ctx { im.context with saved := true, replayHeld := false })
  upd (.vers (t.vers.filter (·.ctx != im.ctx)))
  upd (.syncs (t.syncs.filter (·.ctx != im.ctx)))
  upd (.skips (t.skips.filter (·.1 != im.ctx)))
  upd (.marks (t.marks.filter (·.ctx != im.ctx)))
  upd (.tlbis (t.tlbis.filter fun i => !im.trains.any (·.1 == i.train)))
  updAll (im.jobs.map fun kv => .job kv.1 none)
  updAll (im.esu.map fun kv => .esu kv.1 none)
  updAll (im.matrix.map fun kv => .matrix kv.1 none)
  updAll (im.stream.map fun kv => .stream kv.1 none)
  updAll (im.ray.map fun kv => .ray kv.1 none)
  updAll (im.trains.map fun kv => .train kv.1 none)
  updAll (im.wheels.map fun kv => .wheel kv.1 none)
  ((im.wheels.map (·.2.core) ++ im.jobs.map (·.2.core)).dedup).forM pump

/-- The entries of a map under the keys of another. -/
def sameKeys {α : Type} (m : AMap α) (l : AMap α) : AMap α := m.filter fun kv => AMap.has l kv.1

/-- Do something for a saved context on what its image holds: its registers, wheels, trains, entity operations and sync points stand in the machine while it is done, and go back into the image (R221). -/
def inImage (key : Nat) (im : Image) (m : M s Unit) : M s Unit := do
  let t ← now
  let c := im.ctx
  upd (.ctx c im.context)
  updAll (im.wheels.map fun kv => .wheel kv.1 (some kv.2))
  updAll (im.trains.map fun kv => .train kv.1 (some kv.2))
  updAll (im.esu.map fun kv => .esu kv.1 (some kv.2))
  upd (.vers (t.vers.filter (·.ctx != c) ++ im.vers))
  upd (.syncs (t.syncs.filter (·.ctx != c) ++ im.syncs))
  upd (.skips (t.skips.filter (·.1 != c) ++ im.skips))
  upd (.marks (t.marks.filter (·.ctx != c) ++ im.marks))
  m
  let x ← now
  upd (.image key { im with
    context := x.ctx c, wheels := sameKeys x.wheels im.wheels, trains := sameKeys x.trains im.trains, esu := sameKeys x.esu im.esu
    vers := x.vers.filter (·.ctx == c), syncs := x.syncs.filter (·.ctx == c), skips := x.skips.filter (·.1 == c)
    marks := x.marks.filter (·.ctx == c) })
  updAll (im.esu.map fun kv => .esu kv.1 none)
  updAll (im.trains.map fun kv => .train kv.1 none)
  updAll (im.wheels.map fun kv => .wheel kv.1 none)
  upd (.vers (x.vers.filter (·.ctx != c) ++ t.vers.filter (·.ctx == c)))
  upd (.syncs (x.syncs.filter (·.ctx != c) ++ t.syncs.filter (·.ctx == c)))
  upd (.skips (x.skips.filter (·.1 != c) ++ t.skips.filter (·.1 == c)))
  upd (.marks (x.marks.filter (·.ctx != c) ++ t.marks.filter (·.ctx == c)))
  upd (.ctx c (t.ctx c))

/-- Write `n` free words of 8 bytes. -/
def freeBody (put : Nat → Nat → M s Unit) (off : Nat) : Nat → M s Unit
  | 0 => pure ()
  | n + 1 => do
    let f ← freshFree
    put off f.toNat
    freeBody put (off + 8) n

/-- `ctxsv` at its engine: the size, or the image: header, the key of the model's image, and a body that is not architected (log entry 6). -/
def saveRun (e : EngineOp) (o : OpCtx) (d : Dst) : M s Unit := do
  let t ← now
  let a := (e.cap.a.at 0).toNat
  let c := (e.cap.b.at 0).toNat
  if !(t.ctx c).stopped || (t.ctx c).saved then stop (.trap ePerm none none)
  else if !saveReady t c then stop .wait
  else
    let words := Config.imageWords ((t.wheels.filter fun kv => wheelIn t c kv.2).length)
      ((t.trains.filter fun kv => t.ctxOf kv.2 == c).length)
    let size := 72 + 8 * words
    do
      if a = 0 then pure ()
      else do
        let put (off v : Nat) : M s Unit := do
          let link ← engineWrite o.wheel.core o.ctx o.priv false (a + off) 8 v
          if link then sideEffect e.train else pure ()
        let key ← freshId
        put 0 (0x54584356 + 2 ^ 32)
        put 8 (c + size % 2 ^ 32 * 2 ^ 32)
        freeBody put 16 6
        put 64 key
        freeBody put 72 words
        let t ← now
        let im := imageOf t c size
        upd (.image key im)
        vacate im
      opDst e.train d 1 (BitVec.ofNat 64 size)

/-! ## Loading a context (R62, R79, R369) -/

/-- A train goes on at resume: its Escapement age restarts, its resume lanes reissue, its wait goes on from where it began (R78, R79). -/
def Train.resumed (t : Train) : Train := { t with stopped := false, readyAge := 0 }

/-- The core a wheel returns to: its pinned core, else its former core or the first one with room. -/
def homeFor (t : State) (w : Wheel) : Option Nat :=
  match AMap.get? t.dispatches w.dispatch with
  | none => some w.core
  | some d =>
    let fits (k : Nat) : Bool := coreServes t k && roomFor t k d && spillRoom t k d.ctx
    match d.pins.find? fun p => p.1 == w.index with
    | some p => if fits p.2 then some p.2 else none
    | none => if fits w.core then some w.core else (List.range 800).find? fits

/-- Every wheel of an image becomes resident together, or none does. The core it comes to has a clock past what its former core had acquired for it (R263, R383). -/
def readmit (im : Image) : M s Unit :=
  im.wheels.forM fun kv => do
    let t ← now
    match homeFor t kv.2 with
    | none => stop .wait
    | some k => do
      upd (.wheel kv.1 (some { kv.2 with core := k }))
      let x := t.core k
      upd (.core k { x with clock := max x.clock (AMap.getD im.clocks kv.1 0) })

/-- Put an image into hardware context `c` and resume it. -/
def restore (im : Image) (c : Nat) : M s Unit := do
  let t ← now
  updAll (im.dispatches.map fun kv => .dispatch kv.1 (some (match AMap.get? t.dispatches kv.1 with
    | some d => { d with ctx := c }
    | none => { kv.2 with ctx := c, node := none })))
  updAll (im.dispatches.filterMap fun kv => match (AMap.get? t.dispatches kv.1).bind (·.node) with
    | some n => (AMap.get? t.nodes n).map fun x => .node n { x with ctx := c }
    | none => none)
  updAll (im.nodes.filterMap fun n => (AMap.get? t.nodes n).map fun x => .node n { x with ctx := c })
  readmit im
  let t ← now
  updAll (im.trains.map fun kv => .train kv.1 (some kv.2.resumed))
  updAll (im.jobs.map fun kv => .job kv.1 (some { kv.2 with
    ctx := c
    core := match kv.2.wheel.bind fun w => AMap.get? t.wheels w with
      | some w => w.core
      | none => kv.2.core }))
  updAll (im.esu.map fun kv => .esu kv.1 (some kv.2))
  updAll (im.matrix.map fun kv => .matrix kv.1 (some kv.2))
  updAll (im.stream.map fun kv => .stream kv.1 (some kv.2))
  updAll (im.ray.map fun kv => .ray kv.1 (some kv.2))
  upd (.vers (t.vers.filter (·.ctx != c) ++ im.vers.map fun v => { v with ctx := c }))
  upd (.syncs (t.syncs.filter (·.ctx != c) ++ im.syncs.map fun p => { p with ctx := c }))
  upd (.skips (t.skips.filter (·.1 != c) ++ im.skips.map fun p => (c, p.2)))
  upd (.marks (t.marks.filter (·.ctx != c) ++ im.marks.map fun m => { m with ctx := c }))
  upd (.tlbis (t.tlbis ++ im.tlbis.map fun i => { i with ctx := c }))
  let old := t.ctx im.ctx
  let held := im.context.replayHeld || (old.saved && old.replayHeld)
  if old.saved then upd (.ctx im.ctx { old with replayHeld := false }) else pure ()
  upd (.ctx c { im.context with
    stopped := t.mg.hold.isSome, preempt := false, saved := false, regulator := 0, replayHeld := held })
  upd (.mg { t.mg with hold := t.mg.hold.map fun m => m ||| BitVec.ofNat 16 (2 ^ c) })
  ((im.nodes.filterMap fun n => (AMap.get? t.nodes n).map (·.core)).dedup).forM pump

/-- Read `n` words of 8 bytes of an image: a fault on any page of it holds the load. -/
def readBody (get : Nat → M s Nat) (off : Nat) : Nat → M s Unit
  | 0 => pure ()
  | n + 1 => do
    let _ ← get off
    readBody get (off + 8) n

/-- `ctxld` at its engine: a bad header loads nothing; all of a good image is read before the context resumes. Bytes that no `ctxsv` of this machine wrote are no image, whatever SIZE they name; an image whose trains are resident elsewhere is refused as the load into their own context is (log entry 6). -/
def loadRun (e : EngineOp) (o : OpCtx) (d : Dst) : M s Unit := do
  let t ← now
  let a := (e.cap.a.at 0).toNat
  let c := (e.cap.b.at 0).toNat
  if t.residentIn c then stop (.trap ePerm none none)
  else do
    let get (off : Nat) : M s Nat := engineRead o.wheel.core o.ctx o.priv false (a + off) 8
    let h0 ← get 0
    let h1 ← get 8
    if h0 ≠ 0x54584356 + 2 ^ 32 then stop (.trap eIllOperand none none)
    else do
      let key ← get 64
      match AMap.get? t.images key with
      | none => stop (.trap eIllOperand none none)
      | some im =>
        if h1 / 2 ^ 32 ≠ im.size % 2 ^ 32 then stop (.trap eIllOperand none none)
        else if im.trains.any fun kv => AMap.has t.trains kv.1 then stop (.trap ePerm none none)
        else do
          readBody get 72 ((im.size - 72) / 8)
          restore im c
          upd (.image key { im with live := false })
          opDst e.train d 1 (BitVec.ofNat 64 im.size)

/-- The head of a train's queue is a context instruction: it acts, is held by a translation fault, or waits (R369). -/
def ctxStep (id : Nat) (e : EngineOp) : M s Unit := do
  let t ← now
  match opCtx t e with
  | none => upd (.stream id none)
  | some o =>
    if e.held || frozen t o.ctx || firstOf t.stream e.train ≠ some id || !engineMay t e.train e.id then pure ()
    else
      let run : M s Unit := match e.instr with
        | .ctxsv _ d _ _ => saveRun e o d
        | .ctxld _ d _ _ => loadRun e o d
        | _ => pure ()
      match ← tryM run with
      | .ok () => do
        upd (.stream id none)
        endOp e.train id none
      | .error (.trap c lanes v) => do
        upd (.stream id none)
        endOp e.train id (some (c, lanes, foundValue c v))
      | .error (.held page kind present malformed) => do
        upd (.stream id (some { e with held := true }))
        reportHeld e.train page kind present malformed 1
      | .error .wait => pure ()
      | .error x => stop x

end Sys2Proof.Machine
end

