-- ==== Sys2Proof/Machine/Engines.lean ====
section
/-! DEFINITION. JOB_START: an operation at the head of a train's stream queue, or a job of the stream or matrix engine, starts (R12, R13, R254, R260, R288, R295, R369, R370). -/

namespace Sys2Proof.Machine

variable {s : State}

/-- Every access that a job could read at its issue is performed (R13). -/
def jobMay (t : State) (j : Job) : Bool :=
  match j.kind with
  | .copy _ slices => j.node.isSome || slices.all fun x => x.refused || engineMay t x.train x.op
  | .tile op =>
    match AMap.get? t.matrix op with
    | none => true
    | some e =>
      match AMap.get? t.trains e.train with
      | none => true
      | some x => (mxHead t (t.coreOf x) (t.ctxOf x)).map (·.1) == some op
  | .weights train op _ _ _ _ => engineMay t train op
  | _ => true

/-- What starting a job does. -/
def startJob (id : Nat) (j : Job) : M s Unit := do
  let t ← now
  match j.kind with
  | .copy _ slices => startCopy id j slices
  | .tile op => startTile id j op
  | .ringFill k q | .ringDrain k q =>
    match (j.wheel.bind fun w => AMap.get? t.wheels w).bind fun w => ringOf w k with
    | some r => startRing id j r q
    | none => upd (.job id none)
  | .weights _ _ w a n _ => startWeights id j w a n

/-- JOB_START. An operation that is not yet a job is taken up by the stream engine. -/
def execJobStart (job : Nat) (s : State) : Out :=
  runE s do
    let t ← now
    match AMap.get? t.stream job with
    | some e =>
      match e.instr with
      | .ctxsv .. | .ctxld .. => ctxStep job e
      | _ => streamStep job e
    | none =>
      match AMap.get? t.jobs job with
      | none => pure ()
      | some j => if j.started || j.held || !ctxRuns t j.ctx || !jobMay t j then pure () else jobStep job j (startJob job j)

end Sys2Proof.Machine
end

