-- ==== Sys2Proof/Machine/Esu.lean ====
section
/-! DEFINITION. The entity store: world structures in memory, handles, queries, handle accesses and command reservation (R170 to R185, R194, R199 to R214). -/

namespace Sys2Proof.Machine

variable {s : State}

/-! ## Access to world structures (R170, R199) -/

/-- Who makes an entity access: the core whose die serves it, the context and right it translates with, and the train or node it is made for. -/
structure EU where
  core : Nat
  ctx : Nat
  priv : Bool
  train : Option Nat
  /-- the node that the launcher and the Remontoir act for (R354) -/
  node : Option Nat
  deriving DecidableEq, Repr

def OpCtx.eu (o : OpCtx) (train : Nat) : EU := { core := o.wheel.core, ctx := o.ctx, priv := o.priv, train := some train, node := none }

def eRd (u : EU) (va n : Nat) : M s Nat := engineRead u.core u.ctx u.priv false va n

def eWords (u : EU) (va n : Nat) : M s Nat := readWords u.core u.ctx u.priv va n

/-- A write; one to a LINK-placed page is a side effect (R354). -/
def eWr (u : EU) (va n v : Nat) : M s Unit := do
  let link ← engineWrite u.core u.ctx u.priv false va n v
  if !link then pure ()
  else match u.train, u.node with
    | some id, _ => sideEffect id
    | none, some k => modNode k fun n => { n with se := true }
    | none, none => pure ()

/-- Write `n` words of 4 bytes. -/
def eWr4 (u : EU) (va : Nat) : Nat → Nat → M s Unit
  | 0, _ => pure ()
  | n + 1, v => do
    eWr u va 4 (v % 2 ^ 32)
    eWr4 u (va + 4) n (v / 2 ^ 32)

/-- Read `n` words of 4 bytes. -/
def eRd4 (u : EU) (va : Nat) : Nat → M s Nat
  | 0 => pure 0
  | n + 1 => do
    let x ← eRd u va 4
    let y ← eRd4 u (va + 4) n
    pure (x + 2 ^ 32 * y)

/-! ## Worlds (R171, R175, R191) -/

/-- A version record (Table 10-13). -/
structure VerRec where
  version : Nat
  pins : Nat
  cap : Nat
  map : Nat
  deriving DecidableEq, Repr

structure World where
  w : Nat
  va : Nat
  dir : Nat
  slots : Nat
  freeHead : Nat
  ntypes : Nat
  narch : Nat
  archs : Nat
  maxArch : Nat
  chunkBytes : Nat
  pool : Nat
  poolChunks : Nat
  poolMap : Nat
  curver : Nat
  status : Nat
  areas : Nat
  recs : List VerRec
  sizes : List Nat
  deriving DecidableEq, Repr

def noSlot : Nat := 0xFFFFFFFF

/-- A descriptor in 2,048 bits, with the VA of its type table; none when a field is outside its range (Table 10-1). -/
def descOf (w va v : Nat) : Option (World × Nat) :=
  let f (off size : Nat) : Nat := bits v (8 * off) (8 * size)
  let types := f 0x10 8
  let x : World :=
    { w := w, va := va, dir := f 0 8, slots := f 8 4, freeHead := f 0xC 4, ntypes := f 0x18 2, narch := f 0x1C 4,
      archs := f 0x20 8, maxArch := f 0x28 4, chunkBytes := f 0x2C 4, pool := f 0x30 8, poolChunks := f 0x38 4,
      poolMap := f 0x40 8, curver := f 0x48 4, status := f 0x4C 4, areas := f 0x68 8
      recs := (List.range 4).map fun i =>
        ({ version := f (0x80 + 16 * i) 4, pins := f (0x84 + 16 * i) 2, cap := f (0x86 + 16 * i) 2,
           map := f (0x88 + 16 * i) 8 } : VerRec)
      sizes := [] }
  let ok := x.dir % 1024 == 0 && 1 ≤ x.slots && (x.freeHead < x.slots || x.freeHead == noSlot) && types % 128 == 0
    && 1 ≤ x.ntypes && x.ntypes ≤ 1024 && f 0x1A 2 == 0 && 1 ≤ x.maxArch && x.maxArch ≤ 65536 && 1 ≤ x.narch
    && x.narch ≤ x.maxArch && x.archs % 256 == 0 && x.chunkBytes % 1024 == 0 && 3072 ≤ x.chunkBytes
    && x.pool % 1024 == 0 && 1 ≤ x.poolChunks && f 0x3C 4 == 0 && 1 ≤ x.curver && x.status < 8 && f 0x70 16 == 0
    && f 0xC0 64 == 0
  if ok then some (x, types) else none

/-- A type table entry is a size of 4 to 1,024 bytes, a multiple of 4 (R175). -/
def sizeOk (e : Nat) : Bool := e % 4 == 0 && 4 ≤ e && e ≤ 1024

/-- The descriptor's STATUS.CORRUPT is set. -/
def markCorrupt (u : EU) (va status : Nat) : M s Unit :=
  if bitAt status 0 then pure () else eWr u (va + 0x4C) 4 (status + 1)

/-- World w of a context, when it is present (R170, R171). -/
def worldOf (u : EU) (w : Nat) : M s (Option World) := do
  let t ← now
  if w = 0 || 256 ≤ w then pure none
  else do
    let va ← eRd u ((t.ctx u.ctx).worldtab.toNat + 8 * w) 8
    if va = 0 || va % 256 ≠ 0 then pure none
    else do
      let v ← eWords u va 32
      let corrupt : M s (Option World) := do
        markCorrupt u va (bits v (8 * 0x4C) 32)
        pure none
      match descOf w va v with
      | none => corrupt
      | some (x, types) => do
        let sizes ← (List.range x.ntypes).mapM fun t => eRd u (types + 4 * t) 4
        if sizes.all sizeOk then pure (some { x with sizes := sizes }) else corrupt

def World.size (x : World) (t : Nat) : Nat := x.sizes.getD t 0

/-- Write a 4-byte field of a descriptor. -/
def putDesc (u : EU) (x : World) (off v : Nat) : M s Unit := eWr u (x.va + off) 4 v

/-! ## Directory entries and handles (R172 to R174, R194) -/

structure DirEnt where
  version : Nat
  chunk : Nat
  arch : Nat
  row : Nat
  state : Nat
  gen : Nat
  deriving DecidableEq, Repr

/-- Read entry `slot`; a corrupt one reads as STATE 5, which is stale for every handle. -/
def readEnt (u : EU) (x : World) (slot : Nat) : M s DirEnt := do
  let v ← eWords u (x.dir + 16 * slot) 2
  let e : DirEnt :=
    { version := bits v 96 32, chunk := bits v 64 32, arch := bits v 48 16, row := bits v 40 8, state := bits v 32 3,
      gen := bits v 0 24 }
  if bits v 35 5 ≠ 0 || bits v 24 8 ≠ 0 || 5 ≤ e.state then do
    let st ← eRd u (x.va + 0x4C) 4
    markCorrupt u x.va st
    pure { e with state := 5 }
  else pure e

def DirEnt.word (e : DirEnt) : Nat :=
  e.gen + 2 ^ 32 * e.state + 2 ^ 40 * e.row + 2 ^ 48 * e.arch + 2 ^ 64 * e.chunk + 2 ^ 96 * e.version

def writeEnt (u : EU) (x : World) (slot : Nat) (word : Nat) : M s Unit := do
  eWr u (x.dir + 16 * slot) 8 (word % 2 ^ 64)
  eWr u (x.dir + 16 * slot + 8) 8 (word / 2 ^ 64)

def hWorld (h : DWord) : Nat := bits h.toNat 56 8
def hGen (h : DWord) : Nat := bits h.toNat 32 24
def hSlot (h : DWord) : Nat := bits h.toNat 0 32

def handleOf (w gen slot : Nat) : DWord := BitVec.ofNat 64 (w * 2 ^ 56 + gen * 2 ^ 32 + slot)

inductive HClass where
  | live | pending | stale
  deriving DecidableEq, Repr

/-- A handle's world, its class against the current directory, and its entry. -/
structure HInfo where
  world : Option World
  cls : HClass
  ent : DirEnt
  deriving DecidableEq, Repr

def DirEnt.none : DirEnt := ⟨0, 0, 0, 0, 5, 0⟩

def classify (u : EU) (h : DWord) : M s HInfo := do
  match ← worldOf u (hWorld h) with
  | none => pure ⟨none, .stale, DirEnt.none⟩
  | some x =>
    if x.slots ≤ hSlot h then pure ⟨some x, .stale, DirEnt.none⟩
    else do
      let e ← readEnt u x (hSlot h)
      let c : HClass := if e.gen ≠ hGen h then .stale else if e.state = 1 then .live else if e.state = 2 then .pending else .stale
      pure ⟨some x, c, e⟩

/-- The version a train's dispatch pinned of world w, if its launch record views w (R203). -/
def viewOf (t : State) (tr : Train) (w : Nat) : Option Nat :=
  match t.dispatchOf tr with
  | some d => if d.launch.viewWorld = w && w ≠ 0 then d.view else none
  | none => none

/-- Live for the view (R194). -/
def HInfo.liveFor (i : HInfo) (view : Option Nat) : Bool :=
  i.cls == .live && (match view with
    | some p => i.ent.version ≤ p
    | none => true)

/-! ## Archetypes and chunks (R176, R177, R193) -/

structure Arch where
  sig : Nat
  nchunks : Nat
  rows : Nat
  head : Nat
  tail : Nat
  deriving DecidableEq, Repr

def readArch (u : EU) (x : World) (a : Nat) : M s Arch := do
  let v ← eWords u (x.archs + 256 * a) 18
  pure { sig := bits v 0 1024, nchunks := bits v 1024 32, rows := bits v 1056 32, head := bits v 1088 32,
         tail := bits v 1120 32 }

def World.chunkVa (x : World) (k : Nat) : Nat := x.pool + k * x.chunkBytes

/-- Types of a signature, increasing. -/
def sigTypes (x : World) (sig : Nat) : List Nat := (List.range x.ntypes).filter fun t => bitAt sig t

/-- Offset of the column of type t (R177). -/
def colOffset (x : World) (sig t : Nat) : Nat :=
  3072 + 256 * (((sigTypes x sig).filter (· < t)).map x.size).foldl (· + ·) 0

/-- Chunk size of a signature. -/
def chunkSize (x : World) (sig : Nat) : Nat := 3072 + 256 * ((sigTypes x sig).map x.size).foldl (· + ·) 0

/-- What the ESU keeps of a retained version. -/
def verState (t : State) (ctx w version : Nat) : Option VerState :=
  t.vers.find? fun v => v.ctx == ctx && v.world == w && v.version == version

/-- The copy that a version's map names for a chunk, else the chunk itself (R193, R212). -/
def throughMap (t : State) (ctx w : Nat) (view : Option Nat) (k : Nat) : Nat :=
  match view.bind fun p => verState t ctx w p with
  | some v => match v.map.find? fun m => m.1 == k with
    | some m => m.2
    | none => k
  | none => k

/-- The chunk list of an archetype, by NEXT from its head. -/
def chainGo (u : EU) (x : World) (k : Nat) : Nat → M s (List Nat)
  | 0 => pure []
  | n + 1 =>
    if k = noSlot then pure []
    else do
      let next ← eRd u (x.chunkVa k + 2084) 4
      let rest ← chainGo u x next n
      pure (k :: rest)

def chain (u : EU) (x : World) (a : Arch) : M s (List Nat) := chainGo u x a.head a.nchunks

/-- A sync point of the world is in progress (R195). -/
def syncing (t : State) (ctx w : Nat) : Bool := t.syncs.any fun p => p.ctx == ctx && p.world == w

/-- Wait for a sync point in progress, unless under a pinned view (R195, R212). -/
def notSyncing (ctx w : Nat) : M s Unit := do
  let t ← now
  need (!syncing t ctx w) .wait

/-! ## Queries (R180, R181, R206, R207) -/

structure Query where
  world : Nat
  incl : List Nat
  excl : List Nat
  writes : List Nat
  changed : Bool
  since : Nat
  deriving DecidableEq, Repr

/-- A query record in 1,024 bits, when R180 accepts it for its world. -/
def queryOf (ntypes v : Nat) : Option Query :=
  let ninc := bits v 8 8
  let nexc := bits v 16 8
  let inc := (List.range 8).map fun i => bits v (64 + 16 * i) 16
  let exc := (List.range 4).map fun i => bits v (192 + 16 * i) 16
  let q : Query :=
    { world := bits v 0 8, incl := (inc.take ninc).map (· % 1024), excl := (exc.take nexc).map (· % 1024)
      writes := ((inc.take ninc).filter fun e => bitAt e 15).map (· % 1024), changed := bitAt v 24, since := bits v 32 32 }
  let ok := 1 ≤ ninc && ninc ≤ 8 && nexc ≤ 4 && bits v 25 7 == 0 && (inc.take ninc).all (fun e => bits e 10 5 == 0)
    && (exc.take nexc).all (fun e => e < 1024) && (inc.drop ninc).all (· == 0) && (exc.drop nexc).all (· == 0)
    && bits v 256 768 == 0 && (q.incl ++ q.excl).all (· < ntypes) && decide (q.incl ++ q.excl).Nodup
  if ok then some q else none

/-- Read and check a query record: its world and itself. -/
def readQuery (u : EU) (va : Nat) : M s (Option (World × Query)) := do
  let v ← eWords u va 16
  match ← worldOf u (bits v 0 8) with
  | none => pure none
  | some x => pure ((queryOf x.ntypes v).map fun q => (x, q))

/-- The chunk lists of the current version. -/
def currentLists (u : EU) (x : World) : M s (List (Nat × List Nat)) :=
  (List.range x.narch).mapM fun a => do
    let e ← readArch u x a
    let l ← chain u x e
    pure (a, l)

/-- The lists of a version: the ESU's own record of an older one, memory for the current one. -/
def listsAt (u : EU) (x : World) (view : Option Nat) : M s (List (Nat × List Nat)) := do
  let t ← now
  match view with
  | none => currentLists u x
  | some p =>
    if p = x.curver then currentLists u x
    else match verState t u.ctx x.w p with
      | some v => pure v.lists
      | none => pure []

/-- The join: the chunks of every archetype that matches, with the CHANGED filter read in the chunk the version shows. -/
def joinChunks (u : EU) (x : World) (q : Query) (view : Option Nat) : M s (List Nat) := do
  let t ← now
  let lists ← listsAt u x view
  let parts ← lists.mapM fun (a, l) => do
    let e ← readArch u x a
    if q.incl.all (bitAt e.sig) && !(q.excl.any (bitAt e.sig)) then
      if q.changed then l.filterM fun k => do
        let cver ← eRd u (x.chunkVa (throughMap t u.ctx x.w view k) + 2088) 4
        pure (q.since ≤ cver)
      else pure l
    else pure []
  pure parts.flatten

/-- A version that can be joined: the current one, or one with a record and pins. -/
def World.retained (x : World) (v : Nat) : Bool :=
  v == x.curver || x.recs.any fun r => r.version == v && 0 < r.pins

/-! ## Running one operation (R204) -/

/-- How an operation ends at the ESU: it completes now, it stays as a sync point in progress, or it completes with a deferred trap, after which only a mark of corruption that it made stands (R171, R174, R204). -/
inductive EAns where
  | done
  | stays
  | fails (c : Byte) (lanes : Option Mask) (v : Option DWord)
  deriving DecidableEq, Repr

/-- Complete, with the destination registers of the active lanes and the predicate. -/
def eDone (e : EngineOp) (d : Option (Dst × Nat)) (f : Nat → BitVec 128) (pd : Option (BitVec 3)) (ok : Mask) :
    M s EAns := do
  modTrain e.train fun t =>
    let t := match d with
      | some (d, n) => t.setDst d e.cap.act 0 (fun L k => regPart (f L) k) n
      | none => t
    match pd with
    | some p => t.setP p.toNat e.cap.act ok
    | none => t
  pure .done

/-- Complete an operation that acts once, with its destination. -/
def eOnce (e : EngineOp) (d : Dst) (n : Nat) (v : DWord) : M s EAns := do
  opDst e.train d n v
  pure .done

def strictFor (t : State) (tr : Train) (strict : Bool) : Bool :=
  strict || (match t.dispatchOf tr with
    | some d => d.launch.strict
    | none => false)

/-- Do `f` in each active lane. A trap that a lane's access raises is a check like any other: the cause of the lowest such lane is raised for every lane that meets that cause (R204). -/
def eachLane {α : Type} (act : Mask) (f : Nat → M s α) (k : List (Nat × α) → M s EAns) : M s EAns := do
  let l ← (lanesOf act).mapM fun L => do
    match ← tryM (f L) with
    | .ok a => pure (L, Except.ok a)
    | .error (.trap c _ v) => pure (L, Except.error (c, v))
    | .error x => stop x
  match l.filterMap fun x => match x.2 with
      | .ok _ => none
      | .error y => some (x.1, y) with
  | [] => k (l.filterMap fun x => match x.2 with
      | .ok a => some (x.1, a)
      | .error _ => none)
  | (L, c, v) :: more => pure (.fails c (some (maskOf fun i => ((L, c, v) :: more).any fun y => y.1 == i && y.2.1 == c)) v)

/-- Classify every active lane's handle. -/
def classifyAll (e : EngineOp) (u : EU) (k : List (Nat × HInfo) → M s EAns) : M s EAns :=
  eachLane e.cap.act (fun L => classify u (e.cap.a.at L)) k

/-- Handle accesses of the worlds the lanes name wait for a sync point, lanes under a pinned view apart. -/
def waitWorlds (e : EngineOp) (o : OpCtx) : M s Unit := do
  let t ← now
  (lanesOf e.cap.act).forM fun L =>
    let w := hWorld (e.cap.a.at L)
    if (viewOf t o.tr w).isSome then pure () else notSyncing o.ctx w

def lanesThat {α : Type} (is : List (Nat × α)) (f : Nat → α → Bool) : Mask := maskOf fun L => is.any fun x => x.1 == L && f L x.2

/-- What `is` answers in lane L. -/
def laneOf {α : Type} (is : List (Nat × α)) (L : Nat) : Option α := (is.find? fun x => x.1 == L).map (·.2)

/-- The first check that some lane fails, raised for every lane that fails it, else `k` (R204). -/
def laneChecks {α : Type} (is : List (Nat × α)) (k : M s EAns) : List (Byte × (Nat → α → Bool)) → M s EAns
  | [] => k
  | (c, f) :: rest =>
    let m := lanesThat is f
    if m ≠ 0 then pure (.fails c (some m) none) else laneChecks is k rest

/-- A live entity's row: the chunk the view shows, and the row. -/
def entRow (t : State) (o : OpCtx) (x : World) (e : DirEnt) : Nat × Nat :=
  (x.chunkVa (throughMap t o.ctx x.w (viewOf t o.tr x.w) e.chunk), e.row)

/-- The lane's handle is live for its train's view of its world (R194, R203). -/
def HInfo.isLive (t : State) (o : OpCtx) (i : HInfo) : Bool := i.liveFor (i.world.bind fun x => viewOf t o.tr x.w)

/-- The strict forms' check (R208, R211). -/
def strictCheck (t : State) (o : OpCtx) (strict : Bool) : List (Byte × (Nat → HInfo → Bool)) :=
  if strictFor t o.tr strict then [(eHandle, fun _ i => !i.isLive t o)] else []

def erowRun (e : EngineOp) (o : OpCtx) (u : EU) (strict : Bool) (pd : BitVec 3) (d : Dst) : M s EAns := do
  waitWorlds e o
  classifyAll e u fun is => do
    let t ← now
    let val (L : Nat) : Nat := match laneOf is L with
      | some i => match i.world with
        | some x => if i.isLive t o then (entRow t o x i.ent).1 + (entRow t o x i.ent).2 else 0
        | none => 0
      | none => 0
    laneChecks is (eDone e (some (d, 2)) (fun L => BitVec.ofNat 128 (val L)) (some pd) (lanesThat is fun _ i => i.isLive t o))
      (strictCheck t o strict)

def ehchkRun (e : EngineOp) (o : OpCtx) (u : EU) (pd : BitVec 3) : M s EAns := do
  waitWorlds e o
  classifyAll e u fun is => do
    let t ← now
    eDone e none (fun _ => 0) (some pd) (lanesThat is fun _ i => i.isLive t o)

/-- The chunk that a row reference names, when it is in use. -/
def poolChunk (u : EU) (x : World) (va : Nat) : M s (Option Nat) := do
  if va < x.pool || (va - x.pool) % x.chunkBytes ≠ 0 then pure none
  else
    let k := (va - x.pool) / x.chunkBytes
    if x.poolChunks ≤ k then pure none
    else do
      let b ← eRd u (x.poolMap + k / 8) 1
      pure (if bitAt b (k % 8) then some k else none)

/-- `ecol` (R209): the checks lane set by lane set, then the address in the chunk the view shows (R212). -/
def ecolRun (e : EngineOp) (o : OpCtx) (u : EU) (pd : BitVec 3) (d : Dst) : M s EAns := do
  let w := (e.cap.c.at 0).toNat
  let t ← now
  if (viewOf t o.tr w).isSome then pure () else notSyncing o.ctx w
  match ← worldOf u w with
  | none => pure (.fails eIllOperand (some e.cap.em) none)
  | some x =>
    let ref (L : Nat) : Nat := (e.cap.a.at L).toNat
    let ty (L : Nat) : Nat := (e.cap.b.at L).toNat
    laneChecks ((lanesOf e.cap.act).map fun L => (L, ()))
      (eachLane e.cap.act (fun L => poolChunk u x (ref L / 1024 * 1024)) fun ks => laneChecks ks
        (eachLane e.cap.act (fun L => do
          let t ← now
          let va := x.chunkVa (throughMap t o.ctx w (viewOf t o.tr w) (((laneOf ks L).join).getD 0))
          let a ← eRd u (va + 2080) 2
          let ar ← readArch u x a
          pure (if bitAt ar.sig (ty L) then some (va + colOffset x ar.sig (ty L) + ref L % 256 * x.size (ty L)) else none))
          fun out => eDone e (some (d, 2)) (fun L => BitVec.ofNat 128 ((laneOf out L).join.getD 0)) (some pd)
            (lanesThat out fun _ v => v.isSome))
        [(ePerm, fun _ k => k.isNone)])
      [(eMisalign, fun L _ => bits (ref L) 8 2 ≠ 0), (eIllOperand, fun L _ => x.ntypes ≤ ty L)]

/-- The element that a handle access names, where its entity is live and has the type (R177, R211, R212). -/
def entElem (o : OpCtx) (u : EU) (ty off : Nat) (i : HInfo) : M s (Option Nat) := do
  let t ← now
  match i.world with
  | none => pure none
  | some x =>
    if !i.isLive t o then pure none
    else do
      let ar ← readArch u x i.ent.arch
      let (c, row) := entRow t o x i.ent
      pure (if bitAt ar.sig ty then some (c + colOffset x ar.sig ty + row * x.size ty + off) else none)

/-- The checks of a handle access of `n` bytes, in order (R211). -/
def accessChecks (t : State) (o : OpCtx) (n : Nat) (ty off : Nat → Nat) (strict : Bool) : List (Byte × (Nat → HInfo → Bool)) :=
  [ (eIllOperand, fun L i => match i.world with
      | some x => decide (x.ntypes ≤ ty L)
      | none => false),
    (eMisalign, fun L _ => off L % n != 0),
    (ePerm, fun L i => match i.world with
      | some x => decide (x.size (ty L) < off L + n)
      | none => false) ] ++ strictCheck t o strict

/-- `eget` and `eput` (R211): the checks, that of the pages among them, then each live lane's element in increasing lane order. -/
def accessRun (e : EngineOp) (o : OpCtx) (u : EU) (wd : WD) (strict : Bool) (pd : BitVec 3) (d : Option Dst) :
    M s EAns := do
  waitWorlds e o
  let n := 4 * wd.regs
  let t ← now
  let ty (L : Nat) : Nat := (e.cap.b.at L).toNat
  let off (L : Nat) : Nat := (e.cap.c.at L).toNat
  if d.isNone && (lanesOf e.cap.act).any fun L => (viewOf t o.tr (hWorld (e.cap.a.at L))).isSome then
    pure (.fails ePerm (some e.cap.act) none)
  else
    classifyAll e u fun is => do
      let t ← now
      laneChecks is
        (eachLane e.cap.act (fun L => match laneOf is L with
            | some i => do
              let a ← entElem o u (ty L) (off L) i
              match a, d with
              | some a, none => do
                (List.range wd.regs).forM fun i => do
                  let _ ← engineX u.core u.ctx u.priv false (a + 4 * i) kWrite
                  pure ()
                pure (some (a, 0))
              | some a, some _ => do
                let v ← eRd4 u a wd.regs
                pure (some (a, v))
              | none, _ => pure none
            | none => pure none) fun out => do
          if d.isNone then out.forM fun x => match x.2 with
            | some y => eWr4 u y.1 wd.regs (e.cap.x.at x.1).toNat
            | none => pure ()
          else pure ()
          eDone e (d.map fun d => (d, wd.regs)) (fun L => BitVec.ofNat 128 (((laneOf out L).join.map (·.2)).getD 0)) (some pd)
            (lanesThat out fun _ v => v.isSome))
        (accessChecks t o n ty off strict)

/-- `eqry` (R206): a join under the current version waits for a sync point, one under the train's own pinned view does not (R195). -/
def eqryRun (e : EngineOp) (o : OpCtx) (u : EU) (cur : Bool) (d : Dst) : M s EAns := do
  let q := (e.cap.a.at 0).toNat
  let v := (e.cap.b.at 0).toNat
  if q % 128 ≠ 0 then pure (.fails eMisalign none none)
  else
    match ← readQuery u q with
    | none => pure (.fails eIllOperand none none)
    | some (x, rec) => do
      let t ← now
      let mine := viewOf t o.tr x.w
      let view := if v = 0 then mine else some v
      if v ≠ 0 && !x.retained v then pure (.fails eVersion none none)
      else do
        if view.isNone || (view = some x.curver && mine ≠ view) then notSyncing o.ctx x.w else pure ()
        let l ← joinChunks u x rec view
        modTrain e.train fun t => { t with
          cursors := t.cursors.set (if cur then 1 else 0)
            (some { world := x.w, version := view.getD x.curver, chunks := l }) (by split <;> decide) }
        eOnce e d 1 (BitVec.ofNat 64 l.length)

/-- `enext` (R207): a version that is not pinned has no map, so its chunks keep their own VAs. -/
def enextRun (e : EngineOp) (o : OpCtx) (u : EU) (cur : Bool) (d : Dst) : M s EAns := do
  let i : Fin 2 := if cur then 1 else 0
  match o.tr.cursors[i] with
  | none => eOnce e d 2 0
  | some c =>
    match c.chunks with
    | [] => eOnce e d 2 0
    | k :: rest => do
      let t ← now
      modTrain e.train fun t => { t with cursors := t.cursors.set i (some { c with chunks := rest }) }
      match ← worldOf u c.world with
      | none => eOnce e d 2 0
      | some x => eOnce e d 2 (BitVec.ofNat 64 (x.chunkVa (throughMap t o.ctx c.world (some c.version) k)))

/-! ## Commands (R183 to R185, R213, R214) -/

/-- A command area header (Table 10-8). -/
structure Area where
  va : Nat
  records : Nat
  counts : Nat
  perWheel : Nat
  wheels : Nat
  world : Nat
  submit : Nat
  deriving DecidableEq, Repr

def readArea (u : EU) (va : Nat) : M s Area := do
  let v ← eWords u va 5
  pure { va := va, records := bits v 0 64, counts := bits v 64 64, perWheel := bits v 128 32, wheels := bits v 160 32,
         world := bits v 192 8, submit := bits v 256 64 }

/-- The area of a train's dispatch. -/
def areaOf (u : EU) (t : State) (tr : Train) : M s (Option Area) := do
  match t.dispatchOf tr with
  | some d => if d.launch.cmdArea = 0 then pure none else do
      let a ← readArea u d.launch.cmdArea.toNat
      pure (some a)
  | none => pure none

/-- Command codes (Table 10-7). -/
inductive Cmd where
  | create (nt : Bool)
  | destroy | add | remove | set
  deriving DecidableEq, Repr

def Cmd.code : Cmd → Nat
  | .create _ => 1
  | .destroy => 2
  | .add => 3
  | .remove => 4
  | .set => 5

/-- The command carries a type, and a value. -/
def Cmd.typed : Cmd → Bool
  | .create nt => !nt
  | .destroy => false
  | _ => true

def Cmd.valued : Cmd → Bool
  | .create nt => !nt
  | .add | .set => true
  | _ => false

/-- An ordering key: fields, most significant first (R183). -/
abbrev Key := List Nat

def recordKey (submit wheel : Nat) (w0 : Nat) : Key := [submit, wheel, bits w0 18 4, bits w0 22 5, bits w0 32 16]

/-- The records of a wheel in an area. -/
def areaCount (u : EU) (a : Area) (wheel : Nat) : M s Nat := eRd u (a.counts + 8 * wheel) 4

def recordVa (a : Area) (wheel i : Nat) : Nat := a.records + 32 * (a.perWheel * wheel + i)

/-- The registered areas of a world. -/
def areasOf (u : EU) (x : World) : M s (List (Nat × Area)) := do
  let l ← (List.range 64).mapM fun i => do
    let va ← eRd u (x.areas + 8 * i) 8
    if va = 0 then pure none else do
      let a ← readArea u va
      pure (some (i, a))
  pure (l.filterMap id)

/-- The records of an area, with their keys: VA, first word, handle, key. -/
def areaRecords (u : EU) (a : Area) : M s (List (Nat × Nat × DWord × Key)) := do
  let l ← (List.range a.wheels).mapM fun w => do
    let n ← areaCount u a w
    (List.range (min n a.perWheel)).mapM fun i => do
      let va := recordVa a w i
      let v ← eWords u va 2
      pure (va, bits v 0 64, BitVec.ofNat 64 (bits v 64 64), recordKey a.submit w (bits v 0 64))
  pure l.flatten

/-- The key of the CREATE record that reserved a pending handle. -/
def creatorKey (u : EU) (x : World) (h : DWord) : M s (Option Key) := do
  let as ← areasOf u x
  let rs ← as.mapM fun a => areaRecords u a.2
  pure ((rs.flatten.find? fun r => bits r.2.1 0 4 == 1 && r.2.2.1 == h).map fun r => r.2.2.2)

/-- A command code that reserves a handle. -/
def Cmd.creates : Cmd → Bool
  | .create _ => true
  | _ => false

/-- The target of a command is stale: by R172, of a world that is not the area's, or a pending handle that a record with a later key reserved (R185, R213). -/
def staleTarget (u : EU) (x : World) (key : Key) (h : DWord) : M s Bool := do
  let i ← classify u h
  if i.cls = .stale || hWorld h ≠ x.w then pure true
  else if i.cls = .pending then do
    let k ← creatorKey u x h
    pure (match k with
      | some k => lexLt key k
      | none => false)
  else pure false

/-- One lane reserves a record, or fails with a cause (R185, R213, log entry 35). -/
def reserve (e : EngineOp) (o : OpCtx) (u : EU) (area : Option Area) (c : Cmd) (ind : Bool) (L : Nat) :
    M s (Except Byte DWord) := do
  let t ← now
  let h := e.cap.a.at L
  match area, AMap.get? t.trains e.train with
  | some a, some tr =>
    match ← worldOf u a.world with
    | none => pure (.error (if c.creates then eEntFull else eHandle))
    | some x => do
      let seq := tr.seq.at L
      let w := o.wheel.index
      let n ← if w < a.wheels then areaCount u a w else pure 0
      let full := a.wheels ≤ w || a.perWheel ≤ n || 65536 ≤ seq || (c.creates && x.freeHead == noSlot)
      let stale ← if c.creates then pure false else staleTarget u x [a.submit, w, o.tr.index, L, seq] h
      let spoilt ← if c.creates && !full then do
          let ent ← readEnt u x x.freeHead
          pure (ent.state != 0)
        else pure false
      if stale then pure (.error eHandle)
      else if full || spoilt then pure (.error eEntFull)
      else do
        let nt := match c with | .create nt => nt | _ => false
        let w0 := seq * 2 ^ 32 + L * 2 ^ 22 + o.tr.index * 2 ^ 18 + (if c.typed then (e.cap.b.at L).toNat % 1024 else 0) * 2 ^ 8
          + (if nt then 2 ^ 6 else 0) + (if ind && c.valued then 2 ^ 4 else 0) + c.code
        let h ← if c.creates then do
            let ent ← readEnt u x x.freeHead
            writeEnt u x x.freeHead { ent with state := 2, chunk := 0, arch := 0, row := 0 }.word
            putDesc u x 0x0C ent.chunk
            pure (handleOf x.w ent.gen x.freeHead)
          else pure h
        let va := recordVa a w n
        let pay := if c.valued then (e.cap.x.at L).toNat else 0
        eWr u va 8 w0
        eWr u (va + 8) 8 h.toNat
        eWr u (va + 16) 8 (pay % 2 ^ 64)
        eWr u (va + 24) 8 (pay / 2 ^ 64)
        eWr u (a.counts + 8 * w) 8 (n + 1)
        let t ← now
        upd (.skips (t.skips.filter (· != (u.ctx, va))))
        modTrain e.train fun t => { t with seq := t.seq.set (L % 32) (seq + 1) (Nat.mod_lt _ (by decide)) }
        pure (.ok h)
  | _, _ =>
    if c.creates then pure (.error eEntFull)
    else do
      let i ← classify u h
      pure (.error (if i.cls = .stale then eHandle else eEntFull))

/-- The descriptors of worlds whose STATUS.CORRUPT is set. -/
def corruptWorlds (u : EU) (ws : List Nat) : M s (List Nat) := do
  let t ← now
  let l ← (ws.dedup.filter fun w => w ≠ 0 && w < 256).mapM fun w => do
    let va ← eRd u ((t.ctx u.ctx).worldtab.toNat + 8 * w) 8
    if va = 0 || va % 256 ≠ 0 then pure none
    else do
      let st ← eRd u (va + 0x4C) 4
      pure (if bitAt st 0 then some va else none)
  pure (l.filterMap id)

/-- Run a computation, and keep what it did only where its answer passes. -/
def keepIf {α : Type} (f : α → Bool) (m : M s α) : M s α := fun r =>
  match m r with
  | .ok (a, r') => .ok (a, if f a then r' else r)
  | .error e => .error e

/-- A command instruction (R213): checks over every active lane, then the lanes in order; where a lane traps, or fails in a strict form, nothing is reserved, and only a mark of corruption stands. -/
def commandRun (e : EngineOp) (o : OpCtx) (u : EU) (c : Cmd) (ind strict : Bool) (pd : BitVec 3) (d : Option Dst) :
    M s EAns := do
  let t ← now
  let area ← areaOf u t o.tr
  let world ← match area with
    | some a => do
      notSyncing o.ctx a.world
      worldOf u a.world
    | none => pure none
  let ty (L : Nat) : Nat := (e.cap.b.at L).toNat
  let lanes := (lanesOf e.cap.act).map fun L => (L, ())
  laneChecks lanes
    (do
      let (ans, marks) ← keepIf (fun x => x.1 == .done) do
        let ans ← eachLane e.cap.act (reserve e o u area c ind) fun out =>
          let bad (b : Byte) : Mask := lanesThat out fun _ r => match r with
            | .error x => x == b
            | .ok _ => false
          if strict && (bad eEntFull ||| bad eHandle) ≠ 0 then
            pure (.fails (if bad eEntFull ≠ 0 then eEntFull else eHandle) (some (bad eEntFull ||| bad eHandle)) none)
          else
            let val (L : Nat) : Option DWord := match laneOf out L with
              | some (.ok h) => some h
              | _ => none
            eDone e (d.map fun d => (d, 2)) (fun L => ((val L).getD 0).setWidth 128) (some pd)
              (maskOf fun L => (val L).isSome)
        let marks ← if ans = .done then pure [] else
          corruptWorlds u ((match area with | some a => [a.world] | none => []) ++
            if c.creates then [] else (lanesOf e.cap.act).map fun L => hWorld (e.cap.a.at L))
        pure (ans, marks)
      marks.forM fun va => do
        let st ← eRd u (va + 0x4C) 4
        markCorrupt u va st
      pure ans)
    [(eIllOperand, fun L _ => match world with
        | some x => c.typed && decide (x.ntypes ≤ ty L)
        | none => false),
      (eIllOperand, fun L _ => match world with
        | some x => !ind && c.valued && decide (16 < x.size (ty L))
        | none => false),
      (eMisalign, fun L _ => ind && c.valued && (e.cap.x.at L).toNat % 4 ≠ 0)]

/-- `ecmt` (R214): the train's uncommitted records of active lanes; one that a failed sync point skipped is discarded (R195). -/
def ecmtRun (e : EngineOp) (o : OpCtx) (u : EU) (d : Dst) : M s EAns := do
  let t ← now
  let area ← areaOf u t o.tr
  let n ← match area with
    | none => pure 0
    | some a => do
      notSyncing o.ctx a.world
      if a.wheels ≤ o.wheel.index then pure 0
      else do
        let k ← areaCount u a o.wheel.index
        let hits ← (List.range (min k a.perWheel)).mapM fun i => do
          let va := recordVa a o.wheel.index i
          let w0 ← eRd u va 8
          if bits w0 18 4 = o.tr.index && e.cap.act.getLsbD (bits w0 22 5) && !bitAt w0 5 && !t.skips.contains (u.ctx, va) then do
            eWr u va 8 (w0 + 32)
            pure 1
          else pure 0
        pure (hits.foldl (· + ·) 0)
  if n ≠ 0 then sideEffect e.train else pure ()
  eOnce e d 1 (BitVec.ofNat 64 n)

end Sys2Proof.Machine
end

