-- ==== Sys2Proof/Machine/EsuSync.lean ====
section
/-! DEFINITION. Sync points, versions and pins, and class E at issue and at the ESU (R186 to R193, R195, R200 to R205, R215 to R221). -/

namespace Sys2Proof.Machine

variable {s : State}

/-! ## Version records (R191, R193) -/

def recVa (x : World) (i : Nat) : Nat := x.va + 0x80 + 16 * i

/-- Versions with pins. -/
def World.pinned (x : World) : List Nat := (x.recs.filter fun r => r.version ≠ 0 && 0 < r.pins).map (·.version)

/-- Set or clear the bit of a chunk in the pool bitmap (R179). -/
def poolPut (u : EU) (x : World) (k : Nat) (used : Bool) : M s Unit := do
  let a := x.poolMap + k / 8
  let b ← eRd u a 1
  if bitAt b (k % 8) = used then pure ()
  else eWr u a 1 (if used then b + 2 ^ (k % 8) else b - 2 ^ (k % 8))

/-- Free a version record: its copies return to the pool. -/
def freeRec (u : EU) (x : World) (i version : Nat) : M s Unit := do
  let t ← now
  match verState t u.ctx x.w version with
  | some v => v.map.forM fun m => poolPut u x m.2 false
  | none => pure ()
  let t ← now
  upd (.vers (t.vers.filter fun v => !(v.ctx == u.ctx && v.world == x.w && v.version == version)))
  eWr u (recVa x i) 4 0
  eWr u (recVa x i + 4) 2 0

/-- The Remontoir has started a SYNC node of the world, or its sync point is in progress (R216). -/
def syncStarted (t : State) (ctx w : Nat) : Bool :=
  syncing t ctx w || t.nodes.any fun kv => kv.2.ctx == ctx && kv.2.state == .started && kv.2.kind == 2 &&
    kv.2.fps.any fun f => f.kind == 2 && f.scope == 2 && f.world == w

/-- Pin version v of a world, 0 being the current one; none when the pin fails (R191, R216). -/
def pinVersion (u : EU) (w v : Nat) : M s (Option Nat) := do
  match ← worldOf u w with
  | none => pure none
  | some x => do
    let t ← now
    let p := if v = 0 then x.curver else v
    let after := (p :: x.pinned).dedup
    if syncStarted t u.ctx w && 4 ≤ after.length then pure none
    else match x.recs.zipIdx.find? fun r => r.1.version == p with
      | some (r, i) =>
        if 65535 ≤ r.pins then pure none
        else do
          eWr u (recVa x i + 4) 2 (r.pins + 1)
          pure (some p)
      | none =>
        if p ≠ x.curver then pure none
        else match x.recs.zipIdx.find? fun r => r.1.version == 0 with
          | none => pure none
          | some (_, i) => do
            eWr u (recVa x i) 4 p
            eWr u (recVa x i + 4) 2 1
            pure (some p)

/-- Release a pin of version v; false when there is none (R217). -/
def unpinVersion (u : EU) (x : World) (v : Nat) : M s Bool := do
  match x.recs.zipIdx.find? fun r => r.1.version == v && 0 < r.1.pins with
  | none => pure false
  | some (r, i) => do
    eWr u (recVa x i + 4) 2 (r.pins - 1)
    if r.pins = 1 && v ≠ x.curver then freeRec u x i v else pure ()
    pure true

/-! ## Gather (R186) -/

/-- A gathered record. -/
structure SRec where
  va : Nat
  op : Nat
  nt : Bool
  ty : Nat
  h : DWord
  key : Key
  committed : Bool
  val : Nat
  deriving DecidableEq, Repr

/-- Read the records of an area, with the values of committed ones. -/
def gatherArea (u : EU) (x : World) (a : Area) : M s (List SRec) := do
  let l ← areaRecords u a
  l.mapM fun (va, w0, h, key) => do
    let op := bits w0 0 4
    let ty := bits w0 8 10
    let com := bitAt w0 5
    let n := x.size ty / 4
    let val ← if com && (op == 1 || op == 3 || op == 5) && !bitAt w0 6 then
        (if bitAt w0 4 then do
          let p ← eRd u (va + 16) 8
          eRd4 u p n
        else eRd4 u (va + 16) (min n 4))
      else pure 0
    pure { va := va, op := op, nt := bitAt w0 6, ty := ty, h := h, key := key, committed := com, val := val }

/-! ## Apply (R187) -/

/-- The model of one entity: its directory entry before the sync point, its state now (1 live, 2 pending-create, 0 stale), its types and the values commands gave it. -/
structure Ent where
  slot : Nat
  old : DirEnt
  st : Nat
  gen : Nat
  sig : Nat
  vals : AMap Nat
  /-- some command was applied -/
  did : Bool
  /-- some command was applied and stands -/
  stands : Bool
  skip : Bool
  absent_ : Nat
  noop : Nat
  /-- the archetype it ends in -/
  arch : Option Nat
  deriving DecidableEq, Repr

def Ent.wasLive (e : Ent) : Bool := e.old.state == 1

/-- An entity destroyed, or a creation skipped: its slot is freed. -/
def Ent.freed (e : Ent) : Bool := e.skip || ((e.old.state == 1 || e.old.state == 2) && e.st == 0)

def addType (sig t : Nat) : Nat := if bitAt sig t then sig else sig + 2 ^ t
def dropType (sig t : Nat) : Nat := if bitAt sig t then sig - 2 ^ t else sig

/-- One committed command (Table 10-9); none when it is dropped as DEAD. -/
def applyEnt (e : Ent) (r : SRec) : Option Ent :=
  if e.gen ≠ hGen r.h || e.st = 0 || e.skip then none
  else match r.op, e.st with
    | 1, 2 => some { e with st := 1, sig := if r.nt then 0 else 2 ^ r.ty, vals := if r.nt then [] else [(r.ty, r.val)],
                            did := true, stands := true }
    | 2, _ => some { e with st := 0, gen := e.gen + 1, did := true, stands := true }
    | 3, 1 => some { e with sig := addType e.sig r.ty, vals := AMap.set e.vals r.ty r.val, did := true, stands := true }
    | 4, 1 =>
      if bitAt e.sig r.ty then
        some { e with sig := dropType e.sig r.ty, vals := AMap.erase e.vals r.ty, did := true, stands := true }
      else some { e with noop := e.noop + 1, did := true }
    | 5, 1 =>
      if bitAt e.sig r.ty then some { e with vals := AMap.set e.vals r.ty r.val, did := true, stands := true }
      else some { e with absent_ := e.absent_ + 1, did := true }
    | _, _ => none

/-- Apply the committed records in key order; the count is of commands dropped as DEAD. -/
def applyAll (w : Nat) (m : AMap Ent) (rs : List SRec) : AMap Ent × Nat :=
  rs.foldl (fun acc r =>
    match (if hWorld r.h = w then AMap.get? acc.1 (hSlot r.h) else none).bind fun e => applyEnt e r with
    | some e => (AMap.set acc.1 e.slot e, acc.2)
    | none => (acc.1, acc.2 + 1)) (m, 0)

/-- A skipped CREATE whose slot is still pending-create with its GEN frees the slot. -/
def skipAll (w : Nat) (m : AMap Ent) (rs : List SRec) : AMap Ent :=
  rs.foldl (fun m r =>
    match AMap.get? m (hSlot r.h) with
    | some e =>
      if r.op = 1 && hWorld r.h = w && e.st = 2 && e.gen = hGen r.h then AMap.set m e.slot { e with skip := true, st := 0 }
      else m
    | none => m) m

/-- An archetype for every live entity that was touched, in increasing slot order; an entity that gets none has its commands undone (R176, R187). -/
def assign (x : World) (archs : List Arch) (m : AMap Ent) : List Arch × AMap Ent × Nat :=
  m.foldl (fun (acc : List Arch × AMap Ent × Nat) kv =>
    let e := kv.2
    let (as, out, n) := acc
    if e.st ≠ 1 then (as, out ++ [kv], n)
    else if !e.did then (as, out ++ [(kv.1, { e with arch := some e.old.arch })], n)
    else match as.findIdx? fun a => a.sig == e.sig with
      | some a => (as, out ++ [(kv.1, { e with arch := some a })], n)
      | none =>
        if as.length < x.maxArch && chunkSize x e.sig ≤ x.chunkBytes then
          (as ++ [{ sig := e.sig, nchunks := 0, rows := 0, head := noSlot, tail := noSlot }],
           out ++ [(kv.1, { e with arch := some as.length })], n)
        else if e.wasLive then
          (as, out ++ [(kv.1, { e with arch := some e.old.arch, sig := (as.map (·.sig)).getD e.old.arch 0, vals := [],
                                        did := false, stands := false, absent_ := 0, noop := 0 })], n + 1)
        else (as, out ++ [(kv.1, { e with st := 0, absent_ := 0, noop := 0 })], n + 1)) (archs, [], 0)

/-! ## Place (R188) -/

/-- One archetype's rows before and after, as slots. -/
structure Rows where
  arch : Nat
  chain : List Nat
  old : List Nat
  new : List Nat
  deriving DecidableEq, Repr

/-- Positions in the chain that are written. -/
def Rows.dirty (r : Rows) (m : AMap Ent) : List Nat :=
  let need := (r.new.length + 255) / 256
  let have_ := r.chain.length
  let rows := ((List.range (max r.old.length r.new.length)).filter fun i =>
    r.old[i]? != r.new[i]? || (match r.new[i]? with
      | some sl => match AMap.get? m sl with
        | some e => !e.vals.isEmpty
        | none => false
      | none => false)).map (· / 256)
  let tail := if need ≠ have_ && need ≠ 0 && have_ ≠ 0 then [min need have_ - 1] else []
  (rows ++ tail).dedup.filter (· < need)

/-- New rows: movers fill the holes, then the entering entities follow in slot order. -/
def newRows (m : AMap Ent) (a : Nat) (old : List Nat) : List Nat :=
  let leaves (sl : Nat) : Bool := match AMap.get? m sl with
    | some e => e.wasLive && e.arch ≠ some a
    | none => false
  let kept := old.length - (old.filter leaves).length
  let idx := old.zipIdx
  let holes := (idx.filter fun x => x.2 < kept && leaves x.1).map (·.2)
  let movers := (idx.filter fun x => kept ≤ x.2 && !leaves x.1).map (·.1)
  let moved := holes.zip movers
  let body := (old.take kept).zipIdx.map fun (sl, i) => match moved.find? fun h => h.1 == i with
    | some h => h.2
    | none => sl
  body ++ (m.filter fun kv => kv.2.arch == some a && !(kv.2.wasLive && kv.2.old.arch == a)).map (·.1)

/-- Archetypes whose rows change: they lose or gain an entity, or a value in them is set. -/
def affected (m : AMap Ent) : List Nat :=
  let l := m.flatMap fun kv =>
    let e := kv.2
    (if e.wasLive && (e.arch ≠ some e.old.arch || !e.vals.isEmpty) then [e.old.arch] else []) ++
      (match e.arch with
        | some a => if e.wasLive && e.old.arch == a then [] else [a]
        | none => [])
  l.dedup.mergeSort

/-- Read an archetype's rows. -/
def readRows (u : EU) (x : World) (archs : List Arch) (m : AMap Ent) (a : Nat) : M s Rows := do
  match archs[a]? with
  | none => pure ⟨a, [], [], newRows m a []⟩
  | some e => do
    let ks ← chain u x e
    let old ← (List.range e.rows).mapM fun i => do
      let h ← eRd u (x.chunkVa (ks.getD (i / 256) 0) + 8 * (i % 256)) 8
      pure (h % 2 ^ 32)
    pure ⟨a, ks, old, newRows m a old⟩

/-- The pool and the maps while a placement is worked out. -/
structure PoolSt where
  used : AMap Bool
  short : Bool
  mapShort : Bool
  /-- version, original, copy, archetype -/
  copies : List (Nat × Nat × Nat × Nat)
  deriving DecidableEq, Repr

/-- The lowest free chunk from k on (R179). -/
def lowestFree (u : EU) (x : World) (used : AMap Bool) (k : Nat) : Nat → M s (Option Nat)
  | 0 => pure none
  | n + 1 => do
    let taken ← match AMap.get? used k with
      | some b => pure b
      | none => do
        let b ← eRd u (x.poolMap + k / 8) 1
        pure (bitAt b (k % 8))
    if taken then lowestFree u x used (k + 1) n else pure (some k)

def takeChunk (u : EU) (x : World) (p : PoolSt) : M s (Nat × PoolSt) := do
  match ← lowestFree u x p.used 0 x.poolChunks with
  | none => pure (noSlot, { p with short := true })
  | some k => pure (k, { p with used := AMap.set p.used k true })

/-- A wheel runs over a chunk under a pinned version (R193). -/
def wheelOver (t : State) (ctx w version k : Nat) : Bool :=
  t.wheels.any fun kv => kv.2.chunk == some k && (match AMap.get? t.dispatches kv.2.dispatch with
    | some d => d.ctx == ctx && d.launch.viewWorld == w && d.view == some version
    | none => false)

/-- Copy-on-compact of one chunk for every pinned version that reaches it and has no copy of it yet (R193). -/
def copyChunk (u : EU) (x : World) (arch k : Nat) (p : PoolSt) : M s PoolSt := do
  let t ← now
  x.recs.foldlM (fun (p : PoolSt) (r : VerRec) => do
    let vs := verState t u.ctx x.w r.version
    let old := match vs with | some v => v.map | none => []
    let reach := r.version == x.curver || (match vs with
      | some v => v.lists.any fun l => l.2.contains k
      | none => false)
    if r.version = 0 || r.pins = 0 || !reach || old.any (fun m => m.1 == k) ||
        p.copies.any (fun c => c.1 == r.version && c.2.1 == k) then pure p
    else if wheelOver t u.ctx x.w r.version k then stop .wait
    else do
      let (c, p) ← takeChunk u x p
      let p := { p with copies := p.copies ++ [(r.version, k, c, arch)] }
      let n := old.length + (p.copies.filter fun c => c.1 == r.version).length
      pure (if r.cap < n then { p with mapShort := true } else p)) p

/-- The chunks an archetype ends with: copies first, then chunks taken, then chunks returned. -/
def placeArch (u : EU) (x : World) (m : AMap Ent) (r : Rows) (p : PoolSt) : M s (List Nat × PoolSt) := do
  let need := (r.new.length + 255) / 256
  let dirty := r.dirty m
  let p ← (r.chain.zipIdx.filter fun c => need ≤ c.2 || dirty.contains c.2).foldlM
    (fun p c => copyChunk u x r.arch c.1 p) p
  let (ks, p) ← (List.range (need - r.chain.length)).foldlM (fun (acc : List Nat × PoolSt) _ => do
    let (k, p) ← takeChunk u x acc.2
    pure (acc.1 ++ [k], p)) (r.chain.take need, p)
  pure (ks, { p with used := (r.chain.drop need).foldl (fun m k => AMap.set m k false) p.used })

/-- One archetype placed. -/
structure Placed where
  rows : Rows
  sig : Nat
  chain : List Nat
  deriving DecidableEq, Repr

/-- The value of a component in the entity's row before the sync point. -/
def oldValue (u : EU) (x : World) (all : List Placed) (sl t : Nat) : M s Nat := do
  match all.find? fun p => p.rows.old.contains sl && bitAt p.sig t with
  | none => pure 0
  | some p =>
    let i := p.rows.old.idxOf sl
    eRd4 u (x.chunkVa (p.rows.chain.getD (i / 256) 0) + colOffset x p.sig t + i % 256 * x.size t) (x.size t / 4)

/-- Words of free values, for component values in unoccupied rows (R178, log entry 8). -/
def freeWords : Nat → M s Nat
  | 0 => pure 0
  | n + 1 => do
    let f ← freshFree
    let rest ← freeWords n
    pure (f.toNat % 2 ^ 32 + 2 ^ 32 * rest)

/-- The writes of one chunk: VA, words of 4 bytes, value. -/
def chunkWrites (u : EU) (x : World) (m : AMap Ent) (all : List Placed) (p : Placed) (version j : Nat) :
    M s (List (Nat × Nat × Nat)) := do
  let va := x.chunkVa (p.chain.getD j 0)
  let mine := (p.rows.new.drop (256 * j)).take 256
  let handle (sl : Nat) : M s Nat := do
    match AMap.get? m sl with
    | some e => pure (handleOf x.w e.old.gen sl).toNat
    | none => do
      let e ← readEnt u x sl
      pure (handleOf x.w e.gen sl).toNat
  let hs ← mine.mapM handle
  let types := sigTypes x p.sig
  let cols ← types.mapM fun t => do
    let n := x.size t
    let vals ← mine.zipIdx.mapM fun (sl, r) => do
      let v ← match (AMap.get? m sl).bind fun e => AMap.get? e.vals t with
        | some v => pure v
        | none => oldValue u x all sl t
      pure (va + colOffset x p.sig t + r * n, n / 4, v)
    let rest := 256 - mine.length
    let f ← freeWords (rest * n / 4)
    pure (vals ++ [(va + colOffset x p.sig t + mine.length * n, rest * n / 4, f)])
  pure ([(va, 512, hs.foldr (fun h acc => h + 2 ^ 64 * acc) 0),
         (va + 2048, 8, 2 ^ mine.length - 1),
         (va + 2080, 248, p.rows.arch + 2 ^ 16 * mine.length + 2 ^ 32 * p.chain.getD (j + 1) noSlot + 2 ^ 64 * version)]
        ++ cols.flatten)

/-- Write a new archetype's entry in full, and of one in use the fields that change: its reserved bytes stay (R3, R176). -/
def archWrites (x : World) (p : Placed) : List (Nat × Nat × Nat) :=
  let a := x.archs + 256 * p.rows.arch
  let counts := p.chain.length + 2 ^ 32 * p.rows.new.length + 2 ^ 64 * p.chain.head?.getD noSlot
    + 2 ^ 96 * p.chain.getLast?.getD noSlot
  if p.rows.arch < x.narch then [(a + 128, 4, counts)]
  else [(a, 64, p.sig + 2 ^ 1024 * counts + 2 ^ 1152 * chunkSize x p.sig + 2 ^ 1184 * (sigTypes x p.sig).length)]

/-- Copy a chunk for a version, with the CVER of every chunk taken from the pool, and enter it in the version's map in memory (R181, R193). -/
def copyWrites (u : EU) (x : World) (archs : List Arch) (t : State) (done : List (Nat × Nat × Nat × Nat)) (new : Nat)
    (c : Nat × Nat × Nat × Nat) : M s (List (Nat × Nat × Nat)) := do
  let (version, k, k', a) := c
  let n := chunkSize x ((archs.map (·.sig)).getD a 0) / 4
  let v ← eRd4 u (x.chunkVa k) n
  let old := match verState t u.ctx x.w version with | some v => v.map.length | none => 0
  let i := old + (done.filter fun d => d.1 == version).length
  let map := match x.recs.find? fun r => r.version == version with | some r => r.map | none => 0
  pure [(x.chunkVa k', n, v), (x.chunkVa k' + 2088, 1, new), (map + 8 * i, 2, k + 2 ^ 32 * k')]

/-- The directory entries to publish: rows that moved, entered or were changed, and entities changed in place (R189). -/
def publishEntries (m : AMap Ent) (gens : AMap Nat) (all : List Placed) (version : Nat) : List (Nat × BitVec 128) :=
  let ent (chunk arch row gen : Nat) : BitVec 128 :=
    BitVec.ofNat 128 { version := version, chunk := chunk, arch := arch, row := row, state := 1, gen := gen : DirEnt }.word
  let placed := all.flatMap fun p => p.rows.new.zipIdx.filterMap fun (sl, r) =>
    let e := AMap.get? m sl
    let gen := match e with | some e => e.old.gen | none => AMap.getD gens sl 0
    if p.rows.old[r]? ≠ some sl || p.rows.chain[r / 256]? ≠ p.chain[r / 256]? || (match e with
        | some e => e.stands
        | none => false) then some (sl, ent (p.chain.getD (r / 256) 0) p.rows.arch (r % 256) gen)
    else none
  let stay := m.filterMap fun kv =>
    let e := kv.2
    if e.stands && e.st = 1 && !(all.any fun p => p.rows.new.contains e.slot) then
      some (e.slot, ent e.old.chunk e.old.arch e.old.row e.old.gen)
    else none
  placed ++ stay

/-! ## The sync point (R186 to R190, R215) -/

/-- Add to a saturating counter of the descriptor (Table 10-1). -/
def bump (u : EU) (x : World) (i n : Nat) : M s Unit :=
  if n = 0 then pure ()
  else do
    let v ← eRd u (x.va + 0x50 + 4 * i) 4
    eWr u (x.va + 0x50 + 4 * i) 4 (min (v + n) 0xFFFFFFFF)

/-- Free slots onto the free list in decreasing order, GEN moved on or the slot retired (R173, R189); `version` none keeps each entry's VERSION. The answer is the number retired. -/
def pushSlots (u : EU) (x : World) (slots : List Nat) (version : Option Nat) : M s Nat := do
  let (head, n) ← slots.mergeSort.reverse.foldlM (fun (acc : Nat × Nat) sl => do
    let e ← readEnt u x sl
    let v := version.getD e.version
    if e.gen = 0xFFFFFF then do
      writeEnt u x sl { version := v, chunk := 0, arch := 0, row := 0, state := 4, gen := e.gen : DirEnt }.word
      pure (acc.1, acc.2 + 1)
    else do
      writeEnt u x sl { version := v, chunk := acc.1, arch := 0, row := 0, state := 0, gen := e.gen + 1 : DirEnt }.word
      pure (sl, acc.2)) (x.freeHead, 0)
  putDesc u x 0x0C head
  pure n

/-- The running dispatch whose submission number an area holds. -/
def submitRuns (t : State) (ctx submit : Nat) : Bool := t.dispatches.any fun kv => kv.2.ctx == ctx && kv.2.sub == submit

/-- What the stages of a sync point work out before it writes anything. -/
structure Plan where
  recs : List SRec
  ents : AMap Ent
  archs : List Arch
  placed : List Placed
  pool : PoolSt
  dead : Nat
  noarch : Nat
  deriving DecidableEq, Repr

def Plan.sum (p : Plan) (f : Ent → Nat) : Nat := (p.ents.map fun kv => f kv.2).foldl (· + ·) 0

def Plan.skipped (p : Plan) : List SRec := p.recs.filter fun r => !r.committed

/-- Gather, apply and place, on paper (R186 to R188). -/
def planSync (u : EU) (x : World) : M s Plan := do
  let t ← now
  let areas ← areasOf u x
  let recs ← areas.mapM fun a => gatherArea u x a.2
  let recs := recs.flatten.filter fun r => !t.skips.contains (u.ctx, r.va)
  let cmds := (recs.filter (·.committed)).mergeSort fun a b => !lexLt b.key a.key
  let slots := ((recs.filter fun r => hWorld r.h == x.w && hSlot r.h < x.slots).map fun r => hSlot r.h).dedup.mergeSort
  let archs ← (List.range x.narch).mapM fun a => readArch u x a
  let ents ← slots.mapM fun sl => do
    let d ← readEnt u x sl
    let st := if d.state = 1 || d.state = 2 then d.state else 0
    pure (sl, ({ slot := sl, old := d, st := st, gen := d.gen, sig := if st = 1 then (archs.map (·.sig)).getD d.arch 0 else 0,
                 vals := [], did := false, stands := false, skip := false, absent_ := 0, noop := 0, arch := none } : Ent))
  let (m, dead) := applyAll x.w (skipAll x.w ents (recs.filter fun r => !r.committed)) cmds
  let (archs', m, noarch) := assign x archs m
  let rows ← (affected m).mapM fun a => readRows u x archs m a
  let (placed, pool) ← rows.foldlM (fun (acc : List Placed × PoolSt) r => do
    let (ks, p) ← placeArch u x m r acc.2
    pure (acc.1 ++ [({ rows := r, sig := (archs'.map (·.sig)).getD r.arch 0, chain := ks } : Placed)], p))
    ([], { used := [], short := false, mapShort := false, copies := [] })
  pure { recs := recs, ents := m, archs := archs', placed := placed, pool := pool, dead := dead, noarch := noarch }

/-- The resource check has failed: only the skips are made, the skipped records are discarded, and STATUS says what is short (R186, R195). -/
def failSync (u : EU) (x : World) (p : Plan) : M s EAns := do
  bump u x 0 p.skipped.length
  let retired ← pushSlots u x ((p.ents.filter fun kv => kv.2.skip).map (·.1)) none
  bump u x 4 retired
  let t ← now
  upd (.skips (t.skips ++ p.skipped.map fun r => (u.ctx, r.va)))
  let st ← eRd u (x.va + 0x4C) 4
  let st := if p.pool.short && !bitAt st 1 then st + 2 else st
  let st := if p.pool.mapShort && !bitAt st 2 then st + 4 else st
  putDesc u x 0x4C st
  pure (.fails eEntFull none none)

/-- What the ESU keeps of the older versions, with the copies of this sync point (R193). -/
def keepVersions (u : EU) (x : World) (copies : List (Nat × Nat × Nat × Nat)) (lists : List (Nat × List Nat)) : M s Unit := do
  let t ← now
  let added (v : Nat) : List (Nat × Nat) := (copies.filter fun c => c.1 == v).map fun c => (c.2.1, c.2.2.1)
  let older := t.vers.map fun v =>
    if v.ctx == u.ctx && v.world == x.w then { v with map := v.map ++ added v.version } else v
  let mine : List VerState := if x.pinned.contains x.curver then
      [{ ctx := u.ctx, world := x.w, version := x.curver, lists := lists, map := added x.curver }]
    else []
  upd (.vers (older ++ mine))

def putAll (u : EU) (l : List (Nat × Nat × Nat)) : M s Unit := l.forM fun w => eWr4 u w.1 w.2.1 w.2.2

/-- An entity that was destroyed passes through pending-destroy (R174, R189). -/
def markDestroyed (u : EU) (x : World) (p : Plan) (version : Nat) : M s Unit :=
  (p.ents.filter fun kv => kv.2.freed && !kv.2.skip).forM fun kv =>
    writeEnt u x kv.1 { version := version, chunk := 0, arch := 0, row := 0, state := 3, gen := kv.2.old.gen : DirEnt }.word

/-- The records gathered are discarded, and an area whose dispatch has completed leaves the table (R189). -/
def discardRecords (u : EU) (x : World) : M s Unit := do
  let areas ← areasOf u x
  let t ← now
  areas.forM fun a => do
    (List.range a.2.wheels).forM fun w => eWr u (a.2.counts + 8 * w) 8 0
    if submitRuns t u.ctx a.2.submit then pure () else eWr u (x.areas + 8 * a.1) 8 0

/-- Write what was planned, in the order of R189. A chunk taken from the pool is written in full before anything names it (R179); the live entries come before the rows of the chunks that the archetypes held (log entry 71). -/
def publish (u : EU) (x : World) (p : Plan) : M s Nat := do
  let t ← now
  let version := x.curver + 1
  let lists ← currentLists u x
  let copies ← p.pool.copies.zipIdx.mapM fun (c, i) => copyWrites u x p.archs t (p.pool.copies.take i) version c
  let gens ← (p.placed.flatMap fun r => r.rows.new).mapM fun sl => do
    let d ← readEnt u x sl
    pure (sl, d.gen)
  let rowsOf (f : Placed → Nat → Bool) : M s (List (Nat × Nat × Nat)) := do
    let l ← p.placed.mapM fun r => ((List.range r.chain.length).filter (f r)).mapM fun j => chunkWrites u x p.ents p.placed r version j
    pure l.flatten.flatten
  let taken ← rowsOf fun r j => r.rows.chain.length ≤ j
  let held ← rowsOf fun r j => j < r.rows.chain.length && (r.rows.dirty p.ents).contains j
  putAll u copies.flatten
  putAll u taken
  p.pool.used.forM fun k => poolPut u x k.1 k.2
  (publishEntries p.ents (gens.foldl (fun g kv => AMap.set g kv.1 kv.2) []) p.placed version).forM fun e => writeEnt u x e.1 e.2.toNat
  markDestroyed u x p version
  putAll u held
  putAll u (p.placed.flatMap (archWrites x))
  if p.archs.length ≠ x.narch then putDesc u x 0x1C p.archs.length else pure ()
  let retired ← pushSlots u x ((p.ents.filter fun kv => kv.2.freed).map (·.1)) (some version)
  bump u x 0 p.skipped.length
  bump u x 1 p.dead
  bump u x 2 (p.sum (·.absent_))
  bump u x 3 p.noarch
  bump u x 4 retired
  bump u x 5 (p.sum (·.noop))
  discardRecords u x
  keepVersions u x p.pool.copies lists
  (x.recs.zipIdx.filter fun r => r.1.version == x.curver && r.1.pins == 0).forM fun r => freeRec u x r.2 x.curver
  putDesc u x 0x48 version
  pure version

/-- The sync point of world w: all its stages, as one step (R186 to R190, R195). -/
def syncRun (e : EngineOp) (u : EU) (w : Nat) : M s EAns := do
  match ← worldOf u w with
  | none => pure (.fails eIllOperand none none)
  | some x => do
    let p ← planSync u x
    if p.pool.short || p.pool.mapShort then do
      let t ← now
      match AMap.get? t.trains e.train with
      | some y => updAll (doomUpds t y eEntFull 0)
      | none => pure ()
      failSync u x p
    else do
      let version ← publish u x p
      sideEffect e.train
      match e.instr with
      | .esync _ d _ => eOnce e d 1 (BitVec.ofNat 64 version)
      | _ => pure .done

/-- `esync` at the ESU: its checks, and the start of its sync point (R215). -/
def esyncRun (e : EngineOp) (o : OpCtx) (u : EU) : M s EAns := do
  let t ← now
  let only := match t.dispatchOf o.tr with
    | some d => d.launch.sync && d.launch.trains == 1 && d.wheels == 1
    | none => false
  if !only then pure (.fails ePerm none none)
  else
    let w := (e.cap.a.at 0).toNat
    match ← worldOf u w with
    | none => pure (.fails eIllOperand none none)
    | some x => do
      notSyncing u.ctx w
      if 4 ≤ x.pinned.length then pure (.fails eVersion none none)
      else do
        upd (.syncs (t.syncs ++ [({ train := e.train, op := e.id, ctx := u.ctx, world := w } : SyncPoint)]))
        pure .stays

/-! ## Versions (R216, R217) -/

def epinRun (e : EngineOp) (u : EU) (strict : Bool) (d : Dst) : M s EAns := do
  match ← pinVersion u (e.cap.a.at 0).toNat (e.cap.b.at 0).toNat with
  | some p => eOnce e d 1 (BitVec.ofNat 64 p)
  | none => if strict then pure (.fails eVersion none none) else eOnce e d 1 0

def eunpinRun (e : EngineOp) (u : EU) : M s EAns := do
  let v := (e.cap.b.at 0).toNat
  match ← worldOf u (e.cap.a.at 0).toNat with
  | none => pure (.fails eIllOperand none none)
  | some x =>
    if v = 0 then pure (.fails eIllOperand none none)
    else do
      let ok ← unpinVersion u x v
      pure (if ok then .done else .fails eVersion none none)

def everRun (e : EngineOp) (o : OpCtx) (u : EU) (view : Bool) (d : Dst) : M s EAns := do
  let w := (e.cap.a.at 0).toNat
  match ← worldOf u w with
  | none => eOnce e d 1 0
  | some x => do
    let t ← now
    let v := if view then (viewOf t o.tr w).getD x.curver else x.curver
    eOnce e d 1 (BitVec.ofNat 64 v)

/-! ## Operations at the ESU (R195, R204, R205) -/

def esuRun (e : EngineOp) (o : OpCtx) : M s EAns :=
  let u := o.eu e.train
  match e.instr with
  | .eqry _ cur d _ _ => eqryRun e o u cur d
  | .enext _ cur d => enextRun e o u cur d
  | .erow _ _ strict pd d _ => erowRun e o u strict pd d
  | .ecol _ _ pd d _ _ _ => ecolRun e o u pd d
  | .ehchk _ _ pd _ => ehchkRun e o u pd
  | .eget _ _ wd strict pd d _ _ _ => accessRun e o u wd strict pd (some d)
  | .eput _ _ wd strict pd _ _ _ _ => accessRun e o u wd strict pd none
  | .ecrt _ _ strict pd d ty =>
    commandRun e o u (.create ty.isNone) (match ty with | some (ind, _, _) => ind | none => false) strict pd (some d)
  | .edel _ _ strict pd _ => commandRun e o u .destroy false strict pd none
  | .eadd _ _ ind strict pd _ _ _ => commandRun e o u .add ind strict pd none
  | .erem _ _ strict pd _ _ => commandRun e o u .remove false strict pd none
  | .eset _ _ ind strict pd _ _ _ => commandRun e o u .set ind strict pd none
  | .ecmt _ _ d => ecmtRun e o u d
  | .esync _ _ _ => esyncRun e o u
  | .epin _ strict d _ _ => epinRun e u strict d
  | .eunpin _ _ _ => eunpinRun e u
  | .ever _ view d _ => everRun e o u view d
  | _ => pure .done

/-- The operation acts on the active lanes, which then are what fails where no lanes are named (R202, R204). -/
def actsByLane : Instr → Bool
  | .erow .. | .ecol .. | .ehchk .. | .eget .. | .eput .. | .ecrt .. | .edel .. | .eadd .. | .erem .. | .eset .. | .ecmt .. => true
  | _ => false

/-- `ecmt` is a release: it waits for every earlier load as well (R214). -/
def loadsDone (o : OpCtx) (e : EngineOp) : Bool :=
  match e.instr with
  | .ecmt .. => !(o.tr.loads.any fun l => l.id < e.id)
  | _ => true

/-- An operation leaves the ESU, and its sync point is in progress no longer: it completes, or a trap of it is deferred, which reports the instruction's address where its cause defines no other value (R204). -/
def esuEnd (e : EngineOp) (trap : Option (Byte × Option Mask × Option DWord)) : M s Unit := do
  let t ← now
  upd (.syncs (t.syncs.filter (·.op != e.id)))
  upd (.esu e.id none)
  endOp e.train e.id (trap.map fun x =>
    (x.1, if actsByLane e.instr then x.2.1.or (some e.cap.act) else x.2.1, foundValue x.1 x.2.2))

/-- What an operation's run leads to (R195, R199, R204, R219). -/
def esuAnswer (e : EngineOp) (run : M s EAns) : M s Unit := do
  match ← tryM run with
  | .ok .done => esuEnd e none
  | .ok .stays => pure ()
  | .ok (.fails c lanes v) => esuEnd e (some (c, lanes, v))
  | .error (.trap c lanes v) => esuEnd e (some (c, lanes, v))
  | .error (.held page kind present malformed) => do
    upd (.esu e.id (some { e with held := true }))
    reportHeld e.train page kind present malformed 1
  | .error .wait => pure ()
  | .error x => stop x

/-- ESU_OPERATION: the oldest operation of a train takes effect as one step; a trap is deferred, a translation fault holds it (R195, R199, R204, R205, R219). -/
def execEsuOperation (op : Nat) (s : State) : Out :=
  runE s do
    let t ← now
    match AMap.get? t.esu op with
    | none => pure ()
    | some e =>
      match opCtx t e with
      | none => upd (.esu op none)
      | some o =>
        if e.held || firstOf t.esu e.train ≠ some op || t.syncs.any (·.op == op) || !engineMay t e.train e.id
            || !loadsDone o e then pure ()
        else esuAnswer e (esuRun e o)

/-- The sync point that a train has in progress takes effect, and its `esync` completes; one that a wheel holds back stays in progress (R189, R193, R195, R215). -/
def publishFor (train : Nat) : M s Unit := do
  let t ← now
  match t.syncs.find? fun p => p.train == train with
  | none => pure ()
  | some p =>
    match (AMap.get? t.esu p.op).bind fun e => (opCtx t e).map fun o => (e, o) with
    | none => upd (.syncs (t.syncs.erase p))
    | some (e, o) => if e.held then pure () else esuAnswer e (syncRun e (o.eu train) p.world)

/-- SYNC_POINT_PUBLISH, for a resident train or for one that its context's image holds: a sync point runs on while the context is saved, and the train's wait on it goes on with the context (R221). -/
def execSyncPointPublish (train : Nat) (s : State) : Out :=
  runE s do
    let t ← now
    match t.images.find? fun kv => kv.2.live && AMap.has kv.2.trains train && !AMap.has t.trains train with
    | some (key, im) => inImage key im (publishFor train)
    | none => publishFor train

/-! ## Class E at issue (R200 to R202, R220) -/

def esuPut (k : Nat) (e : EngineOp) : Upd := .esu k (some e)

def predReg (pd : BitVec 3) : List Reg := if pd = 7 then [] else [.p pd.toNat]

/-- A per-lane operation enters the train's ESU queue with its operands. -/
def esuLanes (i : Instr) (dests : List Reg) (a b c : Iss → Nat → DWord) (x : Iss → Nat → BitVec 128) : M s Unit :=
  beginLanes i fun r => do
    let _ ← enqueue r i (capOf r (a r) (b r) (c r) (x r)) [] dests [] esuPut id
    pure ()

/-- An operation that acts once for the train. -/
def esuOnce (i : Instr) (dests : List Reg) (a b : Iss → DWord) : M s Unit :=
  beginOnce i fun r => do
    let _ ← enqueue r i (capOf r (fun _ => a r) (fun _ => b r) zero64 zero128) [] dests [] esuPut id
    pure ()

def noOpd : Iss → Nat → DWord := fun _ _ => 0
def noPay : Iss → Nat → BitVec 128 := fun _ _ => 0
def opd32 (x : Src) : Iss → Nat → DWord := fun r L => (r.x x L).setWidth 64
def opd64 (x : Src) : Iss → Nat → DWord := fun r L => r.d x L
def payload (ind : Bool) (y : Src) : Iss → Nat → BitVec 128 := fun r L => srcQ r.t r.c (payRegs ind) y L

def execEqry (sb : Sb) (cur : Bool) (d : Dst) (q v : Src) (s : State) : Out :=
  runM s (esuOnce (.eqry sb cur d q v) (dstRegs (d, 1)) (fun r => r.d0 q) fun r => (r.x0 v).setWidth 64)
def execEnext (sb : Sb) (cur : Bool) (d : Dst) (s : State) : Out :=
  runM s (esuOnce (.enext sb cur d) (dstRegs (d, 2)) (fun _ => 0) fun _ => 0)
def execErow (g : Guard) (sb : Sb) (strict : Bool) (pd : BitVec 3) (d : Dst) (h : Src) (s : State) : Out :=
  runM s (esuLanes (.erow g sb strict pd d h) (dstRegs (d, 2) ++ predReg pd) (opd64 h) noOpd noOpd noPay)
def execEcol (g : Guard) (sb : Sb) (pd : BitVec 3) (d : Dst) (ref t w : Src) (s : State) : Out :=
  runM s (esuLanes (.ecol g sb pd d ref t w) (dstRegs (d, 2) ++ predReg pd) (opd64 ref) (opd32 t)
    (fun r _ => (r.x0 w).setWidth 64) noPay)
def execEhchk (g : Guard) (sb : Sb) (pd : BitVec 3) (h : Src) (s : State) : Out :=
  runM s (esuLanes (.ehchk g sb pd h) (predReg pd) (opd64 h) noOpd noOpd noPay)
def execEget (g : Guard) (sb : Sb) (wd : WD) (strict : Bool) (pd : BitVec 3) (d : Dst) (h t o : Src) (s : State) : Out :=
  runM s (esuLanes (.eget g sb wd strict pd d h t o) (dstRegs (d, wd.regs) ++ predReg pd) (opd64 h) (opd32 t) (opd32 o) noPay)
def execEput (g : Guard) (sb : Sb) (wd : WD) (strict : Bool) (pd : BitVec 3) (x h t o : Src) (s : State) : Out :=
  runM s (esuLanes (.eput g sb wd strict pd x h t o) (predReg pd) (opd64 h) (opd32 t) (opd32 o)
    fun r L => srcQ r.t r.c wd.regs x L)
def execEcrt (g : Guard) (sb : Sb) (strict : Bool) (pd : BitVec 3) (d : Dst) (ty : Option (Bool × Src × Src)) (s : State) :
    Out :=
  runM s (esuLanes (.ecrt g sb strict pd d ty) (dstRegs (d, 2) ++ predReg pd) noOpd
    (match ty with | some (_, t, _) => opd32 t | none => noOpd) noOpd
    (match ty with | some (ind, _, y) => payload ind y | none => noPay))
def execEdel (g : Guard) (sb : Sb) (strict : Bool) (pd : BitVec 3) (h : Src) (s : State) : Out :=
  runM s (esuLanes (.edel g sb strict pd h) (predReg pd) (opd64 h) noOpd noOpd noPay)
def execEadd (g : Guard) (sb : Sb) (ind strict : Bool) (pd : BitVec 3) (h t y : Src) (s : State) : Out :=
  runM s (esuLanes (.eadd g sb ind strict pd h t y) (predReg pd) (opd64 h) (opd32 t) noOpd (payload ind y))
def execErem (g : Guard) (sb : Sb) (strict : Bool) (pd : BitVec 3) (h t : Src) (s : State) : Out :=
  runM s (esuLanes (.erem g sb strict pd h t) (predReg pd) (opd64 h) (opd32 t) noOpd noPay)
def execEset (g : Guard) (sb : Sb) (ind strict : Bool) (pd : BitVec 3) (h t y : Src) (s : State) : Out :=
  runM s (esuLanes (.eset g sb ind strict pd h t y) (predReg pd) (opd64 h) (opd32 t) noOpd (payload ind y))
def execEcmt (g : Guard) (sb : Sb) (d : Dst) (s : State) : Out :=
  runM s (esuLanes (.ecmt g sb d) (dstRegs (d, 1)) noOpd noOpd noOpd noPay)

/-- The next clause waits for the sync point (R215). -/
def execEsync (sb : Sb) (d : Dst) (w : Src) (s : State) : Out :=
  runM s do
    beginOnce (.esync sb d w) fun r => do
      let op ← enqueue r (.esync sb d w) (capOf r (fun _ => (r.x0 w).setWidth 64) zero64 zero64 zero128) []
        (dstRegs (d, 1)) [] esuPut id
      modTrain r.id fun t => { t with gate := some op }

def execEpin (sb : Sb) (strict : Bool) (d : Dst) (w v : Src) (s : State) : Out :=
  runM s (esuOnce (.epin sb strict d w v) (dstRegs (d, 1)) (fun r => (r.x0 w).setWidth 64) fun r => (r.x0 v).setWidth 64)
def execEunpin (sb : Sb) (w v : Src) (s : State) : Out :=
  runM s (esuOnce (.eunpin sb w v) [] (fun r => (r.x0 w).setWidth 64) fun r => (r.x0 v).setWidth 64)
def execEver (sb : Sb) (view : Bool) (d : Dst) (w : Src) (s : State) : Out :=
  runM s (esuOnce (.ever sb view d w) (dstRegs (d, 1)) (fun r => (r.x0 w).setWidth 64) fun _ => 0)

end Sys2Proof.Machine
end

