-- ==== Sys2Proof/Machine/RayGeo.lean ====
section
/-! DEFINITION. The exact ray geometry: child words, void rays, transforms, boxes, triangles, the fields of a prediction key (R309 to R311, R315 to R318, R321). -/

namespace Sys2Proof.Machine

/-! ## Values -/

/-- A finite F32 value times 2^149, exact. -/
def fix? (x : Word) : Option Int :=
  match v32 x with
  | .num neg m e => some (scaled neg m e (-149))
  | _ => none

/-- A rational or an infinity: numerator and denominator; a denominator of 0 is an infinity of the numerator's sign. -/
abbrev Ext2 := Int × Int

def negInf : Ext2 := (-1, 0)
def posInf : Ext2 := (1, 0)

def ext? (x : Word) : Option Ext2 :=
  match v32 x with
  | .nan => none
  | .inf neg => some (if neg then negInf else posInf)
  | .num neg m e => some (scaled neg m e (-149), 2 ^ 149)

def Ext2.le (x y : Ext2) : Bool :=
  if x.2 = 0 && y.2 = 0 then x.1 ≤ y.1 else x.1 * y.2 ≤ y.1 * x.2

/-- The exact quotient n / d rounded RNE, +0.0 for an exact zero (R317). -/
def ratio (n d : Int) : Word :=
  if n = 0 then 0
  else
    let a := n.natAbs
    let b := d.natAbs
    let k : Int := 80 - (a.log2 : Int) + (b.log2 : Int)
    let num := if 0 ≤ k then a * 2 ^ k.toNat else a
    let den := if 0 ≤ k then b else b * 2 ^ (-k).toNat
    let q := 2 * (num / den) + (if num % den = 0 then 0 else 1)
    BitVec.ofNat 32 (f32.round .rne false ((n < 0) != (d < 0)) q (-k - 1))

/-- An order key of t; −0 and +0 are equal. -/
def tKey (t : Word) : Int := if t.getLsbD 31 then -((t &&& 0x7FFFFFFF).toNat : Int) else (t.toNat : Int)

/-! ## Rays (R315, R316) -/

/-- A void ray; its eight words are origin, tmin, direction, tmax. -/
def voidRay (r : List Word) : Bool :=
  let v (k : Nat) : FV := v32 (r.getD k 0)
  (List.range 8).any (fun k => v k == .nan)
    || [0, 1, 2, 4, 5, 6].any (fun k => (fix? (r.getD k 0)).isNone)
    || [4, 5, 6].all (fun k => fix? (r.getD k 0) == some 0)
    || (v 3).cmp (v 7) == some .gt

def mul32 (a b : Word) : Word := fmul32 false .rne a b
def add32 (a b : Word) : Word := fadd32 false .rne a b

/-- One component of the transform, without the translation. -/
def xformDot (m : List Word) (i : Nat) (x : List Word) : Word :=
  let e (j : Nat) : Word := m.getD (4 * i + j) 0
  let y (j : Nat) : Word := x.getD j 0
  add32 (add32 (mul32 (e 0) (y 0)) (mul32 (e 1) (y 1))) (mul32 (e 2) (y 2))

/-- The object-space ray under an instance's transform: origin and direction. -/
def xformRay (m o d : List Word) : List Word × List Word :=
  ((List.range 3).map fun i => add32 (xformDot m i o) (m.getD (4 * i + 3) 0), (List.range 3).map fun i => xformDot m i d)

/-- Three finite components. -/
def fix3 (x : List Word) : Option (Int × Int × Int) :=
  match fix? (x.getD 0 0), fix? (x.getD 1 0), fix? (x.getD 2 0) with
  | some a, some b, some c => some (a, b, c)
  | _, _, _ => none

/-- The components of a ray that is not void in its space. -/
def rayFix (o d : List Word) : Option ((Int × Int × Int) × Int × Int × Int) :=
  match fix3 o, fix3 d with
  | some a, some b => if b = (0, 0, 0) then none else some (a, b)
  | _, _ => none

/-! ## Boxes (R310, R318) -/

/-- Narrow an interval of t by one axis; none when the box is empty or the axis is missed. -/
def slab (iv : Ext2 × Ext2) (o d : Int) (lo hi : Ext2) : Option (Ext2 × Ext2) :=
  if !lo.le hi || lo = posInf || hi = negInf then none
  else if d = 0 then
    if Ext2.le lo (o, 2 ^ 149) && Ext2.le (o, 2 ^ 149) hi then some iv else none
  else
    let (near, far) := if 0 < d then (lo, hi) else (hi, lo)
    let cut (x : Ext2) (inf : Ext2) : Ext2 := if x.2 = 0 then inf else if 0 < d then (x.1 - o, d) else (o - x.1, -d)
    let a := cut near negInf
    let b := cut far posInf
    some (if Ext2.le iv.1 a then a else iv.1, if Ext2.le b iv.2 then b else iv.2)

/-- A ray enters a box, decided exactly; a void ray enters none. -/
def boxHit (o d lo hi : List Word) (tmin tmax : Word) : Bool :=
  match rayFix o d, ext? tmin, ext? tmax with
  | some ((ox, oy, oz), dx, dy, dz), some t0, some t1 =>
    match lo.map ext?, hi.map ext? with
    | [some lx, some ly, some lz], [some hx, some hy, some hz] =>
      match ((slab (t0, t1) ox dx lx hx).bind fun iv => slab iv oy dy ly hy).bind fun iv => slab iv oz dz lz hz with
      | some (a, b) => a.le b && a != posInf && b != negInf
      | none => false
    | _, _ => false
  | _, _, _ => false

/-! ## Triangles (R317) -/

def sub3 (a b : Int × Int × Int) : Int × Int × Int := (a.1 - b.1, a.2.1 - b.2.1, a.2.2 - b.2.2)
def dot3 (a b : Int × Int × Int) : Int := a.1 * b.1 + a.2.1 * b.2.1 + a.2.2 * b.2.2
def cross3 (a b : Int × Int × Int) : Int × Int × Int :=
  (a.2.1 * b.2.2 - a.2.2 * b.2.1, a.2.2 * b.1 - a.1 * b.2.2, a.1 * b.2.1 - a.2.1 * b.1)
def scale3 (k : Int) (a : Int × Int × Int) : Int × Int × Int := (k * a.1, k * a.2.1, k * a.2.2)
def plus3 (a b : Int × Int × Int) : Int × Int × Int := (a.1 + b.1, a.2.1 + b.2.1, a.2.2 + b.2.2)

/-- The top-left rule: the first non-zero component of the edge is positive. -/
def edgeOk (start end_ : Int × Int × Int) : Bool :=
  let e := sub3 end_ start
  if e.1 ≠ 0 then 0 < e.1 else if e.2.1 ≠ 0 then 0 < e.2.1 else 0 < e.2.2

/-- One of U, V, W against D. -/
def sideOk (x D : Int) (start end_ : Int × Int × Int) : Bool :=
  if x = 0 then edgeOk start end_ else (0 < x) == (0 < D)

/-- t, u and v of a hit. -/
def triHit (o d p : List Word) (tmin tmax : Word) : Option (Word × Word × Word) :=
  match rayFix o d, fix3 p, fix3 (p.drop 3), fix3 (p.drop 6) with
  | some (o, d), some p0, some p1, some p2 =>
    let a := sub3 p0 o
    let b := sub3 p1 o
    let c := sub3 p2 o
    let U := dot3 d (cross3 b c)
    let V := dot3 d (cross3 c a)
    let W := dot3 d (cross3 a b)
    let D := U + V + W
    if D ≠ 0 && sideOk U D p1 p2 && sideOk V D p2 p0 && sideOk W D p0 p1 then
      let t := ratio (dot3 (plus3 (plus3 (scale3 U a) (scale3 V b)) (scale3 W c)) d) (D * dot3 d d)
      match ext? tmin, ext? t, ext? tmax with
      | some t0, some x, some t1 => if t0.le x && x.le t1 then some (t, ratio V D, ratio W D) else none
      | _, _, _ => none
    else none
  | _, _, _, _ => none

/-! ## Child words (R309, R314) -/

/-- Kind, address and records of a usable child word of a level. -/
def childOf (obj : Bool) (w : Nat) : Option (Nat × Nat × Nat) :=
  let kind := bits w 0 2
  let cnt := bits w 2 4
  if kind != 0 && bits w 55 9 == 0 && !(kind != 2 && bitAt w 6) && !(kind == 1 && cnt != 0)
      && kind != (if obj then 3 else 2) then
    some (kind, bits w 6 49 * 64, cnt + 1)
  else none

/-! ## Prediction keys (R321) -/

/-- The low 16 bits of ⌊o × 2^−QUANT⌋. -/
def keyCell (quant : Int) (x : Word) : Nat :=
  let v := (fix? x).getD 0
  let sh := 149 + quant
  ((if 0 ≤ sh then v / (2 ^ sh.toNat : Nat) else v * (2 ^ (-sh).toNat : Nat)) % 65536).toNat

/-- min(63, ⌊64 × RNE(|x| / s)⌋). -/
def keyRatio (x s : Word) : Nat :=
  match fix? x, fix? s with
  | some a, some b => if b = 0 then 0 else min 63 ((((fix? (ratio a b)).getD 0) * 64 / (2 ^ 149 : Nat)).toNat)
  | _, _ => 0

/-- The key fields that come from a ray: cells, octant, qa, qb. -/
def rayKey (quant : Int) (r : List Word) : List Nat :=
  let g (k : Nat) : Word := r.getD k 0
  let m (k : Nat) : Word := g k &&& 0x7FFFFFFF
  let s := add32 (add32 (m 4) (m 5)) (m 6)
  let sign (k : Nat) : Nat := if (g k).getLsbD 31 then 1 else 0
  [keyCell quant (g 0), keyCell quant (g 1), keyCell quant (g 2), sign 4 + 2 * sign 5 + 4 * sign 6,
   keyRatio (m 4) s, keyRatio (m 5) s]

end Sys2Proof.Machine
end

