-- ==== Sys2Proof/Machine/Ray.lean ====
section
/-! DEFINITION. The ray unit: structure reads, traversal, prediction, queries and their completion, and class Y (R309 to R338). -/

namespace Sys2Proof.Machine

variable {s : State}

/-! ## Structure reads (R314, R333) -/

/-- A read of `n` bytes through the core's L1, as a load makes it. -/
def structLoad (n : Nat) : Load :=
  { id := 0, op := 0, n := n, regs := 0, ext := .zero, acc := [], fresh := false, acq := false,
    ldp := none, dst := ⟨true, false, 0⟩ }

/-- The content of a record through one translation; a read that misses the L1 is counted (R161). -/
def recordAt (u : EU) (e : Tlb) (va n : Nat) : M s (Option Nat) := do
  let t ← now
  match accessCause t false false e va with
  | some _ => pure none
  | none => do
    let a : LaneAcc := ⟨0, BitVec.ofNat 64 va, e.paOf va, 0, 0, t.attrOf e (e.paOf va), placeOf e.place⟩
    chimeAll u.core u.ctx (loadMisses t u.core [] { structLoad n with acc := [a] })
    let (v, _) ← loadLane u.core u.ctx [] (structLoad n) a
    pure (some v)

/-- A record of the hierarchy; none where it is unusable (R314). A translation fault holds the query (R334). -/
def recordOf (u : EU) (va n : Nat) : M s (Option Nat) := do
  if 2 ^ 55 ≤ va then pure none
  else do
    let e ← walkNow u.core u.ctx va kRead
    recordAt u e va n

/-- A record read for a prediction: a translation that is not cached drops it (R322). -/
def recordHot (u : EU) (va n : Nat) : M s (Option Nat) := do
  let t ← now
  if 2 ^ 55 ≤ va then pure none
  else match t.findTlb none u.core (t.tagOf u.ctx) va with
    | some e => if e.r then recordAt u e va n else pure none
    | none => pure none

/-- Word k of a record. -/
def wordAt (v k : Nat) : Word := BitVec.ofNat 32 (bits v (32 * k) 32)

def wordsAt (v lo n : Nat) : List Word := (List.range n).map fun k => wordAt v (lo + k)

/-! ## Traversal (R318, R319) -/

/-- Child words of a node whose boxes the ray enters. -/
def nodeChildren (v : Nat) (o d : List Word) (tmin tmax : Word) : List Nat :=
  ((List.range 4).filter fun c => boxHit o d (wordsAt v (6 * c) 3) (wordsAt v (6 * c + 3) 3) tmin tmax).map fun c =>
    bits v (8 * (0x60 + 8 * c)) 64

/-- The leaf words of one level that a ray reaches: nodes are visited by their depth below the root, each child word once, at its least depth. -/
def walkLevel (u : EU) (obj : Bool) (o d : List Word) (tmin tmax : Word) : Nat → List Nat → List Nat → M s (List Nat)
  | 0, _, _ => pure []
  | n + 1, frontier, seen => do
    let fresh := (frontier.filter fun w => (childOf obj w).isSome && !seen.contains w).dedup
    if fresh.isEmpty then pure []
    else do
      let next ← fresh.mapM fun w =>
        match childOf obj w with
        | some (1, a, _) => do
          match ← recordOf u a 128 with
          | some v => pure (nodeChildren v o d tmin tmax)
          | none => pure []
        | _ => pure []
      let rest ← walkLevel u obj o d tmin tmax n next.flatten (seen ++ fresh)
      pure ((fresh.filter fun w => bits w 0 2 != 1) ++ rest)

/-- Records of leaf words: each address once, with the first leaf word that holds it. -/
def leafRecords (obj : Bool) (size : Nat) (leaves : List Nat) : List (Nat × Nat) :=
  (leaves.flatMap fun w => match childOf obj w with
    | some (_, a, n) => (List.range n).map fun r => (a + size * r, w)
    | none => []).foldl (fun acc x => if acc.any fun y => y.1 == x.1 then acc else acc ++ [x]) []

/-- An instance record in 1,024 bits. -/
structure InstRec where
  xform : List Word
  root : Nat
  inst : Nat
  mask : Byte
  opaqueAll : Bool
  deriving DecidableEq, Repr

def instOf (v : Nat) : InstRec :=
  { xform := wordsAt v 0 12, root := bits v (8 * 0x30) 64, inst := bits v (8 * 0x38) 24,
    mask := BitVec.ofNat 8 (bits v (8 * 0x38 + 24) 8), opaqueAll := bitAt v (8 * 0x3C) }

/-- A hit of a triangle record under an instance. -/
def hitOf (i : InstRec) (instVa triVa : Nat) (leaf : Nat) (o d : List Word) (v : Nat) (tmin tmax : Word) : Option Hit :=
  (triHit o d (wordsAt v 0 9) tmin tmax).map fun (t, a, b) =>
    { t := t, inst := i.inst, prim := wordAt v 9, instVa := instVa, triVa := triVa, u := a, v := b,
      opaqueHit := bitAt v (32 * 10) || i.opaqueAll, leaf := BitVec.ofNat 64 leaf }

/-- Order of hits (R319). -/
def hitBefore (a b : Hit) : Bool :=
  if tKey a.t ≠ tKey b.t then tKey a.t < tKey b.t
  else lexLt [a.inst, a.prim.toNat, a.instVa, a.triVa] [b.inst, b.prim.toNat, b.instVa, b.triVa]

def insertHit (h : Hit) : List Hit → List Hit
  | [] => [h]
  | x :: l => if hitBefore h x then h :: x :: l else x :: insertHit h l

/-- Hits below one instance record, up to `tmax`. -/
def instHits (u : EU) (va : Nat) (ray : List Word) (m : Byte) (tmax : Word) : M s (List Hit) := do
  match ← recordOf u va 128 with
  | none => pure []
  | some v =>
    let i := instOf v
    let (o, d) := xformRay i.xform (ray.take 3) (ray.drop 4)
    if i.mask &&& m = 0 || (rayFix o d).isNone then pure []
    else do
      let leaves ← walkLevel u true o d (ray.getD 3 0) (ray.getD 7 0) 64 [i.root] []
      let hits ← (leafRecords true 64 leaves).mapM fun x => do
        match ← recordOf u x.1 64 with
        | none => pure none
        | some w => pure (hitOf i va x.1 x.2 o d w (ray.getD 3 0) tmax)
      pure (hits.filterMap id)

/-- The hits of a ray in their order, up to `tmax`. Boxes are entered by the ray's own tmax: a triangle whose box lies beyond the t of its hit is found whatever `tmax` is, so no result depends on a prediction (R318, R322, R325; log entry 38). -/
def trace (u : EU) (root : Nat) (ray : List Word) (m : Byte) (tmax : Word) : M s (List Hit) := do
  let leaves ← walkLevel u false (ray.take 3) (ray.drop 4) (ray.getD 3 0) (ray.getD 7 0) 64 [root] []
  let hits ← (leafRecords false 128 leaves).mapM fun x => instHits u x.1 ray m tmax
  pure (hits.flatten.foldl (fun l h => insertHit h l) [])

/-- +∞: t_o where no opaque hit exists (R319). -/
def tInf : Word := 0x7F800000

/-- The hit that fixes the result without decisions, and the candidates (R319). -/
def split (k : RayKind) (hits : List Hit) : Option Hit × List Hit :=
  let o := hits.find? (·.opaqueHit)
  match k with
  | .closest => (hits.head?, [])
  | .occluded => (o, [])
  | .any => (o, hits.filter fun h => !h.opaqueHit && (match o with | some x => tKey h.t < tKey x.t | none => tKey h.t < tKey tInf))

/-- Hits of a shortened traversal fix the lane's result: any hit for `rycl`, an opaque one for the others (R322). -/
def fixes (k : RayKind) (hits : List Hit) : Bool := hits.any fun h => h.opaqueHit || k == .closest

/-! ## Prediction (R321, R322) -/

/-- The smallest t of the predicted leaf; none drops the prediction. -/
def predicted (u : EU) (e : HptEntry) (ray : List Word) (m : Byte) (opaqueOnly : Bool) : M s (Option Word) := do
  match ← recordHot u e.inst 128, childOf true e.leaf.toNat with
  | some v, some (2, a, n) => do
    let i := instOf v
    let (o, d) := xformRay i.xform (ray.take 3) (ray.drop 4)
    let recs ← (List.range n).mapM fun r => do
      let w ← recordHot u (a + 64 * r) 64
      pure (a + 64 * r, w)
    if i.mask &&& m = 0 || recs.any fun x => x.2.isNone then pure none
    else
      let hits := recs.filterMap fun x => x.2.bind fun w => hitOf i e.inst x.1 0 o d w (ray.getD 3 0) (ray.getD 7 0)
      let hits := (hits.filter fun h => h.opaqueHit || !opaqueOnly).foldl (fun l h => insertHit h l) []
      pure (hits.head?.map (·.t))
  | _, _ => pure none

def State.hptOf (t : State) (die : Nat) : List HptEntry := AMap.getD t.hpt die []

/-- Bit 3 of ZS_HPTPART. -/
def Context.hptOn (c : Context) : Bool := c.hptpart.getLsbD 3

/-- The key of a ray in a context: an entry matches only on the whole of it. -/
def HptEntry.matches (e : HptEntry) (c : Context) (g : Geo) (key : List Nat) : Bool :=
  e.part == bits c.hptpart.toNat 0 3 && e.tag == c.xtag && e.gid == g.gid && e.key == key

/-- Add one to counter `i` of the context on a die, saturating (R332). -/
def countHpt (ctx die i : Nat) : M s Unit := do
  let t ← now
  let c := t.ctx ctx
  let row := c.hptCounts[die % 4]'(Nat.mod_lt _ (by decide))
  let x := row[i % 5]'(Nat.mod_lt _ (by decide))
  let row := row.set (i % 5) (if x = 0xFFFFFFFF then x else x + 1) (Nat.mod_lt _ (by decide))
  upd (.ctx ctx { c with hptCounts := c.hptCounts.set (die % 4) row (Nat.mod_lt _ (by decide)) })

/-- Look a lane up and try the predicted leaf: the tmax that a shortened traversal then runs with (R321, R322, R338). -/
def lookUp (u : EU) (q : RayQuery) (ray : List Word) (m : Byte) : M s (Option Word) := do
  let t ← now
  let die := dieOf u.core
  let c := t.ctx u.ctx
  countHpt u.ctx die 0
  match (t.hptOf die).find? fun e => e.matches c q.bind (rayKey q.bind.quant ray) && e.gen == q.bind.gen with
  | none => pure none
  | some e => do
    countHpt u.ctx die 1
    predicted u e ray m (q.kind != .closest)

/-- Write the entry of a lane's key; a part keeps its 8,192 latest entries (log entry 5). -/
def writeHpt (u : EU) (q : RayQuery) (ray : List Word) (h : Hit) : M s Unit := do
  let t ← now
  let die := dieOf u.core
  let c := t.ctx u.ctx
  let key := rayKey q.bind.quant ray
  let part := bits c.hptpart.toNat 0 3
  let e : HptEntry := { part := part, tag := c.xtag, gid := q.bind.gid, key := key, gen := q.bind.gen,
                        inst := h.instVa, leaf := h.leaf }
  let old := (t.hptOf die).filter fun x => !x.matches c q.bind key
  let full := 8192 ≤ (old.filter fun x => x.part == part).length
  let old := if full then (match old.find? fun x => x.part == part with
    | some x => old.erase x
    | none => old) else old
  upd (.hpt die (old ++ [e]))
  countHpt u.ctx die 4

/-! ## Queries (R320, R327 to R329) -/

/-- The ray unit acts for a train. -/
def rayEU (t : State) (id : Nat) (x : Train) : EU :=
  { core := t.coreOf x, ctx := t.ctxOf x, priv := false, train := some id, node := none }

def RayQuery.settled (q : RayQuery) : Bool :=
  q.lanes.toList.all fun l => match l with
    | .outside | .done _ _ => true
    | _ => false

def setQuery (id : Nat) (q : RayQuery) : M s Unit := modTrain id fun x => { x with ray := some q }

def RayQuery.setLane (q : RayQuery) (L : Nat) (x : RayLane) : RayQuery :=
  { q with lanes := q.lanes.set (L % 32) x (Nat.mod_lt _ (by decide)) }

/-- The value of a field for a lane that is not busy (Table 18-10). -/
def rayField (q : Option RayQuery) (f : RyField) (L : Nat) : Word :=
  let lane := match q with
    | some q => q.lanes.at L
    | none => .outside
  let h : Option Hit := match lane with
    | .pending h => some h
    | .done h _ => h
    | _ => none
  let seen : Option Hit := match q with
    | some q => if q.kind == .occluded then none else h
    | none => none
  match f with
  | .t => (seen.map (·.t)).getD 0x7F800000
  | .prim => (seen.map (·.prim)).getD 0xFFFFFFFF
  | .inst => (seen.map fun x => BitVec.ofNat 32 x.inst).getD 0xFFFFFFFF
  | .u => (seen.map (·.u)).getD 0
  | .v => (seen.map (·.v)).getD 0
  | .kind => match lane with
    | .pending _ => 3
    | .done (some _) k => BitVec.ofNat 32 k
    | _ => 0
  | .cand => match q with
    | some q => BitVec.ofNat 32 (q.cand.at L)
    | none => 0

/-- Lanes of a query that are pending, and all its lanes. -/
def RayQuery.pendingMask (q : RayQuery) : Mask :=
  maskOf fun L => match q.lanes.at L with | .pending _ => true | _ => false

def RayQuery.laneMask (q : RayQuery) : Mask := maskOf fun L => q.lanes.at L != .outside

/-- Give waiting instructions what has come: each lane of a `ryres` when it is no longer busy, a `rywait` when none is. -/
def serveWaits (id : Nat) : M s Unit := do
  let t ← now
  match (AMap.get? t.trains id).bind (·.ray) with
  | none => pure ()
  | some q =>
    let busy := q.busyMask
    q.waits.forM fun w => modTrain id fun x =>
      match w.what with
      | .pred d =>
        if busy = 0 then ((if d.nowb then x else x.setP d.p.toNat q.laneMask q.pendingMask)).complete w.op else x
      | .field f d =>
        let x := x.setDst d (w.lanes &&& ~~~busy) 0 (fun L _ => rayField (some q) f L) 1
        if w.lanes &&& busy = 0 then x.complete w.op else x
    let left := q.waits.filterMap fun w => match w.what with
      | .pred _ => if busy = 0 then none else some w
      | .field _ _ => if w.lanes &&& busy = 0 then none else some { w with lanes := w.lanes &&& busy }
    modTrain id fun x => { x with ray := x.ray.map fun q => { q with waits := left } }

/-- When every lane is done the query completes: prediction entries in increasing lane order, then its scoreboard (R323, R327). -/
def closeQuery (id : Nat) : M s Unit := do
  serveWaits id
  let t ← now
  match AMap.get? t.trains id with
  | none => pure ()
  | some x =>
    match x.ray with
    | none => pure ()
    | some q =>
      if !q.opened || !q.settled then pure ()
      else do
        let u := rayEU t id x
        if q.bind.predict && (t.ctx u.ctx).hptOn then
          (List.range 32).forM fun L =>
            match q.lanes.at L, q.best.at L with
            | .done _ _, some h => writeHpt u q (q.rays.at L) h
            | _, _ => pure ()
        else pure ()
        modTrain id fun x => { x.complete q.op with ray := x.ray.map fun q => { q with opened := false } }

/-- A busy lane of the train's query, with what the ray unit acts as. -/
def busyLane (t : State) (id L : Nat) : Option (RayQuery × EU) :=
  (AMap.get? t.trains id).bind fun x => x.ray.bind fun q =>
    if (q.lanes.at L).works then some (q, rayEU t id x) else none

def RayQuery.setTp (q : RayQuery) (L : Nat) (tp : Option Word) : RayQuery :=
  { q with tp := q.tp.set (L % 32) tp (Nat.mod_lt _ (by decide)) }

/-- Query start in a lane: a void ray is a miss; the others are looked up once (R315, R321). -/
def startLane (id L : Nat) : M s Unit := do
  let t ← now
  match busyLane t id L with
  | none => pure ()
  | some (q, u) =>
    let ray := q.rays.at L
    if voidRay ray then setQuery id (q.setLane L (.done none 0))
    else if q.looked.getLsbD L then pure ()
    else do
      let tp ← if q.bind.predict && (t.ctx u.ctx).hptOn then lookUp u q ray (q.mask.at L) else pure none
      setQuery id ({ q with looked := q.looked ||| maskOf (· == L) }.setTp L tp)

/-- A traversal's hits present the lane's next candidate or fix its result (R319, R320). -/
def RayQuery.settle (q : RayQuery) (L : Nat) (hits : List Hit) : RayQuery :=
  let (o, cands) := split q.kind hits
  let rej := q.rejected.at L
  let lane : RayLane := match cands.find? fun h => !rej.contains (h.instVa, h.triVa) with
    | some h => .pending h
    | none => .done o (if o.isSome then 1 else 0)
  { q with best := q.best.set (L % 32) o (Nat.mod_lt _ (by decide)) }.setLane L lane

/-- The shortened traversal of a lane that has one, counted when it is made (R332); where it does not fix the result, a second one is due (R322). -/
def shortLane (id L : Nat) : M s Unit := do
  let t ← now
  match busyLane t id L with
  | none => pure ()
  | some (q, u) =>
    match q.tp.at L with
    | none => pure ()
    | some tp => do
      let hits ← trace u q.bind.root.toNat (q.rays.at L) (q.mask.at L) tp
      countHpt u.ctx (dieOf u.core) 2
      if fixes q.kind hits then setQuery id (q.settle L hits)
      else do
        countHpt u.ctx (dieOf u.core) 3
        setQuery id (q.setTp L none)

/-- The traversal of a lane with the ray's own tmax (R318, R322). -/
def fullLane (id L : Nat) : M s Unit := do
  let t ← now
  match busyLane t id L with
  | none => pure ()
  | some (q, u) => do
    let hits ← trace u q.bind.root.toNat (q.rays.at L) (q.mask.at L) ((q.rays.at L).getD 7 0)
    setQuery id (q.settle L hits)

/-- The work on some lanes, after the lookups of the query's start, which every lane of it has (R321). -/
def laneWork (id : Nat) (ls : List Nat) : List (M s Unit) :=
  (List.range 32).map (startLane id) ++ ls.flatMap fun L => [shortLane id L, fullLane id L]

/-- The ray unit may work on a train's query: it is open, not held, the train has lanes left, and what it could read at issue is performed (R13, R333, R335). -/
def queryMay (t : State) (id : Nat) (x : Train) : Bool :=
  match x.ray with
  | some q => q.opened && !q.held && !x.stopped && !x.ending && ctxRuns t (t.ctxOf x) && issueDone t id q.op
  | none => false

/-- Steps of the query, each of which stands once made: a translation fault holds the query at its step and is reported as the train's (R334, R338). -/
def querySteps (id : Nat) : List (M s Unit) → M s Unit
  | [] => closeQuery id
  | m :: rest => do
    match ← tryM m with
    | .ok () => querySteps id rest
    | .error (.held page kind present malformed) => do
      modTrain id fun x => { x with ray := x.ray.map fun q => { q with held := true } }
      serveWaits id
      reportHeld id page kind present malformed 1
    | .error .wait => serveWaits id
    | .error e => stop e

/-- CANDIDATE_PRESENT: the next candidate of a busy lane, or its result. -/
def execCandidatePresent (train lane : Nat) (s : State) : Out :=
  runE s do
    let t ← now
    match AMap.get? t.trains train with
    | none => pure ()
    | some x => if queryMay t train x && lane < 32 then querySteps train (laneWork train [lane]) else pure ()

/-! ## `rygeo` and `ryinv` (R330, R331) -/

/-- A geometry record in 512 bits. -/
def geoOf (v : Nat) : Option Geo :=
  let q := bits v (8 * 0x10) 8
  let quant : Int := if q < 128 then q else (q : Int) - 256
  if bits v (8 * 0x11 + 1) 7 = 0 && bits v (8 * 0x12) (8 * 46) = 0 && -64 ≤ quant && quant ≤ 63 then
    some { root := BitVec.ofNat 64 (bits v 0 64), gid := wordAt v 2, gen := wordAt v 3, quant := quant,
           predict := bitAt v (8 * 0x11) }
  else none

def geoAt (w : Wheel) (k : Nat) : Option Geo := w.geos[k % 4]'(Nat.mod_lt _ (by decide))

def setGeo (wheel k : Nat) (g : Option Geo) : M s Unit := do
  let t ← now
  match AMap.get? t.wheels wheel with
  | none => pure ()
  | some w => upd (.wheel wheel (some { w with geos := w.geos.set (k % 4) g (Nat.mod_lt _ (by decide)) }))

/-- Fill a binding from a record, or unbind it. -/
def bindGeo (o : OpCtx) (k : Nat) (rec : Nat) : M s Unit := do
  if rec = 0 then setGeo o.tr.wheel k none
  else if rec % 64 ≠ 0 then stop (.trap eMisalign none none)
  else do
    let v ← readWords o.wheel.core o.ctx o.priv rec 8
    match geoOf v with
    | some g => setGeo o.tr.wheel k (some g)
    | none => stop (.trap eIllOperand none none)

/-- Remove the context's entries, all or those of one geometry id, on every die. -/
def removeHpt (ctx : Nat) (gid : Option Word) : M s Unit := do
  let t ← now
  let tag := (t.ctx ctx).xtag
  updAll (t.hpt.map fun kv => .hpt kv.1 (kv.2.filter fun e =>
    !(e.tag == tag && (match gid with | some g => e.gid == g | none => true))))

/-- What an operation of the ray unit's queue does. -/
def rayRun (e : EngineOp) (o : OpCtx) : M s Unit :=
  match e.instr with
  | .rygeo _ k _ => bindGeo o k.toNat (e.cap.a.at 0).toNat
  | .ryinv _ (some k) =>
    match geoAt o.wheel k.toNat with
    | some g => removeHpt o.ctx (some g.gid)
    | none => stop (.trap eIllOperand none none)
  | .ryinv _ none => removeHpt o.ctx none
  | _ => pure ()

/-- The first queued operation of a train takes effect; its traps are deferred. -/
def rayOp (id : Nat) (e : EngineOp) : M s Unit := do
  let t ← now
  match opCtx t e with
  | none => upd (.ray id none)
  | some o =>
    if e.held || frozen t o.ctx || !issueDone t e.train e.id then pure ()
    else
      match ← tryM (rayRun e o) with
      | .ok () => do
        upd (.ray id none)
        endOp e.train id none
      | .error (.trap c lanes v) => do
        upd (.ray id none)
        endOp e.train id (some (c, lanes, foundValue c v))
      | .error (.held page kind present malformed) => do
        upd (.ray id (some { e with held := true }))
        reportHeld e.train page kind present malformed 1
      | .error .wait => pure ()
      | .error x => stop x

/-- RAY_QUERY_COMPLETE: the ray unit takes the train's next queued operation, or works on the busy lanes of its query; with every lane done the query completes. -/
def execRayQueryComplete (train : Nat) (s : State) : Out :=
  runE s do
    let t ← now
    match AMap.get? t.trains train with
    | none => pure ()
    | some x =>
      match firstOf t.ray train with
      | some k => match AMap.get? t.ray k with
        | some e => rayOp k e
        | none => pure ()
      | none =>
        if queryMay t train x then querySteps train (laneWork train (List.range 32)) else pure ()

/-! ## Class Y (R326 to R332) -/

/-- A precise trap of an instruction that stood inside a bracket whose lanes have aborted. -/
def raiseNow (r : Iss) (cause : Byte) : M s Unit := do
  let t ← now
  match AMap.get? t.trains r.id with
  | none => pure ()
  | some x => updAll (trapUpds t r.id x x.here cause x.em x.word false)

def Train.queryOpen (t : Train) : Bool :=
  match t.ray with
  | some q => q.opened
  | none => false

/-- The train's query is open on binding `k`. -/
def Train.queriesGeo (t : Train) (k : Nat) : Bool := t.queryOpen && t.ray.any fun q => q.geo == k

/-- Start a query of the active lanes. -/
def startQuery (i : Instr) (kind : RayKind) (k : BitVec 2) (ray m : Src) : M s Unit :=
  beginLanes i fun r => do
    let t ← now
    if r.t.queryOpen then raiseNow r eIllOperand
    else do
      need (!hasOps t.ray r.id) .wait
      let w ← wheelM r
      match geoAt w k.toNat with
      | none => issueTrap r [] eIllOperand
      | some g => do
        let op ← freshId
        let base := match ray with
          | .v i => i.toNat
          | _ => 0
        let q : RayQuery :=
          { op := op, kind := kind, geo := k.toNat, bind := g,
            mask := perLane fun L => (r.x m L).setWidth 8,
            rays := perLane fun L => (List.range 8).map fun j => (r.t.vreg (base + j)).at L,
            lanes := perLane fun L => if r.act.getLsbD L then .busy else .outside,
            rejected := perLane fun _ => [], cand := perLane fun _ => 0, best := perLane fun _ => none, looked := 0,
            tp := perLane fun _ => none,
            waits := [], opened := true, held := false }
        modTrain r.id fun _ => { r.issued op [] [] id with ray := some q }
        closeQuery r.id

def execRycl (g : Guard) (sb : Sb) (k : BitVec 2) (r m : Src) (s : State) : Out :=
  runM s (startQuery (.rycl g sb k r m) .closest k r m)
def execRyany (g : Guard) (k : BitVec 2) (r m : Src) (s : State) : Out :=
  runM s (startQuery (.ryany g k r m) .any k r m)
def execRyocc (g : Guard) (sb : Sb) (k : BitVec 2) (r m : Src) (s : State) : Out :=
  runM s (startQuery (.ryocc g sb k r m) .occluded k r m)

/-- The decisions of the active pending lanes. -/
def decide_ (q : RayQuery) (act yes : Mask) : RayQuery :=
  (lanesOf act).foldl (fun q L =>
    match q.lanes.at L with
    | .pending h =>
      let q := { q with cand := q.cand.set (L % 32) (q.cand.at L + 1) (Nat.mod_lt _ (by decide)) }
      if yes.getLsbD L then q.setLane L (.done (some h) 2)
      else
        let q := { q with rejected := q.rejected.set (L % 32) (q.rejected.at L ++ [(h.instVa, h.triVa)])
                                        (Nat.mod_lt _ (by decide)) }
        q.setLane L .busy
    | _ => q) q

def execRyacc (g : Guard) (sb : Sb) (pa : BitVec 3) (s : State) : Out :=
  runM s do
    beginLanes (.ryacc g sb pa) fun r => do
      match r.t.ray with
      | some q =>
        if !q.opened || q.kind != .any then raiseNow r eIllOperand
        else do
          finishNow r fun t => { t with ray := some (decide_ q r.act (r.t.pred pa.toNat)) }
          closeQuery r.id
      | none => raiseNow r eIllOperand

/-- Lanes that are busy are written later. -/
def execRyres (g : Guard) (sb : Sb) (f : RyField) (d : Dst) (s : State) : Out :=
  runM s do
    beginLanes (.ryres g sb f d) fun r => do
      let busy := match r.t.ray with
        | some q => q.busyMask &&& r.act
        | none => 0
      let put (t : Train) : Train := t.setDst d (r.act &&& ~~~busy) 0 (fun L _ => rayField r.t.ray f L) 1
      if busy = 0 then modTrain r.id fun t => put (r.retired t)
      else do
        let op ← freshId
        modTrain r.id fun _ =>
          put { r.issued op (dstRegs (d, 1)) [] id with
            ray := r.t.ray.map fun q => { q with waits := q.waits ++ [(⟨op, busy, .field f d⟩ : RayWait)] } }

/-- pD in the lanes of the open query once none is busy; with no open query, 0 in the active lanes. -/
def execRywait (sb : Sb) (d : PDst) (s : State) : Out :=
  runM s do
    beginOnce (.rywait sb d) fun r =>
      match if r.t.queryOpen then r.t.ray else none with
      | none => finishNow r fun t => if d.nowb then t else t.setP d.p.toNat r.act 0
      | some q =>
        if q.busyMask = 0 then
          finishNow r fun t => if d.nowb then t else t.setP d.p.toNat q.laneMask q.pendingMask
        else do
          let op ← freshId
          let dests := if d.nowb || d.p == 7 then [] else [Reg.p d.p.toNat]
          modTrain r.id fun _ =>
            { r.issued op dests [] id with
              ray := some { q with waits := q.waits ++ [(⟨op, 0, .pred d⟩ : RayWait)] } }

def rayPut (k : Nat) (e : EngineOp) : Upd := .ray k (some e)

def execRyinv (sb : Sb) (k : Option (BitVec 2)) (s : State) : Out :=
  runM s do
    beginOnce (.ryinv sb k) fun r => do
      let _ ← enqueue r (.ryinv sb k) (capOf r zero64 zero64 zero64 zero128) [] [] [] rayPut id
      pure ()

/-- A binding that some train of the wheel has an open query on is not changed (R330). -/
def execRygeo (sb : Sb) (k : BitVec 2) (rec : Src) (s : State) : Out :=
  runM s do
    beginOnce (.rygeo sb k rec) fun r => do
      let t ← now
      if t.trains.any fun kv => kv.2.wheel == r.t.wheel && kv.2.queriesGeo k.toNat then raise eIllOperand
      else do
        let _ ← enqueue r (.rygeo sb k rec) (capOf r (fun _ => r.d0 rec) zero64 zero64 zero128) [] [] [] rayPut id
        pure ()

/-- A counter of the context on the issuing core's die, read after the train's earlier acquires (R128, R332, R338). -/
def execRypst (sb : Sb) (d : Dst) (c : Src) (s : State) : Out :=
  runM s do
    beginOnce (.rypst sb d c) fun r => do
      let t ← now
      let k := (r.x0 c).toNat
      if 4 < k then raise eIllOperand
      else do
        need (accessMay t r.t r.id) .wait
        let row := (t.ctx (t.ctxOf r.t)).hptCounts[dieOf (t.coreOf r.t) % 4]'(Nat.mod_lt _ (by decide))
        finishDst r fun t => t.setDst d 0xFFFFFFFF 0 (fun _ _ => row[k % 5]'(Nat.mod_lt _ (by decide))) 1

end Sys2Proof.Machine
end

