-- ==== Sys2Proof/Machine/Launch.lean ====
section
/-! DEFINITION. The launcher: launch records and their checks, the start of a dispatch, admission of wheels, the end of trains and wheels, loading an object (R38 to R41, R61 to R68, R84, R181, R182, R184, R191). -/

namespace Sys2Proof.Machine

variable {s : State}

/-! ## The service die as an agent -/

/-- The core index that stands for the service die: above every physical core, with a translation table of its own. -/
def serviceCore : Nat := 800

/-- Accesses the launcher and the Remontoir make in a context. -/
def serviceEU (ctx : Nat) : EU := { core := serviceCore, ctx := ctx, priv := false, train := none, node := none }

/-! ## Launch records (R67) -/

def launchOf (v : Nat) : Launch :=
  let f (off size : Nat) : Nat := bits v (8 * off) (8 * size)
  let role (i : Nat) : Nat := f (0x20 + 4 * i) 4
  { entry := BitVec.ofNat 64 (f 0 8), query := f 0x10 1 == 1, wheelsOrQuery := BitVec.ofNat 64 (f 8 8),
    trains := f 0x11 1, watched := f 0x12 1 == 1, hang := f 0x13 1, sync := bitAt v (8 * 0x14),
    idempotent := bitAt v (8 * 0x14 + 1), strict := bitAt v (8 * 0x14 + 2), priv := bitAt v (8 * 0x14 + 3),
    roleMap := BitVec.ofNat 32 (f 0x18 4),
    budget := Vector.ofFn fun i => bits (role i.val) 0 9, prio := Vector.ofFn fun i => bits (role i.val) 10 2,
    local_ := f 0x30 4, tiles := f 0x34 1, param := BitVec.ofNat 64 (f 0x38 8),
    slots := Vector.ofFn fun i => BitVec.ofNat 32 (f (0x40 + 4 * i.val) 4), cmdArea := BitVec.ofNat 64 (f 0x60 8),
    viewWorld := bits v (8 * 0x68 + 32) 8, viewVersion := BitVec.ofNat 32 (f 0x68 4), wsBase := f 0x70 4, wsLen := f 0x74 4,
    trapVector := BitVec.ofNat 64 (f 0x78 8) }

/-- The field checks of a launch record (Table 4-2, R300, R377), an absent world apart. -/
def launchFieldsOk (reduced : Bool) (v : Nat) : Bool :=
  let l := launchOf v
  let f (off size : Nat) : Nat := bits v (8 * off) (8 * size)
  let role (i : Nat) : Nat := f (0x20 + 4 * i) 4
  f 0 8 % 8 == 0 && f 0x78 8 % 8 == 0 && f 0x10 1 ≤ 1 && 1 ≤ l.trains && l.trains ≤ 16 && (!l.query || l.trains == 8)
    && (if l.query then l.wheelsOrQuery.toNat % 128 == 0
        else 1 ≤ l.wheelsOrQuery.toNat && l.wheelsOrQuery.toNat < 2 ^ 32)
    && f 0x12 1 ≤ 1 && (l.hang == 0 || (16 ≤ l.hang && l.hang ≤ 40)) && bits v (8 * 0x14 + 4) 28 == 0
    && l.roleMap.toNat < 2 ^ (2 * l.trains) && f 0x1C 4 == 0
    && (List.range 4).all (fun i => bits (role i) 0 9 ≤ 256 && bits (role i) 9 1 == 0 && bits (role i) 12 20 == 0)
    && (List.range l.trains).all (fun i => l.roleBudget i != 0)
    && l.local_ ≤ 524288 && l.local_ % 128 == 0 && l.tiles ≤ 8 && f 0x35 3 == 0 && bits v (8 * 0x68 + 40) 24 == 0
    && l.wsBase + l.wsLen ≤ 262144 && !(reduced && l.wsLen != 0) && f 0x80 128 == 0

/-- Read a launch record. -/
def readLaunch (u : EU) (va : Nat) : M s Nat := eWords u va 32

/-! ## Starting a dispatch (R68) -/

/-- Refuse the launch, or go on. -/
abbrev Launched (α : Type) := Except Byte α

/-- The object that holds an entry address. An object keeps the context number it was loaded under, also when `ctxld` puts its context under another (DESIGN CHOICE, log entry 85). -/
def objectAt (t : State) (ctx entry : Nat) : Option Obj :=
  t.objects.find? fun o => o.ctx == ctx && o.lo ≤ entry && entry < o.hi

/-- Pins of the kernel at an entry address. -/
def pinsAt (t : State) (ctx entry : Nat) : List (Nat × Nat) :=
  match (objectAt t ctx entry).bind fun o => o.kernels.find? fun k => k.1 == entry with
  | some k => k.2
  | none => []

/-- The checks of a command area header (R184). -/
def areaOk (va v : Nat) : Bool :=
  let f (off size : Nat) : Nat := bits v (8 * off) (8 * size)
  va % 128 == 0 && f 0 8 % 128 == 0 && f 8 8 % 8 == 0 && 1 ≤ f 0x10 4 && f 0x10 4 ≤ 2 ^ 20 && 1 ≤ f 0x14 4
    && 1 ≤ f 0x18 1 && f 0x19 7 == 0 && f 0x28 88 == 0

/-- Zero the count words of an area. -/
def zeroCounts (u : EU) (a : Area) : M s Unit := (List.range a.wheels).forM fun w => eWr u (a.counts + 8 * w) 8 0

/-- Register a command area for a dispatch; false when it is refused (R184). -/
def registerArea (u : EU) (a : Area) (sub : Nat) : M s Bool := do
  match ← worldOf u a.world with
  | none => pure false
  | some x => do
    let slots ← (List.range 64).mapM fun i => eRd u (x.areas + 8 * i) 8
    let counts ← (List.range a.wheels).mapM fun w => areaCount u a w
    let go : M s Bool := do
      eWr u (a.va + 0x20) 8 sub
      zeroCounts u a
      pure true
    if slots.contains a.va then
      if a.submit ≠ sub && counts.any (· ≠ 0) then pure false else go
    else match slots.zipIdx.find? fun x => x.1 == 0 with
      | none => pure false
      | some (_, i) => do
        eWr u (x.areas + 8 * i) 8 a.va
        go

/-- WS_BIND fields of an argument word. -/
def wsFields (x : DWord) : Nat × Nat := (bits x.toNat 0 32, bits x.toNat 32 32)

/-- A range that is being written, by a WSLOAD node or a `wsld`, one that stands in a saved context among them (R301). -/
def weightWriting (t : State) (base len : Nat) : Bool :=
  (t.nodes.any fun kv => kv.2.kind == 5 && kv.2.state == .started &&
    rangesMeet base len (wsFields kv.2.arg1).1 (wsFields kv.2.arg1).2) ||
  (t.jobs ++ (t.images.filter (·.2.live)).flatMap fun kv => kv.2.jobs).any fun kv => match kv.2.kind with
    | .weights _ _ w _ n _ => len != 0 && 65536 * base < w + n && w < 65536 * (base + len)
    | _ => false

/-- The chunks of a query-domain dispatch (R182). -/
def launchJoin (u : EU) (l : Launch) (view : Option Nat) : M s (List Nat) := do
  match ← readQuery u l.wheelsOrQuery.toNat with
  | some (x, q) =>
    let v := if l.viewWorld = q.world then view else none
    do
      if v.isNone then notSyncing u.ctx q.world else pure ()
      joinChunks u x q v
  | _ => pure []

/-- The launch of a node's record, by the order of R68. A pin to an enabled core of a C-die that does not serve is no refusal (DESIGN CHOICE, log entry 85). -/
def launchDispatch (u : EU) (n : Node) (sub v : Nat) (crown : Bool) : M s (Launched Dispatch) := do
  let t ← now
  let l := launchOf v
  let refuse (c : Byte) : M s (Launched Dispatch) := pure (.error c)
  match (objectAt t u.ctx l.entry.toNat).bind (·.refusal) with
  | some c => refuse c
  | none =>
    if l.priv && !crown then refuse eLaunchPriv
    else if !launchFieldsOk t.reduced v then refuse eLaunchField
    else do
      let viewed := l.viewWorld ≠ 0 || l.viewVersion ≠ 0
      let world ← if viewed then worldOf u l.viewWorld else pure none
      if viewed && world.isNone then refuse eLaunchField
      else do
        let q ← if l.query then readQuery u l.wheelsOrQuery.toNat else pure none
        let badQuery := l.query && q.isNone
        let head ← if l.cmdArea = 0 then pure 0 else eWords u l.cmdArea.toNat 16
        if badQuery || (l.cmdArea ≠ 0 && !areaOk l.cmdArea.toNat head) then refuse eLaunchField
        else
          let pins := pinsAt t u.ctx l.entry.toNat
          if pins.any fun p => !t.mg.coreMap.getLsbD p.2 then refuse eLaunchFit
          else if l.wsLen ≠ 0 && weightWriting t l.wsBase l.wsLen then stop .wait
          else do
            let view ← if viewed then pinVersion u l.viewWorld l.viewVersion.toNat else pure none
            if viewed && view.isNone then refuse eVersion
            else do
              let registered ← if l.cmdArea = 0 then pure true else do
                let a ← readArea u l.cmdArea.toNat
                registerArea u a sub
              if !registered then do
                match view, world with
                | some p, some _ => do
                  match ← worldOf u l.viewWorld with
                  | some x => do
                    let _ ← unpinVersion u x p
                    pure ()
                  | none => pure ()
                | _, _ => pure ()
                refuse eLaunchField
              else do
                let chunks ← if l.query then launchJoin u l view else pure []
                pure (.ok { sub := sub, order := n.order, ctx := u.ctx, node := some sub, launch := l,
                            wheels := if l.query then chunks.length else l.wheelsOrQuery.toNat, chunks := chunks,
                            joined := true, started := [], ended := 0, view := view, failed := none, doom := none, se := false,
                            acq := n.wts, wts := n.wts, pins := pins })

/-- Release the pin of a dispatch that ends (R191). -/
def unpinDispatch (u : EU) (d : Dispatch) : M s Unit := do
  match d.view with
  | none => pure ()
  | some p => match ← worldOf u d.launch.viewWorld with
    | some x => do
      let _ ← unpinVersion u x p
      pure ()
    | none => pure ()

/-! ## Admission (R62, R63, R70, R181, R182) -/

/-- A train at wheel start (R61, R66). -/
def Train.start (wheel index : Nat) (entry : DWord) (mask : Mask) : Train :=
  { wheel := wheel, index := index, pc := entry, em := mask, live := mask, s := [], v := [],
    p := Vector.replicate 8 0, sb := Vector.replicate 8 0, clause := none, trap := TrapRegs.reset, deferred := [],
    park := none, wait := none, keptPhase := none, watch := none, fifo := [], loads := [], inflight := [], xl := [],
    lastPage := perLane fun _ => none, tx := Tx.reset, cursors := Vector.replicate 2 none, seq := perLane fun _ => 0,
    ray := none, copies := 0, readyAge := 0, retired := 0, yielded := false, tokenWait := false, wtsMax := 0,
    gate := none, ending := false, stopped := false, resume := none, stall := false }

/-- A wheel may start: its turn in the start order, its pin, its core. Of two placement entries for one wheel the first pins it, and a wheel pinned to a core that does not serve in reduced service waits for full service (DESIGN CHOICE, log entries 49 and 85). -/
def mayAdmit (t : State) (d : Dispatch) (wheel core : Nat) : Bool :=
  d.joined && d.failed.isNone && ctxRuns t d.ctx && wheel < d.wheels && !d.started.contains wheel
    && (d.launch.watched || (List.range wheel).all (d.started.contains ·)) && coreServes t core
    && (match d.pins.find? fun p => p.1 == wheel with
        | some p => p.2 == core
        | none => true)
    && roomFor t core d && spillRoom t core d.ctx

/-- Accesses that the launcher makes for a dispatch. -/
def Dispatch.eu (d : Dispatch) : EU := { serviceEU d.ctx with node := d.node }

/-- The chunk a wheel runs over and its occupancy; a query that marks a type W raises CVER to CURVER there (R181, R182). -/
def chunkStart (u : EU) (d : Dispatch) (k : Nat) : M s (Nat × Nat) := do
  let t ← now
  match ← readQuery u d.launch.wheelsOrQuery.toNat with
  | some (x, q) => do
    let c := throughMap t u.ctx x.w (if d.launch.viewWorld = x.w then d.view else none) k
    let occ ← eWords u (x.chunkVa c + 2048) 4
    let cver ← eRd u (x.chunkVa c + 2088) 4
    if q.writes.isEmpty || x.curver ≤ cver then pure () else eWr u (x.chunkVa c + 2088) 4 x.curver
    pure (c, occ)
  | _ => pure (k, 0)

/-- Make the wheel and its trains resident. -/
def startWheel (dk : Nat) (d : Dispatch) (wheel core : Nat) (chunk : Option Nat) (occ : Nat) : M s Unit := do
  let wk ← freshId
  let w : Wheel :=
    { dispatch := dk, index := wheel, core := core, chunk := chunk, local_ := [], tiles := Vector.replicate 8 Tile.reset,
      geos := Vector.replicate 4 none, rings := Vector.replicate 4 none, colls := [] }
  upd (.wheel wk (some w))
  upd (.dispatch dk (some { d with started := wheel :: d.started }))
  (List.range d.launch.trains).forM fun i => do
    let id ← freshId
    let mask : Mask := if d.launch.query then BitVec.ofNat 32 (bits occ (32 * i) 32) else 0xFFFFFFFF
    upd (.train id (some (Train.start wk i d.launch.entry mask)))
  let t ← now
  let c := t.core core
  upd (.core core { c with clock := max c.clock d.acq })

/-- Hold a node's operation on a translation fault and report it (R199, R345, R352). -/
def holdNode (k : Nat) (ctx : Nat) (page : DWord) (kind : BitVec 3) (present malformed : Bool) : M s Unit := do
  modNode k fun n => { n with held := true }
  bareFault serviceCore ctx page kind present malformed (k % 2 ^ 32)

/-- The node of a dispatch is held by a fault. -/
def nodeHeld (t : State) (d : Dispatch) : Bool :=
  match d.node.bind fun k => AMap.get? t.nodes k with
  | some n => n.held
  | none => false

/-- WHEEL_ADMIT. -/
def execWheelAdmit (dispatch wheel core : Nat) (s : State) : Out :=
  runE s do
    let t ← now
    match AMap.get? t.dispatches dispatch with
    | none => pure ()
    | some d =>
      if !mayAdmit t d wheel core || nodeHeld t d then pure ()
      else
        let go : M s Unit :=
          if d.launch.query then do
            let (c, occ) ← chunkStart d.eu d (d.chunks.getD wheel 0)
            startWheel dispatch d wheel core (some c) occ
          else startWheel dispatch d wheel core none 0
        match ← tryM go with
        | .ok () => pure ()
        | .error (.held page kind present malformed) => holdNode (d.node.getD 0) d.ctx page kind present malformed
        | .error (.trap c _ _) => updAll (failUpds t dispatch c 0)
        | .error .wait => pure ()
        | .error e => stop e

/-! ## The end of trains and wheels (R84) -/

/-- Nothing of the train is left: FIFO drained, instructions complete, deferred traps delivered. -/
def trainDrained (t : State) (id : Nat) (x : Train) : Bool :=
  quiet x (t.core (t.coreOf x)) id && x.inflight.isEmpty && x.deferred.isEmpty && !hasOps t.esu id && !hasOps t.matrix id
    && !hasOps t.stream id && !hasOps t.ray id && !(t.tlbis.any fun i => i.train == id && !i.begun)

/-- The word a train stands at waits, as things are now, for a copy that other trains of its wheel have not joined: for a register or a scoreboard of it, or to open a fifth collective (R47, R248). -/
def standsAtCopy (t : State) (x : Train) : Bool :=
  x.stall && (match t.wheelOf x with | some w => !w.colls.isEmpty | none => false) &&
    match x.clause with
    | none => false
    | some c => match decodeHeader c.word with
      | none => false
      | some h => match decodeWord (wordClass h c.idx).1 (wordClass h c.idx).2 c.cur with
        | .ok i => x.interlocked (instrUse i) 0 || x.sbFull (instrUse i).sb || (isCopy i && copyFull t x)
        | .error _ => false

/-- A train inside a clause may stand for ever at an instruction: what it waits for would come from another train, a grant or a replay (R75). A page walk ends by itself, and so does the wait of lanes that reissue. -/
def standsStill (t : State) (x : Train) : Bool :=
  x.waiting || x.tokenWait || standsAtCopy t x || (match x.park with
    | some p => p.faulted && p.resume == 0
    | none => false)

/-- A train whose dispatch has failed stops at its next clause boundary and ends with it; one that would never reach the boundary ends where it stands (R75, log entry 77). -/
def failStops (t : State) (x : Train) : Bool :=
  (match t.dispatchOf x with | some d => d.failed.isSome | none => true) && (x.clause.isNone || standsStill t x)

/-- Queued work that a train of a failed dispatch leaves behind is discarded; a sync point that it had in progress has written nothing yet. -/
def discardWork (id : Nat) : M s Unit := do
  let t ← now
  updAll ((t.esu.filter fun kv => kv.2.train == id).map fun kv => .esu kv.1 none)
  updAll ((t.matrix.filter fun kv => kv.2.train == id).map fun kv => .matrix kv.1 none)
  updAll ((t.stream.filter fun kv => kv.2.train == id).map fun kv => .stream kv.1 none)
  updAll ((t.ray.filter fun kv => kv.2.train == id).map fun kv => .ray kv.1 none)
  upd (.syncs (t.syncs.filter fun p => p.train != id))
  upd (.tlbis (t.tlbis.filter fun i => i.train != id))

/-- Remove an ended train: its open lanes write nothing and its token is released (R241); its wheel and then its dispatch count it. With the wheel go its assembling collectives, its rings and what has not started of their transfers (R264). -/
def removeTrain (id : Nat) (x : Train) : M s Unit := do
  abortTx id 0xFFFFFFFF .preempt
  releaseToken id
  let t ← now
  let c := t.ctxOf x
  if (t.ctx c).tokenQueue.contains id then
    upd (.ctx c { t.ctx c with tokenQueue := (t.ctx c).tokenQueue.filter (· != id) })
  else pure ()
  let k := t.coreOf x
  let reached := max x.wtsMax (t.core k).clock
  upd (.train id none)
  upd (.tlbis (t.tlbis.filter fun i => i.train != id))
  let t ← now
  match AMap.get? t.wheels x.wheel with
  | none => pure ()
  | some w => do
    match AMap.get? t.dispatches w.dispatch with
    | some d => upd (.dispatch w.dispatch (some { d with wts := max d.wts reached }))
    | none => pure ()
    if t.trains.any fun kv => kv.2.wheel == x.wheel then pure ()
    else do
      updAll ((t.jobs.filter fun kv => kv.2.wheel == some x.wheel).map fun kv => .job kv.1 none)
      upd (.wheel x.wheel none)
      let t ← now
      match AMap.get? t.dispatches w.dispatch with
      | some d => upd (.dispatch w.dispatch (some { d with ended := d.ended + 1 }))
      | none => pure ()
      pump w.core

/-- A job must end before the allotment of its wheel is released: one that has started, and the drain of a slot that the wheel has released (R262, R264). -/
def Job.keepsWheel (j : Job) (failed : Bool) : Bool :=
  j.started || (!failed && match j.kind with
    | .ringDrain .. => true
    | _ => false)

/-- The train is the last of its wheel, and jobs keep the wheel: those of its rings that are due among them. -/
def wheelBusy (t : State) (id : Nat) (x : Train) : Bool :=
  let failed := match t.dispatchOf x with | some d => d.failed.isSome | none => true
  !(t.trains.any fun kv => kv.2.wheel == x.wheel && kv.1 != id) &&
    ((t.jobs.any fun kv => kv.2.wheel == some x.wheel && kv.2.keepsWheel failed) ||
      (!failed && match t.wheelOf x with
        | some w => w.rings.toList.any fun r => match r with
          | some r => r.slots.any fun s => match s with
            | .draining _ => true
            | _ => false
          | none => false
        | none => false))

/-- TRAIN_END: an open ray query is discarded, then the train ends once nothing of it is left; trains of a failed dispatch end at their boundary. -/
def execTrainEnd (train : Nat) (s : State) : Out :=
  runE s do
    let t ← now
    match AMap.get? t.trains train with
    | none => pure ()
    | some x =>
      if !x.ending && !failStops t x then pure ()
      else do
        match x.ray with
        | some q =>
          if q.opened then
            upd (.train train (some ({ q.waits.foldl (fun y w => y.complete w.op) (x.complete q.op) with
              ray := some { q with opened := false, waits := [] } })))
          else pure ()
        | none => pure ()
        let t ← now
        match AMap.get? t.trains train with
        | none => pure ()
        | some x =>
          if failStops t x then do
            if quiet x (t.core (t.coreOf x)) train && !wheelBusy t train x then do
              discardWork train
              removeTrain train x
            else pure ()
          else if trainDrained t train x && !wheelBusy t train x then removeTrain train x
          else pure ()

/-! ## Objects (R38 to R41) -/

/-- Little-endian field of a file; what lies past the end of the file reads as zero (DESIGN CHOICE, log entry 49). -/
def fileField (f : List Byte) (off n : Nat) : Nat :=
  ((f.drop off).take n).foldr (fun b acc => b.toNat + 256 * acc) 0

/-! ### SHAKE256 (R38)

The manual names the function and not its steps, which are the standard's (log entry 76). A state is 25 words, word 5 y + x at column x and row y; nothing of it is tabulated. -/

/-- Multiplication by x modulo x^8 + x^6 + x^5 + x^4 + 1, which runs through the bits of the round constants. -/
def rcTimesX (r : Nat) : Nat := if 2 * r < 256 then 2 * r else (2 * r) ^^^ 0x171

/-- A round's constant from the generator's state, and the state after it: seven bits, at places 2^j - 1. -/
def rcDraw (r : Nat) : Nat × DWord :=
  (List.range 7).foldl (fun acc j =>
    (rcTimesX acc.1, if acc.1 % 2 = 1 then acc.2 ^^^ BitVec.ofNat 64 (2 ^ (2 ^ j - 1)) else acc.2)) (r, 0)

/-- Every word takes in the parities of two neighbouring columns. -/
def mixColumns (a : List DWord) : List DWord :=
  let par := (List.range 5).map fun x => (a.zipIdx.filter fun w => w.2 % 5 == x).foldl (fun p w => p ^^^ w.1) (0 : DWord)
  a.zipIdx.map fun w => w.1 ^^^ par.getD ((w.2 + 4) % 5) 0 ^^^ (par.getD ((w.2 + 1) % 5) 0).rotateLeft 1

/-- The words but the first change places along one cycle, each turned by the next triangular number: `k` steps are left, and `w` goes from (x, y) to its next place. -/
def cycleWords : Nat → Nat → Nat → DWord → List DWord → List DWord
  | 0, _, _, _, a => a
  | k + 1, x, y, w, a =>
    let i := y + 5 * ((2 * x + 3 * y) % 5)
    cycleWords k y ((2 * x + 3 * y) % 5) (a.getD i 0) (a.set i (w.rotateLeft ((24 - k) * (25 - k) / 2 % 64)))

/-- Each word of a row takes in its right neighbour's complement and the next word. -/
def mixRow : List DWord → List DWord
  | [p, q, r, u, v] => [p ^^^ (r &&& ~~~q), q ^^^ (u &&& ~~~r), r ^^^ (v &&& ~~~u), u ^^^ (p &&& ~~~v), v ^^^ (q &&& ~~~p)]
  | l => l

/-- Rounds of the permutation, with the state of the constants' generator. -/
def permute : Nat → Nat → List DWord → List DWord
  | 0, _, a => a
  | n + 1, r, a =>
    let (r', c) := rcDraw r
    let a := mixColumns a
    let a := cycleWords 24 1 0 (a.getD 1 0) a
    let a := (List.range 5).flatMap fun y => mixRow ((a.drop (5 * y)).take 5)
    permute n r' (a.modify 0 (· ^^^ c))

/-- The first 8 bytes of SHAKE256 of a string shorter than one block of 136 bytes: the string, its end mark and the block's last bit are the first 17 words. -/
def shake256 (bytes : List Nat) : DWord :=
  let block := bytes.foldr (fun b acc => b + 256 * acc) (0x1F : Nat) + 2 ^ (8 * 136 - 1)
  (permute 24 1 ((List.range 25).map fun i => BitVec.ofNat 64 (block / 2 ^ (64 * i)))).headD 0

/-- The defect-map signature of the part (R38). -/
def signature (map : BitVec 800) : DWord := shake256 ((List.range 100).map fun j => bits map.toNat (8 * j) 8)

/-- A variant entry (Table 2-4) and the sections and kernels of its image. -/
structure Variant where
  sig : Nat
  off : Nat
  size : Nat
  nsec : Nat
  nsym : Nat
  nrel : Nat
  deriving DecidableEq, Repr

def variantOf (f : List Byte) (i : Nat) : Variant :=
  let o := 0x40 + 32 * i
  { sig := fileField f o 8, off := fileField f (o + 8) 8, size := fileField f (o + 16) 8, nsec := fileField f (o + 24) 2,
    nsym := fileField f (o + 26) 2, nrel := fileField f (o + 28) 4 }

/-- A section: kind, log2 alignment, size, offset in its image, reserved word. -/
structure Sect where
  kind : Nat
  align : Nat
  size : Nat
  off : Nat
  rsvd : Nat
  deriving DecidableEq, Repr

def sections (f : List Byte) (v : Variant) : List Sect :=
  (List.range v.nsec).map fun i =>
    let o := v.off + 32 * i
    { kind := fileField f o 4, align := fileField f (o + 4) 4, size := fileField f (o + 8) 8, off := fileField f (o + 16) 8,
      rsvd := fileField f (o + 24) 8 }

/-- A symbol: section, kind, reserved word, value. -/
structure Sym where
  sec : Nat
  kind : Nat
  rsvd : Nat
  value : Nat
  deriving DecidableEq, Repr

def symbols (f : List Byte) (v : Variant) : List Sym :=
  (List.range v.nsym).map fun i =>
    let o := v.off + 32 * v.nsec + 64 * i
    { sec := fileField f (o + 48) 2, kind := fileField f (o + 50) 2, rsvd := fileField f (o + 52) 4,
      value := fileField f (o + 56) 8 }

/-- Relocations: section, kind, symbol, offset. -/
def relocs (f : List Byte) (v : Variant) : List (Nat × Nat × Nat × Nat) :=
  (List.range v.nrel).map fun i =>
    let o := v.off + 32 * v.nsec + 64 * v.nsym + 16 * i
    (fileField f o 2, fileField f (o + 2) 2, fileField f (o + 4) 4, fileField f (o + 8) 8)

/-- Placement entries: symbol, wheel, core, and whether bytes 10 to 15 are zero (R41). Bytes past the last whole entry are ignored (DESIGN CHOICE, log entry 49). -/
def placements (f : List Byte) (v : Variant) : List (Nat × Nat × Nat × Bool) :=
  ((sections f v).filter fun x => x.kind == 4).flatMap fun x => (List.range (x.size / 16)).map fun i =>
    let o := v.off + x.off + 16 * i
    (fileField f o 4, fileField f (o + 4) 4, fileField f (o + 8) 2, fileField f (o + 10) 6 == 0)

/-- The checks of the header, of reserved fields and of the placement sections (R39 to R41). R40 and R41 name no refusal for NVAR outside 1 to 8, for an OFFSET that is no multiple of 256, or for a second placement section of a variant: the model refuses the object as malformed (log entry 49). Nor do they name one for contents that reach past the file or past SIZE, which is not checked (DESIGN CHOICE, log entry 49). -/
def objectOk (f : List Byte) : Bool :=
  let nvar := fileField f 6 2
  let vars := (List.range nvar).map (variantOf f)
  let places (v : Variant) : Bool := (sections f v).any fun x => x.kind == 4
  fileField f 0 4 == 0x01424F4E && fileField f 4 2 == 3 && 1 ≤ nvar && nvar ≤ 8 && fileField f 8 4 == 0x300
    && fileField f 0xC 4 < 2 && fileField f 0x10 48 == 0
    && vars.all (fun v => v.off % 256 == 0 && (sections f v).all (fun x => x.rsvd == 0) && (symbols f v).all (fun x => x.rsvd == 0)
        && ((sections f v).filter fun x => x.kind == 4).length ≤ 1
        && !(places v && v.sig == 0) && !(places v && fileField f 0xC 4 == 0)
        && (placements f v).all (fun p => p.2.2.2 && (match (symbols f v)[p.1]? with
            | some y => y.kind == 1
            | none => false)))

/-- Load addresses of the sections of an image from a base, in order; a place section takes none. -/
def sectionBases (base : Nat) : List Sect → List Nat
  | [] => []
  | x :: l =>
    if x.kind = 4 then base :: sectionBases base l
    else
      let a := (base + 2 ^ x.align - 1) / 2 ^ x.align * 2 ^ x.align
      a :: sectionBases (a + x.size) l

/-- The file's bytes of a section, cut short at the end of the file; a section of a kind above 4 is loaded as data (DESIGN CHOICE, log entry 49). -/
def sectionBytes (f : List Byte) (v : Variant) (x : Sect) : List Byte :=
  if x.kind = 3 then List.replicate x.size 0 else ((f.drop (v.off + x.off)).take x.size)

/-- Write bytes in a context through its translation. -/
def writeBytes (u : EU) (va : Nat) : List Byte → M s Unit
  | [] => pure ()
  | b :: l => do
    eWr u va 1 b.toNat
    writeBytes u (va + 1) l

/-- The value of a symbol at its load address; one of a kind above 3 is taken as a label, and a section past the table has base 0 (DESIGN CHOICE, log entry 49). -/
def symValue (bases : List Nat) (y : Sym) : Nat := if y.kind = 3 then y.value else bases.getD y.sec 0 + y.value

/-- Patch one relocated field (Table 2-5); a kind that the table does not list is patched as IMM32 (log entry 49). -/
def patch (u : EU) (at_ kind value : Nat) : M s Unit :=
  match kind with
  | 1 => eWr u at_ 8 (value % 2 ^ 64)
  | 2 => eWr u at_ 4 (value % 2 ^ 32)
  | 3 => eWr u at_ 4 (value / 2 ^ 32 % 2 ^ 32)
  | _ => eWr u at_ 4 (value % 2 ^ 32)

/-- OBJECT_LOAD: the Crown loader checks an object, chooses its variant and writes it from `base` on in the context (R39 to R41). A relocation whose symbol is past the table is skipped, one of a section past the table has base 0, of two variants with one signature the first is loaded, and a load whose write meets a translation fault or a failed check records no object (DESIGN CHOICE, log entry 49). -/
def execObjectLoad (ctx : Nat) (file : List (BitVec 8)) (base : DWord) (s : State) : Out :=
  runE s do
    let t ← now
    let vars := (List.range (fileField file 6 2)).map (variantOf file)
    let refuse (c : Byte) : M s Unit := do
      let o : Obj := { ctx := ctx, lo := base.toNat, hi := base.toNat + file.length, refusal := some c, kernels := [] }
      upd (.objects (o :: t.objects))
    if !objectOk file then refuse eObjFormat
    else
      let sig := (signature t.mg.coreMap).toNat
      match (vars.find? fun v => v.sig == sig).or (vars.find? fun v => v.sig == 0) with
      | none => refuse eNoVariant
      | some v => do
        let secs := sections file v
        let bases := sectionBases base.toNat secs
        let u := serviceEU ctx
        let syms := symbols file v
        let put : M s Unit := do
          (secs.zip bases).forM fun x => if x.1.kind = 4 then pure () else writeBytes u x.2 (sectionBytes file v x.1)
          (relocs file v).forM fun r =>
            match syms[r.2.2.1]? with
            | some y => patch u (bases.getD r.1 0 + r.2.2.2) r.2.1 (symValue bases y)
            | none => pure ()
        match ← tryM put with
        | .ok () => do
          let hi := (secs.zip bases).foldl (fun m x => if x.1.kind = 4 then m else max m (x.2 + x.1.size)) base.toNat
          let kernels := (syms.zipIdx.filter fun y => y.1.kind == 1).map fun y =>
            (symValue bases y.1, ((placements file v).filter fun p => p.1 == y.2).map fun p => (p.2.1, p.2.2.1))
          let o : Obj := { ctx := ctx, lo := base.toNat, hi := hi, refusal := none, kernels := kernels }
          let t ← now
          upd (.objects (o :: t.objects))
        | .error (.held page kind present malformed) => bareFault serviceCore ctx page kind present malformed 0
        | .error _ => pure ()

end Sys2Proof.Machine
end

