-- ==== Sys2Proof/Machine/Graph.lean ====
section
/-! DEFINITION. The Remontoir: rings, nodes, footprints and edges, the ready pool, completion, failure and replay, and class G (R10, R341 to R358). -/

namespace Sys2Proof.Machine

variable {s : State}

/-! ## Memory accesses of the Remontoir (R345, R352) -/

/-- Write `n` bytes of one sector with a write time past `floor`. -/
def placeWrite (u : EU) (va n v floor : Nat) : M s Nat := do
  let pa ← engineX u.core u.ctx u.priv false va kWrite
  let t ← now
  if lockedBytes t.locks pa n then stop .wait
  else if t.region pa == .mmio then do
    mmioWrite false (pa - mmioBase) n v
    pure 0
  else homeWrite none floor pa n v

/-! ## Rings (R341, R342) -/

def ringRecOf (v : Nat) : Option RingRec :=
  let f (off size : Nat) : Nat := bits v (8 * off) (8 * size)
  let r : RingRec := { slots := f 0 8, widx := f 8 8, head := f 0x10 8, errlog := f 0x18 8, log2n := f 0x20 1,
                       retry := f 0x21 1, quantum := f 0x22 2 }
  if r.slots % 128 == 0 && r.widx % 8 == 0 && r.head % 8 == 0 && r.errlog % 32 == 0 && 3 ≤ r.log2n && r.log2n ≤ 16
      && r.retry ≤ 7 && 1 ≤ r.quantum && f 0x24 28 == 0 then some r else none

/-- Writable bits of RING_CTL: CTX, CROWN, EN. -/
def ringCtlMask (v : Word) : Word := v &&& 0xF3

/-- The zero of HEAD that an enable writes: a locked granule keeps it due, a refused write is left out, a translation fault is the caller's (R341, log entry 44). -/
def zeroHead (k : Nat) : M s Unit := do
  let t ← now
  let r := t.ring k
  if !r.headDue then pure ()
  else match ← tryM (placeWrite (serviceEU (ringCtx r.ctl)) r.rec_.head 8 0 0) with
    | .ok _ => modRing k fun r => { r with headDue := false }
    | .error (.trap _ _ _) => modRing k fun r => { r with headDue := false }
    | .error e => stop e

/-- A translation fault in the ring's own accesses holds the ring and is reported with the number that the next packet would receive (R345). -/
def ringHolds (k : Nat) (m : M s Unit) : M s Unit := do
  match ← tryM m with
  | .ok () => pure ()
  | .error (.held page kind present malformed) => do
    modRing k fun r => { r with held := true }
    let t ← now
    let r := t.ring k
    bareFault serviceCore (ringCtx r.ctl) page kind present malformed (r.c % 2 ^ 32)
  | .error .wait => pure ()
  | .error e => stop e

/-- Set EN: read the record, zero HEAD, H and KT, move the count on; EN stays 0 for a record that breaks Table 20-2 or cannot be read (R341). -/
def enableRing (k : Nat) (ctl : Word) : M s Unit := do
  let t ← now
  let va := (t.ring k).recVa.toNat
  let rec_ : M s (Option RingRec) :=
    if va % 64 = 0 then do
      let v ← eWords (serviceEU (ringCtx ctl)) va 8
      pure (ringRecOf v)
    else pure none
  match ← tryM rec_ with
  | .ok o =>
    match o with
    | some x => do
      modRing k fun r => { r with
        ctl := ctl, h := 0, kt := 0, rec_ := x, held := false, headDue := true, waitNs := 0
        c := if r.c = 0 then 0 else (r.c / 2 ^ 32 + 1) * 2 ^ 32 % 2 ^ 58 }
      ringHolds k (zeroHead k)
    | none => modRing k fun r => { r with ctl := ctl &&& 0xF2 }
  | .error _ => modRing k fun r => { r with ctl := ctl &&& 0xF2 }

/-- RING_ENABLE: a write of RING_CTL; in the safe state the Crown ignores writes of EN (R378). -/
def execRingEnable (ring : Nat) (ctl : Word) (s : State) : Out :=
  runE s do
    let t ← now
    let old := (t.ring ring).ctl
    let new := ringCtlMask ctl
    let new := if t.mg.svc == 5 then (new &&& 0xF2) ||| (old &&& 1) else new
    if 64 ≤ ring then pure ()
    else if ringEn new && !ringEn old then enableRing ring new
    else modRing ring fun r => { r with ctl := new }

/-! ## Node records (R346, Table 20-3) -/

/-- A node record in 1,024 bits. -/
structure NodeRec where
  kind : Nat
  prio : Nat
  nfp : Nat
  ndep : Nat
  flags : Nat
  arg0 : Nat
  arg1 : Nat
  fp : Nat
  deps : List Nat
  token : Nat
  tokval : Nat
  deriving DecidableEq, Repr

def nodeRecOf (v : Nat) : NodeRec :=
  let f (off size : Nat) : Nat := bits v (8 * off) (8 * size)
  { kind := f 0 1, prio := f 1 1, nfp := f 2 1, ndep := f 3 1, flags := f 4 4, arg0 := f 8 8, arg1 := f 0x10 8, fp := f 0x18 8,
    deps := (List.range 4).map fun i => f (0x20 + 8 * i) 8, token := f 0x40 8, tokval := f 0x48 8 }

/-- The record keeps Tables 20-3 and 20-4, as far as it shows alone; the reserved bits of PRIO and FLAGS are ignored, for which the table names no check (R3). -/
def nodeRecOk (v : Nat) : Bool :=
  let n := nodeRecOf v
  1 ≤ n.kind && n.kind ≤ 6 && n.nfp ≤ 16 && n.ndep ≤ 4
    && (!bitAt n.flags 2 || n.kind == 3 || n.kind == 4) && n.fp % 16 == 0 && (n.nfp != 0 || n.fp == 0)
    && (n.deps.drop n.ndep).all (· == 0) && n.token % 8 == 0 && bits v (8 * 0x50) (8 * 44) == 0
    && (match n.kind with
        | 1 | 2 => n.arg0 % 256 == 0 && n.arg1 == 0
        | 3 | 4 => n.arg0 % 32 == 0 && 1 ≤ n.arg1 && n.arg1 ≤ 256
        | 5 => n.arg0 % 256 == 0
        | _ => n.arg0 % 8 == 0)

/-! ## Footprints (R197, R348, R349) -/

/-- One declared entry (Table 20-5); its reserved bits are ignored (R3). -/
def fpOf (v : Nat) : Option Fp :=
  let kind := bits v 124 4
  let acc := bits v 120 2
  let len := bits v 64 48
  let where_ := bits v 0 64
  let f : Fp := { kind := kind, reads := bitAt acc 0, writes := bitAt acc 1, base := where_, len := len,
                  world := bits v 0 8, type := bits v 8 10, scope := bits v 18 2, pinned := false, sync := false }
  let ok := acc != 0 &&
    (match kind with
     | 1 => 1 ≤ len && where_ < 2 ^ 55
     | 2 => len == 0 && f.scope != 3 && bits v 20 44 == 0
     | 3 => true
     | _ => false)
  if ok then some f else none

/-- A derived entity entry. -/
def fpEntity (world type scope : Nat) (w : Bool) : Fp :=
  { kind := 2, reads := !w, writes := w, base := 0, len := 0, world := world, type := type, scope := scope, pinned := false, sync := false }

/-- The entity entries of a dispatch whose WORLD_VIEW pins their world are marked so (R197). -/
def Fp.pin (world : Nat) (f : Fp) : Fp := { f with pinned := f.kind == 2 && f.world == world && world != 0 }

/-- A SYNC node declares everything of its world for reading and writing, whatever ACCESS its entry gives (R197). -/
def Fp.syncEntry (f : Fp) : Fp := if f.kind = 2 && f.scope = 2 then { f with reads := true, writes := true, sync := true } else f

/-- A derived weight entry. -/
def fpWeight (base len : Nat) (w : Bool) : Fp :=
  { kind := 3, reads := !w, writes := w, base := base, len := len, world := 0, type := 0, scope := 0, pinned := false, sync := false }

/-- Places of two entity entries of one world intersect: an entry of everything meets all, but that of a SYNC node not the R entries of a pinned view; types meet themselves, structure meets neither (R197). -/
def entityMeets (a b : Fp) : Bool :=
  a.world == b.world &&
    (if a.scope == 2 || b.scope == 2 then !(b.sync && a.pinned && !a.writes) && !(a.sync && b.pinned && !b.writes)
     else a.scope == 0 && b.scope == 0 && a.type == b.type)

/-- Two entries overlap; a range of length 0 has no place (R349). -/
def Fp.overlaps (a b : Fp) : Bool :=
  (a.writes || b.writes) && a.kind == b.kind &&
    (if a.kind = 2 then entityMeets a b else rangesMeet a.base a.len b.base b.len)

/-- The declared entries of a record, none when one breaks Table 20-5. -/
def declared (u : EU) (n : NodeRec) : M s (Option (List Fp)) := do
  let l ← (List.range n.nfp).mapM fun i => do
    let v ← eWords u (n.fp + 16 * i) 2
    pure (fpOf v)
  pure (if l.all (·.isSome) then some (l.filterMap id) else none)

/-- Included types of a query record, with their W marks. -/
def queryTypes (v : Nat) : List (Nat × Bool) :=
  (List.range (min 8 (bits v 8 8))).map fun i => (bits v (64 + 16 * i) 10, bitAt v (64 + 16 * i + 15))

/-- What acceptance derives of a node: its entries, its cost, its IDEMPOTENT flag; or a cause. -/
structure Derived where
  fps : List Fp
  cost : Nat
  idempotent : Bool
  deriving DecidableEq, Repr

/-- Entries a launch record adds. -/
def launchFps (u : EU) (n : NodeRec) (l : Launch) : M s (List Fp) := do
  let q ← if l.query then do
      let v ← eWords u l.wheelsOrQuery.toNat 16
      let w := bits v 0 8
      pure ((queryTypes v).map fun x => fpEntity w x.1 0 x.2)
    else pure []
  let a ← if l.cmdArea = 0 then pure [] else do
      let v ← eRd u (l.cmdArea.toNat + 0x18) 1
      pure [fpEntity v 0 1 true]
  let w := if l.wsLen = 0 then [] else [fpWeight l.wsBase l.wsLen false]
  let x := if n.kind = 5 then [fpWeight (bits n.arg1 0 32) (bits n.arg1 32 32) true] else []
  pure (q ++ a ++ w ++ x)

/-- The footprint and cost of a node whose record is in order (R348, R351). -/
def derive (u : EU) (n : NodeRec) : M s (Except Byte Derived) := do
  match ← declared u n with
  | none => pure (.error eNodeField)
  | some fps => do
    let fps := if n.kind = 2 then fps.map Fp.syncEntry else fps
    match n.kind with
    | 3 | 4 => pure (.ok ⟨fps, n.arg1, bitAt n.flags 2⟩)
    | 6 => pure (.ok ⟨fps, 1, false⟩)
    | _ => do
      let v ← readLaunch u n.arg0
      let l := launchOf v
      let more ← launchFps u n l
      let cost := if n.kind = 1 then (if l.query then 8 else min (2 ^ 20) (l.wheelsOrQuery.toNat * l.trains)) else 1
      let ok := match n.kind with
        | 2 => l.sync && !l.query && l.wheelsOrQuery == 1 && l.trains == 1 && fps.any (·.sync)
        | 5 => l.priv && !l.query && l.wheelsOrQuery == 1 && l.trains == 1
        | _ => true
      pure (if ok then .ok ⟨(fps ++ more).map (Fp.pin l.viewWorld), cost, l.idempotent⟩ else .error eNodeField)

/-! ## Acceptance (R345, R347, R349, R350) -/

def nodeKey (ring c : Nat) : Nat := ring * 2 ^ 58 + c

def Node.incomplete (n : Node) : Bool := n.state == .waiting || n.state == .started

/-- The node has failed before its start: its log entry is all that is still to come (R350, R353). -/
def Node.doomed (n : Node) : Bool := n.state == .waiting && n.cause != 0

/-- Incomplete nodes of a ring; one that has failed counts as finished (R353). -/
def ringNodes (t : State) (k : Nat) : AMap Node :=
  t.nodes.filter fun kv => kv.2.ring == k && kv.2.incomplete && !kv.2.doomed

/-- Derived edges of a new node (R349). -/
def derivedEdges (t : State) (k : Nat) (serial : Bool) (fps : List Fp) : List Nat :=
  ((ringNodes t k).filter fun kv => serial || kv.2.serial || kv.2.fps.any fun a => fps.any fun b => a.overlaps b).map (·.1)

/-- Explicit predecessors (R350): edges, the write times of those complete, and a cause. -/
def depEdges (t : State) : List Nat → List Nat × Nat × Byte
  | [] => ([], 0, 0)
  | d :: l =>
    let (es, w, c) := depEdges t l
    match AMap.get? t.nodes d with
    | none => (es, w, eNodeField)
    | some n =>
      match if n.doomed then .failed else n.state with
      | .complete => (es, max w n.wts, c)
      | .failed => (es, w, if c = 0 then ePredFailed else c)
      | _ => (d :: es, w, c)

/-- IDEMPOTENT of a node whose footprint could not be derived: the node's own flag, or that of its launch record where it can be read (R354). -/
def flaggedIdempotent (u : EU) (n : NodeRec) : M s Bool := do
  match n.kind with
  | 3 | 4 => pure (bitAt n.flags 2)
  | 6 => pure false
  | _ => match ← tryM (readLaunch u n.arg0) with
    | .ok v => pure (launchOf v).idempotent
    | .error (.trap _ _ _) => pure false
    | .error e => stop e

/-- The node of packet H of ring k, with what acceptance derived of it, and a cause where it failed. -/
def acceptNode (k key v slotWts : Nat) (x : Derived) (cause : Byte) : M s Unit := do
  let t ← now
  let n := nodeRecOf v
  let order ← freshId
  let serial := bitAt n.flags 0
  let (deps, w, dc) := if cause = 0 then depEdges t (n.deps.take n.ndep) else ([], 0, 0)
  let cause := if cause = 0 then dc else cause
  let edges := (derivedEdges t k serial x.fps ++ deps).dedup
  upd (.node key { ring := k, ctx := ringCtx (t.ring k).ctl, order := order, kind := n.kind, prio := n.prio % 4,
                   serial := serial, hold := bitAt n.flags 1, idempotent := x.idempotent, arg0 := BitVec.ofNat 64 n.arg0,
                   arg1 := BitVec.ofNat 64 n.arg1, token := BitVec.ofNat 64 n.token, tokval := BitVec.ofNat 64 n.tokval,
                   fps := x.fps, edges := edges, state := .waiting, cause := cause, trappc := 0, se := false, replays := 0,
                   jobs := [], todo := [], core := 0, cost := x.cost, held := false, refused := false, signalled := false, wts := max w slotWts })

/-- The VA of the slot of packet H. -/
def Ring.slotVa (r : Ring) : Nat := r.rec_.slots + 128 * (r.h.toNat % 2 ^ r.rec_.log2n)

/-- The ring may take a packet: enabled, kicked past H, room in the window, not held, its host there (R345, R374). -/
def ringMay (t : State) (k : Nat) : Bool :=
  let r := t.ring k
  ringEn r.ctl && !r.headDue && r.h != r.kt && !r.held && !t.ringGone k && (ringNodes t k).length < 4096

/-- What the slot of packet H shows. -/
inductive SlotRead where
  | stale
  | refused
  | packet (v wts : Nat)
  deriving DecidableEq, Repr

/-- Read the stamp, and with a match the packet, at their home. -/
def readSlot (u : EU) (r : Ring) : M s SlotRead := do
  match ← tryM (engineX u.core u.ctx false false r.slotVa kRead) with
  | .ok pa => do
    let v ← homeRead none pa 128
    let t ← now
    pure (if bits v (8 * 0x7C) 32 = (~~~r.h).toNat then .packet v (t.line pa).wts else .stale)
  | .error (.trap _ _ _) => pure .refused
  | .error e => stop e

/-- Take packet H as a node; the write of HEAD is a release, past the write of the stamp that was acquired (R345, R361). -/
def takePacket (k : Nat) (r : Ring) (u : EU) : M s Unit := do
  match ← readSlot u r with
  | .stale => pure ()
  | .refused => modRing k fun r => { r with stuck := true }
  | .packet v wts => do
    let n := nodeRecOf v
    let d ← if !nodeRecOk v then pure (.error eNodeField) else do
      match ← tryM (derive u n) with
      | .ok d => pure d
      | .error (.trap c _ _) => pure (.error c)
      | .error e => stop e
    match d with
    | .ok x => acceptNode k (nodeKey k r.c) v wts x 0
    | .error c => do
      let idem ← if c = eNodeField then pure false else flaggedIdempotent u n
      acceptNode k (nodeKey k r.c) v wts ⟨[], 1, idem⟩ c
    match ← tryM (placeWrite u r.rec_.head 8 (r.h + 1).toNat wts) with
    | .ok _ => pure ()
    | .error (.trap _ _ _) => pure ()
    | .error e => stop e
    modRing k fun r => { r with c := (r.c + 1) % 2 ^ 58, h := r.h + 1, stuck := false, waitNs := 0 }

/-- PACKET_ACCEPT. A translation fault holds the ring; what is due of the ring's enable comes first. -/
def execPacketAccept (ring : Nat) (s : State) : Out :=
  runE s do
    let t ← now
    let r := t.ring ring
    if 64 ≤ ring || !ringEn r.ctl || r.held then pure ()
    else if r.headDue then ringHolds ring (zeroHead ring)
    else if !ringMay t ring then pure ()
    else ringHolds ring (takePacket ring r (serviceEU (ringCtx r.ctl)))

/-- STUCK: the slot has stayed unmatched for 64 µs. -/
def execStuck (ring : Nat) (s : State) : Out :=
  runE s do
    let t ← now
    let r := t.ring ring
    if 64 ≤ ring || !ringMay t ring || r.waitNs < 64000 then pure ()
    else match ← tryM (readSlot (serviceEU (ringCtx r.ctl)) r) with
      | .ok .stale => modRing ring fun r => { r with stuck := true }
      | _ => pure ()

/-! ## The ready pool (R351) -/

/-- A start that a rule holds back: a SYNC node that a fifth version would need (R192), a WSLOAD whose range is bound (R10), a dispatch whose bound range is being written (R301). -/
def nodeBlocked (t : State) (n : Node) : Bool :=
  match n.kind with
  | 2 => match n.fps.find? (·.sync) with
    | none => false
    | some f => (peekM t do
        match ← worldOf (serviceEU n.ctx) f.world with
        | some x => pure (decide (4 ≤ x.pinned.dedup.length))
        | none => pure false).getD false
  | 5 => rangeBound t (wsFields n.arg1).1 (wsFields n.arg1).2
  | 1 => n.fps.any fun f => f.kind == 3 && !f.writes && weightWriting t f.base f.len
  | _ => false

/-- Ready to start: its predecessors complete, not held, its context running (R351, R355). -/
def nodeReady (t : State) (n : Node) : Bool :=
  n.state == .waiting && n.cause == 0 && n.edges.isEmpty && !n.hold && !n.held && ctxRuns t n.ctx && !nodeBlocked t n

def readyNodes (t : State) : AMap Node := t.nodes.filter fun kv => nodeReady t kv.2

/-- The oldest of some nodes. -/
def oldest (l : AMap Node) : Option (Nat × Node) :=
  l.foldl (fun b kv => match b with
    | none => some kv
    | some x => if kv.2.order < x.2.order then some kv else b) none

def deficitOf (r : Ring) (p : Nat) : Nat := r.deficit[p % 4]'(Nat.mod_lt _ (by decide))

def setDeficit (k p v : Nat) : M s Unit :=
  modRing k fun r => { r with deficit := r.deficit.set (p % 4) v (Nat.mod_lt _ (by decide)) }

/-- Write a token or SIGNAL word at its home with release order, past all that the node has written before it; a token write is a side effect (R352, R354). -/
def writeToken (k : Nat) (n : Node) (va v : DWord) : M s Unit := do
  let w ← placeWrite (serviceEU n.ctx) va.toNat 8 v.toNat n.wts
  modNode k fun x => { x with se := true, wts := max x.wts w }

/-- One entry of a copy list: a job of one slice, at its place in the checker's order (R346). -/
def copyEntry (n : Node) (i : Nat) : M s (Nat × Slice) := do
  let u := serviceEU n.ctx
  let v ← eWords u (n.arg0.toNat + 32 * i) 4
  let kind : CopyKind := match bits v (8 * 24) 8 with
    | 1 => .cpym
    | 2 => .cpt
    | 3 => .cpg
    | _ => .cpy
  if bits v (8 * 25) 56 ≠ 0 || 4 ≤ bits v (8 * 24) 8 then stop (.trap eNodeField none none)
  else do
    let ls := BitVec.ofNat 64 (bits v 0 64)
    let ld := BitVec.ofNat 64 (bits v 64 64)
    let src ← readLayout u.core n.ctx false ls
    let dst ← readLayout u.core n.ctx false ld
    if src.loc || dst.loc || ((src.owned || dst.owned) && n.kind == 3) then stop (.trap eNodeField none none)
    else do
      let x ← readSlice u.core n.ctx false { Slice.bare with kind := kind, ls := ls, ld := ld, src := src, dst := dst } (bits v 128 64)
      let order ← freshId
      pure (order, x)

/-- The stream engine that the Remontoir chooses: the lowest core that serves. -/
def copyCore (t : State) : Nat := ((List.range 800).find? fun c => coreServes t c).getD 0

/-- A node whose start is refused waits for its NODE_FAIL. -/
def refuseNode (k : Nat) (c : Byte) (refused : Bool) : M s Unit :=
  modNode k fun n => { n with state := .started, cause := c, refused := refused }

/-- A SYNC node starts only while its world has room for a fifth version; a fault of the reading is the launcher's (R192, R199). -/
def syncRoom (u : EU) (n : Node) : M s Unit := do
  match if n.kind = 2 then n.fps.find? (·.sync) else none with
  | none => pure ()
  | some f => match ← tryM (worldOf u f.world) with
    | .ok (some x) => need (x.pinned.dedup.length < 4) .wait
    | .ok none | .error (.trap _ _ _) => pure ()
    | .error e => stop e

/-- Hand a node's work on: the entries of a copy list become jobs as the checker has room, one launch record makes one dispatch (R10, R12, R346). The launch record is read again, and started as it stands then: what Tables 1-3 and 20-4 ask of a SYNC or WSLOAD record is checked at acceptance alone (DESIGN CHOICE, log entry 82). -/
def startWork (k : Nat) (n : Node) : M s Unit := do
  let t ← now
  match n.kind with
  | 3 | 4 => do
    let todo ← (List.range n.arg1.toNat).mapM (copyEntry n)
    modNode k fun n => { n with state := .started, todo := todo, core := copyCore t }
    pump (copyCore t)
  | 6 => modNode k fun n => { n with state := .started }
  | _ => do
    let u := { serviceEU n.ctx with node := some k }
    syncRoom u n
    let v ← readLaunch u n.arg0.toNat
    match ← launchDispatch u n k v (ringCrown (t.ring n.ring).ctl) with
    | .error c => refuseNode k c true
    | .ok d => do
      let id ← freshId
      upd (.dispatch id (some d))
      modNode k fun n => { n with state := .started }

/-- Start one node: a fault holds it, a refused read fails it. -/
def startNode (k : Nat) (n : Node) : M s Bool := do
  match ← tryM (startWork k n) with
  | .ok () => pure true
  | .error (.held page kind present malformed) => do
    holdNode k n.ctx page kind present malformed
    pure false
  | .error (.trap c _ _) => do
    refuseNode k c false
    pure true
  | .error .wait => pure false
  | .error e => stop e

/-- The node's predecessors have completed and nothing holds it: what keeps it from its start is outside the graph (R351). -/
def Node.ready (n : Node) : Bool := n.state == .waiting && n.cause == 0 && n.edges.isEmpty && !n.hold

/-- A ring with no ready node at a priority has no deficit there (R351). -/
def dropDeficits (p : Nat) : M s Unit := do
  let t ← now
  let has (k : Nat) : Bool := t.nodes.any fun kv => kv.2.ring == k && kv.2.prio == p && kv.2.ready
  (List.range 64).forM fun k => if has k || deficitOf (t.ring k) p = 0 then pure () else setDeficit k p 0

/-- Pass the turn at a priority to the next ring with ready nodes, which gains its quantum. -/
def passTurn (p cur : Nat) (rings : List Nat) : M s Unit := do
  let t ← now
  let next := ((List.range 64).map fun i => (cur + 1 + i) % 64).find? fun k => rings.contains k
  match next with
  | none => pure ()
  | some k => do
    dropDeficits p
    let t ← now
    setDeficit k p (deficitOf (t.ring k) p + (t.ring k).rec_.quantum)
    upd (.pool (t.pool.set (p % 4) k (Nat.mod_lt _ (by decide))))

/-- NODE_START: the ready pool starts the node when it is its turn; otherwise, when the turn is spent, the turn passes on. -/
def execNodeStart (node : Nat) (s : State) : Out :=
  runE s do
    let t ← now
    let ready := readyNodes t
    match AMap.get? ready node with
    | none => pure ()
    | some n =>
      if ready.any fun kv => n.prio < kv.2.prio then pure ()
      else
        let p := n.prio
        let peers := ready.filter fun kv => kv.2.prio == p
        let cur := t.pool[p % 4]'(Nat.mod_lt _ (by decide))
        match oldest (peers.filter fun kv => kv.2.ring == cur) with
        | some (k, x) =>
          if x.cost ≤ deficitOf (t.ring cur) p then
            if k = node then do
              let done ← startNode k x
              if done then do
                setDeficit cur p (deficitOf (t.ring cur) p - x.cost)
                dropDeficits p
              else pure ()
            else pure ()
          else passTurn p cur ((peers.map fun kv => kv.2.ring).dedup)
        | none => passTurn p cur ((peers.map fun kv => kv.2.ring).dedup)

/-! ## Completion (R10, R352) -/

/-- The dispatch of a node. -/
def nodeDispatch (t : State) (k : Nat) : Option (Nat × Dispatch) := t.dispatches.find? fun kv => kv.2.node == some k

/-- All wheels of a dispatch have ended, and none of its traps failed it. -/
def dispatchDone (d : Dispatch) : Bool := d.joined && d.failed.isNone && d.ended == d.wheels

/-- Nothing of a failed dispatch is resident. -/
def dispatchGone (t : State) (k : Nat) : Bool := !(t.wheels.any fun kv => kv.2.dispatch == k)

/-- The node's work has completed; a started node of a context that does not run stays incomplete (R355). -/
def workDone (t : State) (k : Nat) (n : Node) : Bool :=
  n.state == .started && n.cause == 0 && !n.held && n.jobs.isEmpty && n.todo.isEmpty && ctxRuns t n.ctx &&
    (match nodeDispatch t k with
     | some (_, d) => dispatchDone d && d.doom.isNone
     | none => true)

/-- The dispatch of a node is gone: the node has its side effects and covers its writes (R10, R354). -/
def dropDispatch (k dk : Nat) (d : Dispatch) : M s Unit := do
  upd (.dispatch dk none)
  modNode k fun n => { n with se := n.se || d.se, wts := max n.wts d.wts }

/-- The dispatch of a node ends: its pin is released. -/
def closeDispatch (k dk : Nat) (d : Dispatch) : M s Unit := do
  unpinDispatch { serviceEU d.ctx with node := some k } d
  dropDispatch k dk d

/-- Run a part of a node's end; the answer says whether to go on. A translation fault holds the node, a refusal fails it. -/
def nodePart (k : Nat) (n : Node) (m : M s Unit) : M s Bool := do
  match ← tryM m with
  | .ok () => pure true
  | .error (.held page kind present malformed) => do
    holdNode k n.ctx page kind present malformed
    pure false
  | .error (.trap c _ _) => do
    refuseNode k c false
    pure false
  | .error .wait => pure false
  | .error e => stop e

/-- Successors go on: the edge is gone, and they start past the completed node's writes. -/
def releaseEdges (k wts : Nat) : M s Unit := do
  let t ← now
  updAll ((t.nodes.filter fun kv => kv.2.edges.contains k).map fun kv =>
    .node kv.1 { kv.2 with edges := kv.2.edges.filter (· != k), wts := max kv.2.wts wts })

/-- NODE_COMPLETE: the release of the work, then the token, then the successors. -/
def execNodeComplete (node : Nat) (s : State) : Out :=
  runE s do
    let t ← now
    match AMap.get? t.nodes node with
    | none => pure ()
    | some n =>
      if !workDone t node n then pure ()
      else do
        let a ← match nodeDispatch t node with
          | some (dk, d) => nodePart node n (closeDispatch node dk d)
          | none => pure true
        let t ← now
        let n := (AMap.get? t.nodes node).getD n
        let b ← if !a then pure false else if n.kind ≠ 6 || n.signalled then pure true
          else nodePart node n do
            writeToken node n n.arg0 n.arg1
            modNode node fun x => { x with signalled := true }
        let t ← now
        let n := (AMap.get? t.nodes node).getD n
        let c ← if !b then pure false else if n.token = 0 then pure true
          else nodePart node n (writeToken node n n.token n.tokval)
        if !c then pure ()
        else do
          let t ← now
          match AMap.get? t.nodes node with
          | none => pure ()
          | some n => do
            upd (.node node { n with state := .complete })
            releaseEdges node n.wts

/-! ## Failure and replay (R353, R354) -/

/-- The cause of a node that has failed, with the address its dispatch reported, once nothing of its work runs; one of a context that does not run stays incomplete when it has started (R353, R355). -/
def failedCause (t : State) (k : Nat) (n : Node) : Option (Byte × DWord) :=
  if !n.incomplete || n.held || !n.jobs.isEmpty || !n.todo.isEmpty || (n.state == .started && !ctxRuns t n.ctx) then none
  else match nodeDispatch t k with
    | some (dk, d) => match d.failed with
      | some f => if dispatchGone t dk then some f else none
      | none => if dispatchDone d then d.doom else none
    | none => if n.cause = 0 then none else some (n.cause, n.trappc)

/-- The node may be replayed automatically. -/
def mayReplay (n : Node) (retry : Nat) : Bool :=
  !n.se && n.idempotent && n.kind != 6 && n.cause != eNodeField && n.cause != ePredFailed && !n.refused && n.replays < retry

/-- Write a log entry; one that meets a translation fault or a refusal is dropped, and a locked granule holds it (R239, R353). -/
def logFailure (k : Nat) (n : Node) (replayed : Bool) : M s Unit := do
  let t ← now
  let r := t.ring n.ring
  if r.rec_.errlog = 0 then pure ()
  else do
    let va := r.rec_.errlog + 32 * (r.errcount.toNat % 16)
    let u := serviceEU n.ctx
    let put : M s Unit := do
      let _ ← placeWrite u va 8 k 0
      let _ ← placeWrite u (va + 8) 8 (n.cause.toNat + 256 * ((if n.se then 1 else 0) + (if replayed then 2 else 0))) 0
      let _ ← placeWrite u (va + 16) 8 n.trappc.toNat 0
      let _ ← placeWrite u (va + 24) 8 0 0
      pure ()
    match ← tryM put with
    | .ok () => modRing n.ring fun r => { r with errcount := r.errcount + 1 }
    | .error .wait => stop .wait
    | .error _ => modRing n.ring fun r => { r with errcount := r.errcount + 1, loglost := true }

/-- Every successor of a node that is failed for good fails with E_PRED_FAILED. -/
def failSuccessors (k : Nat) : M s Unit := do
  let t ← now
  updAll ((t.nodes.filter fun kv => kv.2.edges.contains k && kv.2.incomplete).map fun kv =>
    .node kv.1 { kv.2 with cause := if kv.2.cause = 0 then ePredFailed else kv.2.cause })

/-- NODE_FAIL: the dispatch is closed, the failure logged, and the node replayed or failed for good. -/
def execNodeFail (node : Nat) (s : State) : Out :=
  runE s do
    let t ← now
    match AMap.get? t.nodes node with
    | none => pure ()
    | some n =>
      match failedCause t node n with
      | none => pure ()
      | some (c, pc) => do
        let go ← match nodeDispatch t node with
          | some (dk, d) => do
            match ← tryM (closeDispatch node dk d) with
            | .ok () => pure true
            | .error (.held page kind present malformed) => do
              holdNode node n.ctx page kind present malformed
              pure false
            | .error (.trap _ _ _) => do
              dropDispatch node dk d
              pure true
            | .error .wait => pure false
            | .error e => stop e
          | none => pure true
        if !go then pure ()
        else do
          let t ← now
          match AMap.get? t.nodes node with
          | none => pure ()
          | some n => do
            let n := { n with cause := c, trappc := pc }
            let again := mayReplay n (t.ring n.ring).rec_.retry
            logFailure node n again
            if again then
              upd (.node node { n with state := .waiting, cause := 0, trappc := 0, se := false, replays := n.replays + 1,
                                       jobs := [], signalled := false })
            else do
              upd (.node node { n with state := .failed })
              failSuccessors node

/-! ## Class G (R356 to R358) -/

/-- Park the train at its instruction for a translation fault: the fault is reported as the train's, and FB_REPLAY.GO issues the instruction again. -/
def parkHere (r : Iss) (page : DWord) (kind : BitVec 3) (present malformed : Bool) : M s Unit := do
  reportHeld r.id page kind present malformed 1
  modTrain r.id fun t => { t with wait := none, park := some { lanes := t.em, resume := 0, faulted := true, atHeader := false, op := 0,
                                                                 pages := [page.toNat], did := 0, conf := false } }

/-- A class G instruction: what it does at its unit, in one step; the traps found there are deferred, with the value that `tval` makes of the address found (R204, R356). -/
def graphOp (r : Iss) (dests : List Reg) (tval : Byte → Option DWord → Option DWord) (m : M s Unit) : M s Unit := do
  match ← tryM m with
  | .ok () => pure ()
  | .error (.trap c lanes v) => do
    let op ← freshId
    modTrain r.id fun _ => r.issued op dests [] id
    deferTrap r.id op c lanes (tval c v)
  | .error (.held page kind present malformed) => parkHere r page kind present malformed
  | .error e => stop e

/-- A release waits in place until every earlier access of the train is performed, and a `tlbsync` before it complete (R127, R165). -/
def released (r : Iss) : M s Unit := do
  let t ← now
  need (quiet r.t (t.core (t.coreOf r.t)) r.id && !syncPending t r.id && !r.t.queryFirst t.nextId) .wait

/-- Write times a release of the train must pass. -/
def releaseFloor (t : State) (r : Iss) : Nat := max r.t.wtsMax (t.core (t.coreOf r.t)).clock

/-- The ring a train may use (R356). -/
def ringFor (r : Iss) (k : Nat) : M s Ring := do
  let t ← now
  if 64 ≤ k then stop (.trap eIllOperand none none)
  else
    let x := t.ring k
    if !ringEn x.ctl || ringCtx x.ctl ≠ t.ctxOf r.t then stop (.trap ePerm none none) else pure x

/-- Accesses of class G for a train. -/
def graphEU (t : State) (r : Iss) : EU :=
  { core := t.coreOf r.t, ctx := t.ctxOf r.t, priv := t.privDispatch r.t, train := some r.id, node := none }

/-- The physical address of bytes that class G accesses: what the core has already written to them is performed first (R124, R381). -/
def graphX (u : EU) (va n : Nat) (kind : BitVec 3) : M s Nat := do
  let pa ← engineX u.core u.ctx u.priv false va kind
  let t ← now
  need (!(t.core u.core).pending pa n) .wait
  pure pa

def graphRead (u : EU) (va n : Nat) : M s Nat := do
  let _ ← graphX u va n kRead
  eRd u va n

def graphWrite (u : EU) (va n v floor : Nat) : M s Nat := do
  let _ ← graphX u va n kWrite
  placeWrite u va n v floor

/-- Copy the body of a record to a slot in words of 4 bytes. -/
def copyWords (u : EU) (src dst floor : Nat) : Nat → M s Nat
  | 0 => pure floor
  | n + 1 => do
    let v ← graphRead u src 4
    let w ← graphWrite u dst 4 v floor
    copyWords u (src + 4) (dst + 4) (max floor w) n

def execGsub (sb : Sb) (d : Dst) (k a : Src) (s : State) : Out :=
  runM s do
    beginOnce (.gsub sb d k a) fun r => do
      released r
      graphOp r (dstRegs (d, 1)) foundValue do
        let t ← now
        let kk := (r.x0 k).toNat
        let ring ← ringFor r kk
        let va := (r.d0 a).toNat
        if va % 128 ≠ 0 then stop (.trap eMisalign none none)
        else do
          let u := graphEU t r
          let w ← graphRead u ring.rec_.widx 4
          let n := 2 ^ ring.rec_.log2n
          let i : Word := BitVec.ofNat 32 w
          sideEffect r.id
          if (i - ring.h).toNat < n then do
            let _ ← graphWrite u ring.rec_.widx 8 (i + 1).toNat 0
            let slot := ring.rec_.slots + 128 * (w % n)
            let floor ← copyWords u va slot (releaseFloor t r) 31
            let wts ← graphWrite u (slot + 0x7C) 4 (~~~i).toNat floor
            if t.ringGone kk then pure () else modRing kk fun x => (x.kick (i + 1)).1
            finishDst r fun t => ({ t with wtsMax := max t.wtsMax wts }).setDst d 0xFFFFFFFF 0 (fun _ _ => i) 1
          else finishDst r fun t => t.setDst d 0xFFFFFFFF 0 (fun _ _ => 0xFFFFFFFF) 1

def execGkick (sb : Sb) (d : Dst) (k v : Src) (s : State) : Out :=
  runM s do
    beginOnce (.gkick sb d k v) fun r => do
      released r
      graphOp r (dstRegs (d, 1)) foundValue do
        let kk := (r.x0 k).toNat
        let _ ← ringFor r kk
        let t ← now
        sideEffect r.id
        let ok := !t.ringGone kk && ((t.ring kk).kick (r.x0 v)).2
        if t.ringGone kk then pure () else modRing kk fun x => (x.kick (r.x0 v)).1
        finishDst r fun t => t.setDst d 0xFFFFFFFF 0 (fun _ _ => if ok then 1 else 0) 1

def execGsig (sb : Sb) (mx : Bool) (tok v : Src) (s : State) : Out :=
  runM s do
    beginOnce (.gsig sb mx tok v) fun r => do
      released r
      graphOp r [] (fun _ v => v) do
        let t ← now
        let va := (r.d0 tok).toNat
        if va % 8 ≠ 0 then stop (.trap eMisalign none (some (BitVec.ofNat 64 va)))
        else do
          let u := graphEU t r
          let x := (r.d0 v).toNat
          let pa ← graphX u va 8 kWrite
          recallOwner none pa
          let t ← now
          let old := Bytes.read t.mem pa 8
          let wts ← placeWrite u va 8 (if mx then max old x else x) (releaseFloor t r)
          sideEffect r.id
          let t ← now
          let c := t.core u.core
          upd (.core u.core { c with l1 := AMap.erase c.l1 (pa / 1024) })
          finishNow r fun t => { t with wtsMax := max t.wtsMax wts }

/-- Read the token at its home and arm the wait in one step; its end is an acquire. A wait that a write, a `tlbi` or a resume ends translates and reads the token again, and goes on waiting, with its age, where the token is still below the value. -/
def execGwait (sb : Sb) (tok v : Src) (s : State) : Out :=
  runM s do
    beginOnce (.gwait sb tok v) fun r =>
      if r.t.waiting then stop .wait
      else graphOp r [] (fun _ v => v) do
        let t ← now
        let va := (r.d0 tok).toNat
        if va % 8 ≠ 0 then stop (.trap eMisalign none (some (BitVec.ofNat 64 va)))
        else do
          need (accessMay t r.t r.id) .wait
          let pa ← graphX (graphEU t r) va 8 kRead
          need (!(r.t.fifo.any fun x => x.overlaps pa 8)) .wait
          let x ← homeRead none pa 8
          let age := match r.t.wait with | some w => w.age | none => 0
          if (r.d0 v).toNat ≤ x then acquire r pa
          else modTrain r.id fun t => { t with wait := some ⟨.token (BitVec.ofNat 64 va) pa (r.d0 v), false, age⟩ }
where
  /-- The wait ends: the core's clock passes the write time of the token. -/
  acquire {s : State} (r : Iss) (pa : Nat) : M s Unit := do
    let t ← now
    let k := t.coreOf r.t
    let c := t.core k
    upd (.core k { c with clock := max c.clock (t.line pa).wts, l1 := AMap.erase c.l1 (pa / 1024) })
    finishNow r id

/-- The nodes of the train's context. -/
def nodeIn (t : State) (ctx k : Nat) : Option Node := (AMap.get? t.nodes k).filter fun n => n.ctx == ctx

/-- A node that can still take an edge: waiting, and held or not yet ready. -/
def notReady (n : Node) : Bool := n.state == .waiting && n.cause == 0 && (n.hold || !n.edges.isEmpty)

/-- The status of `gdep`, which no earlier acquire or `tlbsync` of the train holds back (R128, R165), and the update it makes (R358). That a has completed answers 1 whatever b is. -/
def depStatus (t : State) (ctx a b : Nat) : Word × List Upd :=
  let known := nodeIn t ctx b
  let done := if a = 0 then none else (nodeIn t ctx a).filter fun x => x.state == .complete
  match done, known with
  | some x, some y => (1, [.node b { y with wts := max y.wts x.wts }])
  | some _, none => (1, [])
  | none, none => (2, [])
  | none, some y =>
    if a = 0 then
      if y.state == .waiting && y.cause == 0 && y.hold then (0, [.node b { y with hold := false }]) else (2, [])
    else match nodeIn t ctx a with
      | none => (2, [])
      | some x =>
        match if x.doomed then .failed else x.state with
        | .failed => if notReady y then (3, [.node b { y with cause := ePredFailed }]) else (2, [])
        | _ =>
          if x.order < y.order && notReady y then (0, [.node b { y with edges := if y.edges.contains a then y.edges else y.edges ++ [a] }]) else (2, [])

def execGdep (sb : Sb) (d : Dst) (a b : Src) (s : State) : Out :=
  runM s do
    beginOnce (.gdep sb d a b) fun r => do
      let t ← now
      need (accessMay t r.t r.id) .wait
      let (st, us) := depStatus t (t.ctxOf r.t) (r.d0 a).toNat (r.d0 b).toNat
      updAll us
      finishDst r fun t => t.setDst d 0xFFFFFFFF 0 (fun _ _ => st) 1

end Sys2Proof.Machine
end

