-- ==== Sys2Proof/Machine/Events.lean ====
section
/-! DEFINITION. Events of time and of the Crown's control of contexts: clock ticks, the Regulator and E_HANG, soft errors, pre-emption and resume (R69, R71 to R73, R76, R78, R79, R126, R241, R298, R335). -/

namespace Sys2Proof.Machine

variable {s : State}

/-! ## The Regulator (R71, R72) -/

/-- Resident trains of a context. -/
def trainsIn (t : State) (c : Nat) : AMap Train := t.trains.filter fun kv => t.ctxOf kv.2 == c

/-- The train belongs to a watched dispatch. -/
def watchedTrain (t : State) (x : Train) : Bool :=
  match t.dispatchOf x with
  | some d => d.launch.watched
  | none => false

/-- The smallest HANG limit of the watched dispatches that have resident trains (R71, Table 4-2). -/
def hangLimitOf (t : State) (c : Nat) : Option Nat :=
  ((trainsIn t c).filterMap fun kv => match t.dispatchOf kv.2 with
    | some d => if d.launch.watched then
        some (if d.launch.hang = 0 then (t.ctx c).hangLimit.toNat else 2 ^ d.launch.hang)
      else none
    | none => none).min?

/-- Cycles of the train's wait. -/
def Train.waited (t : Train) : Nat :=
  match t.wait with
  | some w => w.age
  | none => 0

/-- The waiting train of a watched dispatch whose wait began earliest; ties by core, then by train index. -/
def hangVictim (t : State) (c : Nat) : Option Nat :=
  (((trainsIn t c).filter fun kv => kv.2.waiting && watchedTrain t kv.2).foldl
    (fun (b : Option (Nat × List Nat)) kv =>
      let k := [2 ^ 64 - kv.2.waited, t.coreOf kv.2, kv.2.index]
      match b with
      | none => some (kv.1, k)
      | some x => if lexLt k x.2 then some (kv.1, k) else b) none).map (·.1)

/-- OBJECT and KIND of a wait-for record; what `racq` waits on has no address the spec names, so its OBJECT is free (Table 4-5). -/
def waitObject (x : Train) (w : Wait) (free : Nat) : Nat × Nat :=
  match w.on with
  | .barrier a => (a, 1)
  | .monitor => ((match x.watch with | some y => y.va.toNat / 1024 * 1024 | none => free), 2)
  | .tb a _ => (a, 3)
  | .ring _ => (free, 3)
  | .token va _ _ => (va.toNat, 4)

/-- ARRIVED of a barrier word's record. -/
def waitArrived (t : State) (x : Train) (w : Wait) : Nat :=
  match w.on with
  | .barrier a => (BarWord.ofNat (Bytes.read (localOf t x.wheel) a 8)).arrived
  | _ => 0

/-- The four double words of a wait-for record (Table 4-5). -/
def waitRecord (t : State) (x : Train) (w : Wait) (free : Nat) : List Nat :=
  let o := waitObject x w free
  let wheel := match t.wheelOf x with
    | some y => y.index
    | none => 0
  let sub := match t.dispatchOf x with
    | some d => d.sub % 2 ^ 32
    | none => 0
  [o.1, wheel + 2 ^ 32 * sub,
   t.coreOf x + 2 ^ 16 * x.index + 2 ^ 24 * o.2 + 2 ^ 32 * waitArrived t x w, w.age]

/-- Write records from a VA on; the answer counts those written. It ends at the first whose page cannot be written (log entry 51), and waits for a locked granule (R239). -/
def writeRecords (ctx : Nat) (va n : Nat) : List (List Nat) → M s Nat
  | [] => pure n
  | r :: rest => do
    let put : M s Unit := r.zipIdx.forM fun x => do
      let _ ← engineWrite serviceCore ctx false false (va + 32 * n + 8 * x.2) 8 x.1
      pure ()
    match ← tryM put with
    | .ok () => writeRecords ctx va (n + 1) rest
    | .error .wait => stop .wait
    | .error _ => pure n

/-- The train at the point where E_HANG takes its trap (R73): after a barrier instruction, at the word of every other wait, with the phase of a `yieldc` kept. -/
def Train.abandoned (t : Train) (w : Wait) (yieldc : Bool) : Train :=
  let t := { t with wait := none, keptPhase := none }
  match w.on, t.clause with
  | .barrier _, some c => t.advance c none
  | .tb _ ph, _ => if yieldc then { t with keptPhase := some ph } else t
  | _, _ => t

/-- The train stands at a `yieldc`. -/
def atYieldc (id : Nat) (x : Train) : Bool :=
  match decodeCur id x with
  | .run _ (.yieldc ..) => true
  | _ => false

/-- E_HANG (R72, R73). -/
def execEHang (ctx : Nat) (s : State) : Out :=
  runE s do
    let t ← now
    match hangLimitOf t ctx, hangVictim t ctx with
    | some lim, some id =>
      if (t.ctx ctx).regulator < lim then pure ()
      else match AMap.get? t.trains id with
        | none => pure ()
        | some _ => do
          let f ← freshFree
          let recs := (((trainsIn t ctx).filter fun kv => kv.2.waiting).filterMap fun kv =>
            kv.2.wait.map fun w => waitRecord t kv.2 w f.toNat).take 128
          let n ← writeRecords ctx (t.ctx ctx).hangbuf.toNat 0 recs
          let t ← now
          upd (.ctx ctx { t.ctx ctx with regulator := 0 })
          let t ← now
          match AMap.get? t.trains id with
          | none => pure ()
          | some x => match x.wait with
            | none => pure ()
            | some w =>
              let x := x.abandoned w (atYieldc id x)
              updAll (trapUpds t id x x.here eHangC x.em (BitVec.ofNat 64 n) false)
    | _, _ => pure ()

/-! ## Time (R69, R71, R126, R238, R298, R302, R345) -/

/-- A ready train that has not issued grows older, and a wait lasts. -/
def Train.aged (t : Train) (ready : Bool) (n : Nat) : Train :=
  { t with
    readyAge := if ready then t.readyAge + n else t.readyAge
    wait := t.wait.map fun w => if w.woken then w else { w with age := w.age + n } }

/-- The Regulator's count after `n` cycles: it grows while the context has resident trains and all of them wait, and never passes the age of a wait that began later. A clause that issues and a wait that ends restart it when they do so (R71). -/
def regulated (t : State) (c n : Nat) : Nat :=
  let l := trainsIn t c
  let old := (t.ctx c).regulator
  if l.all fun kv => kv.2.waiting then min (old + n) (((l.map fun kv => kv.2.waited).min?).getD old) else old

/-- The core whose ticks stand for a context's cycles: the lowest with a resident train. -/
def clockCore (t : State) (c : Nat) : Option Nat := ((trainsIn t c).map fun kv => t.coreOf kv.2).min?

/-- What `n` cycles of a core add to a context: the Regulator's count, the token's holding time, stalled weight reads. -/
def tickCtx (core n c : Nat) : M s Unit := do
  let t ← now
  let x := t.ctx c
  let holder : Bool := match x.token with
    | some (id, _) => (match AMap.get? t.trains id with | some y => t.coreOf y == core | none => false)
    | none => false
  let stall : Bool := match mxHead t core c with
    | some (_, e) => (match opCtx t e with | some o => tvxmStalled t e o | none => false)
    | none => false
  let x := if clockCore t c = some core then { x with regulator := regulated t c n } else x
  let x := if holder then { x with token := x.token.map fun h => (h.1, h.2 + n) } else x
  let x := if stall then { x with mxstall := x.mxstall + BitVec.ofNat 64 n } else x
  if x = t.ctx c then pure () else upd (.ctx c x)

/-- A ring whose next slot is being read, and does not match, grows nearer to STUCK (R345). -/
def ringLater (t : State) (ns k : Nat) : Ring :=
  let r := t.ring k
  if ringMay t k && !r.stuck then { r with waitNs := r.waitNs + ns } else r

/-- The train holds an issue port of its core. -/
def holdsPort (t : State) (id : Nat) (x : Train) : Bool :=
  let c := t.core (t.coreOf x)
  portAt c 0 == some id || portAt c 1 == some id

/-- CLOCK_TICK: `cycles` cycles of a core and `ns` nanoseconds of the package pass. The core's clock advances by `ticks`, and by no less than one tick in 64 cycles (R126). -/
def execClockTick (core cycles ticks ns : Nat) (s : State) : Out :=
  runE s do
    let t ← now
    updAll ((t.trains.filter fun kv => t.coreOf kv.2 == core).map fun kv =>
      .train kv.1 (some (kv.2.aged (trainReady t kv.1 kv.2 && !(kv.2.clause.isSome && holdsPort t kv.1 kv.2)) cycles)))
    (List.range 16).forM fun c => tickCtx core cycles c
    let c := t.core core
    let due := (c.owed + cycles) / 64
    let n := max ticks due
    upd (.core core { c with
      clock := c.clock + n, cycles := c.cycles + BitVec.ofNat 64 cycles
      owed := if due < n then 0 else (c.owed + cycles) % 64 })
    if ns = 0 then pure ()
    else do
      let t ← now
      upd (.mg { t.mg with refreshNs := t.mg.refreshNs + ns })
      updAll (((List.range 64).filter fun k => ringLater t ns k != t.ring k).map fun k => .ring k (ringLater t ns k))

/-! ## Soft errors (R76, R298) -/

/-- Name the value's place in the deferred traps of an operation. -/
def Train.nameEcc (t : Train) (op : Nat) (place : DWord) : Train :=
  { t with deferred := t.deferred.map fun d => if d.order = op && d.cause = eEccC then { d with tval := place } else d }

/-- An engine operation of a train meets a soft error: it makes no effect, and its trap is deferred. -/
def eccOp (id op : Nat) (place : DWord) : M s Unit := do
  let t ← now
  match AMap.get? t.jobs op with
  | some j => do
    endJob op j (some eEccC)
    match j.kind with
    | .copy _ slices => slices.forM fun x => modTrain x.train fun y => y.nameEcc x.op place
    | .tile k => modTrain id fun y => y.nameEcc k place
    | .weights _ k _ _ _ _ => modTrain id fun y => y.nameEcc k place
    | _ => pure ()
  | none =>
    let mine (q : AMap EngineOp) : Bool := match AMap.get? q op with
      | some e => e.train == id
      | none => false
    let drop : Option Upd :=
      if mine t.esu then some (.esu op none) else if mine t.matrix then some (.matrix op none)
      else if mine t.stream then some (.stream op none) else if mine t.ray then some (.ray op none) else none
    match drop with
    | none => pure ()
    | some u => do
      upd u
      endOp id op (some (eEccC, none, some place))

/-- E_ECC: the trap is taken at the instruction the train stands at, which makes no effect; for an engine operation it is deferred (R76, R204). -/
def execEEcc (train : Nat) (w : DWord) (op : Option Nat) (s : State) : Out :=
  runE s do
    let t ← now
    match op with
    | some k => eccOp train k w
    | none =>
      match AMap.get? t.trains train with
      | none => pure ()
      | some x =>
        if x.clause.isNone then pure ()
        else updAll (trapUpds t train x x.here eEccC x.em w false)

/-- The tiles of a wheel read as zero, their scale codes and TSCALE with them (R298, log entry 72). -/
def Wheel.zeroTiles (w : Wheel) : Wheel :=
  { w with tiles := w.tiles.map fun x =>
      { x with data := [], scales := (List.range 256).map fun k => (k, 0), tscale := 0 } }

/-- E_TENANT: the trains whose class X instructions stood in the context's queue take it, deferred; the tiles of their wheels read as zero; the other tenant is not affected (R298). -/
def execETenant (core ctx : Nat) (s : State) : Out :=
  runE s do
    let t ← now
    if !(t.core core).split then pure ()
    else
      let q := mxQueue t core ctx
      let wheels := ((q.filterMap fun kv => (AMap.get? t.trains kv.2.train).map (·.wheel))).dedup
      do
        updAll ((t.jobs.filter fun kv => match kv.2.kind with
          | .tile op => AMap.has q op
          | _ => false).map fun kv => .job kv.1 none)
        updAll (q.map fun kv => .matrix kv.1 none)
        updAll (wheels.filterMap fun k => (AMap.get? t.wheels k).map fun w => .wheel k (some w.zeroTiles))
        q.forM fun kv => endOp kv.2.train kv.1 (some (eTenantC, none, none))

/-! ## Pre-emption (R78, R241, R335) -/

/-- Every train of the context has stopped: the context is stopped. -/
def settleStop (c : Nat) : M s Unit := do
  let t ← now
  let x := t.ctx c
  if x.preempt && (trainsIn t c).all fun kv => kv.2.stopped || kv.2.ending then
    upd (.ctx c { x with preempt := false, stopped := true, regulator := 0 })
  else pure ()

/-- Request the stop of a context. -/
def requestStop (c : Nat) : M s Unit := do
  let t ← now
  if (t.ctx c).stopped then pure ()
  else do
    upd (.ctx c { t.ctx c with preempt := true })
    settleStop c

def requestAll (mask : BitVec 16) : M s Unit :=
  ((List.range 16).filter fun c => mask.getLsbD c).forM fun c => requestStop c

/-- PREEMPT_REQUEST (R78, R365): a context that a thermal stop holds does not resume with its end. -/
def execPreemptRequest (mask : BitVec 16) (s : State) : Out :=
  runE s do
    let t ← now
    upd (.mg { t.mg with hold := t.mg.hold.map fun m => m &&& ~~~mask })
    requestAll mask

/-- Lanes of a train whose instruction, or header, waits for walks; those of an `ldp` that has issued hold nothing (R157). -/
def missingLanes (t : State) (id : Nat) : Mask :=
  (t.walks.flatMap fun kv => kv.2.waiters).foldl (fun m w => if w.train == id && w.stays then m ||| w.lanes else m) 0

/-- Lanes the train's instruction acts in. -/
def actingLanes (t : State) (id : Nat) (x : Train) : Mask :=
  match decodeCur id x with
  | .run _ i => match begin_ { t with cur := some id } i with
    | .ok r => r.act
    | .error _ => x.em
  | _ => x.em

/-- Lanes that the next issue of a park record acts in (R78, R160). -/
def Park.acting (p : Park) : Mask := if p.faulted then p.resume else p.lanes

/-- The park record at the stop (R78, R157): an instruction stopped in its walks is parked. Lanes whose walks have found a fault, and those parked before, wait for FB_REPLAY; the others are resume lanes, those that wait for a walk among them (log entry 73). An instruction of a bracket starts again, in the lanes that the stop leaves. -/
def stopPark (t : State) (id : Nat) (x : Train) : Option Park :=
  let found := x.xl.foldl (fun m f => m ||| f.lanes) 0
  if missingLanes t id = 0 && found = 0 then x.park
  else if x.inTx then none
  else
    let lanes := if x.clause.isNone then x.em else actingLanes t id x
    let p := x.park.getD
      { lanes := lanes, resume := 0, faulted := false, atHeader := x.clause.isNone, op := 0, pages := [], did := 0, conf := false }
    let held := (found &&& p.acting) ||| (p.lanes &&& ~~~p.acting)
    let held := if p.atHeader && found != 0 then p.lanes else held
    some { p with resume := p.lanes &&& ~~~held, faulted := held != 0, pages := p.pages ++ x.xl.map (·.page) }

/-- The open query at the stop: finished lanes keep their results, the others start again (R335). -/
def RayQuery.abandoned (q : RayQuery) : RayQuery :=
  let keep (l : RayLane) : Bool := match l with
    | .done .. | .outside => true
    | _ => false
  { q with
    lanes := perLane fun L => if keep (q.lanes.at L) then q.lanes.at L else .busy
    looked := q.looked &&& maskOf fun L => keep (q.lanes.at L)
    held := false }

/-- A wait that is made afresh at resume: of a monitor, whose watch is lost, and of a graph token, whose translation may change (R142, R358). -/
def WaitOn.afresh : WaitOn → Bool
  | .monitor | .token .. => true
  | _ => false

/-- The train after its stop, its lanes aborted. -/
def Train.atStop (t : Train) (p : Option Park) : Train :=
  { t with
    stopped := true, park := p, xl := [], tokenWait := false
    watch := t.watch.map fun w => { w with lost := true }
    wait := t.wait.map fun w => if w.on.afresh then { w with woken := true } else w
    ray := t.ray.map fun q => if q.opened then q.abandoned else q
    tx := { t.tx with fb := false } }

/-- Everything the stop does to a train (Table 4-7, R241). -/
def stopTrain (id : Nat) (x : Train) : M s Unit := do
  let t ← now
  let p := stopPark t id x
  updAll (t.walks.map fun kv =>
    let l := kv.2.waiters.filter fun w => w.train != id
    .walk kv.1 (if l.isEmpty then none else some { kv.2 with waiters := l }))
  abortTx id 0xFFFFFFFF .preempt
  releaseToken id
  let t ← now
  let c := t.ctxOf x
  upd (.ctx c { t.ctx c with tokenQueue := (t.ctx c).tokenQueue.filter (· != id) })
  if x.tx.ending.isSome then txFinish id else pure ()
  modTrain id fun y => y.atStop p
  settleStop c

/-- A train stands where a stop takes it: between clauses, parked, waiting, or at an instruction that waits in place, for its lanes' walks or its bracket's end among others (Table 4-7). -/
def stopPoint (t : State) (id : Nat) (x : Train) : Bool :=
  x.clause.isNone || x.park.isSome || x.waiting || x.stall || x.tokenWait || x.tx.ending.isSome || walking t id

/-- A train may stop: a trap that is due comes first, and issued accesses are performed first (R78). -/
def mayStop (t : State) (id : Nat) (x : Train) : Bool :=
  (t.ctx (t.ctxOf x)).preempt && !x.stopped && !x.ending && x.dueTrap.isNone && quiet x (t.core (t.coreOf x)) id
    && stopPoint t id x

/-- PREEMPT_STOP. -/
def execPreemptStop (train : Nat) (s : State) : Out :=
  runE s do
    let t ← now
    match AMap.get? t.trains train with
    | none => pure ()
    | some x => if mayStop t train x then stopTrain train x else pure ()

/-- Resume a context that is stopped, or cancel a stop under way; a thermal stop holds every context, and the resumption waits for its end (R79, R160, R379). -/
def resumeCtx (c : Nat) : M s Unit := do
  let t ← now
  let x := t.ctx c
  if x.saved || !(x.stopped || x.preempt) then pure ()
  else if t.mg.hold.isSome then upd (.mg { t.mg with hold := t.mg.hold.map fun m => m ||| BitVec.ofNat 16 (2 ^ c) })
  else do
    upd (.ctx c { x with stopped := false, preempt := false, regulator := 0 })
    updAll ((trainsIn t c).map fun kv => .train kv.1 (some kv.2.resumed))

def resumeAll (mask : BitVec 16) : M s Unit :=
  ((List.range 16).filter fun c => mask.getLsbD c).forM fun c => resumeCtx c

/-- CONTEXT_RESUME: a stopped context that is still resident resumes (R79, R365). -/
def execContextResume (mask : BitVec 16) (s : State) : Out :=
  runE s do
    let t ← now
    resumeAll (mask &&& BitVec.ofNat 16 t.stoppedMask)

end Sys2Proof.Machine
end

