-- ==== Sys2Proof/Machine/Crown.lean ====
section
/-! DEFINITION. Hosts, bring-up and limits: host requests, the restart of a host, the states of bring-up, the change to full service, power and thermal limits (R371 to R379). -/

namespace Sys2Proof.Machine

variable {s : State}

/-! ## Host requests (R371 to R373) -/

/-- Start of the management window in what the Tropin exports (R372). -/
def mgmtBase : Nat := 0x10000000000

/-- Memory serves: GDDR7 is trained and compute is out of reset (Table 22-7). -/
def memoryServes (t : State) : Bool := t.mg.svc == 3 || t.mg.svc == 4

/-- The bytes lie in the exported part of GDDR7 that is populated. -/
def exportsTo (t : State) (pa n : Nat) : Bool :=
  memoryServes t && (n == 0 || (t.region pa == .gddr && t.region (pa + n - 1) == .gddr))

/-- The bytes lie in the management window; the Crown answers from state 1 on. -/
def inMgmt (t : State) (pa n : Nat) : Bool := t.mg.svc != 0 && mgmtBase ≤ pa && pa + n ≤ mgmtBase + 0x200000

/-- A host write of bytes from an address on, sector by sector: each takes one write time. -/
def hostBytes (pa : Nat) (l : List Byte) : M s Unit := do
  let all := l.zipIdx.map fun b => (pa + b.2, b.1)
  ((all.map fun b => b.1 / 128).dedup).forM fun k => do
    recallOwner none (128 * k)
    let _ ← takeWts (128 * k) 0
    updAll ((all.filter fun b => b.1 / 128 == k).map fun b => .byte b.1 b.2)

/-- Bytes in little-endian order as a number. -/
def bytesVal (l : List Byte) : Nat := l.foldr (fun b acc => b.toNat + 256 * acc) 0

/-- The part of a write to registers that lies in one register of 8 bytes: offset, size and value. -/
def regParts (off : Nat) (l : List Byte) : List (Nat × Nat × Nat) :=
  let all := l.zipIdx.map fun b => (off + b.2, b.1)
  ((all.map fun b => b.1 / 8).dedup).map fun k =>
    let mine := all.filter fun b => b.1 / 8 == k
    match mine with
    | [] => (8 * k, 0, 0)
    | (o, _) :: _ => (o, mine.length, bytesVal (mine.map (·.2)))

/-- A host request waits while a granule it writes is locked (R239). -/
def hostWaits (t : State) : HostReq → Bool
  | .attest _ => false
  | .read _ _ => false
  | .write pa l => exportsTo t pa l.length && lockedBytes t.locks pa l.length
  | .atomic _ wide pa _ => exportsTo t pa 8 && lockedBytes t.locks pa (if wide then 8 else 4)

/-- `n` bytes of the management window as a host reads them: registers of 8 bytes; the blocks out of its reach read as zero (R373). -/
def mgmtRead (t : State) (off : Nat) : Nat → Nat
  | 0 => 0
  | n + 1 =>
    let b := if off < 0x100000 || (0x100000 ≤ off && off < 0x101000) then
        bits (mmioRead t (off / 8 * 8) 8) (8 * (off % 8)) 8
      else 0
    b + 256 * mgmtRead t (off + 1) n

/-- The Crown attests: the signature index advances in the secure store before the report, which the signature covers, is released (R375). The digests and the signature are values the manual states no bits of (log entry 75). -/
def attest (nonce : DWord) : M s Unit := do
  let t ← now
  upd (.mg { t.mg with sigIndex := t.mg.sigIndex + 1 })
  let f ← freshFree
  let c ← freshFree
  let x ← freshFree
  upd (.reply (some (.report { nonce := nonce, firmware := f, config := c, defects := signature t.mg.coreMap,
                               index := t.mg.sigIndex + 1, sig := x })))

/-- Serve a request at the home slice, at the registers or at the Crown, and return what it returns; an address that nothing exports has no effect (R371 to R373, R375). -/
def serveHost (r : HostReq) : M s Unit := do
  let t ← now
  match r with
  | .attest nonce => if t.mg.svc = 0 then pure () else attest nonce
  | .read pa n =>
    if exportsTo t pa n then do
      (((List.range n).map fun i => (pa + i) / 128).dedup).forM fun k => disown k
      upd (.reply (some (.data (Bytes.read t.mem pa n))))
    else if inMgmt t pa n then upd (.reply (some (.data (mgmtRead t (pa - mgmtBase) n))))
    else pure ()
  | .write pa l =>
    if exportsTo t pa l.length then hostBytes pa l
    else if inMgmt t pa l.length then
      (regParts (pa - mgmtBase) l).forM fun p => mmioWrite true p.1 p.2.1 p.2.2
    else pure ()
  | .atomic op wide pa x =>
    let n := if wide then 8 else 4
    if pa % n ≠ 0 then pure ()
    else if exportsTo t pa n then do
      let old ← homeRead none pa n
      let _ ← homeWrite none 0 pa n (aopVal op n old (bits x.toNat 0 (8 * n)))
      upd (.reply (some (.data old)))
    else if inMgmt t pa n then
      upd (.agenda (.event (.hostWriteIgnored (pa - mgmtBase) x) :: t.agenda))
    else pure ()

/-- HOST_ACCESS: a request that meets a locked granule waits at the slice. -/
def execHostAccess (r : HostReq) (s : State) : Out :=
  runE s do
    let t ← now
    if hostWaits t r then upd (.hosts (t.hosts ++ [r])) else serveHost r

/-! ## Restart of a host (R374, Table 22-6) -/

/-- An address in the range of a host. -/
def ofHost (t : State) (host pa : Nat) : Bool := t.region pa == .fabric && endpointOf pa == host

/-- The page of a context maps the range of a host. -/
def pageOfHost (t : State) (host c page : Nat) : Bool :=
  match walkTable t.mem (t.ctx c).ptbase.toNat page with
  | .leaf l => ofHost t host ((tlbOf (t.tagOf c) page l.e l.big).paOf page)
  | _ => false

/-- A train parked on a page of the host takes E_HOST_GONE as a fatal trap. -/
def hostParked (t : State) (host : Nat) (x : Train) : Bool :=
  match x.park with
  | some p => p.faulted && p.pages.any fun g => pageOfHost t host (t.ctxOf x) g
  | none => false

def failParked (id : Nat) : M s Unit := do
  let t ← now
  match AMap.get? t.trains id with
  | none => pure ()
  | some x => updAll (trapUpds t id x x.here eHostGone x.em x.word true)

/-- Writes of a train to the host that are not acknowledged, in its FIFO or under way. -/
def hostWrites (t : State) (host : Nat) (l : List Write) : List Write :=
  l.filter fun w => w.acc.any fun a => ofHost t host a.pa

/-- The lanes of an access on the host, and its parts elsewhere. -/
def goneLanes (t : State) (host : Nat) (l : List LaneAcc) : Mask := maskOf fun L => l.any fun a => a.lane == L && ofHost t host a.pa
def keptLanes (t : State) (host : Nat) (l : List LaneAcc) : List LaneAcc := l.filter fun a => !ofHost t host a.pa

/-- The lanes of a write on the host are never performed, and its train takes E_HOST_GONE for them, deferred. -/
def loseWrite (host : Nat) (w : Write) : M s Unit := do
  let t ← now
  match AMap.get? t.trains w.train with
  | none => pure ()
  | some x => do
    let k := t.coreOf x
    let c := t.core k
    let cut (l : List Write) : List Write :=
      (l.map fun o => if o.id = w.id then { o with acc := keptLanes t host o.acc } else o).filter fun o => o.id ≠ w.id || !o.acc.isEmpty
    upd (.core k { c with writes := cut c.writes })
    upd (.train w.train (some ({ x with fifo := cut x.fifo }.defers w.op eHostGone (some (goneLanes t host w.acc)) none)))
    finishOp w.train w.op

/-- The lanes of a load on the host that have no value yet never get one. -/
def loseLoad (host : Nat) (id : Nat) (l : Load) : M s Unit := do
  let t ← now
  let cut (l' : List Load) : List Load :=
    (l'.map fun o => if o.id = l.id then { o with acc := keptLanes t host o.acc } else o).filter fun o => o.id ≠ l.id || !o.acc.isEmpty
  let va := (l.acc.find? fun a => ofHost t host a.pa).map (·.va)
  modTrain id fun x => ({ x with loads := cut x.loads } : Train).defers l.op eHostGone (some (goneLanes t host l.acc)) va
  finishOp id l.op

/-- HOST_WARM_RESTART. Stream jobs and later accesses find the link down at their next access. -/
def execHostWarmRestart (host : Nat) (s : State) : Out :=
  runE s do
    let t ← now
    upd (.mg { t.mg with hostdown := true, hostsDown := t.mg.hostsDown.filter (· != host) ++ [host] })
    (t.trains.filter fun kv => hostParked t host kv.2).forM fun kv => failParked kv.1
    (t.trains.flatMap fun kv => hostWrites t host kv.2.fifo).forM (loseWrite host)
    (t.cores.flatMap fun kv => hostWrites t host kv.2.writes).forM (loseWrite host)
    t.trains.forM fun kv => (kv.2.loads.filter fun l => l.acc.any fun a => ofHost t host a.pa).forM (loseLoad host kv.1)

/-- HOST_RECONNECT: the Crown clears HOSTDOWN once no host is down. -/
def execHostReconnect (host : Nat) (s : State) : Out :=
  runE s do
    let t ← now
    let l := t.mg.hostsDown.filter (· != host)
    upd (.mg { t.mg with hostsDown := l, hostdown := !l.isEmpty })

/-! ## Bring-up (R375 to R378) -/

/-- POWER_ON: the Crown ROM runs, compute is in reset; everything starts from its reset value but the signature index, which the secure store keeps monotonic (R375). -/
def execPowerOn (s : State) : Out :=
  .next { State.reset with mg := { Mg.reset with sigIndex := s.mg.sigIndex }, free := s.free, nextId := s.nextId }

/-- FIRMWARE_VERIFY: the ROM starts an image whose signature holds, and none other; self-test follows. After a failure the ROM stays, and a reloaded image is verified by a further event (R375). -/
def execFirmwareVerify (ok : Bool) (s : State) : Out :=
  runE s do
    let t ← now
    if t.mg.svc = 0 && ok then do
      upd (.mg { t.mg with svc := 1 })
      upd (.agenda (t.agenda ++ [.selfTest]))
    else pure ()

/-- Self-test begins. -/
def startSelfTest (s : State) : State := if s.mg.svc = 1 then s.upd (.mg { s.mg with svc := 2 }) else s

/-- SELF_TEST_COMPLETE: reduced service; CLOCK restarts on every core (R365, R376). -/
def execSelfTestComplete (s : State) : Out :=
  runE s do
    let t ← now
    if t.mg.svc = 2 then do
      upd (.mg { t.mg with svc := 3 })
      clockReset
    else pure ()

/-- SELF_TEST_FAIL: the safe state, with the failed test in FAILCODE (R378). -/
def execSelfTestFail (code : Word) (s : State) : Out :=
  runE s do
    let t ← now
    if t.mg.svc = 2 then upd (.mg { t.mg with svc := 5, failcode := code }) else pure ()

/-- FULL_SERVICE_CHANGE: the Crown pre-empts every context; once all are stopped, every line is homed over four columns with its contents kept, and every context resumes (R377). -/
def execFullServiceChange (s : State) : Out :=
  runE s do
    let t ← now
    if t.mg.svc ≠ 3 then pure ()
    else do
      match t.mg.change with
      | some _ => pure ()
      | none => do
        upd (.mg { t.mg with change := some 0xFFFF })
        requestAll 0xFFFF
      let t ← now
      if (List.range 16).all fun c => (t.ctx c).stopped then do
        upd (.mg { t.mg with svc := 4, change := none })
        resumeAll (t.mg.change.getD 0)
      else pure ()

/-! ## Limits (R379) -/

/-- POWER_LIMIT_EXCEEDED: above MG_PLIMIT or 105 °C the arithmetic clock goes down by one step of 100 MHz. -/
def execPowerLimitExceeded (watts : Half) (celsius : Byte) (s : State) : Out :=
  runE s do
    let t ← now
    let m := { t.mg with watts := watts, celsius := celsius }
    if m.plimit < watts || 105 < celsius then
      upd (.mg { m with clockMhz := if 100 < m.clockMhz then m.clockMhz - 100 else m.clockMhz })
    else upd (.mg m)

/-- Contexts that run, a bit each. -/
def runningMask (t : State) : BitVec 16 :=
  BitVec.ofNat 16 ((List.range 16).foldl (fun a c => a + flag (ctxRuns t c) c) 0)

/-- THERMAL_STOP: at 115 °C every context is pre-empted and held stopped. -/
def execThermalStop (celsius : Byte) (s : State) : Out :=
  runE s do
    let t ← now
    let m := { t.mg with celsius := celsius }
    if celsius < 115 || m.hold.isSome then upd (.mg m)
    else do
      upd (.mg { m with hold := some (runningMask t) })
      requestAll 0xFFFF

/-- THERMAL_RECOVER: at 95 °C the contexts that the thermal stop holds resume. -/
def execThermalRecover (celsius : Byte) (s : State) : Out :=
  runE s do
    let t ← now
    let m := { t.mg with celsius := celsius }
    if 95 < celsius then upd (.mg m)
    else do
      upd (.mg { m with hold := none })
      resumeAll (t.mg.hold.getD 0)

end Sys2Proof.Machine
end

