-- ==== Sys2Proof/Machine/Dispatch.lean ====
section
/-! DEFINITION. The dispatch: one arm per constructor of Instr, each one call of its meaning. -/

namespace Sys2Proof.Machine

/-- The effect of an instruction or event. -/
def exec (i : Instr) (s : State) : Host.Outcome State Fault Refusal :=
  match i with
  | .mov g ty d a => Sys2Proof.Machine.execMov g ty d a s
  | .movk g d a b => Sys2Proof.Machine.execMovk g d a b s
  | .movs g d sel => Sys2Proof.Machine.execMovs g d sel s
  | .sel g ty d a b p => Sys2Proof.Machine.execSel g ty d a b p s
  | .iadd g sat ty d a b => Sys2Proof.Machine.execIadd g sat ty d a b s
  | .isub g sat ty d a b => Sys2Proof.Machine.execIsub g sat ty d a b s
  | .imul g sat ty d a b => Sys2Proof.Machine.execImul g sat ty d a b s
  | .imulh g ty d a b => Sys2Proof.Machine.execImulh g ty d a b s
  | .imad g sat ty d a b c => Sys2Proof.Machine.execImad g sat ty d a b c s
  | .imin g ty d a b => Sys2Proof.Machine.execImin g ty d a b s
  | .imax g ty d a b => Sys2Proof.Machine.execImax g ty d a b s
  | .iabs g sat ty d a => Sys2Proof.Machine.execIabs g sat ty d a s
  | .iaddx g uns d a b => Sys2Proof.Machine.execIaddx g uns d a b s
  | .imadx g uns d a b c => Sys2Proof.Machine.execImadx g uns d a b c s
  | .and g ty d a b => Sys2Proof.Machine.execAnd g ty d a b s
  | .or g ty d a b => Sys2Proof.Machine.execOr g ty d a b s
  | .xor g ty d a b => Sys2Proof.Machine.execXor g ty d a b s
  | .andn g ty d a b => Sys2Proof.Machine.execAndn g ty d a b s
  | .lop3 g d a b t => Sys2Proof.Machine.execLop3 g d a b t s
  | .shl g ty d a b => Sys2Proof.Machine.execShl g ty d a b s
  | .shr g ty d a b => Sys2Proof.Machine.execShr g ty d a b s
  | .sra g ty d a b => Sys2Proof.Machine.execSra g ty d a b s
  | .rot g ty d a b => Sys2Proof.Machine.execRot g ty d a b s
  | .bfx g ty d a f => Sys2Proof.Machine.execBfx g ty d a f s
  | .bfi g ty d a b f => Sys2Proof.Machine.execBfi g ty d a b f s
  | .popc g ty d a => Sys2Proof.Machine.execPopc g ty d a s
  | .clz g ty d a => Sys2Proof.Machine.execClz g ty d a s
  | .brev g ty d a => Sys2Proof.Machine.execBrev g ty d a s
  | .icmp g cc ty d a b => Sys2Proof.Machine.execIcmp g cc ty d a b s
  | .fcmp g cc d a b => Sys2Proof.Machine.execFcmp g cc d a b s
  | .plop g op d pa pb => Sys2Proof.Machine.execPlop g op d pa pb s
  | .pmov g op => Sys2Proof.Machine.execPmov g op s
  | .fadd g sat rnd d a b => Sys2Proof.Machine.execFadd g sat rnd d a b s
  | .fsub g sat rnd d a b => Sys2Proof.Machine.execFsub g sat rnd d a b s
  | .fmul g sat rnd d a b => Sys2Proof.Machine.execFmul g sat rnd d a b s
  | .ffma g sat rnd d a b c => Sys2Proof.Machine.execFfma g sat rnd d a b c s
  | .fmin g d a b => Sys2Proof.Machine.execFmin g d a b s
  | .fmax g d a b => Sys2Proof.Machine.execFmax g d a b s
  | .frnd g rnd d a => Sys2Proof.Machine.execFrnd g rnd d a s
  | .frcp g d a => Sys2Proof.Machine.execFrcp g d a s
  | .frsq g d a => Sys2Proof.Machine.execFrsq g d a s
  | .fsqrt g d a => Sys2Proof.Machine.execFsqrt g d a s
  | .fexp2 g d a => Sys2Proof.Machine.execFexp2 g d a s
  | .flog2 g d a => Sys2Proof.Machine.execFlog2 g d a s
  | .fsin g d a => Sys2Proof.Machine.execFsin g d a s
  | .fcos g d a => Sys2Proof.Machine.execFcos g d a s
  | .hadd2 g satf rnd bf d a b => Sys2Proof.Machine.execHadd2 g satf rnd bf d a b s
  | .hmul2 g satf rnd bf d a b => Sys2Proof.Machine.execHmul2 g satf rnd bf d a b s
  | .hfma2 g satf rnd bf d a b c => Sys2Proof.Machine.execHfma2 g satf rnd bf d a b c s
  | .cvti g rnd ty d a => Sys2Proof.Machine.execCvti g rnd ty d a s
  | .cvtf g rnd ty d a => Sys2Proof.Machine.execCvtf g rnd ty d a s
  | .cvth g d op => Sys2Proof.Machine.execCvth g d op s
  | .cvtn g slot d op => Sys2Proof.Machine.execCvtn g slot d op s
  | .shfl g w64 mode d a n => Sys2Proof.Machine.execShfl g w64 mode d a n s
  | .shfx g w64 seg mode d a n c => Sys2Proof.Machine.execShfx g w64 seg mode d a n c s
  | .vote g op pa => Sys2Proof.Machine.execVote g op pa s
  | .rdlane g w64 d a k => Sys2Proof.Machine.execRdlane g w64 d a k s
  | .wrlane g w64 d x k => Sys2Proof.Machine.execWrlane g w64 d x k s
  | .iscan g ty excl op d a => Sys2Proof.Machine.execIscan g ty excl op d a s
  | .ired g ty op d a => Sys2Proof.Machine.execIred g ty op d a s
  | .emrd d => Sys2Proof.Machine.execEmrd d s
  | .emwr m => Sys2Proof.Machine.execEmwr m s
  | .emand m => Sys2Proof.Machine.execEmand m s
  | .emor m => Sys2Proof.Machine.execEmor m s
  | .ld g sb w acq pol m d => Sys2Proof.Machine.execLd g sb w acq pol m d s
  | .st g sb w rel pol m x => Sys2Proof.Machine.execSt g sb w rel pol m x s
  | .ldp p sb w pol m d => Sys2Proof.Machine.execLdp p sb w pol m d s
  | .lds g sb w m d => Sys2Proof.Machine.execLds g sb w m d s
  | .sts g sb w m x => Sys2Proof.Machine.execSts g sb w m x s
  | .ldl g sb w m d => Sys2Proof.Machine.execLdl g sb w m d s
  | .stl g sb w m x => Sys2Proof.Machine.execStl g sb w m x s
  | .ldw g sb w m d => Sys2Proof.Machine.execLdw g sb w m d s
  | .atom g sb op w ord m x d => Sys2Proof.Machine.execAtom g sb op w ord m x d s
  | .red g sb op w rel m x => Sys2Proof.Machine.execRed g sb op w rel m x s
  | .cas g sb w ord m x d => Sys2Proof.Machine.execCas g sb w ord m x d s
  | .atoml g sb op w m x d => Sys2Proof.Machine.execAtoml g sb op w m x d s
  | .casl g sb w m x d => Sys2Proof.Machine.execCasl g sb w m x d s
  | .fence g sb => Sys2Proof.Machine.execFence g sb s
  | .drain g sb => Sys2Proof.Machine.execDrain g sb s
  | .barw g sb m => Sys2Proof.Machine.execBarw g sb m s
  | .bara g sb m => Sys2Proof.Machine.execBara g sb m s
  | .barm g sb m mask => Sys2Proof.Machine.execBarm g sb m mask s
  | .barinit g sb m mask => Sys2Proof.Machine.execBarinit g sb m mask s
  | .mon g sb w acq m d => Sys2Proof.Machine.execMon g sb w acq m d s
  | .mwait g sb => Sys2Proof.Machine.execMwait g sb s
  | .prf g sb w pol m => Sys2Proof.Machine.execPrf g sb w pol m s
  | .own g sb w m => Sys2Proof.Machine.execOwn g sb w m s
  | .unown g sb w m => Sys2Proof.Machine.execUnown g sb w m s
  | .cwb g sb w m => Sys2Proof.Machine.execCwb g sb w m s
  | .cinv g sb w m => Sys2Proof.Machine.execCinv g sb w m s
  | .bra g rel => Sys2Proof.Machine.execBra g rel s
  | .brz g a rel => Sys2Proof.Machine.execBrz g a rel s
  | .brnz g a rel => Sys2Proof.Machine.execBrnz g a rel s
  | .brany g p rel => Sys2Proof.Machine.execBrany g p rel s
  | .brall g p rel => Sys2Proof.Machine.execBrall g p rel s
  | .call g n rel => Sys2Proof.Machine.execCall g n rel s
  | .ret g n => Sys2Proof.Machine.execRet g n s
  | .jmpi g n => Sys2Proof.Machine.execJmpi g n s
  | .loop g n rel => Sys2Proof.Machine.execLoop g n rel s
  | .exit g => Sys2Proof.Machine.execExit g s
  | .yield g => Sys2Proof.Machine.execYield g s
  | .yieldc g n rel => Sys2Proof.Machine.execYieldc g n rel s
  | .trap g n => Sys2Proof.Machine.execTrap g n s
  | .brk g n => Sys2Proof.Machine.execBrk g n s
  | .nop g => Sys2Proof.Machine.execNop g s
  | .tcfg sb t c => Sys2Proof.Machine.execTcfg sb t c s
  | .tld sb t base part => Sys2Proof.Machine.execTld sb t base part s
  | .tst sb t base part => Sys2Proof.Machine.execTst sb t base part s
  | .tzero sb t => Sys2Proof.Machine.execTzero sb t s
  | .tmma sb d a b => Sys2Proof.Machine.execTmma sb d a b s
  | .tloop sb d a b r => Sys2Proof.Machine.execTloop sb d a b r s
  | .tmmb sb d a b => Sys2Proof.Machine.execTmmb sb d a b s
  | .tvxm g sb slot pd d a p => Sys2Proof.Machine.execTvxm g sb slot pd d a p s
  | .tdrain sb base add z d st => Sys2Proof.Machine.execTdrain sb base add z d st s
  | .twait sb t => Sys2Proof.Machine.execTwait sb t s
  | .tcvt sb t x => Sys2Proof.Machine.execTcvt sb t x s
  | .ttr sb t x => Sys2Proof.Machine.execTtr sb t x s
  | .tfill sb t x => Sys2Proof.Machine.execTfill sb t x s
  | .wsync sb m c => Sys2Proof.Machine.execWsync sb m c s
  | .wsinfo sb d k => Sys2Proof.Machine.execWsinfo sb d k s
  | .cpy sb tb ls ld r => Sys2Proof.Machine.execCpy sb tb ls ld r s
  | .cpym sb tb ls ld r => Sys2Proof.Machine.execCpym sb tb ls ld r s
  | .cpt sb tb ls ld r => Sys2Proof.Machine.execCpt sb tb ls ld r s
  | .cpg sb tb ls ld r => Sys2Proof.Machine.execCpg sb tb ls ld r s
  | .tbinit sb force b n => Sys2Proof.Machine.execTbinit sb force b n s
  | .tbarr sb d b n => Sys2Proof.Machine.execTbarr sb d b n s
  | .tbexp sb b n => Sys2Proof.Machine.execTbexp sb b n s
  | .tbwait sb b ph => Sys2Proof.Machine.execTbwait sb b ph s
  | .rbind sb k rec => Sys2Proof.Machine.execRbind sb k rec s
  | .racq sb d k => Sys2Proof.Machine.execRacq sb d k s
  | .rrel sb k a => Sys2Proof.Machine.execRrel sb k a s
  | .srd sb op d => Sys2Proof.Machine.execSrd sb op d s
  | .eqry sb cur d q v => Sys2Proof.Machine.execEqry sb cur d q v s
  | .enext sb cur d => Sys2Proof.Machine.execEnext sb cur d s
  | .erow g sb strict pd d h => Sys2Proof.Machine.execErow g sb strict pd d h s
  | .ecol g sb pd d ref t w => Sys2Proof.Machine.execEcol g sb pd d ref t w s
  | .ehchk g sb pd h => Sys2Proof.Machine.execEhchk g sb pd h s
  | .eget g sb wd strict pd d h t o => Sys2Proof.Machine.execEget g sb wd strict pd d h t o s
  | .eput g sb wd strict pd x h t o => Sys2Proof.Machine.execEput g sb wd strict pd x h t o s
  | .ecrt g sb strict pd d ty => Sys2Proof.Machine.execEcrt g sb strict pd d ty s
  | .edel g sb strict pd h => Sys2Proof.Machine.execEdel g sb strict pd h s
  | .eadd g sb ind strict pd h t y => Sys2Proof.Machine.execEadd g sb ind strict pd h t y s
  | .erem g sb strict pd h t => Sys2Proof.Machine.execErem g sb strict pd h t s
  | .eset g sb ind strict pd h t y => Sys2Proof.Machine.execEset g sb ind strict pd h t y s
  | .ecmt g sb d => Sys2Proof.Machine.execEcmt g sb d s
  | .esync sb d w => Sys2Proof.Machine.execEsync sb d w s
  | .epin sb strict d w v => Sys2Proof.Machine.execEpin sb strict d w v s
  | .eunpin sb w v => Sys2Proof.Machine.execEunpin sb w v s
  | .ever sb view d w => Sys2Proof.Machine.execEver sb view d w s
  | .txbeg sb fb => Sys2Proof.Machine.execTxbeg sb fb s
  | .txend sb d => Sys2Proof.Machine.execTxend sb d s
  | .txabt g sb => Sys2Proof.Machine.execTxabt g sb s
  | .txst sb tok d => Sys2Proof.Machine.execTxst sb tok d s
  | .txcause g sb d => Sys2Proof.Machine.execTxcause g sb d s
  | .rycl g sb k r m => Sys2Proof.Machine.execRycl g sb k r m s
  | .ryany g k r m => Sys2Proof.Machine.execRyany g k r m s
  | .ryocc g sb k r m => Sys2Proof.Machine.execRyocc g sb k r m s
  | .ryacc g sb pa => Sys2Proof.Machine.execRyacc g sb pa s
  | .ryres g sb f d => Sys2Proof.Machine.execRyres g sb f d s
  | .rywait sb d => Sys2Proof.Machine.execRywait sb d s
  | .ryinv sb k => Sys2Proof.Machine.execRyinv sb k s
  | .rygeo sb k rec => Sys2Proof.Machine.execRygeo sb k rec s
  | .rypst sb d c => Sys2Proof.Machine.execRypst sb d c s
  | .zrd sb d n => Sys2Proof.Machine.execZrd sb d n s
  | .zwr sb n x => Sys2Proof.Machine.execZwr sb n x s
  | .tlbi sb range => Sys2Proof.Machine.execTlbi sb range s
  | .tlbsync sb => Sys2Proof.Machine.execTlbsync sb s
  | .trapret next => Sys2Proof.Machine.execTrapret next s
  | .ctxsv sb d c a => Sys2Proof.Machine.execCtxsv sb d c a s
  | .ctxld sb d c a => Sys2Proof.Machine.execCtxld sb d c a s
  | .wsld sb w a n => Sys2Proof.Machine.execWsld sb w a n s
  | .gsub sb d k a => Sys2Proof.Machine.execGsub sb d k a s
  | .gkick sb d k v => Sys2Proof.Machine.execGkick sb d k v s
  | .gsig sb max t v => Sys2Proof.Machine.execGsig sb max t v s
  | .gwait sb t v => Sys2Proof.Machine.execGwait sb t v s
  | .gdep sb d a b => Sys2Proof.Machine.execGdep sb d a b s
  | .movK g d imm => Sys2Proof.Machine.execMovK g d imm s
  | .iaddK g d a imm => Sys2Proof.Machine.execIaddK g d a imm s
  | .isubK g d a imm => Sys2Proof.Machine.execIsubK g d a imm s
  | .imulK g d a imm => Sys2Proof.Machine.execImulK g d a imm s
  | .andK g d a imm => Sys2Proof.Machine.execAndK g d a imm s
  | .orK g d a imm => Sys2Proof.Machine.execOrK g d a imm s
  | .xorK g d a imm => Sys2Proof.Machine.execXorK g d a imm s
  | .shlK g d a imm => Sys2Proof.Machine.execShlK g d a imm s
  | .shrK g d a imm => Sys2Proof.Machine.execShrK g d a imm s
  | .sraK g d a imm => Sys2Proof.Machine.execSraK g d a imm s
  | .faddK g d a imm => Sys2Proof.Machine.execFaddK g d a imm s
  | .fmulK g d a imm => Sys2Proof.Machine.execFmulK g d a imm s
  | .escapementChoose core port => Sys2Proof.Machine.execEscapementChoose core port s
  | .readyWaitLimit core => Sys2Proof.Machine.execReadyWaitLimit core s
  | .deferredTrap train => Sys2Proof.Machine.execDeferredTrap train s
  | .eHang ctx => Sys2Proof.Machine.execEHang ctx s
  | .clockTick core cycles ticks ns => Sys2Proof.Machine.execClockTick core cycles ticks ns s
  | .storeFifoEntryLeave train => Sys2Proof.Machine.execStoreFifoEntryLeave train s
  | .writePerformed core id => Sys2Proof.Machine.execWritePerformed core id s
  | .releaseMarkerCounted core id => Sys2Proof.Machine.execReleaseMarkerCounted core id s
  | .loadValueReturn train op => Sys2Proof.Machine.execLoadValueReturn train op s
  | .monitorWake train => Sys2Proof.Machine.execMonitorWake train s
  | .walkStart walk => Sys2Proof.Machine.execWalkStart walk s
  | .walkComplete walk => Sys2Proof.Machine.execWalkComplete walk s
  | .fbHeadWrite ctx v => Sys2Proof.Machine.execFbHeadWrite ctx v s
  | .fbStatusDroppedClear ctx => Sys2Proof.Machine.execFbStatusDroppedClear ctx s
  | .fbReplayGo ctx => Sys2Proof.Machine.execFbReplayGo ctx s
  | .chimeNotification die => Sys2Proof.Machine.execChimeNotification die s
  | .chimeHeadWrite v => Sys2Proof.Machine.execChimeHeadWrite v s
  | .tlbiInvalidationBegin train op => Sys2Proof.Machine.execTlbiInvalidationBegin train op s
  | .wheelAdmit dispatch wheel core => Sys2Proof.Machine.execWheelAdmit dispatch wheel core s
  | .trainEnd train => Sys2Proof.Machine.execTrainEnd train s
  | .preemptRequest mask => Sys2Proof.Machine.execPreemptRequest mask s
  | .preemptStop train => Sys2Proof.Machine.execPreemptStop train s
  | .contextResume mask => Sys2Proof.Machine.execContextResume mask s
  | .syncPointPublish train => Sys2Proof.Machine.execSyncPointPublish train s
  | .commitStep train => Sys2Proof.Machine.execCommitStep train s
  | .serialTokenGrant ctx => Sys2Proof.Machine.execSerialTokenGrant ctx s
  | .tokenHoldLimit ctx => Sys2Proof.Machine.execTokenHoldLimit ctx s
  | .jobStart job => Sys2Proof.Machine.execJobStart job s
  | .sectorDeliver job sector => Sys2Proof.Machine.execSectorDeliver job sector s
  | .loopSequencerStep core ctx => Sys2Proof.Machine.execLoopSequencerStep core ctx s
  | .tenantSplit core => Sys2Proof.Machine.execTenantSplit core s
  | .refreshWindowEnd bank => Sys2Proof.Machine.execRefreshWindowEnd bank s
  | .candidatePresent train lane => Sys2Proof.Machine.execCandidatePresent train lane s
  | .rayQueryComplete train => Sys2Proof.Machine.execRayQueryComplete train s
  | .ringEnable ring ctl => Sys2Proof.Machine.execRingEnable ring ctl s
  | .ringRecWrite ring v => Sys2Proof.Machine.execRingRecWrite ring v s
  | .ringKick ring v host => Sys2Proof.Machine.execRingKick ring v host s
  | .ringStatusWrite ring host => Sys2Proof.Machine.execRingStatusWrite ring host s
  | .packetAccept ring => Sys2Proof.Machine.execPacketAccept ring s
  | .stuck ring => Sys2Proof.Machine.execStuck ring s
  | .nodeStart node => Sys2Proof.Machine.execNodeStart node s
  | .nodeComplete node => Sys2Proof.Machine.execNodeComplete node s
  | .nodeFail node => Sys2Proof.Machine.execNodeFail node s
  | .mgPlimitWrite v => Sys2Proof.Machine.execMgPlimitWrite v s
  | .contextRegisterWrite ctx n v => Sys2Proof.Machine.execContextRegisterWrite ctx n v s
  | .registerWrite offset v => Sys2Proof.Machine.execRegisterWrite offset v s
  | .hostWriteIgnored offset v => Sys2Proof.Machine.execHostWriteIgnored offset v s
  | .hostAccess r => Sys2Proof.Machine.execHostAccess r s
  | .firmwareVerify ok => Sys2Proof.Machine.execFirmwareVerify ok s
  | .esuOperation op => Sys2Proof.Machine.execEsuOperation op s
  | .matrixInstructionComplete core ctx => Sys2Proof.Machine.execMatrixInstructionComplete core ctx s
  | .weightStoreWriteComplete write => Sys2Proof.Machine.execWeightStoreWriteComplete write s
  | .eEcc train w op => Sys2Proof.Machine.execEEcc train w op s
  | .eTenant core ctx => Sys2Proof.Machine.execETenant core ctx s
  | .ownershipRecall sector => Sys2Proof.Machine.execOwnershipRecall sector s
  | .watchLost train => Sys2Proof.Machine.execWatchLost train s
  | .chimeOverflowClear => Sys2Proof.Machine.execChimeOverflowClear s
  | .objectLoad ctx file base => Sys2Proof.Machine.execObjectLoad ctx file base s
  | .mgClkrstGo => Sys2Proof.Machine.execMgClkrstGo s
  | .hostwrClear => Sys2Proof.Machine.execHostwrClear s
  | .badwrClear => Sys2Proof.Machine.execBadwrClear s
  | .hostWarmRestart host => Sys2Proof.Machine.execHostWarmRestart host s
  | .powerOn => Sys2Proof.Machine.execPowerOn s
  | .selfTestComplete => Sys2Proof.Machine.execSelfTestComplete s
  | .selfTestFail code => Sys2Proof.Machine.execSelfTestFail code s
  | .fullServiceChange => Sys2Proof.Machine.execFullServiceChange s
  | .powerLimitExceeded watts celsius => Sys2Proof.Machine.execPowerLimitExceeded watts celsius s
  | .thermalStop celsius => Sys2Proof.Machine.execThermalStop celsius s
  | .thermalRecover celsius => Sys2Proof.Machine.execThermalRecover celsius s
  | .hostReconnect host => Sys2Proof.Machine.execHostReconnect host s

end Sys2Proof.Machine
end

