-- ==== Sys2Proof/Machine/Sched.lean ====
section
/-! DEFINITION. The schedule of the one deterministic machine: the turns of a round, in which every event that can take effect, every issue port and the passage of time have their place (R15; log entry 1). -/

namespace Sys2Proof.Machine

def ev (e : Instr) : Turn := .event e

/-- A turn where a condition holds. -/
def turnIf (b : Bool) (e : Instr) : List Turn := if b then [ev e] else []

/-- Events of a train. -/
def trainTurns (s : State) (id : Nat) (x : Train) : List Turn :=
  let q := match x.ray with
    | some q => if q.opened then lanesOf q.busyMask else []
    | none => []
  turnIf (!x.deferred.isEmpty) (.deferredTrap id)
    ++ turnIf (!x.fifo.isEmpty) (.storeFifoEntryLeave id)
    ++ x.loads.map (fun l => ev (.loadValueReturn id l.id))
    ++ turnIf x.tx.ending.isSome (.commitStep id)
    ++ turnIf x.waiting (.monitorWake id)
    ++ turnIf (s.syncs.any (·.train == id)) (.syncPointPublish id)
    ++ q.map (fun L => ev (.candidatePresent id L))
    ++ turnIf (hasOps s.ray id || x.queryOpen) (.rayQueryComplete id)
    ++ turnIf (mayStop s id x) (.preemptStop id)
    ++ turnIf (x.ending || failStops s x) (.trainEnd id)

/-- Contexts with class X instructions queued on a core. -/
def queuedCtxs (s : State) (core : Nat) : List Nat := (List.range 16).filter fun c => !(mxQueue s core c).isEmpty

/-- Events of a core's writes and of its matrix engine. -/
def coreTurns (s : State) (k : Nat) (c : Core) : List Turn :=
  c.writes.flatMap (fun w => turnIf (!w.after.isEmpty) (.releaseMarkerCounted k w.id) ++ [ev (.writePerformed k w.id)])
    ++ turnIf (c.split != decide (2 ≤ (tenants s k).length)) (.tenantSplit k)
    ++ (queuedCtxs s k).flatMap fun c => [ev (.matrixInstructionComplete k c), ev (.loopSequencerStep k c)]

/-- Cores with resident trains. -/
def busyCores (s : State) : List Nat := ((s.trains.map fun kv => s.coreOf kv.2).dedup).filter fun k => k < 800

/-- The Escapement of a core: the limit of waiting, then a choice and an issue for each port. -/
def portTurns (s : State) (k : Nat) : List Turn :=
  turnIf ((s.core k).urgent || s.trains.any fun kv => s.coreOf kv.2 == k && 4096 ≤ kv.2.readyAge) (.readyWaitLimit k)
    ++ [ev (.escapementChoose k 0), .issue k 0, ev (.escapementChoose k 1), .issue k 1]

/-- Events of a context. -/
def ctxTurns (s : State) (c : Nat) : List Turn :=
  let x := s.ctx c
  turnIf (x.token.isNone && !x.tokenQueue.isEmpty) (.serialTokenGrant c)
    ++ turnIf (match x.token with | some h => 2 ^ 20 ≤ h.2 | none => false) (.tokenHoldLimit c)
    ++ turnIf (match hangLimitOf s c with | some l => l ≤ x.regulator | none => false) (.eHang c)
    ++ turnIf (x.replayHeld && !x.saved && !s.replayBusy c) (.fbReplayGo c)

def walkTurns (s : State) : List Turn := s.walks.flatMap fun kv => [ev (.walkStart kv.1), ev (.walkComplete kv.1)]

/-- Events of a job. -/
def jobTurns (k : Nat) (j : Job) : List Turn :=
  if !j.started then [ev (.jobStart k)]
  else match j.kind with
    | .weights _ _ _ _ _ _ => [ev (.weightStoreWriteComplete k)]
    | _ => j.sectors.map fun _ => ev (.sectorDeliver k 0)

def engineTurns (s : State) : List Turn :=
  ((s.images.filter (·.2.live)).flatMap fun kv => kv.2.syncs.map fun p => ev (.syncPointPublish p.train))
    ++ s.esu.map (fun kv => ev (.esuOperation kv.1)) ++ s.stream.map (fun kv => ev (.jobStart kv.1))
    ++ s.jobs.flatMap (fun kv => jobTurns kv.1 kv.2)
    ++ (s.tlbis.filter fun i => !i.begun && !i.sync).map (fun i => ev (.tlbiInvalidationBegin i.train i.op))
    ++ (s.tlbis.filter (·.sync)).map (fun i => Turn.syncDone i.train i.op)
    ++ s.chime.coming.map fun n => ev (.chimeNotification n.1)

/-- The next wheel of a dispatch and the first core that may admit it. -/
def admitTurns (s : State) (k : Nat) (d : Dispatch) : List Turn :=
  let w := d.started.length
  match (List.range 800).find? fun c => mayAdmit s d w c with
  | some c => [ev (.wheelAdmit k w c)]
  | none => []

/-- Events of the Remontoir. -/
def graphTurns (s : State) : List Turn :=
  (List.range 64).flatMap (fun k =>
    let r := s.ring k
    turnIf (ringEn r.ctl && (r.headDue || r.h != r.kt)) (.packetAccept k) ++ turnIf (64000 ≤ r.waitNs && !r.stuck) (.stuck k))
    ++ (s.nodes.filter fun kv => kv.2.incomplete).flatMap (fun kv =>
      [ev (.nodeStart kv.1), ev (.nodeComplete kv.1), ev (.nodeFail kv.1)])
    ++ s.dispatches.flatMap fun kv => admitTurns s kv.1 kv.2

/-- Bring-up runs through its states in order (R376); the outside world gives an image whose signature holds and a self-test that passes (log entry 1). -/
def bringUpTurns (s : State) : List Turn :=
  match s.mg.svc.toNat with
  | 0 => [ev (.firmwareVerify true)]
  | 1 => [.selfTest]
  | 2 => [ev .selfTestComplete]
  | 3 => [ev .fullServiceChange]
  | _ => []

/-- Nanoseconds of 64 cycles of the arithmetic clock. -/
def roundNs (s : State) : Nat := if s.mg.clockMhz = 0 then 64 else (64000 + s.mg.clockMhz.toNat - 1) / s.mg.clockMhz.toNat

/-- Every core with trains ticks, and the package's time passes once; a bank's window ends for a weight read that stalls on it. -/
def timeTurns (s : State) : List Turn :=
  let ns := roundNs s
  let stalled := s.matrix.any fun kv => match opCtx s kv.2 with
    | some o => tvxmStalled s kv.2 o
    | none => false
  (match busyCores s with
    | [] => [ev (.clockTick 0 64 1 ns)]
    | k :: l => ev (.clockTick k 64 1 ns) :: l.map fun k => ev (.clockTick k 64 1 0))
    ++ (if stalled then ((List.range 64).filter fun b => bankBusy s.mg.refreshNs b).map fun b => ev (.refreshWindowEnd b)
        else [])

/-- The turns of a round. -/
def round (s : State) : List Turn :=
  bringUpTurns s ++ walkTurns s ++ s.trains.flatMap (fun kv => trainTurns s kv.1 kv.2)
    ++ s.cores.flatMap (fun kv => coreTurns s kv.1 kv.2) ++ engineTurns s ++ graphTurns s
    ++ (List.range 16).flatMap (ctxTurns s) ++ (busyCores s).flatMap (portTurns s) ++ timeTurns s

/-- With nothing on the agenda a new round begins: a host request that no longer waits comes first. -/
def plan (s : State) : State :=
  match s.hosts.find? fun r => !hostWaits s r with
  | some r => (s.upd (.hosts (s.hosts.erase r))).upd (.agenda (ev (.hostAccess r) :: round s))
  | none => s.upd (.agenda (round s))

end Sys2Proof.Machine
end

