-- ==== Sys2Proof/Machine/Step.lean ====
section
/-! DEFINITION. The step: the next turn of the agenda, or a new round when it is empty; and the placement of an instruction as the next one a step fetches. -/

namespace Sys2Proof.Machine

/-- One turn: an event; the issue of the word that the train at a port stands at, once the port has chosen and the header is fetched; the start of self-test; the completion of a `tlbsync`; a register write. -/
def turn (x : Turn) (s : State) : Host.Outcome State Fault Refusal :=
  match x with
  | .event e => exec e s
  | .selfTest => .next (startSelfTest s)
  | .syncDone train op => execSyncTurn train op s
  | .mmio host off n v => execMmioTurn host off n v s
  | .issue core port =>
    let s := prepareIssue s core port
    match issueAt s core port with
    | .nothing => .next s
    | .illegal id cause => .next (trapCur (s.upd (.cur (some id))) cause none none)
    | .run id i => exec i (s.upd (.cur (some id)))

/-- The step of the machine. -/
def step (s : State) : Host.Outcome State Fault Refusal :=
  match s.agenda with
  | x :: rest => turn x (s.upd (.agenda rest))
  | [] => .next (plan s)

/-! ## Placing an instruction (log entry 20) -/

/-- Where the placed clause stands, as VA and as PA. -/
def placeAt : Nat := 0x10000

/-- The launch record of the one wheel that runs it: one train with every vector register, all of the local store and all tiles, a trap vector; privileged for class Z. -/
def placeLaunch (priv : Bool) : Launch :=
  { entry := 0x10000, query := false, wheelsOrQuery := 1, trains := 1, watched := false, hang := 0, sync := false,
    idempotent := false, strict := false, priv := priv, roleMap := 0, budget := Vector.replicate 4 256,
    prio := Vector.replicate 4 0, local_ := 524288, tiles := 8, param := 0, slots := Vector.replicate 8 0, cmdArea := 0,
    viewWorld := 0, viewVersion := 0, wsBase := 0, wsLen := 262144, trapVector := 0x20000 }

def placeDispatch (priv : Bool) : Dispatch :=
  { sub := 0, order := 0, ctx := 0, node := none, launch := placeLaunch priv, wheels := 1, chunks := [], joined := true,
    started := [0], ended := 0, view := none, failed := none, doom := none, se := false, acq := 0, wts := 0, pins := [] }

def placeWheel : Wheel :=
  { dispatch := 1, index := 0, core := 0, chunk := none, local_ := [], tiles := Vector.replicate 8 Tile.reset,
    geos := Vector.replicate 4 none, rings := Vector.replicate 4 none, colls := [] }

/-- The cached translation of the page. -/
def placeTlb (tag : Half) : Tlb :=
  { tag := tag, page := placeAt, big := false, pa := placeAt, attr := .cached, place := 1, r := true, w := true, x := true,
    d := true, mig := false, count := 0 }

/-- The state in which the next step issues, on port 0 of core 0, the instruction whose header and word are the bits of `w`: full service, one resident train at its clause, the page translated. -/
def State.withFetchWord (s : State) (nbits w : Nat) : State :=
  let v := w % 2 ^ nbits
  let priv := bits v 60 4 == 8
  { s with
    agenda := [.issue 0 0]
    mg := { s.mg with svc := 4 }
    mem := Bytes.write s.mem placeAt 16 v
    dispatches := [(1, placeDispatch priv)]
    wheels := [(1, placeWheel)]
    trains := [(1, (Train.start 1 0 0x10000 0xFFFFFFFF).norm)]
    cores := [(0, { s.core 0 with tlb := [placeTlb (s.ctx 0).xtag], ports := ⟨#[none, none], rfl⟩ })] }

end Sys2Proof.Machine
end

