-- ==== Sys2Proof/Safety.lean ====
section
/-! DEFINITION. The terms claims are stated in: the invariant of the machine, the shapes of an instruction's effect and the numbers the spec's tables compute with, written apart from the meanings. -/

namespace Sys2Proof.Machine

/-! ## The invariant -/

/-- What every train of the machine keeps: em lies inside LIVE (R61), p7 reads 1 (R97), the program counter is a multiple of 8 (R44), and an open bracket keeps em inside OPEN outside trap mode (R224). -/
structure Train.Ok (t : Train) : Prop where
  live : t.em &&& ~~~t.live = 0
  p7 : t.p[7] = 0xFFFFFFFF
  pc : t.pc &&& 7 = 0
  opened : t.inTx → t.em &&& ~~~t.tx.opened = 0

/-- The keys of a finite map rise strictly. -/
def KeysRise {α : Type} (m : AMap α) : Prop := (m.map (·.1)).Pairwise (· < ·)

/-- What holds of the machine between steps: both byte memories are in canonical form, every train is as it must be, the maps are in order, and the ranged registers are in range (R365, R367). -/
structure State.Inv (s : State) : Prop where
  mem : Memory.wf s.mem
  wmem : Memory.wf s.wmem
  trains : ∀ id t, AMap.get? s.trains id = some t → t.Ok
  keys : KeysRise s.trains ∧ KeysRise s.wheels ∧ KeysRise s.dispatches ∧ KeysRise s.jobs ∧ KeysRise s.nodes
  caches : KeysRise s.cores ∧ KeysRise s.l2 ∧ KeysRise s.l3 ∧ KeysRise s.walks ∧ KeysRise s.images
  queues : KeysRise s.esu ∧ KeysRise s.matrix ∧ KeysRise s.stream ∧ KeysRise s.ray
  plimit : 300 ≤ s.mg.plimit.toNat ∧ s.mg.plimit.toNat ≤ 2600
  ctxs : ∀ c, 0x10000 ≤ (s.ctx c).hangLimit.toNat ∧ (s.ctx c).hangLimit.toNat ≤ 0x10000000000 ∧
    1 ≤ (s.ctx c).lease.toNat ∧ (s.ctx c).lease.toNat ≤ 65535

/-! ## Going on to the next word -/

/-- A latch whose lane L holds `v L` (R49). -/
def LatchIs (unif : Bool) (n : Nat) (v : Nat → DWord) (l : Option Latch) : Prop :=
  ∃ x, l = some x ∧ x.unif = unif ∧ x.wide = (n == 2) ∧ ∀ L, L < 32 → x.vals.at L = v L

/-- The trap registers after the clause: what its `zwr` have written takes effect (R368). -/
def Iss.trapNext (r : Iss) : TrapRegs :=
  match r.c.zw with
  | some z => { z with tm := r.t.trap.tm }
  | none => r.t.trap

/-- The train stands at the next word of its clause, whose latch list begins with a result that `latch` describes, or its clause has ended and it stands at the next header (R43, R44, R49). -/
def GoesOn (r : Iss) (latch : Option Latch → Prop) (x : Train) : Prop :=
  x.readyAge = 0 ∧ x.stall = false ∧
  if r.c.idx + 1 < r.c.words.length then
    (∃ l, latch l ∧ x.clause = some { r.c with
      idx := r.c.idx + 1, latches := (if r.c.resumed then none else l) :: r.c.latches }) ∧
    x.pc = r.c.hdr + BitVec.ofNat 64 (8 * (r.c.idx + 2)) ∧ x.retired = r.t.retired ∧
    x.yielded = r.t.yielded ∧ x.trap = r.t.trap
  else
    x.clause = none ∧ x.pc = r.c.hdr + BitVec.ofNat 64 (8 * (r.c.words.length + 1)) ∧
    x.retired = r.t.retired + 1 ∧ x.yielded = r.c.word.getLsbD 47 ∧ x.trap = r.trapNext

/-- The clause has ended and the next header is at `pc` (R44). -/
def EndsAt (r : Iss) (pc : DWord) (yields : Bool) (x : Train) : Prop :=
  x.clause = none ∧ x.pc = pc ∧ x.retired = r.t.retired + 1 ∧ x.readyAge = 0 ∧ x.stall = false ∧
    x.yielded = (yields || r.c.word.getLsbD 47) ∧ x.trap = { r.trapNext with tm := x.trap.tm }

/-- The train `x` differs from the issuing one in its registers and its place in the program only, and in the trap registers that a `zwr` of its clause left for the next one (R368). -/
def OnlyRegs (r : Iss) (x : Train) : Prop :=
  (x.trap = r.t.trap ∨ x.trap = r.trapNext) ∧ x = { r.t with
    s := x.s, v := x.v, p := x.p, clause := x.clause, pc := x.pc, retired := x.retired,
    readyAge := x.readyAge, yielded := x.yielded, stall := x.stall, trap := x.trap }

/-- The instruction waits in place: the machine is as before, but for the note that its train has waited (R47, R78). -/
def waited (s : State) (r : Iss) : State := s.upd (.train r.id (some { r.t with stall := true }))

/-- The issuing train once the last-use bits of the instruction are applied (R48). -/
def Iss.freed (r : Iss) : Train := r.t.frees r.c r.u

/-- The same for an instruction that may have parked: what it has written in lanes completed before stands over its last-use bits (R48, R168). -/
def Iss.left (r : Iss) : Train := r.freesDone r.t

/-! ## Register results (R54, R57, R87) -/

/-- `n` registers of `d` hold `f L` in the active lanes of a vector destination, `u` in a scalar one when `go`; every other register is as after the last-use bits. -/
structure Wrote (r : Iss) (d : Dst) (n : Nat) (go : Bool) (f : Nat → DWord) (u : DWord) (x : Train) : Prop where
  vec : ∀ k L, L < 32 → (x.vreg k).at L =
    if d.nowb = false ∧ d.scalar = false ∧ d.idx.toNat ≤ k ∧ k < d.idx.toNat + n ∧ r.act.getLsbD L
    then (f L).extractLsb' (32 * (k - d.idx.toNat)) 32 else (r.freed.vreg k).at L
  sca : ∀ k, x.sreg k =
    if go ∧ d.nowb = false ∧ d.scalar = true ∧ d.idx.toNat ≤ k ∧ k < d.idx.toNat + n
    then u.extractLsb' (32 * (k - d.idx.toNat)) 32 else r.freed.sreg k

/-- The instruction completes and writes `f`, by lane, or once in the lowest active lane when its destination is scalar; nothing else of the machine changes. -/
def RegResult (s : State) (i : Instr) (r : Iss) (d : Dst) (n : Nat) (f : Nat → DWord) : Prop :=
  ∃ x, exec i s = .next (s.upd (.train r.id (some x))) ∧
    Wrote r d n (r.act != 0) f (f r.L0) x ∧
    GoesOn r (LatchIs d.scalar n fun L =>
      if d.scalar then if r.act = 0 then 0 else f r.L0 else if r.act.getLsbD L then f L else 0) x ∧
    x.p = r.t.p ∧ OnlyRegs r x

/-- A reducing instruction completes: a scalar destination takes `u` under PRED = always or when a lane is active (R108). -/
def RedResult (s : State) (i : Instr) (r : Iss) (d : Dst) (n : Nat) (u : DWord) : Prop :=
  ∃ x, exec i s = .next (s.upd (.train r.id (some x))) ∧
    Wrote r d n (r.u.g == 7#4 || r.act != 0) (fun _ => u) u x ∧
    GoesOn r (LatchIs true n fun _ => if r.u.g == 7#4 || r.act != 0 then u else 0) x ∧
    x.p = r.t.p ∧ OnlyRegs r x

/-- A predicate result: the active lanes of `d` take the bits of `m` (R54, R97). -/
def PredResult (s : State) (i : Instr) (r : Iss) (d : PDst) (m : Mask) : Prop :=
  ∃ x, exec i s = .next (s.upd (.train r.id (some x))) ∧
    (∀ k, k < 8 → x.pred k =
      if d.nowb = false ∧ k = d.p.toNat ∧ k ≠ 7 then (r.t.pred k &&& ~~~r.act) ||| (m &&& r.act)
      else r.t.pred k) ∧
    x.s = r.freed.s ∧ x.v = r.freed.v ∧ GoesOn r (· = none) x ∧ OnlyRegs r x

/-! ## The numbers of the spec's tables -/

/-- The number an operand denotes under TY: its low w bits, two's complement for `.s`, unsigned for `.n` (R88, R89). -/
def numOf (ty : IntTy) (x : DWord) : Int :=
  match ty with
  | .s32 => (x.setWidth 32).toInt
  | .n32 => ((x.setWidth 32).toNat : Int)
  | .s64 => x.toInt
  | .n64 => (x.toNat : Int)
  | .s16 => (x.setWidth 16).toInt
  | .n16 => ((x.setWidth 16).toNat : Int)
  | .s8 => (x.setWidth 8).toInt
  | .n8 => ((x.setWidth 8).toNat : Int)

/-- Lowest and highest value of a type (R92). -/
def typeLo : IntTy → Int
  | .s32 => -2147483648
  | .s64 => -9223372036854775808
  | .s16 => -32768
  | .s8 => -128
  | _ => 0

def typeHi : IntTy → Int
  | .s32 => 2147483647
  | .n32 => 4294967295
  | .s64 => 9223372036854775807
  | .n64 => 18446744073709551615
  | .s16 => 32767
  | .n16 => 65535
  | .s8 => 127
  | .n8 => 255

/-- An exact result mod 2^w, extended to the register width by TY (R92); results of one register stand in the low half. -/
def putNum (ty : IntTy) (x : Int) : DWord :=
  match ty with
  | .s32 | .n32 => (BitVec.ofInt 32 x).setWidth 64
  | .s64 | .n64 => BitVec.ofInt 64 x
  | .s16 => ((BitVec.ofInt 16 x).signExtend 32).setWidth 64
  | .n16 => (BitVec.ofInt 16 x).setWidth 64
  | .s8 => ((BitVec.ofInt 8 x).signExtend 32).setWidth 64
  | .n8 => (BitVec.ofInt 8 x).setWidth 64

def satNum (sat : Bool) (ty : IntTy) (x : Int) : DWord :=
  putNum ty (if sat then min (max x (typeLo ty)) (typeHi ty) else x)

/-- 2^w. -/
def modOf : IntTy → Int
  | .s32 | .n32 => 4294967296
  | .s64 | .n64 => 18446744073709551616
  | .s16 | .n16 => 65536
  | .s8 | .n8 => 256

/-- A bitwise operation at the width TY gives: 64 bits, or the low 32. -/
def atWidth (ty : IntTy) (f32 : Word) (f64 : DWord) : DWord :=
  match ty with
  | .s64 | .n64 => f64
  | _ => f32.setWidth 64

/-! ## What the instructions of class V write: destination, registers, value by lane -/

abbrev VRes := Option (Dst × Nat × (Nat → DWord))

/-- Moves, integer arithmetic and the address forms (R91 to R93). -/
def intTable (r : Iss) : Instr → VRes
  | .mov _ ty d a => some (d, ty.regs, fun L => r.n ty.regs a L)
  | .movk _ d a b => some (d, 2, fun L => r.x b L ++ r.x a L)
  | .sel _ ty d a b p => some (d, ty.regs, fun L =>
      if (r.t.pred p.toNat).getLsbD L then r.n ty.regs a L else r.n ty.regs b L)
  | .iadd _ sat ty d a b => some (d, ty.regs, fun L =>
      satNum sat ty (numOf ty (r.n ty.regs a L) + numOf ty (r.n ty.regs b L)))
  | .isub _ sat ty d a b => some (d, ty.regs, fun L =>
      satNum sat ty (numOf ty (r.n ty.regs a L) - numOf ty (r.n ty.regs b L)))
  | .imul _ sat ty d a b => some (d, ty.regs, fun L =>
      satNum sat ty (numOf ty (r.n ty.regs a L) * numOf ty (r.n ty.regs b L)))
  | .imulh _ ty d a b => some (d, ty.regs, fun L =>
      satNum false ty (numOf ty (r.n ty.regs a L) * numOf ty (r.n ty.regs b L) / modOf ty))
  | .imad _ sat ty d a b c => some (d, ty.regs, fun L =>
      satNum sat ty (numOf ty (r.n ty.regs a L) * numOf ty (r.n ty.regs b L) + numOf ty (r.n ty.regs c L)))
  | .imin _ ty d a b => some (d, ty.regs, fun L =>
      satNum false ty (min (numOf ty (r.n ty.regs a L)) (numOf ty (r.n ty.regs b L))))
  | .imax _ ty d a b => some (d, ty.regs, fun L =>
      satNum false ty (max (numOf ty (r.n ty.regs a L)) (numOf ty (r.n ty.regs b L))))
  | .iabs _ sat ty d a => some (d, ty.regs, fun L =>
      satNum sat ty (if numOf ty (r.n ty.regs a L) < 0 then -numOf ty (r.n ty.regs a L) else numOf ty (r.n ty.regs a L)))
  | .iaddx _ uns d a b => some (d, 2, fun L =>
      r.d a L + (if uns then (r.x b L).setWidth 64 else (r.x b L).signExtend 64))
  | .imadx _ uns d a b c => some (d, 2, fun L =>
      (if uns then (r.x a L).setWidth 64 else (r.x a L).signExtend 64) *
        (if uns then (r.x b L).setWidth 64 else (r.x b L).signExtend 64) + r.d c L)
  | _ => none

/-- Bitwise operations, shifts and bit fields (R94 to R96). -/
def bitTable (r : Iss) : Instr → VRes
  | .and _ ty d a b => some (d, ty.regs, fun L =>
      atWidth ty (r.x a L &&& r.x b L) (r.d a L &&& r.d b L))
  | .or _ ty d a b => some (d, ty.regs, fun L =>
      atWidth ty (r.x a L ||| r.x b L) (r.d a L ||| r.d b L))
  | .xor _ ty d a b => some (d, ty.regs, fun L =>
      atWidth ty (r.x a L ^^^ r.x b L) (r.d a L ^^^ r.d b L))
  | .andn _ ty d a b => some (d, ty.regs, fun L =>
      atWidth ty (r.x a L &&& ~~~r.x b L) (r.d a L &&& ~~~r.d b L))
  | .shl _ ty d a b => some (d, ty.regs, fun L =>
      atWidth ty (r.x a L <<< (r.x b L).toNat) (r.d a L <<< (r.x b L).toNat))
  | .shr _ ty d a b => some (d, ty.regs, fun L =>
      atWidth ty (r.x a L >>> (r.x b L).toNat) (r.d a L >>> (r.x b L).toNat))
  | .sra _ ty d a b => some (d, ty.regs, fun L =>
      atWidth ty ((r.x a L).sshiftRight (r.x b L).toNat) ((r.d a L).sshiftRight (r.x b L).toNat))
  | .rot _ ty d a b => some (d, ty.regs, fun L =>
      atWidth ty ((r.x a L).rotateLeft (r.x b L).toNat) ((r.d a L).rotateLeft (r.x b L).toNat))
  | .brev _ ty d a => some (d, ty.regs, fun L =>
      atWidth ty (r.x a L).reverse (r.d a L).reverse)
  | _ => none

/-! ## The numbers of the floating formats (R101 to R106), over ℚ -/

/-- What a pattern of a binary format stands for: a NaN, an infinity, or a sign and a magnitude. -/
inductive FNum where
  | nan
  | inf (neg : Bool)
  | fin (neg : Bool) (x : ℚ)

/-- The magnitude of a pattern without its sign, subnormals included, as if the exponent had no upper end. -/
def magOf (f : Fmt) (k : Nat) : ℚ :=
  let m : ℚ := (k % 2 ^ (f.p - 1) : Nat)
  if k / 2 ^ (f.p - 1) = 0 then m * 2 ^ f.emin
  else (2 ^ (f.p - 1) + m) * 2 ^ (f.emin + (k / 2 ^ (f.p - 1) : Nat) - 1)

/-- The number of a pattern: the sign bit stands above the pattern of the magnitude. -/
def numAt (f : Fmt) (k : Nat) : FNum :=
  let neg := (k / f.sign) % 2 == 1
  if k % f.sign = f.inf then .inf neg else if f.inf < k % f.sign then .nan else .fin neg (magOf f (k % f.sign))

/-- The number an F32 source denotes in a lane. -/
def f32At (r : Iss) (a : Src) (L : Nat) : FNum := numAt f32 (r.x a L).toNat

def signed (neg : Bool) (x : ℚ) : ℚ := if neg then -x else x

/-- (−1)^neg times the pattern `k`. -/
def signedPat (f : Fmt) (neg : Bool) (k : Nat) : Nat := if neg then f.sign + k else k

def FNum.negated : FNum → FNum
  | .nan => .nan
  | .inf b => .inf (!b)
  | .fin b x => .fin (!b) x

/-- The exact product; 0 × ∞ is a NaN (R102). -/
def FNum.times : FNum → FNum → FNum
  | .inf a, .inf b => .inf (a != b)
  | .inf a, .fin b x => if x = 0 then .nan else .inf (a != b)
  | .fin a x, .inf b => if x = 0 then .nan else .inf (a != b)
  | .fin a x, .fin b y => .fin (a != b) (x * y)
  | _, _ => .nan

/-- The exact sum; ∞ − ∞ is a NaN, two zeros of one sign keep it, and every other zero sum is −0 under RDN alone (R101, R102). -/
def FNum.plus (rnd : Rnd) : FNum → FNum → FNum
  | .inf a, .inf b => if a = b then .inf a else .nan
  | .inf a, .fin _ _ => .inf a
  | .fin _ _, .inf b => .inf b
  | .fin a x, .fin b y =>
    if signed a x + signed b y = 0 then .fin (if x = 0 ∧ y = 0 ∧ a = b then a else decide (rnd = .rdn)) 0
    else .fin (decide (signed a x + signed b y < 0)) |signed a x + signed b y|
  | _, _ => .nan

/-- The magnitude `a` of a number of sign `neg` rounds to the point `k` of the rising grid `g`: one of the two points about it, by the direction, a tie under RNE to the even one. -/
def RoundsOn (g : Nat → ℚ) (rnd : Rnd) (neg : Bool) (a : ℚ) (k : Nat) : Prop :=
  ∃ lo, g lo ≤ a ∧ a < g (lo + 1) ∧
    ((k = lo ∧ match rnd with
      | .rne => 2 * a < g lo + g (lo + 1) ∨ (2 * a = g lo + g (lo + 1) ∧ lo % 2 = 0)
      | .rtz => True
      | .rdn => neg = false ∨ g lo = a
      | .rup => neg = true ∨ g lo = a) ∨
    (k = lo + 1 ∧ match rnd with
      | .rne => g lo + g (lo + 1) < 2 * a ∨ (2 * a = g lo + g (lo + 1) ∧ lo % 2 = 1)
      | .rtz => False
      | .rdn => neg = true ∧ g lo < a
      | .rup => neg = false ∧ g lo < a))

/-- Whether an overflow of this sign gives ∞ under the direction (R102). -/
def overflowsToInf (rnd : Rnd) (neg : Bool) : Prop :=
  rnd = .rne ∨ (rnd = .rdn ∧ neg = true) ∨ (rnd = .rup ∧ neg = false)

/-- `y` is the pattern of the number `v` rounded once: the canonical NaN, ∞, or a finite value, an overflow by the direction; under SATF the largest finite value stands for every infinity (R101, R102, R104). -/
def Packs (f : Fmt) (rnd : Rnd) (satf : Bool) (v : FNum) (y : Nat) : Prop :=
  match v with
  | .nan => y = f.nan
  | .inf neg => y = signedPat f neg (if satf then f.big else f.inf)
  | .fin neg a => ∃ k, RoundsOn (magOf f) rnd neg a k ∧
      (k < f.inf → y = signedPat f neg k) ∧
      (f.inf ≤ k → ((overflowsToInf rnd neg ∧ satf = false) → y = signedPat f neg f.inf) ∧
        (¬(overflowsToInf rnd neg ∧ satf = false) → y = signedPat f neg f.big))

/-- SAT, after rounding: below +0.0, −0.0 and a NaN give +0.0, above 1.0 gives 1.0 (R101). -/
def satPat (z : Nat) : Nat :=
  match numAt f32 z with
  | .nan => 0
  | .inf neg => if neg then 0 else 0x3F800000
  | .fin neg x => if neg then 0 else if 1 < x then 0x3F800000 else z

/-- The F32 value of an exact result, rounded once and then saturated. -/
def Rounds32 (sat : Bool) (rnd : Rnd) (v : FNum) (y : Nat) : Prop :=
  ∃ z, Packs f32 rnd false v z ∧ y = if sat then satPat z else z

/-- The order of F32 patterns that are no NaN, −0 below +0: sign and magnitude. -/
def orderOf (w : Word) : Int := if w.msb then -1 - (w.toNat - 2147483648) else w.toNat

/-- minimumNumber and maximumNumber (R102): `le x y` says that x may stand for the two. -/
def PicksBy (le : Word → Word → Prop) (a b : Word) (y : Nat) : Prop :=
  match numAt f32 a.toNat, numAt f32 b.toNat with
  | .nan, .nan => y = 0x7FC00000
  | .nan, _ => y = b.toNat
  | _, .nan => y = a.toNat
  | _, _ => (y = a.toNat ∧ le a b) ∨ (y = b.toNat ∧ le b a)

/-- A half of a paired source: the named half, or in both the value of an F32 constant entry rounded RNE (R53, R104). -/
def HalfIs (bf : Bool) (a : Src) (w : Word) (h : Bool) (k : Nat) : Prop :=
  match a with
  | .c e => if isF32Entry e then Packs (hfmt bf) .rne false (numAt f32 w.toNat) k else k = (w.extractLsb' (if h then 16 else 0) 16).toNat
  | _ => k = (w.extractLsb' (if h then 16 else 0) 16).toNat

/-- Each half of `y` is what `Q` says of it. -/
def BothHalves (y : Nat) (Q : Bool → Nat → Prop) : Prop := Q false (y % 65536) ∧ Q true (y / 65536)

/-- The exact results Table 5-8 lists for the special functions, by the number of the source; any other source gives a value within a bound, which is no part of this. -/
def RcpIs (v : FNum) (y : Nat) : Prop :=
  match v with
  | .nan => y = 0x7FC00000
  | .inf neg => y = signedPat f32 neg 0
  | .fin neg x => (x = 0 → y = signedPat f32 neg f32.inf) ∧
      (x ≠ 0 → 1 / x < 2 ^ 128 → ∀ k : Int, x = 2 ^ k → numAt f32 y = .fin neg (2 ^ (-k)))

def RsqIs (v : FNum) (y : Nat) : Prop :=
  match v with
  | .nan => y = 0x7FC00000
  | .inf neg => y = if neg then 0x7FC00000 else 0
  | .fin neg x => (x = 0 → y = signedPat f32 neg f32.inf) ∧ (x ≠ 0 → neg = true → y = 0x7FC00000) ∧
      (neg = false → ∀ k : Int, x = 2 ^ (2 * k) → numAt f32 y = .fin false (2 ^ (-k)))

/-- √ rounded to nearest: the point of the format next to the root, told by squares. -/
def SqrtIs (a : Nat) (v : FNum) (y : Nat) : Prop :=
  match v with
  | .nan => y = 0x7FC00000
  | .inf neg => y = if neg then 0x7FC00000 else a
  | .fin neg x => (x = 0 → y = a) ∧ (x ≠ 0 → neg = true → y = 0x7FC00000) ∧
      (x ≠ 0 → neg = false → ∃ lo, magOf f32 lo ^ 2 ≤ x ∧ x < magOf f32 (lo + 1) ^ 2 ∧
        ((y = lo ∧ (4 * x < (magOf f32 lo + magOf f32 (lo + 1)) ^ 2 ∨
            (4 * x = (magOf f32 lo + magOf f32 (lo + 1)) ^ 2 ∧ lo % 2 = 0))) ∨
          (y = lo + 1 ∧ ((magOf f32 lo + magOf f32 (lo + 1)) ^ 2 < 4 * x ∨
            (4 * x = (magOf f32 lo + magOf f32 (lo + 1)) ^ 2 ∧ lo % 2 = 1)))))

def Exp2Is (v : FNum) (y : Nat) : Prop :=
  match v with
  | .nan => y = 0x7FC00000
  | .inf neg => y = if neg then 0 else 0x7F800000
  | .fin neg x => (128 ≤ signed neg x → y = 0x7F800000) ∧ (signed neg x < -150 → y = 0) ∧
      ∀ n : Int, -149 ≤ n → n ≤ 127 → signed neg x = n → numAt f32 y = .fin false (2 ^ n)

def Log2Is (v : FNum) (y : Nat) : Prop :=
  match v with
  | .nan => y = 0x7FC00000
  | .inf neg => y = if neg then 0x7FC00000 else 0x7F800000
  | .fin neg x => (x = 0 → y = 0xFF800000) ∧ (x ≠ 0 → neg = true → y = 0x7FC00000) ∧
      (neg = false → ∀ k : Int, x = 2 ^ k → numAt f32 y = .fin (decide (k < 0)) |(k : ℚ)|)

/-- Sine, or cosine one quarter on, of a number of turns. -/
def TurnIs (isCos : Bool) (v : FNum) (y : Nat) : Prop :=
  match v with
  | .fin neg x => ∀ n : Int, 4 * signed neg x = n →
      let q := (if isCos then n + 1 else n) % 4
      (q = 1 → y = 0x3F800000) ∧ (q = 3 → y = 0xBF800000) ∧
        (q = 0 ∨ q = 2 → y = if isCos = false ∧ neg = true ∧ x = 0 then 0x80000000 else 0)
  | _ => y = 0x7FC00000

/-- A number rounded to an integral magnitude (R102, R105). -/
def FrndIs (rnd : Rnd) (a : Nat) (v : FNum) (y : Nat) : Prop :=
  match v with
  | .nan => y = 0x7FC00000
  | .inf _ => y = a
  | .fin neg x => ∃ n : Nat, RoundsOn (fun j => (j : ℚ)) rnd neg x n ∧ numAt f32 y = .fin neg n

/-- F32 to an integer, the nearest end of the range outside it, ±∞ to the ends and a NaN to 0 (R105). -/
def CvtiIs (rnd : Rnd) (lo hi : Int) (v : FNum) (z : Int) : Prop :=
  match v with
  | .nan => z = 0
  | .inf neg => z = if neg then lo else hi
  | .fin neg x => ∃ n : Nat, RoundsOn (fun j => (j : ℚ)) rnd neg x n ∧
      z = max lo (min hi (if neg then -(n : Int) else n))

/-- `cvth.pk` of one source: an infinity stays one, and SATF covers overflow alone (R106). -/
def NarrowIs (bf satf : Bool) (rnd : Rnd) (v : FNum) (y : Nat) : Prop :=
  match v with
  | .inf neg => y = signedPat (hfmt bf) neg (hfmt bf).inf
  | _ => Packs (hfmt bf) rnd satf v y

/-- A result of 32 bits whose pattern satisfies `Q`. -/
def is32 (Q : Nat → Nat → Prop) (L : Nat) (v : DWord) : Prop :=
  ∃ y, y < 4294967296 ∧ v = BitVec.ofNat 64 y ∧ Q L y

/-- FP32, special functions, paired 16-bit arithmetic, conversions and the two K forms of FP32 (R101 to R106, R113): what the value has to be. -/
def floatTable (r : Iss) : Instr → Option (Dst × Nat × (Nat → DWord → Prop))
  | .fadd _ sat rnd d a b => some (d, 1, is32 fun L => Rounds32 sat rnd ((f32At r a L).plus rnd (f32At r b L)))
  | .fsub _ sat rnd d a b => some (d, 1, is32 fun L => Rounds32 sat rnd ((f32At r a L).plus rnd (f32At r b L).negated))
  | .fmul _ sat rnd d a b => some (d, 1, is32 fun L => Rounds32 sat rnd ((f32At r a L).times (f32At r b L)))
  | .ffma _ sat rnd d a b c => some (d, 1, is32 fun L =>
      Rounds32 sat rnd (((f32At r a L).times (f32At r b L)).plus rnd (f32At r c L)))
  | .faddK _ d a imm => some (d, 1, is32 fun L => Rounds32 false .rne ((f32At r a L).plus .rne (numAt f32 imm.toNat)))
  | .fmulK _ d a imm => some (d, 1, is32 fun L => Rounds32 false .rne ((f32At r a L).times (numAt f32 imm.toNat)))
  | .fmin _ d a b => some (d, 1, is32 fun L => PicksBy (fun x y => orderOf x ≤ orderOf y) (r.x a L) (r.x b L))
  | .fmax _ d a b => some (d, 1, is32 fun L => PicksBy (fun x y => orderOf y ≤ orderOf x) (r.x a L) (r.x b L))
  | .frnd _ rnd d a => some (d, 1, is32 fun L => FrndIs rnd (r.x a L).toNat (f32At r a L))
  | .frcp _ d a => some (d, 1, is32 fun L => RcpIs (f32At r a L))
  | .frsq _ d a => some (d, 1, is32 fun L => RsqIs (f32At r a L))
  | .fsqrt _ d a => some (d, 1, is32 fun L => SqrtIs (r.x a L).toNat (f32At r a L))
  | .fexp2 _ d a => some (d, 1, is32 fun L => Exp2Is (f32At r a L))
  | .flog2 _ d a => some (d, 1, is32 fun L => Log2Is (f32At r a L))
  | .fsin _ d a => some (d, 1, is32 fun L => TurnIs false (f32At r a L))
  | .fcos _ d a => some (d, 1, is32 fun L => TurnIs true (f32At r a L))
  | .hadd2 _ satf rnd bf d a b => some (d, 1, is32 fun L y => BothHalves y fun h z => ∃ j k,
      HalfIs bf a (r.x a L) h j ∧ HalfIs bf b (r.x b L) h k ∧
      Packs (hfmt bf) rnd satf ((numAt (hfmt bf) j).plus rnd (numAt (hfmt bf) k)) z)
  | .hmul2 _ satf rnd bf d a b => some (d, 1, is32 fun L y => BothHalves y fun h z => ∃ j k,
      HalfIs bf a (r.x a L) h j ∧ HalfIs bf b (r.x b L) h k ∧
      Packs (hfmt bf) rnd satf ((numAt (hfmt bf) j).times (numAt (hfmt bf) k)) z)
  | .hfma2 _ satf rnd bf d a b c => some (d, 1, is32 fun L y => BothHalves y fun h z => ∃ j k l,
      HalfIs bf a (r.x a L) h j ∧ HalfIs bf b (r.x b L) h k ∧ HalfIs bf c (r.x c L) h l ∧
      Packs (hfmt bf) rnd satf
        (((numAt (hfmt bf) j).times (numAt (hfmt bf) k)).plus rnd (numAt (hfmt bf) l)) z)
  | .cvti _ rnd ty d a => some (d, ty.regs, fun L v =>
      ∃ z, v = putNum ty z ∧ CvtiIs rnd (typeLo ty) (typeHi ty) (f32At r a L) z)
  | .cvtf _ rnd ty d a => some (d, 1, is32 fun L =>
      Packs f32 rnd false (.fin (decide (numOf ty (r.n ty.regs a L) < 0)) |(numOf ty (r.n ty.regs a L) : ℚ)|))
  | .cvth _ d (.pk satf rnd bf a b) => some (d, 1, is32 fun L y => BothHalves y fun h =>
      NarrowIs bf satf rnd (f32At r (if h then b else a) L))
  | .cvth _ d (.up bf hi a) => some (d, 1, is32 fun L y =>
      match numAt (hfmt bf) ((r.x a L).extractLsb' (if hi then 16 else 0) 16).toNat with
      | .nan => y = 0x7FC00000
      | x => numAt f32 y = x)
  | _ => none

/-- A 32-bit or 64-bit lane value. -/
def laneVal (r : Iss) (w : Bool) (a : Src) (L : Nat) : DWord := if w then r.d a L else (r.x a L).setWidth 64

/-- Registers of a 32-bit or 64-bit lane value. -/
def laneRegs (w : Bool) : Nat := if w then 2 else 1

/-- Source lane of `shfl` (R109). -/
def ringLane (mode : ShMode) (L n : Nat) : Nat :=
  match mode with
  | .abs => n % 32
  | .sub => (L + 32 - n % 32) % 32
  | .add => (L + n % 32) % 32
  | .flip => L ^^^ (n % 32)

/-- Lanes of a segment, 2^(SEG+1). -/
def segLanes : Seg → Nat
  | .seg2 => 2
  | .seg4 => 4
  | .seg8 => 8
  | .seg16 => 16
  | .seg32 => 32

/-- `k` is the source lane of `shfx` in lane L: inside the segment of L, on unbounded integers (R109). -/
def SegLane (mode : ShMode) (S L n k : Nat) : Prop :=
  L / S * S ≤ k ∧ k < L / S * S + S ∧
    match mode with
    | .abs => k = L / S * S + n % S
    | .sub => (k : Int) = (L : Int) - n
    | .add => k = L + n
    | .flip => k = L ^^^ (n % S)

/-- The combination of a list of values, and the identity when it is empty (R111). -/
def combine (op : ScanOp) (ty : IntTy) (xs : List DWord) : DWord :=
  match op with
  | .add => putNum ty (xs.map (numOf ty)).sum
  | .min => putNum ty ((xs.map (numOf ty)).foldl min (typeHi ty))
  | .max => putNum ty ((xs.map (numOf ty)).foldl max (typeLo ty))
  | .or => xs.foldl (· ||| ·) 0

/-- Values of the active lanes that `keep` selects, in increasing lane order. -/
def laneVals (r : Iss) (n : Nat) (a : Src) (keep : Nat → Bool) : List DWord :=
  ((List.range 32).filter fun K => r.act.getLsbD K && keep K).map (r.n n a)

/-- Shuffles within the ring of lanes and scans (R109, R111). -/
def laneTable (r : Iss) : Instr → VRes
  | .shfl _ w mode d a n => some (d, laneRegs w, fun L => laneVal r w a (ringLane mode L (r.x n L).toNat))
  | .iscan _ ty excl op d a => some (d, ty.regs, fun L =>
      combine op (ScanTy.ity ty) (laneVals r ty.regs a fun K => K < L || (!excl && K == L)))
  | _ => none

/-- K forms: the MOD = 0 variant with IMM32 as second source (R113). -/
def kTable (r : Iss) : Instr → VRes
  | .movK _ d imm => some (d, 1, fun _ => imm.setWidth 64)
  | .iaddK _ d a imm => some (d, 1, fun L => (r.x a L + imm).setWidth 64)
  | .isubK _ d a imm => some (d, 1, fun L => (r.x a L - imm).setWidth 64)
  | .imulK _ d a imm => some (d, 1, fun L => (r.x a L * imm).setWidth 64)
  | .andK _ d a imm => some (d, 1, fun L => (r.x a L &&& imm).setWidth 64)
  | .orK _ d a imm => some (d, 1, fun L => (r.x a L ||| imm).setWidth 64)
  | .xorK _ d a imm => some (d, 1, fun L => (r.x a L ^^^ imm).setWidth 64)
  | .shlK _ d a imm => some (d, 1, fun L => (r.x a L <<< imm.toNat).setWidth 64)
  | .shrK _ d a imm => some (d, 1, fun L => (r.x a L >>> imm.toNat).setWidth 64)
  | .sraK _ d a imm => some (d, 1, fun L => ((r.x a L).sshiftRight imm.toNat).setWidth 64)
  | .faddK _ d a imm => some (d, 1, fun L => (fadd32 false .rne (r.x a L) imm).setWidth 64)
  | .fmulK _ d a imm => some (d, 1, fun L => (fmul32 false .rne (r.x a L) imm).setWidth 64)
  | _ => none

/-- Width of a type in bits, for the types that only give a width. -/
def widthOf (ty : IntTy) : Nat := if ty.regs = 2 then 64 else 32

/-- Bit `j` of the field that starts at bits 7:0 of `f` and has the length in bits 15:8, at most w (R96). -/
def fieldStart (f : Word) : Nat := (f.extractLsb' 0 8).toNat
def fieldLength (ty : IntTy) (f : Word) : Nat := min (f.extractLsb' 8 8).toNat (widthOf ty)

/-- What a value has to be: bit fields, counts, the truth table of `lop3`, the segmented shuffle, `ired` to a vector (R94 to R96, R109, R111). -/
def fieldTable (r : Iss) : Instr → Option (Dst × Nat × (Nat → DWord → Prop))
  | .lop3 _ d a b t => some (d, 1, fun L v =>
      ∀ j, j < 64 → v.getLsbD j = (decide (j < 32) && (r.x0 t).getLsbD (((if (oldDst r.t d L).getLsbD j then 1 else 0) +
        (if (r.x a L).getLsbD j then 2 else 0)) + (if (r.x b L).getLsbD j then 4 else 0))))
  | .bfx _ ty d a f => some (d, ty.regs, fun L v =>
      ∀ j, j < 64 → v.getLsbD j = (decide (j < widthOf ty) &&
        if j < fieldLength ty (r.x f L) then (r.n ty.regs a L).getLsbD (fieldStart (r.x f L) + j)
        else ty.signed && decide (0 < fieldLength ty (r.x f L)) &&
          (r.n ty.regs a L).getLsbD (fieldStart (r.x f L) + fieldLength ty (r.x f L) - 1)))
  | .bfi _ ty d a b f => some (d, ty.regs, fun L v =>
      ∀ j, j < 64 → v.getLsbD j = (decide (j < widthOf ty) &&
        if fieldStart (r.x f L) ≤ j ∧ j < fieldStart (r.x f L) + fieldLength ty (r.x f L)
        then (r.n ty.regs b L).getLsbD (j - fieldStart (r.x f L)) else (r.n ty.regs a L).getLsbD j))
  | .popc _ ty d a => some (d, 1, fun L v =>
      v.toNat = ((List.range (widthOf ty)).filter fun j => (r.n ty.regs a L).getLsbD j).length)
  | .clz _ ty d a => some (d, 1, fun L v =>
      v.toNat ≤ widthOf ty ∧ (r.n ty.regs a L).toNat < 2 ^ (widthOf ty - v.toNat) ∧
        (v.toNat < widthOf ty → 2 ^ (widthOf ty - v.toNat - 1) ≤ (r.n ty.regs a L).toNat))
  | .shfx _ w seg mode d a n c => some (d, laneRegs w, fun L v =>
      (∀ k, SegLane mode (segLanes seg) L (r.x n L).toNat k → v = if r.act.getLsbD k then laneVal r w a k else laneVal r w c L) ∧
      ((∀ k, ¬SegLane mode (segLanes seg) L (r.x n L).toNat k) → v = laneVal r w c L))
  | .ired _ ty op d a =>
    if d.scalar then none
    else some (d, ty.regs, fun _ v => v = combine op (ScanTy.ity ty) (laneVals r ty.regs a fun _ => true))
  | _ => none

/-- The special values of `movs` (R64, Table 4-1). -/
def special (s : State) (t : Train) (L : Nat) : Special → DWord
  | .lane => BitVec.ofNat 64 L
  | .train => BitVec.ofNat 64 t.index
  | .wheel => match s.wheelOf t with
    | some w => BitVec.ofNat 64 w.index
    | none => 0
  | .wheels => match s.dispatchOf t with
    | some d => BitVec.ofNat 64 (d.wheels % 4294967296)
    | none => 0
  | .role => match s.dispatchOf t with
    | some d => BitVec.ofNat 64 (d.launch.role t.index)
    | none => 0
  | .core => match s.wheelOf t with
    | some w => BitVec.ofNat 64 w.core
    | none => 0
  | .ctx => (s.ctx (s.ctxOf t)).vctx.setWidth 64
  | .clock => (s.core (s.coreOf t)).cycles
  | .param => match s.dispatchOf t with
    | some d => d.launch.param
    | none => 0

def specialRegs : Special → Nat
  | .clock | .param => 2
  | _ => 1

/-- The count of wheels is still open: a query domain whose join has not ended (R91). -/
def wheelsOpen (s : State) (t : Train) : Bool :=
  match s.dispatchOf t with
  | some d => d.launch.query && !d.joined
  | none => false

/-! ## Predicates -/

/-- A mask by lanes. -/
def IsMask (m : Mask) (f : Nat → Prop) : Prop := ∀ L, L < 32 → (m.getLsbD L = true ↔ f L)

/-- Integer comparison of two numbers (R98). -/
def Compares (cc : ICc) (a b : Int) : Prop :=
  match cc with
  | .eq => a = b
  | .ne => a ≠ b
  | .lt => a < b
  | .le => a ≤ b
  | .gt => a > b
  | .ge => a ≥ b

/-- What a predicate instruction writes in an active lane L, and its destination (R98 to R100, R110). -/
def predTable (r : Iss) : Instr → Option (PDst × (Nat → Prop))
  | .icmp _ cc ty d a b => some (d, fun L => Compares cc (numOf ty (r.n ty.regs a L)) (numOf ty (r.n ty.regs b L)))
  | .fcmp _ cc d a b => some (d, fun L => fccHolds cc ((v32 (r.x a L)).cmp (v32 (r.x b L))) = true)
  | .plop _ op d pa pb => some (d, fun L =>
      let a := (r.t.pred pa.toNat).getLsbD L
      let b := (r.t.pred pb.toNat).getLsbD L
      match op with
      | .and => a ∧ b
      | .or => a ∨ b
      | .xor => a ≠ b
      | .andn => a ∧ ¬b
      | .orn => a ∨ ¬b)
  | .pmov _ (.toPred d m) => some (d, fun L => (r.x0 m).getLsbD L)
  | .vote _ (.some d) pa => some (d, fun _ => ∃ K, K < 32 ∧ r.act.getLsbD K ∧ (r.t.pred pa.toNat).getLsbD K)
  | .vote _ (.every d) pa => some (d, fun _ => ∀ K, K < 32 → r.act.getLsbD K → (r.t.pred pa.toNat).getLsbD K)
  | .vote _ (.agree d) pa => some (d, fun _ => ∀ K J, K < 32 → J < 32 → r.act.getLsbD K → r.act.getLsbD J →
      (r.t.pred pa.toNat).getLsbD K = (r.t.pred pa.toNat).getLsbD J)
  | _ => none

/-- The scalar an instruction that reduces lanes writes: destination, registers, value (R100, R108, R110 to R112). -/
def redTable (r : Iss) : Instr → Option (Dst × Nat × DWord)
  | .pmov _ (.toScalar d p) => some (d, 1, (r.act &&& r.t.pred p.toNat).setWidth 64)
  | .vote _ (.mask d) pa => some (d, 1, (r.act &&& r.t.pred pa.toNat).setWidth 64)
  | .rdlane _ w d a i => some (d, laneRegs w, laneVal r w a ((r.x0 i).toNat % 32))
  | .emrd d => some (d, 1, r.t.em.setWidth 64)
  | .ired _ ty op d a =>
    if d.scalar then some (d, ty.regs, combine op (ScanTy.ity ty) (laneVals r ty.regs a fun _ => true)) else none
  | _ => none

/-! ## Class C and traps -/

/-- The registers of the issuing train are those its last-use bits leave, and nothing else of it moved but its place (R44, R48). -/
def KeepsRegs (r : Iss) (x : Train) : Prop := x.s = r.freed.s ∧ x.v = r.freed.v ∧ x.p = r.t.p ∧ OnlyRegs r x

/-- The condition of R80: PRED = always, or some lane is active. -/
abbrev Holds (r : Iss) : Prop := r.u.g = 7#4 ∨ r.act ≠ 0

/-- The target of a class C word: its own address + 8 × REL32 (R80). -/
def targetOf (r : Iss) (rel : BitVec 32) : DWord :=
  r.c.hdr + BitVec.ofNat 64 (8 * (r.c.idx + 1)) + BitVec.ofInt 64 (8 * rel.toInt)

/-- The header after the clause: its header + 8 × (COUNT + 2) (R44). -/
def headerAfter (r : Iss) : DWord := r.c.hdr + BitVec.ofNat 64 (8 * (r.c.words.length + 1))

/-- When the branches are taken, their condition of R80 holding (R81). -/
def branchTable (r : Iss) : Instr → Option (BitVec 32 × Prop)
  | .bra _ rel => some (rel, True)
  | .brz _ a rel => some (rel, r.x0 a = 0)
  | .brnz _ a rel => some (rel, r.x0 a ≠ 0)
  | .brany _ p rel => some (rel, ∃ L, L < 32 ∧ r.act.getLsbD L ∧ (r.t.pred p.toNat).getLsbD L)
  | .brall _ p rel => some (rel, r.act ≠ 0 ∧ ∀ L, L < 32 → r.act.getLsbD L → (r.t.pred p.toNat).getLsbD L)
  | _ => none

/-- The train after the trap entry of R74 at a point, outside an open bracket; the phase that E_HANG keeps for `yieldc` lasts through that entry alone (R73). -/
def entered (t : Train) (at_ : TrapAt) (cause : Byte) (lanes : Mask) (tval vec : DWord) : Train :=
  { t with
    clause := none, wait := none, park := none, xl := [], resume := none
    trap := { tm := true, incl := at_.incl, cause := cause, trappc := at_.pc, thdr := at_.thdr, tnext := at_.tnext,
              tval := tval, tlanes := lanes, tem := t.em }
    em := t.live
    pc := vec
    stall := false
    keptPhase := if cause = 0x0F then t.keptPhase else none }

/-- The trap vector of a train's dispatch; 0 is none (R75). -/
def vectorOf (s : State) (t : Train) : DWord :=
  match s.dispatchOf t with
  | some d => d.launch.trapVector
  | none => 0

/-- The point of the word an instruction stands at (R46, R74). -/
def pointOf (c : Clause) : TrapAt :=
  { pc := c.hdr + BitVec.ofNat 64 (8 * (c.idx + 1)), incl := true, thdr := c.hdr,
    tnext := c.hdr + BitVec.ofNat 64 (8 * (c.words.length + 1)) }

/-! ## Class M -/

/-- The issuing train has no acquire and no `tlbsync` outstanding: its later accesses may issue (R128, R165). -/
def AcqDone (s : State) (r : Iss) : Prop :=
  (∀ l ∈ r.t.loads, l.acq = false) ∧ (∀ w ∈ r.t.fifo, w.acq = false) ∧
    (∀ w ∈ (s.core (s.coreOf r.t)).writes, w.train = r.id → w.acq = false) ∧
    ∀ i ∈ s.tlbis, i.train = r.id → i.sync = false

/-- The lowest lane of a mask (R4). -/
def IsLowest (m : Mask) (L : Nat) : Prop := L < 32 ∧ m.getLsbD L ∧ ∀ K, K < L → m.getLsbD K = false

/-- Lanes a load is made for: the active ones, or the lowest of them when its destination is scalar (R116). -/
def LoadLane (r : Iss) (d : Dst) (L : Nat) : Prop :=
  if d.scalar then IsLowest r.act L else L < 32 ∧ r.act.getLsbD L

/-- The address of a memory operand in a lane: BASE + s × INDEX + n × OFFSET modulo 2^64, s being n when scaled (R116). -/
def addrOf (r : Iss) (n : Nat) (m : Mem) (L : Nat) : DWord :=
  r.d m.base L + (r.x m.index L).setWidth 64 * (if m.scale then BitVec.ofNat 64 n else 1#64) +
    BitVec.ofInt 64 (n * m.off.toInt)

def addrOfB (r : Iss) (n : Nat) (m : MemB) (L : Nat) : DWord :=
  r.d m.base L + BitVec.ofInt 64 (n * m.off.toInt)

/-- The number whose bytes are `f 0` to `f (n−1)`, little-endian (R2). -/
def leVal (f : Nat → Byte) : Nat → Nat
  | 0 => 0
  | n + 1 => leVal f n + (f n).toNat * 256 ^ n

/-- Byte of the allotment of byte `a` of lane L's space: direct, or in the lane-interleaved map (R122). -/
def spaceByte (inter : Bool) (L a : Nat) : Nat := if inter then 128 * (a / 4) + 4 * L + a % 4 else a

/-- Register k of a loaded value: sign-extended for s8 and s16, else zero-extended (R118). -/
def loadedReg (w : MW) (v k : Nat) : Word :=
  match w with
  | .s8 => (BitVec.ofNat 8 v).signExtend 32
  | .s16 => (BitVec.ofNat 16 v).signExtend 32
  | _ => BitVec.ofNat 32 (v / 2 ^ (32 * k))

/-- The destination of a load holds `f L` in the lanes loaded; every other register is as the last-use bits leave it. -/
structure Loaded (r : Iss) (d : Dst) (n : Nat) (f : Nat → Nat → Word) (x : Train) : Prop where
  vec : ∀ k L, L < 32 → (x.vreg k).at L =
    if d.nowb = false ∧ d.scalar = false ∧ d.idx.toNat ≤ k ∧ k < d.idx.toNat + n ∧ r.act.getLsbD L
    then f L (k - d.idx.toNat) else (r.left.vreg k).at L
  sca : ∀ k, x.sreg k ≠ r.left.sreg k →
    r.act ≠ 0 ∧ d.nowb = false ∧ d.scalar = true ∧ d.idx.toNat ≤ k ∧ k < d.idx.toNat + n
  val : ∀ L j, IsLowest r.act L → d.nowb = false → d.scalar = true → j < n → x.sreg (d.idx.toNat + j) = f L j

/-- The train `x` differs from the issuing one in its registers, its place in the program and its park, which ends with the instruction. -/
def OnlyIssue (r : Iss) (x : Train) : Prop :=
  (x.trap = r.t.trap ∨ x.trap = r.trapNext) ∧ x = { r.t with
    s := x.s, v := x.v, clause := x.clause, pc := x.pc, retired := x.retired, readyAge := x.readyAge,
    yielded := x.yielded, stall := x.stall, trap := x.trap, park := none, wait := none, xl := [] }

/-- A local access of `n` bytes at the lanes' addresses is aligned and inside the allotment (R117, R122). -/
def LocalOk (s : State) (r : Iss) (inter : Bool) (n : Nat) (addr : Nat → DWord) (lane : Nat → Prop) : Prop :=
  ∀ L, lane L → (addr L).toNat % n = 0 ∧
    (if inter then 128 * (((addr L).toNat + n - 1) / 4) + 128 else (addr L).toNat + n) ≤ localSize s r.t

/-- The accesses of the local store: the space, the width, each lane's address and the lanes (R116, R122, R134). -/
inductive LocalAccess (r : Iss) : Instr → Bool → Nat → (Nat → DWord) → (Nat → Prop) → Prop where
  | lds (g : Guard) (sb : Sb) (w : MW) (m : Mem) (d : Dst) :
      LocalAccess r (.lds g sb w m d) false w.bytes (addrOf r w.bytes m) (LoadLane r d)
  | ldl (g : Guard) (sb : Sb) (w : MW) (m : Mem) (d : Dst) :
      LocalAccess r (.ldl g sb w m d) true w.bytes (addrOf r w.bytes m) (LoadLane r d)
  | sts (g : Guard) (sb : Sb) (w : MW) (m : Mem) (x : Src) :
      LocalAccess r (.sts g sb w m x) false w.bytes (addrOf r w.bytes m) (r.act.getLsbD ·)
  | stl (g : Guard) (sb : Sb) (w : MW) (m : Mem) (x : Src) :
      LocalAccess r (.stl g sb w m x) true w.bytes (addrOf r w.bytes m) (r.act.getLsbD ·)
  | atoml (g : Guard) (sb : Sb) (op : AOp) (w : AW) (m : MemB) (x : Src) (d : Dst) (h : r.t.inTx = false) :
      LocalAccess r (.atoml g sb op w m x d) false w.bytes (addrOfB r w.bytes m) (r.act.getLsbD ·)
  | casl (g : Guard) (sb : Sb) (w : AW) (m : MemB) (x : Src) (d : Dst) (h : r.t.inTx = false) :
      LocalAccess r (.casl g sb w m x d) false w.bytes (addrOfB r w.bytes m) (r.act.getLsbD ·)

/-- No byte is part of a barrier word that some train of the wheel waits on (R140). -/
def NotWaited (s : State) (r : Iss) (b : Nat) : Prop :=
  ∀ w ∈ waitedWords s r.t.wheel, ¬(w.1 ≤ b ∧ b < w.1 + w.2)

/-- The new value of an atomic at its location (R131, Table 6-3). -/
def atomVal (op : AOp) (wide : Bool) (old x : DWord) : DWord :=
  let lt (a b : DWord) : Bool := if wide then a.slt b else (a.setWidth 32).slt (b.setWidth 32)
  match op with
  | .add => if wide then old + x else ((old.setWidth 32 : Word) + x.setWidth 32).setWidth 64
  | .and => old &&& x
  | .or => old ||| x
  | .xor => old ^^^ x
  | .exch => x
  | .min => if lt x old then x else old
  | .max => if lt old x then x else old
  | .fadd => (fadd32 false .rne (old.setWidth 32) (x.setWidth 32)).setWidth 64

/-- Read-modify-writes of a byte memory, one lane after the other in increasing order; a lane without a new value writes nothing: the memory left and the old values (R132, R134). -/
def rmwLanes (n : Nat) (addr : Nat → Nat) (new : Nat → Nat → Option Nat) : List Nat → Bytes → Bytes × List (Nat × Nat)
  | [], b => (b, [])
  | L :: ls, b =>
    let old := Bytes.read b (addr L) n
    let rest := rmwLanes n addr new ls (match new L old with
      | some v => Bytes.write b (addr L) n v
      | none => b)
    (rest.1, (L, old) :: rest.2)

/-! ## Class M: global memory at issue -/

/-- Lane L's access of `n` bytes passes the checks of R117 and is translated by `E L`. -/
structure Passes (s : State) (r : Iss) (n : Nat) (kind : BitVec 3) (dev : Bool) (va : Nat → DWord) (E : Nat → Tlb)
    (L : Nat) : Prop where
  aligned : (va L).toNat % n = 0
  low : (va L).toNat < 2 ^ 55
  xlate : s.laneX r.t L (va L).toNat kind = .ok (E L)
  allowed : accessCause s (s.privDispatch r.t) dev (E L) (va L).toNat = none

/-- The lanes of a mask with their translations, in increasing order. -/
def goodsOf (va : Nat → DWord) (E : Nat → Tlb) (lanes : Mask) : List Acc :=
  (lanesOf lanes).map fun L => ⟨L, va L, (E L).paOf (va L).toNat, E L⟩

/-- The identity of the instruction, and of the part that issues now; an instruction that has parked keeps its own. -/
def opOf (s : State) (r : Iss) : Nat := if r.op = 0 then s.nextId else r.op
def partOf (s : State) (r : Iss) : Nat := if r.op = 0 then s.nextId + 1 else s.nextId

/-- The state with one more conflicting retention counted, saturating, when `b` and the instruction has not counted before (R119). -/
def counted (s : State) (r : Iss) (b : Bool) : State :=
  if b && !r.conf then s.upd (.ctx (s.ctxOf r.t) { s.ctx (s.ctxOf r.t) with
    cpolconf := if (s.ctx (s.ctxOf r.t)).cpolconf = 0xFFFFFFFF then (s.ctx (s.ctxOf r.t)).cpolconf
      else (s.ctx (s.ctxOf r.t)).cpolconf + 1 }) else s

/-- A long-latency instruction has issued under identity `op`: its scoreboard is raised and its destinations interlocked, the first time; sources are freed, the next word is reached, no other register is written (R47, R48). -/
structure Issued (r : Iss) (op : Nat) (first : Bool) (dests : List Reg) (tiles : List Nat) (x : Train) : Prop where
  regs : x.s = r.left.s ∧ x.v = r.left.v ∧ x.p = r.t.p ∧ x.em = r.t.em ∧ x.live = r.t.live
  place : GoesOn r (· = none) x
  sb : ∀ i : BitVec 3, x.sbCount i = r.t.sbCount i + (if first ∧ r.u.sb = some i then 1 else 0)
  flight : x.inflight = if first then r.t.inflight ++ [{ id := op, addr := (pointOf r.c).pc, sb := r.u.sb, dests := dests,
                                                         tiles := tiles, inTm := r.t.trap.tm }] else r.t.inflight
  ends : x.park = none ∧ x.wait = none ∧ x.xl = []

/-- What a global access asks for: bytes, access kind, whether a DEVICE page serves it, the addresses and the lanes (R116, R117). -/
structure Access where
  n : Nat
  kind : BitVec 3
  dev : Bool
  va : Nat → DWord
  lanes : Mask

/-- The accesses of `ld`, `ldp`, `st`, `atom`, `red` and `cas`. -/
def accessTable (r : Iss) : Instr → Option Access
  | .ld _ _ w _ _ m d => some ⟨w.bytes, kRead, decide (w.bytes ≤ 8), addrOf r w.bytes m, r.loadLanes d⟩
  | .ldp _ _ w _ m _ => some ⟨w.bytes, kRead, false, addrOf r w.bytes m, r.act⟩
  | .st _ _ w _ _ m _ => some ⟨w.bytes, kWrite, decide (w.bytes ≤ 8), addrOf r w.bytes m, r.act⟩
  | .atom _ _ _ w _ m _ _ => some ⟨w.bytes, kRw, false, addrOfB r w.bytes m, r.act⟩
  | .red _ _ _ w _ m _ => some ⟨w.bytes, kRw, false, addrOfB r w.bytes m, r.act⟩
  | .cas _ _ w _ m _ _ => some ⟨w.bytes, kRw, false, addrOfB r w.bytes m, r.act⟩
  | _ => none

/-- What a store or an atomic puts into the store FIFO: its kind, each lane's data and expected value, its ordering and destination, and which retention counts as conflicting (R118, R119, R127, R128, R131, R133). -/
structure Entry where
  kind : WKind
  data : Nat → BitVec 128
  exp : Nat → DWord
  fresh : Bool
  rel : Bool
  acq : Bool
  dst : Option Dst
  dests : List Reg
  conf : List Acc → Bool

def entryTable (s : State) (r : Iss) : Instr → Option Entry
  | .st _ _ w rel pol _ x => some ⟨.store, fun L => srcQ r.t r.c w.regs x L, fun _ => 0, pol == .fresh, rel, false, none, [],
      conflicts s pol⟩
  | .atom _ _ op w ord _ x d => some ⟨.atom op, fun L => (r.n w.regs x L).setWidth 128, fun _ => 0, false,
      ord == .rel || ord == .acqrel, ord == .acq || ord == .acqrel, some d, dstRegs (d, w.regs),
      fun l => l.any fun a => a.e.attr == .uncached && a.e.place == 0⟩
  | .red _ _ op w rel _ x => some ⟨.atom op, fun L => (r.n w.regs x L).setWidth 128, fun _ => 0, false, rel, false, none, [],
      fun l => l.any fun a => a.e.attr == .uncached && a.e.place == 0⟩
  | .cas _ _ w ord _ x d => some ⟨.cas, fun L => (r.n w.regs x L).setWidth 128,
      fun L => r.n w.regs (.v (d.idx + BitVec.ofNat 8 w.regs)) L, false, ord == .rel || ord == .acqrel,
      ord == .acq || ord == .acqrel, some d, dstRegs (d, 2 * w.regs),
      fun l => l.any fun a => a.e.attr == .uncached && a.e.place == 0⟩
  | _ => none

/-- The train `x` differs from the issuing one only where an access that issues may change it. -/
def OnlyAccess (r : Iss) (x : Train) : Prop :=
  (x.trap = r.t.trap ∨ x.trap = r.trapNext) ∧ x = { r.t with
    s := x.s, v := x.v, clause := x.clause, pc := x.pc, retired := x.retired, readyAge := x.readyAge,
    yielded := x.yielded, stall := x.stall, trap := x.trap, park := x.park, wait := x.wait, xl := x.xl, sb := x.sb,
    inflight := x.inflight, loads := x.loads, fifo := x.fifo, lastPage := x.lastPage }

/-- Only the train `id` differs among the trains. -/
def OnlyTrain (s t : State) (id : Nat) : Prop :=
  ∀ k, k ≠ id → AMap.get? t.trains k = AMap.get? s.trains k

/-- An instruction that acts once for the train has completed: sources are freed, the next word is reached, no other register is written and nothing else of the train changes (R48, R116). -/
def Finished (r : Iss) (x : Train) : Prop :=
  x.s = r.left.s ∧ x.v = r.left.v ∧ x.p = r.t.p ∧ GoesOn r (· = none) x ∧ OnlyIssue r x

/-- The Regulator's count of a context starts again (R71). -/
def restarted (s : State) (c : Nat) : State :=
  if (s.ctx c).regulator = 0 then s else s.upd (.ctx c { s.ctx c with regulator := 0 })

/-- The waits that `p` names have ended: their trains, that of `id` apart, are as `f` leaves them but for that, and the Regulator's count of their contexts starts again (R71); every other train is as `f` leaves it, every other context as it was. -/
def WaitsEnded (s t : State) (id : Nat) (f : Train → Train) (p : Train → Wait → Prop) : Prop :=
  (∀ j z, j ≠ id → AMap.get? s.trains j = some z → z.Ok →
    (∀ v, z.wait = some v → v.woken = false → p z v →
      AMap.get? t.trains j = some { f z with wait := some { v with woken := true } }) ∧
    ((∀ v, z.wait = some v → v.woken = false → ¬p z v) → AMap.get? t.trains j = some (f z))) ∧
  ∀ c, c < 16 → (s.ctx c).norm = s.ctx c →
    let ended := ∃ j z v, AMap.get? s.trains j = some z ∧ s.ctxOf z = c ∧ z.wait = some v ∧ v.woken = false ∧ p z v
    (ended → t.ctx c = { s.ctx c with regulator := 0 }) ∧ (¬ended → t.ctx c = s.ctx c)

/-- Trains of the issuing train's wheel (R67). -/
def trainsPer (s : State) (t : Train) : Nat :=
  match s.dispatchOf t with
  | some d => d.launch.trains
  | none => 1

/-- The barrier word at byte `a` of a local store (Table 6-4). -/
def barAt (b : Bytes) (a : Nat) : BarWord := BarWord.ofNat (Bytes.read b a 8)

/-- A train mask is legal: not zero, and no train past the wheel's last (R138). -/
def MaskOk (s : State) (r : Iss) (m : Nat) : Prop := m ≠ 0 ∧ m < 2 ^ trainsPer s r.t

/-- No access of the train but a store to a CACHED page on its way stands unperformed before an arrival (R141). -/
def ArrivalMay (s : State) (r : Iss) : Prop :=
  r.t.fifo = [] ∧ r.t.loads = [] ∧
    ∀ w ∈ (s.core (s.coreOf r.t)).writes, w.train = r.id → w.kind = .store ∧ ∀ a ∈ w.acc, a.attr = .cached

/-- The wheel with the 8 bytes at `a` of its local store replaced. -/
def withBar (w : Wheel) (a : Nat) (x : BarWord) : Wheel := { w with local_ := Bytes.write w.local_ a 8 x.toNat }

/-- A free scalar destination holds `f j` in its registers, whatever the mask; every other scalar register is as the last-use bits leave it. -/
def ScalarIs (r : Iss) (d : Dst) (n : Nat) (f : Nat → Word) (x : Train) : Prop :=
  ∀ k, x.sreg k = if d.nowb = false ∧ d.scalar = true ∧ d.idx.toNat ≤ k ∧ k < d.idx.toNat + n
    then f (k - d.idx.toNat) else r.left.sreg k

/-- Lanes that a cache instruction may name: translated with no check in the way (R117). -/
def Cached (s : State) (r : Iss) (va : Nat → DWord) (E : Nat → Tlb) : Prop :=
  ∀ L, r.act.getLsbD L → Passes s r 1 0 true va E L ∧
    s.region ((E L).paOf (va L).toNat) ≠ .wspace ∧ s.region ((E L).paOf (va L).toNat) ≠ .none

/-! ## Class T -/

/-- The transaction state a bracket opens with (R233). -/
def Opened (em : Mask) (fb : Bool) (x : Tx) : Prop :=
  x.on = true ∧ x.fb = fb ∧ x.em = em ∧ x.opened = em ∧ x.aborted = 0 ∧ x.ending = none ∧
    ∀ L, L < 32 → x.cause.at L = 0 ∧ x.rs.at L = [] ∧ x.ws.at L = []

/-- The lanes of `m` that were open have aborted with a cause: they leave OPEN and em, their sets are empty; every other lane keeps its own (R224). -/
def Aborted (t : Train) (m : Mask) (cause : BitVec 4) (x : Train) : Prop :=
  x.em = t.em &&& ~~~(m &&& t.tx.opened) ∧ x.tx.opened = t.tx.opened &&& ~~~m ∧
    x.tx.aborted = t.tx.aborted ||| (m &&& t.tx.opened) ∧ x.tx.on = t.tx.on ∧ x.tx.fb = t.tx.fb ∧ x.tx.em = t.tx.em ∧
    ∀ L, L < 32 → if m.getLsbD L ∧ t.tx.opened.getLsbD L
      then x.tx.cause.at L = cause ∧ x.tx.rs.at L = [] ∧ x.tx.ws.at L = []
      else x.tx.cause.at L = t.tx.cause.at L ∧ x.tx.rs.at L = t.tx.rs.at L ∧ x.tx.ws.at L = t.tx.ws.at L

/-! ## Class Z -/

/-- The system registers of Table 22-4: number, registers of the value, value. -/
def sysTable (t : Train) (c : Context) : List (Nat × Nat × DWord) :=
  [(0x00, 1, (if t.trap.tm then 1 else 0) + (if t.trap.incl then 2 else 0)), (0x01, 1, t.trap.cause.setWidth 64),
   (0x02, 2, t.trap.trappc), (0x03, 2, t.trap.tnext), (0x04, 2, t.trap.tval), (0x05, 1, t.trap.tlanes.setWidth 64),
   (0x06, 1, t.trap.tem.setWidth 64), (0x07, 2, t.trap.thdr), (0x08, 2, c.hangbuf), (0x09, 2, c.hangLimit),
   (0x0A, 1, c.lease.setWidth 64), (0x0B, 1, c.cpolconf.setWidth 64), (0x0C, 2, c.ptbase), (0x0D, 1, c.xtag.setWidth 64),
   (0x0E, 1, c.migthresh.setWidth 64), (0x0F, 2, c.worldtab), (0x10, 1, c.hptpart.setWidth 64),
   (0x11, 1, c.vctx.setWidth 64), (0x12, 2, wsRefresh), (0x13, 2, c.mxstep), (0x14, 2, c.mxstall), (0x15, 2, c.spillbase),
   (0x16, 1, c.spillsize.setWidth 64)]

/-- What `zwr` does to the trap registers: TM stays, a write of ZS_TRAPPC or ZS_THDR clears INCL (Table 22-4). -/
def trapWritten (x : TrapRegs) (k : Nat) (v : DWord) : TrapRegs :=
  { tm := x.tm, incl := if k = 0 then v.getLsbD 1 else if k = 2 ∨ k = 7 then false else x.incl,
    cause := if k = 1 then v.setWidth 8 else x.cause, trappc := if k = 2 then v else x.trappc,
    tnext := if k = 3 then v else x.tnext, tval := if k = 4 then v else x.tval,
    tlanes := if k = 5 then v.setWidth 32 else x.tlanes, tem := if k = 6 then v.setWidth 32 else x.tem,
    thdr := if k = 7 then v else x.thdr }

/-- What `zwr` does to the registers of a context, clipped to their ranges. -/
def ctxWritten (c : Context) (k : Nat) (v : DWord) : Context :=
  { c with
    hangbuf := if k = 8 then v else c.hangbuf
    hangLimit := if k = 9 then BitVec.ofNat 64 (max 0x10000 (min v.toNat 0x10000000000)) else c.hangLimit
    lease := if k = 10 then BitVec.ofNat 32 (max 1 (min (v.toNat % 2 ^ 32) 65535)) else c.lease
    cpolconf := if k = 11 then v.setWidth 32 else c.cpolconf }

/-- A translation overlaps no page of a tag's range. -/
def ClearOf (tag : BitVec 16) (lo hi : Nat) (e : Tlb) : Prop := ¬(e.tag = tag ∧ e.page < hi ∧ lo < e.page + e.size)

/-! ## The engines at issue -/

inductive EngineUnit where
  | stream | matrix | esu | ray
  deriving DecidableEq, Repr

def EngineUnit.put (u : EngineUnit) (k : Nat) (e : EngineOp) : Upd :=
  match u with
  | .stream => .stream k (some e)
  | .matrix => .matrix k (some e)
  | .esu => .esu k (some e)
  | .ray => .ray k (some e)

/-- What an engine instruction takes to its unit: interlocked registers and tiles, captured operands, the words of its record, and whether the next clause waits for it. -/
structure EngineCall where
  unit : EngineUnit
  dests : List Reg := []
  tiles : List Nat := []
  a : Nat → DWord := fun _ => 0
  b : Nat → DWord := fun _ => 0
  c : Nat → DWord := fun _ => 0
  x : Nat → BitVec 128 := fun _ => 0
  words : List Nat := []
  gate : Bool := false

/-- The captured operands. -/
def EngineCall.cap (q : EngineCall) (r : Iss) : Cap :=
  { act := r.act, em := r.t.em, a := perLane q.a, b := perLane q.b, c := perLane q.c, x := perLane q.x }

def pregs (p : BitVec 3) : List Reg := if p = 7 then [] else [.p p.toNat]

/-- Tiles an instruction of class X names. -/
def tilesNamed : Instr → List (BitVec 3)
  | .tcfg _ t _ | .tld _ t _ _ | .tst _ t _ _ | .tzero _ t | .tfill _ t _ | .tdrain _ _ _ _ t _ => [t]
  | .tmma _ d a b | .tmmb _ d a b | .tloop _ d a b _ => [d, a, b]
  | .tcvt _ t x | .ttr _ t x => [t, x]
  | .tvxm _ _ _ _ d a _ => [d, a]
  | _ => []

/-- One 32-bit operand, in every lane. -/
def w32 (r : Iss) (x : Src) : Nat → DWord := fun _ => (r.x0 x).setWidth 64
def w64 (r : Iss) (x : Src) : Nat → DWord := fun _ => r.d0 x
/-- A per-lane operand. -/
def l32 (r : Iss) (x : Src) : Nat → DWord := fun L => (r.x x L).setWidth 64
def l64 (r : Iss) (x : Src) : Nat → DWord := fun L => r.d x L
/-- A payload: 128 bits, or a 64-bit address. -/
def payOf (r : Iss) (ind : Bool) (y : Src) : Nat → BitVec 128 := fun L => srcQ r.t r.c (if ind then 2 else 4) y L

/-- The instructions of classes S, X, E, Y and Z that enter a queue at issue, but for those that also bring a job (R205, R247, R286, R326, R369). -/
def callTable (s : State) (r : Iss) : Instr → Option EngineCall
  | .tbinit _ _ b n | .tbexp _ b n => some { unit := .stream, a := w32 r b, b := w32 r n }
  | .tbarr _ d b n => some { unit := .stream, dests := dstRegs (d, 1), a := w32 r b, b := w32 r n }
  | .srd _ op d => some { unit := .stream, dests := dstRegs (d, 1), a := match op with
      | .phase b | .arrive b | .sectors b => w32 r b
      | .jobs => fun _ => 0 }
  | .rbind _ k rec => some { unit := .stream, a := w32 r k, b := w64 r rec }
  | .rrel _ k a => some { unit := .stream, a := w32 r k, b := w32 r a }
  | .ctxsv _ d c a | .ctxld _ d c a => some { unit := .stream, dests := dstRegs (d, 1), a := w64 r a, b := w32 r c }
  | .tcfg _ t x | .tfill _ t x => some { unit := .matrix, tiles := [t.toNat], a := w32 r x }
  | .tzero _ t => some { unit := .matrix, tiles := [t.toNat] }
  | .tmma _ d a b | .tmmb _ d a b => some { unit := .matrix, tiles := [d.toNat, a.toNat, b.toNat] }
  | .tcvt _ t x | .ttr _ t x => some { unit := .matrix, tiles := [t.toNat, x.toNat] }
  | .tloop _ d a b p => some { unit := .matrix, tiles := [d.toNat, a.toNat, b.toNat], a := w32 r p
                               words := (List.range 8).map fun i =>
                                 leVal (fun j => Bytes.get (localOf s r.t.wheel) ((r.x0 p).toNat + 4 * i + j)) 4 }
  | .tvxm _ _ _ pd d a p => some { unit := .matrix, tiles := [d.toNat, a.toNat], dests := pregs pd, a := l64 r p }
  | .wsinfo _ d k => some { unit := .matrix, dests := dstRegs (d, 1), a := w32 r k }
  | .eqry _ _ d q v => some { unit := .esu, dests := dstRegs (d, 1), a := w64 r q, b := w32 r v }
  | .enext _ _ d => some { unit := .esu, dests := dstRegs (d, 2) }
  | .erow _ _ _ pd d h => some { unit := .esu, dests := dstRegs (d, 2) ++ pregs pd, a := l64 r h }
  | .ecol _ _ pd d ref t w => some { unit := .esu, dests := dstRegs (d, 2) ++ pregs pd, a := l64 r ref, b := l32 r t
                                     c := w32 r w }
  | .ehchk _ _ pd h => some { unit := .esu, dests := pregs pd, a := l64 r h }
  | .eget _ _ wd _ pd d h t o => some { unit := .esu, dests := dstRegs (d, wd.regs) ++ pregs pd, a := l64 r h, b := l32 r t
                                        c := l32 r o }
  | .eput _ _ wd _ pd x h t o => some { unit := .esu, dests := pregs pd, a := l64 r h, b := l32 r t, c := l32 r o
                                        x := fun L => srcQ r.t r.c wd.regs x L }
  | .ecrt _ _ _ pd d ty => some { unit := .esu, dests := dstRegs (d, 2) ++ pregs pd
                                  b := match ty with
                                    | some (_, t, _) => l32 r t
                                    | none => fun _ => 0
                                  x := match ty with
                                    | some (ind, _, y) => payOf r ind y
                                    | none => fun _ => 0 }
  | .edel _ _ _ pd h => some { unit := .esu, dests := pregs pd, a := l64 r h }
  | .eadd _ _ ind _ pd h t y | .eset _ _ ind _ pd h t y => some { unit := .esu, dests := pregs pd, a := l64 r h, b := l32 r t
                                                                  x := payOf r ind y }
  | .erem _ _ _ pd h t => some { unit := .esu, dests := pregs pd, a := l64 r h, b := l32 r t }
  | .ecmt _ _ d => some { unit := .esu, dests := dstRegs (d, 1) }
  | .esync _ d w => some { unit := .esu, dests := dstRegs (d, 1), a := w32 r w, gate := true }
  | .epin _ _ d w v => some { unit := .esu, dests := dstRegs (d, 1), a := w32 r w, b := w32 r v }
  | .eunpin _ w v => some { unit := .esu, a := w32 r w, b := w32 r v }
  | .ever _ _ d w => some { unit := .esu, dests := dstRegs (d, 1), a := w32 r w }
  | .rygeo _ _ rec => some { unit := .ray, a := w64 r rec }
  | .ryinv _ _ => some { unit := .ray }
  | _ => none

/-- What a barrier address of class S traps on: alignment, the allotment, the word's reserved bits; each reports the instruction word (R46, R255). -/
def barTrap (s : State) (r : Iss) (b : Src) : Option (Byte × Option DWord) :=
  let a := (r.x0 b).toNat
  if a % 16 ≠ 0 then some (0x04, none)
  else if localSize s r.t < a + 16 then some (0x06, none)
  else if 2 ^ 68 ≤ leVal (fun j => Bytes.get (localOf s r.t.wheel) (a + j)) 16 then some (0x03, none)
  else none

/-- The traps of the engine instructions at issue (R255, R261, R286, R326, R366). -/
def callTrap (s : State) (r : Iss) : Instr → Option (Byte × Option DWord)
  | .tbinit _ _ b n => (barTrap s r b).or (if r.x0 n = 0 ∨ 65535 < (r.x0 n).toNat then some (0x03, none) else none)
  | .tbexp _ b _ | .tbarr _ _ b _ => barTrap s r b
  | .srd _ op _ => match op with
    | .phase b | .arrive b | .sectors b => barTrap s r b
    | .jobs => none
  | .rbind _ k _ => if 3 < (r.x0 k).toNat then some (0x03, none) else none
  | .ctxsv _ _ c a | .ctxld _ _ c a =>
    if r.t.trap.tm then some (0x18, none)
    else if 15 < (r.x0 c).toNat then some (0x03, none)
    else if (r.d0 a).toNat % 256 ≠ 0 then some (0x04, some (r.d0 a))
    else none
  | .rygeo _ k _ =>
    if ∃ kv ∈ s.trains, kv.2.wheel = r.t.wheel ∧ ∃ q, kv.2.ray = some q ∧ q.opened = true ∧ q.geo = k.toNat
    then some (0x03, none) else none
  | i => if ∃ x ∈ tilesNamed i, tilesOf s r.t ≤ x.toNat then some (0x03, none) else none

/-- The instructions that enter a queue with a job, or a queue and its job, and the operands they capture. -/
def tileJobTable (r : Iss) : Instr → Option (DWord × DWord)
  | .tld _ _ b p | .tst _ _ b p => some (if b.glob then r.d0 b.b else (r.x0 b.b).setWidth 64, match p with
      | .data st | .sc st => (r.x0 st).setWidth 64
      | .ts => 0)
  | .tdrain _ b _ _ _ st => some (if b.glob then r.d0 b.b else (r.x0 b.b).setWidth 64, (r.x0 st).setWidth 64)
  | _ => none

/-- An engine instruction waits in place at its word: its matrix queue holds 16 instructions (log entry 68), `tloop` reads its record after the train's earlier acquires (R128), a ring instruction's transfers need room in the checker (R12; log entry 68). -/
def CallStalls (s : State) (r : Iss) (i : Instr) (q : EngineCall) : Prop :=
  (q.unit = .matrix ∧ 16 ≤ (mxQueue s (s.coreOf r.t) (s.ctxOf r.t)).length) ∨
    ((∃ sb d a b p, i = .tloop sb d a b p) ∧ ¬AcqDone s r) ∨
    ((∃ sb k a, i = .rbind sb k a ∨ i = .rrel sb k a) ∧ checkerFull s (s.coreOf r.t) = true)

/-- A job as its instruction brings it: not started, nothing moved. -/
def freshJob (s : State) (r : Iss) (kind : JobKind) : Job :=
  { core := s.coreOf r.t, wheel := some r.t.wheel, ctx := s.ctxOf r.t, priv := s.privDispatch r.t, kind := kind, node := none,
    order := s.nextId, started := false, held := false, reads := [], writes := [], sectors := [], clobber := [] }

/-- The copies: their barrier and their operands (R248, R250 to R253). -/
def copyTable : Instr → Option (Option Src × Src × Src × Src)
  | .cpy _ tb ls ld rec | .cpym _ tb ls ld rec | .cpt _ tb ls ld rec | .cpg _ tb ls ld rec => some (tb, ls, ld, rec)
  | _ => none

/-- The instruction issues and meets a trap at once, which is deferred to the train's next clause boundary (R204). -/
def DefersAt (s : State) (i : Instr) (r : Iss) (cause : Byte) (tval : DWord) : Prop :=
  ∃ t x d, exec i s = .next t ∧ t = { s with nextId := s.nextId + 1, trains := t.trains } ∧ OnlyTrain s t r.id ∧
    AMap.get? t.trains r.id = some x ∧ d ∈ x.deferred ∧ d.order = s.nextId ∧ d.cause = cause ∧ d.lanes = none ∧
    d.tval = tval ∧ x.s = r.left.s ∧ x.v = r.left.v ∧ x.inflight = r.t.inflight

/-- An identity that no incomplete instruction of the train has. -/
def FreshFor (s : State) (t : Train) : Prop := ∀ f ∈ t.inflight, f.id ≠ s.nextId

/-- The bank of the weight store is outside its refresh window and stays so for `c` cycles (R302, R303). -/
def BankQuiet (s : State) (k c : Nat) : Prop :=
  500 ≤ bankPhase s.mg.refreshNs k ∧ 1000 * c ≤ (64000 - bankPhase s.mg.refreshNs k) * s.mg.clockMhz.toNat

/-- The query that an instruction of class Y starts (R319, R327). -/
def Started (r : Iss) (op : Nat) (kind : RayKind) (k : BitVec 2) (g : Geo) (base : Nat) (m : Src) (q : RayQuery) : Prop :=
  q.op = op ∧ q.kind = kind ∧ q.geo = k.toNat ∧ q.bind = g ∧ q.held = false ∧ q.waits = [] ∧ q.looked = 0 ∧ (∀ L, L < 32 → q.tp.at L = none) ∧
    ∀ L, L < 32 → q.mask.at L = (r.x m L).setWidth 8 ∧
      q.rays.at L = (List.range 8).map (fun j => (r.t.vreg (base + j)).at L) ∧
      q.lanes.at L = (if r.act.getLsbD L then .busy else .outside) ∧ q.rejected.at L = [] ∧ q.cand.at L = 0

/-- No lane of the mask is busy. -/
def LanesSettled (q : RayQuery) (m : Mask) : Prop := ∀ L, L < 32 → m.getLsbD L → (q.lanes.at L).works = false

/-! ## Class G and the rings -/

/-- No access of the train is unperformed, no `tlbsync` of it incomplete, and none of its instructions waits for the reads of its query (R127, R165, R333; log entry 87). -/
def Quiet (s : State) (r : Iss) : Prop :=
  r.t.fifo = [] ∧ r.t.loads = [] ∧ (∀ w ∈ (s.core (s.coreOf r.t)).writes, w.train ≠ r.id) ∧
    (∀ i ∈ s.tlbis, i.train = r.id → i.sync = false) ∧ r.t.queryFirst s.nextId = false

/-- No store or atomic of the train's core that has left its FIFO is still to be performed on a byte of a range (R124; log entry 46). -/
def Clear (s : State) (t : Train) (a n : Nat) : Prop :=
  ∀ w ∈ (s.core (s.coreOf t)).writes, ∀ j, j < n → w.touches (a + j) = false

/-- A unit that acts for a context on a core reaches the byte at `va` through a cached translation, at `pa`, outside MMIO (R117, R254). -/
structure XlAt (s : State) (core ctx : Nat) (priv : Bool) (kind : BitVec 3) (va pa : Nat) : Prop where
  low : va < 2 ^ 55
  xlate : ∃ e, tlbFind (s.l3Of (dieOf core)) (s.tagOf ctx) va = some e ∧ rightsOk e.r e.w e.x kind = true ∧
    (kind.getLsbD 1 = true → e.d = true) ∧ accessCause s priv false e va = none ∧ e.paOf va = pa
  plain : s.region pa ≠ .mmio

/-- The same for a unit that acts for the issuing train. -/
abbrev UnitAt (s : State) (r : Iss) : BitVec 3 → Nat → Nat → Prop := XlAt s (s.coreOf r.t) (s.ctxOf r.t) (s.privDispatch r.t)

/-- The bytes of a range, in order. -/
def UnitRange (s : State) (r : Iss) (kind : BitVec 3) (va pa n : Nat) : Prop := ∀ j, j < n → UnitAt s r kind (va + j) (pa + j)

/-- Two ranges share no address. -/
def Apart (a n b m : Nat) : Prop := a + n ≤ b ∨ b + m ≤ a

/-- The kick rule of R344: the value lies past KT and not past the window. -/
def KickTakes (r : Ring) (v : Word) : Prop :=
  0 < (v - r.kt).toNat ∧ (v - r.kt).toNat ≤ (r.h + BitVec.ofNat 32 (2 ^ r.rec_.log2n) - r.kt).toNat

/-- The ring after a kick: accepted, or counted as ignored, saturating. -/
def KickOf (r : Ring) (v : Word) (x : Ring) : Prop :=
  (KickTakes r v → x = { r with kt := v }) ∧
  (¬KickTakes r v → x = { r with ignored := if r.ignored = 0xFFFF then r.ignored else r.ignored + 1 })

/-- The ring a train may name: enabled, and of its context (R356). -/
def RingFor (s : State) (r : Iss) (k : Nat) : Prop := ringEn (s.ring k).ctl = true ∧ ringCtx (s.ring k).ctl = s.ctxOf r.t

/-- The dispatch of the train has had a side effect; nothing else of the dispatches changes (R354). -/
def SideEffect (s t : State) (r : Iss) : Prop :=
  ∀ w, AMap.get? s.wheels r.t.wheel = some w → (∀ k, k ≠ w.dispatch → AMap.get? t.dispatches k = AMap.get? s.dispatches k) ∧
    ∀ d, AMap.get? s.dispatches w.dispatch = some d → AMap.get? t.dispatches w.dispatch = some { d with se := true }

/-- The node as `gdep` finds it: waiting, and held or not yet ready (R358). -/
def NotReady (n : Node) : Prop := n.state = .waiting ∧ n.cause = 0 ∧ (n.hold = true ∨ n.edges ≠ [])

/-- The result of `gdep` for a known node b: the status and node b as it leaves it; a node that has failed before its start counts as failed (R350, R358). -/
inductive DepResult (a : Nat) (x : Option Node) (y : Node) : Word → Node → Prop where
  | unhold (h : a = 0) (w : y.state = .waiting) (c : y.cause = 0) (o : y.hold = true) : DepResult a x y 0 { y with hold := false }
  | edge {z : Node} (h : a ≠ 0) (e : x = some z) (i : z.state = .started ∨ (z.state = .waiting ∧ z.cause = 0)) (o : z.order < y.order)
      (n : NotReady y) : DepResult a x y 0 { y with edges := if a ∈ y.edges then y.edges else y.edges ++ [a] }
  | done {z : Node} (h : a ≠ 0) (e : x = some z) (i : z.state = .complete) :
      DepResult a x y 1 { y with wts := max y.wts z.wts }
  | failed {z : Node} (h : a ≠ 0) (e : x = some z) (i : z.state = .failed ∨ (z.state = .waiting ∧ z.cause ≠ 0)) (n : NotReady y) :
      DepResult a x y 3 { y with cause := 0x26 }

/-! ## Work at the engines -/

/-- A long-latency instruction of a train has completed: its interlocks end, its scoreboard is lowered, a clause that waits for it is let go (R47, R215). -/
structure Completed (x y : Train) (op : Nat) : Prop where
  flight : y.inflight = x.inflight.filter (fun f => f.id != op)
  sb : ∀ f, x.inflight.find? (fun f => f.id == op) = some f → ∀ i : BitVec 3,
    y.sbCount i = x.sbCount i - (if f.sb = some i then 1 else 0)
  rest : y.clause = x.clause ∧ y.live = x.live ∧ y.fifo = x.fifo ∧ y.loads = x.loads

/-- An instruction of a train has completed with a deferred trap (R204). -/
def Deferred_ (x y : Train) (op : Nat) (cause : Byte) (lanes : Option Mask) : Prop :=
  Completed x y op ∧ ∃ d ∈ y.deferred, d.order = op ∧ d.cause = cause ∧ d.lanes = lanes

/-- An operation stands first among its train's in a queue, may act, and all that its train could observe before it is performed (R13, R205). -/
structure OpHead (s : State) (q : AMap EngineOp) (op : Nat) (e : EngineOp) (x : Train) (wh : Wheel) : Prop where
  found : AMap.get? q op = some e
  own : e.id = op
  keys : KeysRise q ∧ KeysRise s.wheels
  first : ∀ k f, AMap.get? q k = some f → f.train = e.train → op ≤ k
  train : AMap.get? s.trains e.train = some x
  wheel : AMap.get? s.wheels x.wheel = some wh
  free_ : e.held = false
  runs : (s.ctx (s.ctxOf x)).stopped = false
  fifo : ∀ w ∈ x.fifo, op ≤ w.id
  writes : ∀ w ∈ (s.core (s.coreOf x)).writes, op ≤ w.id
  acquired : ∀ l ∈ x.loads, l.acq = true → op ≤ l.id
  synced : ∀ i ∈ s.tlbis, i.sync = true → i.train = e.train → op ≤ i.op

/-- The transaction barrier at byte `a` of a local store (Table 14-4). -/
def tbarAt (b : Bytes) (a : Nat) : TBar := TBar.ofNat (Bytes.read b a 16)

/-- The wheel with that barrier replaced. -/
def withTbar (wh : Wheel) (a : Nat) (x : TBar) : Wheel := { wh with local_ := Bytes.write wh.local_ a 16 x.toNat }

/-- A source of a delivery that needs no translation: a constant byte, or a byte of the local store. -/
def plainByte (b : Bytes) : ByteSrc → Option Byte
  | .zero => some 0
  | .imm x => some x
  | .mem .loc a => some (Bytes.get b a)
  | .mem .glob _ => none

/-- The tiles of a product instruction are configured for each other, and their slots are of one group (R284, R291, R292). -/
structure MmOk (s : State) (x : Train) (wh : Wheel) (d a b : BitVec 3) (fa fb : Slot) : Prop where
  cfg : ctlCfg (tileOf wh d).control ∧ ctlCfg (tileOf wh a).control ∧ ctlCfg (tileOf wh b).control
  acc : ctlAcc (tileOf wh d).control = true ∧ ctlAcc (tileOf wh a).control = false ∧ ctlAcc (tileOf wh b).control = false
  layout : ctlLayout (tileOf wh a).control = false ∧ ctlLayout (tileOf wh b).control = true
  shape : ctlRows (tileOf wh a).control = ctlRows (tileOf wh d).control ∧
    ctlRows (tileOf wh b).control = ctlCols (tileOf wh d).control ∧ ctlCols (tileOf wh a).control = ctlCols (tileOf wh b).control
  slots : matrixSlot (s.mg.svc == 3) (slotWord s x (ctlSlot (tileOf wh a).control)) = some fa ∧
    matrixSlot (s.mg.svc == 3) (slotWord s x (ctlSlot (tileOf wh b).control)) = some fb
  group : fa.elem.group = fb.elem.group ∧ ctlCols (tileOf wh a).control ≤ fa.elem.group.stepK

/-- The checks of a loop before its first step (R293). -/
structure LoopOk (e : EngineOp) (size : Nat) (ra rb k : Nat) (fa fb : Slot) : Prop where
  record : (e.cap.a.at 0).toNat % 32 = 0 ∧ (e.cap.a.at 0).toNat + 32 ≤ size
  aligned : (∀ i, i < 6 → e.words.getD i 0 % 16 = 0) ∧ e.words.getD 7 0 % 8 = 0
  count : e.words.getD 6 0 ≠ 0
  inside : e.words.getD 0 0 + (e.words.getD 6 0 - 1) * e.words.getD 2 0 + (ra - 1) * e.words.getD 1 0 + elemRowBytes fa.elem k ≤ size ∧
    e.words.getD 3 0 + (e.words.getD 6 0 - 1) * e.words.getD 5 0 + (rb - 1) * e.words.getD 4 0 + elemRowBytes fb.elem k ≤ size
  scales : (fa.scale = 1 → e.words.getD 7 0 + 512 * (e.words.getD 6 0 - 1) + 8 * ra ≤ size) ∧
    (fb.scale = 1 → e.words.getD 7 0 + 512 * (e.words.getD 6 0 - 1) + 256 + 8 * rb ≤ size)

/-- The accumulator rows of a product over `n` values of k from `lo` on: every sum of row i and column j folds row i of A with row j of B (R292). -/
def ProductOf (D A B D' : Tile) (fa fb : Slot) (k lo n : Nat) : Prop :=
  D'.control = D.control ∧ D'.tscale = D.tscale ∧ D'.scales = D.scales ∧
    ∀ i, i < ctlRows D.control → D'.accs i (ctlCols D.control) = (D.accs i (ctlCols D.control)).zipWith
      (fun acc j => foldPart fa.elem fb.elem acc (opRow A fa k i) (opRow B fb k j) lo n) (List.range (ctlCols D.control))

/-- The rows of an operand tile of a loop's step, read from the local store: `n` bits of elements each, every bit past them cleared (R273, R293). -/
def LoadedRows (b : Bytes) (base stride n rows : Nat) (x : Tile) : Prop :=
  ∀ r j, r < rows → j < 1024 → (Bytes.get x.data (128 * r + j / 8)).getLsbD (j % 8) =
    (decide (j < n) && (Bytes.get b (base + r * stride + j / 8)).getLsbD (j % 8))

/-- The values of k before which a step may stop inside: half of the largest step while the array is split, and the quarters of FP32's, its half always (Table 16-9). -/
def innerAt (g : MxGroup) (split : Bool) : List Nat :=
  if g = .f32 then (if split then [8, 16, 24] else [16]) else if split ∧ g ≠ .log then [g.stepK / 2] else []

/-- The boundary that a step of `n` comes to next from `pos`: the first inner one, or its end (R299). -/
def NextBound (g : MxGroup) (split : Bool) (n pos hi : Nat) : Prop :=
  pos < hi ∧ (hi = n ∨ (hi ∈ innerAt g split ∧ hi < n)) ∧ ∀ b ∈ innerAt g split, pos < b → b < n → hi ≤ b

/-! ## Registers of the management space -/

/-- Numbers of a context's block that a write changes, and the values the tables give a meaning (Table 22-4). -/
def blockNumbers : List Nat := [0x08, 0x09, 0x0A, 0x0B, 0x0C, 0x0D, 0x0E, 0x0F, 0x10, 0x11, 0x15, 0x16]

def BlockLegal (k : Nat) (v : DWord) : Prop :=
  (k = 0x08 → v.toNat % 32 = 0) ∧ (k = 0x0C ∨ k = 0x15 → v.toNat % 65536 = 0) ∧ (k = 0x16 → v.toNat % 2 ^ 17 ≤ 65536)

/-- A context as a write of its block finds it: one that stands saved has been created anew, with every register at its reset value (R367, log entry 74), stopped while a thermal stop lasts (R379). -/
def blockContext (s : State) (c : Nat) : Context :=
  if (s.ctx c).saved = true then { Context.reset c with host := (s.ctx c).host, stopped := s.mg.hold.isSome } else s.ctx c

/-- A context after a write of number k of its block. -/
def blockWritten (c : Context) (k : Nat) (v : DWord) : Context :=
  { ctxWritten c k v with
    ptbase := if k = 0x0C then v else c.ptbase
    xtag := if k = 0x0D then v.setWidth 16 else c.xtag
    migthresh := if k = 0x0E then v.setWidth 16 else c.migthresh
    worldtab := if k = 0x0F then v else c.worldtab
    hptpart := if k = 0x10 then v.setWidth 32 &&& 0xF else c.hptpart
    vctx := if k = 0x11 then v.setWidth 4 else c.vctx
    spillbase := if k = 0x15 then v else c.spillbase
    spillsize := if k = 0x16 then BitVec.ofNat 32 (v.toNat % 2 ^ 17) else c.spillsize }

/-- A unit of the service die reaches `n` bytes of a context (R345). -/
def ServiceRange (s : State) (ctx : Nat) (kind : BitVec 3) (va pa n : Nat) : Prop :=
  ∀ j, j < n → XlAt s 800 ctx false kind (va + j) (pa + j)

/-- A field of a record in memory. -/
def fieldAt (m : Bytes) (base off n : Nat) : Nat := leVal (fun j => Bytes.get m (base + off + j)) n

/-- The ring record at `base` keeps Table 20-2. -/
structure RingRecOk (m : Bytes) (base : Nat) : Prop where
  slots : fieldAt m base 0 8 % 128 = 0
  words : fieldAt m base 8 8 % 8 = 0 ∧ fieldAt m base 0x10 8 % 8 = 0 ∧ fieldAt m base 0x18 8 % 32 = 0
  sizes : 3 ≤ fieldAt m base 0x20 1 ∧ fieldAt m base 0x20 1 ≤ 16 ∧ fieldAt m base 0x21 1 ≤ 7 ∧ 1 ≤ fieldAt m base 0x22 2
  rest : fieldAt m base 0x24 28 = 0

def ringRecAt (m : Bytes) (base : Nat) : RingRec :=
  { slots := fieldAt m base 0 8, widx := fieldAt m base 8 8, head := fieldAt m base 0x10 8, errlog := fieldAt m base 0x18 8,
    log2n := fieldAt m base 0x20 1, retry := fieldAt m base 0x21 1, quantum := fieldAt m base 0x22 2 }

/-! ## Page tables and fault buffers -/

/-- The entry of a page tree at an address, and the table it points to (Table 8-1). -/
def pteAt (m : Bytes) (a : Nat) : Nat := leVal (fun j => Bytes.get m (a + j)) 8
def pteNext (e : Nat) : Nat := e / 65536 % 2 ^ 36 * 65536

/-- Address of the entry that level k of a walk reads for a VA (R149). -/
def walkAddr (m : Bytes) (root va : Nat) : Nat → Nat
  | 0 => root + 8 * (va / 2 ^ 42 % 8192)
  | k + 1 => pteNext (pteAt m (walkAddr m root va k)) + 8 * (va / 2 ^ (29 - 13 * k) % 8192)

def PteV (e : Nat) : Prop := e % 2 = 1
def PteLeaf (e : Nat) : Prop := e / 2 ^ 52 % 2 = 1
def PteR (e : Nat) : Prop := e / 2 % 2 = 1
def PteW (e : Nat) : Prop := e / 4 % 2 = 1
def PteX (e : Nat) : Prop := e / 8 % 2 = 1

/-- The fields of a leaf are well-formed (R150). -/
def LeafOk (e : Nat) (big : Bool) : Prop :=
  e < 2 ^ 60 ∧ e / 2 ^ 55 % 4 ≠ 3 ∧ (PteW e → PteR e) ∧ (big = true → e / 65536 % 8192 = 0)

/-- The levels above k are tables. -/
def Down (m : Bytes) (root va k : Nat) : Prop :=
  ∀ j, j < k → PteV (pteAt m (walkAddr m root va j)) ∧ ¬PteLeaf (pteAt m (walkAddr m root va j))

/-- What a walk meets (R149, R150). -/
inductive WalkMeets (m : Bytes) (root va : Nat) : WalkRes → Prop where
  | absent (k : Nat) (b : k < 3) (d : Down m root va k) (h : ¬PteV (pteAt m (walkAddr m root va k))) : WalkMeets m root va .absent_
  | leaf (k : Nat) (b : k = 1 ∨ k = 2) (d : Down m root va k) (v : PteV (pteAt m (walkAddr m root va k)))
      (l : PteLeaf (pteAt m (walkAddr m root va k))) (o : LeafOk (pteAt m (walkAddr m root va k)) (k == 1)) :
      WalkMeets m root va (.leaf ⟨walkAddr m root va k, pteAt m (walkAddr m root va k), k == 1⟩)
  | high (v : PteV (pteAt m (walkAddr m root va 0))) (l : PteLeaf (pteAt m (walkAddr m root va 0))) : WalkMeets m root va .malformed
  | bad (k : Nat) (b : k = 1 ∨ k = 2) (d : Down m root va k) (v : PteV (pteAt m (walkAddr m root va k)))
      (l : PteLeaf (pteAt m (walkAddr m root va k))) (o : ¬LeafOk (pteAt m (walkAddr m root va k)) (k == 1)) :
      WalkMeets m root va .malformed
  | deep (d : Down m root va 3) : WalkMeets m root va .malformed

/-- The rights of a leaf cover an access kind. -/
def LeafRights (e : Nat) (kind : BitVec 3) : Prop :=
  (kind.getLsbD 0 = true → PteR e) ∧ (kind.getLsbD 1 = true → PteW e) ∧ (kind.getLsbD 2 = true → PteX e)

/-- A cached translation gives what a leaf says for the page at `va`. -/
def GivesLeaf (T : Tlb) (e : Nat) (big : Bool) (va : Nat) : Prop :=
  T.paOf va = pteNext e / (if big then 2 ^ 29 else 65536) * (if big then 2 ^ 29 else 65536) +
      va % (if big then 2 ^ 29 else 65536) ∧
    (T.r = true ↔ PteR e) ∧ (T.w = true ↔ PteW e) ∧ (T.x = true ↔ PteX e) ∧ (T.d = true ↔ e / 2 ^ 54 % 2 = 1) ∧
    T.attr = attrOf (e / 2 ^ 55 % 4) ∧ T.place = e / 2 ^ 57 % 4

/-- No unconsumed entry of a fault buffer is of the page. -/
def NoEntry (c : Context) (page : Nat) : Prop :=
  ∀ j e, j < (c.fbTail - c.fbHead).toNat → AMap.get? c.fb ((c.fbHead.toNat + j) % 8) = some e → e.page.toNat ≠ page

/-- The train waits for a replay: parked on a fault, or told of one by its walk (R160). -/
def ReplayWaits (x : Train) : Bool := !x.xl.isEmpty || x.park.any (·.faulted)

/-- The unconsumed Chime entry of a tag and page stands in slot `i` (R162). -/
def ChimeAt (x : Chime) (tag : Half) (page : DWord) (i : Nat) (e : ChimeEntry) : Prop :=
  ∃ j, j < (x.tail - x.head).toNat ∧ i = (x.head.toNat + j) % 64 ∧ AMap.get? x.slots i = some e ∧ e.tag = tag ∧ e.page = page ∧
    ∀ k f, k < j → AMap.get? x.slots ((x.head.toNat + k) % 64) = some f → ¬(f.tag = tag ∧ f.page = page)

/-! ## The schedule -/

/-- A train may fetch the word at `va` as `w` (R44): an executable page of its context, reached without a check in the way. -/
def Fetched (s : State) (t : Train) (va : Nat) (w : DWord) : Prop :=
  va < 2 ^ 55 ∧ ∃ e, s.findTlb none (s.coreOf t) (s.tagOf (s.ctxOf t)) va = some e ∧ e.x = true ∧
    accessCause s false false e va = none ∧ w = BitVec.ofNat 64 (leVal (fun j => Bytes.get s.mem (e.paOf va + j)) 8)

/-- The train at a port's choice, its ports' other holder apart: resident on the core and ready (R69). -/
def MayTake (s : State) (core port id : Nat) : Prop :=
  ∃ x, AMap.get? s.trains id = some x ∧ s.coreOf x = core ∧ portAt (s.core core) (port + 1) ≠ some id ∧ trainReady s id x = true

/-- The engine queue that a word of the clause enters is full, so that the train is not ready (R11, R69). -/
def QueueHolds (s : State) (x : Train) (h : Header) (ws : List DWord) : Prop :=
  x.inTx = false ∧ ∃ k i, k < ws.length ∧ decodeWord (wordClass h k).1 (wordClass h k).2 (ws.getD k 0) = .ok i ∧
    queueFull s x (wordClass h k).1 i = true

/-- The keys of R69, smaller first. -/
def Outranks (s : State) (x y : Train) : Prop := lexLt (rankKeys s x) (rankKeys s y) = true

/-- The train waits: its wait has not ended (R71). -/
def Waits (x : Train) (w : Wait) : Prop := x.wait = some w ∧ w.woken = false

/-- The HANG limit of a train's dispatch when that is watched (R71, Table 4-2). -/
def hangOf (s : State) (x : Train) : Option Nat :=
  match s.dispatchOf x with
  | some d => if d.launch.watched = true then some (if d.launch.hang = 0 then (s.ctx (s.ctxOf x)).hangLimit.toNat else 2 ^ d.launch.hang)
      else none
  | none => none

/-- A queue entry of the matrix engine is of a core and a context. -/
def OnMatrix (s : State) (core ctx : Nat) (e : EngineOp) : Prop :=
  ∃ x, AMap.get? s.trains e.train = some x ∧ s.coreOf x = core ∧ s.ctxOf x = ctx

/-- Outside trap mode and brackets, with a vector: a trap enters its handler (R74, R75). -/
def Enters (s : State) (x : Train) : Prop := vectorOf s x ≠ 0 ∧ x.trap.tm = false ∧ x.inTx = false

/-- The point of a header whose clause has not begun (Table 4-6). -/
def headerPoint (x : Train) (next : DWord) : TrapAt := ⟨x.pc, false, x.pc, next⟩

/-! ## The life of wheels, trains and contexts -/

/-- What the wheels on a core take of a budget. -/
def usedOn (s : State) (core : Nat) (f : Launch → Nat) : Nat :=
  ((s.wheels.filter fun kv => kv.2.core == core).map fun kv => match AMap.get? s.dispatches kv.2.dispatch with
    | some d => f d.launch
    | none => 0).sum

/-- Vector registers that the trains on a core hold, of one context or of all (R66). -/
def heldOn (s : State) (core : Nat) (c : Option Nat) : Nat :=
  ((s.trains.filter fun kv => s.coreOf kv.2 == core && (c.isNone || c == some (s.ctxOf kv.2))).map (·.2.v.length)).sum

/-- The wheel may start on the core (R62, R63, R66, R70, R283, R377; log entry 64 for what the spill area holds). -/
structure Admits (s : State) (d : Dispatch) (w core : Nat) : Prop where
  runs : d.joined = true ∧ d.failed = none ∧ (s.ctx d.ctx).stopped = false ∧ (s.ctx d.ctx).preempt = false
  turn : w < d.wheels ∧ w ∉ d.started ∧ (d.launch.watched = true ∨ ∀ i, i < w → i ∈ d.started)
  serves : core < 800 ∧ s.mg.coreMap.getLsbD core = true ∧ (s.mg.svc = 4 ∨ (s.mg.svc = 3 ∧ core < 200))
  pin : ∀ p ∈ d.pins, p.1 = w → p.2 = core
  room : usedOn s core (·.trains) + d.launch.trains ≤ 32 ∧ usedOn s core (·.local_) + d.launch.local_ ≤ 524288 ∧
    usedOn s core (·.tiles) + d.launch.tiles ≤ 32
  tenants : (∃ w ∈ s.wheels, w.2.core = core ∧ ∃ f, AMap.get? s.dispatches w.2.dispatch = some f ∧ f.ctx = d.ctx) ∨
    ∀ v ∈ s.wheels, ∀ u ∈ s.wheels, v.2.core = core → u.2.core = core → ∀ f g, AMap.get? s.dispatches v.2.dispatch = some f →
      AMap.get? s.dispatches u.2.dispatch = some g → f.ctx = g.ctx
  spill : ((s.ctx d.ctx).spillsize = 0 → heldOn s core none < 3072) ∧ ((s.ctx d.ctx).spillsize ≠ 0 →
    (((s.trains.map fun kv => s.coreOf kv.2).dedup.map fun k => min (heldOn s k (some d.ctx)) (heldOn s k none - 3072)).sum <
      512 * (s.ctx d.ctx).spillsize.toNat))
  free_ : ∀ k n, d.node = some k → AMap.get? s.nodes k = some n → n.held = false

/-- A train as its wheel starts (R61, R66): every register zero, every scoreboard 0, em and LIVE the mask. -/
structure StartsAs (y : Train) (wheel i : Nat) (entry : DWord) (mask : Mask) : Prop where
  place : y.wheel = wheel ∧ y.index = i ∧ y.pc = entry &&& ~~~7#64 ∧ y.clause = none ∧ y.em = mask ∧ y.live = mask
  regs : (∀ k, y.sreg k = 0) ∧ (∀ k L, L < 32 → (y.vreg k).at L = 0) ∧ (∀ k, k < 7 → y.pred k = 0) ∧ ∀ k : BitVec 3, y.sbCount k = 0
  idle : y.trap.tm = false ∧ y.deferred = [] ∧ y.inflight = [] ∧ y.fifo = [] ∧ y.loads = [] ∧ y.tx.on = false ∧ y.wait = none ∧
    y.park = none ∧ y.ending = false ∧ y.stopped = false

/-- Wheel `w` of dispatch `k` has started from `s`: zero local store, tiles configured for nothing, its trains at the entry (R61, R62, R66, R283). -/
structure WheelStarted (s t : State) (k : Nat) (d : Dispatch) (w core : Nat) (chunk : Option Nat) (mask : Nat → Mask) : Prop where
  only : t = { s with
    nextId := s.nextId + 1 + d.launch.trains, wheels := t.wheels, trains := t.trains
    dispatches := AMap.set s.dispatches k { d with started := w :: d.started }
    cores := AMap.set s.cores core { s.core core with clock := max (s.core core).clock d.acq } }
  wheel : ∃ x, t.wheels = AMap.set s.wheels s.nextId x ∧ x.dispatch = k ∧ x.index = w ∧ x.core = core ∧ x.chunk = chunk ∧
    x.local_ = [] ∧ (∀ i : BitVec 3, tileOf x i = ⟨[], [], 0x3F800000, 0⟩) ∧ x.geos = Vector.replicate 4 none ∧
    x.rings = Vector.replicate 4 none ∧ x.colls = []
  trains : ∀ i, i < d.launch.trains → ∃ y, AMap.get? t.trains (s.nextId + 1 + i) = some y ∧
    StartsAs y s.nextId i d.launch.entry (mask i)
  others : ∀ j, (j ≤ s.nextId ∨ s.nextId + d.launch.trains < j) → AMap.get? t.trains j = AMap.get? s.trains j

/-- No operation of a train stands in a queue. -/
def NoOps (q : AMap EngineOp) (id : Nat) : Prop := ∀ k e, (k, e) ∈ q → e.train ≠ id

/-- Every issued access of a train is performed, every instruction of it complete (R84). -/
structure Drained (s : State) (id : Nat) (x : Train) : Prop where
  accesses : x.fifo = [] ∧ x.loads = [] ∧ ∀ w ∈ (s.core (s.coreOf x)).writes, w.train ≠ id
  done_ : x.inflight = [] ∧ x.deferred = [] ∧ (∀ q, x.ray = some q → q.opened = false)
  queues : NoOps s.esu id ∧ NoOps s.matrix id ∧ NoOps s.stream id ∧ NoOps s.ray id ∧ ∀ i ∈ s.tlbis, i.train = id → i.begun = true

/-- The train neither holds its context's token nor waits for it (R238). -/
def NoToken (s : State) (id : Nat) (x : Train) : Prop :=
  (∀ h, (s.ctx (s.ctxOf x)).token = some h → h.1 ≠ id) ∧ id ∉ (s.ctx (s.ctxOf x)).tokenQueue

/-- No slot of a wheel's rings drains, and no ring of its core has a transfer still to begin (R262). -/
def RingsRest (s : State) (w : Wheel) : Prop :=
  (∀ k r, ringOf w k = some r → ∀ c ∈ r.slots, ∀ q, c ≠ .draining q) ∧
    ∀ v ∈ s.wheels, v.2.core = w.core → ∀ k r, ringOf v.2 k = some r → r.todo = []

/-- Every train of the context stands stopped or is ending. -/
def AllStopped (s : State) (c : Nat) : Prop :=
  ∀ id x, (id, x) ∈ s.trains → s.ctxOf x = c → x.stopped = true ∨ x.ending = true

/-- A context that is not stopped is asked to stop: stopped at once when nothing of it runs, else under way (R78). -/
def StopAsked (s : State) (c : Nat) (x : Context) : Prop :=
  (AllStopped s c → x.stopped = true ∧ x.preempt = false) ∧ (¬AllStopped s c → x.stopped = false ∧ x.preempt = true)

/-- Where a stop takes a train: between clauses, parked, waiting, or at an instruction that waits in place, for walks or its bracket's end among others (R78, Table 4-7). -/
def StopPoint (s : State) (id : Nat) (x : Train) : Prop :=
  x.clause = none ∨ x.park ≠ none ∨ (∃ w, Waits x w) ∨ x.stall = true ∨ x.tokenWait = true ∨ x.tx.ending ≠ none ∨
    ∃ w ∈ s.walks, ∃ u ∈ w.2.waiters, u.train = id ∧ u.stays = true

/-- A train after its context resumed: its Escapement age restarts (R79). -/
def wentOn (x : Train) : Train := { x with stopped := false, readyAge := 0 }

/-- Contexts and trains after the contexts that `on` names resumed; nothing else of them changed. -/
def Resumed (s t : State) (on : Nat → Prop) : Prop :=
  (∀ c, c < 16 → (on c → (t.ctx c).stopped = false ∧ (t.ctx c).preempt = false ∧ (t.ctx c).regulator = 0) ∧ (¬on c → t.ctx c = s.ctx c)) ∧
    ∀ id x, AMap.get? s.trains id = some x → x.Ok → (on (s.ctxOf x) → AMap.get? t.trains id = some (wentOn x)) ∧
      (¬on (s.ctxOf x) → AMap.get? t.trains id = some x)

/-! ## The Remontoir -/

/-- The ring may take a packet (R345, R374). -/
structure RingTakes (s : State) (k : Nat) : Prop where
  kicked : ringEn (s.ring k).ctl = true ∧ (s.ring k).headDue = false ∧ (s.ring k).h ≠ (s.ring k).kt ∧ (s.ring k).held = false ∧
    s.ringGone k = false
  room : (s.nodes.filter fun x => x.2.ring == k && (x.2.state == .started || x.2.state == .waiting && x.2.cause == 0)).length < 4096

/-- Address of the slot of packet H (R345). -/
def slotAt (r : Ring) : Nat := r.rec_.slots + 128 * (r.h.toNat % 2 ^ r.rec_.log2n)

/-- The key of a ring's next packet (R346, R347). -/
def packetKey (k : Nat) (r : Ring) : Nat := k * 2 ^ 58 + r.c

/-- A node record at `a` keeps Tables 20-3 and 20-4 (R346). -/
structure NodeRecOk (m : Bytes) (a : Nat) : Prop where
  kind : 1 ≤ fieldAt m a 0 1 ∧ fieldAt m a 0 1 ≤ 6
  counts : fieldAt m a 2 1 ≤ 16 ∧ fieldAt m a 3 1 ≤ 4
  flags : (fieldAt m a 4 4 / 4 % 2 = 1 → fieldAt m a 0 1 = 3 ∨ fieldAt m a 0 1 = 4)
  fp : fieldAt m a 0x18 8 % 16 = 0 ∧ (fieldAt m a 2 1 = 0 → fieldAt m a 0x18 8 = 0)
  deps : ∀ i, i < 4 → fieldAt m a 3 1 ≤ i → fieldAt m a (0x20 + 8 * i) 8 = 0
  token : fieldAt m a 0x40 8 % 8 = 0 ∧ fieldAt m a 0x50 44 = 0
  args : match fieldAt m a 0 1 with
    | 1 | 2 => fieldAt m a 8 8 % 256 = 0 ∧ fieldAt m a 0x10 8 = 0
    | 3 | 4 => fieldAt m a 8 8 % 32 = 0 ∧ 1 ≤ fieldAt m a 0x10 8 ∧ fieldAt m a 0x10 8 ≤ 256
    | 5 => fieldAt m a 8 8 % 256 = 0
    | _ => fieldAt m a 8 8 % 8 = 0

/-- The node that a record makes (R345 to R351), apart from its footprint, its edges and its write time: those and its cost are `fps`, `edges`, `cost` and `wts`. -/
def nodeAt (m : Bytes) (a ring ctx order : Nat) (fps : List Fp) (edges : List Nat) (cost : Nat) (idem : Bool) (cause : Byte)
    (wts : Nat) : Node :=
  { ring := ring, ctx := ctx, order := order, kind := fieldAt m a 0 1, prio := fieldAt m a 1 1 % 4
    serial := decide (fieldAt m a 4 4 % 2 = 1), hold := decide (fieldAt m a 4 4 / 2 % 2 = 1), idempotent := idem
    arg0 := BitVec.ofNat 64 (fieldAt m a 8 8), arg1 := BitVec.ofNat 64 (fieldAt m a 0x10 8)
    token := BitVec.ofNat 64 (fieldAt m a 0x40 8), tokval := BitVec.ofNat 64 (fieldAt m a 0x48 8)
    fps := fps, edges := edges, state := .waiting, cause := cause, trappc := 0, se := false, replays := 0, jobs := [], todo := [], core := 0
    cost := cost, held := false, refused := false, signalled := false, wts := wts }

/-- The incomplete nodes of its ring that a new node must follow, those that have failed apart (R353): every one for a SERIAL node, every SERIAL one, those whose footprint overlaps its own (R349). -/
def Follows (s : State) (k : Nat) (serial : Bool) (fps : List Fp) (j : Nat) : Prop :=
  ∃ n, AMap.get? s.nodes j = some n ∧ n.ring = k ∧ (n.state = .started ∨ (n.state = .waiting ∧ n.cause = 0)) ∧
    (serial = true ∨ n.serial = true ∨ ∃ a ∈ n.fps, ∃ b ∈ fps, Fp.overlaps a b = true)

/-- A node may start: its edges are gone, it is not held, its context runs, no rule holds it back (R10, R192, R301, R351, R355). -/
def NodeMay (s : State) (n : Node) : Prop :=
  n.state = .waiting ∧ n.cause = 0 ∧ n.edges = [] ∧ n.hold = false ∧ n.held = false ∧
    (s.ctx n.ctx).stopped = false ∧ (s.ctx n.ctx).preempt = false ∧ nodeBlocked s n = false

/-- It is the node's turn: no ready node of a higher priority; at its priority its ring holds the turn, and it is the oldest of its ring there (R351). -/
structure TurnOf (s : State) (k : Nat) (n : Node) : Prop where
  may : NodeMay s n
  prio : n.prio < 4 ∧ ∀ j m, AMap.get? s.nodes j = some m → NodeMay s m → m.prio ≤ n.prio
  ring : s.pool[n.prio % 4]'(Nat.mod_lt _ (by decide)) = n.ring
  first : ∀ j m, AMap.get? s.nodes j = some m → NodeMay s m → m.prio = n.prio → m.ring = n.ring → j ≠ k → n.order < m.order

/-- The deficit of a ring at a priority (R351). -/
def deficitAt (r : Ring) (p : Nat) : Nat := r.deficit[p % 4]'(Nat.mod_lt _ (by decide))

/-- The ring has a ready node at a priority: its predecessors are complete and nothing holds it (R351). -/
def HasReady (s : State) (j p : Nat) : Prop :=
  ∃ k m, AMap.get? s.nodes k = some m ∧ m.ring = j ∧ m.prio = p ∧ m.state = .waiting ∧ m.cause = 0 ∧ m.edges = [] ∧ m.hold = false

/-- From `s` the deficit of ring `r` at a priority becomes `d`, and a ring with no ready node there has none; nothing else of the rings changes (R351). -/
def DeficitsAre (s t : State) (p r d : Nat) : Prop := ∀ j, j < 64 →
  t.ring j = { s.ring j with deficit := (t.ring j).deficit } ∧
  (∀ q, q % 4 ≠ p % 4 → deficitAt (t.ring j) q = deficitAt (s.ring j) q) ∧
  (HasReady s j p → deficitAt (t.ring j) p = if j = r then d else deficitAt (s.ring j) p) ∧
  (¬HasReady s j p → deficitAt (t.ring j) p = 0)

/-- The context's trains and nodes may go on. -/
def CtxRuns (s : State) (c : Nat) : Prop := (s.ctx c).stopped = false ∧ (s.ctx c).preempt = false

/-- The nodes after a node has completed with write time `wts`: its edges are gone, and its successors start past its writes (R10, R352). -/
def Freed (s : State) (k : Nat) (n' : Node) (nodes : AMap Node) : Prop :=
  AMap.get? nodes k = some n' ∧ ∀ j m, j ≠ k → AMap.get? s.nodes j = some m → AMap.get? nodes j =
    some (if k ∈ m.edges then { m with edges := m.edges.filter (· != k), wts := max m.wts n'.wts } else m)

/-- The nodes after a node has failed for good: every incomplete successor has its cause, E_PRED_FAILED where it had none (R353). -/
def FailedOn (s : State) (k : Nat) (n' : Node) (nodes : AMap Node) : Prop :=
  AMap.get? nodes k = some n' ∧ ∀ j m, j ≠ k → AMap.get? s.nodes j = some m → AMap.get? nodes j =
    some (if k ∈ m.edges ∧ (m.state = .waiting ∨ m.state = .started) then { m with cause := if m.cause = 0 then 0x26 else m.cause } else m)

/-- No dispatch is of the node. -/
def NoDispatch (s : State) (k : Nat) : Prop := ∀ d ∈ s.dispatches, d.2.node ≠ some k

/-! ## The package -/

/-- A physical address stands in GDDR7 while memory serves (Table 22-7, R377). -/
def GddrAt (s : State) (pa : Nat) : Prop := (s.mg.svc = 4 ∧ pa < 0x2000000000) ∨ (s.mg.svc = 3 ∧ pa < 0x800000000)

/-- The address of a register as a host sees it (R372). -/
def hostReg (off : Nat) : Nat := 0x10000000000 + off

/-- What a host's write of the whole register at `off` comes to (R373). -/
def hostEvent (s : State) (off : Nat) (v : DWord) : List Instr :=
  let k := (off - 0x100000) / 64
  let ring := 0x100000 ≤ off ∧ off < 0x101000 ∧ ringCrown (s.ring k).ctl = false
  if off = 0x30 then [.mgPlimitWrite v]
  else if off = 0x40 then if v.getLsbD 0 = true then [.mgClkrstGo] else []
  else if ring ∧ off % 64 = 0x10 then [.ringKick k (v.setWidth 32) true]
  else if ring ∧ off % 64 = 0x18 then [.ringStatusWrite k true]
  else [.hostWriteIgnored off v]

/-- A host's number of an address of the fabric. -/
def OfHost (s : State) (h pa : Nat) : Prop := s.region pa = .fabric ∧ pa / 2 ^ 41 % 1024 = h

/-- The value of a little-endian field of a file. -/
def fileVal (f : List Byte) (off n : Nat) : Nat := leVal (fun j => f.getD (off + j) 0) n

/-- The head of a file of one variant, with its signature (R38 to R40, Tables 2-3 and 2-4). -/
structure ObjectHead (f : List Byte) (sig : Nat) : Prop where
  magic : fileVal f 0 4 = 0x01424F4E ∧ fileVal f 4 2 = 3 ∧ fileVal f 6 2 = 1 ∧ fileVal f 8 4 = 0x300 ∧ fileVal f 0xC 4 < 2 ∧
    fileVal f 0x10 48 = 0
  variant : fileVal f 0x40 8 = sig ∧ fileVal f 0x48 8 % 256 = 0 ∧ fileVal f 0x5A 2 = 0 ∧ fileVal f 0x5C 4 = 0

/-- Its one section of code or data, of `size` bytes at `off` in the file, with nothing to relocate (Table 2-5). -/
structure OneSection (f : List Byte) (off size align : Nat) : Prop where
  count : fileVal f 0x58 2 = 1
  entry : fileVal f (fileVal f 0x48 8) 4 < 3 ∧ fileVal f (fileVal f 0x48 8 + 4) 4 = align ∧ fileVal f (fileVal f 0x48 8 + 8) 8 = size ∧
    fileVal f 0x48 8 + fileVal f (fileVal f 0x48 8 + 16) 8 = off ∧ fileVal f (fileVal f 0x48 8 + 24) 8 = 0
  fits : off + size ≤ f.length

/-- The contexts that run, as a mask. -/
def RunMask (s : State) (m : BitVec 16) : Prop :=
  ∀ c, c < 16 → (m.getLsbD c = true ↔ (s.ctx c).stopped = false ∧ (s.ctx c).preempt = false)

/-! ## Entities and rays at their units -/

/-- A unit's computation reads `a` and changes nothing. -/
def ReadsAs {s : State} {α : Type} (m : M s α) (a : α) : Prop := ∃ r : Run s, m (⟨s, .refl⟩ : Run s) = .ok (a, r) ∧ r.1 = s

/-- The ESU acts for the train `x` of wheel `wh` (R199, R364). -/
def esuFor (s : State) (id : Nat) (x : Train) (wh : Wheel) : EU :=
  { core := wh.core, ctx := s.ctxOf x, priv := s.privDispatch x, train := some id, node := none }

/-- The operation's own context: its train, wheel, address space. -/
def opFor (s : State) (x : Train) (wh : Wheel) : OpCtx :=
  { tr := x, wheel := wh, ctx := s.ctxOf x, priv := s.privDispatch x, trains := trainsOf s x, size := localSize s x }

/-- An operation of the ESU may act: the head of its train's, no sync point of its own outstanding (R195, R205, R214). -/
structure EsuHead (s : State) (op : Nat) (e : EngineOp) (x : Train) (wh : Wheel) : Prop where
  head : OpHead s s.esu op e x wh
  loads : ∀ g sb d, e.instr = .ecmt g sb d → ∀ l ∈ x.loads, op ≤ l.id
  sync : ∀ p ∈ s.syncs, p.op ≠ op
  query : x.queryFirst op = false

/-- Lane L of a destination holds `f L` where the operation acted, every other register is as before (R204, R205). -/
structure LanesWrote (x y : Train) (d : Option (Dst × Nat)) (act : Mask) (f : Nat → Nat) (pd : Option (BitVec 3)) (ok : Nat → Prop) :
    Prop where
  vec : ∀ k L, L < 32 → (∀ w n, d = some (w, n) → w.scalar = false) → (y.vreg k).at L = match d with
    | some (w, n) => if w.nowb = false ∧ w.idx.toNat ≤ k ∧ k < w.idx.toNat + n ∧ act.getLsbD L
        then BitVec.ofNat 32 (f L / 2 ^ (32 * (k - w.idx.toNat))) else (x.vreg k).at L
    | none => (x.vreg k).at L
  preds : ∀ k L, k < 7 → L < 32 → ((y.pred k).getLsbD L = true ↔
    if pd = some (BitVec.ofNat 3 k) ∧ act.getLsbD L = true then ok L else (x.pred k).getLsbD L = true)

/-- A scalar result of an operation that acted once for the train. -/
def ScalarWrote (x y : Train) (d : Dst) (n : Nat) (v : Nat) : Prop :=
  y.v = x.v ∧ ∀ k, y.sreg k = if d.nowb = false ∧ d.idx.toNat ≤ k ∧ k < d.idx.toNat + n
    then BitVec.ofNat 32 (v / 2 ^ (32 * (k - d.idx.toNat))) else x.sreg k

/-- A directory entry at `a` (Table 10-3). -/
structure EntryAt (m : Bytes) (a : Nat) (e : DirEnt) : Prop where
  fields : e.gen = fieldAt m a 0 3 ∧ e.state = fieldAt m a 4 1 ∧ e.row = fieldAt m a 5 1 ∧ e.arch = fieldAt m a 6 2 ∧
    e.chunk = fieldAt m a 8 4 ∧ e.version = fieldAt m a 12 4
  legal : fieldAt m a 3 1 = 0 ∧ e.state < 5

/-- The query after its start in every busy lane, with no prediction for a lane looked up now: a void ray's lane has no hit, every other busy lane has been looked up (R315, R316, R319, R321). -/
def begun (q : RayQuery) : RayQuery :=
  let due (K : Nat) : Bool := q.lanes.at K == .busy && !voidRay (q.rays.at K)
  { q with
    lanes := perLane fun K => if q.lanes.at K = .busy ∧ voidRay (q.rays.at K) = true then .done none 0 else q.lanes.at K
    looked := q.looked ||| maskOf due
    tp := perLane fun K => if due K = true ∧ q.looked.getLsbD K = false then none else q.tp.at K }

/-- A prediction counter of a context (R332). -/
def hptCount (x : Context) (die i : Nat) : Word := ((x.hptCounts.toList[die]?).bind fun r => r.toList[i]?).getD 0

/-- From `s`, counter `i` of context `c` on a die has gone up by one, saturating, and nothing else of the contexts has changed (R332). -/
def HptCounted (s t : State) (c die i : Nat) : Prop :=
  t.ctxs = (s.upd (.ctx c { s.ctx c with hptCounts := (t.ctx c).hptCounts })).ctxs ∧ ∀ d j, d < 4 → j < 5 →
    hptCount (t.ctx c) d j = if d = die ∧ j = i ∧ hptCount (s.ctx c) d j ≠ 0xFFFFFFFF then hptCount (s.ctx c) d j + 1
      else hptCount (s.ctx c) d j

/-- The unit may work on the train's query (R13, R78, R333). -/
structure QueryRuns (s : State) (id : Nat) (x : Train) (q : RayQuery) : Prop where
  train : AMap.get? s.trains id = some x
  ray : x.ray = some q
  open_ : q.opened = true ∧ q.held = false
  runs : x.stopped = false ∧ x.ending = false ∧ (s.ctx (s.ctxOf x)).stopped = false ∧ (s.ctx (s.ctxOf x)).preempt = false
  settled : (∀ w ∈ x.fifo, q.op ≤ w.id) ∧ ∀ w ∈ (s.core (s.coreOf x)).writes, q.op ≤ w.id
  acquired : ∀ l ∈ x.loads, l.acq = true → q.op ≤ l.id
  synced : ∀ i ∈ s.tlbis, i.sync = true → i.train = id → q.op ≤ i.op

end Sys2Proof.Machine
end

