-- ==== Sys2Proof/Certificates/Slice0/Obligations.lean ====
section
/-! DEFINITION. The statements for the provers. -/

open Sys2Proof Sys2Proof.Machine

/-! ## Class V -/

/-- R91 to R94, R113: the moves, integer arithmetic, the 64-bit address forms, the bitwise operations, shifts and rotates, and every K form complete in every state in which their checks pass, with the exact result saturated or wrapped and extended by TY, a shift count at or past the width included; every other register, predicate, flag and byte is as before. -/
def Obligations.IntegerResults : Prop :=
  ∀ (s : State) (i : Instr) (r : Iss) (d : Dst) (n : Nat) (f : Nat → DWord), begin_ s i = .ok r →
    intTable r i = some (d, n, f) ∨ bitTable r i = some (d, n, f) ∨ kTable r i = some (d, n, f) → RegResult s i r d n f

/-- R101 to R106, R113: every floating instruction completes in every state in which its checks pass. The sums, products, fused products and conversions write the exact number rounded once by RND, with subnormals kept, the zero signs, canonical NaNs, overflow, SAT and SATF of the rules; `fmin` and `fmax` one of their sources; `frnd` and `cvti` an integer; `fsqrt` the correctly rounded root; the other special functions the exact results Table 5-8 lists. The error bounds of that table for other sources are no part of this. The model's readings it rests on: log entry 9. -/
def Obligations.FloatResults : Prop :=
  ∀ (s : State) (i : Instr) (r : Iss) (d : Dst) (n : Nat) (P : Nat → DWord → Prop),
    begin_ s i = .ok r → floatTable r i = some (d, n, P) →
    ∃ f, (∀ L, L < 32 → P L (f L)) ∧ RegResult s i r d n f

/-- R98, R99, R100, R110: the compares, predicate logic, `pmov` to a predicate and the three votes complete, writing in the active lanes of their predicate what the table says; p7 and NOWB discard the write. -/
def Obligations.PredicateResults : Prop :=
  ∀ (s : State) (i : Instr) (r : Iss) (d : PDst) (f : Nat → Prop),
    begin_ s i = .ok r → predTable r i = some (d, f) → ∃ m, IsMask m f ∧ PredResult s i r d m

/-- R108, R110, R111, R112: an instruction that reduces lanes writes its scalar under PRED = always whatever em holds, and under any other guard only when a lane is active. -/
def Obligations.ReducingResults : Prop :=
  ∀ (s : State) (i : Instr) (r : Iss) (d : Dst) (n : Nat) (u : DWord),
    begin_ s i = .ok r → redTable r i = some (d, n, u) → RedResult s i r d n u

/-- R94, R95, R96, R109, R111: `popc`, `clz`, `lop3`, `bfx`, `bfi`, `shfx` and `ired` to a vector complete with values that have the bits the rules give; a `lop3` whose table value has any of bits 31:8 set raises E_ILL_OPERAND at its word instead, in the lanes of em. -/
def Obligations.FieldResults : Prop :=
  (∀ (s : State) (i : Instr) (r : Iss) (d : Dst) (n : Nat) (P : Nat → DWord → Prop),
    begin_ s i = .ok r → fieldTable r i = some (d, n, P) →
    (∀ g d a b t, i = .lop3 g d a b t → (r.x0 t).toNat < 256) →
    ∃ f, (∀ L, L < 32 → P L (f L)) ∧ RegResult s i r d n f) ∧
  ∀ (s : State) (g : Guard) (d : Dst) (a b t : Src) (r : Iss),
    begin_ s (.lop3 g d a b t) = .ok r → 256 ≤ (r.x0 t).toNat →
    exec (.lop3 g d a b t) s = .next (trapCur s 0x03 none none)

/-- R64, R91: `movs` writes the special value its selector names; WHEELS of a query domain waits in place until the count is fixed. -/
def Obligations.SpecialValues : Prop :=
  ∀ (s : State) (g : Guard) (d : Dst) (w : Special) (r : Iss), begin_ s (.movs g d w) = .ok r →
    if w = .wheels ∧ wheelsOpen s r.t = true then exec (.movs g d w) s = .next (waited s r)
    else RegResult s (.movs g d w) r d (specialRegs w) fun L => special s r.t L w

/-- R109, R110, R111: `shfl` reads the lane its mode names in the ring of 32, active or not; `iscan` combines the active lanes below; `wrlane` writes lane i mod 32 of its destination, when that lane is active, and no other lane. The model's readings it rests on: log entry 10. -/
def Obligations.LaneResults : Prop :=
  (∀ (s : State) (i : Instr) (r : Iss) (d : Dst) (n : Nat) (f : Nat → DWord),
    begin_ s i = .ok r → laneTable r i = some (d, n, f) → RegResult s i r d n f) ∧
  ∀ (s : State) (g : Guard) (w : Bool) (d : Dst) (x i : Src) (r : Iss), begin_ s (.wrlane g w d x i) = .ok r →
    ∃ t, exec (.wrlane g w d x i) s = .next (s.upd (.train r.id (some t))) ∧ t.p = r.t.p ∧ OnlyRegs r t ∧
      (∀ k, t.sreg k = r.freed.sreg k) ∧
      ∀ k L, L < 32 → (t.vreg k).at L =
        if d.nowb = false ∧ d.idx.toNat ≤ k ∧ k < d.idx.toNat + laneRegs w ∧ L = (r.x0 i).toNat % 32 ∧ r.act.getLsbD L
        then (laneVal r w x L).extractLsb' (32 * (k - d.idx.toNat)) 32 else (r.freed.vreg k).at L

/-- R61, R112: `emwr`, `emand` and `emor` act whatever em holds; what is stored is ANDed with LIVE, and inside a bracket with the open lanes; registers and predicates are as before. -/
def Obligations.EmWrites : Prop :=
  ∀ (s : State) (i : Instr) (m : Src) (r : Iss) (f : Mask → Mask → Mask),
    (i = .emwr m ∧ f = fun _ x => x) ∨ (i = .emand m ∧ f = fun e x => e &&& x) ∨ (i = .emor m ∧ f = fun e x => e ||| x) →
    begin_ s i = .ok r →
    ∃ t, exec i s = .next (s.upd (.train r.id (some t))) ∧ t.em = f r.t.em (r.x0 m) ∧
      t.norm.em = (if r.t.inTx then f r.t.em (r.x0 m) &&& r.t.live &&& r.t.tx.opened else f r.t.em (r.x0 m) &&& r.t.live) ∧
      t.p = r.t.p ∧ t.s = r.freed.s ∧ t.v = r.freed.v ∧ GoesOn r (· = none) t ∧ OnlyRegs r { t with em := r.t.em }

/-- R107: `cvtn` raises E_FMT in the active lanes with the descriptor as value when the slot is not legal, even with no lane active; else it completes: `.pk` replaces one element of b, `.up` gives the value of one element of a, and no element index traps. -/
def Obligations.CvtnResults : Prop :=
  ∀ (s : State) (g : Guard) (slot : BitVec 3) (d : Dst) (op : CvtnOp) (r : Iss), begin_ s (.cvtn g slot d op) = .ok r →
    match slotFields (slotWord s r.t slot) with
    | none => exec (.cvtn g slot d op) s = .next (trapCur s 0x0D (some r.act) (some ((slotWord s r.t slot).setWidth 64)))
    | some f => ∃ v, RegResult s (.cvtn g slot d op) r d 1 v ∧ ∀ L, L < 32 →
        match op with
        | .pk a b c => ∀ j, j < 64 → (v L).getLsbD j = (decide (j < 32) &&
            if f.elem.bits * ((r.x c L).toNat % f.elem.perWord) ≤ j ∧ j < f.elem.bits * ((r.x c L).toNat % f.elem.perWord + 1)
            then (f.elem.encode f.rnd f.sat16 (v32 (r.x a L))).testBit (j - f.elem.bits * ((r.x c L).toNat % f.elem.perWord))
            else (r.x b L).getLsbD j)
        | .up a c => v L = (r32 .rne (f.elem.value ((r.x a L).toNat / 2 ^ (f.elem.bits * ((r.x c L).toNat % f.elem.perWord)) %
            2 ^ f.elem.bits))).setWidth 64

/-! ## Class C and traps -/

/-- R80, R81, R82, R83: a branch whose condition holds and which is taken ends the clause at its target; otherwise the train goes on; em, registers and predicates are unchanged. `call` writes the address of the next header to its link pair and branches; `ret` and `jmpi` jump to their pair, and raise E_MISALIGN in the lanes of em with the address as value when it is no multiple of 8; without the condition the train goes on with its registers unchanged. `loop` counts its register down modulo 2^32 and branches while the new count is not zero. -/
def Obligations.ControlTransfers : Prop :=
  (∀ (s : State) (i : Instr) (r : Iss) (rel : BitVec 32) (P : Prop), begin_ s i = .ok r → branchTable r i = some (rel, P) →
     ∃ x, exec i s = .next (s.upd (.train r.id (some x))) ∧ KeepsRegs r x ∧
       (Holds r ∧ P → EndsAt r (targetOf r rel) false x) ∧ (¬(Holds r ∧ P) → GoesOn r (· = none) x)) ∧
  (∀ (s : State) (g : Guard) (n : BitVec 6) (rel : BitVec 32) (r : Iss),
     (begin_ s (.call g n rel) = .ok r →
       ∃ x, exec (.call g n rel) s = .next (s.upd (.train r.id (some x))) ∧ x.v = r.freed.v ∧ x.p = r.t.p ∧ OnlyRegs r x ∧
         (Holds r → EndsAt r (targetOf r rel) false x ∧ x.pair n.toNat = headerAfter r ∧
           ∀ k, k ≠ n.toNat → k ≠ n.toNat + 1 → x.sreg k = r.freed.sreg k) ∧
         (¬Holds r → GoesOn r (· = none) x ∧ x.s = r.freed.s)) ∧
     ∀ i, i = .ret g n ∨ i = .jmpi g n → begin_ s i = .ok r →
       if Holds r ∧ r.t.pair n.toNat &&& 7 ≠ 0 then exec i s = .next (trapCur s 0x04 none (some (r.t.pair n.toNat)))
       else ∃ x, exec i s = .next (s.upd (.train r.id (some x))) ∧ KeepsRegs r x ∧
         (Holds r → EndsAt r (r.t.pair n.toNat) false x) ∧ (¬Holds r → GoesOn r (· = none) x)) ∧
  (∀ (s : State) (g : Guard) (n : BitVec 6) (rel : BitVec 32) (r : Iss), begin_ s (.loop g n rel) = .ok r →
     ∃ x, exec (.loop g n rel) s = .next (s.upd (.train r.id (some x))) ∧ x.v = r.freed.v ∧ x.p = r.t.p ∧ OnlyRegs r x ∧
       (Holds r → x.sreg n.toNat = r.t.sreg n.toNat - 1) ∧ (¬Holds r → x.s = r.freed.s) ∧
       (∀ k, k ≠ n.toNat → x.sreg k = r.freed.sreg k) ∧
       (Holds r ∧ r.t.sreg n.toNat ≠ 1 → EndsAt r (targetOf r rel) false x) ∧
       (¬(Holds r ∧ r.t.sreg n.toNat ≠ 1) → GoesOn r (· = none) x))

/-- R84, R86: outside a bracket `exit` clears its active lanes in LIVE and em and ends the clause, the train begins to end when no lane is left and leaves trap mode with that; inside a bracket it raises E_TX_MISUSE; `yield` ends the clause and offers the port; `nop` only goes on. The model's readings it rests on: log entry 24. -/
def Obligations.ExitYieldNop : Prop :=
  ∀ (s : State) (g : Guard) (r : Iss),
    (begin_ s (.exit g) = .ok r →
      if r.t.inTx then exec (.exit g) s = .next (trapCur s 0x0B none none)
      else ∃ x, exec (.exit g) s = .next (s.upd (.train r.id (some x))) ∧ x.s = r.freed.s ∧ x.v = r.freed.v ∧ x.p = r.t.p ∧
        (Holds r → EndsAt r (headerAfter r) false x ∧ x.live = r.t.live &&& ~~~r.act ∧ x.em = r.t.em &&& ~~~r.act ∧
          (x.live = 0 ↔ x.ending = true) ∧ (x.trap.tm = true ↔ r.t.trap.tm = true ∧ x.live ≠ 0)) ∧
        (¬Holds r → GoesOn r (· = none) x ∧ OnlyRegs r x)) ∧
    (begin_ s (.yield g) = .ok r → ∃ x, exec (.yield g) s = .next (s.upd (.train r.id (some x))) ∧ KeepsRegs r x ∧
      (Holds r → EndsAt r (headerAfter r) true x) ∧ (¬Holds r → GoesOn r (· = none) x)) ∧
    (begin_ s (.nop g) = .ok r → ∃ x, exec (.nop g) s = .next (s.upd (.train r.id (some x))) ∧ KeepsRegs r x ∧
      GoesOn r (· = none) x)

/-- R46, R74, R75, R86: a synchronous trap of the issuing train, with a trap vector, outside trap mode and outside a bracket, enters the handler: ZS_STATUS, ZS_CAUSE, ZS_TRAPPC, ZS_THDR, ZS_TNEXT, ZS_TVAL, the instruction word where the cause names no value, ZS_TLANES, em where it names no lanes, ZS_TEM = em, em = LIVE, pc = TRAP_VECTOR; registers, predicates and scoreboards stay. So do `trap` and `brk`, with n and their active lanes; without their condition the train goes on. E_HOST_GONE also fails the node of its dispatch, once that has ended (R353, log entry 78). With no vector, or in trap mode, a trap is fatal: the train stops, its dispatch keeps the first failure's cause and address, and every byte of memory, every register and every other dispatch stands. -/
def Obligations.TrapEntries : Prop :=
  ((∀ (s : State) (i : Instr) (g : Guard) (n : BitVec 8) (cause : Byte) (r : Iss),
     (i = .trap g n ∧ cause = 0x10) ∨ (i = .brk g n ∧ cause = 0x11) → begin_ s i = .ok r →
     (Holds r → vectorOf s r.t ≠ 0 → r.t.trap.tm = false → r.t.inTx = false →
       exec i s = .next (s.upd (.train r.id (some (entered r.t (pointOf r.c) cause r.act (n.setWidth 64) (vectorOf s r.t)))))) ∧
     (¬Holds r → ∃ x, exec i s = .next (s.upd (.train r.id (some x))) ∧ KeepsRegs r x ∧ GoesOn r (· = none) x)) ∧
   ∀ (s : State) (id : Nat) (t : Train) (c : Clause) (cause : Byte) (lanes : Option Mask) (v : Option DWord),
     s.cur = some id → AMap.get? s.trains id = some t → t.clause = some c → vectorOf s t ≠ 0 → t.trap.tm = false →
     t.inTx = false → cause ≠ 0x13 →
     trapCur s cause lanes v = s.upd (.train id (some (entered t (pointOf c) cause (lanes.getD t.em)
       (v.getD (c.words.getD c.idx 0)) (vectorOf s t))))) ∧
  (∀ (s : State) (id : Nat) (t : Train) (c : Clause) (w : Wheel) (d : Dispatch) (lanes : Option Mask) (v : Option DWord),
     s.cur = some id → AMap.get? s.trains id = some t → t.clause = some c → AMap.get? s.wheels t.wheel = some w →
     AMap.get? s.dispatches w.dispatch = some d → d.launch.trapVector ≠ 0 → t.trap.tm = false → t.inTx = false →
     trapCur s 0x13 lanes v = (s.upd (.train id (some (entered t (pointOf c) 0x13 (lanes.getD t.em)
       (v.getD (c.words.getD c.idx 0)) d.launch.trapVector)))).upd (.dispatch w.dispatch (some { d with
         doom := match d.doom with
           | some x => some x
           | none => some (0x13, (pointOf c).pc) }))) ∧
  (∀ (s : State) (id : Nat) (t : Train) (c : Clause) (w : Wheel) (d : Dispatch) (cause : Byte) (lanes : Option Mask)
     (v : Option DWord),
     s.cur = some id → AMap.get? s.trains id = some t → t.clause = some c → AMap.get? s.wheels t.wheel = some w →
     AMap.get? s.dispatches w.dispatch = some d → (d.launch.trapVector = 0 ∨ t.trap.tm = true) → t.tx.on = false → KeysRise s.trains →
     let s' := trapCur s cause lanes v
     s'.mem = s.mem ∧ s'.wheels = s.wheels ∧
     (∃ d', AMap.get? s'.dispatches w.dispatch = some d' ∧
       d'.failed = (match d.failed with
         | some x => some x
         | none => some (cause, (pointOf c).pc)) ∧ d' = { d with failed := d'.failed }) ∧
     (∀ k, k ≠ w.dispatch → AMap.get? s'.dispatches k = AMap.get? s.dispatches k) ∧
     ∃ t', AMap.get? s'.trains id = some t' ∧ t'.clause = none ∧ t'.s = t.s ∧ t'.v = t.v ∧ t'.live = t.live ∧ t'.trap = t.trap)

/-- R77: `trapret` in trap mode restores em from ZS_TEM within LIVE, leaves trap mode and goes to ZS_TNEXT under `.next`, to the trapped word of the clause at ZS_THDR when INCL is set, else to ZS_TRAPPC; outside trap mode it raises E_PRIV. -/
def Obligations.TrapReturn : Prop :=
  ∀ (s : State) (next : Bool) (r : Iss), begin_ s (.trapret next) = .ok r → r.t.inTx = false →
    if r.t.trap.tm = false then exec (.trapret next) s = .next (trapCur s 0x18 none none)
    else ∃ x, exec (.trapret next) s = .next (s.upd (.train r.id (some x))) ∧ x.em = r.t.trap.tem &&& r.t.live ∧
      x.trap = { r.trapNext with tm := false } ∧ x.clause = none ∧ x.s = r.t.s ∧ x.v = r.t.v ∧ x.p = r.t.p ∧ x.sb = r.t.sb ∧
      (next = true → x.pc = r.t.trap.tnext ∧ x.resume = r.t.resume) ∧
      (next = false → r.t.trap.incl = true → x.pc = r.t.trap.thdr ∧ x.resume = some r.t.trap.trappc) ∧
      (next = false → r.t.trap.incl = false → x.pc = r.t.trap.trappc ∧ x.resume = r.t.resume)

/-! ## Class M: the local store and the weight store -/

/-- R116, R118, R121, R122: `lds` and `ldl`, aligned and inside the allotment, complete at once: each lane's destination holds the bytes at its address, extended; memory, the local store and every other register are as before. -/
def Obligations.LocalLoads : Prop :=
  ∀ (s : State) (i : Instr) (g : Guard) (sb : Sb) (w : MW) (m : Mem) (d : Dst) (inter : Bool) (r : Iss) (wh : Wheel),
    (i = .lds g sb w m d ∧ inter = false) ∨ (i = .ldl g sb w m d ∧ inter = true) → begin_ s i = .ok r → AcqDone s r →
    AMap.get? s.wheels r.t.wheel = some wh → LocalOk s r inter w.bytes (addrOf r w.bytes m) (LoadLane r d) →
    ∃ x, exec i s = .next (s.upd (.train r.id (some x))) ∧
      Loaded r d w.regs (fun L k => loadedReg w
        (leVal (fun j => Bytes.get wh.local_ (spaceByte inter L ((addrOf r w.bytes m L).toNat + j))) w.bytes) k) x ∧
      GoesOn r (· = none) x ∧ x.p = r.t.p ∧ OnlyIssue r x

/-- R116, R117, R121, R122, R140: `sts` and `stl`, aligned, inside the allotment and clear of every waited-on word, complete at once: a byte that active lanes store to holds the byte of the highest of them, every other byte of the local store, all of memory and every register is as before. -/
def Obligations.LocalStores : Prop :=
  ∀ (s : State) (i : Instr) (g : Guard) (sb : Sb) (w : MW) (m : Mem) (x : Src) (inter : Bool) (r : Iss) (wh : Wheel),
    (i = .sts g sb w m x ∧ inter = false) ∨ (i = .stl g sb w m x ∧ inter = true) → begin_ s i = .ok r → AcqDone s r →
    AMap.get? s.wheels r.t.wheel = some wh →
    LocalOk s r inter w.bytes (addrOf r w.bytes m) (fun L => L < 32 ∧ r.act.getLsbD L) →
    (∀ L j, L < 32 → r.act.getLsbD L → j < w.bytes →
      NotWaited s r (spaceByte inter L ((addrOf r w.bytes m L).toNat + j))) →
    ∃ b t, exec i s = .next ((s.upd (.wheel r.t.wheel (some { wh with local_ := b }))).upd (.train r.id (some t))) ∧
      (∀ a, (∀ L j, L < 32 → r.act.getLsbD L → j < w.bytes → spaceByte inter L ((addrOf r w.bytes m L).toNat + j) ≠ a) →
        Bytes.get b a = Bytes.get wh.local_ a) ∧
      (∀ L j, L < 32 → r.act.getLsbD L → j < w.bytes →
        (∀ K i, L < K → K < 32 → r.act.getLsbD K → i < w.bytes →
          spaceByte inter K ((addrOf r w.bytes m K).toNat + i) ≠ spaceByte inter L ((addrOf r w.bytes m L).toNat + j)) →
        Bytes.get b (spaceByte inter L ((addrOf r w.bytes m L).toNat + j)) =
          (srcQ r.t r.c w.regs x L).extractLsb' (8 * j) 8) ∧
      t.s = r.left.s ∧ t.v = r.left.v ∧ t.p = r.t.p ∧ GoesOn r (· = none) t ∧ OnlyIssue r t

/-- R116, R117, R122, R131, R132, R134: a local access raises E_MISALIGN in the lanes whose address is not a multiple of its width, with the address of the lowest of them; failing that, E_PERM in the lanes that reach past the allotment. `lds`, `ldl`, `sts` and `stl` everywhere, a load to a scalar for the lowest active lane alone; `atoml` and `casl` outside a bracket. -/
def Obligations.LocalAccessTraps : Prop :=
  ∀ (s : State) (i : Instr) (inter : Bool) (n : Nat) (va : Nat → DWord) (lane : Nat → Prop) (r : Iss) (mis range : Mask) (L : Nat),
    begin_ s i = .ok r → AcqDone s r → LocalAccess r i inter n va lane →
    IsMask mis (fun L => lane L ∧ (va L).toNat % n ≠ 0) →
    IsMask range (fun L => lane L ∧ localSize s r.t <
      (if inter then 128 * (((va L).toNat + n - 1) / 4) + 128 else (va L).toNat + n)) →
    (IsLowest mis L → exec i s = .next (trapCur s 0x04 (some mis) (some (va L)))) ∧
    (mis = 0 → IsLowest range L → exec i s = .next (trapCur s 0x06 (some range) (some (va L))))

/-- R131, R132, R134, R140: outside a bracket `atoml` and `casl`, aligned, inside the allotment and writing no waited-on word, complete at once, one lane after the other in increasing order, and give each active lane the old value at its address; a lane of `casl` whose comparison fails writes nothing. -/
def Obligations.LocalAtomics : Prop :=
  ∀ (s : State) (i : Instr) (g : Guard) (sb : Sb) (op : AOp) (w : AW) (m : MemB) (x : Src) (d : Dst) (r : Iss) (wh : Wheel)
    (new : Nat → Nat → Option Nat),
    (i = .atoml g sb op w m x d ∧
      new = fun L old => some (atomVal op (w == .w64) (BitVec.ofNat 64 old) (r.n w.regs x L)).toNat) ∨
    (i = .casl g sb w m x d ∧
      new = fun L old => if old = (r.n w.regs (.v (d.idx + BitVec.ofNat 8 w.regs)) L).toNat
        then some (r.n w.regs x L).toNat else none) →
    begin_ s i = .ok r → AcqDone s r → r.t.inTx = false → AMap.get? s.wheels r.t.wheel = some wh →
    LocalOk s r false w.bytes (addrOfB r w.bytes m) (fun L => L < 32 ∧ r.act.getLsbD L) →
    let res := rmwLanes w.bytes (fun L => (addrOfB r w.bytes m L).toNat) new (lanesOf r.act) wh.local_
    (∀ L old j, (L, old) ∈ res.2 → new L old ≠ none → j < w.bytes → NotWaited s r ((addrOfB r w.bytes m L).toNat + j)) →
    ∃ t, exec i s = .next ((s.upd (.wheel r.t.wheel (some { wh with local_ := res.1 }))).upd (.train r.id (some t))) ∧
      (∀ k L, L < 32 → (t.vreg k).at L =
        if d.nowb = false ∧ d.idx.toNat ≤ k ∧ k < d.idx.toNat + w.regs ∧ r.act.getLsbD L
        then BitVec.ofNat 32 ((AMap.getD res.2 L 0) / 2 ^ (32 * (k - d.idx.toNat))) else (r.left.vreg k).at L) ∧
      t.s = r.left.s ∧ t.p = r.t.p ∧ GoesOn r (· = none) t ∧ OnlyIssue r t

/-- R116, R123, R300: `ldw`, aligned, inside the dispatch's window and clear of the banks that are in their refresh window, completes at once with the bytes of the weight store from WS_BASE on; while a bank is busy it waits in place. The model's readings it rests on: log entry 32. -/
def Obligations.WeightLoads : Prop :=
  ∀ (s : State) (g : Guard) (sb : Sb) (w : MW) (m : Mem) (d : Dst) (r : Iss) (dp : Dispatch),
    begin_ s (.ldw g sb w m d) = .ok r → s.dispatchOf r.t = some dp →
    (∀ L, LoadLane r d L → (addrOf r w.bytes m L).toNat % w.bytes = 0 ∧
      (addrOf r w.bytes m L).toNat + w.bytes ≤ 65536 * dp.launch.wsLen) →
    ((∀ L, LoadLane r d L → weightStalled s (65536 * dp.launch.wsBase + (addrOf r w.bytes m L).toNat) w.bytes = false) →
      ∃ x, exec (.ldw g sb w m d) s = .next (s.upd (.train r.id (some x))) ∧
        Loaded r d w.regs (fun L k => loadedReg w
          (leVal (fun j => Bytes.get s.wmem (65536 * dp.launch.wsBase + (addrOf r w.bytes m L).toNat + j)) w.bytes) k) x ∧
        GoesOn r (· = none) x ∧ x.p = r.t.p ∧ OnlyIssue r x) ∧
    ((∃ L, LoadLane r d L ∧ weightStalled s (65536 * dp.launch.wsBase + (addrOf r w.bytes m L).toNat) w.bytes = true) →
      exec (.ldw g sb w m d) s = .next (waited s r))

/-! ## Class M: global memory -/

/-- R116, R118, R128: outside a bracket `ld` whose lanes pass the checks of R117 issues: the train gains one load with every lane's translated address, its destinations are interlocked and its scoreboard raised, and no register but those freed and no byte changes; a retention that conflicts with a page is counted (R119). -/
def Obligations.GlobalLoads : Prop :=
  ∀ (s : State) (g : Guard) (sb : Sb) (w : MW) (acq : Bool) (pol : Cpol) (m : Mem) (d : Dst) (r : Iss) (E : Nat → Tlb),
    begin_ s (.ld g sb w acq pol m d) = .ok r → AcqDone s r → r.t.Ok → r.t.inTx = false → r.act ≠ 0 → r.rest = 0 →
    (∀ L, (r.loadLanes d).getLsbD L → Passes s r w.bytes kRead (decide (w.bytes ≤ 8)) (addrOf r w.bytes m) E L) →
    let goods := goodsOf (addrOf r w.bytes m) E (r.loadLanes d)
    ∃ x, exec (.ld g sb w acq pol m d) s = .next
        (((counted s r (conflicts s pol goods)).upd (.nextId (partOf s r + 1))).upd (.train r.id (some x))) ∧
      Issued r (opOf s r) (r.op == 0) (dstRegs (d, w.regs)) [] x ∧ OnlyAccess r x ∧ x.fifo = r.t.fifo ∧
      x.loads = r.t.loads ++ [{
        id := partOf s r, op := opOf s r, n := w.bytes, regs := w.regs,
        ext := (match w with | .s8 | .s16 => .sign | _ => .zero), acc := goods.map (fun a => accOf s a 0 0),
        fresh := pol == .fresh, acq := acq, ldp := none, dst := d }]

/-- R120: `ldp` loads the lanes that hit, whose bits its predicate will lose, keeps the others for a later try, and never parks. -/
def Obligations.PredicatedLoads : Prop :=
  ∀ (s : State) (p : BitVec 3) (sb : Sb) (w : MW) (pol : Cpol) (m : Mem) (d : Dst) (r : Iss) (E : Nat → Tlb) (hit : Mask),
    begin_ s (.ldp p sb w pol m d) = .ok r → AcqDone s r → r.t.Ok → r.t.inTx = false → r.rest = 0 → hit ≠ 0 → hit &&& ~~~r.act = 0 →
    (∀ L, hit.getLsbD L → Passes s r w.bytes kRead false (addrOf r w.bytes m) E L) →
    (∀ L, r.act.getLsbD L → hit.getLsbD L = false → (addrOf r w.bytes m L).toNat % w.bytes = 0 ∧
      (addrOf r w.bytes m L).toNat < 2 ^ 55 ∧ s.laneX r.t L (addrOf r w.bytes m L).toNat kRead = .miss) →
    let goods := goodsOf (addrOf r w.bytes m) E hit
    ∃ t x, exec (.ldp p sb w pol m d) s = .next t ∧
      t = { s with trains := (s.upd (.train r.id (some x))).trains, nextId := t.nextId, walks := t.walks,
                   ctxs := (counted s r (conflicts s pol goods)).ctxs } ∧
      Issued r (opOf s r) (r.op == 0) (dstRegs (d, w.regs) ++ [.p p.toNat]) [] x ∧ OnlyAccess r x ∧ x.fifo = r.t.fifo ∧
      x.loads = r.t.loads ++ [{
        id := partOf s r, op := opOf s r, n := w.bytes, regs := w.regs,
        ext := (match w with | .s8 | .s16 => .sign | _ => .zero), acc := goods.map (fun a => accOf s a 0 0),
        fresh := pol == .fresh, acq := false, ldp := some (p, hit), dst := d }]

/-- R118, R119, R127, R128, R133, R333: outside a bracket `st`, `atom`, `red` and `cas` whose lanes pass the checks of R117 put one entry at the young end of the store FIFO, with every lane's address and data; with 32 entries there, or while an earlier `rywait`, or `ryres` of every busy lane, still waits for the query's reads (R333), the instruction waits in place; no register but those freed and no byte changes. The model's readings it rests on: log entries 19, 23 and 87. -/
def Obligations.GlobalStores : Prop :=
  ∀ (s : State) (i : Instr) (r : Iss) (a : Access) (e : Entry) (E : Nat → Tlb),
    begin_ s i = .ok r → AcqDone s r → r.t.Ok → r.t.inTx = false → r.act ≠ 0 → r.rest = 0 → accessTable r i = some a →
    entryTable s r i = some e →
    (∀ L, r.act.getLsbD L → Passes s r a.n a.kind a.dev a.va E L) →
    let goods := goodsOf a.va E r.act
    if 32 ≤ r.t.fifo.length ∨ r.t.queryFirst s.nextId = true then exec i s = .next (waited s r)
    else ∃ x, exec i s = .next (((counted s r (e.conf goods)).upd (.nextId (partOf s r + 1))).upd (.train r.id (some x))) ∧
      Issued r (opOf s r) (r.op == 0) e.dests [] x ∧ OnlyAccess r x ∧ x.loads = r.t.loads ∧
      x.fifo = r.t.fifo ++ [{
        id := partOf s r, op := opOf s r, train := r.id, kind := e.kind, n := a.n,
        acc := goods.map (fun b => accOf s b (e.data b.lane) (e.exp b.lane))
        fresh := e.fresh, rel := e.rel, acq := e.acq, after := [], dst := e.dst }]

/-- R117: a global access outside a bracket raises E_MISALIGN in its misaligned lanes; else E_PERM in the lanes at or past 2^55; else, all lanes being translated, the cause of its lowest lane that has one (R151, R153, R364, R374), in the lanes with that cause; the value is the address of the lowest lane named, and nothing is performed. -/
def Obligations.GlobalAccessTraps : Prop :=
  ∀ (s : State) (i : Instr) (r : Iss) (a : Access) (mis range : Mask),
    begin_ s i = .ok r → AcqDone s r → r.t.inTx = false → accessTable r i = some a →
    IsMask mis (fun L => a.lanes.getLsbD L ∧ (a.va L).toNat % a.n ≠ 0) →
    IsMask range (fun L => a.lanes.getLsbD L ∧ 2 ^ 55 ≤ (a.va L).toNat) →
    (∀ L, IsLowest mis L → exec i s = .next (trapCur s 0x04 (some mis) (some (a.va L)))) ∧
    (mis = 0 → ∀ L, IsLowest range L → exec i s = .next (trapCur s 0x06 (some range) (some (a.va L)))) ∧
    (mis = 0 → range = 0 → ∀ (E : Nat → Tlb) (bad same : Mask) (L : Nat) (c : Byte),
      (∀ K, a.lanes.getLsbD K → s.laneX r.t K (a.va K).toNat a.kind = .ok (E K)) →
      IsMask bad (fun K => a.lanes.getLsbD K ∧ accessCause s (s.privDispatch r.t) a.dev (E K) (a.va K).toNat ≠ none) →
      IsMask same (fun K => a.lanes.getLsbD K ∧ accessCause s (s.privDispatch r.t) a.dev (E K) (a.va K).toNat = some c) →
      IsLowest bad L → same.getLsbD L → exec i s = .next (trapCur s c (some same) (some (a.va L))))

/-- R157, R168: an access other than `ldp` outside a bracket whose lanes all meet faults that their walks have reported parks the train at its instruction with those lanes and the ones that waited already; no register is freed or written and no byte changes. With no lane active, and none waiting, it completes with no access. The model's readings it rests on: log entry 21. -/
def Obligations.GlobalParks : Prop :=
  ∀ (s : State) (i : Instr) (r : Iss) (a : Access), begin_ s i = .ok r → AcqDone s r → r.t.Ok → r.t.inTx = false →
    accessTable r i = some a → (∀ p sb w pol m d, i ≠ .ldp p sb w pol m d) →
    (a.lanes ≠ 0 → (∀ L, a.lanes.getLsbD L → (a.va L).toNat % a.n = 0 ∧ (a.va L).toNat < 2 ^ 55 ∧
        ∃ f ∈ r.t.xl, f.page = (a.va L).toNat / 65536 * 65536) →
      ∃ x, exec i s = .next ((s.upd (.nextId (partOf s r + 1))).upd (.train r.id (some x))) ∧
        x.park = some { lanes := a.lanes ||| r.rest, resume := 0, faulted := true, atHeader := false, op := opOf s r,
                        pages := (match r.t.park with | some p => p.pages | none => []) ++ r.t.xl.map (·.page)
                        did := r.did, conf := r.conf } ∧
        x.s = r.t.s ∧ x.v = r.t.v ∧ x.p = r.t.p ∧ x.em = r.t.em ∧ x.clause = r.t.clause ∧ x.pc = r.t.pc ∧
        x.loads = r.t.loads ∧ x.fifo = r.t.fifo ∧ OnlyAccess r x) ∧
    (r.act = 0 → r.rest = 0 → ∃ t x, exec i s = .next t ∧ t = { s with trains := t.trains, nextId := partOf s r + 1 } ∧
      OnlyTrain s t r.id ∧ AMap.get? t.trains r.id = some x ∧ x.s = r.left.s ∧ x.v = r.left.v ∧ x.p = r.t.p ∧ x.loads = r.t.loads ∧
      x.fifo = r.t.fifo)

/-- R118, R120, R126, R128: LOAD_VALUE_RETURN of a one-lane load that nothing older holds: its destination takes the bytes the older FIFO entries hold, or those of the serving point, or of the L1 copy while its lease runs, under the core's own stores; `ldp` clears its predicate; its instruction completes when no part is left; memory, and every other train, is as before. The model's readings it rests on: log entry 5. -/
def Obligations.LoadReturns : Prop :=
  ∀ (s : State) (id k : Nat) (x : Train) (l : Load) (a : LaneAcc),
    AMap.get? s.trains id = some x → x.Ok → x.loads.find? (fun o => o.id == k) = some l → l.acc = [a] →
    s.region a.pa ≠ .mmio → loadHeld id x (s.core (s.coreOf x)) l = false →
    let c := s.core (s.coreOf x)
    let served := l.atHome a = true ∨ s.ownerOf a.pa = some (s.coreOf x) ∨
      ∀ y, AMap.get? c.l1 (a.pa / 1024) = some y → y.rts < c.clock
    ∃ t y v, exec (.loadValueReturn id k) s = .next t ∧
      t = { s with trains := t.trains, cores := t.cores, lines := t.lines, owners := t.owners, l3 := t.l3, chime := t.chime } ∧
      OnlyTrain s t id ∧ AMap.get? t.trains id = some y ∧
      (match fifoRead (x.fifo.filter fun w => w.id < l.id) a.pa l.n with
        | .fwd u => v = u
        | _ => (l.atHome a = true → v = Bytes.read s.mem a.pa l.n) ∧
          (l.atHome a = false → served → v = coreOverlay c a.pa l.n (Bytes.read s.mem a.pa l.n)) ∧
          (¬served → ∀ z, AMap.get? c.l1 (a.pa / 1024) = some z →
            v = coreOverlay c a.pa l.n (Bytes.read z.bytes (a.pa % 1024) l.n)) ∧
          (l.acq = true → served → (s.line a.pa).wts ≤ (t.core (s.coreOf x)).clock)) ∧
      (∀ n L, L < 32 → (y.vreg n).at L =
        if l.dst.nowb = false ∧ l.dst.scalar = false ∧ l.dst.idx.toNat ≤ n ∧ n < l.dst.idx.toNat + l.regs ∧ L = a.lane
        then regPart (extLoad l.ext l.n v) (n - l.dst.idx.toNat) else (x.vreg n).at L) ∧
      (∀ n, y.sreg n = if l.dst.nowb = false ∧ l.dst.scalar = true ∧ l.dst.idx.toNat ≤ n ∧ n < l.dst.idx.toNat + l.regs
        then regPart (extLoad l.ext l.n v) (n - l.dst.idx.toNat) else x.sreg n) ∧
      (∀ n, n < 8 → y.pred n = match l.ldp with
        | some (p, m) => if n = p.toNat ∧ n ≠ 7 then x.pred n &&& ~~~m else x.pred n
        | none => x.pred n) ∧
      y.loads = x.loads.filter (fun o => o.id != l.id) ∧ y.fifo = x.fifo ∧ y.em = x.em ∧ y.pc = x.pc ∧ y.clause = x.clause ∧
      ((∀ o ∈ x.loads, o.op = l.op → o.id = l.id) → (∀ w ∈ x.fifo, w.op ≠ l.op) → (∀ w ∈ c.writes, w.op ≠ l.op) →
        x.park = none → ∀ f, x.inflight.find? (fun f => f.id == l.op) = some f →
        y.inflight = x.inflight.filter (fun f => f.id != l.op) ∧
        ∀ i : BitVec 3, y.sbCount i = x.sbCount i - (if f.sb = some i then 1 else 0))

/-- R118, R124, R127, R131, R132, R133, R142: STORE_FIFO_ENTRY_LEAVE takes the oldest entry that no earlier load holds back out of the FIFO into the core's writes, a release with the train's writes under way as those it counts; an entry that is held, or whose bytes another train's token holder on the core has locked (log entry 11), stays. RELEASE_MARKER_COUNTED frees a release once none of the writes it counts is left. WRITE_PERFORMED of a ready one-lane write outside MMIO changes exactly its bytes, to the stored data, to the value of the atomic's operation on the old bytes, or for `cas` to the data when the old bytes are those expected; the line's write time rises past every write time and lease given for it, and a watch on the sector with a smaller write time is hit, but for a `cas` whose comparison fails, which writes nothing; the destination takes the old value. The model's readings it rests on: log entries 5, 11 and 63. -/
def Obligations.StoresPerformed : Prop :=
  ((∀ (s : State) (id : Nat) (x : Train) (w : Write) (rest : List Write),
     AMap.get? s.trains id = some x → x.fifo = w :: rest →
     (leaveHeld x w = true ∨ coreLocked s id w = true → exec (.storeFifoEntryLeave id) s = .next s) ∧
     (leaveHeld x w = false → coreLocked s id w = false →
       w.kind ≠ .store ∨ (∃ a ∈ w.acc, a.attr ≠ .cached ∨ s.ownerOf a.pa ≠ some (s.coreOf x)) →
       exec (.storeFifoEntryLeave id) s = .next ((s.upd (.train id (some { x with fifo := rest }))).upd
         (.core (s.coreOf x) { s.core (s.coreOf x) with
           writes := (s.core (s.coreOf x)).writes ++ [{ w with
             after := if w.rel then ((s.core (s.coreOf x)).writes.filter fun o => o.train == id).map (·.id) else [] }] })))) ∧
   ∀ (s : State) (k id : Nat),
     ((∀ w ∈ (s.core k).writes, w.id = id → ∀ o ∈ (s.core k).writes, o.id ∉ w.after) →
       exec (.releaseMarkerCounted k id) s = .next (s.upd (.core k { s.core k with
         writes := (s.core k).writes.map fun w => if w.id = id then { w with after := [] } else w }))) ∧
     ((∀ w ∈ (s.core k).writes, w.id = id → ∃ o ∈ (s.core k).writes, o.id ∈ w.after) →
       exec (.releaseMarkerCounted k id) s = .next (s.upd (.core k (s.core k))))) ∧
  (∀ (s : State) (k id : Nat) (w : Write) (a : LaneAcc),
     (s.core k).writes.find? (fun o => o.id == id) = some w → writeReady s (olderWrites (s.core k) id) w = true →
     w.acc = [a] → s.region a.pa ≠ .mmio → (w.kind = .store ∨ w.n = 4 ∨ w.n = 8) → KeysRise s.trains →
     (∀ j x, AMap.get? s.trains j = some x → x.Ok) →
     let old := Bytes.read s.mem a.pa w.n
     let new : Nat := match w.kind with
       | .store => a.data.toNat
       | .atom op => (atomVal op (w.n == 8) (BitVec.ofNat 64 old) (a.data.setWidth 64)).toNat
       | .cas => if old = a.exp.toNat then a.data.toNat else old
     ∃ t, exec (.writePerformed k id) s = .next t ∧
       (∀ b, Bytes.get t.mem b = if a.pa ≤ b ∧ b < a.pa + w.n then BitVec.ofNat 8 (new / 256 ^ (b - a.pa)) else Bytes.get s.mem b) ∧
       let writes : Prop := w.kind = .cas → old = a.exp.toNat
       (writes → (s.line a.pa).wts < (t.line a.pa).wts ∧ (s.line a.pa).rts < (t.line a.pa).wts) ∧
       (¬writes → t.lines = s.lines) ∧
       (t.core k).writes = (s.core k).writes.filter (fun o => o.id != w.id) ∧
       (∀ x, AMap.get? s.trains w.train = some x → ∃ y, AMap.get? t.trains w.train = some y ∧ y.p = x.p ∧ y.pc = x.pc ∧
         y.em = x.em ∧ y.loads = x.loads ∧ y.fifo = x.fifo ∧
         (∀ n L, L < 32 → (y.vreg n).at L = match w.dst with
           | some d => if d.nowb = false ∧ d.scalar = false ∧ d.idx.toNat ≤ n ∧ n < d.idx.toNat + w.n / 4 ∧ L = a.lane
             then regPart (BitVec.ofNat 128 old) (n - d.idx.toNat) else (x.vreg n).at L
           | none => (x.vreg n).at L)) ∧
       ∀ j x, AMap.get? s.trains j = some x → ∃ y, AMap.get? t.trains j = some y ∧
         (j ≠ w.train → y = { x with watch := y.watch }) ∧ (¬writes → y.watch = x.watch) ∧
         ∀ o, writes → x.watch = some o → o.sector = a.pa / 128 → o.wts < (t.line a.pa).wts → y.watch = some { o with hit := true })

/-! ## Fences, barriers, monitors, caches -/

/-- R116, R118, R136: `fence` waits in place until every access of the train is performed, then sets the core's clock past every lease its L1 holds; `drain` waits until the store FIFO is empty; neither writes a register or a byte. The model's readings it rests on: log entries 18 and 19. -/
def Obligations.Fences : Prop :=
  ∀ (s : State) (g : Guard) (sb : Sb) (r : Iss),
    let c := s.core (s.coreOf r.t)
    let quiet_ := r.t.fifo = [] ∧ r.t.loads = [] ∧ ∀ w ∈ c.writes, w.train ≠ r.id
    (begin_ s (.fence g sb) = .ok r → r.t.inTx = false →
      (Holds r → quiet_ → ∃ n x, exec (.fence g sb) s = .next
          ((s.upd (.core (s.coreOf r.t) { c with clock := n })).upd (.train r.id (some x))) ∧ Finished r x ∧
        c.clock ≤ n ∧ ∀ l ∈ c.l1, l.2.rts < n) ∧
      (Holds r → ¬quiet_ → exec (.fence g sb) s = .next (waited s r)) ∧
      (¬Holds r → ∃ x, exec (.fence g sb) s = .next (s.upd (.train r.id (some x))) ∧ Finished r x)) ∧
    (begin_ s (.drain g sb) = .ok r →
      if Holds r ∧ r.t.fifo ≠ [] then exec (.drain g sb) s = .next (waited s r)
      else ∃ x, exec (.drain g sb) s = .next (s.upd (.train r.id (some x))) ∧ Finished r x)

/-- R71, R137 to R141: the arrival of `barw`, `bara` and `barm` at a valid word whose members it agrees with sets its bit, and `barw` and `barm` then wait; the last arrival flips the phase, clears the word's round, ends every wait on it and restarts the clause counts of the wheel and, where a wait ended, the Regulator's count; a woken train goes on, one that still waits stays. The model's readings it rests on: log entry 18. -/
def Obligations.BarrierArrivals : Prop :=
  ∀ (s : State) (i : Instr) (g : Guard) (sb : Sb) (m : MemB) (k : Src) (stay : Bool) (mk : Option Nat) (r : Iss) (wh : Wheel)
    (members : Nat),
    (i = .barw g sb m ∧ stay = true ∧ mk = none) ∨ (i = .bara g sb m ∧ stay = false ∧ mk = none) ∨
      (i = .barm g sb m k ∧ stay = true ∧ mk = some (r.x0 k).toNat) →
    begin_ s i = .ok r → AcqDone s r →
    (∀ w, r.t.wait = some w → w.woken = true → ∃ x, exec i s = .next (s.upd (.train r.id (some x))) ∧ Finished r x) ∧
    (∀ w, r.t.wait = some w → w.woken = false → exec i s = .next (waited s r)) ∧
    (r.t.wait = none → r.t.inTx = false → Holds r → AMap.get? s.wheels r.t.wheel = some wh → ArrivalMay s r →
      let a := (addrOfB r 8 m 0).toNat
      let w := barAt wh.local_ a
      a % 8 = 0 → a + 8 ≤ localSize s r.t → w.valid = true → w.rsvd = 0 → MaskOk s r w.expect → MaskOk s r members →
      (mk = none ∧ w.masked = false ∧ members = w.expect) ∨
        (mk = some members ∧ ((w.masked = true ∧ w.members = members) ∨ (w.masked = false ∧ w.arrived = 0))) →
      members.testBit r.t.index = true → w.arrived.testBit r.t.index = false →
      (w.arrived + 2 ^ r.t.index ≠ members →
        ∃ x, exec i s = .next ((s.upd (.wheel r.t.wheel (some (withBar wh a
            { w with arrived := w.arrived + 2 ^ r.t.index, masked := mk.isSome,
                     members := if mk.isSome then members else w.members })))).upd (.train r.id (some x))) ∧
          if stay then x = { r.t with wait := some ⟨.barrier a, false, 0⟩ } else Finished r x) ∧
      (w.arrived + 2 ^ r.t.index = members → KeysRise s.trains → (∀ j y, AMap.get? s.trains j = some y → y.Ok) →
        let c := s.ctxOf r.t
        ∃ t x, exec i s = .next t ∧ t = { s with wheels := t.wheels, trains := t.trains, ctxs := t.ctxs } ∧
          (t.ctxs = s.ctxs ∨ t.ctxs = (s.upd (.ctx c { s.ctx c with regulator := 0 })).ctxs) ∧
          (c < 16 → (∃ j y v, AMap.get? s.trains j = some y ∧ y.wheel = r.t.wheel ∧ y.wait = some v ∧ v.woken = false ∧
            v.on = .barrier a) → (t.ctx c).regulator = 0) ∧
          t.wheels = AMap.set s.wheels r.t.wheel (withBar wh a
            { w with phase := (w.phase + 1) % 16, arrived := 0, members := 0, masked := false }) ∧
          AMap.get? t.trains r.id = some x.norm ∧ Finished { r with t := { r.t with retired := 0 } } x ∧
          ∀ j y, j ≠ r.id → AMap.get? s.trains j = some y → AMap.get? t.trains j = some
            (if y.wheel = r.t.wheel then { y with
              retired := 0
              wait := match y.wait with
                | some v => some (if v.on = .barrier a then { v with woken := true } else v)
                | none => none } else y)))

/-- R3, R117, R138, R139, R140: a barrier instruction raises E_MISALIGN or E_PERM for its word's address in the lanes of em, and E_ILL_OPERAND for a word that is not valid, has a reserved bit or an illegal EXPECT, and for an illegal mask; `barinit` with a legal mask writes a fresh word where no train waits, its reserved bits as they were (R3), and raises E_BAR_CLOBBER where one does. The model's readings it rests on: log entries 17 and 18. -/
def Obligations.BarrierWords : Prop :=
  ∀ (s : State) (i : Instr) (g : Guard) (sb : Sb) (m : MemB) (k : Src) (r : Iss) (wh : Wheel),
    begin_ s i = .ok r → AcqDone s r → r.t.wait = none → r.t.inTx = false → Holds r →
    AMap.get? s.wheels r.t.wheel = some wh →
    let a := addrOfB r 8 m 0
    (i = .barinit g sb m k ∨ ((i = .barw g sb m ∨ i = .bara g sb m ∨ i = .barm g sb m k))) →
    (a.toNat % 8 ≠ 0 → exec i s = .next (trapCur s 0x04 (some r.t.em) (some a))) ∧
    (a.toNat % 8 = 0 → localSize s r.t < a.toNat + 8 → exec i s = .next (trapCur s 0x06 (some r.t.em) (some a))) ∧
    (a.toNat % 8 = 0 → a.toNat + 8 ≤ localSize s r.t →
      (i ≠ .barinit g sb m k → ArrivalMay s r →
        (barAt wh.local_ a.toNat).valid = false ∨ (barAt wh.local_ a.toNat).rsvd ≠ 0 ∨
          ¬MaskOk s r (barAt wh.local_ a.toNat).expect ∨ (i = .barm g sb m k ∧ ¬MaskOk s r (r.x0 k).toNat) →
        exec i s = .next (trapCur s 0x03 none none)) ∧
      (i = .barinit g sb m k →
        (¬MaskOk s r (r.x0 k).toNat → exec i s = .next (trapCur s 0x03 none none)) ∧
        (MaskOk s r (r.x0 k).toNat →
          ((∀ j, j < 8 → NotWaited s r (a.toNat + j)) → ∃ x, exec i s = .next ((s.upd (.wheel r.t.wheel (some
              (withBar wh a.toNat { barAt wh.local_ a.toNat with
                valid := true, masked := false, phase := 0, members := 0, arrived := 0, expect := (r.x0 k).toNat })))).upd (.train r.id (some x))) ∧ Finished r x) ∧
          ((∃ j, j < 8 ∧ ¬NotWaited s r (a.toNat + j)) → ∃ v, exec i s = .next (trapCur s 0x08 (some r.t.em) (some v))))))

/-- R71, R142, R358: `mon` reads the bytes at its address where no older access of the core to them is unperformed, and arms the watch on their sector; `mwait` returns at once, clearing the watch, when there is none or it was hit or lost, and else waits; MONITOR_WAKE ends the wait once it is hit or lost, and that of a `gwait` once its token has come up to the value; WATCH_LOST ends it; an end of a wait restarts the Regulator's count of the context. The model's readings it rests on: log entry 18. -/
def Obligations.Monitors : Prop :=
  (∀ (s : State) (g : Guard) (sb : Sb) (w : AW) (acq : Bool) (m : MemB) (d : Dst) (r : Iss) (E : Nat → Tlb) (L : Nat),
    begin_ s (.mon g sb w acq m d) = .ok r → AcqDone s r → r.t.Ok → r.t.inTx = false → Holds r → IsLowest r.one L →
    Passes s r w.bytes kRead false (addrOfB r w.bytes m) E L →
    let pa := (E L).paOf (addrOfB r w.bytes m L).toNat
    (∀ x ∈ r.t.fifo ++ (s.core (s.coreOf r.t)).writes, ∀ j, j < w.bytes → x.touches (pa + j) = false) →
    (∀ l ∈ r.t.loads, ∀ b ∈ l.acc, ¬(b.pa < pa + w.bytes ∧ pa < b.pa + l.n)) →
    ∃ t x, exec (.mon g sb w acq m d) s = .next t ∧
      t = { s with trains := t.trains, cores := t.cores, owners := t.owners, l3 := t.l3, chime := t.chime } ∧ OnlyTrain s t r.id ∧
      AMap.get? t.trains r.id = some x ∧ x.v = r.left.v ∧ x.p = r.t.p ∧ x.park = none ∧
      ScalarIs r d w.regs (fun j => (BitVec.ofNat 64 (Bytes.read s.mem pa w.bytes)).extractLsb' (32 * j) 32) x ∧
      x.watch = some { sector := pa / 128, wts := (s.line pa).wts, va := addrOfB r w.bytes m L, lost := false, hit := false } ∧
      (acq = true → (s.line pa).wts ≤ (t.core (s.coreOf r.t)).clock)) ∧
  (∀ (s : State) (g : Guard) (sb : Sb) (r : Iss), begin_ s (.mwait g sb) = .ok r → AcqDone s r → r.t.inTx = false →
    (¬Holds r ∨ r.t.watch = none → ∃ x, exec (.mwait g sb) s = .next (s.upd (.train r.id (some x))) ∧ Finished r x) ∧
    ∀ w, Holds r → r.t.watch = some w →
      (w.hit = true ∨ w.lost = true → ∃ x, exec (.mwait g sb) s = .next (s.upd (.train r.id (some x))) ∧ x.watch = none ∧
        Finished r { x with watch := r.t.watch }) ∧
      (w.hit = false → w.lost = false → r.t.wait = none →
        exec (.mwait g sb) s = .next (s.upd (.train r.id (some { r.t with wait := some ⟨.monitor, false, 0⟩ })))) ∧
      (w.hit = false → w.lost = false → r.t.wait ≠ none → exec (.mwait g sb) s = .next (waited s r))) ∧
  ∀ (s : State) (id : Nat) (x : Train), AMap.get? s.trains id = some x → KeysRise s.trains →
    let woken (w : Wait) (watch : Option Watch) : State :=
      restarted (s.upd (.train id (some { x with watch := watch, wait := some { w with woken := true } }))) (s.ctxOf x)
    (∀ w o, x.wait = some w → w.on = .monitor → x.watch = some o →
      (w.woken = false → o.hit = true ∨ o.lost = true → exec (.monitorWake id) s = .next (woken w x.watch)) ∧
      (w.woken = true ∨ (o.hit = false ∧ o.lost = false) → exec (.monitorWake id) s = .next s)) ∧
    (∀ w va pa v, x.wait = some w → w.on = .token va pa v →
      let reached := v.toNat ≤ leVal (fun j => Bytes.get s.mem (pa + j)) 8
      (w.woken = false → reached → exec (.monitorWake id) s = .next (woken w x.watch)) ∧
      (w.woken = true ∨ ¬reached → exec (.monitorWake id) s = .next s)) ∧
    ∀ o, x.watch = some o →
      (∀ w, x.wait = some w → w.on = .monitor → w.woken = false →
        exec (.watchLost id) s = .next (woken w (some { o with lost := true }))) ∧
      ((∀ w, x.wait = some w → w.on ≠ .monitor ∨ w.woken = true) →
        exec (.watchLost id) s = .next (s.upd (.train id (some { x with watch := some { o with lost := true } }))))

/-- R143, R144, R145: `prf` completes whatever its lanes hold, and fills the core's L1 with the line of a lane on a CACHED page that it cannot serve; `own` makes the core the owner of each CACHED sector and counts a conflict for the others; `unown` and `cinv` end the core's ownership, `cinv` drops the L1 copy too, `cwb` leaves both; OWNERSHIP_RECALL ends the ownership of its sector; none of them changes a byte of memory or a register but those freed. That `prf` never counts in ZS_CPOLCONF, on a page of another attribute too, is the model's reading of R119 and R143 (log entry 66). The model's other readings it rests on: log entries 5 and 12. -/
def Obligations.CacheControl : Prop :=
  (∀ (s : State) (g : Guard) (sb : Sb) (w : MW) (pol : Cpol) (m : Mem) (r : Iss),
    begin_ s (.prf g sb w pol m) = .ok r → AcqDone s r →
    ∃ t x, exec (.prf g sb w pol m) s = .next t ∧ Finished r { x with lastPage := r.t.lastPage } ∧
      t = { s with trains := (s.upd (.train r.id (some x))).trains, cores := t.cores, lines := t.lines, owners := t.owners,
                   l3 := t.l3, chime := t.chime } ∧
      ∀ L e, (∀ K, r.act.getLsbD K = true ↔ K = L) → pol ≠ .fresh → (addrOf r w.bytes m L).toNat < 2 ^ 55 →
        let pa := e.paOf (addrOf r w.bytes m L).toNat
        s.laneX r.t L (addrOf r w.bytes m L).toNat kRead = .ok e → s.attrOf e pa = .cached →
        s.ownerOf pa ≠ some (s.coreOf r.t) →
        (∀ l, AMap.get? (s.core (s.coreOf r.t)).l1 (pa / 1024) = some l → l.rts < (s.core (s.coreOf r.t)).clock) →
        accessCause s (s.privDispatch r.t) false e (addrOf r w.bytes m L).toNat = none →
        ∃ l, AMap.get? (t.core (s.coreOf r.t)).l1 (pa / 1024) = some l ∧ l.bytes = lineBytes s.mem (pa / 1024)) ∧
  (∀ (s : State) (g : Guard) (sb : Sb) (w : MW) (m : Mem) (r : Iss) (E : Nat → Tlb),
    begin_ s (.own g sb w m) = .ok r → AcqDone s r → r.t.Ok → r.t.inTx = false → r.rest = 0 →
    (∀ L, r.act.getLsbD L → Passes s r 1 kRw true (addrOf r w.bytes m) E L) →
    ∃ t x, exec (.own g sb w m) s = .next t ∧ AMap.get? t.trains r.id = some x ∧ OnlyTrain s t r.id ∧
      x.s = r.left.s ∧ x.v = r.left.v ∧ x.p = r.t.p ∧ x.fifo = r.t.fifo ∧ x.loads = r.t.loads ∧
      t = { s with trains := t.trains, nextId := t.nextId, cores := t.cores, owners := t.owners,
                   ctxs := (counted s r ((goodsOf (addrOf r w.bytes m) E r.act).any fun a =>
                     s.attrOf a.e a.pa != .cached || a.e.place == 2)).ctxs } ∧
      ((s.core (s.coreOf r.t)).owned.length ≤ 992 → ∀ L, r.act.getLsbD L →
        s.attrOf (E L) ((E L).paOf (addrOf r w.bytes m L).toNat) = .cached → (E L).place ≠ 2 →
        t.ownerOf ((E L).paOf (addrOf r w.bytes m L).toNat) = some (s.coreOf r.t))) ∧
  (∀ (s : State) (i : Instr) (g : Guard) (sb : Sb) (w : MW) (m : Mem) (r : Iss) (E : Nat → Tlb),
    i = .unown g sb w m ∨ i = .cwb g sb w m ∨ i = .cinv g sb w m →
    begin_ s i = .ok r → AcqDone s r → r.t.inTx = false → Cached s r (addrOf r w.bytes m) E →
    ∃ t x, exec i s = .next t ∧ Finished r { x with lastPage := r.t.lastPage } ∧
      t = { s with trains := (s.upd (.train r.id (some x))).trains, cores := t.cores, owners := t.owners } ∧
      (i = .cwb g sb w m → t.cores = s.cores ∧ t.owners = s.owners) ∧
      (i ≠ .cwb g sb w m → ∀ L, r.act.getLsbD L →
        t.ownerOf ((E L).paOf (addrOf r w.bytes m L).toNat) ≠ some (s.coreOf r.t)) ∧
      (i = .cinv g sb w m → ∀ L, r.act.getLsbD L →
        AMap.get? (t.core (s.coreOf r.t)).l1 ((E L).paOf (addrOf r w.bytes m L).toNat / 1024) = none)) ∧
  ∀ (s : State) (k : Nat), ∃ t, exec (.ownershipRecall k) s = .next t ∧ t = { s with cores := t.cores, owners := t.owners } ∧
    AMap.get? t.owners k = none ∧ (∀ j, j ≠ k → AMap.get? t.owners j = AMap.get? s.owners j) ∧
    ∀ o, AMap.get? s.owners k = some o → k ∉ (t.core o.core).owned ∧ (t.core o.core).l1 = (s.core o.core).l1

/-! ## Class T -/

/-- R228, R232, R233, R238: outside a bracket `txbeg` opens one over em with empty sets; `txbeg.fb` joins the token queue of its context and stays at its word; inside a bracket every open lane aborts with NEST and the instruction does nothing else. The model's readings it rests on: log entry 11. -/
def Obligations.Brackets : Prop :=
  ∀ (s : State) (sb : Sb) (fb : Bool) (r : Iss), begin_ s (.txbeg sb fb) = .ok r →
    (r.t.tx.on = false → fb = false → ∃ x, exec (.txbeg sb fb) s = .next (s.upd (.train r.id (some x))) ∧
      Opened r.t.em false x.tx ∧ Finished r { x with tx := r.t.tx }) ∧
    (r.t.tx.on = false → fb = true → r.t.tokenWait = false → exec (.txbeg sb fb) s = .next
      ((s.upd (.ctx (s.ctxOf r.t) { s.ctx (s.ctxOf r.t) with
        tokenQueue := (s.ctx (s.ctxOf r.t)).tokenQueue ++ [r.id] })).upd (.train r.id (some { r.t with tokenWait := true })))) ∧
    (r.t.tx.on = false → fb = true → r.t.tokenWait = true → exec (.txbeg sb fb) s = .next (waited s r)) ∧
    (r.t.tx.on = true → r.t.Ok → ∃ l x, exec (.txbeg sb fb) s = .next ((s.upd (.locks l)).upd (.train r.id (some x))) ∧
      Aborted r.t 0xFFFFFFFF 7 x ∧ x.s = r.left.s ∧ x.v = r.left.v ∧ x.p = r.t.p ∧ GoesOn r (· = none) x)

/-- R224, R230, R232, R235, R236, R333: outside a bracket `txabt` and `txend` raise E_TX_MISUSE; inside, `txabt` aborts its active lanes with EXPLICIT; `txend` waits until the train's accesses are performed and no earlier instruction waits for its query's reads (R333), then stands at its next word with its commit steps to come and the next clause held, or, with no open lane, closes the bracket at once; `txst` and `txcause` read the transaction state. The model's readings it rests on: log entries 19 and 87. -/
def Obligations.BracketEnds : Prop :=
  (∀ (s : State) (g : Guard) (sb : Sb) (r : Iss), begin_ s (.txabt g sb) = .ok r →
    (r.t.tx.on = false → exec (.txabt g sb) s = .next (trapCur s 0x0B none none)) ∧
    (r.t.tx.on = true → r.t.Ok → ∃ l x, exec (.txabt g sb) s = .next ((s.upd (.locks l)).upd (.train r.id (some x))) ∧
      Aborted r.t r.act 6 x ∧ x.s = r.left.s ∧ x.v = r.left.v ∧ x.p = r.t.p ∧ GoesOn r (· = none) x)) ∧
  (∀ (s : State) (sb : Sb) (d : PDst) (r : Iss), begin_ s (.txend sb d) = .ok r →
    (r.t.tx.on = false → exec (.txend sb d) s = .next (trapCur s 0x0B none none)) ∧
    let may := quiet r.t (s.core (s.coreOf r.t)) r.id = true ∧ r.t.queryFirst s.nextId = false
    (r.t.tx.on = true → ¬may → exec (.txend sb d) s = .next (waited s r)) ∧
    (r.t.tx.on = true → may → r.t.tx.opened ≠ 0 →
      ∃ x, exec (.txend sb d) s = .next ((s.upd (.nextId (s.nextId + 1))).upd (.train r.id (some x))) ∧
        Issued r s.nextId true (if d.nowb || d.p == 7 then [] else [.p d.p.toNat]) [] x ∧ x.gate = some s.nextId ∧
        x.tx = { r.t.tx with ending := some (r.t.tx.opened, 0) }) ∧
    (r.t.tx.on = true → may → r.t.tx.opened = 0 →
      (∀ f ∈ r.t.inflight, f.id ≠ s.nextId) →
      ∃ t x, exec (.txend sb d) s = .next t ∧ t.mem = s.mem ∧ OnlyTrain s t r.id ∧ AMap.get? t.trains r.id = some x ∧
        x.tx.on = false ∧ x.tx.ending = none ∧ x.em = r.t.tx.em &&& r.t.live ∧ x.s = r.left.s ∧ x.v = r.left.v ∧
        (d.nowb = false → d.p ≠ 7 → x.pred d.p.toNat =
          (r.t.pred d.p.toNat &&& ~~~r.t.tx.em) ||| (r.t.tx.aborted &&& r.t.tx.em)))) ∧
  (∀ (s : State) (sb : Sb) (tok : Bool) (d : Dst) (r : Iss), begin_ s (.txst sb tok d) = .ok r →
    ∃ x, exec (.txst sb tok d) s = .next (s.upd (.train r.id (some x))) ∧ GoesOn r (· = none) x ∧ OnlyIssue r x ∧
      x.v = r.left.v ∧ ScalarIs r d 1 (fun _ => if tok then (if r.t.tx.on then 1 else 0) + (if r.t.tx.fb then 2 else 0)
        else if r.t.tx.on then r.t.tx.opened else 0) x) ∧
  ∀ (s : State) (g : Guard) (sb : Sb) (d : Dst) (r : Iss), begin_ s (.txcause g sb d) = .ok r →
    ∃ x, exec (.txcause g sb d) s = .next (s.upd (.train r.id (some x))) ∧ GoesOn r (· = none) x ∧ OnlyIssue r x ∧
      x.s = r.left.s ∧ ∀ k L, L < 32 → (x.vreg k).at L =
        if d.nowb = false ∧ k = d.idx.toNat ∧ r.act.getLsbD L then (r.t.tx.cause.at L).setWidth 32 else (r.left.vreg k).at L

/-- R229, R238: SERIAL_TOKEN_GRANT gives a free token to the head of its context's queue, whose bracket opens and whose word completes; TOKEN_HOLD_LIMIT leaves a holder of fewer than 2^20 cycles alone, and takes the token of another, whose open lanes abort with LOCKED while TXON stays. A COMMIT_STEP of the lowest open lane writes the lane's masked bytes at once when every granule it read still holds the value it read and no other lane has locked one, and closes the lane unaborted; where a value has changed the lane aborts with CONFLICT and no byte changes; where a lock stands, with LOCKED; while a write of its own core to one of its granules is still to be performed the step waits (log entry 11); after the last open lane the bracket is closed and em is what it was at its opening, within LIVE (R230, R234). The model's readings it rests on: log entries 11 and 63. -/
def Obligations.Commits : Prop :=
  (∀ (s : State) (c id : Nat) (x : Train), c < 16 → AMap.get? s.trains id = some x →
     (∀ rest cl, (s.ctx c).token = none → (s.ctx c).tokenQueue = id :: rest → x.clause = some cl →
       ∃ y, exec (.serialTokenGrant c) s = .next (((s.upd (.nextId (s.nextId + 1))).upd (.ctx c { s.ctx c with
           tokenQueue := rest, token := some (id, 0), tokenGrant := s.nextId })).upd (.train id (some y))) ∧
         Opened x.em true y.tx ∧ y.tokenWait = false ∧
         GoesOn { id := id, t := x, c := cl, u := {}, act := 0, op := 0 } (· = none) y ∧
         y.s = x.s ∧ y.v = x.v ∧ y.p = x.p ∧ y.em = x.em) ∧
     (∀ n, (s.ctx c).token = some (id, n) → n < 2 ^ 20 → exec (.tokenHoldLimit c) s = .next s) ∧
     ∀ n, (s.ctx c).token = some (id, n) → 2 ^ 20 ≤ n → x.Ok →
       ∃ t y, exec (.tokenHoldLimit c) s = .next t ∧ (t.ctx c).token = none ∧ t.mem = s.mem ∧ OnlyTrain s t id ∧
         AMap.get? t.trains id = some y ∧ y.tx.fb = false ∧
         Aborted x 0xFFFFFFFF 8 { y with tx := { y.tx with fb := x.tx.fb } } ∧ y.s = x.s ∧ y.v = x.v ∧ y.p = x.p) ∧
  (∀ (s : State) (id L : Nat) (x : Train) (e : Mask × Nat), AMap.get? s.trains id = some x → KeysRise s.trains →
     x.tx.ending = some e → IsLowest x.tx.opened L → KeysRise (x.tx.ws.at L) → (∀ g ∈ x.tx.ws.at L, g.1 % 8 = 0) →
     let rs := x.tx.rs.at L
     let ws := x.tx.ws.at L
     let locked := ∃ g k, (g ∈ rs.map (·.1) ∨ g ∈ ws.map (·.1)) ∧ AMap.get? s.locks g = some k ∧ ¬(k.train = id ∧ k.lane = L)
     let same := ∀ g ∈ rs, Bytes.read s.mem g.1 8 = g.2.toNat
     let clear := ∀ g, g ∈ rs.map (·.1) ∨ g ∈ ws.map (·.1) → Clear s x g 8
     (¬locked → ¬clear → exec (.commitStep id) s = .next s) ∧
     (locked ∨ clear → ∃ t y, exec (.commitStep id) s = .next t ∧ AMap.get? t.trains id = some y ∧
       (∀ K, K < 32 → y.tx.opened.getLsbD K = (x.tx.opened.getLsbD K && K != L)) ∧
       (∀ K, K < 32 → K ≠ L → y.tx.aborted.getLsbD K = x.tx.aborted.getLsbD K) ∧
       (¬locked → same → y.tx.aborted.getLsbD L = x.tx.aborted.getLsbD L ∧
         ∀ b, Bytes.get t.mem b = match ws.find? (fun g => g.1 == b / 8 * 8 && g.2.1.getLsbD (b % 8)) with
           | some g => g.2.2.extractLsb' (8 * (b % 8)) 8
           | none => Bytes.get s.mem b) ∧
       (locked → t.mem = s.mem ∧ y.tx.aborted.getLsbD L = true ∧ y.tx.cause.at L = 8) ∧
       (¬locked → ¬same → t.mem = s.mem ∧ y.tx.aborted.getLsbD L = true ∧ y.tx.cause.at L = 1) ∧
       ((∀ K, K < 32 → x.tx.opened.getLsbD K → K = L) →
         y.tx.on = false ∧ y.tx.ending = none ∧ y.em = x.tx.em &&& x.live)))

/-! ## Class Z -/

/-- R366 to R368: `zrd` writes a listed register into a scalar, or a pair where it is 64 bits wide; `zwr` writes the trap registers of the train, TM excepted, and the four context registers of access T, clipped to their ranges, for the train's next clause: until then the clause reads the trap registers as they were and a context register as it was before its first write of it; a ZS_HANGBUF that is no multiple of 32 becoming a multiple of 32 the model leaves free (log entry 14); a number that is not listed, a width that does not match and a write of an R register raise E_ILL_OPERAND, a write of a C register E_PRIV. The model's readings it rests on: log entries 22 and 40. -/
def Obligations.SystemRegisters : Prop :=
  (∀ (s : State) (sb : Sb) (d : Dst) (n : Src) (r : Iss), begin_ s (.zrd sb d n) = .ok r → r.t.inTx = false →
    let regs := sysTable r.t (s.ctx (s.ctxOf r.t))
    ((∀ e ∈ regs, e.1 ≠ (r.x0 n).toNat) → exec (.zrd sb d n) s = .next (trapCur s 0x03 none none)) ∧
    ∀ m v, ((r.x0 n).toNat, m, v) ∈ regs →
      let q : Iss := { r with u := Use.once sb [(d, m)] [(n, 1)] }
      (d.sca m = false → exec (.zrd sb d n) s = .next (trapCur s 0x03 none none)) ∧
      (d.sca m = true → r.t.interlocked q.u 0 = true → exec (.zrd sb d n) s = .next (waited s r)) ∧
      (d.sca m = true → r.t.interlocked q.u 0 = false →
        ∃ x, exec (.zrd sb d n) s = .next (s.upd (.train r.id (some x))) ∧ GoesOn q (· = none) x ∧ OnlyIssue q x ∧
          x.v = q.left.v ∧ ScalarIs q d m (fun j =>
            (((r.c.zold.find? fun e => e.1 == (r.x0 n).toNat).map (·.2)).getD v).extractLsb' (32 * j) 32) x)) ∧
  ∀ (s : State) (sb : Sb) (n y : Src) (r : Iss), begin_ s (.zwr sb n y) = .ok r → r.t.inTx = false →
    let regs := sysTable r.t (s.ctx (s.ctxOf r.t))
    let c := s.ctxOf r.t
    let k := (r.x0 n).toNat
    ((∀ e ∈ regs, e.1 ≠ k) → exec (.zwr sb n y) s = .next (trapCur s 0x03 none none)) ∧
    ∀ m w, (k, m, w) ∈ regs →
      let q : Iss := { r with u := Use.once sb [] [(n, 1), (y, m)] }
      let v := r.n m y 0
      (y.unif m = false ∨ k ∈ [0x12, 0x13, 0x14] → exec (.zwr sb n y) s = .next (trapCur s 0x03 none none)) ∧
      (y.unif m = true → k ∈ [0x0C, 0x0D, 0x0E, 0x0F, 0x10, 0x11, 0x15, 0x16] →
        exec (.zwr sb n y) s = .next (trapCur s 0x18 none none)) ∧
      (y.unif m = true → k < 12 → r.t.interlocked q.u 0 = true → exec (.zwr sb n y) s = .next (waited s r)) ∧
      (y.unif m = true → k < 8 → r.t.interlocked q.u 0 = false →
        ∃ x, exec (.zwr sb n y) s = .next (s.upd (.train r.id (some x))) ∧
          x.keptPhase = (if k = 2 ∨ k = 7 then none else r.t.keptPhase) ∧
          Finished { q with c := { r.c with zw := some (trapWritten (r.c.zw.getD r.t.trap) k v) } }
            { x with keptPhase := r.t.keptPhase }) ∧
      let wrote : Iss := { q with c := { r.c with
        zold := if r.c.zold.any fun e => e.1 == k then r.c.zold else r.c.zold ++ [(k, w)] } }
      (y.unif m = true → 8 ≤ k → k < 12 → (k = 8 → v.toNat % 32 = 0) → r.t.interlocked q.u 0 = false →
        ∃ x, exec (.zwr sb n y) s = .next ((s.upd (.ctx c (ctxWritten (s.ctx c) k v))).upd (.train r.id (some x))) ∧
          Finished wrote x) ∧
      (y.unif m = true → k = 8 → v.toNat % 32 ≠ 0 → r.t.interlocked q.u 0 = false →
        ∃ u x, u.toNat % 32 = 0 ∧ exec (.zwr sb n y) s = .next (((s.upd (.free (s.free + 1))).upd
          (.ctx c (ctxWritten (s.ctx c) 8 u))).upd (.train r.id (some x))) ∧ Finished wrote x)

/-- R163, R164, R165: `tlbi` raises E_MISALIGN with its VA and E_PERM for a bad range, and else issues the invalidation of [VA, VA + 65,536 n) cut at 2^55, or of the whole tag; TLBI_INVALIDATION_BEGIN waits for every earlier store and atomic of the train, then leaves no overlapping translation of the tag in any last-page register, L1, L2 or L3, ends the ownership of sectors that were taken through the range, loses the watches of the context on the range, completes the `tlbi` and changes no byte; `tlbsync` issues, and completes in its turn once each earlier `tlbi` of the train has begun and no access through an old translation is left. The model's readings it rests on: log entries 19 and 26. -/
def Obligations.Invalidations : Prop :=
  (∀ (s : State) (sb : Sb) (range : Option (Src × Src)) (r : Iss), begin_ s (.tlbi sb range) = .ok r → r.t.inTx = false →
    let issues (lo hi : Nat) : Prop := ∃ x, exec (.tlbi sb range) s = .next
      (((s.upd (.nextId (s.nextId + 1))).upd (.train r.id (some x))).upd (.tlbis (s.tlbis ++
        [{ sync := false, train := r.id, op := s.nextId, ctx := s.ctxOf r.t, lo := lo, hi := hi, begun := false, mark := 0 }]))) ∧
      Issued r s.nextId true [] [] x
    (range = none → issues 0 (2 ^ 55)) ∧
    ∀ va n, range = some (va, n) →
      ((r.d0 va).toNat % 65536 ≠ 0 → exec (.tlbi sb range) s = .next (trapCur s 0x04 (some r.t.em) (some (r.d0 va)))) ∧
      ((r.d0 va).toNat % 65536 = 0 → 2 ^ 55 ≤ (r.d0 va).toNat ∨ r.x0 n = 0 →
        exec (.tlbi sb range) s = .next (trapCur s 0x06 none none)) ∧
      ((r.d0 va).toNat % 65536 = 0 → (r.d0 va).toNat < 2 ^ 55 → r.x0 n ≠ 0 →
        issues (r.d0 va).toNat (min ((r.d0 va).toNat + 65536 * (r.x0 n).toNat) (2 ^ 55)))) ∧
  (∀ (s : State) (sb : Sb) (r : Iss), begin_ s (.tlbsync sb) = .ok r → r.t.inTx = false →
    ∃ x, exec (.tlbsync sb) s = .next (((s.upd (.nextId (s.nextId + 1))).upd (.train r.id (some x))).upd (.tlbis (s.tlbis ++
        [{ sync := true, train := r.id, op := s.nextId, ctx := s.ctxOf r.t, lo := 0, hi := 0, begun := false, mark := 0 }]))) ∧
      Issued r s.nextId true [] [] x) ∧
  (∀ (s : State) (train op : Nat) (x : Train) (rest : List Turn), s.agenda = .syncDone train op :: rest →
    (∃ i ∈ s.tlbis, i.sync = true ∧ i.train = train ∧ i.op = op) → AMap.get? s.trains train = some x →
    let ready := ∀ i ∈ s.tlbis, i.train = train → i.sync = false → i.op < op → i.begun = true ∧ oldAccess s i = false
    (ready → ∃ t y, step s = .next t ∧ t = { s with
        agenda := rest, trains := t.trains, tlbis := s.tlbis.filter fun i => !(i.train == train && decide (i.op ≤ op)) } ∧
      OnlyTrain s t train ∧ AMap.get? t.trains train = some y ∧ Completed x y op ∧ y.s = x.s ∧ y.v = x.v) ∧
    (¬ready → step s = .next { s with agenda := rest })) ∧
  ∀ (s : State) (train op : Nat) (x : Train) (i : Tlbi), AMap.get? s.trains train = some x →
    s.tlbis.find? (fun i => i.train == train && i.op == op && !i.begun && !i.sync) = some i →
    KeysRise s.owners → KeysRise s.trains → KeysRise s.cores → KeysRise s.l2 → KeysRise s.l3 →
    let tag := (s.ctx i.ctx).xtag
    let older := (∃ w ∈ x.fifo, w.id < op) ∨ ∃ w ∈ (s.core (s.coreOf x)).writes, w.train = train ∧ w.id < op
    (older → exec (.tlbiInvalidationBegin train op) s = .next s) ∧
    (¬older → ∃ t y, exec (.tlbiInvalidationBegin train op) s = .next t ∧ t.mem = s.mem ∧
      (∀ k, ∀ e ∈ (t.core k).tlb, ClearOf tag i.lo i.hi e) ∧ (∀ l ∈ t.l2, ∀ e ∈ l.2, ClearOf tag i.lo i.hi e) ∧
      (∀ l ∈ t.l3, ∀ e ∈ l.2, ClearOf tag i.lo i.hi e) ∧
      (∀ id z L e, AMap.get? t.trains id = some z → z.lastPage.at L = some e → ClearOf tag i.lo i.hi e) ∧
      AMap.get? t.trains train = some y ∧ y.s = x.s ∧ y.v = x.v ∧ y.inflight = x.inflight.filter (fun f => f.id != op) ∧
      (∀ k o, AMap.get? s.owners k = some o → o.tag = tag → i.lo ≤ o.va → o.va < i.hi → AMap.get? t.owners k = none) ∧
      ∀ id z w, AMap.get? s.trains id = some z → s.ctxOf z = i.ctx → z.watch = some w → i.lo ≤ w.va.toNat →
        w.va.toNat < i.hi → ∃ z', AMap.get? t.trains id = some z' ∧ z'.watch = some { w with lost := true })

/-! ## The engines at issue -/

/-- R128, R205, R247, R255, R261, R286, R326, R366, R369: outside a bracket an instruction of class S, X, E, Y or Z that goes to a unit raises at its word what its operands show at issue; otherwise it completes its issue at once: its operands are captured, its destinations and tiles interlocked, and it stands under an identity of its own at its unit, the next clause waiting for an `esync`. That an instruction of class X waits in place at its word while its queue holds 16, and one of a ring while the checker holds 64 jobs, inside an open clause, is the model's reading (log entry 68: R11 and R69 only keep a clause from opening; log entry 83 for the depth of a whole array's queue); `tloop` reads its record after the train's earlier acquires (R128). The model's other readings it rests on: log entry 17. -/
def Obligations.EngineIssue : Prop :=
  ∀ (s : State) (i : Instr) (r : Iss) (q : EngineCall), begin_ s i = .ok r → r.t.inTx = false → callTable s r i = some q →
    (∀ c v, callTrap s r i = some (c, v) → exec i s = .next (trapCur s c none v)) ∧
    (callTrap s r i = none → CallStalls s r i q → exec i s = .next (waited s r)) ∧
    (callTrap s r i = none → ¬CallStalls s r i q → (AMap.get? s.wheels r.t.wheel).isSome →
      ∃ x, exec i s = .next (((s.upd (.nextId (s.nextId + 1))).upd (.train r.id (some x))).upd (q.unit.put s.nextId
          { id := s.nextId, train := r.id, instr := i, cap := q.cap r, held := false, step := 0, pos := 0, words := q.words })) ∧
        Issued r s.nextId true q.dests q.tiles x ∧ x.gate = if q.gate then some s.nextId else r.t.gate)

/-- R12, R248, R286, R370: outside a bracket a copy joins the collective of its wheel that its count of copies names, beginning it, and waits in place where it would be a fifth or the checker holds 64 jobs; `tld`, `tst` and `tdrain` enter their queue with a job, and `wsld` brings a job; `wsld` raises E_PRIV in trap mode, E_ILL_OPERAND for its range and E_MISALIGN for its address. That these instructions wait in place at a full queue or checker, inside an open clause, is the model's reading (log entries 16, 68 and 83); ring instructions stand in EngineIssue. The model's other readings it rests on: log entries 17 and 28. -/
def Obligations.JobIssue : Prop :=
  (∀ (s : State) (i : Instr) (r : Iss) (wh : Wheel) (tb : Option Src) (ls ld rec : Src), begin_ s i = .ok r →
    r.t.inTx = false → copyTable i = some (tb, ls, ld, rec) → AMap.get? s.wheels r.t.wheel = some wh →
    let k := r.t.copies
    let joined : Bool := wh.colls.any fun c => c.k == k
    (∀ b c v, tb = some b → barTrap s r b = some (c, v) → exec i s = .next (trapCur s c none v)) ∧
    ((∀ b, tb = some b → barTrap s r b = none) →
      (joined = false → 4 ≤ wh.colls.length ∨ checkerFull s wh.core = true → exec i s = .next (waited s r)) ∧
      (joined = true ∨ (wh.colls.length < 4 ∧ checkerFull s wh.core = false) →
        ∃ x, exec i s = .next ((((if joined then s else s.upd (.wheel r.t.wheel (some { wh with
            colls := wh.colls ++ [⟨k, []⟩] }))).upd (.nextId (s.nextId + 1))).upd (.train r.id (some x))).upd
            (.stream s.nextId (some { id := s.nextId, train := r.id, instr := i, held := false, step := k, pos := 0, words := []
                                      cap := { act := r.act, em := r.t.em, a := perLane (w64 r ls), b := perLane (w64 r ld)
                                               c := perLane (w64 r rec)
                                               x := perLane fun _ => match tb with
                                                 | some b => (r.x0 b).setWidth 128
                                                 | none => 0 } }))) ∧
          Issued r s.nextId true [] [] x ∧ x.copies = k + 1))) ∧
  (∀ (s : State) (i : Instr) (r : Iss) (a b : DWord), begin_ s i = .ok r → r.t.inTx = false →
    tileJobTable r i = some (a, b) →
    let full := 16 ≤ (mxQueue s (s.coreOf r.t) (s.ctxOf r.t)).length ∨ checkerFull s (s.coreOf r.t) = true
    (∀ c v, callTrap s r i = some (c, v) → exec i s = .next (trapCur s c none v)) ∧
    (callTrap s r i = none → full → exec i s = .next (waited s r)) ∧
    (callTrap s r i = none → ¬full →
      ∃ x, exec i s = .next (((((s.upd (.nextId (s.nextId + 1))).upd (.train r.id (some x))).upd (.matrix s.nextId (some
          { id := s.nextId, train := r.id, instr := i, held := false, step := 0, pos := 0, words := []
            cap := { act := r.act, em := r.t.em, a := perLane fun _ => a, b := perLane fun _ => b
                     c := perLane fun _ => 0, x := perLane fun _ => 0 } }))).upd (.nextId (s.nextId + 2))).upd
          (.job (s.nextId + 1) (some (freshJob s r (.tile s.nextId))))) ∧
        Issued r s.nextId true [] ((tilesNamed i).map (·.toNat)) x)) ∧
  ∀ (s : State) (sb : Sb) (w a n : Src) (r : Iss), begin_ s (.wsld sb w a n) = .ok r → r.t.inTx = false →
    let range := (r.x0 w).toNat + (r.x0 n).toNat
    (r.t.trap.tm = true → exec (.wsld sb w a n) s = .next (trapCur s 0x18 none none)) ∧
    (r.t.trap.tm = false → r.x0 n = 0 ∨ 262144 < range → exec (.wsld sb w a n) s = .next (trapCur s 0x03 none none)) ∧
    (r.t.trap.tm = false → r.x0 n ≠ 0 → range ≤ 262144 → (r.d0 a).toNat % 128 ≠ 0 →
      exec (.wsld sb w a n) s = .next (trapCur s 0x04 (some r.t.em) (some (r.d0 a)))) ∧
    (r.t.trap.tm = false → r.x0 n ≠ 0 → range ≤ 262144 → (r.d0 a).toNat % 128 = 0 →
      (checkerFull s (s.coreOf r.t) = true → exec (.wsld sb w a n) s = .next (waited s r)) ∧
      (checkerFull s (s.coreOf r.t) = false →
        ∃ x, exec (.wsld sb w a n) s = .next ((((s.upd (.nextId (s.nextId + 1))).upd (.train r.id (some x))).upd
            (.nextId (s.nextId + 2))).upd (.job (s.nextId + 1) (some (freshJob s r (.weights r.id s.nextId
              (65536 * (r.x0 w).toNat) (r.d0 a).toNat (65536 * (r.x0 n).toNat) 0))))) ∧
          Issued r s.nextId true [] [] x))

/-- R73, R85, R256, R262, R296, R303: the instructions that wait: `tbwait` and `yieldc` for a barrier's phase, `racq` for its tile's slot, `twait` for the train's class X instructions, `wsync` for a gap between refresh windows; `tbwait` and `racq` wait in place for the train's earlier class S instructions (R256, R262), and `yieldc` does so in the model's reading, which R85 does not say (log entry 69); each completes when its condition holds, and otherwise holds the train with its registers unchanged. The model's other readings it rests on: log entry 19. -/
def Obligations.EngineWaits : Prop :=
  (∀ (s : State) (sb : Sb) (b ph : Src) (r : Iss), begin_ s (.tbwait sb b ph) = .ok r → r.t.inTx = false →
    let a := (r.x0 b).toNat
    let may := hasOps s.stream r.id = false ∧ AcqDone s r
    (∀ w, r.t.wait = some w → w.woken = true →
      ∃ x, exec (.tbwait sb b ph) s = .next (s.upd (.train r.id (some x))) ∧ Finished r x) ∧
    (∀ w, r.t.wait = some w → w.woken = false → exec (.tbwait sb b ph) s = .next (waited s r)) ∧
    (r.t.wait = none → ¬may → exec (.tbwait sb b ph) s = .next (waited s r)) ∧
    (r.t.wait = none → may →
      (∀ c v, barTrap s r b = some (c, v) → exec (.tbwait sb b ph) s = .next (trapCur s c none v)) ∧
      (barTrap s r b = none →
        if (Bytes.get (localOf s r.t.wheel) a).toNat % 16 = (r.x0 ph).toNat % 16
        then exec (.tbwait sb b ph) s = .next (s.upd (.train r.id (some { r.t with
          wait := some ⟨.tb a ((r.x0 ph).toNat % 16), false, 0⟩ })))
        else ∃ x, exec (.tbwait sb b ph) s = .next (s.upd (.train r.id (some x))) ∧ Finished r x))) ∧
  (∀ (s : State) (g : Guard) (n : BitVec 6) (rel : BitVec 32) (r : Iss), begin_ s (.yieldc g n rel) = .ok r →
    let kept := if r.t.trap.tm then r.t.keptPhase else none
    let leaves (x : Train) : Prop := exec (.yieldc g n rel) s = .next (s.upd (.train r.id (some x))) ∧ x.wait = none ∧
      x.keptPhase = kept ∧ KeepsRegs r { x with wait := r.t.wait, keptPhase := r.t.keptPhase }
    let goes : Prop := ∃ x, leaves x ∧ EndsAt r (targetOf r rel) false x
    let may := hasOps s.stream r.id = false ∧ AcqDone s r
    let a := (r.t.sreg n.toNat).toNat
    let phase := (Bytes.get (localOf s r.t.wheel) a).toNat % 16
    let ph := if r.resumes then r.t.keptPhase.getD phase else phase
    (∀ w, r.t.wait = some w → w.woken = true → goes) ∧
    (∀ w, r.t.wait = some w → w.woken = false → exec (.yieldc g n rel) s = .next (waited s r)) ∧
    (r.t.wait = none → r.t.inTx = true → exec (.yieldc g n rel) s = .next (trapCur s 0x0B none none)) ∧
    (r.t.wait = none → r.t.inTx = false → ¬Holds r → ∃ x, leaves x ∧ GoesOn r (· = none) x) ∧
    (r.t.wait = none → r.t.inTx = false → Holds r → ¬may → exec (.yieldc g n rel) s = .next (waited s r)) ∧
    (r.t.wait = none → r.t.inTx = false → Holds r → may →
      (∀ c v, barTrap s r (.s n) = some (c, v) → exec (.yieldc g n rel) s = .next (trapCur s c none v)) ∧
      (barTrap s r (.s n) = none → phase ≠ ph → goes) ∧
      (barTrap s r (.s n) = none → phase = ph → exec (.yieldc g n rel) s = .next (s.upd (.train r.id (some { r.t with
        wait := some ⟨.tb a ph, false, 0⟩, keptPhase := kept })))))) ∧
  (∀ (s : State) (sb : Sb) (d : Dst) (k : Src) (r : Iss) (wh : Wheel), begin_ s (.racq sb d k) = .ok r → r.t.inTx = false →
    AMap.get? s.wheels r.t.wheel = some wh →
    let waits := hasOps s.stream r.id = true ∨ ¬AcqDone s r ∨ ∃ w, r.t.wait = some w ∧ w.woken = false
    let kk := (r.x0 k).toNat
    (waits → exec (.racq sb d k) s = .next (waited s r)) ∧
    (¬waits → wh.rings.toList[kk]?.join = none → FreshFor s r.t → DefersAt s (.racq sb d k) r 0x17 (pointOf r.c).pc) ∧
    ∀ g, ¬waits → wh.rings.toList[kk]?.join = some g →
      let answers (t : State) (lo hi : Nat) : Prop := ∃ x, exec (.racq sb d k) s = .next (t.upd (.train r.id (some x))) ∧
        GoesOn r (· = none) x ∧ OnlyIssue r x ∧ x.v = r.left.v ∧
        ScalarIs r d 2 (fun j => BitVec.ofNat 32 (if j = 0 then lo else hi)) x
      let i := g.next % g.slots.length
      let free_ := g.slots[i]? = some (if g.drain then .free else .ready g.next)
      (g.count.foldl (· * ·) 1 ≤ g.next → answers s 0xFFFFFFFF (g.count.foldl (· * ·) 1)) ∧
      (g.next < g.count.foldl (· * ·) 1 → free_ → ∃ wh', wh' = { wh with rings := wh'.rings } ∧
        wh'.rings.toList = wh.rings.toList.set kk (some { g with
          next := g.next + 1, slots := g.slots.set i (.acquired g.next) }) ∧
        answers (s.upd (.wheel r.t.wheel (some wh'))) (g.slotBase + i * g.slotBytes) g.next) ∧
      (g.next < g.count.foldl (· * ·) 1 → ¬free_ → exec (.racq sb d k) s = .next (s.upd (.train r.id (some { r.t with
        wait := some ⟨.ring kk, false, 0⟩ }))))) ∧
  (∀ (s : State) (sb : Sb) (o : Option (BitVec 3)) (r : Iss), begin_ s (.twait sb o) = .ok r →
    let inside := ∀ i, o = some i → i.toNat < tilesOf s r.t
    let done_ := match o with
      | some i => ∀ f ∈ r.t.inflight, i.toNat ∉ f.tiles
      | none => hasOps s.matrix r.id = false
    (¬inside → exec (.twait sb o) s = .next (trapCur s 0x03 none none)) ∧
    (inside → r.t.inTx = false → ¬done_ → exec (.twait sb o) s = .next (waited s r)) ∧
    (inside → r.t.inTx = false → done_ →
      ∃ x, exec (.twait sb o) s = .next (s.upd (.train r.id (some x))) ∧ Finished r x)) ∧
  ∀ (s : State) (sb : Sb) (m c : Src) (r : Iss), begin_ s (.wsync sb m c) = .ok r → r.t.inTx = false →
    let gap := gapExists s.mg.clockMhz.toNat (r.d0 m) (r.x0 c).toNat
    let now_ := ∀ k, k < 64 → (r.d0 m).getLsbD k → BankQuiet s k (r.x0 c).toNat
    (gap = false → exec (.wsync sb m c) s = .next (trapCur s 0x03 none none)) ∧
    (gap = true → ¬now_ → exec (.wsync sb m c) s = .next (waited s r)) ∧
    (gap = true → now_ → ∃ x, exec (.wsync sb m c) s = .next (s.upd (.train r.id (some x))) ∧ Finished r x)

/-- R128, R319, R320, R327 to R329, R332: outside a bracket `rycl`, `ryany` and `ryocc` with no query open start one of the active lanes on a bound geometry, which completes at once when no lane is active; with a query open they raise E_ILL_OPERAND; `ryacc` decides the candidates of the active pending lanes of an open `any` query and raises E_ILL_OPERAND without one; `ryres` writes a field of the lanes that are not busy; `rywait` writes which lanes are pending once none is busy, and zero with no query; `rypst` reads, after the train's earlier acquires (R128), a counter of the context on the core's die. The model's readings it rests on: log entries 37, 39 and 41. -/
def Obligations.RayInstructions : Prop :=
  (∀ (s : State) (i : Instr) (g : Guard) (sb : Sb) (kind : RayKind) (k : BitVec 2) (base : BitVec 8) (m : Src) (r : Iss)
    (wh : Wheel), (i = .rycl g sb k (.v base) m ∧ kind = .closest) ∨ (i = .ryany g k (.v base) m ∧ kind = .any) ∨
      (i = .ryocc g sb k (.v base) m ∧ kind = .occluded) →
    begin_ s i = .ok r → r.t.inTx = false → AMap.get? s.wheels r.t.wheel = some wh →
    (r.t.queryOpen = true → exec i s = .next (trapCur s 0x03 none none)) ∧
    (r.t.queryOpen = false → hasOps s.ray r.id = true → exec i s = .next (waited s r)) ∧
    (r.t.queryOpen = false → hasOps s.ray r.id = false →
      (wh.geos.toList[k.toNat]?.join = none → FreshFor s r.t → DefersAt s i r 0x03 (pointOf r.c).pc) ∧
      ∀ b, wh.geos.toList[k.toNat]?.join = some b →
        (r.act ≠ 0 → ∃ x q, exec i s = .next ((s.upd (.nextId (s.nextId + 1))).upd (.train r.id (some x))) ∧
          Issued r s.nextId true [] [] x ∧ x.ray = some q ∧ Started r s.nextId kind k b base.toNat m q ∧ q.opened = true) ∧
        (r.act = 0 → FreshFor s r.t → ∃ t x q, exec i s = .next t ∧
          t = { s with nextId := s.nextId + 1, trains := t.trains } ∧ OnlyTrain s t r.id ∧
          AMap.get? t.trains r.id = some x ∧ x.ray = some q ∧ Started r s.nextId kind k b base.toNat m q ∧
          q.opened = false ∧ x.inflight = r.t.inflight ∧ ∀ j, x.sbCount j = r.t.sbCount j))) ∧
  (∀ (s : State) (g : Guard) (sb : Sb) (pa : BitVec 3) (r : Iss), begin_ s (.ryacc g sb pa) = .ok r → r.t.inTx = false →
    ((∀ q, r.t.ray = some q → q.opened = false ∨ q.kind ≠ .any) → exec (.ryacc g sb pa) s = .next (trapCur s 0x03 none none)) ∧
    ∀ q, r.t.ray = some q → q.opened = true → q.kind = .any → r.t.Ok →
      ∃ t x y, exec (.ryacc g sb pa) s = .next t ∧ t.mem = s.mem ∧ OnlyTrain s t r.id ∧
        AMap.get? t.trains r.id = some x.norm ∧ GoesOn r (· = none) x ∧ x.ray = some y ∧
        (q.waits = [] → x.s = r.left.s ∧ x.v = r.left.v) ∧
        ∀ L, L < 32 → (∀ h, r.act.getLsbD L → q.lanes.at L = .pending h →
            y.cand.at L = q.cand.at L + 1 ∧
            if (r.t.pred pa.toNat).getLsbD L then y.lanes.at L = .done (some h) 2
            else y.lanes.at L = .busy ∧ y.rejected.at L = q.rejected.at L ++ [(h.instVa, h.triVa)]) ∧
          ((r.act.getLsbD L = false ∨ ∀ h, q.lanes.at L ≠ .pending h) → y.lanes.at L = q.lanes.at L)) ∧
  (∀ (s : State) (g : Guard) (sb : Sb) (f : RyField) (d : Dst) (r : Iss), begin_ s (.ryres g sb f d) = .ok r →
    r.t.inTx = false →
    let value (k L : Nat) (x : Train) : Prop := (x.vreg k).at L =
      if d.nowb = false ∧ d.scalar = false ∧ k = d.idx.toNat ∧ r.act.getLsbD L ∧
        (∀ q, r.t.ray = some q → (q.lanes.at L).works = false)
      then rayField r.t.ray f L else (r.left.vreg k).at L
    ((∀ q, r.t.ray = some q → LanesSettled q r.act) →
      ∃ x, exec (.ryres g sb f d) s = .next (s.upd (.train r.id (some x))) ∧ GoesOn r (· = none) x ∧ OnlyIssue r x ∧
        (d.scalar = false → x.s = r.left.s) ∧ ∀ k L, L < 32 → value k L x) ∧
    ∀ q, r.t.ray = some q → ¬LanesSettled q r.act →
      ∃ x y, exec (.ryres g sb f d) s = .next ((s.upd (.nextId (s.nextId + 1))).upd (.train r.id (some x))) ∧
        GoesOn r (· = none) x ∧ x.ray = some { q with waits := q.waits ++ [⟨s.nextId, y, .field f d⟩] } ∧
        IsMask y (fun L => r.act.getLsbD L ∧ (q.lanes.at L).works) ∧ ∀ k L, L < 32 → value k L x) ∧
  (∀ (s : State) (sb : Sb) (d : PDst) (r : Iss), begin_ s (.rywait sb d) = .ok r → r.t.inTx = false →
    let writes (lanes ones : Mask) : Prop := ∃ x, exec (.rywait sb d) s = .next (s.upd (.train r.id (some x))) ∧
      x.s = r.left.s ∧ x.v = r.left.v ∧ GoesOn r (· = none) x ∧ OnlyIssue r { x with p := r.t.p } ∧
      ∀ k, k < 8 → x.pred k = if d.nowb = false ∧ k = d.p.toNat ∧ k ≠ 7
        then (r.t.pred k &&& ~~~lanes) ||| (ones &&& lanes) else r.t.pred k
    (r.t.queryOpen = false → writes r.act 0) ∧
    ∀ q, r.t.queryOpen = true → r.t.ray = some q →
      (LanesSettled q 0xFFFFFFFF → ∃ lanes ones, IsMask lanes (fun L => q.lanes.at L ≠ .outside) ∧
        IsMask ones (fun L => ∃ h, q.lanes.at L = .pending h) ∧ writes lanes ones) ∧
      (¬LanesSettled q 0xFFFFFFFF →
        ∃ x, exec (.rywait sb d) s = .next ((s.upd (.nextId (s.nextId + 1))).upd (.train r.id (some x))) ∧
          x.s = r.left.s ∧ x.v = r.left.v ∧ x.p = r.t.p ∧ GoesOn r (· = none) x ∧
          x.ray = some { q with waits := q.waits ++ [⟨s.nextId, 0, .pred d⟩] })) ∧
  ∀ (s : State) (sb : Sb) (d : Dst) (c : Src) (r : Iss), begin_ s (.rypst sb d c) = .ok r → r.t.inTx = false →
    (4 < (r.x0 c).toNat → exec (.rypst sb d c) s = .next (trapCur s 0x03 none none)) ∧
    ((r.x0 c).toNat ≤ 4 → ¬AcqDone s r → exec (.rypst sb d c) s = .next (waited s r)) ∧
    ∀ row v, AcqDone s r → (s.ctx (s.ctxOf r.t)).hptCounts.toList[dieOf (s.coreOf r.t)]? = some row → row.toList[(r.x0 c).toNat]? = some v →
      ∃ x, exec (.rypst sb d c) s = .next (s.upd (.train r.id (some x))) ∧ GoesOn r (· = none) x ∧ OnlyIssue r x ∧
        x.v = r.left.v ∧ ScalarIs r d 1 (fun _ => v) x

/-- R127, R128, R333, R344, R356 to R358: outside a bracket `gsub`, `gkick` and `gsig` wait in place until every earlier access of the train is performed and no earlier instruction waits for its query's reads, `gsub` and `gsig` also until what the core has written to their bytes is performed; a ring above 63 defers E_ILL_OPERAND, one that is disabled or another context's E_PERM, a misaligned record or token E_MISALIGN; `gkick` kicks and answers 1 or 0; `gsub` reserves the index in WIDX, copies the record, stamps the slot and kicks, or finds the ring full and writes nothing; `gsig` writes its token with a write time past the train's; `gwait`, after the train's earlier acquires, reads its token at home, again when its wait has ended, completes once it is at least its value, and else waits on; `gdep`, after the train's earlier acquires, answers 0, 1, 2 or 3, and 1 for a completed a whatever b is. The model's readings it rests on: log entries 46 and 87. -/
def Obligations.GraphInstructions : Prop :=
  (∀ (s : State) (sb : Sb) (d : Dst) (k v : Src) (r : Iss), begin_ s (.gkick sb d k v) = .ok r → r.t.inTx = false →
    let kk := (r.x0 k).toNat
    (¬Quiet s r → exec (.gkick sb d k v) s = .next (waited s r)) ∧
    (Quiet s r → FreshFor s r.t → 64 ≤ kk → DefersAt s (.gkick sb d k v) r 0x03 (pointOf r.c).pc) ∧
    (Quiet s r → FreshFor s r.t → kk < 64 → ¬RingFor s r kk → DefersAt s (.gkick sb d k v) r 0x06 (pointOf r.c).pc) ∧
    (Quiet s r → kk < 64 → RingFor s r kk →
      ∃ t x y, exec (.gkick sb d k v) s = .next t ∧ t = { s with trains := t.trains, rings := t.rings, dispatches := t.dispatches } ∧
        OnlyTrain s t r.id ∧ SideEffect s t r ∧ t.rings.toList = s.rings.toList.set kk y ∧
        AMap.get? t.trains r.id = some x ∧ x.v = r.left.v ∧
        (s.ringGone kk = true → y = s.ring kk ∧ ScalarIs r d 1 (fun _ => 0) x) ∧
        (s.ringGone kk = false → KickOf (s.ring kk) (r.x0 v) y ∧
          (KickTakes (s.ring kk) (r.x0 v) → ScalarIs r d 1 (fun _ => 1) x) ∧
          (¬KickTakes (s.ring kk) (r.x0 v) → ScalarIs r d 1 (fun _ => 0) x)))) ∧
  (∀ (s : State) (sb : Sb) (d : Dst) (k a : Src) (r : Iss) (W : Nat), begin_ s (.gsub sb d k a) = .ok r → r.t.inTx = false →
    let kk := (r.x0 k).toNat
    let g := s.ring kk
    let i := BitVec.ofNat 32 (Bytes.read s.mem W 4)
    let slot := g.rec_.slots + 128 * (i.toNat % 2 ^ g.rec_.log2n)
    (¬Quiet s r → exec (.gsub sb d k a) s = .next (waited s r)) ∧
    (Quiet s r → FreshFor s r.t → kk < 64 → RingFor s r kk → (r.d0 a).toNat % 128 ≠ 0 →
      DefersAt s (.gsub sb d k a) r 0x04 (pointOf r.c).pc) ∧
    (Quiet s r → kk < 64 → RingFor s r kk → (r.d0 a).toNat % 128 = 0 → s.locks = [] → KeysRise s.trains →
      UnitRange s r kRead g.rec_.widx W 8 → UnitRange s r kWrite g.rec_.widx W 8 →
      (¬Clear s r.t W 4 → exec (.gsub sb d k a) s = .next (waited s r)) ∧
      (Clear s r.t W 4 → 2 ^ g.rec_.log2n ≤ (i - g.h).toNat →
        ∃ t x, exec (.gsub sb d k a) s = .next t ∧ t.mem = s.mem ∧ t.rings = s.rings ∧ OnlyTrain s t r.id ∧
          AMap.get? t.trains r.id = some x ∧ x.v = r.left.v ∧ ScalarIs r d 1 (fun _ => 0xFFFFFFFF) x) ∧
      ∀ S A, (i - g.h).toNat < 2 ^ g.rec_.log2n → Clear s r.t W 8 → UnitRange s r kWrite slot S 128 → Clear s r.t S 128 →
        UnitRange s r kRead (r.d0 a).toNat A 124 → Clear s r.t A 124 → Apart W 8 S 128 → Apart W 8 A 124 → Apart S 128 A 124 →
        ∃ t x y, exec (.gsub sb d k a) s = .next t ∧ AMap.get? t.trains r.id = some x ∧ x.v = r.left.v ∧
          ScalarIs r d 1 (fun _ => i) x ∧ t.rings.toList = s.rings.toList.set kk y ∧
          (s.ringGone kk = true → y = g) ∧ (s.ringGone kk = false → KickOf g (i + 1) y) ∧
          ∀ b, Bytes.get t.mem b =
            if W ≤ b ∧ b < W + 8 then BitVec.ofNat 8 ((i + 1).toNat / 256 ^ (b - W))
            else if S ≤ b ∧ b < S + 124 then Bytes.get s.mem (A + (b - S))
            else if S + 124 ≤ b ∧ b < S + 128 then BitVec.ofNat 8 ((~~~i).toNat / 256 ^ (b - S - 124))
            else Bytes.get s.mem b)) ∧
  (∀ (s : State) (sb : Sb) (mx : Bool) (tok v : Src) (r : Iss) (P : Nat), begin_ s (.gsig sb mx tok v) = .ok r → r.t.inTx = false →
    let va := (r.d0 tok).toNat
    let new := if mx then max (Bytes.read s.mem P 8) (r.d0 v).toNat else (r.d0 v).toNat
    (¬Quiet s r → exec (.gsig sb mx tok v) s = .next (waited s r)) ∧
    (Quiet s r → FreshFor s r.t → va % 8 ≠ 0 → DefersAt s (.gsig sb mx tok v) r 0x04 (r.d0 tok)) ∧
    (Quiet s r → va % 8 = 0 → UnitAt s r kWrite va P → ¬Clear s r.t P 8 → exec (.gsig sb mx tok v) s = .next (waited s r)) ∧
    (Quiet s r → va % 8 = 0 → UnitAt s r kWrite va P → Clear s r.t P 8 → lockedBytes s.locks P 8 = false → KeysRise s.trains →
      ∃ t x, exec (.gsig sb mx tok v) s = .next t ∧ SideEffect s t r ∧
        (∀ b, Bytes.get t.mem b = if P ≤ b ∧ b < P + 8 then BitVec.ofNat 8 (new / 256 ^ (b - P)) else Bytes.get s.mem b) ∧
        (s.line P).wts < (t.line P).wts ∧ (s.line P).rts < (t.line P).wts ∧ r.t.wtsMax < (t.line P).wts ∧
        AMap.get? t.trains r.id = some x ∧ x.s = r.left.s ∧ x.v = r.left.v ∧ (t.line P).wts ≤ x.wtsMax)) ∧
  (∀ (s : State) (sb : Sb) (tok v : Src) (r : Iss) (P : Nat), begin_ s (.gwait sb tok v) = .ok r → r.t.inTx = false →
    let va := (r.d0 tok).toNat
    let c := s.core (s.coreOf r.t)
    let going := ∀ w, r.t.wait = some w → w.woken = true
    (¬going → exec (.gwait sb tok v) s = .next (waited s r)) ∧
    (going → FreshFor s r.t → va % 8 ≠ 0 → DefersAt s (.gwait sb tok v) r 0x04 (r.d0 tok)) ∧
    (going → va % 8 = 0 → ¬AcqDone s r → exec (.gwait sb tok v) s = .next (waited s r)) ∧
    (going → va % 8 = 0 → AcqDone s r → UnitAt s r kRead va P → r.t.Ok →
      (∀ w ∈ r.t.fifo ++ c.writes, ∀ j, j < 8 → w.touches (P + j) = false) →
      ((r.d0 v).toNat ≤ Bytes.read s.mem P 8 → ∃ t x, exec (.gwait sb tok v) s = .next t ∧
        t = { s with trains := (s.upd (.train r.id (some x))).trains, cores := t.cores, owners := t.owners } ∧
        Finished r x ∧ (s.line P).wts ≤ (t.core (s.coreOf r.t)).clock) ∧
      (Bytes.read s.mem P 8 < (r.d0 v).toNat →
        let age := (r.t.wait.map (·.age)).getD 0
        let held : Train := { r.t with wait := some ⟨.token (r.d0 tok) P (r.d0 v), false, age⟩ }
        ∃ t, exec (.gwait sb tok v) s = .next t ∧
          t = { s with cores := t.cores, owners := t.owners, trains := (s.upd (.train r.id (some held))).trains }))) ∧
  ∀ (s : State) (sb : Sb) (d : Dst) (a b : Src) (r : Iss), begin_ s (.gdep sb d a b) = .ok r → r.t.inTx = false →
    let known (k : DWord) : Option Node := (AMap.get? s.nodes k.toNat).filter fun n => n.ctx == s.ctxOf r.t
    let answers (st : Word) (t : State) : Prop := ∃ x, exec (.gdep sb d a b) s = .next (t.upd (.train r.id (some x))) ∧
      GoesOn r (· = none) x ∧ OnlyIssue r x ∧ x.v = r.left.v ∧ ScalarIs r d 1 (fun _ => st) x
    (¬AcqDone s r → exec (.gdep sb d a b) s = .next (waited s r)) ∧
    (∀ y st z, AcqDone s r → known (r.d0 b) = some y → DepResult (r.d0 a).toNat (known (r.d0 a)) y st z →
      answers st (s.upd (.node (r.d0 b).toNat z))) ∧
    let early := known (r.d0 b) = none ∧ r.d0 a ≠ 0 ∧ ∃ z, known (r.d0 a) = some z ∧ z.state = .complete
    (AcqDone s r → early → answers 1 s) ∧
    (AcqDone s r → (∀ y st z, known (r.d0 b) = some y → ¬DepResult (r.d0 a).toNat (known (r.d0 a)) y st z) → ¬early → answers 2 s)

/-! ## Work at the engines -/

/-- R3, R71, R247, R254 to R259, R370: JOB_START of the first class S operation of a train: `tbinit` makes a barrier with RESET = ARR = n once, its reserved bits as they were (R3), `tbexp` adds to PEND, `tbarr` counts down ARR and answers the phase, either flips the barrier when both counts are zero, `srd` answers its field; the operation is then complete. A WSLOAD job starts where its range is free. SECTOR_DELIVER writes the bytes of a local sector, but for those of a waited-on word, and takes a pair off its copy's barrier, which flips with the last one expected (R257), that of the job's last sector too. WEIGHT_STORE_WRITE_COMPLETE leaves the next 65,536 bytes of memory in the weight store, and completes its `wsld` with the last of them. A barrier that is made or flipped ends the waits for another phase than its own. That an arrival raises the core's clock past the writes of its train is the model's reading of R263, which speaks of no clock (log entry 63). The model's other readings it rests on: log entries 28, 50, 60 and 87. -/
def Obligations.StreamWork : Prop :=
  (∀ (s : State) (op : Nat) (e : EngineOp) (x : Train) (wh : Wheel), OpHead s s.stream op e x wh → x.queryFirst op = false → x.Ok →
    let a := (e.cap.a.at 0).toNat
    let n := (e.cap.b.at 0).toNat
    let w := tbarAt wh.local_ a
    let c := s.core wh.core
    let leaves (wheel : Wheel) (clock : Nat) (d : Option (Dst × Nat)) : Prop := ∃ t y, exec (.jobStart op) s = .next t ∧
      t = { s with
        trains := t.trains, wheels := AMap.set s.wheels x.wheel wheel, stream := AMap.erase s.stream op
        cores := t.cores } ∧
      (∀ k, k ≠ wh.core → t.core k = s.core k) ∧ t.core wh.core = { c with clock := clock } ∧
      OnlyTrain s t e.train ∧ AMap.get? t.trains e.train = some y ∧ Completed x y op ∧
      ((∀ q, d = some q → q.1.scalar = true) → y.v = x.v) ∧ ∀ k, y.sreg k = match d with
        | some (d, v) => if d.nowb = false ∧ d.scalar = true ∧ k = d.idx.toNat then BitVec.ofNat 32 v else x.sreg k
        | none => x.sreg k
    (∀ sb b m, e.instr = .tbinit sb false b m →
      (w.reset = 0 → KeysRise s.trains → ∃ t y, exec (.jobStart op) s = .next t ∧
        t = { s with
          trains := t.trains, ctxs := t.ctxs, wheels := AMap.set s.wheels x.wheel (withTbar wh a { w with pend := 0, reset := n, arr := n, phase := 0 })
          stream := AMap.erase s.stream op } ∧
        AMap.get? t.trains e.train = some y ∧ Completed x y op ∧ y.s = x.s ∧ y.v = x.v ∧
        WaitsEnded s t e.train id fun z v => z.wheel = x.wheel ∧ ∃ p, v.on = .tb a p ∧ p ≠ 0) ∧
      (w.reset = n → w.reset ≠ 0 → leaves wh c.clock none) ∧
      (w.reset ≠ 0 → w.reset ≠ n → ∃ t y, exec (.jobStart op) s = .next t ∧ t.wheels = s.wheels ∧ t.mem = s.mem ∧
        AMap.get? t.trains e.train = some y ∧ Deferred_ x y op 0x03 none)) ∧
    let flips (clock : Nat) : Prop := KeysRise s.trains → ∃ t y, exec (.jobStart op) s = .next t ∧ t.mem = s.mem ∧
      t.wheels = AMap.set s.wheels x.wheel (withTbar wh a { w with pend := 0, arr := w.reset, phase := (w.phase + 1) % 16 }) ∧
      clock ≤ (t.core wh.core).clock ∧ AMap.get? t.trains e.train = some y ∧ Completed x y op ∧
      WaitsEnded s t e.train (fun z => if z.wheel = x.wheel then { z with retired := 0 } else z)
        fun z v => z.wheel = x.wheel ∧ ∃ p, v.on = .tb a p ∧ p ≠ (w.phase + 1) % 16
    (∀ sb b m, e.instr = .tbexp sb b m →
      (w.arr ≠ 0 ∨ (w.pend + n) % 2 ^ 32 ≠ 0 →
        leaves (withTbar wh a { w with pend := (w.pend + n) % 2 ^ 32 }) c.clock none) ∧
      (w.arr = 0 → (w.pend + n) % 2 ^ 32 = 0 → flips c.clock)) ∧
    (∀ sb d b m, e.instr = .tbarr sb d b m → w.reset ≠ 0 → (∀ l ∈ x.loads, op ≤ l.id) →
      (1 < w.arr ∨ (w.arr = 1 ∧ (w.pend + n) % 2 ^ 32 ≠ 0) →
        leaves (withTbar wh a { w with pend := (w.pend + n) % 2 ^ 32, arr := w.arr - 1 }) (max c.clock x.wtsMax)
          (some (d, w.phase))) ∧
      (w.arr = 1 → (w.pend + n) % 2 ^ 32 = 0 → flips x.wtsMax)) ∧
    (∀ sb d b, e.instr = .srd sb (.phase b) d → leaves wh c.clock (some (d, w.phase))) ∧
    (∀ sb d b, e.instr = .srd sb (.arrive b) d → leaves wh c.clock (some (d, w.arr))) ∧
    (∀ sb d b, e.instr = .srd sb (.sectors b) d → leaves wh c.clock (some (d, w.pend)))) ∧
  (∀ (s : State) (k : Nat) (j : Job) (train op w a n m : Nat), AMap.get? s.stream k = none → AMap.get? s.jobs k = some j →
    j.kind = .weights train op w a n m → j.started = false → j.held = false → ctxRuns s j.ctx = true →
    engineMay s train op = true → s.reduced = false → rangeBound s (w / 65536) (n / 65536) = false →
    let j' := { j with started := true, reads := (List.range (n / 128)).map fun i => (Space.glob, a / 128 + i) }
    exec (.jobStart k) s = .next (if mayStart s k j' then s.upd (.job k (some j')) else s)) ∧
  (∀ (s : State) (k i w : Nat) (j : Job) (sec : Sector) (wh : Wheel) (f : Nat × ByteSrc → Byte), AMap.get? s.jobs k = some j →
    j.started = true → j.held = false → (s.ctx j.ctx).stopped = false → j.sectors[i]? = some sec →
    sec.space = .loc → j.wheel = some w → AMap.get? s.wheels w = some wh →
    (∀ b ∈ sec.bytes, plainByte wh.local_ b.2 = some (f b)) → (sec.bytes.map (·.1)).Nodup →
    let free (a : Nat) : Prop := ∀ v ∈ waitedWords s w, ¬(v.1 ≤ a ∧ a < v.1 + v.2)
    (∀ a slices, j.kind = .copy (some a) slices → (∀ b ∈ sec.bytes, b.1 < a ∨ a + 16 ≤ b.1) →
      let q := tbarAt wh.local_ a
      (j.sectors.length ≠ 1 → 1 < q.pend ∨ (q.pend = 1 ∧ q.arr ≠ 0) →
        ∃ t wh', exec (.sectorDeliver k i) s = .next t ∧ t.mem = s.mem ∧ t.trains = s.trains ∧
          AMap.get? t.wheels w = some wh' ∧ tbarAt wh'.local_ a = { q with pend := q.pend - 1 }) ∧
      (q.pend = 1 → q.arr = 0 → KeysRise s.trains →
        ∃ t wh', exec (.sectorDeliver k i) s = .next t ∧ t.mem = s.mem ∧ AMap.get? t.wheels w = some wh' ∧
          tbarAt wh'.local_ a = { q with pend := 0, arr := q.reset, phase := (q.phase + 1) % 16 } ∧
          ∀ id z v p, AMap.get? s.trains id = some z → z.Ok → z.wheel = w → z.wait = some v → v.on = .tb a p →
            p ≠ (q.phase + 1) % 16 → ∃ z', AMap.get? t.trains id = some z' ∧ z'.wait = some { v with woken := true })) ∧
    (j.sectors.length ≠ 1 → (∀ a slices, j.kind ≠ .copy (some a) slices) →
      ∃ t wh' j', exec (.sectorDeliver k i) s = .next t ∧ t = { s with wheels := t.wheels, jobs := t.jobs } ∧
        AMap.get? t.wheels w = some wh' ∧ wh' = { wh with local_ := wh'.local_ } ∧
        (∀ b ∈ sec.bytes, free b.1 → Bytes.get wh'.local_ b.1 = f b) ∧
        (∀ a, (a ∉ sec.bytes.map (·.1) ∨ ¬free a) → Bytes.get wh'.local_ a = Bytes.get wh.local_ a) ∧
        AMap.get? t.jobs k = some j' ∧ j' = { j with sectors := j.sectors.eraseIdx i, clobber := j'.clobber } ∧
        (j'.clobber = j.clobber ↔ ∀ b ∈ sec.bytes, free b.1))) ∧
  ∀ (s : State) (k : Nat) (j : Job) (train op w a n m P : Nat) (x : Train), AMap.get? s.jobs k = some j →
    j.kind = .weights train op w a n m → j.node = none → j.started = true → j.held = false → (s.ctx j.ctx).stopped = false →
    (∀ i, i < 65536 → XlAt s j.core j.ctx j.priv kRead (a + m + i) (P + i)) → AMap.get? s.trains train = some x → k < s.nextId →
    ∃ t, exec (.weightStoreWriteComplete k) s = .next t ∧ t.mem = s.mem ∧
      (∀ b, Bytes.get t.wmem b = if w + m ≤ b ∧ b < w + m + 65536 then Bytes.get s.mem (P + (b - w - m)) else Bytes.get s.wmem b) ∧
      (m + 65536 < n → t.trains = s.trains ∧ t.jobs = AMap.set s.jobs k { j with
        kind := .weights train op w a n (m + 65536) }) ∧
      (n ≤ m + 65536 → AMap.get? t.jobs k = none ∧ OnlyTrain s t train ∧
        ∃ y, AMap.get? t.trains train = some y ∧ Completed x y op ∧ y.s = x.s ∧ y.v = x.v)

/-- R284 to R287, R291 to R293, R298, R299, R303: MATRIX_INSTRUCTION_COMPLETE of the head of a queue: `tcfg` writes a legal control, `tzero` and `tfill` fill their tile, `tmma` folds every row of A with every row of B into D and counts a step, `wsinfo` answers; a product on a tile that is not configured changes no tile and defers E_ILL_OPERAND. LOOP_SEQUENCER_STEP at the start of a step loads its rows into both operands, folds them into D as far as the step's next boundary, and counts a step at its end; the loop completes with its last. The model's readings it rests on: log entries 29, 30, 31 and 33. -/
def Obligations.MatrixWork : Prop :=
  (∀ (s : State) (core ctx k : Nat) (e : EngineOp) (x : Train) (wh : Wheel), mxHead s core ctx = some (k, e) → e.id = k →
    AMap.get? s.trains e.train = some x → AMap.get? s.wheels x.wheel = some wh → ctx < 16 →
    let done_ (tiles : Nat → Tile → Prop) (steps : Nat) : Prop := ∃ t y wh',
      exec (.matrixInstructionComplete core ctx) s = .next t ∧
      t = { s with trains := t.trains, wheels := t.wheels, ctxs := t.ctxs, matrix := AMap.erase s.matrix k } ∧
      OnlyTrain s t e.train ∧ AMap.get? t.trains e.train = some y ∧ Completed x y k ∧ y.s = x.s ∧ y.v = x.v ∧
      AMap.get? t.wheels x.wheel = some wh' ∧ wh' = { wh with tiles := wh'.tiles } ∧
      (t.ctx ctx).mxstep = (s.ctx ctx).mxstep + BitVec.ofNat 64 steps ∧
      ∀ i : BitVec 3, tiles i.toNat (tileOf wh' i)
    let only (d : BitVec 3) (P : Tile → Prop) : Nat → Tile → Prop := fun i y =>
      if i = d.toNat then P y else ∀ j : BitVec 3, j.toNat = i → y = tileOf wh j
    let filled (d : BitVec 3) (w : Word) : Nat → Tile → Prop := only d fun y => y.control = (tileOf wh d).control ∧
      y.tscale = 0x3F800000 ∧ (∀ r q, AMap.getD y.scales (8 * r + q) 127 = 127) ∧
      ∀ i, i < 4096 → Bytes.get y.data i = w.extractLsb' (8 * (i % 4)) 8
    let c : Word := (e.cap.a.at 0).setWidth 32
    (∀ sb d b, e.instr = .tcfg sb d b → c.extractLsb' 21 11 = 0 → c.extractLsb' 3 2 = 0 →
      (ctlCfg c = true → ctlAcc c = true ∧ ctlLayout c = false ∧ ctlSlot c = 0 ∧ ctlCols c ≤ 32) →
      done_ (only d fun y => y = { tileOf wh d with control := c }) 0) ∧
    (∀ sb d, e.instr = .tzero sb d → done_ (filled d 0) 0) ∧
    (∀ sb d b, e.instr = .tfill sb d b → done_ (filled d c) 0) ∧
    (∀ sb d a b fa fb, e.instr = .tmma sb d a b → MmOk s x wh d a b fa fb →
      done_ (only d fun y => ProductOf (tileOf wh d) (tileOf wh a) (tileOf wh b) y fa fb (ctlCols (tileOf wh a).control)
        0 (ctlCols (tileOf wh a).control)) 1) ∧
    (∀ sb d a b, e.instr = .tmma sb d a b ∨ e.instr = .tmmb sb d a b → ctlCfg (tileOf wh d).control = false →
      ∃ t y, exec (.matrixInstructionComplete core ctx) s = .next t ∧
        t = { s with trains := t.trains, matrix := AMap.erase s.matrix k } ∧ AMap.get? t.trains e.train = some y ∧
        Deferred_ x y k 0x03 none) ∧
    (∀ sb d b, e.instr = .wsinfo sb d b → (e.cap.a.at 0).toNat < 64 → ∃ t y,
      exec (.matrixInstructionComplete core ctx) s = .next t ∧ t = { s with trains := t.trains, matrix := AMap.erase s.matrix k } ∧
      AMap.get? t.trains e.train = some y ∧ Completed x y k ∧
      ∀ n, y.sreg n = if d.nowb = false ∧ d.scalar = true ∧ n = d.idx.toNat then wsinfoVal s (e.cap.a.at 0).toNat else x.sreg n)) ∧
  ∀ (s : State) (core ctx k : Nat) (e : EngineOp) (x : Train) (wh : Wheel) (sb : Sb) (d a b : BitVec 3) (p : Src) (fa fb : Slot)
    (hi : Nat),
    mxHead s core ctx = some (k, e) → e.id = k → AMap.get? s.trains e.train = some x → AMap.get? s.wheels x.wheel = some wh →
    ctx < 16 → e.instr = .tloop sb d a b p → MmOk s x wh d a b fa fb →
    let w (i : Nat) : Nat := e.words.getD i 0
    let n := ctlCols (tileOf wh a).control
    let ra := ctlRows (tileOf wh a).control
    let rb := ctlRows (tileOf wh b).control
    (e.step = 0 → e.pos = 0 → LoopOk e (localSize s x) ra rb n fa fb) →
    NextBound fa.elem.group (s.core wh.core).split n e.pos hi →
    ∃ t wh' y, exec (.loopSequencerStep core ctx) s = .next t ∧
      t = { s with trains := t.trains, wheels := t.wheels, ctxs := t.ctxs, matrix := t.matrix } ∧ OnlyTrain s t e.train ∧
      AMap.get? t.wheels x.wheel = some wh' ∧ wh' = { wh with tiles := wh'.tiles } ∧
      AMap.get? t.trains e.train = some y ∧
      (e.pos = 0 → LoadedRows wh.local_ (w 0 + e.step * w 2) (w 1) (fa.elem.bits * n) ra (tileOf wh' a) ∧
        LoadedRows wh.local_ (w 3 + e.step * w 5) (w 4) (fb.elem.bits * n) rb (tileOf wh' b)) ∧
      (e.pos ≠ 0 → tileOf wh' a = tileOf wh a ∧ tileOf wh' b = tileOf wh b) ∧
      ProductOf (tileOf wh d) (tileOf wh' a) (tileOf wh' b) (tileOf wh' d) fa fb n e.pos (hi - e.pos) ∧
      (t.ctx ctx).mxstep = (s.ctx ctx).mxstep + (if hi = n then 1 else 0) ∧
      (hi < n → t.matrix = AMap.set s.matrix k { e with pos := hi } ∧ t.trains = s.trains) ∧
      (hi = n → e.step + 1 < w 6 → t.matrix = AMap.set s.matrix k { e with step := e.step + 1, pos := 0 } ∧ t.trains = s.trains) ∧
      (hi = n → w 6 ≤ e.step + 1 → t.matrix = AMap.erase s.matrix k ∧ Completed x y k)

/-! ## Registers of the management space -/

/-- R159, R162, R341, R342, R344, R364, R365, R367, R373, R374, R378, R379: the register events. A register takes its value in its range; a write of no effect, or one ignored, changes no more than the rule says; a context's block is written only while no train of the context is resident, and the first write to a number that stands saved creates a context there, stopped while a thermal stop lasts (R379); a kick is taken in its window and counted as ignored outside it, and ignored for a host that is gone; enabling a ring reads its record, zeroes H, KT and the HEAD word (which stays due while its granule is locked) and moves the submission count to the next multiple of 2^32, and a record that breaks the table leaves EN clear. What a value outside the table's writes is the model's free value (log entry 14). The model's readings it rests on: log entries 44 and 74. -/
def Obligations.RegisterWrites : Prop := ∀ s : State,
  (∀ v : DWord, exec (.mgPlimitWrite v) s =
    .next { s with mg := { s.mg with plimit := BitVec.ofNat 16 (max 300 (min (v.toNat % 65536) 2600)) } }) ∧
  (KeysRise s.cores → ∃ t, exec .mgClkrstGo s = .next t ∧ t = { s with cores := t.cores } ∧
    ∀ k, AMap.get? t.cores k = (AMap.get? s.cores k).map fun c => { c with cycles := 0 }) ∧
  exec .hostwrClear s = .next (s.upd (.mg { s.mg with hostwr := false })) ∧
  exec .badwrClear s = .next (s.upd (.mg { s.mg with badwr := false })) ∧
  (∀ off v, exec (.registerWrite off v) s = .next s ∧
    exec (.hostWriteIgnored off v) s = .next (s.upd (.mg { s.mg with hostwr := true }))) ∧
  (∀ c v, exec (.fbHeadWrite c v) s = .next (if ((s.ctx c).fbTail - v).toNat ≤ 8 then
      s.upd (.ctx c { s.ctx c with fbHead := v }) else s) ∧
    exec (.fbStatusDroppedClear c) s = .next (s.upd (.ctx c { s.ctx c with fbDropped := false, fbDrops := 0 }))) ∧
  (∀ v, exec (.chimeHeadWrite v) s = .next (if (s.chime.tail - v).toNat ≤ 64 then s.upd (.chime { s.chime with head := v }) else s)) ∧
  exec .chimeOverflowClear s = .next (s.upd (.chime { s.chime with overflow := false, drops := 0 })) ∧
  (∀ c k v, c < 16 →
    (s.residentIn c = true → exec (.contextRegisterWrite c k v) s = .next (s.upd (.mg { s.mg with badwr := true }))) ∧
    (s.residentIn c = false → k ∉ blockNumbers → (s.ctx c).saved = false → exec (.contextRegisterWrite c k v) s = .next s) ∧
    (s.residentIn c = false → k ∈ blockNumbers ∨ (s.ctx c).saved = true → KeysRise s.hpt → ∃ w t, BlockLegal k w ∧ (BlockLegal k v → w = v) ∧
      exec (.contextRegisterWrite c k v) s = .next t ∧
      t = { s with free := t.free, hpt := t.hpt, images := t.images, mg := t.mg, ctxs := (s.upd (.ctx c (blockWritten (blockContext s c) k w))).ctxs } ∧
      ((s.ctx c).saved = false → t.mg = s.mg) ∧
      ((s.ctx c).saved = true → t.mg = ({ s.mg with hold := s.mg.hold.map fun m => m ||| BitVec.ofNat 16 (2 ^ c) } : Mg).norm) ∧
      ((s.ctx c).saved = false ∨ (s.ctx c).replayHeld = false → t.images = s.images) ∧
      ∀ d, AMap.getD t.hpt d [] = (AMap.getD s.hpt d []).filter fun e =>
        !((k == 0x0D || k == 0x10) && e.tag == (blockContext s c).xtag) && !(k == 0x0D && e.tag == v.setWidth 16) &&
          !((s.ctx c).saved && (e.tag == (s.ctx c).xtag || e.tag == 0)))) ∧
  (∀ k v, exec (.ringRecWrite k v) s =
    .next (s.upd (.ring k (if ringEn (s.ring k).ctl then s.ring k else { s.ring k with recVa := v })))) ∧
  (∀ k host, exec (.ringStatusWrite k host) s =
    .next (if host = true ∧ ringCrown (s.ring k).ctl = true then s.upd (.mg { s.mg with hostwr := true })
      else s.upd (.ring k { s.ring k with ignored := 0, errcount := 0, loglost := false }))) ∧
  (∀ k v host,
    if host = true ∧ ringCrown (s.ring k).ctl = true then exec (.ringKick k v host) s = .next (s.upd (.mg { s.mg with hostwr := true }))
    else if ringEn (s.ring k).ctl = false ∨ s.ringGone k = true then exec (.ringKick k v host) s = .next s
    else ∃ y, KickOf (s.ring k) v y ∧ exec (.ringKick k v host) s = .next (s.upd (.ring k y))) ∧
  ∀ k (v : Word), k < 64 →
    let g := s.ring k
    (s.mg.svc = 5 → exec (.ringEnable k v) s = .next (s.upd (.ring k { g with ctl := (v &&& 0xF2) ||| (g.ctl &&& 1) }))) ∧
    (s.mg.svc ≠ 5 → v.getLsbD 0 = false ∨ ringEn g.ctl = true →
      exec (.ringEnable k v) s = .next (s.upd (.ring k { g with ctl := v &&& 0xF3 }))) ∧
    (s.mg.svc ≠ 5 → v.getLsbD 0 = true → ringEn g.ctl = false →
      (g.recVa.toNat % 64 ≠ 0 → exec (.ringEnable k v) s = .next (s.upd (.ring k { g with ctl := v &&& 0xF2 }))) ∧
      ∀ P, g.recVa.toNat % 64 = 0 → ServiceRange s (ringCtx v) kRead g.recVa.toNat P 64 →
        (¬RingRecOk s.mem P → ∃ t, exec (.ringEnable k v) s = .next t ∧ t.mem = s.mem ∧
          t.rings.toList = s.rings.toList.set k { g with ctl := v &&& 0xF2 }) ∧
        ∀ H, RingRecOk s.mem P → ServiceRange s (ringCtx v) kWrite (ringRecAt s.mem P).head H 8 →
          ∃ t, exec (.ringEnable k v) s = .next t ∧
            (∀ b, Bytes.get t.mem b = if lockedBytes s.locks H 8 = false ∧ H ≤ b ∧ b < H + 8 then 0 else Bytes.get s.mem b) ∧
            t.nodes = s.nodes ∧ t.dispatches = s.dispatches ∧
            t.rings.toList = s.rings.toList.set k { g with
              ctl := v &&& 0xF3, h := 0, kt := 0, rec_ := ringRecAt s.mem P, held := false, waitNs := 0
              headDue := lockedBytes s.locks H 8
              c := if g.c = 0 then 0 else (g.c / 2 ^ 32 + 1) * 2 ^ 32 % 2 ^ 58 })

/-! ## Translation events -/

/-- R149, R150, R152, R155, R156, R158, R160 to R162, R167: WALK_START gives a free walker to the oldest request, holding a context to 128 walkers while another's request waits; WALK_COMPLETE caches a legal leaf for every waiter whose right it has and sets A, and D for a write, and reports one fault for the waiters it serves not, in the name of the first, which each waiting train learns; FB_REPLAY_GO is held while the context is saved or a replay lasts, else clears the marks and lets every parked train, held query, job, node and ring go on; CHIME_NOTIFICATION merges, appends or counts an overflow. The model's readings it rests on: log entry 5. -/
def Obligations.TranslationEvents : Prop :=
  (∀ (s : State) (k : Nat) (w : Walk), AMap.get? s.walks k = some w → w.running = false → KeysRise s.walks →
    let running (P : Walk → Bool) : Nat := (s.walks.filter fun x => x.2.die == w.die && x.2.running && P x.2).length
    (running (fun _ => true) < 256 → running (fun x => x.ctx == w.ctx) < 128 →
      (∀ j x, AMap.get? s.walks j = some x → x.die = w.die → x.running = false → k ≤ j) →
      exec (.walkStart k) s = .next (s.upd (.walk k (some { w with running := true })))) ∧
    (256 ≤ running (fun _ => true) → exec (.walkStart k) s = .next s) ∧
    (128 ≤ running (fun x => x.ctx == w.ctx) → (∃ j x, AMap.get? s.walks j = some x ∧ x.die = w.die ∧ x.running = false ∧ x.ctx ≠ w.ctx) →
      exec (.walkStart k) s = .next s)) ∧
  (∀ (s : State) (k : Nat) (w : Walk), AMap.get? s.walks k = some w → w.ctx < 16 → KeysRise s.trains → KeysRise s.walks →
    w.page % 65536 = 0 →
    let meets := WalkMeets s.mem (s.ctx w.ctx).ptbase.toNat w.page
    let faults (bad : List Waiter) (present malformed : Bool) (t : State) : Prop := ∀ id x, AMap.get? s.trains id = some x → x.Ok →
      ∃ x', AMap.get? t.trains id = some x' ∧
        x'.xl = x.xl ++ (bad.filter fun y => y.train == id && y.stays).map fun y => ⟨w.page, present, malformed, y.lanes⟩
    let ends (present malformed : Bool) : Prop := ∃ t, exec (.walkComplete k) s = .next t ∧ t.mem = s.mem ∧
      t.walks = AMap.erase s.walks k ∧ faults w.waiters present malformed t ∧
      (∀ id x, AMap.get? s.trains id = some x → x.Ok → ∃ x', AMap.get? t.trains id = some x' ∧
        x' = { x with xl := x'.xl, lastPage := x'.lastPage } ∧
        ∀ L, L < 32 → (present = true → (∃ y ∈ w.waiters, y.train = id ∧ y.lanes.getLsbD L = true) →
            x'.lastPage.at L = (x.lastPage.at L).filter fun e => !e.covers (s.tagOf w.ctx) w.page) ∧
          (present = false ∨ (∀ y ∈ w.waiters, y.train = id → y.lanes.getLsbD L = false) → x'.lastPage.at L = x.lastPage.at L)) ∧
      let rs := w.waiters.filter fun y => y.kind != 0
      (rs ≠ [] → rs.length < 2 ^ 32 → w.page < 2 ^ 55 → ⟨w.cluster, w.ctx, w.page⟩ ∉ s.marks → NoEntry (s.ctx w.ctx) w.page →
        t.marks = s.marks ++ [⟨w.cluster, w.ctx, w.page⟩] ∧ (t.ctx w.ctx).fbSeq = (s.ctx w.ctx).fbSeq + 1 ∧
        if ((s.ctx w.ctx).fbTail - (s.ctx w.ctx).fbHead).toNat = 8 then
          (t.ctx w.ctx).fb = (s.ctx w.ctx).fb ∧ (t.ctx w.ctx).fbTail = (s.ctx w.ctx).fbTail ∧ (t.ctx w.ctx).fbDropped = true
        else (t.ctx w.ctx).fbTail = (s.ctx w.ctx).fbTail + 1 ∧
          ∃ e, (t.ctx w.ctx).fb = AMap.set (s.ctx w.ctx).fb ((s.ctx w.ctx).fbTail.toNat % 8) e ∧ e.page.toNat = w.page ∧
            (∀ i, i < 8 → (e.kind.getLsbD i = true ↔ ∃ y ∈ rs, y.kind.getLsbD i = true)) ∧ e.count.toNat = rs.length ∧
            (∀ y, rs.head? = some y → e.core = BitVec.ofNat 16 y.core ∧ e.dispatch = BitVec.ofNat 32 y.dispatch ∧
              e.wheel = BitVec.ofNat 32 y.wheel ∧ e.train = BitVec.ofNat 8 y.index) ∧
            e.seq = (s.ctx w.ctx).fbSeq + 1)
    (w.running = false → exec (.walkComplete k) s = .next s) ∧
    (w.running = true → meets .absent_ → ends false false) ∧
    (w.running = true → meets .malformed → ends false true) ∧
    ∀ (l : Leaf) (served : Waiter → Bool) (written : Bool), w.running = true → meets (.leaf l) →
      (∀ y, served y = true ↔ y.kind = kExec ∨ LeafRights l.e y.kind) →
      (written = true ↔ ∃ y ∈ w.waiters, served y = true ∧ y.kind.getLsbD 1 = true) →
      let e := l.e ||| 2 ^ 53 ||| (if written then 2 ^ 54 else 0)
      ((∀ y ∈ w.waiters, served y = false) → ends true false) ∧
      ((∃ y ∈ w.waiters, served y = true) → ∃ t, exec (.walkComplete k) s = .next t ∧ t.walks = AMap.erase s.walks k ∧
        faults (w.waiters.filter fun y => !served y) true false t ∧
        (∀ b, Bytes.get t.mem b = if l.at_ ≤ b ∧ b < l.at_ + 8 then BitVec.ofNat 8 (e / 256 ^ (b - l.at_)) else Bytes.get s.mem b) ∧
        ((∀ y ∈ w.waiters, served y = true) → ∀ y, y ∈ w.waiters →
          (∃ T, tlbFind (t.core y.core).tlb (s.tagOf w.ctx) w.page = some T ∧ GivesLeaf T e l.big w.page) ∧
          (∃ T, tlbFind (t.l2Of (s.clusterOf y.core)) (s.tagOf w.ctx) w.page = some T ∧ GivesLeaf T e l.big w.page) ∧
          (∃ T, tlbFind (t.l3Of (dieOf y.core)) (s.tagOf w.ctx) w.page = some T ∧ GivesLeaf T e l.big w.page) ∧
          (y.kind ≠ kExec → ∀ x L, AMap.get? s.trains y.train = some x → L < 32 → y.lanes.getLsbD L → ∃ x' T, AMap.get? t.trains y.train = some x' ∧
            x'.lastPage.at L = some T ∧ GivesLeaf T e l.big w.page)))) ∧
  (∀ (s : State) (c : Nat), c < 16 →
    (s.replayBusy c = true ∨ (s.ctx c).saved = true →
      exec (.fbReplayGo c) s = .next (s.upd (.ctx c { s.ctx c with replayHeld := true }))) ∧
    (s.replayBusy c = false → (s.ctx c).saved = false → KeysRise s.trains → KeysRise s.jobs → KeysRise s.nodes →
      ∃ t, exec (.fbReplayGo c) s = .next t ∧ t.mem = s.mem ∧ t.marks = s.marks.filter (fun m => m.ctx != c) ∧
        (t.ctx c).replayHeld = false ∧
        (∀ id, id ∈ (t.ctx c).replaying ↔ ∃ x, AMap.get? s.trains id = some x ∧ s.ctxOf x = c ∧ ReplayWaits x = true) ∧
        (∀ id x, AMap.get? s.trains id = some x → x.Ok → s.ctxOf x = c → AMap.get? t.trains id = some { x with
          park := if ReplayWaits x then x.park.map fun p => { p with faulted := false, resume := 0 } else x.park
          xl := if ReplayWaits x then [] else x.xl
          ray := x.ray.map fun q => { q with held := false } }) ∧
        (∀ k, k < 64 → t.ring k = if ringCtx (s.ring k).ctl = c then { s.ring k with held := false } else s.ring k) ∧
        (∀ id x, AMap.get? s.trains id = some x → s.ctxOf x ≠ c → AMap.get? t.trains id = some x) ∧
        (∀ k j, AMap.get? s.jobs k = some j → AMap.get? t.jobs k = some (if j.ctx = c then { j with held := false } else j)) ∧
        ∀ k n, AMap.get? s.nodes k = some n → AMap.get? t.nodes k = some (if n.ctx = c then { n with held := false } else n))) ∧
  ∀ (s : State) (d : Nat) (tag : Half) (page : DWord) (l r : List (Nat × Half × DWord)), s.chime.coming = l ++ (d, tag, page) :: r →
    (∀ n ∈ l, n.1 ≠ d) → d < 8 →
    let x := { s.chime with coming := l ++ r }
    (∀ i e, ChimeAt s.chime tag page i e → exec (.chimeNotification d) s = .next (s.upd (.chime { x with
      slots := AMap.set x.slots i { e with
        dies := e.dies ||| BitVec.ofNat 8 (2 ^ d)
        thresholds := if e.thresholds = 0xFFFFFFFF then e.thresholds else e.thresholds + 1 } }))) ∧
    ((∀ i e, ¬ChimeAt s.chime tag page i e) → exec (.chimeNotification d) s = .next (s.upd (.chime (
      if (x.tail - x.head).toNat = 64 then { x with overflow := true, drops := min (x.drops + 1) 65535 }
      else { x with
        slots := AMap.set x.slots (x.tail.toNat % 64) { page := page, tag := tag, dies := BitVec.ofNat 8 (2 ^ d), thresholds := 1 }
        tail := x.tail + 1 }))))

/-! ## The schedule, time and failures of hardware -/

/-- R43 to R45, R47, R69, R204: a free port takes the best of its core's ready trains, and opens the clause of one that stands at a header, COUNT + 1 words after it, which restarts the Regulator's count of its context; a train whose clause would enter a full engine queue is not ready. A header that does not decode raises E_ILL_CLAUSE there, a header of class Z outside privilege E_PRIV; with no ready train the port stays empty; a port inside a clause keeps its train. A clause that resumes inside takes an earlier deferred trap before its word where that waits for the trapped instruction's destination (R204, log entry 80). READY_WAIT_LIMIT marks a core while a ready train has waited 4,096 cycles. -/
def Obligations.PortChoices : Prop := ∀ (s : State) (core port : Nat),
  (portBusy s (portAt (s.core core) port) = true → exec (.escapementChoose core port) s = .next s) ∧
  (portBusy s (portAt (s.core core) port) = false → KeysRise s.trains → (∀ id, ¬MayTake s core port id) →
    (∀ h x, portAt (s.core core) port = some h → AMap.get? s.trains h = some x → trainReady s h x = false) →
    ∃ t, exec (.escapementChoose core port) s = .next t ∧ t = { s with cores := t.cores } ∧
      portAt (t.core core) port = none ∧ portAt (t.core core) (port + 1) = portAt (s.core core) (port + 1)) ∧
  (∀ id x, portAt (s.core core) port = none → KeysRise s.trains → MayTake s core port id → AMap.get? s.trains id = some x →
    (∀ j y, j ≠ id → MayTake s core port j → AMap.get? s.trains j = some y → Outranks s x y) →
    let opens (restart : Bool) (P : Train → Prop) : Prop := ∃ t y, exec (.escapementChoose core port) s = .next t ∧
      t = { s with cores := t.cores, trains := t.trains, ctxs := t.ctxs } ∧ OnlyTrain s t id ∧ portAt (t.core core) port = some id ∧
      portAt (t.core core) (port + 1) = portAt (s.core core) (port + 1) ∧ AMap.get? t.trains id = some y ∧ P y ∧
      ∀ d, d < 16 → (s.ctx d).norm = s.ctx d →
        t.ctx d = if restart = true ∧ d = s.ctxOf x then { s.ctx d with regulator := 0 } else s.ctx d
    (∀ c, x.clause = some c → opens false (· = x)) ∧
    ∀ w, x.clause = none → x.xl = [] → Fetched s x x.pc.toNat w →
      (decodeHeader w = none → Enters s x →
        opens false (· = (entered x (headerPoint x (x.pc + BitVec.ofNat 64 (8 * ((w.extractLsb' 56 4).toNat + 2)))) 0x01 x.em w (vectorOf s x)).norm)) ∧
      ∀ h, decodeHeader w = some h →
        (h.cls = .Z → s.privOf x = false → Enters s x →
          opens false (· = (entered x (headerPoint x (x.pc + BitVec.ofNat 64 (8 * ((w.extractLsb' 56 4).toNat + 2)))) 0x18 x.em w (vectorOf s x)).norm)) ∧
        ∀ ws : List DWord, (h.cls = .Z → s.privOf x = true) → ws.length = h.count + 1 →
          (∀ i, i < ws.length → Fetched s x (x.pc.toNat + 8 * (i + 1)) (ws.getD i 0)) →
          (∀ i : BitVec 3, h.waitsb.getLsbD i.toNat = true → x.sbCount i = 0) → x.inflight = [] → ¬QueueHolds s x h ws →
          (x.resume = none → opens true (· = ({ x with
            clause := some { hdr := x.pc, word := w, words := ws, idx := 0, latches := [], resumed := false }
            pc := x.pc + 8, yielded := false, readyAge := 0, park := none }).norm)) ∧
          ∀ k, k < ws.length → x.resume = some (x.pc + BitVec.ofNat 64 (8 * (k + 1))) → opens true (· = ({ x with
            clause := some { hdr := x.pc, word := w, words := ws, idx := k, latches := [], resumed := true }
            pc := x.pc + BitVec.ofNat 64 (8 * (k + 1)), yielded := false, readyAge := 0, park := none, resume := none
            deferred := x.deferred.map (Deferred.at_ · { hdr := x.pc, word := w, words := ws, idx := k, latches := [], resumed := true }) }).norm)) ∧
  (∀ id x w h ws, AMap.get? s.trains id = some x → x.clause = none → x.xl = [] → x.resume = none → Fetched s x x.pc.toNat w →
    decodeHeader w = some h → (h.cls = .Z → s.privOf x = true) → ws.length = h.count + 1 →
    (∀ i, i < ws.length → Fetched s x (x.pc.toNat + 8 * (i + 1)) (ws.getD i 0)) → QueueHolds s x h ws → ¬MayTake s core port id) ∧
  ∃ b : Bool, (b = true ↔ ∃ id x, (id, x) ∈ s.trains ∧ s.coreOf x = core ∧ 4096 ≤ x.readyAge ∧ trainReady s id x = true) ∧
    exec (.readyWaitLimit core) s = .next (s.upd (.core core { s.core core with urgent := b }))

/-- R71 to R73, R75, R76, R126, R204, R227, R238, R298, R302, R345: DEFERRED_TRAP enters the handler at the boundary the train stands at, or before the waiting instruction for a trap that comes early, and not while the bracket's `txend` is on its way (R227); E_HANG takes the longest waiting watched train once the context's count reaches its limit, ends its wait and restarts the count; E_ECC traps at the word or is deferred; E_TENANT, TENANT_SPLIT and the end of a refresh window; CLOCK_TICK moves the core's clock and CLOCK, ages its trains that are ready and do not issue, and counts for the Regulator while every resident train of a context waits. The model's readings it rests on: log entries 51, 52, 55, 65 and 72. -/
def Obligations.TimedEvents : Prop :=
  (∀ (s : State) (id : Nat) (x : Train), AMap.get? s.trains id = some x → x.ending = false →
    (x.deferred = [] → exec (.deferredTrap id) s = .next s) ∧
    (x.tx.ending ≠ none → exec (.deferredTrap id) s = .next s) ∧
    (∀ d l, x.deferred = d :: l → d.inTm = false → d.cause ≠ 0x13 → x.resume = none → x.tx.ending = none → Enters s x →
      let taken (at_ : TrapAt) : Prop := exec (.deferredTrap id) s = .next (s.upd (.train id (some (entered { x with deferred := l } at_
        d.cause (d.lanes.getD x.em) d.tval (vectorOf s x)))))
      (x.clause = none → taken (headerPoint x x.pc)) ∧
      ∀ c, x.clause = some c → (d.early = true → taken (pointOf c)) ∧ (d.early = false → exec (.deferredTrap id) s = .next s)) ∧
    ∀ w c, x.clause = some c → Enters s x →
      exec (.eEcc id w none) s = .next (s.upd (.train id (some (entered x (pointOf c) 0x12 x.em w (vectorOf s x)))))) ∧
  (∀ (s : State) (id k : Nat) (x : Train) (e : EngineOp) (w : DWord), AMap.get? s.trains id = some x →
    AMap.get? s.jobs k = none → AMap.get? s.esu k = some e → e.train = id →
    ∃ t y d, exec (.eEcc id w (some k)) s = .next t ∧ t = { s with trains := t.trains, esu := AMap.erase s.esu k } ∧
      OnlyTrain s t id ∧ AMap.get? t.trains id = some y ∧ Completed x y k ∧ y.s = x.s ∧ y.v = x.v ∧ d ∈ y.deferred ∧
      d.order = k ∧ d.cause = 0x12 ∧ d.tval = w) ∧
  (∀ (s : State) (c id : Nat) (x : Train) (w : Wait) (lim : Nat), c < 16 → s.ctxOf x = c → AMap.get? s.trains id = some x →
    KeysRise s.trains → Waits x w → w.age < 2 ^ 64 → hangOf s x = some lim → lim ≤ (s.ctx c).regulator → x.Ok → Enters s x →
    s.locks = [] → walkersBusy s (dieOf 800) c = false →
    (∀ j y v, j ≠ id → AMap.get? s.trains j = some y → s.ctxOf y = c → hangOf s y ≠ none → Waits y v → v.age < w.age) →
    ∃ t y n, exec (.eHang c) s = .next t ∧ (t.ctx c).regulator = 0 ∧ AMap.get? t.trains id = some y ∧ y.wait = none ∧
      y.s = x.s ∧ y.v = x.v ∧ y.em = x.live ∧ y.pc = vectorOf s x &&& ~~~7#64 ∧ y.trap.tm = true ∧ y.trap.cause = 0x0F ∧
      y.trap.tval = BitVec.ofNat 64 n ∧ n ≤ 128 ∧ y.trap.tem = x.em ∧
      ∀ cl, x.clause = some cl → cl.idx < cl.words.length → y.trap.trappc = match w.on with
        | .barrier _ => cl.hdr + BitVec.ofNat 64 (8 * (cl.idx + 2))
        | _ => cl.hdr + BitVec.ofNat 64 (8 * (cl.idx + 1))) ∧
  (∀ (s : State) (c : Nat), (∀ id x, AMap.get? s.trains id = some x → s.ctxOf x = c → hangOf s x = none) → KeysRise s.trains →
    exec (.eHang c) s = .next s) ∧
  (∀ (s : State) (core ctx : Nat), ((s.core core).split = false → exec (.eTenant core ctx) s = .next s) ∧
    ((s.core core).split = true → KeysRise s.matrix → KeysRise s.wheels →
      ∃ t, exec (.eTenant core ctx) s = .next t ∧ t.mem = s.mem ∧
        (∀ k e, AMap.get? s.matrix k = some e → ¬OnMatrix s core ctx e → AMap.get? t.matrix k = some e) ∧
        ∀ k e x wh, AMap.get? s.matrix k = some e → OnMatrix s core ctx e → AMap.get? s.trains e.train = some x →
          AMap.get? s.wheels x.wheel = some wh → AMap.get? t.matrix k = none ∧
          (∃ y d, AMap.get? t.trains e.train = some y ∧ d ∈ y.deferred ∧ d.order = k ∧ d.cause = 0x16) ∧
          ∃ wh', AMap.get? t.wheels x.wheel = some wh' ∧ ∀ i : BitVec 3, (∀ a, Bytes.get (tileOf wh' i).data a = 0) ∧
            (tileOf wh' i).tscale = 0 ∧ ∀ k, k < 256 → AMap.get? (tileOf wh' i).scales k = some 0)) ∧
  (∀ (s : State) (core : Nat), ∃ b : Bool, exec (.tenantSplit core) s = .next (s.upd (.core core { s.core core with split := b })) ∧
    (b = true ↔ ∃ w v d f, w ∈ s.wheels ∧ v ∈ s.wheels ∧ w.2.core = core ∧ v.2.core = core ∧
      AMap.get? s.dispatches w.2.dispatch = some d ∧ AMap.get? s.dispatches v.2.dispatch = some f ∧ d.launch.tiles ≠ 0 ∧
      f.launch.tiles ≠ 0 ∧ d.ctx ≠ f.ctx)) ∧
  (∀ (s : State) (k : Nat), k < 64 → ∃ n, exec (.refreshWindowEnd k) s = .next (if n = s.mg.refreshNs then s else s.upd (.mg { s.mg with refreshNs := n })) ∧
    s.mg.refreshNs ≤ n ∧ n < s.mg.refreshNs + 501 ∧ 500 ≤ (n + 64000 - 1000 * k) % 64000) ∧
  ∀ (s : State) (core cycles ticks ns : Nat), KeysRise s.trains → (∀ id x, AMap.get? s.trains id = some x → x.Ok) →
    let c := s.core core
    ∃ t, exec (.clockTick core cycles ticks ns) s = .next t ∧ t.mem = s.mem ∧
      t = { s with trains := t.trains, ctxs := t.ctxs, cores := t.cores, mg := t.mg, rings := t.rings } ∧
      t.cores = AMap.set s.cores core { c with
        clock := c.clock + max ticks ((c.owed + cycles) / 64), cycles := c.cycles + BitVec.ofNat 64 cycles
        owed := if (c.owed + cycles) / 64 < max ticks ((c.owed + cycles) / 64) then 0 else (c.owed + cycles) % 64 } ∧
      (t.mg.refreshNs = s.mg.refreshNs + ns) ∧
      (∀ k, k < 64 → (RingTakes s k → (s.ring k).stuck = false → (t.ring k).waitNs = (s.ring k).waitNs + ns) ∧
        (¬RingTakes s k ∨ (s.ring k).stuck = true → t.ring k = s.ring k)) ∧
      (∀ id x, AMap.get? s.trains id = some x → s.coreOf x ≠ core → AMap.get? t.trains id = some x) ∧
      (∀ id x, AMap.get? s.trains id = some x → s.coreOf x = core → AMap.get? t.trains id = some { x with
        readyAge := if trainReady s id x = true ∧ (x.clause = none ∨ portAt c 0 ≠ some id ∧ portAt c 1 ≠ some id)
          then x.readyAge + cycles else x.readyAge
        wait := x.wait.map fun w => if w.woken = true then w else { w with age := w.age + cycles } }) ∧
      ∀ k, k < 16 → (∃ id x, AMap.get? s.trains id = some x ∧ s.ctxOf x = k ∧ s.coreOf x = core) →
        (∀ id x, AMap.get? s.trains id = some x → s.ctxOf x = k → core ≤ s.coreOf x) →
        ((∃ id x, AMap.get? s.trains id = some x ∧ s.ctxOf x = k ∧ ∀ w, ¬Waits x w) → (t.ctx k).regulator = (s.ctx k).regulator) ∧
        ((∀ id x, AMap.get? s.trains id = some x → s.ctxOf x = k → ∃ w, Waits x w) →
          (t.ctx k).regulator ≤ (s.ctx k).regulator + cycles ∧
          (∀ id x w, AMap.get? t.trains id = some x → s.ctxOf x = k → Waits x w → (t.ctx k).regulator ≤ w.age) ∧
          ((t.ctx k).regulator = (s.ctx k).regulator + cycles ∨
            ∃ id x w, AMap.get? t.trains id = some x ∧ s.ctxOf x = k ∧ Waits x w ∧ (t.ctx k).regulator = w.age))

/-! ## The life of wheels, trains and contexts -/

/-- R61 to R63, R66, R70, R75, R84, R181, R182: WHEEL_ADMIT starts the next wheel of a dispatch on a core with room for it, each train at the entry with every register zero; a query-domain wheel runs over its chunk, em from the occupancy; a wheel whose turn it is not, or whose dispatch has failed, does not start. TRAIN_END removes a drained train whose LIVE is zero, its wheel with the last train, and counts the wheel for its dispatch; jobs of the wheel that have started move to their end first; a train of a failed dispatch ends at its clause boundary, or where it waits for what may never come (log entry 77), once its accesses are performed, its queued work discarded; any other train goes on. The model's readings it rests on: log entries 7, 43, 64 and 77. -/
def Obligations.WheelsStartAndEnd : Prop :=
  (∀ (s : State) (k w core : Nat) (d : Dispatch), AMap.get? s.dispatches k = some d →
   (d.failed ≠ none ∨ d.wheels ≤ w ∨ w ∈ d.started ∨ (s.ctx d.ctx).stopped = true ∨ (s.ctx d.ctx).preempt = true →
     exec (.wheelAdmit k w core) s = .next s) ∧
   (Admits s d w core → d.launch.query = false → d.launch.trains ≤ 16 →
     ∃ t, exec (.wheelAdmit k w core) s = .next t ∧ WheelStarted s t k d w core none fun _ => 0xFFFFFFFF) ∧
   ∀ c occ r, Admits s d w core → d.launch.query = true → d.launch.trains ≤ 16 →
     chunkStart d.eu d (d.chunks.getD w 0) (⟨s, .refl⟩ : Run s) = .ok ((c, occ), r) →
     ∃ t, exec (.wheelAdmit k w core) s = .next t ∧
       WheelStarted r.1 t k d w core (some c) fun i => BitVec.ofNat 32 (occ / 2 ^ (32 * i))) ∧
  (∀ (s : State) (id : Nat) (x : Train) (w : Wheel) (d : Dispatch),
   AMap.get? s.trains id = some x → AMap.get? s.wheels x.wheel = some w → AMap.get? s.dispatches w.dispatch = some d →
   KeysRise s.trains →
   let last := ∀ j y, AMap.get? s.trains j = some y → j ≠ id → y.wheel ≠ x.wheel
   let covered := max d.wts (max x.wtsMax (s.core (s.coreOf x)).clock)
   let moving := ∃ k j, (k, j) ∈ s.jobs ∧ j.wheel = some x.wheel ∧ j.started = true
   (d.failed = none → x.ending = false → exec (.trainEnd id) s = .next s) ∧
   (d.failed = none → x.ending = true → Drained s id x → last → moving → exec (.trainEnd id) s = .next s) ∧
   (d.failed = none → x.ending = true → Drained s id x → x.tx.on = false → x.tx.opened = 0 → NoToken s id x →
     (¬last → exec (.trainEnd id) s = .next { s with
       trains := AMap.erase s.trains id, tlbis := s.tlbis.filter fun i => i.train != id
       dispatches := AMap.set s.dispatches w.dispatch { d with wts := covered } }) ∧
     (last → (∀ k j, (k, j) ∈ s.jobs → j.wheel ≠ some x.wheel) → RingsRest s w → exec (.trainEnd id) s = .next { s with
       trains := AMap.erase s.trains id, wheels := AMap.erase s.wheels x.wheel, tlbis := s.tlbis.filter fun i => i.train != id
       dispatches := AMap.set s.dispatches w.dispatch { d with wts := covered, ended := d.ended + 1 } })) ∧
   (d.failed ≠ none → x.clause = none ∨ x.waiting = true ∨ (∃ p, x.park = some p ∧ p.faulted = true ∧ p.resume = 0) ∨ x.tokenWait = true →
     (∀ q, x.ray = some q → q.opened = false) → x.fifo = [] → x.loads = [] → (∀ v ∈ (s.core (s.coreOf x)).writes, v.train ≠ id) →
     (last → ¬moving) → ∃ t, exec (.trainEnd id) s = .next t ∧ t.trains = AMap.erase s.trains id ∧ t.mem = s.mem ∧ NoOps t.esu id ∧
       NoOps t.matrix id ∧ NoOps t.stream id ∧ NoOps t.ray id ∧ (last → AMap.get? t.wheels x.wheel = none) ∧
       (¬last → t.wheels = s.wheels)))

/-- R78, R79, R241, R365, R379: PREEMPT_REQUEST asks each context to stop; PREEMPT_STOP stops a train whose accesses are performed and that stands between clauses or waits, keeping its registers, place and scoreboards, its watch lost, its query's unfinished lanes begun again and its open lanes aborted with the pre-emption cause, and the context is stopped with its last train; CONTEXT_RESUME lets stopped contexts go on, but those saved; under a thermal stop they go on with its end. The model's readings it rests on: log entries 53, 54 and 73. -/
def Obligations.Preemption : Prop :=
  (∀ (s : State) (mask : BitVec 16), ∃ t, exec (.preemptRequest mask) s = .next t ∧ t = { s with ctxs := t.ctxs, mg := t.mg } ∧
    t.mg.hold = s.mg.hold.map (fun m => m &&& ~~~mask) ∧ ∀ c, c < 16 → (mask.getLsbD c = true ∧ (s.ctx c).stopped = false → StopAsked s c (t.ctx c)) ∧
      (mask.getLsbD c = false ∨ (s.ctx c).stopped = true → t.ctx c = s.ctx c)) ∧
  (∀ (s : State) (id : Nat) (x : Train), AMap.get? s.trains id = some x → s.ctxOf x < 16 → KeysRise s.trains → x.Ok →
    let c := s.ctxOf x
    ((s.ctx c).preempt = false ∨ x.stopped = true ∨ x.ending = true ∨ x.fifo ≠ [] ∨ x.loads ≠ [] ∨ ¬StopPoint s id x →
      exec (.preemptStop id) s = .next s) ∧
    ((s.ctx c).preempt = true → x.stopped = false → x.ending = false → x.deferred = [] → x.fifo = [] → x.loads = [] →
      (∀ w ∈ (s.core (s.coreOf x)).writes, w.train ≠ id) → x.tx.ending = none → (x.tx.on = false → x.tx.opened = 0) →
      (∀ w ∈ s.walks, ∀ u ∈ w.2.waiters, u.train ≠ id) → x.xl = [] → StopPoint s id x →
      ∃ t y, exec (.preemptStop id) s = .next t ∧ t.mem = s.mem ∧ OnlyTrain s t id ∧ AMap.get? t.trains id = some y ∧
        y.stopped = true ∧ y.s = x.s ∧ y.v = x.v ∧ y.p = x.p ∧ y.pc = x.pc ∧ y.live = x.live ∧ y.clause = x.clause ∧ y.trap = x.trap ∧
        y.sb = x.sb ∧ y.inflight = x.inflight ∧ y.park = x.park ∧ (∀ v, y.watch = some v → v.lost = true) ∧ y.tokenWait = false ∧
        y.wait = x.wait.map (fun w => match w.on with
          | .monitor | .token _ _ _ => { w with woken := true }
          | _ => w) ∧
        (∀ q, x.ray = some q → q.opened = true → ∃ q', y.ray = some q' ∧ q'.held = false ∧ ∀ L, L < 32 → q'.lanes.at L =
          match q.lanes.at L with
          | .done h k => .done h k
          | .outside => .outside
          | _ => .busy) ∧
        y.em = x.em &&& ~~~x.tx.opened ∧ y.tx.opened = 0 ∧ y.tx.fb = false ∧
        (∀ L, L < 32 → y.tx.cause.at L = if x.tx.opened.getLsbD L then 5 else x.tx.cause.at L) ∧
        (∀ h, (t.ctx c).token = some h → h.1 ≠ id) ∧ id ∉ (t.ctx c).tokenQueue ∧
        ((∀ j z, AMap.get? s.trains j = some z → s.ctxOf z = c → j ≠ id → z.stopped = true ∨ z.ending = true) →
          (t.ctx c).stopped = true ∧ (t.ctx c).preempt = false) ∧
        ((∃ j z, AMap.get? s.trains j = some z ∧ s.ctxOf z = c ∧ j ≠ id ∧ z.stopped = false ∧ z.ending = false) →
          (t.ctx c).stopped = (s.ctx c).stopped ∧ (t.ctx c).preempt = true))) ∧
  ∀ (s : State) (mask : BitVec 16), KeysRise s.trains → (∀ id x, AMap.get? s.trains id = some x → s.ctxOf x < 16) →
    let asked (c : Nat) : Prop := mask.getLsbD c = true ∧ (s.ctx c).stopped = true ∧ (s.ctx c).saved = false
    (s.mg.hold = none → ∃ t, exec (.contextResume mask) s = .next t ∧ t = { s with ctxs := t.ctxs, trains := t.trains } ∧
      Resumed s t asked) ∧
    ∀ m, s.mg.hold = some m → ∃ t m', exec (.contextResume mask) s = .next t ∧ t = { s with mg := t.mg } ∧ t.mg.hold = some m' ∧
      ∀ c, c < 16 → (m'.getLsbD c = true ↔ m.getLsbD c = true ∨ asked c)

/-! ## The Remontoir -/

/-- R345 to R350, R374: PACKET_ACCEPT reads the slot of packet H. A slot whose stamp is not the complement of H is left alone; with a match the packet becomes a node with the record's fields, footprint, cost and edges, in the order of acceptance, H and HEAD move on, and the submission key is the ring and its count; a record that breaks its table, or a WSLOAD whose launch is not privileged, of one wheel and of one train, makes a node that fails with E_NODE_FIELD, one that names a failed predecessor a node that fails with E_PRED_FAILED. The zero of HEAD that an enable still owes comes first. STUCK marks a ring whose slot has stayed unmatched for 64 µs. A ring that is not enabled or not kicked, that is held, whose host is gone, or whose window of 4,096 accepted incomplete nodes is full takes nothing. That the write of HEAD has a write time past the stamp's is the model's reading (log entry 63). The model's other readings it rests on: log entries 42, 43, 44 and 47. -/
def Obligations.PacketEvents : Prop := ∀ (s : State) (k : Nat), k < 64 →
  let r := s.ring k
  let c := ringCtx r.ctl
  (ringEn r.ctl = false ∨ r.held = true ∨ (r.headDue = false ∧ ¬RingTakes s k) → exec (.packetAccept k) s = .next s) ∧
  (¬RingTakes s k → exec (.stuck k) s = .next s) ∧
  (∀ H, ringEn r.ctl = true → r.held = false → r.headDue = true → ServiceRange s c kWrite r.rec_.head H 8 →
    (lockedBytes s.locks H 8 = true → exec (.packetAccept k) s = .next s) ∧
    (lockedBytes s.locks H 8 = false → ∃ t, exec (.packetAccept k) s = .next t ∧ t.nodes = s.nodes ∧
      t.rings.toList = s.rings.toList.set k { r with headDue := false } ∧
      ∀ b, Bytes.get t.mem b = if H ≤ b ∧ b < H + 8 then 0 else Bytes.get s.mem b)) ∧
  ∀ P, RingTakes s k → s.owners = [] → ServiceRange s c kRead (slotAt r) P 128 →
    (fieldAt s.mem P 0x7C 4 ≠ (~~~r.h).toNat →
      exec (.packetAccept k) s = .next s ∧
      exec (.stuck k) s = .next (if r.waitNs < 64000 then s else s.upd (.ring k { r with stuck := true }))) ∧
    (fieldAt s.mem P 0x7C 4 = (~~~r.h).toNat → exec (.stuck k) s = .next s ∧
      ∀ H, ServiceRange s c kWrite r.rec_.head H 8 → lockedBytes s.locks H 8 = false → KeysRise s.nodes →
        let takes (fps : List Fp) (cost : Nat) (idem : Bool) (cause : Byte) (w : Nat) (named : Nat → Prop) : Prop :=
          ∃ t edges, exec (.packetAccept k) s = .next t ∧
            (∀ b, Bytes.get t.mem b = if H ≤ b ∧ b < H + 8 then BitVec.ofNat 8 ((r.h + 1).toNat / 256 ^ (b - H)) else Bytes.get s.mem b) ∧
            (s.line P).wts < (t.line H).wts ∧
            t.rings.toList = s.rings.toList.set k { r with c := (r.c + 1) % 2 ^ 58, h := r.h + 1, stuck := false, waitNs := 0 } ∧
            t.nodes = AMap.set s.nodes (packetKey k r) (nodeAt s.mem P k c s.nextId fps edges cost idem cause (max w (s.line P).wts)) ∧
            ∀ j, j ∈ edges ↔ Follows s k (decide (fieldAt s.mem P 4 4 % 2 = 1)) fps j ∨ named j
        let none_ : Nat → Prop := fun _ => False
        (¬NodeRecOk s.mem P → takes [] 1 false 0x25 0 none_) ∧
        (NodeRecOk s.mem P → fieldAt s.mem P 3 1 = 0 → fieldAt s.mem P 2 1 = 0 → fieldAt s.mem P 0 1 = 6 → takes [] 1 false 0 0 none_) ∧
        (NodeRecOk s.mem P → fieldAt s.mem P 3 1 = 0 → fieldAt s.mem P 2 1 = 0 → fieldAt s.mem P 0 1 = 3 ∨ fieldAt s.mem P 0 1 = 4 →
          takes [] (fieldAt s.mem P 0x10 8) (decide (fieldAt s.mem P 4 4 / 4 % 2 = 1)) 0 0 none_) ∧
        (∀ L, NodeRecOk s.mem P → fieldAt s.mem P 2 1 = 0 → fieldAt s.mem P 0 1 = 5 → ServiceRange s c kRead (fieldAt s.mem P 8 8) L 256 →
          fieldAt s.mem L 0x10 1 ≠ 1 → fieldAt s.mem L 0x60 8 = 0 →
          fieldAt s.mem L 8 8 ≠ 1 ∨ fieldAt s.mem L 0x11 1 ≠ 1 ∨ fieldAt s.mem L 0x14 1 / 8 % 2 = 0 → takes [] 1 false 0x25 0 none_) ∧
        (∀ d, NodeRecOk s.mem P → fieldAt s.mem P 3 1 = 1 → fieldAt s.mem P 2 1 = 0 → fieldAt s.mem P 0 1 = 6 →
          d = fieldAt s.mem P 0x20 8 → (AMap.get? s.nodes d = none → takes [] 1 false 0x25 0 none_) ∧
          ∀ m, AMap.get? s.nodes d = some m →
            (m.state = .complete → takes [] 1 false 0 m.wts none_) ∧
            (m.state = .failed ∨ (m.state = .waiting ∧ m.cause ≠ 0) → takes [] 1 false 0x26 0 none_) ∧
            (m.state = .started ∨ (m.state = .waiting ∧ m.cause = 0) → takes [] 1 false 0 0 (· = d))) ∧
        (∀ (D : Except Byte Derived) (q : Run s), NodeRecOk s.mem P → fieldAt s.mem P 3 1 = 0 → q.1 = s →
          derive (serviceEU c) (nodeRecOf (Bytes.read s.mem P 128)) (⟨s, .refl⟩ : Run s) = .ok (D, q) →
          match D with
          | .ok D => takes D.fps D.cost D.idempotent 0 0 none_
          | .error e => e = 0x25 → takes [] 1 false e 0 none_) ∧
        ∀ (e : Byte) (l : Option Mask) (v : Option DWord), NodeRecOk s.mem P → fieldAt s.mem P 3 1 = 0 → e ≠ 0 → e ≠ 0x25 →
          fieldAt s.mem P 0 1 = 3 ∨ fieldAt s.mem P 0 1 = 4 →
          derive (serviceEU c) (nodeRecOf (Bytes.read s.mem P 128)) (⟨s, .refl⟩ : Run s) = .error (.trap e l v) →
          takes [] 1 (decide (fieldAt s.mem P 4 4 / 4 % 2 = 1)) e 0 none_)

/-- R10, R75, R346, R351, R352, R353, R354, R355: NODE_START starts a node whose turn it is and whose cost its ring's deficit covers, taking the cost off; a SIGNAL node is then started, any other hands its work on; without the deficit, or when its ring does not hold the turn, the turn passes on; a ring with no ready node at the priority keeps no deficit there; a node that is not ready does not start. NODE_COMPLETE of a node whose work is done and whose context runs writes a SIGNAL node's word, then its token, each past what the node has written before, completes it and lets its successors go on. NODE_FAIL of a node that has a cause and whose work is gone, or whose dispatch has ended after a host was gone or a sync point failed under it, logs the failure, then either replays it, when it is IDEMPOTENT, has had no side effect, its cause is not a node field or a failed predecessor, its launch was not refused and replays are left, or fails it for good, and every incomplete successor with it. That a node is not completed while its dispatch has a doom, and fails once that dispatch has ended, is the model's choice (log entry 78; R353 says only that the node fails). The model's other readings it rests on: log entries 42, 43 and 45. -/
def Obligations.NodeEvents : Prop :=
  (∀ (s : State) (k : Nat) (n : Node), AMap.get? s.nodes k = some n → KeysRise s.nodes →
   (n.state ≠ .waiting ∨ n.cause ≠ 0 ∨ n.edges ≠ [] ∨ n.hold = true ∨ n.held = true → exec (.nodeStart k) s = .next s) ∧
   (TurnOf s k n → n.ring < 64 →
     (n.cost ≤ deficitAt (s.ring n.ring) n.prio →
       (n.kind = 6 → ∃ t s', exec (.nodeStart k) s = .next t ∧ s' = { s with nodes := AMap.set s.nodes k { n with state := .started } } ∧
         t = { s' with rings := t.rings } ∧ DeficitsAre s' t n.prio n.ring (deficitAt (s.ring n.ring) n.prio - n.cost)) ∧
       ∀ q : Run s, startWork k n (⟨s, .refl⟩ : Run s) = .ok ((), q) → ∃ t, exec (.nodeStart k) s = .next t ∧
         t = { q.1 with rings := t.rings } ∧ DeficitsAre q.1 t n.prio n.ring (deficitAt (s.ring n.ring) n.prio - n.cost)) ∧
     (deficitAt (s.ring n.ring) n.prio < n.cost → ∃ t, exec (.nodeStart k) s = .next t ∧
       t = { s with rings := t.rings, pool := t.pool } ∧
       ∃ j i m, j < 64 ∧ AMap.get? s.nodes i = some m ∧ NodeMay s m ∧ m.prio = n.prio ∧ m.ring = j ∧
         t.pool[n.prio % 4]'(Nat.mod_lt _ (by decide)) = j ∧
         DeficitsAre s t n.prio j (deficitAt (s.ring j) n.prio + (s.ring j).rec_.quantum))) ∧
   (n.state ≠ .started ∨ n.cause ≠ 0 ∨ n.held = true ∨ n.jobs ≠ [] ∨ n.todo ≠ [] ∨ ¬CtxRuns s n.ctx → exec (.nodeComplete k) s = .next s) ∧
   (n.state = .started → n.cause = 0 → n.held = false → n.jobs = [] → n.todo = [] → CtxRuns s n.ctx → k ∉ n.edges →
     (NoDispatch s k → n.kind ≠ 6 → n.token = 0 → ∃ t, exec (.nodeComplete k) s = .next t ∧ t = { s with nodes := t.nodes } ∧
       Freed s k { n with state := .complete } t.nodes) ∧
     (∀ P, NoDispatch s k → n.kind ≠ 6 → n.token ≠ 0 → ServiceRange s n.ctx kWrite n.token.toNat P 8 → lockedBytes s.locks P 8 = false →
       ∃ t n', exec (.nodeComplete k) s = .next t ∧ n' = { n with state := .complete, se := true, wts := max n.wts (t.line P).wts } ∧ Freed s k n' t.nodes ∧
         (∀ b, Bytes.get t.mem b = if P ≤ b ∧ b < P + 8 then BitVec.ofNat 8 (n.tokval.toNat / 256 ^ (b - P)) else Bytes.get s.mem b) ∧
         n.wts < (t.line P).wts) ∧
     (∀ P, NoDispatch s k → n.kind = 6 → n.signalled = false → n.token = 0 → ServiceRange s n.ctx kWrite n.arg0.toNat P 8 →
       lockedBytes s.locks P 8 = false →
       ∃ t n', exec (.nodeComplete k) s = .next t ∧ n' = { n with state := .complete, se := true, signalled := true, wts := max n.wts (t.line P).wts } ∧
         Freed s k n' t.nodes ∧ n.wts < (t.line P).wts ∧
         ∀ b, Bytes.get t.mem b = if P ≤ b ∧ b < P + 8 then BitVec.ofNat 8 (n.arg1.toNat / 256 ^ (b - P)) else Bytes.get s.mem b) ∧
     ∀ dk d, AMap.get? s.dispatches dk = some d → d.node = some k → (∀ e ∈ s.dispatches, e.2.node = some k → e = (dk, d)) →
       (d.joined = false ∨ d.failed ≠ none ∨ d.doom ≠ none ∨ d.ended ≠ d.wheels → exec (.nodeComplete k) s = .next s) ∧
       (d.joined = true → d.failed = none → d.doom = none → d.ended = d.wheels → d.view = none → n.kind ≠ 6 → n.token = 0 →
         ∃ t, exec (.nodeComplete k) s = .next t ∧ t = { s with nodes := t.nodes, dispatches := AMap.erase s.dispatches dk } ∧
           Freed s k { n with state := .complete, se := n.se || d.se, wts := max n.wts d.wts } t.nodes))) ∧
  (∀ (s : State) (k : Nat) (n : Node), AMap.get? s.nodes k = some n → KeysRise s.nodes →
   n.ring < 64 →
   let r := s.ring n.ring
   let replays (n : Node) : Prop := n.se = false ∧ n.idempotent = true ∧ n.kind ≠ 6 ∧ n.cause ≠ 0x25 ∧ n.cause ≠ 0x26 ∧ n.refused = false ∧
     n.replays < r.rec_.retry
   let ends (n : Node) (t : State) : Prop :=
     (replays n → t.nodes = AMap.set s.nodes k { n with
       state := .waiting, cause := 0, trappc := 0, se := false, replays := n.replays + 1, jobs := [], signalled := false }) ∧
     (¬replays n → FailedOn s k { n with state := .failed } t.nodes)
   (n.state = .complete ∨ n.state = .failed ∨ n.held = true ∨ n.jobs ≠ [] ∨ n.todo ≠ [] ∨ (NoDispatch s k ∧ n.cause = 0) ∨
     (n.state = .started ∧ ¬CtxRuns s n.ctx) → exec (.nodeFail k) s = .next s) ∧
   (n.state = .waiting ∨ (n.state = .started ∧ CtxRuns s n.ctx) → n.held = false → n.jobs = [] → n.todo = [] →
     (NoDispatch s k → n.cause ≠ 0 →
       (r.rec_.errlog = 0 → ∃ t, exec (.nodeFail k) s = .next t ∧ t = { s with nodes := t.nodes } ∧ ends n t) ∧
       ∀ P, r.rec_.errlog ≠ 0 → ServiceRange s n.ctx kWrite (r.rec_.errlog + 32 * (r.errcount.toNat % 16)) P 32 → s.locks = [] →
         ∃ t, exec (.nodeFail k) s = .next t ∧ ends n t ∧ t.rings.toList = s.rings.toList.set n.ring { r with errcount := r.errcount + 1 } ∧
           ∀ (b : Bool), (b = true ↔ replays n) → ∀ a, Bytes.get t.mem a =
             if P ≤ a ∧ a < P + 8 then BitVec.ofNat 8 (k / 256 ^ (a - P))
             else if a = P + 8 then n.cause
             else if a = P + 9 then (if n.se = true then 1 else 0) + if b = true then 2 else 0
             else if P + 16 ≤ a ∧ a < P + 24 then BitVec.ofNat 8 (n.trappc.toNat / 256 ^ (a - P - 16))
             else if P ≤ a ∧ a < P + 32 then 0 else Bytes.get s.mem a) ∧
     ∀ dk d c pc, AMap.get? s.dispatches dk = some d → d.node = some k → (∀ e ∈ s.dispatches, e.2.node = some k → e = (dk, d)) →
       let gone := ∀ w ∈ s.wheels, w.2.dispatch ≠ dk
       let allOver := d.joined = true ∧ d.ended = d.wheels
       ((d.failed ≠ none ∧ ¬gone) ∨ (d.failed = none ∧ (d.doom = none ∨ ¬allOver)) → exec (.nodeFail k) s = .next s) ∧
       ((d.failed = some (c, pc) ∧ gone) ∨ (d.failed = none ∧ d.doom = some (c, pc) ∧ allOver) → d.view = none → r.rec_.errlog = 0 →
         ∃ t, exec (.nodeFail k) s = .next t ∧ t = { s with nodes := t.nodes, dispatches := AMap.erase s.dispatches dk } ∧
           ends { n with se := n.se || d.se, wts := max n.wts d.wts, cause := c, trappc := pc } t)))

/-! ## The package -/

/-- R239, R371 to R375: HOST_ACCESS: a write and an atomic of exported GDDR7 change exactly their bytes, an atomic as its operation says, a read changes none and returns them; a request that meets a locked granule waits; a write of a register comes next, as the event of R373, and a read returns the register; an attestation advances the signature index and reports it (R375); what nothing exports has no effect. HOST_WARM_RESTART marks the host down and E_HOST_GONE reaches the lanes of loads and writes that were on it, which are lost, their lanes elsewhere going on, and the trains parked on its pages; HOST_RECONNECT clears HOSTDOWN with the last host down. The model's readings it rests on: log entries 56, 57, 58 and 75. -/
def Obligations.HostEvents : Prop :=
  (∀ (s : State) (pa n : Nat), 0 < n →
    (GddrAt s pa ∧ GddrAt s (pa + n - 1) → ∃ t, exec (.hostAccess (.read pa n)) s = .next t ∧
      t = { s with cores := t.cores, owners := t.owners, reply := some (.data (leVal (fun j => Bytes.get s.mem (pa + j)) n)) } ∧
      ∀ i, i < n → t.ownerOf (pa + i) = none) ∧
    (¬GddrAt s pa → s.mg.svc = 0 ∨ pa < hostReg 0 ∨ hostReg 0x200000 < pa + n → exec (.hostAccess (.read pa n)) s = .next s)) ∧
  (∀ (s : State) (off : Nat), off % 8 = 0 → off + 8 ≤ 0x200000 → s.mg.svc ≠ 0 →
    exec (.hostAccess (.read (hostReg off) 8)) s =
      .next { s with reply := some (.data (if off < 0x101000 then (mmioWord s off).toNat else 0)) }) ∧
  (∀ (s : State) (nonce : DWord),
    (s.mg.svc = 0 → exec (.hostAccess (.attest nonce)) s = .next s) ∧
    (s.mg.svc ≠ 0 → ∃ t f c x, exec (.hostAccess (.attest nonce)) s = .next t ∧ t = { s with
      mg := ({ s.mg with sigIndex := s.mg.sigIndex + 1 } : Mg).norm, free := t.free
      reply := some (.report { nonce := nonce, firmware := f, config := c, defects := signature s.mg.coreMap,
                               index := s.mg.sigIndex + 1, sig := x }) })) ∧
  (∀ (s : State) (pa : Nat) (l : List Byte), l ≠ [] → GddrAt s pa → GddrAt s (pa + l.length - 1) →
    (lockedBytes s.locks pa l.length = true →
      exec (.hostAccess (.write pa l)) s = .next (s.upd (.hosts (s.hosts ++ [.write pa l])))) ∧
    (lockedBytes s.locks pa l.length = false → ∃ t, exec (.hostAccess (.write pa l)) s = .next t ∧
      (∀ b, Bytes.get t.mem b = if pa ≤ b ∧ b < pa + l.length then l.getD (b - pa) 0 else Bytes.get s.mem b) ∧
      ∀ i, i < l.length → (s.line (pa + i)).wts < (t.line (pa + i)).wts ∧ (s.line (pa + i)).rts < (t.line (pa + i)).wts)) ∧
  (∀ (s : State) (op : AOp) (wide : Bool) (pa : Nat) (x : DWord),
    let n := if wide then 8 else 4
    (pa % n ≠ 0 → lockedBytes s.locks pa n = false → exec (.hostAccess (.atomic op wide pa x)) s = .next s) ∧
    (pa % n = 0 → GddrAt s pa → GddrAt s (pa + 7) → lockedBytes s.locks pa n = true →
      exec (.hostAccess (.atomic op wide pa x)) s = .next (s.upd (.hosts (s.hosts ++ [.atomic op wide pa x])))) ∧
    (pa % n = 0 → GddrAt s pa → GddrAt s (pa + 7) → lockedBytes s.locks pa n = false → ∃ t,
      exec (.hostAccess (.atomic op wide pa x)) s = .next t ∧ ∀ b, Bytes.get t.mem b = if pa ≤ b ∧ b < pa + n
        then (atomVal op wide (BitVec.ofNat 64 (leVal (fun j => Bytes.get s.mem (pa + j)) n)) x).extractLsb' (8 * (b - pa)) 8
        else Bytes.get s.mem b)) ∧
  (∀ (s : State) (off : Nat) (l : List Byte), l.length = 8 → off % 8 = 0 → off + 8 ≤ 0x200000 →
    let v := leVal (fun j => l.getD j 0) 8
    ((∀ h o n v rest, s.agenda ≠ .mmio h o n v :: rest) → exec (.hostAccess (.write (hostReg off) l)) s =
      .next (if s.mg.svc = 0 then s else s.upd (.agenda (.mmio true off 8 v :: s.agenda)))) ∧
    ∀ rest, s.agenda = .mmio true off 8 v :: rest →
      step s = .next { s with agenda := (hostEvent s off (BitVec.ofNat 64 v)).map .event ++ rest }) ∧
  (∀ (s : State) (h : Nat), KeysRise s.trains → ∃ t, exec (.hostWarmRestart h) s = .next t ∧ t.mem = s.mem ∧
    t.mg.hostdown = true ∧ h ∈ t.mg.hostsDown ∧ (∀ k ∈ s.mg.hostsDown, k ∈ t.mg.hostsDown) ∧
    ∀ id x, AMap.get? s.trains id = some x →
      ((∀ p, x.park = some p → p.faulted = false) → (∀ w ∈ x.fifo, w.train = id) → ∃ y, AMap.get? t.trains id = some y ∧ y.s = x.s ∧ y.v = x.v ∧
        (∀ l ∈ y.loads, ∃ o ∈ x.loads, l = { o with acc := l.acc } ∧ ∀ a, a ∈ l.acc ↔ a ∈ o.acc ∧ ¬OfHost s h a.pa) ∧
        (∀ o ∈ x.loads, (∃ a ∈ o.acc, ¬OfHost s h a.pa) → ∃ l ∈ y.loads, l.id = o.id ∧ ∀ a, a ∈ l.acc ↔ a ∈ o.acc ∧ ¬OfHost s h a.pa) ∧
        (∀ w ∈ y.fifo, ∃ o ∈ x.fifo, w = { o with acc := w.acc } ∧ ∀ a, a ∈ w.acc ↔ a ∈ o.acc ∧ ¬OfHost s h a.pa) ∧
        (∀ o ∈ x.fifo, (∃ a ∈ o.acc, ¬OfHost s h a.pa) → ∃ w ∈ y.fifo, w.id = o.id ∧ ∀ a, a ∈ w.acc ↔ a ∈ o.acc ∧ ¬OfHost s h a.pa) ∧
        (∀ l ∈ x.loads, (∃ a ∈ l.acc, OfHost s h a.pa) → ∃ d ∈ y.deferred, d.order = l.op ∧ d.cause = 0x13) ∧
        (∀ w ∈ x.fifo, (∃ a ∈ w.acc, OfHost s h a.pa) → ∃ d ∈ y.deferred, d.order = w.op ∧ d.cause = 0x13)) ∧
      ∀ p g l w d, x.park = some p → p.faulted = true → g ∈ p.pages →
        WalkMeets s.mem (s.ctx (s.ctxOf x)).ptbase.toNat g (.leaf l) →
        OfHost s h (pteNext l.e / (if l.big then 2 ^ 29 else 65536) * (if l.big then 2 ^ 29 else 65536) +
          g % (if l.big then 2 ^ 29 else 65536)) →
        AMap.get? s.wheels x.wheel = some w → AMap.get? s.dispatches w.dispatch = some d →
        ∃ d', AMap.get? t.dispatches w.dispatch = some d' ∧ d'.failed ≠ none) ∧
  ∀ (s : State) (h : Nat), exec (.hostReconnect h) s = .next (s.upd (.mg { s.mg with
    hostsDown := s.mg.hostsDown.filter (· != h)
    hostdown := !(s.mg.hostsDown.filter (· != h)).isEmpty }))

/-- R38 to R40, R375 to R379: POWER_ON starts from reset, the signature index of the secure store (R375) and its own counters apart (log entry 8); FIRMWARE_VERIFY starts a signed image only in the ROM's state; self-test ends in reduced service, with CLOCK restarted, or in the safe state with its code; the change to full service stops every context first, and once all are stopped serves fully and lets every one go on; a limit exceeded lowers the clock by a step; a thermal stop asks every context to stop and a recovery lets those go on; OBJECT_LOAD refuses a foreign or unfit file and writes the section of a plain one. The model's readings it rests on: log entries 49, 54 and 59. -/
def Obligations.BringUpAndLimits : Prop := ∀ s : State,
  exec .powerOn s = .next { State.reset with
    mg := { State.reset.mg with sigIndex := s.mg.sigIndex }, free := s.free, nextId := s.nextId } ∧
  (∀ ok, exec (.firmwareVerify ok) s = .next (if s.mg.svc = 0 ∧ ok = true then
    (s.upd (.mg { s.mg with svc := 1 })).upd (.agenda (s.agenda ++ [.selfTest])) else s)) ∧
  (s.mg.svc ≠ 2 → exec .selfTestComplete s = .next s) ∧
  (s.mg.svc = 2 → KeysRise s.cores → ∃ t, exec .selfTestComplete s = .next t ∧ t = { s with mg := t.mg, cores := t.cores } ∧
    t.mg = ({ s.mg with svc := 3 } : Mg).norm ∧ ∀ k, AMap.get? t.cores k = (AMap.get? s.cores k).map fun c => { c with cycles := 0 }) ∧
  (∀ code, exec (.selfTestFail code) s = .next (if s.mg.svc = 2 then s.upd (.mg { s.mg with svc := 5, failcode := code }) else s)) ∧
  (s.mg.svc ≠ 3 → exec .fullServiceChange s = .next s) ∧
  (s.mg.svc = 3 → s.mg.change = none → ∃ t, exec .fullServiceChange s = .next t ∧
    t = { s with mg := t.mg, ctxs := t.ctxs, trains := t.trains } ∧
    ((∀ c, c < 16 → (s.ctx c).stopped = true ∨ AllStopped s c) → t.mg.svc = 4 ∧ t.mg.change = none ∧ ∀ c, c < 16 →
      ((s.ctx c).saved = true ∨ s.mg.hold ≠ none → (t.ctx c).stopped = true) ∧
      ((s.ctx c).saved = false → s.mg.hold = none → (t.ctx c).stopped = false ∧ (t.ctx c).preempt = false)) ∧
    ((∃ c, c < 16 ∧ (s.ctx c).stopped = false ∧ ¬AllStopped s c) → t.mg.svc = 3 ∧ t.mg.change = some 0xFFFF ∧ t.trains = s.trains ∧
      ∀ c, c < 16 → (s.ctx c).stopped = false → StopAsked s c (t.ctx c))) ∧
  (∀ m, s.mg.svc = 3 → s.mg.change = some m → KeysRise s.trains → (∀ id x, AMap.get? s.trains id = some x → s.ctxOf x < 16) →
    ((∃ c, c < 16 ∧ (s.ctx c).stopped = false) → exec .fullServiceChange s = .next s) ∧
    ((∀ c, c < 16 → (s.ctx c).stopped = true) → ∃ t, exec .fullServiceChange s = .next t ∧
      t = { s with mg := t.mg, ctxs := t.ctxs, trains := t.trains } ∧ t.mg.svc = 4 ∧ t.mg.change = none ∧
      (s.mg.hold = none → Resumed s t fun c => m.getLsbD c = true ∧ (s.ctx c).saved = false) ∧
      ∀ h, s.mg.hold = some h → t.ctxs = s.ctxs ∧ t.trains = s.trains ∧ ∃ h', t.mg.hold = some h' ∧
        ∀ c, c < 16 → (h'.getLsbD c = true ↔ h.getLsbD c = true ∨ (m.getLsbD c = true ∧ (s.ctx c).saved = false)))) ∧
  (∀ watts celsius, exec (.powerLimitExceeded watts celsius) s = .next (s.upd (.mg { s.mg with
    watts := watts, celsius := celsius
    clockMhz := if (s.mg.plimit < watts ∨ 105 < celsius) ∧ 100 < s.mg.clockMhz then s.mg.clockMhz - 100 else s.mg.clockMhz }))) ∧
  (∀ celsius : Byte,
    (celsius < 115 ∨ s.mg.hold ≠ none → exec (.thermalStop celsius) s = .next (s.upd (.mg { s.mg with celsius := celsius }))) ∧
    (¬celsius < 115 → s.mg.hold = none → ∃ t m, exec (.thermalStop celsius) s = .next t ∧ t = { s with mg := t.mg, ctxs := t.ctxs } ∧
      t.mg = ({ s.mg with celsius := celsius, hold := some m } : Mg).norm ∧ RunMask s m ∧ ∀ c, c < 16 →
        ((s.ctx c).stopped = false → StopAsked s c (t.ctx c)) ∧ ((s.ctx c).stopped = true → t.ctx c = s.ctx c)) ∧
    (95 < celsius → exec (.thermalRecover celsius) s = .next (s.upd (.mg { s.mg with celsius := celsius }))) ∧
    (¬95 < celsius → KeysRise s.trains → (∀ id x, AMap.get? s.trains id = some x → s.ctxOf x < 16) →
      ∃ t, exec (.thermalRecover celsius) s = .next t ∧ t = { s with mg := t.mg, ctxs := t.ctxs, trains := t.trains } ∧
        t.mg = ({ s.mg with celsius := celsius, hold := none } : Mg).norm ∧
        Resumed s t fun c => (∃ m, s.mg.hold = some m ∧ m.getLsbD c = true) ∧ ((s.ctx c).stopped = true ∨ (s.ctx c).preempt = true) ∧
          (s.ctx c).saved = false)) ∧
  ∀ (c : Nat) (f : List Byte) (base : DWord), c < 16 →
    let refused (cause : Byte) : Prop := exec (.objectLoad c f base) s = .next (s.upd (.objects
      ({ ctx := c, lo := base.toNat, hi := base.toNat + f.length, refusal := some cause, kernels := [] } :: s.objects)))
    (fileVal f 0 4 ≠ 0x01424F4E ∨ fileVal f 4 2 ≠ 3 ∨ fileVal f 8 4 ≠ 0x300 ∨ fileVal f 0x10 48 ≠ 0 → refused 0x22) ∧
    (∀ sig, ObjectHead f sig → fileVal f 0x58 2 = 0 → sig ≠ 0 → sig ≠ (signature s.mg.coreMap).toNat → refused 0x21) ∧
    ∀ off size align pa, ObjectHead f 0 → OneSection f off size align → base.toNat % 2 ^ align = 0 → s.locks = [] →
      ServiceRange s c kWrite base.toNat pa size → KeysRise s.trains → ∃ t, exec (.objectLoad c f base) s = .next t ∧
        t.objects = { ctx := c, lo := base.toNat, hi := base.toNat + size, refusal := none, kernels := [] } :: s.objects ∧
        (∀ b, Bytes.get t.mem b = if pa ≤ b ∧ b < pa + size then f.getD (off + (b - pa)) 0 else Bytes.get s.mem b) ∧
        t.dispatches = s.dispatches ∧ t.wheels = s.wheels ∧ t.ctxs = s.ctxs

/-- R172, R173, R189, R194, R195, R199, R201, R202, R204, R205, R207, R208, R218, R219: ESU_OPERATION: the first operation of a train takes effect as one step and completes; a trap defers, with the lanes it names; a translation fault holds it; one that must wait stays. A directory entry is read as its table says, a handle is live when its generation matches a live entry; `ehchk` and `erow` answer that for every active lane; `enext` without a cursor and `ever` of an absent world answer 0; `esync` outside a SYNC dispatch defers E_PERM. SYNC_POINT_PUBLISH publishes the next version, writes it to the destination of its `esync` and completes it; one that a wheel holds back, or that is held, stays in progress, and one that fails defers its trap. The model's readings it rests on: log entries 34, 35, 36 and 71. -/
def Obligations.EntityWork : Prop :=
  (∀ (s : State) (op : Nat) (e : EngineOp) (x : Train) (wh : Wheel), EsuHead s op e x wh → x.Ok →
    let run := esuRun e (opFor s x wh) (⟨s, .refl⟩ : Run s)
    let ends (s' : State) (x' : Train) (P : Train → Prop) : Prop := ∃ t y, exec (.esuOperation op) s = .next t ∧
      t = { s' with trains := t.trains, esu := AMap.erase s'.esu op, syncs := s'.syncs.filter (·.op != op) } ∧
      OnlyTrain s' t e.train ∧ AMap.get? t.trains e.train = some y ∧ y.s = x'.s ∧ y.v = x'.v ∧ P y
    let named (l : Option Mask) : Option Mask := if actsByLane e.instr then some (l.getD e.cap.act) else l
    (∀ r x', run = .ok (.done, r) → AMap.get? r.1.trains e.train = some x' → ends r.1 x' (Completed x' · op)) ∧
    (∀ r x' c l v, run = .ok (.fails c l v, r) → AMap.get? r.1.trains e.train = some x' → ends r.1 x' (Deferred_ x' · op c (named l))) ∧
    (∀ r, run = .ok (.stays, r) → exec (.esuOperation op) s = .next r.1) ∧
    (∀ c l v, run = .error (.trap c l v) → ends s x (Deferred_ x · op c (named l))) ∧
    (∀ p k a b, run = .error (.held p k a b) → ∃ t, exec (.esuOperation op) s = .next t ∧ t.mem = s.mem ∧
      t.esu = AMap.set s.esu op { e with held := true }) ∧
    (run = .error .wait → exec (.esuOperation op) s = .next s) ∧
    let u := esuFor s e.train x wh
    let writes (d : Option (Dst × Nat)) (f : Nat → Nat) (pd : Option (BitVec 3)) (ok : Nat → Prop) : Prop :=
      ∃ t y, exec (.esuOperation op) s = .next t ∧ t = { s with trains := t.trains, esu := AMap.erase s.esu op } ∧
        AMap.get? t.trains e.train = some y ∧ Completed x y op ∧ y.s = x.s ∧ LanesWrote x y d e.cap.act f pd ok
    (∀ info : Nat → HInfo, (∀ L, L < 32 → e.cap.act.getLsbD L = true → ReadsAs (classify (s := s) u (e.cap.a.at L)) (info L)) → s.syncs = [] →
      (∀ d, s.dispatchOf x = some d → d.launch.viewWorld = 0 ∧ d.launch.strict = false) →
      (∀ g sb pd h, e.instr = .ehchk g sb pd h → writes none (fun _ => 0) (some pd) fun L => (info L).cls = .live) ∧
      (∀ g sb pd d h, e.instr = .erow g sb false pd d h → d.scalar = false → (∀ L, (info L).cls = .live → (info L).world.isSome) →
        writes (some (d, 2)) (fun L => match (info L).world with
          | some w => if (info L).cls = .live then w.pool + (info L).ent.chunk * w.chunkBytes + (info L).ent.row else 0
          | none => 0) (some pd) fun L => (info L).cls = .live)) ∧
    (∀ sb cur d, e.instr = .enext sb cur d → d.scalar = true → x.cursors[(if cur then 1 else 0 : Fin 2)] = none →
      ∃ t y, exec (.esuOperation op) s = .next t ∧ t = { s with trains := t.trains, esu := AMap.erase s.esu op } ∧
        AMap.get? t.trains e.train = some y ∧ Completed x y op ∧ ScalarWrote x y d 2 0) ∧
    (∀ sb view d w, e.instr = .ever sb view d w → d.scalar = true → (e.cap.a.at 0).toNat = 0 ∨ 256 ≤ (e.cap.a.at 0).toNat →
      ∃ t y, exec (.esuOperation op) s = .next t ∧ t = { s with trains := t.trains, esu := AMap.erase s.esu op } ∧
        AMap.get? t.trains e.train = some y ∧ Completed x y op ∧ ScalarWrote x y d 1 0) ∧
    ∀ sb d w, e.instr = .esync sb d w → (∀ f, s.dispatchOf x = some f → f.launch.sync = false) → ends s x (Deferred_ x · op 0x06 none)) ∧
  (∀ (s : State) (u : EU) (w : World) (slot P : Nat) (e : DirEnt), (∀ j, j < 16 → XlAt s u.core u.ctx u.priv kRead (w.dir + 16 * slot + j) (P + j)) →
    s.owners = [] → EntryAt s.mem P e → ReadsAs (readEnt (s := s) u w slot) e ∧
      ∀ h, ReadsAs (worldOf (s := s) u (h.toNat / 2 ^ 56)) (some w) → h.toNat % 2 ^ 32 = slot → slot < w.slots →
        ReadsAs (classify (s := s) u h) ⟨some w, if e.gen = h.toNat / 2 ^ 32 % 2 ^ 24 ∧ e.state = 1 then .live
          else if e.gen = h.toNat / 2 ^ 32 % 2 ^ 24 ∧ e.state = 2 then .pending else .stale, e⟩) ∧
  ∀ (s : State) (id : Nat) (p : SyncPoint) (e : EngineOp) (x : Train) (wh : Wheel), s.syncs.find? (·.train == id) = some p →
    AMap.get? s.esu p.op = some e → e.train = id → e.id = p.op → AMap.get? s.trains id = some x → x.Ok →
    AMap.get? s.wheels x.wheel = some wh →
    let u := esuFor s id x wh
    let run := syncRun e u p.world (⟨s, .refl⟩ : Run s)
    (e.held = true → exec (.syncPointPublish id) s = .next s) ∧
    (e.held = false →
      (run = .error .wait → exec (.syncPointPublish id) s = .next s) ∧
      (∀ pg k a b, run = .error (.held pg k a b) → ∃ t, exec (.syncPointPublish id) s = .next t ∧ t.mem = s.mem ∧ t.syncs = s.syncs ∧
        t.esu = AMap.set s.esu p.op { e with held := true }) ∧
      (∀ r x' c l v, run = .ok (.fails c l v, r) → AMap.get? r.1.trains id = some x' → ∃ t y, exec (.syncPointPublish id) s = .next t ∧
        t = { r.1 with trains := t.trains, esu := AMap.erase r.1.esu p.op, syncs := r.1.syncs.filter (·.op != p.op) } ∧
        AMap.get? t.trains id = some y ∧ y.s = x'.s ∧ y.v = x'.v ∧
        Deferred_ x' y p.op c (if actsByLane e.instr then some (l.getD e.cap.act) else l)) ∧
      ∀ (sb : Sb) (d : Dst) (a : Src) (w : World) (pl : Plan) (v : Nat) (r1 r2 q : Run s), e.instr = .esync sb d a → d.scalar = true →
        worldOf u p.world (⟨s, .refl⟩ : Run s) = .ok (some w, r1) → planSync u w r1 = .ok (pl, r2) → pl.pool.short = false →
        pl.pool.mapShort = false → publish u w pl r2 = .ok (v, q) →
        ∀ x', AMap.get? q.1.trains id = some x' → ∃ t y, exec (.syncPointPublish id) s = .next t ∧ v = w.curver + 1 ∧
          t = { q.1 with trains := t.trains, dispatches := t.dispatches, esu := AMap.erase q.1.esu p.op
                         syncs := q.1.syncs.filter (·.op != p.op) } ∧ OnlyTrain q.1 t id ∧
          AMap.get? t.trains id = some y ∧ Completed x' y p.op ∧ ScalarWrote x' y d 1 v ∧
          ∀ wk f, AMap.get? q.1.wheels x'.wheel = some wk → AMap.get? q.1.dispatches wk.dispatch = some f →
            t.dispatches = AMap.set q.1.dispatches wk.dispatch { f with se := true })

/-- R13, R313, R316, R319 to R323, R327 to R332: CANDIDATE_PRESENT starts every busy lane of the query first: a void ray has no hit, any other lane is looked up; it gives its lane its result or its next candidate from the hits in their order, those of a traversal shortened by a prediction, which is counted (R332), where they fix it; RAY_QUERY_COMPLETE takes `rygeo` and `ryinv` from the train's queue, else works on the busy lanes; a query whose every lane is done closes and completes. The model's readings it rests on: log entries 37, 38 and 39. -/
def Obligations.RayWork : Prop :=
  (∀ (s : State) (id L : Nat) (x : Train) (q : RayQuery), QueryRuns s id x q → x.Ok → L < 32 → q.lanes.at L = .busy → q.waits = [] →
    let q0 := begun q
    let s0 := s.upd (.train id (some { x with ray := some q0 }))
    let others := ∃ K, K < 32 ∧ K ≠ L ∧ ∀ h k, q0.lanes.at K ≠ .outside ∧ q0.lanes.at K ≠ .done h k
    (q.bind.predict = false ∨ ∀ K, K < 32 → q.lanes.at K = .busy → voidRay (q.rays.at K) = false → q.looked.getLsbD K = true) →
    (voidRay (q.rays.at L) = true →
      (others → exec (.candidatePresent id L) s = .next s0) ∧
      (¬others → q.bind.predict = false → ∃ t y, exec (.candidatePresent id L) s = .next t ∧ t = { s with trains := t.trains } ∧
        OnlyTrain s t id ∧ AMap.get? t.trains id = some y ∧ Completed x y q.op ∧ y.s = x.s ∧ y.v = x.v ∧
        y.ray = some { q0 with opened := false })) ∧
    let answers (short : Bool) (hits : List Hit) (r : Run s0) : Prop := ∀ x', AMap.get? r.1.trains id = some x' →
      let first (P : Hit → Prop) (o : Option Hit) : Prop := match o with
        | some h => ∃ a b, hits = a ++ h :: b ∧ P h ∧ ∀ g ∈ a, ¬P g
        | none => ∀ g ∈ hits, ¬P g
      ∃ t y q', exec (.candidatePresent id L) s = .next t ∧ t = { r.1 with trains := t.trains, ctxs := t.ctxs } ∧ OnlyTrain r.1 t id ∧
        (if short then HptCounted r.1 t (s.ctxOf x) (dieOf (s.coreOf x) % 4) 2 else t.ctxs = r.1.ctxs) ∧
        AMap.get? t.trains id = some y ∧ y.ray = some q' ∧ (∀ K, K < 32 → K ≠ L → q'.lanes.at K = q0.lanes.at K) ∧
        match q.kind with
        | .closest => ∃ o, first (fun _ => True) o ∧ q'.lanes.at L = .done o (if o.isSome then 1 else 0)
        | .occluded => ∃ o, first (·.opaqueHit = true) o ∧ q'.lanes.at L = .done o (if o.isSome then 1 else 0)
        | .any => ∃ o c, first (·.opaqueHit = true) o ∧
            first (fun h => h.opaqueHit = false ∧ tKey h.t < tKey ((o.map (·.t)).getD 0x7F800000) ∧
              (h.instVa, h.triVa) ∉ q.rejected.at L) c ∧
            q'.lanes.at L = match c with
              | some h => .pending h
              | none => .done o (if o.isSome then 1 else 0)
    let traced (tmax : Word) (hits : List Hit) (r : Run s0) : Prop :=
      trace (rayEU s id x) q.bind.root.toNat (q.rays.at L) (q.mask.at L) tmax (⟨s0, .refl⟩ : Run s0) = .ok (hits, r)
    (∀ hits r, voidRay (q.rays.at L) = false → q0.tp.at L = none → others → traced ((q.rays.at L).getD 7 0) hits r →
      answers false hits r) ∧
    ∀ tp hits r, voidRay (q.rays.at L) = false → q0.tp.at L = some tp → others → s.ctxOf x < 16 → traced tp hits r →
      (∃ h ∈ hits, h.opaqueHit = true ∨ q.kind = .closest) → answers true hits r) ∧
  (∀ (s : State) (id : Nat) (x : Train) (q : RayQuery), QueryRuns s id x q → x.Ok → (∀ kv ∈ s.ray, kv.2.train ≠ id) → q.waits = [] →
    q.bind.predict = false → (∀ K, K < 32 → q.lanes.at K = .busy → voidRay (q.rays.at K) = true) →
    (∀ K h, K < 32 → q.lanes.at K ≠ .pending h) → ∃ t y q', exec (.rayQueryComplete id) s = .next t ∧ t = { s with trains := t.trains } ∧
      OnlyTrain s t id ∧ AMap.get? t.trains id = some y ∧ Completed x y q.op ∧ y.s = x.s ∧ y.v = x.v ∧ y.ray = some q' ∧
      q'.opened = false ∧ ∀ K, K < 32 → q'.lanes.at K = if q.lanes.at K = .busy then .done none 0 else q.lanes.at K) ∧
  ∀ (s : State) (op : Nat) (e : EngineOp) (x : Train) (wh : Wheel), OpHead s s.ray op e x wh → x.Ok →
    let ends (s' : State) (P : Train → Prop) : Prop := ∃ t y, exec (.rayQueryComplete e.train) s = .next t ∧
      t = { s' with trains := t.trains, ray := AMap.erase s.ray op } ∧ OnlyTrain s t e.train ∧ AMap.get? t.trains e.train = some y ∧
      y.s = x.s ∧ y.v = x.v ∧ P y
    let rec_ := (e.cap.a.at 0).toNat
    let bound (k : BitVec 2) (g : Option Geo) : State := s.upd (.wheel x.wheel (some { wh with
      geos := wh.geos.set k.toNat g k.isLt }))
    let cleared (P : HptEntry → Bool) : Prop := ∃ h : AMap (List HptEntry), ends { s with hpt := h } (Completed x · op) ∧
      ∀ d, AMap.getD h d [] = (AMap.getD s.hpt d []).filter fun y => !(y.tag == (s.ctx (s.ctxOf x)).xtag && P y)
    (∀ sb k a, e.instr = .rygeo sb k a →
      (rec_ = 0 → ends (bound k none) (Completed x · op)) ∧
      (rec_ % 64 ≠ 0 → ends s (Deferred_ x · op 0x04 none)) ∧
      ∀ P, rec_ ≠ 0 → rec_ % 64 = 0 → s.owners = [] →
        (∀ j, j < 64 → XlAt s wh.core (s.ctxOf x) (s.privDispatch x) kRead (rec_ + j) (P + j)) →
        let quant : Int := ((BitVec.ofNat 8 (fieldAt s.mem P 0x10 1)).toInt)
        let ok := fieldAt s.mem P 0x11 1 < 2 ∧ fieldAt s.mem P 0x12 46 = 0 ∧ -64 ≤ quant ∧ quant ≤ 63
        (ok → ends (bound k (some { root := BitVec.ofNat 64 (fieldAt s.mem P 0 8), gid := BitVec.ofNat 32 (fieldAt s.mem P 8 4)
                                    gen := BitVec.ofNat 32 (fieldAt s.mem P 12 4), quant := quant
                                    predict := decide (fieldAt s.mem P 0x11 1 = 1) })) (Completed x · op)) ∧
        (¬ok → ends s (Deferred_ x · op 0x03 none))) ∧
    (∀ sb, e.instr = .ryinv sb none → KeysRise s.hpt → cleared fun _ => true) ∧
    ∀ sb k, e.instr = .ryinv sb (some k) → KeysRise s.hpt →
      (∀ g, wh.geos[k.toNat]'k.isLt = some g → cleared fun y => y.gid == g.gid) ∧
      (wh.geos[k.toNat]'k.isLt = none → ends s (Deferred_ x · op 0x03 none))

/-! ## The machine as a whole -/

/-- R43 to R47, R51: a step takes the first turn of the agenda. A turn that is an event is that event. At a port whose train stands in an open clause, the word it stands at decodes and runs, or raises the trap of the check it fails. Where the port is free and one train may take it, the header and the words that its context's translation finds at the program counter open its clause, and the first of them runs. Everything around the instruction stays: the agenda moves on and the current train is set. With an empty agenda the step only fills it (log entry 1). -/
def Obligations.StepRunsDecoded : Prop :=
  (∀ (s : State) (e : Instr) (rest : List Turn), s.agenda = .event e :: rest → step s = exec e { s with agenda := rest }) ∧
  (∀ (s : State) (core port : Nat) (rest : List Turn) (id : Nat) (x : Train) (c : Clause) (h : Header),
    s.agenda = .issue core port :: rest → portAt (s.core core) port = some id → AMap.get? s.trains id = some x →
    x.clause = some c → x.free s = true → s.coreOf x = core → decodeHeader c.word = some h →
    let word := decodeWord (wordClass h c.idx).1 (wordClass h c.idx).2 c.cur
    let here : State := { s with agenda := rest, cur := some id }
    (∀ i, word = .ok i → step s = exec i here) ∧
    (word = .error .illOp → step s = .next (trapCur here 0x02 none none)) ∧
    (word = .error .illOperand → step s = .next (trapCur here 0x03 none none))) ∧
  (∀ (s : State) (core port : Nat) (rest : List Turn) (id : Nat) (x : Train) (w : DWord) (h : Header) (ws : List DWord) (i : Instr),
    s.agenda = .issue core port :: rest → portAt (s.core core) port = none → KeysRise s.trains → MayTake s core port id →
    AMap.get? s.trains id = some x → (∀ j, j ≠ id → ¬MayTake s core port j) → x.Ok → x.clause = none → x.xl = [] →
    x.resume = none → Fetched s x x.pc.toNat w → decodeHeader w = some h → (h.cls = .Z → s.privOf x = true) →
    ws.length = h.count + 1 → (∀ k, k < ws.length → Fetched s x (x.pc.toNat + 8 * (k + 1)) (ws.getD k 0)) →
    (∀ k : BitVec 3, h.waitsb.getLsbD k.toNat = true → x.sbCount k = 0) → x.inflight = [] →
    decodeWord (wordClass h 0).1 (wordClass h 0).2 (ws.getD 0 0) = .ok i →
    ¬QueueHolds s x h ws →
    ∃ t, step s = exec i t ∧ t = { s with agenda := rest, cores := t.cores, trains := t.trains, ctxs := t.ctxs, cur := some id } ∧
      (∀ d, d < 16 → (s.ctx d).norm = s.ctx d → t.ctx d = if d = s.ctxOf x then { s.ctx d with regulator := 0 } else s.ctx d) ∧
      OnlyTrain s t id ∧ portAt (t.core core) port = some id ∧
      portAt (t.core core) (port + 1) = portAt (s.core core) (port + 1) ∧
      AMap.get? t.trains id = some { x with
        clause := some { hdr := x.pc, word := w, words := ws, idx := 0, latches := [], resumed := false }
        pc := x.pc + 8, yielded := false, readyAge := 0, park := none }) ∧
  ∀ s : State, s.agenda = [] → ∃ t, step s = .next t ∧ t = { s with agenda := t.agenda, hosts := t.hosts } ∧ t.agenda ≠ []

/-- R43 to R60 and the worked encodings of 02 to 22: words written out from the encoding tables, one or more of each class, the two headers of the worked clauses and words that a check refuses. -/
def Obligations.DecodingWords : Prop :=
  decodeWord .V true 0x0A00C00D05002800 = .ok (.fadd 10 false .rne ⟨false, false, 12⟩ (.v 3) (.s 5)) ∧
  decodeWord .V true 0x81007008000003E8 = .ok (.iaddK 0 ⟨false, false, 7⟩ (.v 2) 1000) ∧
  decodeWord .M true 0x0000841002041CEA = .ok (.ld 7 (some 1) .w32 true .dflt ⟨.s 4, .v 2, true, 4⟩ ⟨false, false, 8⟩) ∧
  decodeWord .C true 0x00905300FFFFFFFA = .ok (.brnz 3 (.s 5) 0xFFFFFFFA) ∧
  decodeWord .X true 0x0100200001001CC0 = .ok (.tmma (some 1) 2 0 1) ∧
  decodeWord .S true 0x0010A40904419C41 = .ok (.cpy (some 0) (some (.s 10)) (.s 2) (.s 4) (.s 6)) ∧
  decodeWord .E true 0x0140845300C01C01 = .ok (.eget 7 none .b32 false 1 ⟨false, false, 8⟩ (.s 20) (.c 0) (.c 0)) ∧
  decodeWord .T true 0x0040200000001DC0 = .ok (.txend (some 3) ⟨false, 2⟩) ∧
  decodeWord .Y true 0x0000002103001D41 = .ok (.rycl 7 (some 2) 1 (.v 8) (.s 3)) ∧
  decodeWord .Z true 0x0080041106001CC0 = .ok (.tlbi (some 1) (some (.s 4, .s 6))) ∧
  decodeWord .G true 0x0080041106001C01 = .ok (.gsig none true (.s 4) (.s 6)) ∧
  decodeHeader 0x1100400040004000 = some ⟨.M, 1, 0, false, true, 1, 1⟩ ∧
  decodeHeader 0x0205800000014000 = some ⟨.V, 2, 5, true, false, 0, 5⟩ ∧
  decodeHeader 0xB000000000000000 = none ∧
  decodeWord .V true 0x0A80100803001C40 = .error .illOp ∧
  decodeWord .V true 0x01001DCC03001C00 = .error .illOperand

/-- R46, R48 to R60, R113 to R116: for every instruction that passes the operand checks, with every operand at every value they admit, decoding its word gives it back. The model's readings it rests on: log entry 17. -/
def Obligations.EncodeDecode : Prop := ∀ (i : Instr) (c : Cls) (w : DWord),
  encode i = some (c, w) → instrWf i = true → decodeWord c true w = .ok i

/-- R46, R48 to R60: each word has one meaning: a word that decodes is the word of the instruction it decodes to, so no bit of it is dropped and no reserved bit may be set. The model's readings it rests on: log entry 17. -/
def Obligations.DecodeEncode : Prop := ∀ (c : Cls) (last : Bool) (w : DWord) (i : Instr),
  decodeWord c last w = .ok i → encode i = some (c, w) ∧ instrWf i = true

/-- R44, R61, R97, R224, R365, R367: from every state that meets the invariant a step gives a state that meets it: both byte memories keep their canonical form, every train has em inside LIVE, p7 reading 1, its program counter a multiple of 8 and, in a bracket outside trap mode, em inside OPEN; the maps keep their order; MG_PLIMIT, ZS_HANG_LIMIT and ZS_LEASE stay in range. -/
def Obligations.StepKeepsInv : Prop := ∀ s t : State, s.Inv → step s = .next t → t.Inv

/-- R365, R367, R376: the reset state meets the invariant; compute is in reset with MG_STATE.SVC 0 and FAILCODE 0; the context registers hold the reset values of Table 22-4, each context's ZS_VCTX its own number; nothing is resident, accepted or queued. The registers that the spec gives no reset value are the model's choice (log entries 2 to 5) and are not stated. -/
def Obligations.ResetState : Prop :=
  State.reset.Inv ∧ State.reset.mg.svc = 0 ∧ State.reset.mg.failcode = 0 ∧ State.reset.trains = [] ∧ State.reset.wheels = [] ∧
  State.reset.dispatches = [] ∧ State.reset.nodes = [] ∧ State.reset.jobs = [] ∧ State.reset.agenda = [] ∧
  ∀ c, c < 16 → let x := State.reset.ctx c
    x.hangbuf = 0 ∧ x.hangLimit.toNat = 2 ^ 24 ∧ x.lease = 256 ∧ x.cpolconf = 0 ∧ x.ptbase = 0 ∧ x.xtag = 0 ∧ x.migthresh = 0 ∧
    x.worldtab = 0 ∧ x.hptpart = 0 ∧ x.vctx.toNat = c ∧ x.mxstep = 0 ∧ x.mxstall = 0 ∧ x.spillbase = 0 ∧ x.spillsize = 0
end

