-- ==== Sys2Proof/Laws/Dispatch.lean ====
section
/-! SUPPORT. Each arm of exec as an equation, so that no proof unfolds the whole match. -/

namespace Sys2Proof.Machine

theorem exec_mov (s : State) {x0 x1 x2 x3} : exec (.mov x0 x1 x2 x3) s = execMov x0 x1 x2 x3 s := rfl
theorem exec_movk (s : State) {x0 x1 x2 x3} : exec (.movk x0 x1 x2 x3) s = execMovk x0 x1 x2 x3 s := rfl
theorem exec_movs (s : State) {x0 x1 x2} : exec (.movs x0 x1 x2) s = execMovs x0 x1 x2 s := rfl
theorem exec_sel (s : State) {x0 x1 x2 x3 x4 x5} : exec (.sel x0 x1 x2 x3 x4 x5) s = execSel x0 x1 x2 x3 x4 x5 s := rfl
theorem exec_iadd (s : State) {x0 x1 x2 x3 x4 x5} : exec (.iadd x0 x1 x2 x3 x4 x5) s = execIadd x0 x1 x2 x3 x4 x5 s := rfl
theorem exec_isub (s : State) {x0 x1 x2 x3 x4 x5} : exec (.isub x0 x1 x2 x3 x4 x5) s = execIsub x0 x1 x2 x3 x4 x5 s := rfl
theorem exec_imul (s : State) {x0 x1 x2 x3 x4 x5} : exec (.imul x0 x1 x2 x3 x4 x5) s = execImul x0 x1 x2 x3 x4 x5 s := rfl
theorem exec_imulh (s : State) {x0 x1 x2 x3 x4} : exec (.imulh x0 x1 x2 x3 x4) s = execImulh x0 x1 x2 x3 x4 s := rfl
theorem exec_imad (s : State) {x0 x1 x2 x3 x4 x5 x6} : exec (.imad x0 x1 x2 x3 x4 x5 x6) s = execImad x0 x1 x2 x3 x4 x5 x6 s := rfl
theorem exec_imin (s : State) {x0 x1 x2 x3 x4} : exec (.imin x0 x1 x2 x3 x4) s = execImin x0 x1 x2 x3 x4 s := rfl
theorem exec_imax (s : State) {x0 x1 x2 x3 x4} : exec (.imax x0 x1 x2 x3 x4) s = execImax x0 x1 x2 x3 x4 s := rfl
theorem exec_iabs (s : State) {x0 x1 x2 x3 x4} : exec (.iabs x0 x1 x2 x3 x4) s = execIabs x0 x1 x2 x3 x4 s := rfl
theorem exec_iaddx (s : State) {x0 x1 x2 x3 x4} : exec (.iaddx x0 x1 x2 x3 x4) s = execIaddx x0 x1 x2 x3 x4 s := rfl
theorem exec_imadx (s : State) {x0 x1 x2 x3 x4 x5} : exec (.imadx x0 x1 x2 x3 x4 x5) s = execImadx x0 x1 x2 x3 x4 x5 s := rfl
theorem exec_and (s : State) {x0 x1 x2 x3 x4} : exec (.and x0 x1 x2 x3 x4) s = execAnd x0 x1 x2 x3 x4 s := rfl
theorem exec_or (s : State) {x0 x1 x2 x3 x4} : exec (.or x0 x1 x2 x3 x4) s = execOr x0 x1 x2 x3 x4 s := rfl
theorem exec_xor (s : State) {x0 x1 x2 x3 x4} : exec (.xor x0 x1 x2 x3 x4) s = execXor x0 x1 x2 x3 x4 s := rfl
theorem exec_andn (s : State) {x0 x1 x2 x3 x4} : exec (.andn x0 x1 x2 x3 x4) s = execAndn x0 x1 x2 x3 x4 s := rfl
theorem exec_lop3 (s : State) {x0 x1 x2 x3 x4} : exec (.lop3 x0 x1 x2 x3 x4) s = execLop3 x0 x1 x2 x3 x4 s := rfl
theorem exec_shl (s : State) {x0 x1 x2 x3 x4} : exec (.shl x0 x1 x2 x3 x4) s = execShl x0 x1 x2 x3 x4 s := rfl
theorem exec_shr (s : State) {x0 x1 x2 x3 x4} : exec (.shr x0 x1 x2 x3 x4) s = execShr x0 x1 x2 x3 x4 s := rfl
theorem exec_sra (s : State) {x0 x1 x2 x3 x4} : exec (.sra x0 x1 x2 x3 x4) s = execSra x0 x1 x2 x3 x4 s := rfl
theorem exec_rot (s : State) {x0 x1 x2 x3 x4} : exec (.rot x0 x1 x2 x3 x4) s = execRot x0 x1 x2 x3 x4 s := rfl
theorem exec_bfx (s : State) {x0 x1 x2 x3 x4} : exec (.bfx x0 x1 x2 x3 x4) s = execBfx x0 x1 x2 x3 x4 s := rfl
theorem exec_bfi (s : State) {x0 x1 x2 x3 x4 x5} : exec (.bfi x0 x1 x2 x3 x4 x5) s = execBfi x0 x1 x2 x3 x4 x5 s := rfl
theorem exec_popc (s : State) {x0 x1 x2 x3} : exec (.popc x0 x1 x2 x3) s = execPopc x0 x1 x2 x3 s := rfl
theorem exec_clz (s : State) {x0 x1 x2 x3} : exec (.clz x0 x1 x2 x3) s = execClz x0 x1 x2 x3 s := rfl
theorem exec_brev (s : State) {x0 x1 x2 x3} : exec (.brev x0 x1 x2 x3) s = execBrev x0 x1 x2 x3 s := rfl
theorem exec_icmp (s : State) {x0 x1 x2 x3 x4 x5} : exec (.icmp x0 x1 x2 x3 x4 x5) s = execIcmp x0 x1 x2 x3 x4 x5 s := rfl
theorem exec_fcmp (s : State) {x0 x1 x2 x3 x4} : exec (.fcmp x0 x1 x2 x3 x4) s = execFcmp x0 x1 x2 x3 x4 s := rfl
theorem exec_plop (s : State) {x0 x1 x2 x3 x4} : exec (.plop x0 x1 x2 x3 x4) s = execPlop x0 x1 x2 x3 x4 s := rfl
theorem exec_pmov (s : State) {x0 x1} : exec (.pmov x0 x1) s = execPmov x0 x1 s := rfl
theorem exec_fadd (s : State) {x0 x1 x2 x3 x4 x5} : exec (.fadd x0 x1 x2 x3 x4 x5) s = execFadd x0 x1 x2 x3 x4 x5 s := rfl
theorem exec_fsub (s : State) {x0 x1 x2 x3 x4 x5} : exec (.fsub x0 x1 x2 x3 x4 x5) s = execFsub x0 x1 x2 x3 x4 x5 s := rfl
theorem exec_fmul (s : State) {x0 x1 x2 x3 x4 x5} : exec (.fmul x0 x1 x2 x3 x4 x5) s = execFmul x0 x1 x2 x3 x4 x5 s := rfl
theorem exec_ffma (s : State) {x0 x1 x2 x3 x4 x5 x6} : exec (.ffma x0 x1 x2 x3 x4 x5 x6) s = execFfma x0 x1 x2 x3 x4 x5 x6 s := rfl
theorem exec_fmin (s : State) {x0 x1 x2 x3} : exec (.fmin x0 x1 x2 x3) s = execFmin x0 x1 x2 x3 s := rfl
theorem exec_fmax (s : State) {x0 x1 x2 x3} : exec (.fmax x0 x1 x2 x3) s = execFmax x0 x1 x2 x3 s := rfl
theorem exec_frnd (s : State) {x0 x1 x2 x3} : exec (.frnd x0 x1 x2 x3) s = execFrnd x0 x1 x2 x3 s := rfl
theorem exec_frcp (s : State) {x0 x1 x2} : exec (.frcp x0 x1 x2) s = execFrcp x0 x1 x2 s := rfl
theorem exec_frsq (s : State) {x0 x1 x2} : exec (.frsq x0 x1 x2) s = execFrsq x0 x1 x2 s := rfl
theorem exec_fsqrt (s : State) {x0 x1 x2} : exec (.fsqrt x0 x1 x2) s = execFsqrt x0 x1 x2 s := rfl
theorem exec_fexp2 (s : State) {x0 x1 x2} : exec (.fexp2 x0 x1 x2) s = execFexp2 x0 x1 x2 s := rfl
theorem exec_flog2 (s : State) {x0 x1 x2} : exec (.flog2 x0 x1 x2) s = execFlog2 x0 x1 x2 s := rfl
theorem exec_fsin (s : State) {x0 x1 x2} : exec (.fsin x0 x1 x2) s = execFsin x0 x1 x2 s := rfl
theorem exec_fcos (s : State) {x0 x1 x2} : exec (.fcos x0 x1 x2) s = execFcos x0 x1 x2 s := rfl
theorem exec_hadd2 (s : State) {x0 x1 x2 x3 x4 x5 x6} : exec (.hadd2 x0 x1 x2 x3 x4 x5 x6) s = execHadd2 x0 x1 x2 x3 x4 x5 x6 s := rfl
theorem exec_hmul2 (s : State) {x0 x1 x2 x3 x4 x5 x6} : exec (.hmul2 x0 x1 x2 x3 x4 x5 x6) s = execHmul2 x0 x1 x2 x3 x4 x5 x6 s := rfl
theorem exec_hfma2 (s : State) {x0 x1 x2 x3 x4 x5 x6 x7} : exec (.hfma2 x0 x1 x2 x3 x4 x5 x6 x7) s = execHfma2 x0 x1 x2 x3 x4 x5 x6 x7 s := rfl
theorem exec_cvti (s : State) {x0 x1 x2 x3 x4} : exec (.cvti x0 x1 x2 x3 x4) s = execCvti x0 x1 x2 x3 x4 s := rfl
theorem exec_cvtf (s : State) {x0 x1 x2 x3 x4} : exec (.cvtf x0 x1 x2 x3 x4) s = execCvtf x0 x1 x2 x3 x4 s := rfl
theorem exec_cvth (s : State) {x0 x1 x2} : exec (.cvth x0 x1 x2) s = execCvth x0 x1 x2 s := rfl
theorem exec_cvtn (s : State) {x0 x1 x2 x3} : exec (.cvtn x0 x1 x2 x3) s = execCvtn x0 x1 x2 x3 s := rfl
theorem exec_shfl (s : State) {x0 x1 x2 x3 x4 x5} : exec (.shfl x0 x1 x2 x3 x4 x5) s = execShfl x0 x1 x2 x3 x4 x5 s := rfl
theorem exec_shfx (s : State) {x0 x1 x2 x3 x4 x5 x6 x7} : exec (.shfx x0 x1 x2 x3 x4 x5 x6 x7) s = execShfx x0 x1 x2 x3 x4 x5 x6 x7 s := rfl
theorem exec_vote (s : State) {x0 x1 x2} : exec (.vote x0 x1 x2) s = execVote x0 x1 x2 s := rfl
theorem exec_rdlane (s : State) {x0 x1 x2 x3 x4} : exec (.rdlane x0 x1 x2 x3 x4) s = execRdlane x0 x1 x2 x3 x4 s := rfl
theorem exec_wrlane (s : State) {x0 x1 x2 x3 x4} : exec (.wrlane x0 x1 x2 x3 x4) s = execWrlane x0 x1 x2 x3 x4 s := rfl
theorem exec_iscan (s : State) {x0 x1 x2 x3 x4 x5} : exec (.iscan x0 x1 x2 x3 x4 x5) s = execIscan x0 x1 x2 x3 x4 x5 s := rfl
theorem exec_ired (s : State) {x0 x1 x2 x3 x4} : exec (.ired x0 x1 x2 x3 x4) s = execIred x0 x1 x2 x3 x4 s := rfl
theorem exec_emrd (s : State) {x0} : exec (.emrd x0) s = execEmrd x0 s := rfl
theorem exec_emwr (s : State) {x0} : exec (.emwr x0) s = execEmwr x0 s := rfl
theorem exec_emand (s : State) {x0} : exec (.emand x0) s = execEmand x0 s := rfl
theorem exec_emor (s : State) {x0} : exec (.emor x0) s = execEmor x0 s := rfl
theorem exec_ld (s : State) {x0 x1 x2 x3 x4 x5 x6} : exec (.ld x0 x1 x2 x3 x4 x5 x6) s = execLd x0 x1 x2 x3 x4 x5 x6 s := rfl
theorem exec_st (s : State) {x0 x1 x2 x3 x4 x5 x6} : exec (.st x0 x1 x2 x3 x4 x5 x6) s = execSt x0 x1 x2 x3 x4 x5 x6 s := rfl
theorem exec_ldp (s : State) {x0 x1 x2 x3 x4 x5} : exec (.ldp x0 x1 x2 x3 x4 x5) s = execLdp x0 x1 x2 x3 x4 x5 s := rfl
theorem exec_lds (s : State) {x0 x1 x2 x3 x4} : exec (.lds x0 x1 x2 x3 x4) s = execLds x0 x1 x2 x3 x4 s := rfl
theorem exec_sts (s : State) {x0 x1 x2 x3 x4} : exec (.sts x0 x1 x2 x3 x4) s = execSts x0 x1 x2 x3 x4 s := rfl
theorem exec_ldl (s : State) {x0 x1 x2 x3 x4} : exec (.ldl x0 x1 x2 x3 x4) s = execLdl x0 x1 x2 x3 x4 s := rfl
theorem exec_stl (s : State) {x0 x1 x2 x3 x4} : exec (.stl x0 x1 x2 x3 x4) s = execStl x0 x1 x2 x3 x4 s := rfl
theorem exec_ldw (s : State) {x0 x1 x2 x3 x4} : exec (.ldw x0 x1 x2 x3 x4) s = execLdw x0 x1 x2 x3 x4 s := rfl
theorem exec_atom (s : State) {x0 x1 x2 x3 x4 x5 x6 x7} : exec (.atom x0 x1 x2 x3 x4 x5 x6 x7) s = execAtom x0 x1 x2 x3 x4 x5 x6 x7 s := rfl
theorem exec_red (s : State) {x0 x1 x2 x3 x4 x5 x6} : exec (.red x0 x1 x2 x3 x4 x5 x6) s = execRed x0 x1 x2 x3 x4 x5 x6 s := rfl
theorem exec_cas (s : State) {x0 x1 x2 x3 x4 x5 x6} : exec (.cas x0 x1 x2 x3 x4 x5 x6) s = execCas x0 x1 x2 x3 x4 x5 x6 s := rfl
theorem exec_atoml (s : State) {x0 x1 x2 x3 x4 x5 x6} : exec (.atoml x0 x1 x2 x3 x4 x5 x6) s = execAtoml x0 x1 x2 x3 x4 x5 x6 s := rfl
theorem exec_casl (s : State) {x0 x1 x2 x3 x4 x5} : exec (.casl x0 x1 x2 x3 x4 x5) s = execCasl x0 x1 x2 x3 x4 x5 s := rfl
theorem exec_fence (s : State) {x0 x1} : exec (.fence x0 x1) s = execFence x0 x1 s := rfl
theorem exec_drain (s : State) {x0 x1} : exec (.drain x0 x1) s = execDrain x0 x1 s := rfl
theorem exec_barw (s : State) {x0 x1 x2} : exec (.barw x0 x1 x2) s = execBarw x0 x1 x2 s := rfl
theorem exec_bara (s : State) {x0 x1 x2} : exec (.bara x0 x1 x2) s = execBara x0 x1 x2 s := rfl
theorem exec_barm (s : State) {x0 x1 x2 x3} : exec (.barm x0 x1 x2 x3) s = execBarm x0 x1 x2 x3 s := rfl
theorem exec_barinit (s : State) {x0 x1 x2 x3} : exec (.barinit x0 x1 x2 x3) s = execBarinit x0 x1 x2 x3 s := rfl
theorem exec_mon (s : State) {x0 x1 x2 x3 x4 x5} : exec (.mon x0 x1 x2 x3 x4 x5) s = execMon x0 x1 x2 x3 x4 x5 s := rfl
theorem exec_mwait (s : State) {x0 x1} : exec (.mwait x0 x1) s = execMwait x0 x1 s := rfl
theorem exec_prf (s : State) {x0 x1 x2 x3 x4} : exec (.prf x0 x1 x2 x3 x4) s = execPrf x0 x1 x2 x3 x4 s := rfl
theorem exec_own (s : State) {x0 x1 x2 x3} : exec (.own x0 x1 x2 x3) s = execOwn x0 x1 x2 x3 s := rfl
theorem exec_unown (s : State) {x0 x1 x2 x3} : exec (.unown x0 x1 x2 x3) s = execUnown x0 x1 x2 x3 s := rfl
theorem exec_cwb (s : State) {x0 x1 x2 x3} : exec (.cwb x0 x1 x2 x3) s = execCwb x0 x1 x2 x3 s := rfl
theorem exec_cinv (s : State) {x0 x1 x2 x3} : exec (.cinv x0 x1 x2 x3) s = execCinv x0 x1 x2 x3 s := rfl
theorem exec_bra (s : State) {x0 x1} : exec (.bra x0 x1) s = execBra x0 x1 s := rfl
theorem exec_brz (s : State) {x0 x1 x2} : exec (.brz x0 x1 x2) s = execBrz x0 x1 x2 s := rfl
theorem exec_brnz (s : State) {x0 x1 x2} : exec (.brnz x0 x1 x2) s = execBrnz x0 x1 x2 s := rfl
theorem exec_brany (s : State) {x0 x1 x2} : exec (.brany x0 x1 x2) s = execBrany x0 x1 x2 s := rfl
theorem exec_brall (s : State) {x0 x1 x2} : exec (.brall x0 x1 x2) s = execBrall x0 x1 x2 s := rfl
theorem exec_call (s : State) {x0 x1 x2} : exec (.call x0 x1 x2) s = execCall x0 x1 x2 s := rfl
theorem exec_ret (s : State) {x0 x1} : exec (.ret x0 x1) s = execRet x0 x1 s := rfl
theorem exec_jmpi (s : State) {x0 x1} : exec (.jmpi x0 x1) s = execJmpi x0 x1 s := rfl
theorem exec_loop (s : State) {x0 x1 x2} : exec (.loop x0 x1 x2) s = execLoop x0 x1 x2 s := rfl
theorem exec_exit (s : State) {x0} : exec (.exit x0) s = execExit x0 s := rfl
theorem exec_yield (s : State) {x0} : exec (.yield x0) s = execYield x0 s := rfl
theorem exec_yieldc (s : State) {x0 x1 x2} : exec (.yieldc x0 x1 x2) s = execYieldc x0 x1 x2 s := rfl
theorem exec_trap (s : State) {x0 x1} : exec (.trap x0 x1) s = execTrap x0 x1 s := rfl
theorem exec_brk (s : State) {x0 x1} : exec (.brk x0 x1) s = execBrk x0 x1 s := rfl
theorem exec_nop (s : State) {x0} : exec (.nop x0) s = execNop x0 s := rfl
theorem exec_tcfg (s : State) {x0 x1 x2} : exec (.tcfg x0 x1 x2) s = execTcfg x0 x1 x2 s := rfl
theorem exec_tld (s : State) {x0 x1 x2 x3} : exec (.tld x0 x1 x2 x3) s = execTld x0 x1 x2 x3 s := rfl
theorem exec_tst (s : State) {x0 x1 x2 x3} : exec (.tst x0 x1 x2 x3) s = execTst x0 x1 x2 x3 s := rfl
theorem exec_tzero (s : State) {x0 x1} : exec (.tzero x0 x1) s = execTzero x0 x1 s := rfl
theorem exec_tmma (s : State) {x0 x1 x2 x3} : exec (.tmma x0 x1 x2 x3) s = execTmma x0 x1 x2 x3 s := rfl
theorem exec_tloop (s : State) {x0 x1 x2 x3 x4} : exec (.tloop x0 x1 x2 x3 x4) s = execTloop x0 x1 x2 x3 x4 s := rfl
theorem exec_tmmb (s : State) {x0 x1 x2 x3} : exec (.tmmb x0 x1 x2 x3) s = execTmmb x0 x1 x2 x3 s := rfl
theorem exec_tvxm (s : State) {x0 x1 x2 x3 x4 x5 x6} : exec (.tvxm x0 x1 x2 x3 x4 x5 x6) s = execTvxm x0 x1 x2 x3 x4 x5 x6 s := rfl
theorem exec_tdrain (s : State) {x0 x1 x2 x3 x4 x5} : exec (.tdrain x0 x1 x2 x3 x4 x5) s = execTdrain x0 x1 x2 x3 x4 x5 s := rfl
theorem exec_twait (s : State) {x0 x1} : exec (.twait x0 x1) s = execTwait x0 x1 s := rfl
theorem exec_tcvt (s : State) {x0 x1 x2} : exec (.tcvt x0 x1 x2) s = execTcvt x0 x1 x2 s := rfl
theorem exec_ttr (s : State) {x0 x1 x2} : exec (.ttr x0 x1 x2) s = execTtr x0 x1 x2 s := rfl
theorem exec_tfill (s : State) {x0 x1 x2} : exec (.tfill x0 x1 x2) s = execTfill x0 x1 x2 s := rfl
theorem exec_wsync (s : State) {x0 x1 x2} : exec (.wsync x0 x1 x2) s = execWsync x0 x1 x2 s := rfl
theorem exec_wsinfo (s : State) {x0 x1 x2} : exec (.wsinfo x0 x1 x2) s = execWsinfo x0 x1 x2 s := rfl
theorem exec_cpy (s : State) {x0 x1 x2 x3 x4} : exec (.cpy x0 x1 x2 x3 x4) s = execCpy x0 x1 x2 x3 x4 s := rfl
theorem exec_cpym (s : State) {x0 x1 x2 x3 x4} : exec (.cpym x0 x1 x2 x3 x4) s = execCpym x0 x1 x2 x3 x4 s := rfl
theorem exec_cpt (s : State) {x0 x1 x2 x3 x4} : exec (.cpt x0 x1 x2 x3 x4) s = execCpt x0 x1 x2 x3 x4 s := rfl
theorem exec_cpg (s : State) {x0 x1 x2 x3 x4} : exec (.cpg x0 x1 x2 x3 x4) s = execCpg x0 x1 x2 x3 x4 s := rfl
theorem exec_tbinit (s : State) {x0 x1 x2 x3} : exec (.tbinit x0 x1 x2 x3) s = execTbinit x0 x1 x2 x3 s := rfl
theorem exec_tbarr (s : State) {x0 x1 x2 x3} : exec (.tbarr x0 x1 x2 x3) s = execTbarr x0 x1 x2 x3 s := rfl
theorem exec_tbexp (s : State) {x0 x1 x2} : exec (.tbexp x0 x1 x2) s = execTbexp x0 x1 x2 s := rfl
theorem exec_tbwait (s : State) {x0 x1 x2} : exec (.tbwait x0 x1 x2) s = execTbwait x0 x1 x2 s := rfl
theorem exec_rbind (s : State) {x0 x1 x2} : exec (.rbind x0 x1 x2) s = execRbind x0 x1 x2 s := rfl
theorem exec_racq (s : State) {x0 x1 x2} : exec (.racq x0 x1 x2) s = execRacq x0 x1 x2 s := rfl
theorem exec_rrel (s : State) {x0 x1 x2} : exec (.rrel x0 x1 x2) s = execRrel x0 x1 x2 s := rfl
theorem exec_srd (s : State) {x0 x1 x2} : exec (.srd x0 x1 x2) s = execSrd x0 x1 x2 s := rfl
theorem exec_eqry (s : State) {x0 x1 x2 x3 x4} : exec (.eqry x0 x1 x2 x3 x4) s = execEqry x0 x1 x2 x3 x4 s := rfl
theorem exec_enext (s : State) {x0 x1 x2} : exec (.enext x0 x1 x2) s = execEnext x0 x1 x2 s := rfl
theorem exec_erow (s : State) {x0 x1 x2 x3 x4 x5} : exec (.erow x0 x1 x2 x3 x4 x5) s = execErow x0 x1 x2 x3 x4 x5 s := rfl
theorem exec_ecol (s : State) {x0 x1 x2 x3 x4 x5 x6} : exec (.ecol x0 x1 x2 x3 x4 x5 x6) s = execEcol x0 x1 x2 x3 x4 x5 x6 s := rfl
theorem exec_ehchk (s : State) {x0 x1 x2 x3} : exec (.ehchk x0 x1 x2 x3) s = execEhchk x0 x1 x2 x3 s := rfl
theorem exec_eget (s : State) {x0 x1 x2 x3 x4 x5 x6 x7 x8} : exec (.eget x0 x1 x2 x3 x4 x5 x6 x7 x8) s = execEget x0 x1 x2 x3 x4 x5 x6 x7 x8 s := rfl
theorem exec_eput (s : State) {x0 x1 x2 x3 x4 x5 x6 x7 x8} : exec (.eput x0 x1 x2 x3 x4 x5 x6 x7 x8) s = execEput x0 x1 x2 x3 x4 x5 x6 x7 x8 s := rfl
theorem exec_ecrt (s : State) {x0 x1 x2 x3 x4 x5} : exec (.ecrt x0 x1 x2 x3 x4 x5) s = execEcrt x0 x1 x2 x3 x4 x5 s := rfl
theorem exec_edel (s : State) {x0 x1 x2 x3 x4} : exec (.edel x0 x1 x2 x3 x4) s = execEdel x0 x1 x2 x3 x4 s := rfl
theorem exec_eadd (s : State) {x0 x1 x2 x3 x4 x5 x6 x7} : exec (.eadd x0 x1 x2 x3 x4 x5 x6 x7) s = execEadd x0 x1 x2 x3 x4 x5 x6 x7 s := rfl
theorem exec_erem (s : State) {x0 x1 x2 x3 x4 x5} : exec (.erem x0 x1 x2 x3 x4 x5) s = execErem x0 x1 x2 x3 x4 x5 s := rfl
theorem exec_eset (s : State) {x0 x1 x2 x3 x4 x5 x6 x7} : exec (.eset x0 x1 x2 x3 x4 x5 x6 x7) s = execEset x0 x1 x2 x3 x4 x5 x6 x7 s := rfl
theorem exec_ecmt (s : State) {x0 x1 x2} : exec (.ecmt x0 x1 x2) s = execEcmt x0 x1 x2 s := rfl
theorem exec_esync (s : State) {x0 x1 x2} : exec (.esync x0 x1 x2) s = execEsync x0 x1 x2 s := rfl
theorem exec_epin (s : State) {x0 x1 x2 x3 x4} : exec (.epin x0 x1 x2 x3 x4) s = execEpin x0 x1 x2 x3 x4 s := rfl
theorem exec_eunpin (s : State) {x0 x1 x2} : exec (.eunpin x0 x1 x2) s = execEunpin x0 x1 x2 s := rfl
theorem exec_ever (s : State) {x0 x1 x2 x3} : exec (.ever x0 x1 x2 x3) s = execEver x0 x1 x2 x3 s := rfl
theorem exec_txbeg (s : State) {x0 x1} : exec (.txbeg x0 x1) s = execTxbeg x0 x1 s := rfl
theorem exec_txend (s : State) {x0 x1} : exec (.txend x0 x1) s = execTxend x0 x1 s := rfl
theorem exec_txabt (s : State) {x0 x1} : exec (.txabt x0 x1) s = execTxabt x0 x1 s := rfl
theorem exec_txst (s : State) {x0 x1 x2} : exec (.txst x0 x1 x2) s = execTxst x0 x1 x2 s := rfl
theorem exec_txcause (s : State) {x0 x1 x2} : exec (.txcause x0 x1 x2) s = execTxcause x0 x1 x2 s := rfl
theorem exec_rycl (s : State) {x0 x1 x2 x3 x4} : exec (.rycl x0 x1 x2 x3 x4) s = execRycl x0 x1 x2 x3 x4 s := rfl
theorem exec_ryany (s : State) {x0 x1 x2 x3} : exec (.ryany x0 x1 x2 x3) s = execRyany x0 x1 x2 x3 s := rfl
theorem exec_ryocc (s : State) {x0 x1 x2 x3 x4} : exec (.ryocc x0 x1 x2 x3 x4) s = execRyocc x0 x1 x2 x3 x4 s := rfl
theorem exec_ryacc (s : State) {x0 x1 x2} : exec (.ryacc x0 x1 x2) s = execRyacc x0 x1 x2 s := rfl
theorem exec_ryres (s : State) {x0 x1 x2 x3} : exec (.ryres x0 x1 x2 x3) s = execRyres x0 x1 x2 x3 s := rfl
theorem exec_rywait (s : State) {x0 x1} : exec (.rywait x0 x1) s = execRywait x0 x1 s := rfl
theorem exec_ryinv (s : State) {x0 x1} : exec (.ryinv x0 x1) s = execRyinv x0 x1 s := rfl
theorem exec_rygeo (s : State) {x0 x1 x2} : exec (.rygeo x0 x1 x2) s = execRygeo x0 x1 x2 s := rfl
theorem exec_rypst (s : State) {x0 x1 x2} : exec (.rypst x0 x1 x2) s = execRypst x0 x1 x2 s := rfl
theorem exec_zrd (s : State) {x0 x1 x2} : exec (.zrd x0 x1 x2) s = execZrd x0 x1 x2 s := rfl
theorem exec_zwr (s : State) {x0 x1 x2} : exec (.zwr x0 x1 x2) s = execZwr x0 x1 x2 s := rfl
theorem exec_tlbi (s : State) {x0 x1} : exec (.tlbi x0 x1) s = execTlbi x0 x1 s := rfl
theorem exec_tlbsync (s : State) {x0} : exec (.tlbsync x0) s = execTlbsync x0 s := rfl
theorem exec_trapret (s : State) {x0} : exec (.trapret x0) s = execTrapret x0 s := rfl
theorem exec_ctxsv (s : State) {x0 x1 x2 x3} : exec (.ctxsv x0 x1 x2 x3) s = execCtxsv x0 x1 x2 x3 s := rfl
theorem exec_ctxld (s : State) {x0 x1 x2 x3} : exec (.ctxld x0 x1 x2 x3) s = execCtxld x0 x1 x2 x3 s := rfl
theorem exec_wsld (s : State) {x0 x1 x2 x3} : exec (.wsld x0 x1 x2 x3) s = execWsld x0 x1 x2 x3 s := rfl
theorem exec_gsub (s : State) {x0 x1 x2 x3} : exec (.gsub x0 x1 x2 x3) s = execGsub x0 x1 x2 x3 s := rfl
theorem exec_gkick (s : State) {x0 x1 x2 x3} : exec (.gkick x0 x1 x2 x3) s = execGkick x0 x1 x2 x3 s := rfl
theorem exec_gsig (s : State) {x0 x1 x2 x3} : exec (.gsig x0 x1 x2 x3) s = execGsig x0 x1 x2 x3 s := rfl
theorem exec_gwait (s : State) {x0 x1 x2} : exec (.gwait x0 x1 x2) s = execGwait x0 x1 x2 s := rfl
theorem exec_gdep (s : State) {x0 x1 x2 x3} : exec (.gdep x0 x1 x2 x3) s = execGdep x0 x1 x2 x3 s := rfl
theorem exec_movK (s : State) {x0 x1 x2} : exec (.movK x0 x1 x2) s = execMovK x0 x1 x2 s := rfl
theorem exec_iaddK (s : State) {x0 x1 x2 x3} : exec (.iaddK x0 x1 x2 x3) s = execIaddK x0 x1 x2 x3 s := rfl
theorem exec_isubK (s : State) {x0 x1 x2 x3} : exec (.isubK x0 x1 x2 x3) s = execIsubK x0 x1 x2 x3 s := rfl
theorem exec_imulK (s : State) {x0 x1 x2 x3} : exec (.imulK x0 x1 x2 x3) s = execImulK x0 x1 x2 x3 s := rfl
theorem exec_andK (s : State) {x0 x1 x2 x3} : exec (.andK x0 x1 x2 x3) s = execAndK x0 x1 x2 x3 s := rfl
theorem exec_orK (s : State) {x0 x1 x2 x3} : exec (.orK x0 x1 x2 x3) s = execOrK x0 x1 x2 x3 s := rfl
theorem exec_xorK (s : State) {x0 x1 x2 x3} : exec (.xorK x0 x1 x2 x3) s = execXorK x0 x1 x2 x3 s := rfl
theorem exec_shlK (s : State) {x0 x1 x2 x3} : exec (.shlK x0 x1 x2 x3) s = execShlK x0 x1 x2 x3 s := rfl
theorem exec_shrK (s : State) {x0 x1 x2 x3} : exec (.shrK x0 x1 x2 x3) s = execShrK x0 x1 x2 x3 s := rfl
theorem exec_sraK (s : State) {x0 x1 x2 x3} : exec (.sraK x0 x1 x2 x3) s = execSraK x0 x1 x2 x3 s := rfl
theorem exec_faddK (s : State) {x0 x1 x2 x3} : exec (.faddK x0 x1 x2 x3) s = execFaddK x0 x1 x2 x3 s := rfl
theorem exec_fmulK (s : State) {x0 x1 x2 x3} : exec (.fmulK x0 x1 x2 x3) s = execFmulK x0 x1 x2 x3 s := rfl
theorem exec_escapementChoose (s : State) {x0 x1} : exec (.escapementChoose x0 x1) s = execEscapementChoose x0 x1 s := rfl
theorem exec_readyWaitLimit (s : State) {x0} : exec (.readyWaitLimit x0) s = execReadyWaitLimit x0 s := rfl
theorem exec_deferredTrap (s : State) {x0} : exec (.deferredTrap x0) s = execDeferredTrap x0 s := rfl
theorem exec_eHang (s : State) {x0} : exec (.eHang x0) s = execEHang x0 s := rfl
theorem exec_clockTick (s : State) {x0 x1 x2 x3} : exec (.clockTick x0 x1 x2 x3) s = execClockTick x0 x1 x2 x3 s := rfl
theorem exec_storeFifoEntryLeave (s : State) {x0} : exec (.storeFifoEntryLeave x0) s = execStoreFifoEntryLeave x0 s := rfl
theorem exec_writePerformed (s : State) {x0 x1} : exec (.writePerformed x0 x1) s = execWritePerformed x0 x1 s := rfl
theorem exec_releaseMarkerCounted (s : State) {x0 x1} : exec (.releaseMarkerCounted x0 x1) s = execReleaseMarkerCounted x0 x1 s := rfl
theorem exec_loadValueReturn (s : State) {x0 x1} : exec (.loadValueReturn x0 x1) s = execLoadValueReturn x0 x1 s := rfl
theorem exec_monitorWake (s : State) {x0} : exec (.monitorWake x0) s = execMonitorWake x0 s := rfl
theorem exec_walkStart (s : State) {x0} : exec (.walkStart x0) s = execWalkStart x0 s := rfl
theorem exec_walkComplete (s : State) {x0} : exec (.walkComplete x0) s = execWalkComplete x0 s := rfl
theorem exec_fbHeadWrite (s : State) {x0 x1} : exec (.fbHeadWrite x0 x1) s = execFbHeadWrite x0 x1 s := rfl
theorem exec_fbStatusDroppedClear (s : State) {x0} : exec (.fbStatusDroppedClear x0) s = execFbStatusDroppedClear x0 s := rfl
theorem exec_fbReplayGo (s : State) {x0} : exec (.fbReplayGo x0) s = execFbReplayGo x0 s := rfl
theorem exec_chimeNotification (s : State) {x0} : exec (.chimeNotification x0) s = execChimeNotification x0 s := rfl
theorem exec_chimeHeadWrite (s : State) {x0} : exec (.chimeHeadWrite x0) s = execChimeHeadWrite x0 s := rfl
theorem exec_tlbiInvalidationBegin (s : State) {x0 x1} : exec (.tlbiInvalidationBegin x0 x1) s = execTlbiInvalidationBegin x0 x1 s := rfl
theorem exec_wheelAdmit (s : State) {x0 x1 x2} : exec (.wheelAdmit x0 x1 x2) s = execWheelAdmit x0 x1 x2 s := rfl
theorem exec_trainEnd (s : State) {x0} : exec (.trainEnd x0) s = execTrainEnd x0 s := rfl
theorem exec_preemptRequest (s : State) {x0} : exec (.preemptRequest x0) s = execPreemptRequest x0 s := rfl
theorem exec_preemptStop (s : State) {x0} : exec (.preemptStop x0) s = execPreemptStop x0 s := rfl
theorem exec_contextResume (s : State) {x0} : exec (.contextResume x0) s = execContextResume x0 s := rfl
theorem exec_syncPointPublish (s : State) {x0} : exec (.syncPointPublish x0) s = execSyncPointPublish x0 s := rfl
theorem exec_commitStep (s : State) {x0} : exec (.commitStep x0) s = execCommitStep x0 s := rfl
theorem exec_serialTokenGrant (s : State) {x0} : exec (.serialTokenGrant x0) s = execSerialTokenGrant x0 s := rfl
theorem exec_tokenHoldLimit (s : State) {x0} : exec (.tokenHoldLimit x0) s = execTokenHoldLimit x0 s := rfl
theorem exec_jobStart (s : State) {x0} : exec (.jobStart x0) s = execJobStart x0 s := rfl
theorem exec_sectorDeliver (s : State) {x0 x1} : exec (.sectorDeliver x0 x1) s = execSectorDeliver x0 x1 s := rfl
theorem exec_loopSequencerStep (s : State) {x0 x1} : exec (.loopSequencerStep x0 x1) s = execLoopSequencerStep x0 x1 s := rfl
theorem exec_tenantSplit (s : State) {x0} : exec (.tenantSplit x0) s = execTenantSplit x0 s := rfl
theorem exec_refreshWindowEnd (s : State) {x0} : exec (.refreshWindowEnd x0) s = execRefreshWindowEnd x0 s := rfl
theorem exec_candidatePresent (s : State) {x0 x1} : exec (.candidatePresent x0 x1) s = execCandidatePresent x0 x1 s := rfl
theorem exec_rayQueryComplete (s : State) {x0} : exec (.rayQueryComplete x0) s = execRayQueryComplete x0 s := rfl
theorem exec_ringEnable (s : State) {x0 x1} : exec (.ringEnable x0 x1) s = execRingEnable x0 x1 s := rfl
theorem exec_ringRecWrite (s : State) {x0 x1} : exec (.ringRecWrite x0 x1) s = execRingRecWrite x0 x1 s := rfl
theorem exec_ringKick (s : State) {x0 x1 x2} : exec (.ringKick x0 x1 x2) s = execRingKick x0 x1 x2 s := rfl
theorem exec_ringStatusWrite (s : State) {x0 x1} : exec (.ringStatusWrite x0 x1) s = execRingStatusWrite x0 x1 s := rfl
theorem exec_packetAccept (s : State) {x0} : exec (.packetAccept x0) s = execPacketAccept x0 s := rfl
theorem exec_stuck (s : State) {x0} : exec (.stuck x0) s = execStuck x0 s := rfl
theorem exec_nodeStart (s : State) {x0} : exec (.nodeStart x0) s = execNodeStart x0 s := rfl
theorem exec_nodeComplete (s : State) {x0} : exec (.nodeComplete x0) s = execNodeComplete x0 s := rfl
theorem exec_nodeFail (s : State) {x0} : exec (.nodeFail x0) s = execNodeFail x0 s := rfl
theorem exec_mgPlimitWrite (s : State) {x0} : exec (.mgPlimitWrite x0) s = execMgPlimitWrite x0 s := rfl
theorem exec_contextRegisterWrite (s : State) {x0 x1 x2} : exec (.contextRegisterWrite x0 x1 x2) s = execContextRegisterWrite x0 x1 x2 s := rfl
theorem exec_registerWrite (s : State) {x0 x1} : exec (.registerWrite x0 x1) s = execRegisterWrite x0 x1 s := rfl
theorem exec_hostWriteIgnored (s : State) {x0 x1} : exec (.hostWriteIgnored x0 x1) s = execHostWriteIgnored x0 x1 s := rfl
theorem exec_hostAccess (s : State) {x0} : exec (.hostAccess x0) s = execHostAccess x0 s := rfl
theorem exec_firmwareVerify (s : State) {x0} : exec (.firmwareVerify x0) s = execFirmwareVerify x0 s := rfl
theorem exec_esuOperation (s : State) {x0} : exec (.esuOperation x0) s = execEsuOperation x0 s := rfl
theorem exec_matrixInstructionComplete (s : State) {x0 x1} : exec (.matrixInstructionComplete x0 x1) s = execMatrixInstructionComplete x0 x1 s := rfl
theorem exec_weightStoreWriteComplete (s : State) {x0} : exec (.weightStoreWriteComplete x0) s = execWeightStoreWriteComplete x0 s := rfl
theorem exec_eEcc (s : State) {x0 x1 x2} : exec (.eEcc x0 x1 x2) s = execEEcc x0 x1 x2 s := rfl
theorem exec_eTenant (s : State) {x0 x1} : exec (.eTenant x0 x1) s = execETenant x0 x1 s := rfl
theorem exec_ownershipRecall (s : State) {x0} : exec (.ownershipRecall x0) s = execOwnershipRecall x0 s := rfl
theorem exec_watchLost (s : State) {x0} : exec (.watchLost x0) s = execWatchLost x0 s := rfl
theorem exec_chimeOverflowClear (s : State) : exec .chimeOverflowClear s = execChimeOverflowClear s := rfl
theorem exec_objectLoad (s : State) {x0 x1 x2} : exec (.objectLoad x0 x1 x2) s = execObjectLoad x0 x1 x2 s := rfl
theorem exec_mgClkrstGo (s : State) : exec .mgClkrstGo s = execMgClkrstGo s := rfl
theorem exec_hostwrClear (s : State) : exec .hostwrClear s = execHostwrClear s := rfl
theorem exec_badwrClear (s : State) : exec .badwrClear s = execBadwrClear s := rfl
theorem exec_hostWarmRestart (s : State) {x0} : exec (.hostWarmRestart x0) s = execHostWarmRestart x0 s := rfl
theorem exec_powerOn (s : State) : exec .powerOn s = execPowerOn s := rfl
theorem exec_selfTestComplete (s : State) : exec .selfTestComplete s = execSelfTestComplete s := rfl
theorem exec_selfTestFail (s : State) {x0} : exec (.selfTestFail x0) s = execSelfTestFail x0 s := rfl
theorem exec_fullServiceChange (s : State) : exec .fullServiceChange s = execFullServiceChange s := rfl
theorem exec_powerLimitExceeded (s : State) {x0 x1} : exec (.powerLimitExceeded x0 x1) s = execPowerLimitExceeded x0 x1 s := rfl
theorem exec_thermalStop (s : State) {x0} : exec (.thermalStop x0) s = execThermalStop x0 s := rfl
theorem exec_thermalRecover (s : State) {x0} : exec (.thermalRecover x0) s = execThermalRecover x0 s := rfl
theorem exec_hostReconnect (s : State) {x0} : exec (.hostReconnect x0) s = execHostReconnect x0 s := rfl

end Sys2Proof.Machine
end

