-- ==== Sys2Proof/Laws/Encoding.lean ====
section
/-! SUPPORT. Fields of a word read back after they are written, a word put together again from its fields, and codes of the small types. -/

namespace Sys2Proof

/-! ## Formats -/

/-- The fields of a word that was put together from them. -/
@[simp] theorem VF.ofWord_toWord (f : VF) : VF.ofWord f.toWord = f := by
  obtain ⟨a0, a1, a2, a3, a4, a5, a6, a7, a8⟩ := f
  simp only [VF.ofWord, VF.toWord, VF.mk.injEq]
  refine ⟨?_, ?_, ?_, ?_, ?_, ?_, ?_, ?_, ?_⟩ <;> ext k hk <;>
    simp only [BitVec.getElem_extractLsb', BitVec.getLsbD_append] <;> (try simp [BitVec.getLsbD_eq_getElem, hk]) <;> grind

/-- A word is its fields. -/
@[simp] theorem VF.toWord_ofWord (w : DWord) : (VF.ofWord w).toWord = w := by
  refine BitVec.eq_of_getLsbD_eq fun k hk => ?_
  simp only [VF.ofWord, VF.toWord, BitVec.getLsbD_append, BitVec.getLsbD_extractLsb']
  repeat' split
  all_goals grind

/-- The fields of a word that was put together from them. -/
@[simp] theorem KF.ofWord_toWord (f : KF) : KF.ofWord f.toWord = f := by
  obtain ⟨a0, a1, a2, a3, a4⟩ := f
  simp only [KF.ofWord, KF.toWord, KF.mk.injEq]
  refine ⟨?_, ?_, ?_, ?_, ?_⟩ <;> ext k hk <;>
    simp only [BitVec.getElem_extractLsb', BitVec.getLsbD_append] <;> (try simp [BitVec.getLsbD_eq_getElem, hk]) <;> grind

/-- A word is its fields. -/
@[simp] theorem KF.toWord_ofWord (w : DWord) : (KF.ofWord w).toWord = w := by
  refine BitVec.eq_of_getLsbD_eq fun k hk => ?_
  simp only [KF.ofWord, KF.toWord, BitVec.getLsbD_append, BitVec.getLsbD_extractLsb']
  repeat' split
  all_goals grind

/-- The fields of a word that was put together from them. -/
@[simp] theorem MF.ofWord_toWord (f : MF) : MF.ofWord f.toWord = f := by
  obtain ⟨a0, a1, a2, a3, a4, a5, a6, a7, a8, a9⟩ := f
  simp only [MF.ofWord, MF.toWord, MF.mk.injEq]
  refine ⟨?_, ?_, ?_, ?_, ?_, ?_, ?_, ?_, ?_, ?_⟩ <;> ext k hk <;>
    simp only [BitVec.getElem_extractLsb', BitVec.getLsbD_append] <;> (try simp [BitVec.getLsbD_eq_getElem, hk]) <;> grind

/-- A word is its fields. -/
@[simp] theorem MF.toWord_ofWord (w : DWord) : (MF.ofWord w).toWord = w := by
  refine BitVec.eq_of_getLsbD_eq fun k hk => ?_
  simp only [MF.ofWord, MF.toWord, BitVec.getLsbD_append, BitVec.getLsbD_extractLsb']
  repeat' split
  all_goals grind

/-- The fields of a word that was put together from them. -/
@[simp] theorem BF.ofWord_toWord (f : BF) : BF.ofWord f.toWord = f := by
  obtain ⟨a0, a1, a2, a3, a4⟩ := f
  simp only [BF.ofWord, BF.toWord, BF.mk.injEq]
  refine ⟨?_, ?_, ?_, ?_, ?_⟩ <;> ext k hk <;>
    simp only [BitVec.getElem_extractLsb', BitVec.getLsbD_append] <;> (try simp [BitVec.getLsbD_eq_getElem, hk]) <;> grind

/-- A word is its fields. -/
@[simp] theorem BF.toWord_ofWord (w : DWord) : (BF.ofWord w).toWord = w := by
  refine BitVec.eq_of_getLsbD_eq fun k hk => ?_
  simp only [BF.ofWord, BF.toWord, BitVec.getLsbD_append, BitVec.getLsbD_extractLsb']
  repeat' split
  all_goals grind

/-! ## Operands -/

theorem decSrc_encSrc (x : Src) : decSrc (encSrc x) = .ok x := by
  cases x with
  | v i => revert i; decide
  | s i => revert i; decide
  | b i => revert i; decide
  | c i => revert i; decide

theorem decDst_encDst (d : Dst) : decDst (encDst d) = d := by
  obtain ⟨a, b, c⟩ := d
  revert c
  cases a <;> cases b <;> decide

theorem decPDst_encPDst (d : PDst) : decPDst (encPDst d) = .ok d := by
  obtain ⟨a, p⟩ := d
  revert p
  cases a <;> decide

theorem decP_encP (p : BitVec 3) : decP (encP p) = .ok p := by revert p; decide

theorem decS_encS (n : BitVec 6) : decS (encS n) = .ok n := by revert n; decide

theorem decSb_of (s : Sb) : decSb (sbeOf s) (sbnOf s) = .ok s := by
  cases s with
  | none => rfl
  | some n => revert n; decide

/-! ## Codes -/

@[simp] theorem IntTy.ofCode_code (x : IntTy) : IntTy.ofCode x.code = x := by cases x <;> rfl
@[simp] theorem Rnd.ofCode_code (x : Rnd) : Rnd.ofCode x.code = x := by cases x <;> rfl
@[simp] theorem ICc.ofCode_code (x : ICc) : ICc.ofCode x.code = some x := by cases x <;> rfl
@[simp] theorem FCc.ofCode_code (x : FCc) : FCc.ofCode x.code = some x := by cases x <;> rfl
@[simp] theorem POp.ofCode_code (x : POp) : POp.ofCode x.code = some x := by cases x <;> rfl
@[simp] theorem Special.ofCode_code (x : Special) : Special.ofCode x.code = some x := by cases x <;> rfl
@[simp] theorem ShMode.ofCode_code (x : ShMode) : ShMode.ofCode x.code = x := by cases x <;> rfl
@[simp] theorem Seg.ofCode_code (x : Seg) : Seg.ofCode x.code = some x := by cases x <;> rfl
@[simp] theorem ScanOp.ofCode_code (x : ScanOp) : ScanOp.ofCode x.code = x := by cases x <;> rfl
@[simp] theorem ScanTy.ofCode_code (x : ScanTy) : ScanTy.ofCode x.code = x := by cases x <;> rfl
@[simp] theorem MW.ofCode_code (x : MW) : MW.ofCode x.code = some x := by cases x <;> rfl
@[simp] theorem AW.ofCode_code (x : AW) : AW.ofCode x.code = some x := by cases x <;> rfl
@[simp] theorem Ord.ofCode_code (x : Ord) : Ord.ofCode x.code = x := by cases x <;> rfl
@[simp] theorem Cpol.ofCode_code (x : Cpol) : Cpol.ofCode x.code = x := by cases x <;> rfl
@[simp] theorem AOp.ofCode_code (x : AOp) : AOp.ofCode x.code = x := by cases x <;> rfl
@[simp] theorem WD.ofCode_code (x : WD) : WD.ofCode x.code = some x := by cases x <;> rfl
@[simp] theorem RyField.ofCode_code (x : RyField) : RyField.ofCode x.code = some x := by cases x <;> rfl

end Sys2Proof
end

