-- ==== Sys2Proof/Laws/State.lean ====
section
/-! SUPPORT. The laws of the state: each field after an update, finite maps and byte memories read back after a write, and the canonical form of a memory kept by every memory operation. -/

namespace Sys2Proof

/-! ## Finite maps -/

@[simp] theorem AMap.get?_nil {α : Type} (k : Nat) : AMap.get? ([] : AMap α) k = none := rfl

/-- A map read back where it was set. -/
@[simp] theorem AMap.get?_set_self {α : Type} (m : AMap α) (k : Nat) (v : α) : AMap.get? (AMap.set m k v) k = some v := by
  induction m with
  | nil => simp [AMap.set, AMap.get?]
  | cons kv m ih =>
    obtain ⟨j, x⟩ := kv
    unfold AMap.set
    split
    · simp [AMap.get?]
    · split
      · simp [AMap.get?]
      · rename_i h1 h2
        simp [AMap.get?, h2, ih]

/-- A map read back elsewhere than it was set. -/
theorem AMap.get?_set_ne {α : Type} (m : AMap α) {k j : Nat} (v : α) (h : j ≠ k) :
    AMap.get? (AMap.set m k v) j = AMap.get? m j := by
  induction m with
  | nil => simp [AMap.set, AMap.get?, Ne.symm h]
  | cons kv m ih =>
    obtain ⟨i, x⟩ := kv
    unfold AMap.set
    split
    · simp [AMap.get?, Ne.symm h]
    · split
      · rename_i h2
        subst h2
        simp [AMap.get?, Ne.symm h]
      · simp [AMap.get?, ih]

theorem AMap.get?_set {α : Type} (m : AMap α) (k j : Nat) (v : α) :
    AMap.get? (AMap.set m k v) j = if j = k then some v else AMap.get? m j := by
  split
  · simp [*]
  · exact AMap.get?_set_ne m v ‹_›

theorem AMap.getD_set {α : Type} (m : AMap α) (k j : Nat) (v d : α) :
    AMap.getD (AMap.set m k v) j d = if j = k then v else AMap.getD m j d := by
  unfold AMap.getD
  rw [AMap.get?_set]
  split <;> simp

/-- A map read back after a key is erased. -/
theorem AMap.get?_erase {α : Type} (m : AMap α) (k j : Nat) :
    AMap.get? (AMap.erase m k) j = if j = k then none else AMap.get? m j := by
  induction m with
  | nil => simp [AMap.erase]
  | cons kv m ih =>
    obtain ⟨i, x⟩ := kv
    unfold AMap.erase
    by_cases hik : i = k
    · subst hik
      rw [if_pos rfl, ih]
      by_cases hj : j = i
      · simp [hj]
      · simp [hj, AMap.get?, Ne.symm hj]
    · rw [if_neg hik]
      by_cases hij : i = j
      · subst hij
        simp [AMap.get?, hik]
      · simp [AMap.get?, hij, ih]

theorem AMap.getD_erase {α : Type} (m : AMap α) (k j : Nat) (d : α) :
    AMap.getD (AMap.erase m k) j d = if j = k then d else AMap.getD m j d := by
  unfold AMap.getD
  rw [AMap.get?_erase]
  split <;> simp

namespace Machine

/-! ## Fields after an update -/

variable (s : State)

@[simp] theorem State.upd_agenda (u : Upd) : (s.upd u).agenda = match u with
      | .agenda x => x
      | _ => s.agenda := by
  cases u <;> first | rfl | (simp only [State.upd]; split <;> rfl)

@[simp] theorem State.upd_cur (u : Upd) : (s.upd u).cur = match u with
      | .cur x => x
      | _ => s.cur := by
  cases u <;> first | rfl | (simp only [State.upd]; split <;> rfl)

@[simp] theorem State.upd_free (u : Upd) : (s.upd u).free = match u with
      | .free x => x
      | _ => s.free := by
  cases u <;> first | rfl | (simp only [State.upd]; split <;> rfl)

@[simp] theorem State.upd_nextId (u : Upd) : (s.upd u).nextId = match u with
      | .nextId x => x
      | _ => s.nextId := by
  cases u <;> first | rfl | (simp only [State.upd]; split <;> rfl)

@[simp] theorem State.upd_mg (u : Upd) : (s.upd u).mg = match u with
      | .mg x => x.norm
      | _ => s.mg := by
  cases u <;> first | rfl | (simp only [State.upd]; split <;> rfl)

@[simp] theorem State.upd_mem (u : Upd) : (s.upd u).mem = match u with
      | .byte a b => s.mem.put a b
      | _ => s.mem := by
  cases u <;> first | rfl | (simp only [State.upd]; split <;> rfl)

@[simp] theorem State.upd_wmem (u : Upd) : (s.upd u).wmem = match u with
      | .wbyte a b => s.wmem.put a b
      | _ => s.wmem := by
  cases u <;> first | rfl | (simp only [State.upd]; split <;> rfl)

@[simp] theorem State.upd_lines (u : Upd) : (s.upd u).lines = match u with
      | .line k x => AMap.set s.lines k x
      | _ => s.lines := by
  cases u <;> first | rfl | (simp only [State.upd]; split <;> rfl)

@[simp] theorem State.upd_owners (u : Upd) : (s.upd u).owners = match u with
      | .owners x => x
      | _ => s.owners := by
  cases u <;> first | rfl | (simp only [State.upd]; split <;> rfl)

@[simp] theorem State.upd_locks (u : Upd) : (s.upd u).locks = match u with
      | .locks x => x
      | _ => s.locks := by
  cases u <;> first | rfl | (simp only [State.upd]; split <;> rfl)

@[simp] theorem State.upd_ctxs (u : Upd) : (s.upd u).ctxs = match u with
      | .ctx k x => if h : k < 16 then s.ctxs.set k x.norm h else s.ctxs
      | _ => s.ctxs := by
  cases u <;> first | rfl | (simp only [State.upd]; split <;> rfl)

@[simp] theorem State.upd_cores (u : Upd) : (s.upd u).cores = match u with
      | .core k x => AMap.set s.cores k x
      | _ => s.cores := by
  cases u <;> first | rfl | (simp only [State.upd]; split <;> rfl)

@[simp] theorem State.upd_l2 (u : Upd) : (s.upd u).l2 = match u with
      | .l2 k x => AMap.set s.l2 k x
      | _ => s.l2 := by
  cases u <;> first | rfl | (simp only [State.upd]; split <;> rfl)

@[simp] theorem State.upd_l3 (u : Upd) : (s.upd u).l3 = match u with
      | .l3 k x => AMap.set s.l3 k x
      | _ => s.l3 := by
  cases u <;> first | rfl | (simp only [State.upd]; split <;> rfl)

@[simp] theorem State.upd_marks (u : Upd) : (s.upd u).marks = match u with
      | .marks x => x
      | _ => s.marks := by
  cases u <;> first | rfl | (simp only [State.upd]; split <;> rfl)

@[simp] theorem State.upd_walks (u : Upd) : (s.upd u).walks = match u with
      | .walk k x => putOpt s.walks k x
      | _ => s.walks := by
  cases u <;> first | rfl | (simp only [State.upd]; split <;> rfl)

@[simp] theorem State.upd_tlbis (u : Upd) : (s.upd u).tlbis = match u with
      | .tlbis x => x
      | _ => s.tlbis := by
  cases u <;> first | rfl | (simp only [State.upd]; split <;> rfl)

@[simp] theorem State.upd_chime (u : Upd) : (s.upd u).chime = match u with
      | .chime x => x
      | _ => s.chime := by
  cases u <;> first | rfl | (simp only [State.upd]; split <;> rfl)

@[simp] theorem State.upd_hpt (u : Upd) : (s.upd u).hpt = match u with
      | .hpt k x => AMap.set s.hpt k x
      | _ => s.hpt := by
  cases u <;> first | rfl | (simp only [State.upd]; split <;> rfl)

@[simp] theorem State.upd_objects (u : Upd) : (s.upd u).objects = match u with
      | .objects x => x
      | _ => s.objects := by
  cases u <;> first | rfl | (simp only [State.upd]; split <;> rfl)

@[simp] theorem State.upd_images (u : Upd) : (s.upd u).images = match u with
      | .image k x => AMap.set s.images k x
      | _ => s.images := by
  cases u <;> first | rfl | (simp only [State.upd]; split <;> rfl)

@[simp] theorem State.upd_dispatches (u : Upd) : (s.upd u).dispatches = match u with
      | .dispatch k x => putOpt s.dispatches k x
      | _ => s.dispatches := by
  cases u <;> first | rfl | (simp only [State.upd]; split <;> rfl)

@[simp] theorem State.upd_wheels (u : Upd) : (s.upd u).wheels = match u with
      | .wheel k x => putOpt s.wheels k x
      | _ => s.wheels := by
  cases u <;> first | rfl | (simp only [State.upd]; split <;> rfl)

@[simp] theorem State.upd_trains (u : Upd) : (s.upd u).trains = match u with
      | .train k x => putOpt s.trains k (x.map Train.norm)
      | _ => s.trains := by
  cases u <;> first | rfl | (simp only [State.upd]; split <;> rfl)

@[simp] theorem State.upd_esu (u : Upd) : (s.upd u).esu = match u with
      | .esu k x => putOpt s.esu k x
      | _ => s.esu := by
  cases u <;> first | rfl | (simp only [State.upd]; split <;> rfl)

@[simp] theorem State.upd_matrix (u : Upd) : (s.upd u).matrix = match u with
      | .matrix k x => putOpt s.matrix k x
      | _ => s.matrix := by
  cases u <;> first | rfl | (simp only [State.upd]; split <;> rfl)

@[simp] theorem State.upd_stream (u : Upd) : (s.upd u).stream = match u with
      | .stream k x => putOpt s.stream k x
      | _ => s.stream := by
  cases u <;> first | rfl | (simp only [State.upd]; split <;> rfl)

@[simp] theorem State.upd_ray (u : Upd) : (s.upd u).ray = match u with
      | .ray k x => putOpt s.ray k x
      | _ => s.ray := by
  cases u <;> first | rfl | (simp only [State.upd]; split <;> rfl)

@[simp] theorem State.upd_syncs (u : Upd) : (s.upd u).syncs = match u with
      | .syncs x => x
      | _ => s.syncs := by
  cases u <;> first | rfl | (simp only [State.upd]; split <;> rfl)

@[simp] theorem State.upd_vers (u : Upd) : (s.upd u).vers = match u with
      | .vers x => x
      | _ => s.vers := by
  cases u <;> first | rfl | (simp only [State.upd]; split <;> rfl)

@[simp] theorem State.upd_jobs (u : Upd) : (s.upd u).jobs = match u with
      | .job k x => putOpt s.jobs k x
      | _ => s.jobs := by
  cases u <;> first | rfl | (simp only [State.upd]; split <;> rfl)

@[simp] theorem State.upd_rings (u : Upd) : (s.upd u).rings = match u with
      | .ring k x => if h : k < 64 then s.rings.set k x h else s.rings
      | _ => s.rings := by
  cases u <;> first | rfl | (simp only [State.upd]; split <;> rfl)

@[simp] theorem State.upd_nodes (u : Upd) : (s.upd u).nodes = match u with
      | .node k x => AMap.set s.nodes k x
      | _ => s.nodes := by
  cases u <;> first | rfl | (simp only [State.upd]; split <;> rfl)

@[simp] theorem State.upd_pool (u : Upd) : (s.upd u).pool = match u with
      | .pool x => x
      | _ => s.pool := by
  cases u <;> first | rfl | (simp only [State.upd]; split <;> rfl)

@[simp] theorem State.upd_skips (u : Upd) : (s.upd u).skips = match u with
      | .skips x => x
      | _ => s.skips := by
  cases u <;> first | rfl | (simp only [State.upd]; split <;> rfl)

@[simp] theorem State.upd_reply (u : Upd) : (s.upd u).reply = match u with
      | .reply x => x
      | _ => s.reply := by
  cases u <;> first | rfl | (simp only [State.upd]; split <;> rfl)

@[simp] theorem State.upd_hosts (u : Upd) : (s.upd u).hosts = match u with
      | .hosts x => x
      | _ => s.hosts := by
  cases u <;> first | rfl | (simp only [State.upd]; split <;> rfl)

/-- A whole list of updates: one field at a time is enough, since `upds` is a fold. -/
@[simp] theorem State.upds_nil : s.upds [] = s := rfl
@[simp] theorem State.upds_cons (u : Upd) (us : List Upd) : s.upds (u :: us) = (s.upd u).upds us := rfl
theorem State.upds_append (us vs : List Upd) : s.upds (us ++ vs) = (s.upds us).upds vs := by
  simp [State.upds, List.foldl_append]

/-! ## Byte memories -/

theorem Bytes.get_nil (a : Nat) : Bytes.get [] a = 0 := rfl

theorem Bytes.wfFrom_mono {m : Bytes} {lo lo' : Nat} (h : Bytes.wfFrom lo m) (hl : lo' ≤ lo) : Bytes.wfFrom lo' m := by
  cases m with
  | nil => rfl
  | cons kv m =>
    obtain ⟨k, b⟩ := kv
    simp only [Bytes.wfFrom, Bool.and_eq_true, decide_eq_true_eq] at h ⊢
    exact ⟨⟨by omega, h.1.2⟩, h.2⟩

/-- Setting a non-zero byte keeps the form. -/
theorem Bytes.wfFrom_set {m : Bytes} {lo a : Nat} {b : Byte} (h : Bytes.wfFrom lo m) (hl : lo ≤ a) (hb : b ≠ 0) :
    Bytes.wfFrom lo (AMap.set m a b) := by
  induction m generalizing lo with
  | nil =>
    have : ¬b = 0#8 := hb
    simp [AMap.set, Bytes.wfFrom, hl, this]
  | cons kv m ih =>
    obtain ⟨k, x⟩ := kv
    have h' := h
    simp only [Bytes.wfFrom, Bool.and_eq_true, decide_eq_true_eq] at h'
    unfold AMap.set
    split
    · rename_i hk
      simp only [Bytes.wfFrom, Bool.and_eq_true, decide_eq_true_eq]
      refine ⟨⟨hl, by simpa using hb⟩, ⟨by omega, h'.1.2⟩, h'.2⟩
    · split
      · rename_i hk
        subst hk
        simp only [Bytes.wfFrom, Bool.and_eq_true, decide_eq_true_eq]
        exact ⟨⟨hl, by simpa using hb⟩, h'.2⟩
      · simp only [Bytes.wfFrom, Bool.and_eq_true, decide_eq_true_eq]
        exact ⟨h'.1, ih h'.2 (by omega)⟩

theorem Bytes.wfFrom_erase {m : Bytes} {lo a : Nat} (h : Bytes.wfFrom lo m) : Bytes.wfFrom lo (AMap.erase m a) := by
  induction m generalizing lo with
  | nil => rfl
  | cons kv m ih =>
    obtain ⟨k, x⟩ := kv
    have h' := h
    simp only [Bytes.wfFrom, Bool.and_eq_true, decide_eq_true_eq] at h'
    unfold AMap.erase
    split
    · exact Bytes.wfFrom_mono (ih h'.2) (by omega)
    · simp only [Bytes.wfFrom, Bool.and_eq_true, decide_eq_true_eq]
      exact ⟨h'.1, ih h'.2⟩

/-- A write of one byte keeps the canonical form of a memory. -/
theorem Memory.wf_put {m : Bytes} (a : Nat) (b : Byte) (h : Memory.wf m) : Memory.wf (Bytes.put m a b) := by
  unfold Bytes.put
  split
  · exact Bytes.wfFrom_erase h
  · exact Bytes.wfFrom_set h (Nat.zero_le _) ‹_›

/-- A write of several bytes keeps it. -/
theorem Memory.wf_write {m : Bytes} (a n v : Nat) (h : Memory.wf m) : Memory.wf (Bytes.write m a n v) := by
  induction n generalizing m a v with
  | zero => exact h
  | succ n ih => exact ih _ _ (Memory.wf_put a _ h)

/-- A byte read after a write of one byte. -/
theorem Bytes.get_put (m : Bytes) (a j : Nat) (b : Byte) :
    Bytes.get (Bytes.put m a b) j = if j = a then b else Bytes.get m j := by
  unfold Bytes.get Bytes.put AMap.getD
  split
  · rename_i hb
    rw [AMap.get?_erase]
    split <;> simp [hb]
  · rw [AMap.get?_set]
    split <;> simp

/-- A byte read after a write of several: the byte of the value inside, the old byte outside. -/
theorem Bytes.get_write (m : Bytes) (a n v j : Nat) :
    Bytes.get (Bytes.write m a n v) j =
      if a ≤ j ∧ j < a + n then BitVec.ofNat 8 (v / 256 ^ (j - a)) else Bytes.get m j := by
  induction n generalizing m a v with
  | zero => simp [Bytes.write, show ¬(a ≤ j ∧ j < a) from by omega]
  | succ n ih =>
    unfold Bytes.write
    rw [ih, Bytes.get_put]
    by_cases hj : j = a
    · subst hj
      simp [show ¬(j + 1 ≤ j) from by omega]
    · by_cases hin : a + 1 ≤ j ∧ j < a + 1 + n
      · have h2 : a ≤ j ∧ j < a + (n + 1) := by omega
        have h3 : j - a = (j - (a + 1)) + 1 := by omega
        rw [if_pos hin, if_pos h2, h3, Nat.pow_succ, Nat.mul_comm, Nat.div_div_eq_div_mul]
      · have h2 : ¬(a ≤ j ∧ j < a + (n + 1)) := by omega
        rw [if_neg hin, if_neg h2, if_neg hj]

/-- What was written is read back. -/
theorem Bytes.read_write (m : Bytes) (a n v : Nat) :
    Bytes.read (Bytes.write m a n v) a n = v % 256 ^ n := by
  induction n generalizing m a v with
  | zero => simp [Bytes.read, Nat.mod_one]
  | succ n ih =>
    unfold Bytes.write Bytes.read
    rw [ih, Bytes.get_write, if_neg (by omega), Bytes.get_put, if_pos rfl]
    rw [BitVec.toNat_ofNat, show (2 : Nat) ^ 8 = 256 from rfl, show 256 ^ (n + 1) = 256 * 256 ^ n from by rw [Nat.pow_succ, Nat.mul_comm],
      Nat.mod_mul]

/-- Reading depends on the bytes read. -/
theorem Bytes.read_congr {m m' : Bytes} {a n : Nat} (h : ∀ j, a ≤ j → j < a + n → Bytes.get m j = Bytes.get m' j) :
    Bytes.read m a n = Bytes.read m' a n := by
  induction n generalizing a with
  | zero => rfl
  | succ n ih =>
    unfold Bytes.read
    rw [h a (Nat.le_refl _) (by omega), ih fun j h1 h2 => h j (by omega) (by omega)]

/-- The updates that write a value to physical memory leave the memory so written, and only that. -/
theorem State.upds_byteUpds (a n v : Nat) : s.upds (byteUpds a n v) = { s with mem := Bytes.write s.mem a n v } := by
  induction n generalizing s a v with
  | zero => rfl
  | succ n ih =>
    simp only [byteUpds, State.upds_cons, ih]
    rfl

/-- Reset memory is in canonical form. -/
theorem State.reset_mem_wf : Memory.wf State.reset.mem ∧ Memory.wf State.reset.wmem := ⟨rfl, rfl⟩

end Machine
end Sys2Proof
end

