-- ==== Sys2Proof/Laws/Run.lean ====
section
/-! SUPPORT. The laws of the shared operations: each says once everything the operation can do. Every meaning but POWER_ON reaches its next state by updates. -/

namespace Sys2Proof.Machine

variable {s t : State}

/-! ## Updates and computations -/

theorem Reach.upds (h : Reach s t) (us : List Upd) : Reach s (t.upds us) := by
  induction us generalizing t with
  | nil => exact h
  | cons u us ih => exact ih (h.step u)

theorem Reach.trans {u : State} (h : Reach s t) (h' : Reach t u) : Reach s u := by
  induction h' with
  | refl => exact h
  | step _ v ih => exact ih.step v

/-- What holds of a state and is kept by every update holds of every state reached. -/
theorem Reach.keep {P : State → Prop} (hP : ∀ s u, P s → P (s.upd u)) (h : Reach s t) (hs : P s) : P t := by
  induction h with
  | refl => exact hs
  | step _ u ih => exact hP _ u ih

theorem updAll_run (us : List Upd) (r : Run s) : ∃ h, updAll us r = .ok ((), ⟨r.1.upds us, h⟩) := by
  induction us generalizing r with
  | nil => exact ⟨r.2, rfl⟩
  | cons u us ih =>
    obtain ⟨h, e⟩ := ih ⟨r.1.upd u, r.2.step u⟩
    exact ⟨h, e⟩

/-- A trap of the issuing train is made of updates. -/
theorem trapCur_reach (c : Byte) (l : Option Mask) (v : Option DWord) : Reach s (trapCur s c l v) := by
  unfold trapCur
  split
  · exact .refl
  · split
    · exact .refl
    · exact Reach.refl.upds _

theorem stalled_reach : Reach s (stalled s) := by
  unfold stalled
  split
  · exact .refl
  · split
    · exact .refl
    · exact Reach.refl.step _

/-- The next state of a stop is reached by updates. -/
theorem stopped_reach {e : Stop} (h : stopped s e = .next t) : Reach s t := by
  cases e with
  | trap c l v =>
    simp only [stopped, Host.Outcome.next.injEq] at h
    exact h ▸ trapCur_reach c l v
  | held =>
    simp only [stopped, Host.Outcome.next.injEq] at h
    exact h ▸ stalled_reach
  | wait =>
    simp only [stopped, Host.Outcome.next.injEq] at h
    exact h ▸ stalled_reach
  | fault f => simp [stopped] at h
  | refused r => simp [stopped] at h

/-- The next state of a computation is reached by updates. -/
theorem runM_reach {m : M s Unit} (h : runM s m = .next t) : Reach s t := by
  unfold runM at h
  split at h
  · rename_i r _
    simp only [Host.Outcome.next.injEq] at h
    exact h ▸ r.2.2
  · exact stopped_reach h

/-- The next state of an event is reached by updates. -/
theorem runE_reach {m : M s Unit} (h : runE s m = .next t) : Reach s t := by
  unfold runE at h
  split at h
  · rename_i r _
    simp only [Host.Outcome.next.injEq] at h
    exact h ▸ r.2.2
  · rename_i e _
    cases e <;> simp only [passed, Host.Outcome.next.injEq, reduceCtorEq] at h <;> exact h ▸ .refl

/-- An event that ends: its state is the next state. -/
theorem runE_ok {m : M s Unit} {r : Run s} (h : m ⟨s, .refl⟩ = .ok ((), r)) : runE s m = .next r.1 := by
  simp [runE, h]

/-- A computation that ends: its state is the next state. -/
theorem runM_ok {m : M s Unit} {r : Run s} (h : m ⟨s, .refl⟩ = .ok ((), r)) : runM s m = .next r.1 := by
  simp [runM, h]

/-- A computation that stops. -/
theorem runM_error {m : M s Unit} {e : Stop} (h : m ⟨s, .refl⟩ = .error e) : runM s m = stopped s e := by
  simp [runM, h]

theorem local_reach {i : Instr} {f : Iss → Except Stop Train} (h : local_ s i f = .next t) : Reach s t := by
  unfold local_ at h
  split at h
  · exact stopped_reach h
  · split at h
    · exact stopped_reach h
    · simp only [Host.Outcome.next.injEq] at h
      exact h ▸ Reach.refl.step _

/-- An instruction of the train alone, when its checks and waits are past and it does not stop. -/
theorem local_ok {i : Instr} {f : Iss → Except Stop Train} {r : Iss} {x : Train} (h : begin_ s i = .ok r)
    (hf : f r = .ok x) : local_ s i f = .next (s.upd (.train r.id (some x))) := by
  simp [local_, h, hf]

/-! ## Every meaning -/

theorem prepareIssue_reach (core port : Nat) : Reach s (prepareIssue s core port) := by
  unfold prepareIssue
  split
  · exact .refl
  · split
    · rename_i r _
      exact r.2.2
    · exact .refl

/-- The shapes of the classes V and C are all `local_`. -/
theorem alu_reach {i d n f} (h : alu s i d n f = .next t) : Reach s t := local_reach h
theorem aluPred_reach {i d f} (h : aluPred s i d f = .next t) : Reach s t := local_reach h
theorem int2_reach {i sat ty d a b f} (h : int2 s i sat ty d a b f = .next t) : Reach s t := alu_reach h
theorem bit2_reach {i ty d a b f} (h : bit2 s i ty d a b f = .next t) : Reach s t := alu_reach h
theorem shift2_reach {i ty d a b f} (h : shift2 s i ty d a b f = .next t) : Reach s t := alu_reach h
theorem flt1_reach {i d a f} (h : flt1 s i d a f = .next t) : Reach s t := alu_reach h
theorem flt2_reach {i d a b f} (h : flt2 s i d a b f = .next t) : Reach s t := alu_reach h
theorem flt3_reach {i d a b c f} (h : flt3 s i d a b c f = .next t) : Reach s t := alu_reach h
theorem kform_reach {i d a f} (h : kform s i d a f = .next t) : Reach s t := flt1_reach h
theorem branch_reach {i rel p} (h : branch s i rel p = .next t) : Reach s t := local_reach h
theorem jumpPair_reach {i n} (h : jumpPair s i n = .next t) : Reach s t := local_reach h
theorem softTrap_reach {i c n} (h : softTrap s i c n = .next t) : Reach s t := local_reach h

/-! One line per meaning: its next state is reached by updates. -/

theorem execMov_reach {x0 x1 x2 x3} (h : execMov x0 x1 x2 x3 s = .next t) : Reach s t := alu_reach h
theorem execMovk_reach {x0 x1 x2 x3} (h : execMovk x0 x1 x2 x3 s = .next t) : Reach s t := alu_reach h
theorem execMovs_reach {x0 x1 x2} (h : execMovs x0 x1 x2 s = .next t) : Reach s t := local_reach h
theorem execSel_reach {x0 x1 x2 x3 x4 x5} (h : execSel x0 x1 x2 x3 x4 x5 s = .next t) : Reach s t := alu_reach h
theorem execIadd_reach {x0 x1 x2 x3 x4 x5} (h : execIadd x0 x1 x2 x3 x4 x5 s = .next t) : Reach s t := int2_reach h
theorem execIsub_reach {x0 x1 x2 x3 x4 x5} (h : execIsub x0 x1 x2 x3 x4 x5 s = .next t) : Reach s t := int2_reach h
theorem execImul_reach {x0 x1 x2 x3 x4 x5} (h : execImul x0 x1 x2 x3 x4 x5 s = .next t) : Reach s t := int2_reach h
theorem execImulh_reach {x0 x1 x2 x3 x4} (h : execImulh x0 x1 x2 x3 x4 s = .next t) : Reach s t := int2_reach h
theorem execImad_reach {x0 x1 x2 x3 x4 x5 x6} (h : execImad x0 x1 x2 x3 x4 x5 x6 s = .next t) : Reach s t := alu_reach h
theorem execImin_reach {x0 x1 x2 x3 x4} (h : execImin x0 x1 x2 x3 x4 s = .next t) : Reach s t := int2_reach h
theorem execImax_reach {x0 x1 x2 x3 x4} (h : execImax x0 x1 x2 x3 x4 s = .next t) : Reach s t := int2_reach h
theorem execIabs_reach {x0 x1 x2 x3 x4} (h : execIabs x0 x1 x2 x3 x4 s = .next t) : Reach s t := alu_reach h
theorem execIaddx_reach {x0 x1 x2 x3 x4} (h : execIaddx x0 x1 x2 x3 x4 s = .next t) : Reach s t := alu_reach h
theorem execImadx_reach {x0 x1 x2 x3 x4 x5} (h : execImadx x0 x1 x2 x3 x4 x5 s = .next t) : Reach s t := alu_reach h
theorem execAnd_reach {x0 x1 x2 x3 x4} (h : execAnd x0 x1 x2 x3 x4 s = .next t) : Reach s t := bit2_reach h
theorem execOr_reach {x0 x1 x2 x3 x4} (h : execOr x0 x1 x2 x3 x4 s = .next t) : Reach s t := bit2_reach h
theorem execXor_reach {x0 x1 x2 x3 x4} (h : execXor x0 x1 x2 x3 x4 s = .next t) : Reach s t := bit2_reach h
theorem execAndn_reach {x0 x1 x2 x3 x4} (h : execAndn x0 x1 x2 x3 x4 s = .next t) : Reach s t := bit2_reach h
theorem execLop3_reach {x0 x1 x2 x3 x4} (h : execLop3 x0 x1 x2 x3 x4 s = .next t) : Reach s t := local_reach h
theorem execShl_reach {x0 x1 x2 x3 x4} (h : execShl x0 x1 x2 x3 x4 s = .next t) : Reach s t := shift2_reach h
theorem execShr_reach {x0 x1 x2 x3 x4} (h : execShr x0 x1 x2 x3 x4 s = .next t) : Reach s t := shift2_reach h
theorem execSra_reach {x0 x1 x2 x3 x4} (h : execSra x0 x1 x2 x3 x4 s = .next t) : Reach s t := shift2_reach h
theorem execRot_reach {x0 x1 x2 x3 x4} (h : execRot x0 x1 x2 x3 x4 s = .next t) : Reach s t := shift2_reach h
theorem execBfx_reach {x0 x1 x2 x3 x4} (h : execBfx x0 x1 x2 x3 x4 s = .next t) : Reach s t := alu_reach h
theorem execBfi_reach {x0 x1 x2 x3 x4 x5} (h : execBfi x0 x1 x2 x3 x4 x5 s = .next t) : Reach s t := alu_reach h
theorem execPopc_reach {x0 x1 x2 x3} (h : execPopc x0 x1 x2 x3 s = .next t) : Reach s t := alu_reach h
theorem execClz_reach {x0 x1 x2 x3} (h : execClz x0 x1 x2 x3 s = .next t) : Reach s t := alu_reach h
theorem execBrev_reach {x0 x1 x2 x3} (h : execBrev x0 x1 x2 x3 s = .next t) : Reach s t := alu_reach h
theorem execIcmp_reach {x0 x1 x2 x3 x4 x5} (h : execIcmp x0 x1 x2 x3 x4 x5 s = .next t) : Reach s t := aluPred_reach h
theorem execFcmp_reach {x0 x1 x2 x3 x4} (h : execFcmp x0 x1 x2 x3 x4 s = .next t) : Reach s t := aluPred_reach h
theorem execPlop_reach {x0 x1 x2 x3 x4} (h : execPlop x0 x1 x2 x3 x4 s = .next t) : Reach s t := local_reach h
theorem execPmov_reach {x0 x1} (h : execPmov x0 x1 s = .next t) : Reach s t := by
  unfold execPmov at h
  split at h <;> exact local_reach h
theorem execFadd_reach {x0 x1 x2 x3 x4 x5} (h : execFadd x0 x1 x2 x3 x4 x5 s = .next t) : Reach s t := flt2_reach h
theorem execFsub_reach {x0 x1 x2 x3 x4 x5} (h : execFsub x0 x1 x2 x3 x4 x5 s = .next t) : Reach s t := flt2_reach h
theorem execFmul_reach {x0 x1 x2 x3 x4 x5} (h : execFmul x0 x1 x2 x3 x4 x5 s = .next t) : Reach s t := flt2_reach h
theorem execFfma_reach {x0 x1 x2 x3 x4 x5 x6} (h : execFfma x0 x1 x2 x3 x4 x5 x6 s = .next t) : Reach s t := flt3_reach h
theorem execFmin_reach {x0 x1 x2 x3} (h : execFmin x0 x1 x2 x3 s = .next t) : Reach s t := flt2_reach h
theorem execFmax_reach {x0 x1 x2 x3} (h : execFmax x0 x1 x2 x3 s = .next t) : Reach s t := flt2_reach h
theorem execFrnd_reach {x0 x1 x2 x3} (h : execFrnd x0 x1 x2 x3 s = .next t) : Reach s t := flt1_reach h
theorem execFrcp_reach {x0 x1 x2} (h : execFrcp x0 x1 x2 s = .next t) : Reach s t := flt1_reach h
theorem execFrsq_reach {x0 x1 x2} (h : execFrsq x0 x1 x2 s = .next t) : Reach s t := flt1_reach h
theorem execFsqrt_reach {x0 x1 x2} (h : execFsqrt x0 x1 x2 s = .next t) : Reach s t := flt1_reach h
theorem execFexp2_reach {x0 x1 x2} (h : execFexp2 x0 x1 x2 s = .next t) : Reach s t := flt1_reach h
theorem execFlog2_reach {x0 x1 x2} (h : execFlog2 x0 x1 x2 s = .next t) : Reach s t := flt1_reach h
theorem execFsin_reach {x0 x1 x2} (h : execFsin x0 x1 x2 s = .next t) : Reach s t := flt1_reach h
theorem execFcos_reach {x0 x1 x2} (h : execFcos x0 x1 x2 s = .next t) : Reach s t := flt1_reach h
theorem execHadd2_reach {x0 x1 x2 x3 x4 x5 x6} (h : execHadd2 x0 x1 x2 x3 x4 x5 x6 s = .next t) : Reach s t := flt2_reach h
theorem execHmul2_reach {x0 x1 x2 x3 x4 x5 x6} (h : execHmul2 x0 x1 x2 x3 x4 x5 x6 s = .next t) : Reach s t := flt2_reach h
theorem execHfma2_reach {x0 x1 x2 x3 x4 x5 x6 x7} (h : execHfma2 x0 x1 x2 x3 x4 x5 x6 x7 s = .next t) : Reach s t := flt3_reach h
theorem execCvti_reach {x0 x1 x2 x3 x4} (h : execCvti x0 x1 x2 x3 x4 s = .next t) : Reach s t := alu_reach h
theorem execCvtf_reach {x0 x1 x2 x3 x4} (h : execCvtf x0 x1 x2 x3 x4 s = .next t) : Reach s t := alu_reach h
theorem execCvth_reach {x0 x1 x2} (h : execCvth x0 x1 x2 s = .next t) : Reach s t := by
  unfold execCvth at h
  split at h
  · exact flt2_reach h
  · exact flt1_reach h
theorem execCvtn_reach {x0 x1 x2 x3} (h : execCvtn x0 x1 x2 x3 s = .next t) : Reach s t := local_reach h
theorem execShfl_reach {x0 x1 x2 x3 x4 x5} (h : execShfl x0 x1 x2 x3 x4 x5 s = .next t) : Reach s t := alu_reach h
theorem execShfx_reach {x0 x1 x2 x3 x4 x5 x6 x7} (h : execShfx x0 x1 x2 x3 x4 x5 x6 x7 s = .next t) : Reach s t := alu_reach h
theorem execVote_reach {x0 x1 x2} (h : execVote x0 x1 x2 s = .next t) : Reach s t := by
  unfold execVote at h
  split at h <;> exact local_reach h
theorem execRdlane_reach {x0 x1 x2 x3 x4} (h : execRdlane x0 x1 x2 x3 x4 s = .next t) : Reach s t := local_reach h
theorem execWrlane_reach {x0 x1 x2 x3 x4} (h : execWrlane x0 x1 x2 x3 x4 s = .next t) : Reach s t := local_reach h
theorem execIscan_reach {x0 x1 x2 x3 x4 x5} (h : execIscan x0 x1 x2 x3 x4 x5 s = .next t) : Reach s t := alu_reach h
theorem execIred_reach {x0 x1 x2 x3 x4} (h : execIred x0 x1 x2 x3 x4 s = .next t) : Reach s t := local_reach h
theorem execEmrd_reach {x0} (h : execEmrd x0 s = .next t) : Reach s t := local_reach h
theorem execEmwr_reach {x0} (h : execEmwr x0 s = .next t) : Reach s t := local_reach h
theorem execEmand_reach {x0} (h : execEmand x0 s = .next t) : Reach s t := local_reach h
theorem execEmor_reach {x0} (h : execEmor x0 s = .next t) : Reach s t := local_reach h
theorem execLd_reach {x0 x1 x2 x3 x4 x5 x6} (h : execLd x0 x1 x2 x3 x4 x5 x6 s = .next t) : Reach s t := runM_reach h
theorem execSt_reach {x0 x1 x2 x3 x4 x5 x6} (h : execSt x0 x1 x2 x3 x4 x5 x6 s = .next t) : Reach s t := runM_reach h
theorem execLdp_reach {x0 x1 x2 x3 x4 x5} (h : execLdp x0 x1 x2 x3 x4 x5 s = .next t) : Reach s t := runM_reach h
theorem execLds_reach {x0 x1 x2 x3 x4} (h : execLds x0 x1 x2 x3 x4 s = .next t) : Reach s t := runM_reach h
theorem execSts_reach {x0 x1 x2 x3 x4} (h : execSts x0 x1 x2 x3 x4 s = .next t) : Reach s t := runM_reach h
theorem execLdl_reach {x0 x1 x2 x3 x4} (h : execLdl x0 x1 x2 x3 x4 s = .next t) : Reach s t := runM_reach h
theorem execStl_reach {x0 x1 x2 x3 x4} (h : execStl x0 x1 x2 x3 x4 s = .next t) : Reach s t := runM_reach h
theorem execLdw_reach {x0 x1 x2 x3 x4} (h : execLdw x0 x1 x2 x3 x4 s = .next t) : Reach s t := runM_reach h
theorem execAtom_reach {x0 x1 x2 x3 x4 x5 x6 x7} (h : execAtom x0 x1 x2 x3 x4 x5 x6 x7 s = .next t) : Reach s t := runM_reach h
theorem execRed_reach {x0 x1 x2 x3 x4 x5 x6} (h : execRed x0 x1 x2 x3 x4 x5 x6 s = .next t) : Reach s t := runM_reach h
theorem execCas_reach {x0 x1 x2 x3 x4 x5 x6} (h : execCas x0 x1 x2 x3 x4 x5 x6 s = .next t) : Reach s t := runM_reach h
theorem execAtoml_reach {x0 x1 x2 x3 x4 x5 x6} (h : execAtoml x0 x1 x2 x3 x4 x5 x6 s = .next t) : Reach s t := runM_reach h
theorem execCasl_reach {x0 x1 x2 x3 x4 x5} (h : execCasl x0 x1 x2 x3 x4 x5 s = .next t) : Reach s t := runM_reach h
theorem execFence_reach {x0 x1} (h : execFence x0 x1 s = .next t) : Reach s t := runM_reach h
theorem execDrain_reach {x0 x1} (h : execDrain x0 x1 s = .next t) : Reach s t := runM_reach h
theorem execBarw_reach {x0 x1 x2} (h : execBarw x0 x1 x2 s = .next t) : Reach s t := runM_reach h
theorem execBara_reach {x0 x1 x2} (h : execBara x0 x1 x2 s = .next t) : Reach s t := runM_reach h
theorem execBarm_reach {x0 x1 x2 x3} (h : execBarm x0 x1 x2 x3 s = .next t) : Reach s t := runM_reach h
theorem execBarinit_reach {x0 x1 x2 x3} (h : execBarinit x0 x1 x2 x3 s = .next t) : Reach s t := runM_reach h
theorem execMon_reach {x0 x1 x2 x3 x4 x5} (h : execMon x0 x1 x2 x3 x4 x5 s = .next t) : Reach s t := runM_reach h
theorem execMwait_reach {x0 x1} (h : execMwait x0 x1 s = .next t) : Reach s t := runM_reach h
theorem execPrf_reach {x0 x1 x2 x3 x4} (h : execPrf x0 x1 x2 x3 x4 s = .next t) : Reach s t := runM_reach h
theorem execOwn_reach {x0 x1 x2 x3} (h : execOwn x0 x1 x2 x3 s = .next t) : Reach s t := runM_reach h
theorem execUnown_reach {x0 x1 x2 x3} (h : execUnown x0 x1 x2 x3 s = .next t) : Reach s t := runM_reach h
theorem execCwb_reach {x0 x1 x2 x3} (h : execCwb x0 x1 x2 x3 s = .next t) : Reach s t := runM_reach h
theorem execCinv_reach {x0 x1 x2 x3} (h : execCinv x0 x1 x2 x3 s = .next t) : Reach s t := runM_reach h
theorem execBra_reach {x0 x1} (h : execBra x0 x1 s = .next t) : Reach s t := branch_reach h
theorem execBrz_reach {x0 x1 x2} (h : execBrz x0 x1 x2 s = .next t) : Reach s t := branch_reach h
theorem execBrnz_reach {x0 x1 x2} (h : execBrnz x0 x1 x2 s = .next t) : Reach s t := branch_reach h
theorem execBrany_reach {x0 x1 x2} (h : execBrany x0 x1 x2 s = .next t) : Reach s t := branch_reach h
theorem execBrall_reach {x0 x1 x2} (h : execBrall x0 x1 x2 s = .next t) : Reach s t := branch_reach h
theorem execCall_reach {x0 x1 x2} (h : execCall x0 x1 x2 s = .next t) : Reach s t := local_reach h
theorem execRet_reach {x0 x1} (h : execRet x0 x1 s = .next t) : Reach s t := jumpPair_reach h
theorem execJmpi_reach {x0 x1} (h : execJmpi x0 x1 s = .next t) : Reach s t := jumpPair_reach h
theorem execLoop_reach {x0 x1 x2} (h : execLoop x0 x1 x2 s = .next t) : Reach s t := local_reach h
theorem execExit_reach {x0} (h : execExit x0 s = .next t) : Reach s t := local_reach h
theorem execYield_reach {x0} (h : execYield x0 s = .next t) : Reach s t := local_reach h
theorem execYieldc_reach {x0 x1 x2} (h : execYieldc x0 x1 x2 s = .next t) : Reach s t := runM_reach h
theorem execTrap_reach {x0 x1} (h : execTrap x0 x1 s = .next t) : Reach s t := softTrap_reach h
theorem execBrk_reach {x0 x1} (h : execBrk x0 x1 s = .next t) : Reach s t := softTrap_reach h
theorem execNop_reach {x0} (h : execNop x0 s = .next t) : Reach s t := local_reach h
theorem execTcfg_reach {x0 x1 x2} (h : execTcfg x0 x1 x2 s = .next t) : Reach s t := runM_reach h
theorem execTld_reach {x0 x1 x2 x3} (h : execTld x0 x1 x2 x3 s = .next t) : Reach s t := runM_reach h
theorem execTst_reach {x0 x1 x2 x3} (h : execTst x0 x1 x2 x3 s = .next t) : Reach s t := runM_reach h
theorem execTzero_reach {x0 x1} (h : execTzero x0 x1 s = .next t) : Reach s t := runM_reach h
theorem execTmma_reach {x0 x1 x2 x3} (h : execTmma x0 x1 x2 x3 s = .next t) : Reach s t := runM_reach h
theorem execTloop_reach {x0 x1 x2 x3 x4} (h : execTloop x0 x1 x2 x3 x4 s = .next t) : Reach s t := runM_reach h
theorem execTmmb_reach {x0 x1 x2 x3} (h : execTmmb x0 x1 x2 x3 s = .next t) : Reach s t := runM_reach h
theorem execTvxm_reach {x0 x1 x2 x3 x4 x5 x6} (h : execTvxm x0 x1 x2 x3 x4 x5 x6 s = .next t) : Reach s t := runM_reach h
theorem execTdrain_reach {x0 x1 x2 x3 x4 x5} (h : execTdrain x0 x1 x2 x3 x4 x5 s = .next t) : Reach s t := runM_reach h
theorem execTwait_reach {x0 x1} (h : execTwait x0 x1 s = .next t) : Reach s t := runM_reach h
theorem execTcvt_reach {x0 x1 x2} (h : execTcvt x0 x1 x2 s = .next t) : Reach s t := runM_reach h
theorem execTtr_reach {x0 x1 x2} (h : execTtr x0 x1 x2 s = .next t) : Reach s t := runM_reach h
theorem execTfill_reach {x0 x1 x2} (h : execTfill x0 x1 x2 s = .next t) : Reach s t := runM_reach h
theorem execWsync_reach {x0 x1 x2} (h : execWsync x0 x1 x2 s = .next t) : Reach s t := runM_reach h
theorem execWsinfo_reach {x0 x1 x2} (h : execWsinfo x0 x1 x2 s = .next t) : Reach s t := runM_reach h
theorem execCpy_reach {x0 x1 x2 x3 x4} (h : execCpy x0 x1 x2 x3 x4 s = .next t) : Reach s t := runM_reach h
theorem execCpym_reach {x0 x1 x2 x3 x4} (h : execCpym x0 x1 x2 x3 x4 s = .next t) : Reach s t := runM_reach h
theorem execCpt_reach {x0 x1 x2 x3 x4} (h : execCpt x0 x1 x2 x3 x4 s = .next t) : Reach s t := runM_reach h
theorem execCpg_reach {x0 x1 x2 x3 x4} (h : execCpg x0 x1 x2 x3 x4 s = .next t) : Reach s t := runM_reach h
theorem execTbinit_reach {x0 x1 x2 x3} (h : execTbinit x0 x1 x2 x3 s = .next t) : Reach s t := runM_reach h
theorem execTbarr_reach {x0 x1 x2 x3} (h : execTbarr x0 x1 x2 x3 s = .next t) : Reach s t := runM_reach h
theorem execTbexp_reach {x0 x1 x2} (h : execTbexp x0 x1 x2 s = .next t) : Reach s t := runM_reach h
theorem execTbwait_reach {x0 x1 x2} (h : execTbwait x0 x1 x2 s = .next t) : Reach s t := runM_reach h
theorem execRbind_reach {x0 x1 x2} (h : execRbind x0 x1 x2 s = .next t) : Reach s t := runM_reach h
theorem execRacq_reach {x0 x1 x2} (h : execRacq x0 x1 x2 s = .next t) : Reach s t := runM_reach h
theorem execRrel_reach {x0 x1 x2} (h : execRrel x0 x1 x2 s = .next t) : Reach s t := runM_reach h
theorem execSrd_reach {x0 x1 x2} (h : execSrd x0 x1 x2 s = .next t) : Reach s t := runM_reach h
theorem execEqry_reach {x0 x1 x2 x3 x4} (h : execEqry x0 x1 x2 x3 x4 s = .next t) : Reach s t := runM_reach h
theorem execEnext_reach {x0 x1 x2} (h : execEnext x0 x1 x2 s = .next t) : Reach s t := runM_reach h
theorem execErow_reach {x0 x1 x2 x3 x4 x5} (h : execErow x0 x1 x2 x3 x4 x5 s = .next t) : Reach s t := runM_reach h
theorem execEcol_reach {x0 x1 x2 x3 x4 x5 x6} (h : execEcol x0 x1 x2 x3 x4 x5 x6 s = .next t) : Reach s t := runM_reach h
theorem execEhchk_reach {x0 x1 x2 x3} (h : execEhchk x0 x1 x2 x3 s = .next t) : Reach s t := runM_reach h
theorem execEget_reach {x0 x1 x2 x3 x4 x5 x6 x7 x8} (h : execEget x0 x1 x2 x3 x4 x5 x6 x7 x8 s = .next t) : Reach s t := runM_reach h
theorem execEput_reach {x0 x1 x2 x3 x4 x5 x6 x7 x8} (h : execEput x0 x1 x2 x3 x4 x5 x6 x7 x8 s = .next t) : Reach s t := runM_reach h
theorem execEcrt_reach {x0 x1 x2 x3 x4 x5} (h : execEcrt x0 x1 x2 x3 x4 x5 s = .next t) : Reach s t := runM_reach h
theorem execEdel_reach {x0 x1 x2 x3 x4} (h : execEdel x0 x1 x2 x3 x4 s = .next t) : Reach s t := runM_reach h
theorem execEadd_reach {x0 x1 x2 x3 x4 x5 x6 x7} (h : execEadd x0 x1 x2 x3 x4 x5 x6 x7 s = .next t) : Reach s t := runM_reach h
theorem execErem_reach {x0 x1 x2 x3 x4 x5} (h : execErem x0 x1 x2 x3 x4 x5 s = .next t) : Reach s t := runM_reach h
theorem execEset_reach {x0 x1 x2 x3 x4 x5 x6 x7} (h : execEset x0 x1 x2 x3 x4 x5 x6 x7 s = .next t) : Reach s t := runM_reach h
theorem execEcmt_reach {x0 x1 x2} (h : execEcmt x0 x1 x2 s = .next t) : Reach s t := runM_reach h
theorem execEsync_reach {x0 x1 x2} (h : execEsync x0 x1 x2 s = .next t) : Reach s t := runM_reach h
theorem execEpin_reach {x0 x1 x2 x3 x4} (h : execEpin x0 x1 x2 x3 x4 s = .next t) : Reach s t := runM_reach h
theorem execEunpin_reach {x0 x1 x2} (h : execEunpin x0 x1 x2 s = .next t) : Reach s t := runM_reach h
theorem execEver_reach {x0 x1 x2 x3} (h : execEver x0 x1 x2 x3 s = .next t) : Reach s t := runM_reach h
theorem execTxbeg_reach {x0 x1} (h : execTxbeg x0 x1 s = .next t) : Reach s t := runM_reach h
theorem execTxend_reach {x0 x1} (h : execTxend x0 x1 s = .next t) : Reach s t := runM_reach h
theorem execTxabt_reach {x0 x1} (h : execTxabt x0 x1 s = .next t) : Reach s t := runM_reach h
theorem execTxst_reach {x0 x1 x2} (h : execTxst x0 x1 x2 s = .next t) : Reach s t := local_reach h
theorem execTxcause_reach {x0 x1 x2} (h : execTxcause x0 x1 x2 s = .next t) : Reach s t := local_reach h
theorem execRycl_reach {x0 x1 x2 x3 x4} (h : execRycl x0 x1 x2 x3 x4 s = .next t) : Reach s t := runM_reach h
theorem execRyany_reach {x0 x1 x2 x3} (h : execRyany x0 x1 x2 x3 s = .next t) : Reach s t := runM_reach h
theorem execRyocc_reach {x0 x1 x2 x3 x4} (h : execRyocc x0 x1 x2 x3 x4 s = .next t) : Reach s t := runM_reach h
theorem execRyacc_reach {x0 x1 x2} (h : execRyacc x0 x1 x2 s = .next t) : Reach s t := runM_reach h
theorem execRyres_reach {x0 x1 x2 x3} (h : execRyres x0 x1 x2 x3 s = .next t) : Reach s t := runM_reach h
theorem execRywait_reach {x0 x1} (h : execRywait x0 x1 s = .next t) : Reach s t := runM_reach h
theorem execRyinv_reach {x0 x1} (h : execRyinv x0 x1 s = .next t) : Reach s t := runM_reach h
theorem execRygeo_reach {x0 x1 x2} (h : execRygeo x0 x1 x2 s = .next t) : Reach s t := runM_reach h
theorem execRypst_reach {x0 x1 x2} (h : execRypst x0 x1 x2 s = .next t) : Reach s t := runM_reach h
theorem execZrd_reach {x0 x1 x2} (h : execZrd x0 x1 x2 s = .next t) : Reach s t := runM_reach h
theorem execZwr_reach {x0 x1 x2} (h : execZwr x0 x1 x2 s = .next t) : Reach s t := runM_reach h
theorem execTlbi_reach {x0 x1} (h : execTlbi x0 x1 s = .next t) : Reach s t := runM_reach h
theorem execTlbsync_reach {x0} (h : execTlbsync x0 s = .next t) : Reach s t := runM_reach h
theorem execTrapret_reach {x0} (h : execTrapret x0 s = .next t) : Reach s t := runM_reach h
theorem execCtxsv_reach {x0 x1 x2 x3} (h : execCtxsv x0 x1 x2 x3 s = .next t) : Reach s t := runM_reach h
theorem execCtxld_reach {x0 x1 x2 x3} (h : execCtxld x0 x1 x2 x3 s = .next t) : Reach s t := runM_reach h
theorem execWsld_reach {x0 x1 x2 x3} (h : execWsld x0 x1 x2 x3 s = .next t) : Reach s t := runM_reach h
theorem execGsub_reach {x0 x1 x2 x3} (h : execGsub x0 x1 x2 x3 s = .next t) : Reach s t := runM_reach h
theorem execGkick_reach {x0 x1 x2 x3} (h : execGkick x0 x1 x2 x3 s = .next t) : Reach s t := runM_reach h
theorem execGsig_reach {x0 x1 x2 x3} (h : execGsig x0 x1 x2 x3 s = .next t) : Reach s t := runM_reach h
theorem execGwait_reach {x0 x1 x2} (h : execGwait x0 x1 x2 s = .next t) : Reach s t := runM_reach h
theorem execGdep_reach {x0 x1 x2 x3} (h : execGdep x0 x1 x2 x3 s = .next t) : Reach s t := runM_reach h
theorem execMovK_reach {x0 x1 x2} (h : execMovK x0 x1 x2 s = .next t) : Reach s t := alu_reach h
theorem execIaddK_reach {x0 x1 x2 x3} (h : execIaddK x0 x1 x2 x3 s = .next t) : Reach s t := kform_reach h
theorem execIsubK_reach {x0 x1 x2 x3} (h : execIsubK x0 x1 x2 x3 s = .next t) : Reach s t := kform_reach h
theorem execImulK_reach {x0 x1 x2 x3} (h : execImulK x0 x1 x2 x3 s = .next t) : Reach s t := kform_reach h
theorem execAndK_reach {x0 x1 x2 x3} (h : execAndK x0 x1 x2 x3 s = .next t) : Reach s t := kform_reach h
theorem execOrK_reach {x0 x1 x2 x3} (h : execOrK x0 x1 x2 x3 s = .next t) : Reach s t := kform_reach h
theorem execXorK_reach {x0 x1 x2 x3} (h : execXorK x0 x1 x2 x3 s = .next t) : Reach s t := kform_reach h
theorem execShlK_reach {x0 x1 x2 x3} (h : execShlK x0 x1 x2 x3 s = .next t) : Reach s t := kform_reach h
theorem execShrK_reach {x0 x1 x2 x3} (h : execShrK x0 x1 x2 x3 s = .next t) : Reach s t := kform_reach h
theorem execSraK_reach {x0 x1 x2 x3} (h : execSraK x0 x1 x2 x3 s = .next t) : Reach s t := kform_reach h
theorem execFaddK_reach {x0 x1 x2 x3} (h : execFaddK x0 x1 x2 x3 s = .next t) : Reach s t := kform_reach h
theorem execFmulK_reach {x0 x1 x2 x3} (h : execFmulK x0 x1 x2 x3 s = .next t) : Reach s t := kform_reach h
theorem execEscapementChoose_reach {x0 x1} (h : execEscapementChoose x0 x1 s = .next t) : Reach s t := runE_reach h
theorem execReadyWaitLimit_reach {x0} (h : execReadyWaitLimit x0 s = .next t) : Reach s t := runE_reach h
theorem execDeferredTrap_reach {x0} (h : execDeferredTrap x0 s = .next t) : Reach s t := runE_reach h
theorem execEHang_reach {x0} (h : execEHang x0 s = .next t) : Reach s t := runE_reach h
theorem execClockTick_reach {x0 x1 x2 x3} (h : execClockTick x0 x1 x2 x3 s = .next t) : Reach s t := runE_reach h
theorem execStoreFifoEntryLeave_reach {x0} (h : execStoreFifoEntryLeave x0 s = .next t) : Reach s t := runE_reach h
theorem execWritePerformed_reach {x0 x1} (h : execWritePerformed x0 x1 s = .next t) : Reach s t := runE_reach h
theorem execReleaseMarkerCounted_reach {x0 x1} (h : execReleaseMarkerCounted x0 x1 s = .next t) : Reach s t := runE_reach h
theorem execLoadValueReturn_reach {x0 x1} (h : execLoadValueReturn x0 x1 s = .next t) : Reach s t := runE_reach h
theorem execMonitorWake_reach {x0} (h : execMonitorWake x0 s = .next t) : Reach s t := runE_reach h
theorem execWalkStart_reach {x0} (h : execWalkStart x0 s = .next t) : Reach s t := runE_reach h
theorem execWalkComplete_reach {x0} (h : execWalkComplete x0 s = .next t) : Reach s t := runE_reach h
theorem execFbHeadWrite_reach {x0 x1} (h : execFbHeadWrite x0 x1 s = .next t) : Reach s t := runE_reach h
theorem execFbStatusDroppedClear_reach {x0} (h : execFbStatusDroppedClear x0 s = .next t) : Reach s t := runE_reach h
theorem execFbReplayGo_reach {x0} (h : execFbReplayGo x0 s = .next t) : Reach s t := runE_reach h
theorem execChimeNotification_reach {x0} (h : execChimeNotification x0 s = .next t) : Reach s t := runE_reach h
theorem execChimeHeadWrite_reach {x0} (h : execChimeHeadWrite x0 s = .next t) : Reach s t := runE_reach h
theorem execTlbiInvalidationBegin_reach {x0 x1} (h : execTlbiInvalidationBegin x0 x1 s = .next t) : Reach s t := runE_reach h
theorem execWheelAdmit_reach {x0 x1 x2} (h : execWheelAdmit x0 x1 x2 s = .next t) : Reach s t := runE_reach h
theorem execTrainEnd_reach {x0} (h : execTrainEnd x0 s = .next t) : Reach s t := runE_reach h
theorem execPreemptRequest_reach {x0} (h : execPreemptRequest x0 s = .next t) : Reach s t := runE_reach h
theorem execPreemptStop_reach {x0} (h : execPreemptStop x0 s = .next t) : Reach s t := runE_reach h
theorem execContextResume_reach {x0} (h : execContextResume x0 s = .next t) : Reach s t := runE_reach h
theorem execSyncPointPublish_reach {x0} (h : execSyncPointPublish x0 s = .next t) : Reach s t := runE_reach h
theorem execCommitStep_reach {x0} (h : execCommitStep x0 s = .next t) : Reach s t := runE_reach h
theorem execSerialTokenGrant_reach {x0} (h : execSerialTokenGrant x0 s = .next t) : Reach s t := runE_reach h
theorem execTokenHoldLimit_reach {x0} (h : execTokenHoldLimit x0 s = .next t) : Reach s t := runE_reach h
theorem execJobStart_reach {x0} (h : execJobStart x0 s = .next t) : Reach s t := runE_reach h
theorem execSectorDeliver_reach {x0 x1} (h : execSectorDeliver x0 x1 s = .next t) : Reach s t := runE_reach h
theorem execLoopSequencerStep_reach {x0 x1} (h : execLoopSequencerStep x0 x1 s = .next t) : Reach s t := runE_reach h
theorem execTenantSplit_reach {x0} (h : execTenantSplit x0 s = .next t) : Reach s t := runE_reach h
theorem execRefreshWindowEnd_reach {x0} (h : execRefreshWindowEnd x0 s = .next t) : Reach s t := runE_reach h
theorem execCandidatePresent_reach {x0 x1} (h : execCandidatePresent x0 x1 s = .next t) : Reach s t := runE_reach h
theorem execRayQueryComplete_reach {x0} (h : execRayQueryComplete x0 s = .next t) : Reach s t := runE_reach h
theorem execRingEnable_reach {x0 x1} (h : execRingEnable x0 x1 s = .next t) : Reach s t := runE_reach h
theorem execRingRecWrite_reach {x0 x1} (h : execRingRecWrite x0 x1 s = .next t) : Reach s t := runE_reach h
theorem execRingKick_reach {x0 x1 x2} (h : execRingKick x0 x1 x2 s = .next t) : Reach s t := runE_reach h
theorem execRingStatusWrite_reach {x0 x1} (h : execRingStatusWrite x0 x1 s = .next t) : Reach s t := runE_reach h
theorem execPacketAccept_reach {x0} (h : execPacketAccept x0 s = .next t) : Reach s t := runE_reach h
theorem execStuck_reach {x0} (h : execStuck x0 s = .next t) : Reach s t := runE_reach h
theorem execNodeStart_reach {x0} (h : execNodeStart x0 s = .next t) : Reach s t := runE_reach h
theorem execNodeComplete_reach {x0} (h : execNodeComplete x0 s = .next t) : Reach s t := runE_reach h
theorem execNodeFail_reach {x0} (h : execNodeFail x0 s = .next t) : Reach s t := runE_reach h
theorem execMgPlimitWrite_reach {x0} (h : execMgPlimitWrite x0 s = .next t) : Reach s t := runE_reach h
theorem execContextRegisterWrite_reach {x0 x1 x2} (h : execContextRegisterWrite x0 x1 x2 s = .next t) : Reach s t := runE_reach h
theorem execRegisterWrite_reach {x0 x1} (h : execRegisterWrite x0 x1 s = .next t) : Reach s t := runE_reach h
theorem execHostWriteIgnored_reach {x0 x1} (h : execHostWriteIgnored x0 x1 s = .next t) : Reach s t := runE_reach h
theorem execHostAccess_reach {x0} (h : execHostAccess x0 s = .next t) : Reach s t := runE_reach h
theorem execFirmwareVerify_reach {x0} (h : execFirmwareVerify x0 s = .next t) : Reach s t := runE_reach h
theorem execEsuOperation_reach {x0} (h : execEsuOperation x0 s = .next t) : Reach s t := runE_reach h
theorem execMatrixInstructionComplete_reach {x0 x1} (h : execMatrixInstructionComplete x0 x1 s = .next t) : Reach s t := runE_reach h
theorem execWeightStoreWriteComplete_reach {x0} (h : execWeightStoreWriteComplete x0 s = .next t) : Reach s t := runE_reach h
theorem execEEcc_reach {x0 x1 x2} (h : execEEcc x0 x1 x2 s = .next t) : Reach s t := runE_reach h
theorem execETenant_reach {x0 x1} (h : execETenant x0 x1 s = .next t) : Reach s t := runE_reach h
theorem execOwnershipRecall_reach {x0} (h : execOwnershipRecall x0 s = .next t) : Reach s t := runE_reach h
theorem execWatchLost_reach {x0} (h : execWatchLost x0 s = .next t) : Reach s t := runE_reach h
theorem execChimeOverflowClear_reach (h : execChimeOverflowClear s = .next t) : Reach s t := runE_reach h
theorem execObjectLoad_reach {x0 x1 x2} (h : execObjectLoad x0 x1 x2 s = .next t) : Reach s t := runE_reach h
theorem execMgClkrstGo_reach (h : execMgClkrstGo s = .next t) : Reach s t := runE_reach h
theorem execHostwrClear_reach (h : execHostwrClear s = .next t) : Reach s t := runE_reach h
theorem execBadwrClear_reach (h : execBadwrClear s = .next t) : Reach s t := runE_reach h
theorem execHostWarmRestart_reach {x0} (h : execHostWarmRestart x0 s = .next t) : Reach s t := runE_reach h
theorem execSelfTestComplete_reach (h : execSelfTestComplete s = .next t) : Reach s t := runE_reach h
theorem execSelfTestFail_reach {x0} (h : execSelfTestFail x0 s = .next t) : Reach s t := runE_reach h
theorem execFullServiceChange_reach (h : execFullServiceChange s = .next t) : Reach s t := runE_reach h
theorem execPowerLimitExceeded_reach {x0 x1} (h : execPowerLimitExceeded x0 x1 s = .next t) : Reach s t := runE_reach h
theorem execThermalStop_reach {x0} (h : execThermalStop x0 s = .next t) : Reach s t := runE_reach h
theorem execThermalRecover_reach {x0} (h : execThermalRecover x0 s = .next t) : Reach s t := runE_reach h
theorem execHostReconnect_reach {x0} (h : execHostReconnect x0 s = .next t) : Reach s t := runE_reach h

/-- The next state of every instruction and event but POWER_ON is reached by updates. -/
theorem exec_reach {i : Instr} (hi : i ≠ .powerOn) (h : exec i s = .next t) : Reach s t := by
  cases i with
  | powerOn => exact absurd rfl hi
  | mov _ _ _ _ => exact execMov_reach h
  | movk _ _ _ _ => exact execMovk_reach h
  | movs _ _ _ => exact execMovs_reach h
  | sel _ _ _ _ _ _ => exact execSel_reach h
  | iadd _ _ _ _ _ _ => exact execIadd_reach h
  | isub _ _ _ _ _ _ => exact execIsub_reach h
  | imul _ _ _ _ _ _ => exact execImul_reach h
  | imulh _ _ _ _ _ => exact execImulh_reach h
  | imad _ _ _ _ _ _ _ => exact execImad_reach h
  | imin _ _ _ _ _ => exact execImin_reach h
  | imax _ _ _ _ _ => exact execImax_reach h
  | iabs _ _ _ _ _ => exact execIabs_reach h
  | iaddx _ _ _ _ _ => exact execIaddx_reach h
  | imadx _ _ _ _ _ _ => exact execImadx_reach h
  | and _ _ _ _ _ => exact execAnd_reach h
  | or _ _ _ _ _ => exact execOr_reach h
  | xor _ _ _ _ _ => exact execXor_reach h
  | andn _ _ _ _ _ => exact execAndn_reach h
  | lop3 _ _ _ _ _ => exact execLop3_reach h
  | shl _ _ _ _ _ => exact execShl_reach h
  | shr _ _ _ _ _ => exact execShr_reach h
  | sra _ _ _ _ _ => exact execSra_reach h
  | rot _ _ _ _ _ => exact execRot_reach h
  | bfx _ _ _ _ _ => exact execBfx_reach h
  | bfi _ _ _ _ _ _ => exact execBfi_reach h
  | popc _ _ _ _ => exact execPopc_reach h
  | clz _ _ _ _ => exact execClz_reach h
  | brev _ _ _ _ => exact execBrev_reach h
  | icmp _ _ _ _ _ _ => exact execIcmp_reach h
  | fcmp _ _ _ _ _ => exact execFcmp_reach h
  | plop _ _ _ _ _ => exact execPlop_reach h
  | pmov _ _ => exact execPmov_reach h
  | fadd _ _ _ _ _ _ => exact execFadd_reach h
  | fsub _ _ _ _ _ _ => exact execFsub_reach h
  | fmul _ _ _ _ _ _ => exact execFmul_reach h
  | ffma _ _ _ _ _ _ _ => exact execFfma_reach h
  | fmin _ _ _ _ => exact execFmin_reach h
  | fmax _ _ _ _ => exact execFmax_reach h
  | frnd _ _ _ _ => exact execFrnd_reach h
  | frcp _ _ _ => exact execFrcp_reach h
  | frsq _ _ _ => exact execFrsq_reach h
  | fsqrt _ _ _ => exact execFsqrt_reach h
  | fexp2 _ _ _ => exact execFexp2_reach h
  | flog2 _ _ _ => exact execFlog2_reach h
  | fsin _ _ _ => exact execFsin_reach h
  | fcos _ _ _ => exact execFcos_reach h
  | hadd2 _ _ _ _ _ _ _ => exact execHadd2_reach h
  | hmul2 _ _ _ _ _ _ _ => exact execHmul2_reach h
  | hfma2 _ _ _ _ _ _ _ _ => exact execHfma2_reach h
  | cvti _ _ _ _ _ => exact execCvti_reach h
  | cvtf _ _ _ _ _ => exact execCvtf_reach h
  | cvth _ _ _ => exact execCvth_reach h
  | cvtn _ _ _ _ => exact execCvtn_reach h
  | shfl _ _ _ _ _ _ => exact execShfl_reach h
  | shfx _ _ _ _ _ _ _ _ => exact execShfx_reach h
  | vote _ _ _ => exact execVote_reach h
  | rdlane _ _ _ _ _ => exact execRdlane_reach h
  | wrlane _ _ _ _ _ => exact execWrlane_reach h
  | iscan _ _ _ _ _ _ => exact execIscan_reach h
  | ired _ _ _ _ _ => exact execIred_reach h
  | emrd _ => exact execEmrd_reach h
  | emwr _ => exact execEmwr_reach h
  | emand _ => exact execEmand_reach h
  | emor _ => exact execEmor_reach h
  | ld _ _ _ _ _ _ _ => exact execLd_reach h
  | st _ _ _ _ _ _ _ => exact execSt_reach h
  | ldp _ _ _ _ _ _ => exact execLdp_reach h
  | lds _ _ _ _ _ => exact execLds_reach h
  | sts _ _ _ _ _ => exact execSts_reach h
  | ldl _ _ _ _ _ => exact execLdl_reach h
  | stl _ _ _ _ _ => exact execStl_reach h
  | ldw _ _ _ _ _ => exact execLdw_reach h
  | atom _ _ _ _ _ _ _ _ => exact execAtom_reach h
  | red _ _ _ _ _ _ _ => exact execRed_reach h
  | cas _ _ _ _ _ _ _ => exact execCas_reach h
  | atoml _ _ _ _ _ _ _ => exact execAtoml_reach h
  | casl _ _ _ _ _ _ => exact execCasl_reach h
  | fence _ _ => exact execFence_reach h
  | drain _ _ => exact execDrain_reach h
  | barw _ _ _ => exact execBarw_reach h
  | bara _ _ _ => exact execBara_reach h
  | barm _ _ _ _ => exact execBarm_reach h
  | barinit _ _ _ _ => exact execBarinit_reach h
  | mon _ _ _ _ _ _ => exact execMon_reach h
  | mwait _ _ => exact execMwait_reach h
  | prf _ _ _ _ _ => exact execPrf_reach h
  | own _ _ _ _ => exact execOwn_reach h
  | unown _ _ _ _ => exact execUnown_reach h
  | cwb _ _ _ _ => exact execCwb_reach h
  | cinv _ _ _ _ => exact execCinv_reach h
  | bra _ _ => exact execBra_reach h
  | brz _ _ _ => exact execBrz_reach h
  | brnz _ _ _ => exact execBrnz_reach h
  | brany _ _ _ => exact execBrany_reach h
  | brall _ _ _ => exact execBrall_reach h
  | call _ _ _ => exact execCall_reach h
  | ret _ _ => exact execRet_reach h
  | jmpi _ _ => exact execJmpi_reach h
  | loop _ _ _ => exact execLoop_reach h
  | exit _ => exact execExit_reach h
  | yield _ => exact execYield_reach h
  | yieldc _ _ _ => exact execYieldc_reach h
  | trap _ _ => exact execTrap_reach h
  | brk _ _ => exact execBrk_reach h
  | nop _ => exact execNop_reach h
  | tcfg _ _ _ => exact execTcfg_reach h
  | tld _ _ _ _ => exact execTld_reach h
  | tst _ _ _ _ => exact execTst_reach h
  | tzero _ _ => exact execTzero_reach h
  | tmma _ _ _ _ => exact execTmma_reach h
  | tloop _ _ _ _ _ => exact execTloop_reach h
  | tmmb _ _ _ _ => exact execTmmb_reach h
  | tvxm _ _ _ _ _ _ _ => exact execTvxm_reach h
  | tdrain _ _ _ _ _ _ => exact execTdrain_reach h
  | twait _ _ => exact execTwait_reach h
  | tcvt _ _ _ => exact execTcvt_reach h
  | ttr _ _ _ => exact execTtr_reach h
  | tfill _ _ _ => exact execTfill_reach h
  | wsync _ _ _ => exact execWsync_reach h
  | wsinfo _ _ _ => exact execWsinfo_reach h
  | cpy _ _ _ _ _ => exact execCpy_reach h
  | cpym _ _ _ _ _ => exact execCpym_reach h
  | cpt _ _ _ _ _ => exact execCpt_reach h
  | cpg _ _ _ _ _ => exact execCpg_reach h
  | tbinit _ _ _ _ => exact execTbinit_reach h
  | tbarr _ _ _ _ => exact execTbarr_reach h
  | tbexp _ _ _ => exact execTbexp_reach h
  | tbwait _ _ _ => exact execTbwait_reach h
  | rbind _ _ _ => exact execRbind_reach h
  | racq _ _ _ => exact execRacq_reach h
  | rrel _ _ _ => exact execRrel_reach h
  | srd _ _ _ => exact execSrd_reach h
  | eqry _ _ _ _ _ => exact execEqry_reach h
  | enext _ _ _ => exact execEnext_reach h
  | erow _ _ _ _ _ _ => exact execErow_reach h
  | ecol _ _ _ _ _ _ _ => exact execEcol_reach h
  | ehchk _ _ _ _ => exact execEhchk_reach h
  | eget _ _ _ _ _ _ _ _ _ => exact execEget_reach h
  | eput _ _ _ _ _ _ _ _ _ => exact execEput_reach h
  | ecrt _ _ _ _ _ _ => exact execEcrt_reach h
  | edel _ _ _ _ _ => exact execEdel_reach h
  | eadd _ _ _ _ _ _ _ _ => exact execEadd_reach h
  | erem _ _ _ _ _ _ => exact execErem_reach h
  | eset _ _ _ _ _ _ _ _ => exact execEset_reach h
  | ecmt _ _ _ => exact execEcmt_reach h
  | esync _ _ _ => exact execEsync_reach h
  | epin _ _ _ _ _ => exact execEpin_reach h
  | eunpin _ _ _ => exact execEunpin_reach h
  | ever _ _ _ _ => exact execEver_reach h
  | txbeg _ _ => exact execTxbeg_reach h
  | txend _ _ => exact execTxend_reach h
  | txabt _ _ => exact execTxabt_reach h
  | txst _ _ _ => exact execTxst_reach h
  | txcause _ _ _ => exact execTxcause_reach h
  | rycl _ _ _ _ _ => exact execRycl_reach h
  | ryany _ _ _ _ => exact execRyany_reach h
  | ryocc _ _ _ _ _ => exact execRyocc_reach h
  | ryacc _ _ _ => exact execRyacc_reach h
  | ryres _ _ _ _ => exact execRyres_reach h
  | rywait _ _ => exact execRywait_reach h
  | ryinv _ _ => exact execRyinv_reach h
  | rygeo _ _ _ => exact execRygeo_reach h
  | rypst _ _ _ => exact execRypst_reach h
  | zrd _ _ _ => exact execZrd_reach h
  | zwr _ _ _ => exact execZwr_reach h
  | tlbi _ _ => exact execTlbi_reach h
  | tlbsync _ => exact execTlbsync_reach h
  | trapret _ => exact execTrapret_reach h
  | ctxsv _ _ _ _ => exact execCtxsv_reach h
  | ctxld _ _ _ _ => exact execCtxld_reach h
  | wsld _ _ _ _ => exact execWsld_reach h
  | gsub _ _ _ _ => exact execGsub_reach h
  | gkick _ _ _ _ => exact execGkick_reach h
  | gsig _ _ _ _ => exact execGsig_reach h
  | gwait _ _ _ => exact execGwait_reach h
  | gdep _ _ _ _ => exact execGdep_reach h
  | movK _ _ _ => exact execMovK_reach h
  | iaddK _ _ _ _ => exact execIaddK_reach h
  | isubK _ _ _ _ => exact execIsubK_reach h
  | imulK _ _ _ _ => exact execImulK_reach h
  | andK _ _ _ _ => exact execAndK_reach h
  | orK _ _ _ _ => exact execOrK_reach h
  | xorK _ _ _ _ => exact execXorK_reach h
  | shlK _ _ _ _ => exact execShlK_reach h
  | shrK _ _ _ _ => exact execShrK_reach h
  | sraK _ _ _ _ => exact execSraK_reach h
  | faddK _ _ _ _ => exact execFaddK_reach h
  | fmulK _ _ _ _ => exact execFmulK_reach h
  | escapementChoose _ _ => exact execEscapementChoose_reach h
  | readyWaitLimit _ => exact execReadyWaitLimit_reach h
  | deferredTrap _ => exact execDeferredTrap_reach h
  | eHang _ => exact execEHang_reach h
  | clockTick _ _ _ _ => exact execClockTick_reach h
  | storeFifoEntryLeave _ => exact execStoreFifoEntryLeave_reach h
  | writePerformed _ _ => exact execWritePerformed_reach h
  | releaseMarkerCounted _ _ => exact execReleaseMarkerCounted_reach h
  | loadValueReturn _ _ => exact execLoadValueReturn_reach h
  | monitorWake _ => exact execMonitorWake_reach h
  | walkStart _ => exact execWalkStart_reach h
  | walkComplete _ => exact execWalkComplete_reach h
  | fbHeadWrite _ _ => exact execFbHeadWrite_reach h
  | fbStatusDroppedClear _ => exact execFbStatusDroppedClear_reach h
  | fbReplayGo _ => exact execFbReplayGo_reach h
  | chimeNotification _ => exact execChimeNotification_reach h
  | chimeHeadWrite _ => exact execChimeHeadWrite_reach h
  | tlbiInvalidationBegin _ _ => exact execTlbiInvalidationBegin_reach h
  | wheelAdmit _ _ _ => exact execWheelAdmit_reach h
  | trainEnd _ => exact execTrainEnd_reach h
  | preemptRequest _ => exact execPreemptRequest_reach h
  | preemptStop _ => exact execPreemptStop_reach h
  | contextResume _ => exact execContextResume_reach h
  | syncPointPublish _ => exact execSyncPointPublish_reach h
  | commitStep _ => exact execCommitStep_reach h
  | serialTokenGrant _ => exact execSerialTokenGrant_reach h
  | tokenHoldLimit _ => exact execTokenHoldLimit_reach h
  | jobStart _ => exact execJobStart_reach h
  | sectorDeliver _ _ => exact execSectorDeliver_reach h
  | loopSequencerStep _ _ => exact execLoopSequencerStep_reach h
  | tenantSplit _ => exact execTenantSplit_reach h
  | refreshWindowEnd _ => exact execRefreshWindowEnd_reach h
  | candidatePresent _ _ => exact execCandidatePresent_reach h
  | rayQueryComplete _ => exact execRayQueryComplete_reach h
  | ringEnable _ _ => exact execRingEnable_reach h
  | ringRecWrite _ _ => exact execRingRecWrite_reach h
  | ringKick _ _ _ => exact execRingKick_reach h
  | ringStatusWrite _ _ => exact execRingStatusWrite_reach h
  | packetAccept _ => exact execPacketAccept_reach h
  | stuck _ => exact execStuck_reach h
  | nodeStart _ => exact execNodeStart_reach h
  | nodeComplete _ => exact execNodeComplete_reach h
  | nodeFail _ => exact execNodeFail_reach h
  | mgPlimitWrite _ => exact execMgPlimitWrite_reach h
  | contextRegisterWrite _ _ _ => exact execContextRegisterWrite_reach h
  | registerWrite o v => exact execRegisterWrite_reach (x0 := o) (x1 := v) h
  | hostWriteIgnored o v => exact execHostWriteIgnored_reach (x0 := o) (x1 := v) h
  | hostAccess _ => exact execHostAccess_reach h
  | firmwareVerify _ => exact execFirmwareVerify_reach h
  | esuOperation _ => exact execEsuOperation_reach h
  | matrixInstructionComplete _ _ => exact execMatrixInstructionComplete_reach h
  | weightStoreWriteComplete _ => exact execWeightStoreWriteComplete_reach h
  | eEcc _ _ _ => exact execEEcc_reach h
  | eTenant _ _ => exact execETenant_reach h
  | ownershipRecall _ => exact execOwnershipRecall_reach h
  | watchLost _ => exact execWatchLost_reach h
  | chimeOverflowClear => exact execChimeOverflowClear_reach h
  | objectLoad _ _ _ => exact execObjectLoad_reach h
  | mgClkrstGo => exact execMgClkrstGo_reach h
  | hostwrClear => exact execHostwrClear_reach h
  | badwrClear => exact execBadwrClear_reach h
  | hostWarmRestart _ => exact execHostWarmRestart_reach h
  | selfTestComplete => exact execSelfTestComplete_reach h
  | selfTestFail _ => exact execSelfTestFail_reach h
  | fullServiceChange => exact execFullServiceChange_reach h
  | powerLimitExceeded _ _ => exact execPowerLimitExceeded_reach h
  | thermalStop _ => exact execThermalStop_reach h
  | thermalRecover _ => exact execThermalRecover_reach h
  | hostReconnect _ => exact execHostReconnect_reach h

end Sys2Proof.Machine
end

