-- ==== Sys2Proof/Laws/Eval.lean ====
section
/-! SUPPORT. Running the computations of Machine/Ops.lean: what each primitive answers on a run, as rewrite rules. -/

namespace Sys2Proof.Machine

variable {s : State} {α β : Type}

@[simp] theorem M.pure_run (a : α) (r : Run s) : (pure a : M s α) r = .ok (a, r) := rfl

@[simp] theorem M.bind_run (m : M s α) (f : α → M s β) (r : Run s) :
    (m >>= f) r = match m r with
      | .ok p => f p.1 p.2
      | .error e => .error e := by
  show (m r >>= fun p => f p.1 p.2) = _
  cases m r <;> rfl

@[simp] theorem M.map_run (f : α → β) (m : M s α) (r : Run s) :
    (f <$> m) r = match m r with
      | .ok p => .ok (f p.1, p.2)
      | .error e => .error e := by
  show (m r >>= fun p => Except.ok (f p.1, p.2)) = _
  cases m r <;> rfl

@[simp] theorem now_run (r : Run s) : (now : M s State) r = .ok (r.1, r) := rfl

@[simp] theorem upd_run (u : Upd) (r : Run s) : (upd u : M s Unit) r = .ok ((), ⟨r.1.upd u, r.2.step u⟩) := rfl

@[simp] theorem stop_run (e : Stop) (r : Run s) : (stop e : M s α) r = .error e := rfl

@[simp] theorem raise_run (c : Byte) (r : Run s) : (raise c : M s α) r = .error (.trap c none none) := rfl

@[simp] theorem raiseAt_run (c : Byte) (l : Mask) (v : DWord) (r : Run s) :
    (raiseAt c l v : M s α) r = .error (.trap c (some l) (some v)) := rfl

@[simp] theorem need_run (b : Bool) (e : Stop) (r : Run s) :
    (need b e : M s Unit) r = if b then .ok ((), r) else .error e := by
  cases b <;> rfl

@[simp] theorem orStop_some_run (a : α) (e : Stop) (r : Run s) : (orStop (some a) e : M s α) r = .ok (a, r) := rfl

@[simp] theorem orStop_none_run (e : Stop) (r : Run s) : (orStop none e : M s α) r = .error e := rfl

@[simp] theorem freshId_run (r : Run s) :
    (freshId : M s Nat) r = .ok (r.1.nextId, ⟨r.1.upd (.nextId (r.1.nextId + 1)), r.2.step _⟩) := rfl

@[simp] theorem freshFree_run (r : Run s) :
    (freshFree : M s DWord) r = .ok (Config.freeValue r.1.free, ⟨r.1.upd (.free (r.1.free + 1)), r.2.step _⟩) := rfl

@[simp] theorem updAll_ok (us : List Upd) (r : Run s) :
    (updAll us : M s Unit) r = .ok ((), ⟨r.1.upds us, r.2.upds us⟩) := by
  obtain ⟨h, e⟩ := updAll_run us r
  exact e

@[simp] theorem putMem_run (a n v : Nat) (r : Run s) :
    (putMem a n v : M s Unit) r = .ok ((), ⟨r.1.upds (byteUpds a n v), r.2.upds _⟩) := updAll_ok _ r

theorem runM_eq (m : M s Unit) :
    runM s m = match m ⟨s, .refl⟩ with
      | .ok r => .next r.2.1
      | .error e => stopped s e := rfl

end Sys2Proof.Machine
end

