-- ==== Sys2Proof/Laws/Inv.lean ====
section
/-! SUPPORT. The invariant is kept by every update, so by every computation of a meaning. -/

namespace Sys2Proof.Machine

variable {s t : State}

theorem AMap.fst_set {α : Type} (m : AMap α) (k : Nat) (v : α) (j : Nat) (h : j ∈ (AMap.set m k v).map (·.1)) :
    j = k ∨ j ∈ m.map (·.1) := by
  induction m with
  | nil => simpa [AMap.set] using h
  | cons kv m ih =>
    obtain ⟨i, x⟩ := kv
    unfold AMap.set at h
    split at h
    · simpa using h
    · split at h
      · rename_i h2
        subst h2
        simp at h ⊢
        omega
      · simp only [List.map_cons, List.mem_cons] at h ⊢
        rcases h with h | h
        · exact .inr (.inl h)
        · exact (ih h).imp_right .inr

theorem KeysRise.cons {α : Type} {i : Nat} {x : α} {m : AMap α} :
    KeysRise ((i, x) :: m) ↔ (∀ j ∈ m.map (·.1), i < j) ∧ KeysRise m := by
  simp only [KeysRise, List.map_cons, List.pairwise_cons]

theorem KeysRise.set {α : Type} {m : AMap α} (h : KeysRise m) (k : Nat) (v : α) : KeysRise (AMap.set m k v) := by
  induction m with
  | nil => simp [AMap.set, KeysRise]
  | cons kv m ih =>
    obtain ⟨i, x⟩ := kv
    have ⟨h1, h2⟩ := KeysRise.cons.1 h
    unfold AMap.set
    split
    · rename_i hk
      refine KeysRise.cons.2 ⟨fun j hj => ?_, h⟩
      simp only [List.map_cons, List.mem_cons] at hj
      rcases hj with rfl | hj
      · exact hk
      · exact Nat.lt_trans hk (h1 j hj)
    · split
      · rename_i h3
        subst h3
        exact KeysRise.cons.2 ⟨h1, h2⟩
      · refine KeysRise.cons.2 ⟨fun j hj => ?_, ih h2⟩
        rcases AMap.fst_set m k v j hj with rfl | hj
        · omega
        · exact h1 j hj

theorem AMap.fst_erase {α : Type} (m : AMap α) (k : Nat) (j : Nat) (h : j ∈ (AMap.erase m k).map (·.1)) : j ∈ m.map (·.1) := by
  induction m with
  | nil => exact h
  | cons kv m ih =>
    obtain ⟨i, x⟩ := kv
    unfold AMap.erase at h
    split at h
    · exact List.mem_cons_of_mem _ (ih h)
    · simp only [List.map_cons, List.mem_cons] at h ⊢
      exact h.imp_right ih

theorem KeysRise.erase {α : Type} {m : AMap α} (h : KeysRise m) (k : Nat) : KeysRise (AMap.erase m k) := by
  induction m with
  | nil => simpa [AMap.erase] using h
  | cons kv m ih =>
    obtain ⟨i, x⟩ := kv
    have ⟨h1, h2⟩ := KeysRise.cons.1 h
    unfold AMap.erase
    split
    · exact ih h2
    · exact KeysRise.cons.2 ⟨fun j hj => h1 j (AMap.fst_erase m k j hj), ih h2⟩

theorem KeysRise.putOpt {α : Type} {m : AMap α} (h : KeysRise m) (k : Nat) (v : Option α) : KeysRise (putOpt m k v) := by
  cases v
  · exact h.erase k
  · exact h.set k _

theorem Train.norm_ok (x : Train) : x.norm.Ok := by
  constructor
  · simp only [Train.norm]
    split <;> ext i <;> simp <;> tauto
  · simp [Train.norm]
  · simp only [Train.norm]
    rw [BitVec.and_assoc, show 0xFFFFFFFFFFFFFFF8#64 &&& 7 = 0 by decide]
    simp
  · intro h
    simp only [Train.norm, Train.inTx] at h ⊢
    rw [if_pos (by simpa using h)]
    ext i
    simp

theorem Mg.norm_plimit (m : Mg) : 300 ≤ m.norm.plimit.toNat ∧ m.norm.plimit.toNat ≤ 2600 := by
  simp only [Mg.norm]
  split
  · decide
  · split
    · decide
    · simp_all [BitVec.lt_def]

theorem Context.norm_ranges (c : Context) : 0x10000 ≤ c.norm.hangLimit.toNat ∧ c.norm.hangLimit.toNat ≤ 0x10000000000 ∧
    1 ≤ c.norm.lease.toNat ∧ c.norm.lease.toNat ≤ 65535 := by
  refine ⟨?_, ?_, ?_, ?_⟩ <;> simp only [Context.norm] <;> split <;> (try decide) <;> (try split) <;> (try decide) <;>
    simp_all [BitVec.lt_def] <;> omega

/-- Every update keeps the invariant. -/
theorem State.upd_inv (h : s.Inv) (u : Upd) : (s.upd u).Inv := by
  obtain ⟨h1, h2, h3, ⟨k1, k2, k3, k4, k5⟩, ⟨c1, c2, c3, c4, c5⟩, ⟨q1, q2, q3, q4⟩, h4, h5⟩ := h
  cases u
  case byte a b => exact ⟨Memory.wf_put a b h1, h2, h3, ⟨k1, k2, k3, k4, k5⟩, ⟨c1, c2, c3, c4, c5⟩, ⟨q1, q2, q3, q4⟩, h4, h5⟩
  case wbyte a b => exact ⟨h1, Memory.wf_put a b h2, h3, ⟨k1, k2, k3, k4, k5⟩, ⟨c1, c2, c3, c4, c5⟩, ⟨q1, q2, q3, q4⟩, h4, h5⟩
  case mg x => exact ⟨h1, h2, h3, ⟨k1, k2, k3, k4, k5⟩, ⟨c1, c2, c3, c4, c5⟩, ⟨q1, q2, q3, q4⟩, Mg.norm_plimit x, h5⟩
  case core k x => exact ⟨h1, h2, h3, ⟨k1, k2, k3, k4, k5⟩, ⟨c1.set k x, c2, c3, c4, c5⟩, ⟨q1, q2, q3, q4⟩, h4, h5⟩
  case l2 k x => exact ⟨h1, h2, h3, ⟨k1, k2, k3, k4, k5⟩, ⟨c1, c2.set k x, c3, c4, c5⟩, ⟨q1, q2, q3, q4⟩, h4, h5⟩
  case l3 k x => exact ⟨h1, h2, h3, ⟨k1, k2, k3, k4, k5⟩, ⟨c1, c2, c3.set k x, c4, c5⟩, ⟨q1, q2, q3, q4⟩, h4, h5⟩
  case walk k x => exact ⟨h1, h2, h3, ⟨k1, k2, k3, k4, k5⟩, ⟨c1, c2, c3, c4.putOpt k x, c5⟩, ⟨q1, q2, q3, q4⟩, h4, h5⟩
  case image k x => exact ⟨h1, h2, h3, ⟨k1, k2, k3, k4, k5⟩, ⟨c1, c2, c3, c4, c5.set k x⟩, ⟨q1, q2, q3, q4⟩, h4, h5⟩
  case dispatch k x => exact ⟨h1, h2, h3, ⟨k1, k2, k3.putOpt k x, k4, k5⟩, ⟨c1, c2, c3, c4, c5⟩, ⟨q1, q2, q3, q4⟩, h4, h5⟩
  case wheel k x => exact ⟨h1, h2, h3, ⟨k1, k2.putOpt k x, k3, k4, k5⟩, ⟨c1, c2, c3, c4, c5⟩, ⟨q1, q2, q3, q4⟩, h4, h5⟩
  case job k x => exact ⟨h1, h2, h3, ⟨k1, k2, k3, k4.putOpt k x, k5⟩, ⟨c1, c2, c3, c4, c5⟩, ⟨q1, q2, q3, q4⟩, h4, h5⟩
  case node k x => exact ⟨h1, h2, h3, ⟨k1, k2, k3, k4, k5.set k x⟩, ⟨c1, c2, c3, c4, c5⟩, ⟨q1, q2, q3, q4⟩, h4, h5⟩
  case esu k x => exact ⟨h1, h2, h3, ⟨k1, k2, k3, k4, k5⟩, ⟨c1, c2, c3, c4, c5⟩, ⟨q1.putOpt k x, q2, q3, q4⟩, h4, h5⟩
  case matrix k x => exact ⟨h1, h2, h3, ⟨k1, k2, k3, k4, k5⟩, ⟨c1, c2, c3, c4, c5⟩, ⟨q1, q2.putOpt k x, q3, q4⟩, h4, h5⟩
  case stream k x => exact ⟨h1, h2, h3, ⟨k1, k2, k3, k4, k5⟩, ⟨c1, c2, c3, c4, c5⟩, ⟨q1, q2, q3.putOpt k x, q4⟩, h4, h5⟩
  case ray k x => exact ⟨h1, h2, h3, ⟨k1, k2, k3, k4, k5⟩, ⟨c1, c2, c3, c4, c5⟩, ⟨q1, q2, q3, q4.putOpt k x⟩, h4, h5⟩
  case train k x =>
    refine ⟨h1, h2, fun id y hy => ?_, ⟨k1.putOpt k _, k2, k3, k4, k5⟩, ⟨c1, c2, c3, c4, c5⟩, ⟨q1, q2, q3, q4⟩, h4, h5⟩
    cases x with
    | none =>
      have hy : AMap.get? (AMap.erase s.trains k) id = some y := hy
      rw [AMap.get?_erase] at hy
      split at hy
      · exact nomatch hy
      · exact h3 id y hy
    | some x =>
      have hy : AMap.get? (AMap.set s.trains k x.norm) id = some y := hy
      rw [AMap.get?_set] at hy
      split at hy
      · cases hy
        exact Train.norm_ok x
      · exact h3 id y hy
  case ctx c x =>
    by_cases hc : c < 16
    · have e : s.upd (.ctx c x) = { s with ctxs := s.ctxs.set c x.norm hc } := by simp [State.upd, hc]
      rw [e]
      refine ⟨h1, h2, h3, ⟨k1, k2, k3, k4, k5⟩, ⟨c1, c2, c3, c4, c5⟩, ⟨q1, q2, q3, q4⟩, h4, fun j => ?_⟩
      simp only [State.ctx]
      rw [Vector.getElem_set]
      split
      · exact Context.norm_ranges x
      · exact h5 j
    · have e : s.upd (.ctx c x) = s := by simp [State.upd, hc]
      rw [e]
      exact ⟨h1, h2, h3, ⟨k1, k2, k3, k4, k5⟩, ⟨c1, c2, c3, c4, c5⟩, ⟨q1, q2, q3, q4⟩, h4, h5⟩
  case ring k x =>
    by_cases hk : k < 64
    · have e : s.upd (.ring k x) = { s with rings := s.rings.set k x hk } := by simp [State.upd, hk]
      rw [e]
      exact ⟨h1, h2, h3, ⟨k1, k2, k3, k4, k5⟩, ⟨c1, c2, c3, c4, c5⟩, ⟨q1, q2, q3, q4⟩, h4, h5⟩
    · have e : s.upd (.ring k x) = s := by simp [State.upd, hk]
      rw [e]
      exact ⟨h1, h2, h3, ⟨k1, k2, k3, k4, k5⟩, ⟨c1, c2, c3, c4, c5⟩, ⟨q1, q2, q3, q4⟩, h4, h5⟩
  all_goals exact ⟨h1, h2, h3, ⟨k1, k2, k3, k4, k5⟩, ⟨c1, c2, c3, c4, c5⟩, ⟨q1, q2, q3, q4⟩, h4, h5⟩

/-- What a computation reaches keeps the invariant. -/
theorem Reach.inv (r : Reach s t) (h : s.Inv) : t.Inv := by
  induction r with
  | refl => exact h
  | step _ u ih => exact State.upd_inv ih u

end Sys2Proof.Machine
end

