-- ==== Sys2Proof/Laws/Train.lean ====
section
/-! SUPPORT. The registers of a train: what each write leaves, one lemma per update. -/

namespace Sys2Proof

variable {α : Type}

theorem perLane_at (f : Nat → α) (L : Nat) : (perLane f).at L = f (L % 32) := by
  simp [PerLane.at, perLane]

theorem perLane_at_lt (f : Nat → α) {L : Nat} (h : L < 32) : (perLane f).at L = f L := by
  rw [perLane_at, Nat.mod_eq_of_lt h]

theorem PerLane.at_mod (v : PerLane α) (L : Nat) : v.at (L % 32) = v.at L := by
  simp [PerLane.at]

namespace Machine

variable (t : Train)

theorem Train.sreg_setS (i k : Nat) (x : Word) : (t.setS i x).sreg k = if k = i then x else t.sreg k := by
  simp [Train.sreg, Train.setS, AMap.getD_set]

theorem Train.vreg_setV (i k : Nat) (m : Mask) (f : Nat → Word) :
    (t.setV i m f).vreg k = if k = i then perLane fun L => if m.getLsbD L then f L else (t.vreg i).at L else t.vreg k := by
  simp [Train.vreg, Train.setV, AMap.getD_set]

@[simp] theorem Train.sreg_setV (i k : Nat) (m : Mask) (f : Nat → Word) : (t.setV i m f).sreg k = t.sreg k := rfl
@[simp] theorem Train.vreg_setS (i k : Nat) (x : Word) : (t.setS i x).vreg k = t.vreg k := rfl

/-- The vector registers after a destination is written: registers and active lanes of the destination take the value, all else stays. -/
theorem Train.vreg_setDst (d : Dst) (m : Mask) (L0 : Nat) (f : Nat → Nat → Word) (n k L : Nat) (hL : L < 32) :
    ((t.setDst d m L0 f n).vreg k).at L =
      if d.nowb = false ∧ d.scalar = false ∧ d.idx.toNat ≤ k ∧ k < d.idx.toNat + n ∧ m.getLsbD L
      then f L (k - d.idx.toNat) else (t.vreg k).at L := by
  induction n with
  | zero =>
    rw [Train.setDst, if_neg]
    omega
  | succ n ih =>
    rw [Train.setDst]
    by_cases hn : d.nowb
    · simp only [hn, if_true]
      rw [ih]
      simp [hn]
    by_cases hs : d.scalar
    · simp only [hn, hs, if_true, if_false, Bool.false_eq_true, Train.vreg_setS]
      rw [ih]
      simp [hs]
    simp only [Bool.not_eq_true] at hn hs
    simp only [hn, hs, if_false, Bool.false_eq_true, Train.vreg_setV, true_and] at ih ⊢
    by_cases hk : k = d.idx.toNat + n
    · subst hk
      rw [if_pos rfl, perLane_at_lt _ hL, ih]
      by_cases hm : m.getLsbD L
      · rw [if_pos hm, if_pos (by refine ⟨by omega, by omega, hm⟩)]
        congr 1
        omega
      · rw [if_neg hm, if_neg (by simp [hm]), if_neg (by simp [hm])]
    · rw [if_neg hk, ih]
      by_cases hc : d.idx.toNat ≤ k ∧ k < d.idx.toNat + n ∧ m.getLsbD L
      · rw [if_pos hc, if_pos ⟨hc.1, by omega, hc.2.2⟩]
      · rw [if_neg hc, if_neg]
        rintro ⟨h1, h2, h3⟩
        exact hc ⟨h1, by omega, h3⟩

/-- The scalar registers after a destination is written. -/
theorem Train.sreg_setDst (d : Dst) (m : Mask) (L0 : Nat) (f : Nat → Nat → Word) (n k : Nat) :
    (t.setDst d m L0 f n).sreg k =
      if d.nowb = false ∧ d.scalar = true ∧ d.idx.toNat ≤ k ∧ k < d.idx.toNat + n
      then f L0 (k - d.idx.toNat) else t.sreg k := by
  induction n with
  | zero =>
    rw [Train.setDst, if_neg]
    omega
  | succ n ih =>
    rw [Train.setDst]
    by_cases hn : d.nowb
    · simp only [hn, if_true]
      rw [ih]
      simp [hn]
    by_cases hs : d.scalar
    · simp only [Bool.not_eq_true] at hn
      simp only [hn, hs, if_true, if_false, Bool.false_eq_true, Train.sreg_setS, true_and] at ih ⊢
      by_cases hk : k = d.idx.toNat + n
      · subst hk
        rw [if_pos rfl, if_pos (by omega)]
        congr 1
        omega
      · rw [if_neg hk, ih]
        by_cases hc : d.idx.toNat ≤ k ∧ k < d.idx.toNat + n
        · rw [if_pos hc, if_pos ⟨hc.1, by omega⟩]
        · rw [if_neg hc, if_neg (by omega)]
    · simp only [hn, hs, if_false, Bool.false_eq_true, Train.sreg_setV]
      rw [ih]
      simp [hs]

/-- A destination write changes the register files and nothing else. -/
theorem Train.setDst_rest (d : Dst) (m : Mask) (L0 : Nat) (f : Nat → Nat → Word) (n : Nat) :
    t.setDst d m L0 f n = { t with s := (t.setDst d m L0 f n).s, v := (t.setDst d m L0 f n).v } := by
  induction n with
  | zero => rfl
  | succ n ih =>
    rw [Train.setDst]
    generalize t.setDst d m L0 f n = x at ih ⊢
    split
    · exact ih
    · split
      · rw [ih]; rfl
      · rw [ih]; rfl

theorem Train.freeV_rest (i n : Nat) : t.freeV i n = { t with v := (t.freeV i n).v } := by
  induction n generalizing t i with
  | zero => rfl
  | succ n ih => rw [Train.freeV, ih]

theorem Train.freeS_rest (i n : Nat) : t.freeS i n = { t with s := (t.freeS i n).s } := by
  induction n generalizing t i with
  | zero => rfl
  | succ n ih => rw [Train.freeS, ih]

theorem Train.freeOpd_rest (x : Option (Src × Nat)) :
    t.freeOpd x = { t with s := (t.freeOpd x).s, v := (t.freeOpd x).v } := by
  unfold Train.freeOpd
  split
  · rw [Train.freeV_rest]
  · rw [Train.freeS_rest]
  · rfl

/-- Last-use bits change the register files and nothing else. -/
theorem Train.frees_rest (c : Clause) (u : Use) :
    t.frees c u = { t with s := (t.frees c u).s, v := (t.frees c u).v } := by
  unfold Train.frees
  have h : ∀ (b : Bool) (x : Option (Src × Nat)) (t : Train),
      (if b then t.freeOpd x else t) =
        { t with s := (if b then t.freeOpd x else t).s, v := (if b then t.freeOpd x else t).v } := by
    intro b x t
    cases b
    · rfl
    · exact Train.freeOpd_rest t x
  simp only []
  rw [h c.lub, h c.lua]

end Machine

end Sys2Proof
end

