-- ==== Sys2Proof/Laws/Results.lean ====
section
/-! SUPPORT. The effect of the shapes of classes V and C in the terms of Safety.lean: register results, predicate results, transfers; and the numbers of the meanings against the spec's. -/

namespace Sys2Proof.Machine

variable {s : State} {i : Instr} {r : Iss}

/-! ## The checks before a meaning -/

/-- When an instruction passes its checks and waits, and what it then acts on (R46, R47, R52, R55, R78, R160). -/
theorem begin_ok_iff : begin_ s i = .ok r ↔
    issuing s = some (r.id, r.t, r.c) ∧ r.u = instrUse i ∧ instrWf i = true ∧
      operandsOk (s.budgetOf r.t) r.c (instrUse i) = true ∧
      (match r.t.park with
       | some p => (p.faulted && p.resume = 0) = false ∧ r.t.interlocked (instrUse i) p.op = false ∧
           r.act = (if p.faulted then p.resume else p.lanes) ∧ r.op = p.op ∧ r.rest = p.lanes &&& ~~~r.act ∧
           r.did = p.did ∧ r.conf = p.conf
       | none => r.t.interlocked (instrUse i) 0 = false ∧ r.t.sbFull (instrUse i).sb = false ∧
           r.act = r.t.em &&& r.t.guardMask (instrUse i).g ∧ r.op = 0 ∧ r.rest = 0 ∧ r.did = 0 ∧ r.conf = false) := by
  unfold begin_
  cases hi : issuing s with
  | none => simp
  | some x =>
    obtain ⟨id, t, c⟩ := x
    obtain ⟨id', t', c', u', act', op', rest', did', conf'⟩ := r
    by_cases hw : (instrWf i && operandsOk (s.budgetOf t) c (instrUse i)) = true
    · have hw' := hw
      rw [Bool.and_eq_true] at hw'
      cases hp : t.park with
      | none =>
        by_cases hg : (t.interlocked (instrUse i) 0 || t.sbFull (instrUse i).sb) = true
        · have hg' := hg
          rw [Bool.or_eq_true] at hg'
          simp only [hw, hp, hg, Bool.not_true, Bool.false_eq_true, if_false, if_true, reduceCtorEq, Option.some.injEq,
            Prod.mk.injEq, false_iff, not_and]
          rintro ⟨rfl, rfl, rfl⟩ _ _ _
          rw [hp]
          intro h1
          rcases hg' with hg' | hg' <;> simp_all
        · have hg' := hg
          rw [Bool.or_eq_true, not_or] at hg'
          simp only [hw, hp, hg, Bool.not_true, Bool.false_eq_true, if_false, Except.ok.injEq, Iss.mk.injEq,
            Option.some.injEq, Prod.mk.injEq]
          constructor
          · rintro ⟨rfl, rfl, rfl, rfl, rfl, rfl, rfl, rfl, rfl⟩
            simp_all
          · rintro ⟨⟨rfl, rfl, rfl⟩, rfl, _, _, h⟩
            rw [hp] at h
            simp_all
      | some p =>
        by_cases hg : ((p.faulted && p.resume = 0) || t.interlocked (instrUse i) p.op) = true
        · have hg' := hg
          rw [Bool.or_eq_true] at hg'
          simp only [hw, hp, hg, Bool.not_true, Bool.false_eq_true, if_false, if_true, reduceCtorEq, Option.some.injEq,
            Prod.mk.injEq, false_iff, not_and]
          rintro ⟨rfl, rfl, rfl⟩ _ _ _
          rw [hp]
          intro h1
          rcases hg' with hg' | hg' <;> simp_all
        · have hg' := hg
          rw [Bool.or_eq_true, not_or] at hg'
          simp only [hw, hp, hg, Bool.not_true, Bool.false_eq_true, if_false, Except.ok.injEq, Iss.mk.injEq,
            Option.some.injEq, Prod.mk.injEq]
          constructor
          · rintro ⟨rfl, rfl, rfl, rfl, rfl, rfl, rfl, rfl, rfl⟩
            simp_all
          · rintro ⟨⟨rfl, rfl, rfl⟩, rfl, _, _, h⟩
            rw [hp] at h
            simp_all
    · have hw' := hw
      rw [Bool.and_eq_true] at hw'
      simp only [hw, Bool.not_false, if_true, reduceCtorEq, Option.some.injEq, Prod.mk.injEq, false_iff, not_and]
      rintro ⟨rfl, rfl, rfl⟩ _ h1 h2
      exact absurd ⟨h1, h2⟩ hw'

/-- An instruction that passes its checks is well formed. -/
theorem begin_wf (h : begin_ s i = .ok r) : instrWf i = true := (begin_ok_iff.1 h).2.2.1

/-- The train of an instruction that passes its checks. -/
theorem issuing_train (h : issuing s = some (r.id, r.t, r.c)) :
    s.cur = some r.id ∧ AMap.get? s.trains r.id = some r.t ∧ r.t.clause = some r.c := by
  unfold issuing at h
  split at h
  · cases h
  · rename_i id' hc
    split at h
    · cases h
    · rename_i t' ht
      split at h
      · cases h
      · rename_i c' hcl
        simp only [Option.some.injEq, Prod.mk.injEq] at h
        obtain ⟨rfl, rfl, rfl⟩ := h
        exact ⟨hc, ht, hcl⟩

/-! ## Going on -/

theorem advance_goesOn (x : Train) (l : Option Latch) (P : Option Latch → Prop) (hl : P l)
    (hr : x.retired = r.t.retired) (hy : x.yielded = r.t.yielded) (ht : x.trap = r.t.trap) :
    GoesOn r P (x.advance r.c l) := by
  unfold GoesOn Train.advance
  split
  · exact ⟨rfl, rfl, ⟨l, hl, rfl⟩, rfl, hr, hy, ht⟩
  · refine ⟨rfl, rfl, rfl, rfl, ?_, rfl, ?_⟩
    · show x.retired + 1 = _
      rw [hr]
    · show (match r.c.zw with | some z => { z with tm := x.trap.tm } | none => x.trap) = r.trapNext
      rw [ht]
      rfl

/-- Going on changes the place in the program, and at the clause's end the trap registers. -/
theorem advance_rest (x : Train) (c : Clause) (l : Option Latch) :
    x.advance c l = { x with
      clause := (x.advance c l).clause, pc := (x.advance c l).pc, retired := (x.advance c l).retired,
      readyAge := (x.advance c l).readyAge, yielded := (x.advance c l).yielded, stall := (x.advance c l).stall,
      trap := (x.advance c l).trap } := by
  unfold Train.advance Train.endClause
  split <;> rfl

@[simp] theorem advance_s (x : Train) (c : Clause) (l : Option Latch) : (x.advance c l).s = x.s := by
  rw [advance_rest]
@[simp] theorem advance_v (x : Train) (c : Clause) (l : Option Latch) : (x.advance c l).v = x.v := by
  rw [advance_rest]
@[simp] theorem advance_p (x : Train) (c : Clause) (l : Option Latch) : (x.advance c l).p = x.p := by
  rw [advance_rest]
@[simp] theorem advance_sreg (x : Train) (c : Clause) (l : Option Latch) (k : Nat) : (x.advance c l).sreg k = x.sreg k := by
  unfold Train.sreg; rw [advance_s]
@[simp] theorem advance_vreg (x : Train) (c : Clause) (l : Option Latch) (k : Nat) : (x.advance c l).vreg k = x.vreg k := by
  unfold Train.vreg; rw [advance_v]
@[simp] theorem advance_pred (x : Train) (c : Clause) (l : Option Latch) (k : Nat) : (x.advance c l).pred k = x.pred k := by
  unfold Train.pred; simp only [advance_p]

/-- The trap registers of a train that goes on. -/
theorem advance_trap (x : Train) (l : Option Latch) (ht : x.trap = r.t.trap) :
    (x.advance r.c l).trap = r.t.trap ∨ (x.advance r.c l).trap = r.trapNext := by
  have h := advance_goesOn (r := { r with t := x }) x l (fun _ => True) trivial rfl rfl rfl
  have e : ({ r with t := x } : Iss).trapNext = r.trapNext := by
    unfold Iss.trapNext
    simp only [ht]
  unfold GoesOn at h
  split at h
  · exact .inl (h.2.2.2.2.2.2.trans ht)
  · exact .inr (h.2.2.2.2.2.2.trans e)

/-- A train that differs from the freed one in its registers goes on as one that differs from the issuing one in them. -/
theorem advance_only (x : Train) (l : Option Latch) (hx : x = { r.freed with s := x.s, v := x.v, p := x.p }) :
    OnlyRegs r (x.advance r.c l) := by
  refine ⟨advance_trap x l ?_, ?_⟩
  · rw [hx]
    unfold Iss.freed
    rw [Train.frees_rest]
  · rw [advance_rest x, hx]
    unfold Iss.freed
    rw [Train.frees_rest]

/-! ## Register results -/

theorem mask_ne_zero {m : Mask} : m ≠ 0 ↔ ∃ L, L < 32 ∧ m.getLsbD L = true := by
  constructor
  · intro h
    by_contra hn
    apply h
    apply BitVec.eq_of_getLsbD_eq
    intro L hL
    have : m.getLsbD L = false := by
      by_contra hc
      exact hn ⟨L, hL, by simpa using hc⟩
    simp [this]
  · rintro ⟨L, _, h⟩ rfl
    simp at h

theorem mask_bit_pos {m : Mask} {L : Nat} (h : m.getLsbD L = true) : (m != 0) = true := by
  simp only [bne_iff_ne]
  rintro rfl
  simp at h

/-- The latch a result leaves. -/
theorem latchOf_is (u : Bool) (n : Nat) (m : Mask) (f : Nat → DWord) :
    LatchIs u n (fun L => if m.getLsbD L then f L else 0) (some (latchOf u n m f)) := by
  refine ⟨_, rfl, rfl, rfl, fun L hL => ?_⟩
  simp [latchOf, perLane_at_lt _ hL]

/-- The train after a register result. -/
theorem done_wrote (r : Iss) (d : Dst) (n : Nat) (f : Nat → DWord) :
    Wrote r d n (r.act != 0) f (f r.L0) (r.done d n f) := by
  unfold Iss.done
  by_cases hs : d.scalar
  · simp only [hs, if_true]
    by_cases ha : (r.act != 0) = true
    · simp only [ha, if_true]
      constructor
      · intro k L hL
        rw [advance_vreg, Train.vreg_setDst _ _ _ _ _ _ _ _ hL]
        simp [hs, Iss.freed]
      · intro k
        rw [advance_sreg, Train.sreg_setDst]
        simp [hs, Iss.freed, dwPart]
    · simp only [ha, Bool.false_eq_true, if_false]
      constructor
      · intro k L hL
        rw [advance_vreg]
        simp [hs, Iss.freed]
      · intro k
        rw [advance_sreg]
        simp [Iss.freed]
  · simp only [hs, if_false, Bool.false_eq_true]
    constructor
    · intro k L hL
      rw [advance_vreg, Train.vreg_setDst _ _ _ _ _ _ _ _ hL]
      simp [hs, Iss.freed, dwPart]
    · intro k
      rw [advance_sreg, Train.sreg_setDst]
      simp [hs, Iss.freed]

theorem setDst_only (d : Dst) (m : Mask) (L0 : Nat) (f : Nat → Nat → Word) (n : Nat) :
    r.freed.setDst d m L0 f n =
      { r.freed with s := (r.freed.setDst d m L0 f n).s, v := (r.freed.setDst d m L0 f n).v, p := (r.freed.setDst d m L0 f n).p } := by
  have h := Train.setDst_rest r.freed d m L0 f n
  rw [h]

theorem freed_retired : r.freed.retired = r.t.retired ∧ r.freed.yielded = r.t.yielded ∧ r.freed.trap = r.t.trap ∧
    r.freed.p = r.t.p := by
  unfold Iss.freed
  rw [Train.frees_rest]
  exact ⟨rfl, rfl, rfl, rfl⟩

theorem setDst_retired (d : Dst) (m : Mask) (L0 : Nat) (f : Nat → Nat → Word) (n : Nat) :
    (r.freed.setDst d m L0 f n).retired = r.t.retired ∧ (r.freed.setDst d m L0 f n).yielded = r.t.yielded ∧
      (r.freed.setDst d m L0 f n).trap = r.t.trap ∧ (r.freed.setDst d m L0 f n).p = r.t.p := by
  rw [Train.setDst_rest]
  exact freed_retired

theorem latch_unif (n : Nat) (go : Bool) (x : DWord) :
    LatchIs true n (fun _ => if go then x else 0) (some (latchOf true n (if go then 0xFFFFFFFF else 0) fun _ => x)) := by
  refine ⟨_, rfl, rfl, rfl, fun L hL => ?_⟩
  have : (0xFFFFFFFF#32).getLsbD L = true := by
    have h : ∀ k : Fin 32, (0xFFFFFFFF#32).getLsbD k = true := by decide
    exact h ⟨L, hL⟩
  cases go <;> simp [latchOf, perLane_at_lt _ hL, this]

theorem done_goesOn (r : Iss) (d : Dst) (n : Nat) (f : Nat → DWord) :
    GoesOn r (LatchIs d.scalar n fun L =>
      if d.scalar then if r.act = 0 then 0 else f r.L0 else if r.act.getLsbD L then f L else 0) (r.done d n f) ∧
    (r.done d n f).p = r.t.p ∧ OnlyRegs r (r.done d n f) := by
  unfold Iss.done
  have e := freed_retired (r := r)
  by_cases hs : d.scalar
  · simp only [hs, if_true]
    have hl := latch_unif n (r.act != 0) (f r.L0)
    have hl' : LatchIs true n (fun _ => if r.act = 0 then 0 else f r.L0)
        (some (latchOf true n (if (r.act != 0) = true then 0xFFFFFFFF else 0) fun _ => f r.L0)) := by
      have : (fun _ : Nat => if (r.act != 0) = true then f r.L0 else 0) = fun _ => if r.act = 0 then 0 else f r.L0 := by
        funext _
        by_cases h : r.act = 0 <;> simp [h]
      rw [← this]
      exact hl
    by_cases ha : (r.act != 0) = true
    · simp only [ha, if_true] at hl' ⊢
      have e' := setDst_retired (r := r) d r.act 0 (fun _ k => dwPart (f r.L0) k) n
      exact ⟨advance_goesOn _ _ _ hl' e'.1 e'.2.1 e'.2.2.1, by rw [advance_p]; exact e'.2.2.2,
        advance_only _ _ (setDst_only ..)⟩
    · simp only [ha, Bool.false_eq_true, if_false] at hl' ⊢
      exact ⟨advance_goesOn _ _ _ hl' e.1 e.2.1 e.2.2.1, by rw [advance_p]; exact e.2.2.2, advance_only _ _ rfl⟩
  · simp only [hs, if_false, Bool.false_eq_true]
    have e' := setDst_retired (r := r) d r.act 0 (fun L k => dwPart (f L) k) n
    exact ⟨advance_goesOn _ _ _ (latchOf_is ..) e'.1 e'.2.1 e'.2.2.1, by rw [advance_p]; exact e'.2.2.2,
        advance_only _ _ (setDst_only ..)⟩

/-- A class V instruction that passes its checks completes with its register result. -/
theorem local_result {j : Instr} {d : Dst} {n : Nat} {f : Nat → DWord} {F : Iss → Except Stop Train}
    (he : exec j s = local_ s i F) (h : begin_ s i = .ok r) (hF : F r = .ok (r.done d n f)) :
    RegResult s j r d n f :=
  ⟨_, he.trans (local_ok h hF), done_wrote r d n f, (done_goesOn r d n f).1, (done_goesOn r d n f).2.1,
    (done_goesOn r d n f).2.2⟩

theorem alu_result {j : Instr} {d : Dst} {n : Nat} {f : Nat → DWord} {F : Iss → Nat → DWord}
    (he : exec j s = alu s i d n F) (h : begin_ s i = .ok r) (hF : ∀ L, F r L = f L) : RegResult s j r d n f :=
  local_result he h (by rw [show f = F r from funext fun L => (hF L).symm])

/-- A reducing instruction that passes its checks completes with its scalar result. -/
theorem reduced_result {j : Instr} {d : Dst} {n : Nat} {u : DWord} {F : Iss → Except Stop Train}
    (he : exec j s = local_ s i F) (h : begin_ s i = .ok r) (hF : F r = .ok (r.reduced d n u)) : RedResult s j r d n u := by
  refine ⟨_, he.trans (local_ok h hF), ?_, ?_⟩
  · unfold Iss.reduced
    simp only [Guard.always]
    by_cases hg : (r.u.g == 7#4 || r.act != 0) = true
    · simp only [hg, if_true]
      constructor
      · intro k L hL
        rw [advance_vreg, Train.vreg_setDst _ _ _ _ _ _ _ _ hL]
        simp [Iss.freed, dwPart]
      · intro k
        rw [advance_sreg, Train.sreg_setDst]
        simp [Iss.freed, dwPart]
    · simp only [hg, Bool.false_eq_true, if_false]
      have ha : r.act = 0 := by
        simp only [Bool.or_eq_true, bne_iff_ne, ne_eq, not_or, not_not] at hg
        exact hg.2
      constructor
      · intro k L hL
        rw [advance_vreg]
        simp [Iss.freed, ha]
      · intro k
        rw [advance_sreg]
        simp [Iss.freed]
  · unfold Iss.reduced
    simp only [Guard.always]
    have hl := latch_unif n (r.u.g == 7#4 || r.act != 0) u
    have e := freed_retired (r := r)
    by_cases hg : (r.u.g == 7#4 || r.act != 0) = true
    · simp only [hg, if_true] at hl ⊢
      have e' := setDst_retired (r := r) d r.act 0 (fun _ k => dwPart u k) n
      exact ⟨advance_goesOn _ _ _ hl e'.1 e'.2.1 e'.2.2.1, by rw [advance_p]; exact e'.2.2.2,
        advance_only _ _ (setDst_only ..)⟩
    · simp only [hg, Bool.false_eq_true, if_false] at hl ⊢
      exact ⟨advance_goesOn _ _ _ hl e.1 e.2.1 e.2.2.1, by rw [advance_p]; exact e.2.2.2, advance_only _ _ rfl⟩

/-! ## Predicate results -/

theorem pred_setP (t : Train) (k : Nat) (m x : Mask) (hk : k < 8) (j : Nat) (hj : j < 8) :
    (t.setP k m x).pred j = if j = k ∧ j ≠ 7 then (t.pred k &&& ~~~m) ||| (x &&& m) else t.pred j := by
  unfold Train.setP
  by_cases h7 : k = 7
  · simp only [h7, if_true]
    by_cases hjk : j = 7
    · simp [hjk]
    · simp [hjk]
  · simp only [h7, if_false]
    unfold Train.pred
    by_cases hj7 : j = 7
    · simp [hj7]
    · simp only [hj7, if_false, ne_eq, not_false_eq_true, and_true, h7]
      by_cases hjk : j = k
      · subst hjk
        simp
      · rw [if_neg hjk]
        simp only [Nat.mod_eq_of_lt hk, Nat.mod_eq_of_lt hj]
        rw [Vector.getElem_set_ne]
        omega

theorem freed_pred (k : Nat) : r.freed.pred k = r.t.pred k := by
  unfold Train.pred
  simp only [freed_retired.2.2.2]

theorem setP_rest (t : Train) (k : Nat) (m x : Mask) : t.setP k m x = { t with p := (t.setP k m x).p } := by
  unfold Train.setP
  split <;> rfl

theorem pred_result {j : Instr} {d : PDst} {m : Mask} {F : Iss → Except Stop Train}
    (he : exec j s = local_ s i F) (h : begin_ s i = .ok r) (hF : F r = .ok (r.donePred d m)) : PredResult s j r d m := by
  refine ⟨_, he.trans (local_ok h hF), ?_⟩
  have e := freed_retired (r := r)
  show (∀ k, k < 8 → (Train.advance (if d.nowb then r.freed else r.freed.setP d.p.toNat r.act m) r.c none).pred k = _) ∧
    (Train.advance (if d.nowb then r.freed else r.freed.setP d.p.toNat r.act m) r.c none).s = _ ∧
    (Train.advance (if d.nowb then r.freed else r.freed.setP d.p.toNat r.act m) r.c none).v = _ ∧
    GoesOn r _ (Train.advance (if d.nowb then r.freed else r.freed.setP d.p.toNat r.act m) r.c none) ∧ OnlyRegs r (Train.advance (if d.nowb then r.freed else r.freed.setP d.p.toNat r.act m) r.c none)
  by_cases hn : d.nowb
  · simp only [hn, if_true, advance_s, advance_v, advance_pred]
    exact ⟨fun k _ => by simp [freed_pred], trivial, trivial, advance_goesOn _ _ _ rfl e.1 e.2.1 e.2.2.1, advance_only _ _ rfl⟩
  · simp only [hn, if_false, Bool.false_eq_true, advance_s, advance_v, advance_pred]
    refine ⟨fun k hk => ?_, ?_, ?_, ?_, ?_⟩
    · rw [pred_setP _ _ _ _ d.p.isLt _ hk, freed_pred, freed_pred]
      by_cases hkd : k = d.p.toNat
      · subst hkd; simp
      · simp [hkd]
    · rw [setP_rest]
    · rw [setP_rest]
    · rw [setP_rest]
      exact advance_goesOn _ _ _ rfl e.1 e.2.1 e.2.2.1
    · refine advance_only _ _ ?_
      rw [setP_rest]

/-! ## The numbers -/

theorem intOf_eq (ty : IntTy) (x : DWord) : intOf ty x = numOf ty x := by
  have h := x.isLt
  cases ty <;>
    simp only [intOf, numOf, IntTy.w, IntTy.signed, BitVec.toInt_eq_toNat_cond, BitVec.toNat_setWidth, Bool.true_and,
      Bool.false_and, Bool.false_eq_true, if_false] <;>
    norm_num <;> (try (split <;> split <;> omega)) <;> omega

theorem lo_eq (ty : IntTy) : IntTy.lo ty = typeLo ty := by cases ty <;> rfl
theorem hi_eq (ty : IntTy) : IntTy.hi ty = typeHi ty := by cases ty <;> rfl

end Sys2Proof.Machine
end

