-- ==== Sys2Proof/Laws/Mem.lean ====
section
/-! SUPPORT. What the shared beginnings and ends of an instruction do: they begin, update their train and go on or jump. -/

namespace Sys2Proof.Machine

variable {s : State} {r : Iss}

theorem holds_iff : r.cond = true ↔ Holds r := by
  simp [Iss.cond, Holds, Guard.always]

/-- An instruction that only finishes writes no register and goes on. -/
theorem doneWith_id_keeps : KeepsRegs r (r.doneWith id) ∧ GoesOn r (· = none) (r.doneWith id) := by
  have e := freed_retired (r := r)
  refine ⟨⟨?_, ?_, ?_, ?_⟩, ?_⟩
  · simp [Iss.doneWith, Iss.freed]
  · simp [Iss.doneWith, Iss.freed]
  · simp only [Iss.doneWith, advance_p, id]; exact e.2.2.2
  · exact advance_only _ _ rfl
  · exact advance_goesOn _ _ _ rfl e.1 e.2.1 e.2.2.1

/-- A taken jump writes no register and ends the clause at its target. -/
theorem jump_keeps (pc : DWord) (y : Bool) : KeepsRegs r (r.jump pc y id) ∧ EndsAt r pc y (r.jump pc y id) := by
  have e := freed_retired (r := r)
  have ht : (r.jump pc y id).trap = r.trapNext := by
    unfold Iss.jump Train.endClause Iss.trapNext
    have h : (id (r.t.frees r.c r.u)).trap = r.t.trap := e.2.2.1
    cases r.c.zw with
    | none => exact h
    | some z => exact congrArg (fun x : TrapRegs => ({ z with tm := x.tm } : TrapRegs)) h
  refine ⟨⟨rfl, rfl, e.2.2.2, .inr ht, ?_⟩, rfl, rfl, ?_, rfl, rfl, rfl, ?_⟩
  · unfold Iss.jump Train.endClause
    simp only [id]
    rw [Train.frees_rest]
  · show r.freed.retired + 1 = _
    rw [e.1]
  · rw [ht]

theorem beginM_run {i : Instr} (h : begin_ s i = .ok r) : (beginM i : M s Iss) ⟨s, .refl⟩ = .ok (r, ⟨s, .refl⟩) := by
  unfold beginM
  simp [h]

/-- The wait of a memory access says what the statements say. -/
theorem accessMay_iff : accessMay s r.t r.id = true ↔ AcqDone s r := by
  unfold accessMay acqPending syncPending AcqDone Core.writesOf
  simp only [Bool.and_eq_true, Bool.not_eq_true', Bool.or_eq_false_iff, List.any_eq_false, List.mem_filter, beq_iff_eq,
    Bool.not_eq_true, and_imp]
  constructor
  · rintro ⟨⟨⟨h1, h2⟩, h3⟩, h4⟩
    exact ⟨h1, h2, h3, fun i hi ht => by simpa [ht] using h4 i hi⟩
  · rintro ⟨h1, h2, h3, h4⟩
    exact ⟨⟨⟨h1, h2⟩, h3⟩, fun i hi hb => by simp [h4 i hi hb.2] at hb⟩

theorem beginMem_run {i : Instr} (h : begin_ s i = .ok r) (ha : AcqDone s r) :
    (beginMem i : M s Iss) ⟨s, .refl⟩ = .ok (r, ⟨s, .refl⟩) := by
  unfold beginMem
  simp [beginM_run h, accessMay_iff.2 ha]

theorem modTrain_run {id : Nat} {f : Train → Train} {x : Run s} {t : Train} (h : AMap.get? x.1.trains id = some t) :
    (modTrain id f : M s Unit) x = .ok ((), ⟨x.1.upd (.train id (some (f t))), x.2.step _⟩) := by
  unfold modTrain
  simp [h]

end Sys2Proof.Machine
end

