-- ==== Sys2Proof/Tests/Decoding.lean ====
section
/-! SUPPORT. The worked encodings of spec/: each word written out there decodes to the instruction it stands for, and encodes back. -/

namespace Sys2Proof.Tests

def dec (c : Cls) (w : DWord) : Option Instr :=
  match decodeWord c true w with
  | .ok i => some i
  | .error _ => none

def both (c : Cls) (w : DWord) (i : Instr) : Bool :=
  dec c w == some i && encode i == some (c, w)

def sv (n : Nat) : Src := .v (BitVec.ofNat 8 n)
def ss (n : Nat) : Src := .s (BitVec.ofNat 6 n)
def sc (n : Nat) : Src := .c (BitVec.ofNat 8 n)
def dv (n : Nat) : Dst := ⟨false, false, BitVec.ofNat 8 n⟩
def ds (n : Nat) : Dst := ⟨false, true, BitVec.ofNat 8 n⟩
def dp (n : Nat) : PDst := ⟨false, BitVec.ofNat 3 n⟩
def al : Guard := Guard.always

/-- Chapter 03, Format V. -/
theorem test_dec_fadd : both .V 0x0A00C00D05002800 (.fadd 10 false .rne (dv 12) (sv 3) (ss 5)) = true := by
  decide
/-- Chapter 03, Format VK. -/
theorem test_dec_iaddK : both .V 0x81007008000003E8 (.iaddK 0 (dv 7) (sv 2) 1000) = true := by decide
/-- Chapter 03, Format M. -/
theorem test_dec_ld :
    both .M 0x0000841002041CEA (.ld al (some 1) .w32 true .dflt ⟨ss 4, sv 2, true, 4⟩ (dv 8)) = true := by
  decide
/-- Chapter 03, Format B. -/
theorem test_dec_brnz : both .C 0x00905300FFFFFFFA (.brnz 3 (ss 5) 0xFFFFFFFA) = true := by decide
/-- Chapter 03, header of the store clause. -/
theorem test_dec_header :
    decodeHeader 0x1100400040004000 =
      some ⟨.M, 1, 0, false, true, 1, 1⟩ := by decide
/-- Chapter 02, header of the latch clause. -/
theorem test_dec_header_wait :
    decodeHeader 0x0205800000014000 = some ⟨.V, 2, 5, true, false, 0, 5⟩ := by decide
/-- Chapter 04, loop. -/
theorem test_dec_loop : both .C 0x02103700FFFFFFF6 (.loop al 3 0xFFFFFFF6) = true := by decide
/-- Chapter 04, trap. -/
theorem test_dec_trap : both .C 0x0300070000000005 (.trap al 5) = true := by decide
/-- Chapter 05, icmp. -/
theorem test_dec_icmp : both .V 0x0800100B0A001C11 (.icmp al .lt .n32 (dp 1) (sv 2) (sc 10)) = true := by
  decide
/-- Chapter 05, ffma. -/
theorem test_dec_ffma :
    both .V 0x0AC0600903011C01 (.ffma al false .rtz (dv 6) (sv 2) (ss 3) (sv 4)) = true := by decide
/-- Chapter 05, and in K form. -/
theorem test_dec_andK : both .V 0x840030040000FF00 (.andK 0 (dv 3) (sv 1) 0xFF00) = true := by decide
/-- Chapter 06, atom. -/
theorem test_dec_atom :
    both .M 0x0400941803021D5A (.atom al (some 2) .add .w32 .acqrel ⟨ss 6, 2⟩ (sv 3) (dv 9)) = true := by
  decide
/-- Chapter 06, barw. -/
theorem test_dec_barw : both .M 0x0800040BFF001C03 (.barw al none ⟨ss 2, 0⟩) = true := by decide
/-- Chapter 08, tlbi and tlbsync. -/
theorem test_dec_tlbi : both .Z 0x0080041106001CC0 (.tlbi (some 1) (some (ss 4, ss 6))) = true := by decide
theorem test_dec_tlbsync : both .Z 0x00C0000000001C00 (.tlbsync none) = true := by decide
/-- Chapter 11, eget and ecrt. -/
theorem test_dec_eget :
    both .E 0x0140845300C01C01 (.eget al none .b32 false 1 (dv 8) (ss 20) (sc 0) (sc 0)) = true := by decide
theorem test_dec_ecrt : both .E 0x01C0400000001C21 (.ecrt al none false 1 (dv 4) none) = true := by decide
/-- Chapter 13, class T. -/
theorem test_dec_txbeg : both .T 0x0000000000001C01 (.txbeg none true) = true := by decide
theorem test_dec_txend : both .T 0x0040200000001DC0 (.txend (some 3) (dp 2)) = true := by decide
theorem test_dec_txst : both .T 0x00D0500000001C01 (.txst none true (ds 5)) = true := by decide
theorem test_dec_txcause : both .T 0x0100600000001C00 (.txcause al none (dv 6)) = true := by decide
/-- Chapter 14, class S. -/
theorem test_dec_cpy :
    both .S 0x0010A40904419C41 (.cpy (some 0) (some (ss 10)) (ss 2) (ss 4) (ss 6)) = true := by decide
theorem test_dec_tbarr : both .S 0x0150B42B00001C00 (.tbarr none (ds 11) (ss 10) (sc 0)) = true := by decide
/-- Chapter 16, class X. -/
theorem test_dec_tmma : both .X 0x0100200001001CC0 (.tmma (some 1) 2 0 1) = true := by decide
theorem test_dec_tvxm : both .X 0x01C0200004001C49 (.tvxm al (some 0) 1 1 2 0 (sv 4)) = true := by decide
theorem test_dec_tdrain :
    both .X 0x0200000908429D43 (.tdrain (some 2) ⟨true, ss 8⟩ true false 2 (ss 10)) = true := by decide
/-- Chapter 18, class Y. -/
theorem test_dec_rycl : both .Y 0x0000002103001D41 (.rycl al (some 2) 1 (sv 8) (ss 3)) = true := by decide
theorem test_dec_ryacc : both .Y 0x00C0000800001C00 (.ryacc al none 2) = true := by decide
theorem test_dec_ryres : both .Y 0x0101000000001C00 (.ryres al none .t (dv 16)) = true := by decide
theorem test_dec_rywait : both .Y 0x0140100000001C00 (.rywait none (dp 1)) = true := by decide
theorem test_dec_rygeo : both .Y 0x01C0041000001C00 (.rygeo none 0 (ss 4)) = true := by decide
/-- Chapter 20, class G. -/
theorem test_dec_gkick : both .G 0x00503C1509001C00 (.gkick none (ds 3) (sc 5) (ss 9)) = true := by decide
theorem test_dec_gsig : both .G 0x0080041106001C01 (.gsig none true (ss 4) (ss 6)) = true := by decide
theorem test_dec_gwait : both .G 0x00C0041106001CC0 (.gwait (some 1) (ss 4) (ss 6)) = true := by decide
/-- Chapter 22, class Z. -/
theorem test_dec_zrd : both .Z 0x00103C0400001C00 (.zrd none (ds 3) (sc 1)) = true := by decide
theorem test_dec_zwr : both .Z 0x00400C0906001C00 (.zwr none (sc 2) (ss 6)) = true := by decide
theorem test_dec_wsld : both .Z 0x01C0041106415C40 (.wsld (some 0) (ss 4) (ss 6) (ss 5)) = true := by decide

/-- Table 3-13: the header cases. -/
theorem test_dec_header_class : decodeHeader 0xB000000000000000 = none := by decide
theorem test_dec_header_tailc : decodeHeader 0x2000400000000000 = none := by decide
theorem test_dec_header_lua : decodeHeader 0x0200000800000000 = none := by decide
/-- Table 3-13: fmul with SBE is E_ILL_OP; an unlisted constant, s70 and an odd base are E_ILL_OPERAND. -/
theorem test_dec_fmul_sbe :
    decodeWord .V true (vw 0x2A 1 2 3 0 7 (some 0) 0) = .error .illOp := by decide
theorem test_dec_const : decodeWord .V true (vw 0x04 1 0x373 3 0 7 none 0) = .error .illOperand := by decide
theorem test_dec_s70 : decodeWord .V true (vw 0x04 1 0x146 3 0 7 none 0) = .error .illOperand := by decide
theorem test_dec_scalar_of_vector :
    decodeWord .V true (vw 0x04 0x103 1 0x102 0 7 none 0) = .error .illOperand := by decide
theorem test_dec_odd_base :
    decodeWord .M true (mw 0 1 0x105 0x3FF 0 0 7 none 2) = .error .illOperand := by decide

end Sys2Proof.Tests
end

