-- ==== Sys2Proof/Tests/Rig.lean ====
section
/-! SUPPORT. Small states for the tests: one train of one wheel of one dispatch on core 0, at the only word of its clause, one page translated. -/

namespace Sys2Proof.Tests
open Sys2Proof.Machine

/-- The train at one word of class `c`. -/
def rigTrain (c : Cls) (w : DWord) : Train :=
  { Train.start 1 0 0x10000 0xFFFFFFFF with
    pc := 0x10008
    clause := some { hdr := 0x10000, word := plainHeader c 0, words := [w], idx := 0, latches := [], resumed := false } }

/-- The package in full service with that train issuing. -/
def rigWith (i : Instr) (f : Train → Train) : State :=
  match encode i with
  | some (c, w) => { State.reset with
      mg := { Mg.reset with svc := 4 }
      nextId := 8
      cur := some 1
      dispatches := [(1, placeDispatch (c == .Z))]
      wheels := [(1, placeWheel)]
      trains := [(1, (f (rigTrain c w)).norm)]
      cores := [(0, { Core.reset with tlb := [placeTlb 0], ports := ⟨#[some 1, none], rfl⟩ })] }
  | none => State.reset

def rig (i : Instr) : State := rigWith i id

/-- Only lane 0 is on. -/
def lane0 (t : Train) : Train := { t with em := 1 }

/-- Scalar registers. -/
def sregs (l : List (Nat × Word)) (t : Train) : Train := { t with s := l }

def begins (s : State) (i : Instr) : Bool :=
  match begin_ s i with
  | .ok _ => true
  | .error _ => false

/-- What the checks answer at a state where they pass. -/
def issOf (s : State) (i : Instr) : Iss :=
  match begin_ s i with
  | .ok r => r
  | .error _ =>
    { id := 0, t := Train.start 0 0 0 0, c := { hdr := 0, word := 0, words := [], idx := 0, latches := [], resumed := false },
      u := instrUse i, act := 0, op := 0 }

theorem begin_issOf {s : State} {i : Instr} (h : begins s i = true) : begin_ s i = .ok (issOf s i) := by
  unfold begins at h
  unfold issOf
  split at h <;> simp_all

/-- A property of the one lane of a mask. -/
theorem only_lane0 {P : Nat → Prop} (h : P 0) : ∀ L, (1#32).getLsbD L = true → P L := by
  intro L hL
  match L with
  | 0 => exact h
  | L + 1 =>
    have : (1#32).getLsbD (L + 1) = false := by simp
    simp_all

/-- A property of the lanes of a mask, lane by lane. -/
theorem lanes32 {m : Mask} {P : Nat → Prop} (h : ∀ L, L < 32 → m.getLsbD L = true → P L) : ∀ L, m.getLsbD L = true → P L :=
  fun L hL => h L (by
    by_contra hc
    exact absurd (BitVec.getLsbD_of_ge m L (by omega)) (by simp [hL])) hL

/-- Every train of a map of normal trains is as it must be. -/
theorem trains_ok {m : AMap Train} (h : ∀ kv ∈ m, kv.2.Ok) : ∀ j x, AMap.get? m j = some x → x.Ok := by
  induction m with
  | nil => intro j x e; cases e
  | cons a m ih =>
    obtain ⟨k, y⟩ := a
    intro j x e
    unfold AMap.get? at e
    split at e
    · cases e
      exact h (k, y) (by simp)
    · exact ih (fun kv hkv => h kv (by simp [hkv])) j x e

theorem train_ok {m : AMap Train} {k : Nat} {x : Train} (h : m = [(k, x.norm)]) : ∀ j y, AMap.get? m j = some y → y.Ok :=
  trains_ok (by
    subst h
    intro kv hkv
    simp only [List.mem_singleton] at hkv
    subst hkv
    exact x.norm_ok)

end Sys2Proof.Tests
end

