-- ==== Sys2Proof/Tests/WitnessM.lean ====
section
/-! SUPPORT. Witnesses for the statements about class M: states and operands that meet the hypotheses together. -/

namespace Sys2Proof.Tests
open Sys2Proof.Machine

/-- The address s[4:5] with no index. -/
def atS4 : Mem := ⟨ss 4, sc 0, false, 0⟩
def atS4b : MemB := ⟨ss 4, 0⟩

/-- Lane 0 alone, s[4:5] holding an address. -/
def at_ (a : Word) (t : Train) : Train := lane0 (sregs [(4, a)] t)

theorem rig_ok (i : Instr) (f : Train → Train) (h : (issOf (rigWith i f) i).t.em = 1) (l : (issOf (rigWith i f) i).t.live = 0xFFFFFFFF)
    (p : (issOf (rigWith i f) i).t.p[7] = 0xFFFFFFFF) (c : (issOf (rigWith i f) i).t.pc = 0x10008)
    (x : (issOf (rigWith i f) i).t.tx.on = false) : (issOf (rigWith i f) i).t.Ok := by
  refine ⟨by rw [h, l]; decide, p, by rw [c]; decide, fun o => ?_⟩
  simp [Train.inTx, x] at o

theorem notWaited_of {s : State} {r : Iss} (h : waitedWords s r.t.wheel = []) (b : Nat) : NotWaited s r b := by
  intro w hw
  rw [h] at hw
  cases hw

/-! ## The local store -/


/-- At the last bytes of the allotment, in both maps. -/
theorem witness_LocalLoads :
    let i : Instr := .lds al none .w32 atS4 (dv 8)
    let s := rigWith i (at_ 524284)
    begins s i = true ∧ AcqDone s (issOf s i) ∧ AMap.get? s.wheels (issOf s i).t.wheel = some placeWheel ∧
      LocalOk s (issOf s i) false 4 (addrOf (issOf s i) 4 atS4) (LoadLane (issOf s i) (dv 8)) := by
  refine ⟨by decide, by unfold AcqDone; decide, by decide, ?_⟩
  rintro L ⟨h, hL⟩
  revert L
  decide

theorem witness_LocalLoads_lanes :
    let i : Instr := .ldl al none .w64 atS4 (dv 8)
    let s := rigWith i (at_ 16376)
    begins s i = true ∧ AcqDone s (issOf s i) ∧ AMap.get? s.wheels (issOf s i).t.wheel = some placeWheel ∧
      LocalOk s (issOf s i) true 8 (addrOf (issOf s i) 8 atS4) (LoadLane (issOf s i) (dv 8)) := by
  refine ⟨by decide, by unfold AcqDone; decide, by decide, ?_⟩
  rintro L ⟨h, hL⟩
  revert L
  decide

theorem witness_LocalLoads_scalar :
    let i : Instr := .lds al none .b128 atS4 (ds 8)
    let s := rigWith i (sregs [(4, 524272)])
    begins s i = true ∧ AcqDone s (issOf s i) ∧ AMap.get? s.wheels (issOf s i).t.wheel = some placeWheel ∧
      LocalOk s (issOf s i) false 16 (addrOf (issOf s i) 16 atS4) (LoadLane (issOf s i) (ds 8)) := by
  refine ⟨by decide, by unfold AcqDone; decide, by decide, ?_⟩
  rintro L ⟨h, hL⟩
  revert L
  decide

theorem witness_LocalStores :
    let i : Instr := .sts al none .n16 atS4 (sv 8)
    let s := rigWith i (at_ 524286)
    begins s i = true ∧ AcqDone s (issOf s i) ∧ AMap.get? s.wheels (issOf s i).t.wheel = some placeWheel ∧
      LocalOk s (issOf s i) false 2 (addrOf (issOf s i) 2 atS4) (fun L => L < 32 ∧ (issOf s i).act.getLsbD L) ∧
      ∀ L j, L < 32 → (issOf s i).act.getLsbD L → j < 2 →
        NotWaited s (issOf s i) (spaceByte false L ((addrOf (issOf s i) 2 atS4 L).toNat + j)) := by
  refine ⟨by decide, by unfold AcqDone; decide, by decide, ?_, ?_⟩
  · rintro L ⟨h, hL⟩
    revert L
    decide
  · exact fun L j _ _ _ => notWaited_of (by decide) _

/-- An address of 2 for a word of 4 bytes, and one word past the allotment. -/
theorem witness_LocalAccessTraps :
    let i : Instr := .sts al none .w32 atS4 (sv 8)
    let s := rigWith i (at_ 2)
    let s' := rigWith i (at_ 524288)
    (begins s i = true ∧ AcqDone s (issOf s i) ∧
      IsMask 1 (fun L => (issOf s i).act.getLsbD L ∧ (addrOf (issOf s i) 4 atS4 L).toNat % 4 ≠ 0) ∧ IsLowest 1 0) ∧
    begins s' i = true ∧ AcqDone s' (issOf s' i) ∧
      IsMask 0 (fun L => (issOf s' i).act.getLsbD L ∧ (addrOf (issOf s' i) 4 atS4 L).toNat % 4 ≠ 0) ∧
      IsMask 1 (fun L => (issOf s' i).act.getLsbD L ∧ localSize s' (issOf s' i).t < (addrOf (issOf s' i) 4 atS4 L).toNat + 4) := by
  refine ⟨⟨by decide, by unfold AcqDone; decide, ?_, by decide, by decide, fun K h => by omega⟩, by decide,
    by unfold AcqDone; decide, ?_, ?_⟩ <;> (unfold IsMask; decide)

/-- Each form of local access: the address of 2 or 4 that its lanes reach is misaligned, that of a load to a scalar for the lowest lane alone. -/
theorem witness_LocalAccessTraps_forms :
    let ok (i : Instr) (n : Nat) (inter : Bool) (va : Iss → Nat → DWord) (lane : Iss → Nat → Prop) (mis : Mask) : Prop :=
      let s := rigWith i (sregs [(4, 2)])
      begins s i = true ∧ AcqDone s (issOf s i) ∧ LocalAccess (issOf s i) i inter n (va (issOf s i)) (lane (issOf s i)) ∧
        IsMask mis (fun L => lane (issOf s i) L ∧ (va (issOf s i) L).toNat % n ≠ 0) ∧ IsLowest mis 0
    ok (.lds al none .w32 atS4 (dv 8)) 4 false (addrOf · 4 atS4) (LoadLane · (dv 8)) 0xFFFFFFFF ∧
    ok (.lds al none .w32 atS4 (ds 8)) 4 false (addrOf · 4 atS4) (LoadLane · (ds 8)) 1 ∧
    ok (.ldl al none .w64 atS4 (dv 8)) 8 true (addrOf · 8 atS4) (LoadLane · (dv 8)) 0xFFFFFFFF ∧
    ok (.stl al none .w32 atS4 (sv 8)) 4 true (addrOf · 4 atS4) (·.act.getLsbD ·) 0xFFFFFFFF ∧
    ok (.atoml al none .add .w32 atS4b (sv 8) (dv 9)) 4 false (addrOfB · 4 atS4b) (·.act.getLsbD ·) 0xFFFFFFFF ∧
    ok (.casl al none .w64 atS4b (sv 8) (dv 12)) 8 false (addrOfB · 8 atS4b) (·.act.getLsbD ·) 0xFFFFFFFF := by
  have low (m : Mask) (h : m.getLsbD 0 = true) : IsLowest m 0 := ⟨by decide, h, fun K h => by omega⟩
  refine ⟨⟨by decide, by unfold AcqDone; decide, .lds .., ?_, low _ (by decide)⟩, ⟨by decide, by unfold AcqDone; decide, .lds .., ?_, low _ (by decide)⟩,
    ⟨by decide, by unfold AcqDone; decide, .ldl .., ?_, low _ (by decide)⟩, ⟨by decide, by unfold AcqDone; decide, .stl .., ?_, low _ (by decide)⟩,
    ⟨by decide, by unfold AcqDone; decide, .atoml _ _ _ _ _ _ _ (by decide), ?_, low _ (by decide)⟩,
    ⟨by decide, by unfold AcqDone; decide, .casl _ _ _ _ _ _ (by decide), ?_, low _ (by decide)⟩⟩ <;>
    (unfold IsMask; simp only [LoadLane, IsLowest]; decide)

theorem witness_LocalAtomics :
    let i : Instr := .atoml al none .fadd .w32 atS4b (sv 8) (dv 9)
    let j : Instr := .casl al none .w64 atS4b (sv 8) (dv 12)
    ∀ p ∈ [(i, 4), (j, 8)], begins (rigWith p.1 (at_ 524280)) p.1 = true ∧
      (issOf (rigWith p.1 (at_ 524280)) p.1).t.inTx = false ∧
      AMap.get? (rigWith p.1 (at_ 524280)).wheels (issOf (rigWith p.1 (at_ 524280)) p.1).t.wheel = some placeWheel ∧
      AcqDone (rigWith p.1 (at_ 524280)) (issOf (rigWith p.1 (at_ 524280)) p.1) ∧
      LocalOk (rigWith p.1 (at_ 524280)) (issOf (rigWith p.1 (at_ 524280)) p.1) false p.2
        (addrOfB (issOf (rigWith p.1 (at_ 524280)) p.1) p.2 atS4b)
        (fun L => L < 32 ∧ (issOf (rigWith p.1 (at_ 524280)) p.1).act.getLsbD L) ∧
      ∀ L j, L < 32 → (issOf (rigWith p.1 (at_ 524280)) p.1).act.getLsbD L → j < p.2 →
        NotWaited (rigWith p.1 (at_ 524280)) (issOf (rigWith p.1 (at_ 524280)) p.1)
          ((addrOfB (issOf (rigWith p.1 (at_ 524280)) p.1) p.2 atS4b L).toNat + j) := by
  intro i j p hp
  simp only [List.mem_cons, List.not_mem_nil, or_false] at hp
  rcases hp with rfl | rfl <;>
    refine ⟨by decide, by decide, by decide, by unfold AcqDone; decide, ?_, fun L k _ _ _ => notWaited_of (by decide) _⟩
  all_goals (rintro L ⟨h, hL⟩; revert L; decide)

/-- Outside every refresh window of the bank, and inside one. -/
theorem witness_WeightLoads :
    let i : Instr := .ldw al none .w32 atS4 (dv 8)
    let s : State := { rigWith i (at_ 1024) with mg := { Mg.reset with svc := 4, refreshNs := 500 } }
    let s' : State := { rigWith i (at_ 0) with mg := { Mg.reset with svc := 4, refreshNs := 0 } }
    (begins s i = true ∧ AcqDone s (issOf s i) ∧ s.dispatchOf (issOf s i).t = some (placeDispatch false) ∧
      weightStalled s (65536 * (placeDispatch false).launch.wsBase + (addrOf (issOf s i) 4 atS4 0).toNat) 4 = false) ∧
    begins s' i = true ∧ AcqDone s' (issOf s' i) ∧ s'.dispatchOf (issOf s' i).t = some (placeDispatch false) ∧
      LoadLane (issOf s' i) (dv 8) 0 ∧
      weightStalled s' (65536 * (placeDispatch false).launch.wsBase + (addrOf (issOf s' i) 4 atS4 0).toNat) 4 = true := by
  refine ⟨⟨by decide, by unfold AcqDone; decide, by decide, by decide⟩, by decide, by unfold AcqDone; decide, by decide, ⟨by decide, by decide⟩, by decide⟩

/-! ## Global memory -/

theorem passes_lane0 {s : State} {r : Iss} {n : Nat} {k : BitVec 3} {dev : Bool} {va : Nat → DWord} (m : r.act = 1)
    (al : (va 0).toNat % n = 0) (lo : (va 0).toNat < 2 ^ 55) (x : s.laneX r.t 0 (va 0).toNat k = .ok (placeTlb 0))
    (c : accessCause s (s.privDispatch r.t) dev (placeTlb 0) (va 0).toNat = none) :
    ∀ L, r.act.getLsbD L = true → Passes s r n k dev va (fun _ => placeTlb 0) L := by
  rw [m]
  exact only_lane0 ⟨al, lo, x, c⟩

/-- Sixteen bytes at the end of the page. -/
theorem witness_GlobalLoads :
    let i : Instr := .ld al (some 1) .b128 true .fresh atS4 (dv 8)
    let s := rigWith i (at_ 0x1FFF0)
    begins s i = true ∧ AcqDone s (issOf s i) ∧ (issOf s i).t.Ok ∧ (issOf s i).t.inTx = false ∧ (issOf s i).act ≠ 0 ∧
      (issOf s i).rest = 0 ∧ ∀ L, ((issOf s i).loadLanes (dv 8)).getLsbD L →
        Passes s (issOf s i) 16 kRead false (addrOf (issOf s i) 16 atS4) (fun _ => placeTlb 0) L := by
  refine ⟨by decide, by unfold AcqDone; decide, rig_ok _ _ (by decide) (by decide) (by decide) (by decide) (by decide), by decide,
    by decide, by decide, ?_⟩
  have e : (issOf (rigWith (.ld al (some 1) .b128 true .fresh atS4 (dv 8)) (at_ 0x1FFF0))
    (.ld al (some 1) .b128 true .fresh atS4 (dv 8))).loadLanes (dv 8) = 1 := by decide
  rw [e]
  exact only_lane0 ⟨by decide, by decide, by decide, by decide⟩

/-- Lane 0 hits, lane 1 misses one page on. -/
def twoLanes (a b : Word) (t : Train) : Train :=
  { t with em := 3, v := [(2, perLane fun L => if L = 0 then a else b)] }

theorem witness_PredicatedLoads :
    let m : Mem := ⟨ss 4, sv 2, false, 0⟩
    let i : Instr := .ldp 1 none .w32 .dflt m (dv 8)
    let s := rigWith i fun t => { twoLanes 0x10004 0x20000 t with p := t.p.set 1 3 }
    begins s i = true ∧ AcqDone s (issOf s i) ∧ (issOf s i).t.Ok ∧ (issOf s i).t.inTx = false ∧
      (issOf s i).rest = 0 ∧ (1 : Mask) &&& ~~~(issOf s i).act = 0 ∧
      (∀ L, (1 : Mask).getLsbD L → Passes s (issOf s i) 4 kRead false (addrOf (issOf s i) 4 m) (fun _ => placeTlb 0) L) ∧
      ∀ L, (issOf s i).act.getLsbD L → (1 : Mask).getLsbD L = false → (addrOf (issOf s i) 4 m L).toNat % 4 = 0 ∧
        (addrOf (issOf s i) 4 m L).toNat < 2 ^ 55 ∧ s.laneX (issOf s i).t L (addrOf (issOf s i) 4 m L).toNat kRead = .miss := by
  refine ⟨by decide, by unfold AcqDone; decide, ⟨by decide, by decide, by decide, by decide⟩, by decide, by decide, by decide,
    only_lane0 ⟨by decide, by decide, by decide, by decide⟩, lanes32 ?_⟩
  decide

def storeForms : List Instr := [
  .st al none .w32 true .stream atS4 (sv 8), .atom al none .fadd .w32 .acqrel atS4b (sv 8) (dv 9),
  .red al none .add .w64 true atS4b (sv 8), .cas al none .w64 .acq atS4b (sv 8) (dv 12)]

theorem witness_GlobalStores : ∀ i ∈ storeForms, let s := rigWith i (at_ 0x1FFF8)
    begins s i = true ∧ AcqDone s (issOf s i) ∧ (issOf s i).t.Ok ∧ (issOf s i).t.inTx = false ∧ (issOf s i).act ≠ 0 ∧
      (issOf s i).rest = 0 ∧ ∃ a e, accessTable (issOf s i) i = some a ∧ entryTable s (issOf s i) i = some e ∧
        ∀ L, (issOf s i).act.getLsbD L → Passes s (issOf s i) a.n a.kind a.dev a.va (fun _ => placeTlb 0) L := by
  intro i hi
  simp only [storeForms, List.mem_cons, List.not_mem_nil, or_false] at hi
  rcases hi with rfl | rfl | rfl | rfl <;>
    exact ⟨by decide, by unfold AcqDone; decide, rig_ok _ _ (by decide) (by decide) (by decide) (by decide) (by decide), by decide,
      by decide, by decide, _, _, rfl, rfl, passes_lane0 (by decide) (by decide) (by decide) (by decide) (by decide)⟩

/-- The FIFO full, and one entry short of full. -/
theorem witness_GlobalStores_full :
    let i : Instr := .st al none .w32 true .stream atS4 (sv 8)
    let w : Write := { id := 2, op := 2, train := 1, kind := .store, n := 4, acc := [], fresh := false, rel := false, acq := false, after := [], dst := none }
    ∀ n ∈ [31, 32], begins (rigWith i fun t => { at_ 0x10000 t with fifo := List.replicate n w }) i = true ∧
      (issOf (rigWith i fun t => { at_ 0x10000 t with fifo := List.replicate n w }) i).t.fifo.length = n := by decide

/-- A misaligned address, an address of 2^55, and a page without the right to write. -/
theorem witness_GlobalAccessTraps :
    let i : Instr := .st al none .w32 false .dflt atS4 (sv 8)
    let s := rigWith i (at_ 0x10002)
    let s' := rigWith i fun t => lane0 (sregs [(5, 0x800000)] t)
    begins s i = true ∧ AcqDone s (issOf s i) ∧ (issOf s i).t.inTx = false ∧
      IsMask 1 (fun L => (issOf s i).act.getLsbD L ∧ (addrOf (issOf s i) 4 atS4 L).toNat % 4 ≠ 0) ∧ IsLowest 1 0 ∧
    begins s' i = true ∧ AcqDone s' (issOf s' i) ∧ (issOf s' i).t.inTx = false ∧
      IsMask 0 (fun L => (issOf s' i).act.getLsbD L ∧ (addrOf (issOf s' i) 4 atS4 L).toNat % 4 ≠ 0) ∧
      IsMask 1 (fun L => (issOf s' i).act.getLsbD L ∧ 2 ^ 55 ≤ (addrOf (issOf s' i) 4 atS4 L).toNat) := by
  refine ⟨by decide, by unfold AcqDone; decide, by decide, by unfold IsMask; decide, ⟨by decide, by decide, fun K h => by omega⟩,
    by decide, by unfold AcqDone; decide, by decide, by unfold IsMask; decide, by unfold IsMask; decide⟩

/-- A DEVICE page for an access of 16 bytes. -/
def deviceTlb : Tlb := { placeTlb 0 with attr := .device }

theorem witness_GlobalAccessTraps_device :
    let i : Instr := .st al none .b128 false .dflt atS4 (sv 8)
    let s : State := { rigWith i (at_ 0x10000) with cores := [(0, { Core.reset with tlb := [deviceTlb] })] }
    begins s i = true ∧ AcqDone s (issOf s i) ∧ (issOf s i).t.inTx = false ∧
      s.laneX (issOf s i).t 0 (addrOf (issOf s i) 16 atS4 0).toNat kWrite = .ok deviceTlb ∧
      accessCause s (s.privDispatch (issOf s i).t) false deviceTlb (addrOf (issOf s i) 16 atS4 0).toNat = some 0x06 := by
  refine ⟨by decide, by unfold AcqDone; decide, by decide, by decide, by decide⟩

/-- A page whose fault the walk has reported. -/
theorem witness_GlobalParks :
    let i : Instr := .st al none .w32 false .dflt atS4 (sv 8)
    let s := rigWith i fun t => { at_ 0x20000 t with xl := [⟨0x20000, false, false, 1⟩] }
    begins s i = true ∧ AcqDone s (issOf s i) ∧ (issOf s i).t.Ok ∧ (issOf s i).t.inTx = false ∧ ∃ a, accessTable (issOf s i) i = some a ∧
      a.lanes ≠ 0 ∧ ∀ L, a.lanes.getLsbD L → (a.va L).toNat % a.n = 0 ∧ (a.va L).toNat < 2 ^ 55 ∧
        ∃ f ∈ (issOf s i).t.xl, f.page = (a.va L).toNat / 65536 * 65536 := by
  refine ⟨by decide, by unfold AcqDone; decide, rig_ok _ _ (by decide) (by decide) (by decide) (by decide) (by decide), by decide, _, rfl,
    by decide, ?_⟩
  refine lanes32 fun L h hL => ⟨?_, ?_, ⟨0x20000, false, false, 1⟩, ?_, ?_⟩
  · revert L; decide
  · revert L; decide
  · decide
  · revert L; decide

theorem witness_GlobalParks_none :
    let i : Instr := .st 0 none .w32 false .dflt atS4 (sv 8)
    begins (rigWith i (at_ 0)) i = true ∧ (issOf (rigWith i (at_ 0)) i).act = 0 := by decide

/-! ## Loads and stores under way -/

def oneLoad : Load :=
  { id := 5, op := 5, n := 4, regs := 1, ext := .zero, acc := [⟨0, 0x10000, 0x10000, 0, 0, .cached, .near⟩], fresh := false,
    acq := false, ldp := none, dst := dv 8 }

def loading (f : Load → Load) : State := rigWith (.nop al) fun t =>
  { lane0 t with loads := [f oneLoad], inflight := [⟨5, 0x10000, none, [.v 8], [], false⟩] }

theorem witness_LoadReturns : ∀ f ∈ [id, fun l : Load => { l with acq := true, fresh := true },
      fun l => { l with ldp := some (1, 1), acc := [⟨0, 0x10000, 0x10000, 0, 0, .uncached, .near⟩] }], ∃ x l a,
    AMap.get? (loading f).trains 1 = some x ∧ x.Ok ∧ x.loads.find? (fun o => o.id == 5) = some l ∧ l.acc = [a] ∧
      (loading f).region a.pa ≠ .mmio ∧ loadHeld 1 x ((loading f).core ((loading f).coreOf x)) l = false := by
  intro f hf
  simp only [List.mem_cons, List.not_mem_nil, or_false] at hf
  rcases hf with rfl | rfl | rfl <;>
    exact ⟨_, _, _, rfl, ⟨by decide, by decide, by decide, by decide⟩, rfl, rfl, by decide, by decide⟩

/-- A leased copy in the L1. -/
theorem witness_LoadReturns_leased : ∃ x y,
    let s : State := { loading id with cores := [(0, { Core.reset with l1 := [(64, ⟨[(0, 7)], 300, 0⟩)] })] }
    AMap.get? s.trains 1 = some x ∧ AMap.get? (s.core (s.coreOf x)).l1 (0x10000 / 1024) = some y ∧ (s.core (s.coreOf x)).clock ≤ y.rts :=
  ⟨_, _, rfl, rfl, by decide⟩

def oneWrite (k : WKind) (n : Nat) : Write :=
  { id := 5, op := 5, train := 1, kind := k, n := n, acc := [⟨0, 0x10000, 0x10000, 0xFFFFFFFF, 0, .uncached, .near⟩],
    fresh := false, rel := false, acq := false, after := [], dst := if k = .store then none else some (dv 8) }

/-- A release behind an earlier load is held; the same entry alone leaves. -/
theorem witness_StoresPerformed_leave :
    let w : Write := { oneWrite .store 4 with rel := true, id := 9 }
    leaveHeld { rigTrain .V 0 with fifo := [w], loads := [oneLoad] } w = true ∧
      leaveHeld { rigTrain .V 0 with fifo := [w] } w = false ∧ (∃ a ∈ w.acc, a.attr ≠ .cached) := by decide

/-- Another train of the core holds the token's lock on the bytes of an entry; without the lock the entry leaves. -/
theorem witness_StoresPerformed_locked :
    let w : Write := oneWrite .store 4
    let s (l : AMap Lock) : State := { rigWith (.nop al) fun t => { t with fifo := [w] } with
      locks := l, trains := [(1, ({ rigTrain .V 0 with fifo := [w] } : Train).norm), (2, (rigTrain .V 0).norm)] }
    coreLocked (s [(0x10000, ⟨2, 0⟩)]) 1 w = true ∧ coreLocked (s []) 1 w = false ∧ leaveHeld { rigTrain .V 0 with fifo := [w] } w = false := by decide

def writing (w : Write) : State :=
  { rig (.nop al) with cores := [(0, { Core.reset with writes := [w] })] }

theorem witness_StoresPerformed : ∀ w ∈ [oneWrite .store 1, oneWrite .store 16, oneWrite (.atom .max) 4, oneWrite .cas 8], ∃ a,
    let s := writing w
    (s.core 0).writes.find? (fun o => o.id == 5) = some w ∧ writeReady s (olderWrites (s.core 0) 5) w = true ∧ w.acc = [a] ∧
      s.region a.pa ≠ .mmio ∧ (w.kind = .store ∨ w.n = 4 ∨ w.n = 8) ∧ KeysRise s.trains ∧
      ∀ j x, AMap.get? s.trains j = some x → x.Ok := by
  intro w hw
  simp only [List.mem_cons, List.not_mem_nil, or_false] at hw
  rcases hw with rfl | rfl | rfl | rfl <;>
    exact ⟨_, rfl, by decide, rfl, by decide, by decide, by unfold KeysRise; decide, train_ok rfl⟩

/-- A `cas` whose comparison fails. -/
theorem witness_StoresPerformed_fails :
    let w : Write := { oneWrite .cas 8 with acc := [⟨0, 0x10000, 0x10000, 5, 7, .uncached, .near⟩] }
    writeReady (writing w) (olderWrites ((writing w).core 0) 5) w = true ∧ Bytes.read (writing w).mem 0x10000 8 ≠ 7 := by decide

/-- A watch on the sector of a write. -/
theorem witness_StoresPerformed_watch :
    let o : Watch := { sector := 0x10000 / 128, wts := 0, va := 0x10000, lost := false, hit := false }
    (rigWith (.nop al) fun t => { t with watch := some o }).trains.map (fun x => x.2.watch) = [some o] := by decide

end Sys2Proof.Tests
end

