-- ==== Sys2Proof/Tests/WitnessT.lean ====
section
/-! SUPPORT. Witnesses for the statements about fences, barriers, monitors, caches, brackets and class Z. -/

namespace Sys2Proof.Tests
open Sys2Proof.Machine

/-! ## Fences and barriers -/

theorem witness_Fences : ∀ i ∈ [Instr.fence al none, .drain al (some 2)],
    begins (rig i) i = true ∧ (issOf (rig i) i).t.inTx = false ∧ Holds (issOf (rig i) i) ∧ (issOf (rig i) i).t.fifo = [] ∧
      (issOf (rig i) i).t.loads = [] ∧ ((rig i).core 0).writes = [] := by decide

theorem witness_Fences_acq : AcqDone (rig (.fence al none)) (issOf (rig (.fence al none)) (.fence al none)) := by
  unfold AcqDone
  decide

/-- An access under way, and a guard with no lane. -/
theorem witness_Fences_waits :
    (issOf (loading id) (.nop al)).t.loads ≠ [] ∧ begins (rig (.fence 0 none)) (.fence 0 none) = true ∧
      ¬Holds (issOf (rig (.fence 0 none)) (.fence 0 none)) := by decide

/-- A wheel of two trains with a local store. -/
def rigL (i : Instr) (f : Train → Train) (b : Bytes) (trains : Nat) : State :=
  { rigWith i f with
    wheels := [(1, { placeWheel with local_ := b })]
    dispatches := [(1, { placeDispatch false with launch := { placeLaunch false with trains := trains } })] }

/-- A fresh barrier word at 0x100 that expects a mask, and one with a member arrived. -/
def barBytes (w : BarWord) : Bytes := Bytes.write [] 0x100 8 w.toNat
def barFresh (expect : Nat) : BarWord := ⟨true, 0, false, 0, 0, 0, expect⟩

theorem witness_BarrierArrivals_last : ∀ i ∈ [Instr.barw al none atS4b, .bara al none atS4b],
    let s := rigL i (at_ 0x100) (barBytes (barFresh 1)) 1
    let r := issOf s i
    begins s i = true ∧ AcqDone s r ∧ r.t.wait = none ∧ r.t.inTx = false ∧ Holds r ∧
      AMap.get? s.wheels r.t.wheel = some { placeWheel with local_ := barBytes (barFresh 1) } ∧ ArrivalMay s r ∧
      (addrOfB r 8 atS4b 0).toNat = 0x100 ∧ barAt (barBytes (barFresh 1)) 0x100 = barFresh 1 ∧ 0x100 + 8 ≤ localSize s r.t ∧
      MaskOk s r 1 ∧ r.t.index = 0 ∧ KeysRise s.trains ∧ ∀ j y, AMap.get? s.trains j = some y → y.Ok := by
  intro i hi
  simp only [List.mem_cons, List.not_mem_nil, or_false] at hi
  rcases hi with rfl | rfl <;>
    exact ⟨by decide, by unfold AcqDone; decide, by decide, by decide, by decide, by decide, ⟨by decide, by decide, by decide⟩,
      by decide, by decide, by decide, ⟨by decide, by decide⟩, by decide, by unfold KeysRise; decide, train_ok rfl⟩

/-- Two trains expected, none arrived; `barm` names a mask of its own. -/
theorem witness_BarrierArrivals_first : let i : Instr := .barm al none atS4b (ss 6)
    let s := rigL i (fun t => { at_ 0x100 t with s := [(4, 0x100), (6, 3)] }) (barBytes (barFresh 3)) 2
    let r := issOf s i
    begins s i = true ∧ AcqDone s r ∧ r.t.wait = none ∧ Holds r ∧ ArrivalMay s r ∧ (r.x0 (ss 6)).toNat = 3 ∧ MaskOk s r 3 ∧
      (barAt (barBytes (barFresh 3)) 0x100).arrived = 0 ∧ 0 + 2 ^ r.t.index ≠ 3 :=
  ⟨by decide, by unfold AcqDone; decide, by decide, by decide, ⟨by decide, by decide, by decide⟩, by decide,
    ⟨by decide, by decide⟩, by decide, by decide⟩

def waiting (b : Bool) (on : WaitOn) (t : Train) : Train := { t with wait := some ⟨on, b, 0⟩ }

theorem witness_BarrierArrivals_waits : ∀ b ∈ [false, true],
    let i : Instr := .barw al none atS4b
    let s := rigL i (fun t => waiting b (.barrier 0x100) (at_ 0x100 t)) (barBytes (barFresh 1)) 1
    begins s i = true ∧ (issOf s i).t.wait = some ⟨.barrier 0x100, b, 0⟩ := by decide

/-- The last arrival while a sibling waits. -/
theorem witness_BarrierArrivals_ends : ∃ y v,
    let s := { rigL (.bara al none atS4b) (at_ 0x100) (barBytes { barFresh 3 with arrived := 2 }) 2 with
      trains := [(1, (at_ 0x100 (rigTrain .M 0)).norm), (2, waiting false (.barrier 0x100) { rigTrain .M 0 with index := 1 })] }
    AMap.get? s.trains 2 = some y ∧ y.wheel = 1 ∧ y.wait = some v ∧ v.woken = false ∧ v.on = .barrier 0x100 ∧
      (barAt (barBytes { barFresh 3 with arrived := 2 }) 0x100).arrived + 2 ^ 0 = 3 := ⟨_, _, rfl, rfl, rfl, rfl, rfl, by decide⟩

def iBarinit : Instr := .barinit al none atS4b (ss 6)
def at6 (a m : Word) (t : Train) : Train := { lane0 t with s := [(4, a), (6, m)] }

/-- A misaligned word, the last word of the allotment, and one past it. -/
theorem witness_BarrierWords : begins (rigL iBarinit (at6 0x104 1) [] 1) iBarinit = true ∧
    begins (rigL iBarinit (at6 0x7FFF8 1) [] 1) iBarinit = true ∧ begins (rigL iBarinit (at6 0x80000 1) [] 1) iBarinit = true := by
  decide

theorem witness_BarrierWords_addr :
    (addrOfB (issOf (rigL iBarinit (at6 0x104 1) [] 1) iBarinit) 8 atS4b 0).toNat = 0x104 ∧
      (addrOfB (issOf (rigL iBarinit (at6 0x80000 1) [] 1) iBarinit) 8 atS4b 0).toNat = 0x80000 ∧
      (barAt ([] : Bytes) 0x100).valid = false := by decide

theorem witness_BarrierWords_masks : let i : Instr := .barinit al none atS4b (ss 6)
    let s := rigL i (at_ 0x100) [] 1
    AcqDone s (issOf s i) ∧ MaskOk s (issOf s i) 1 ∧ ¬MaskOk s (issOf s i) 0 ∧ ¬MaskOk s (issOf s i) 2 ∧
      ∀ j, j < 8 → NotWaited s (issOf s i) (0x100 + j) := by
  refine ⟨by unfold AcqDone; decide, ⟨by decide, by decide⟩, fun h => h.1 rfl, fun h => absurd h.2 (by decide),
    fun j _ => notWaited_of (by decide) _⟩

/-- A word some train waits on. -/
theorem witness_BarrierWords_clobber : let i : Instr := .barinit al none atS4b (ss 6)
    let s := { rigL i (at_ 0x100) [] 1 with trains := [(1, (at_ 0x100 (rigTrain .M 0)).norm), (2, waiting false (.barrier 0x100) (rigTrain .M 0))] }
    (0x100, 8) ∈ waitedWords s 1 := by decide

/-! ## Monitors and caches -/

theorem witness_Monitors_mon : let i : Instr := .mon al none .w64 true atS4b (ds 8)
    let s := rigWith i (at_ 0x10008)
    let r := issOf s i
    begins s i = true ∧ AcqDone s r ∧ r.t.Ok ∧ r.t.inTx = false ∧ Holds r ∧ IsLowest r.one 0 ∧
      Passes s r 8 kRead false (addrOfB r 8 atS4b) (fun _ => placeTlb 0) 0 ∧
      (∀ x ∈ r.t.fifo ++ (s.core (s.coreOf r.t)).writes, ∀ j, j < 8 → x.touches (0x10008 + j) = false) ∧
      ∀ l ∈ r.t.loads, ∀ b ∈ l.acc, ¬(b.pa < 0x10008 + 8 ∧ 0x10008 < b.pa + l.n) :=
  ⟨by decide, by unfold AcqDone; decide, rig_ok _ _ (by decide) (by decide) (by decide) (by decide) (by decide), by decide, by decide,
    ⟨by decide, by decide, fun K h => by omega⟩, ⟨by decide, by decide, by decide, by decide⟩, by decide, by decide⟩

def watching (hit lost : Bool) (t : Train) : Train :=
  { t with watch := some { sector := 512, wts := 0, va := 0x10000, lost := lost, hit := hit } }

/-- No watch; a watch that is hit, lost, or neither, with and without a wait. -/
theorem witness_Monitors_mwait : ∀ f ∈ [id, watching true false, watching false true, watching false false,
      fun t => waiting false .monitor (watching false false t)],
    begins (rigWith (.mwait al none) f) (.mwait al none) = true ∧
      Holds (issOf (rigWith (.mwait al none) f) (.mwait al none)) ∧
      (issOf (rigWith (.mwait al none) f) (.mwait al none)).t.inTx = false := by
  intro f hf
  simp only [List.mem_cons, List.not_mem_nil, or_false] at hf
  rcases hf with rfl | rfl | rfl | rfl | rfl <;> exact ⟨by decide, by decide, by decide⟩

theorem witness_Monitors_events : ∃ x o w,
    let s := rigWith (.mwait al none) fun t => waiting false .monitor (watching true false t)
    AMap.get? s.trains 1 = some x ∧ x.watch = some o ∧ x.wait = some w ∧ w.on = .monitor ∧ o.hit = true := ⟨_, _, _, rfl, rfl, rfl, rfl, rfl⟩

/-- A token below the value, and one at it. -/
theorem witness_Monitors_token : ∀ v ∈ [0, 1], ∃ x w, let s := rigWith (.nop al) (waiting false (.token 0x10000 0x10000 v))
    AMap.get? s.trains 1 = some x ∧ KeysRise s.trains ∧ x.wait = some w ∧ w.on = .token 0x10000 0x10000 v ∧ w.woken = false ∧
      (v.toNat ≤ leVal (fun j => Bytes.get s.mem (0x10000 + j)) 8 ↔ v = 0) := by
  intro v hv
  simp only [List.mem_cons, List.not_mem_nil, or_false] at hv
  rcases hv with rfl | rfl <;> exact ⟨_, _, rfl, by unfold KeysRise; decide, rfl, rfl, rfl, by decide⟩

def cacheForms : List Instr := [.unown al none .n8 atS4, .cwb al none .n8 atS4, .cinv al none .n8 atS4]

theorem witness_CacheControl : ∀ i ∈ cacheForms, let s := rigWith i (at_ 0x10000)
    begins s i = true ∧ AcqDone s (issOf s i) ∧ (issOf s i).t.inTx = false ∧
      Cached s (issOf s i) (addrOf (issOf s i) 1 atS4) fun _ => placeTlb 0 := by
  intro i hi
  simp only [cacheForms, List.mem_cons, List.not_mem_nil, or_false] at hi
  rcases hi with rfl | rfl | rfl
  all_goals refine ⟨by decide, by unfold AcqDone; decide, by decide, ?_⟩
  · have e : (issOf (rigWith (.unown al none .n8 atS4) (at_ 0x10000)) (.unown al none .n8 atS4)).act = 1 := by decide
    unfold Cached
    rw [e]
    exact only_lane0 ⟨⟨by decide, by decide, by decide, by decide⟩, by decide, by decide⟩
  · have e : (issOf (rigWith (.cwb al none .n8 atS4) (at_ 0x10000)) (.cwb al none .n8 atS4)).act = 1 := by decide
    unfold Cached
    rw [e]
    exact only_lane0 ⟨⟨by decide, by decide, by decide, by decide⟩, by decide, by decide⟩
  · have e : (issOf (rigWith (.cinv al none .n8 atS4) (at_ 0x10000)) (.cinv al none .n8 atS4)).act = 1 := by decide
    unfold Cached
    rw [e]
    exact only_lane0 ⟨⟨by decide, by decide, by decide, by decide⟩, by decide, by decide⟩

theorem witness_CacheControl_own : let i : Instr := .own al none .n8 atS4
    let s := rigWith i (at_ 0x1FFFF)
    begins s i = true ∧ AcqDone s (issOf s i) ∧ (issOf s i).t.Ok ∧ (issOf s i).rest = 0 ∧
      (∀ L, (issOf s i).act.getLsbD L → Passes s (issOf s i) 1 kRw true (addrOf (issOf s i) 1 atS4) (fun _ => placeTlb 0) L) ∧
      (s.core (s.coreOf (issOf s i).t)).owned.length ≤ 992 ∧ (placeTlb 0).attr = .cached ∧ (placeTlb 0).place ≠ 2 :=
  ⟨by decide, by unfold AcqDone; decide, rig_ok _ _ (by decide) (by decide) (by decide) (by decide) (by decide), by decide,
    passes_lane0 (by decide) (by decide) (by decide) (by decide) (by decide), by decide, by decide, by decide⟩

theorem witness_CacheControl_prf : let i : Instr := .prf al none .w32 .keep atS4
    let s := rigWith i (at_ 0x10000)
    begins s i = true ∧ AcqDone s (issOf s i) ∧ (addrOf (issOf s i) 4 atS4 0).toNat < 2 ^ 55 ∧
      s.laneX (issOf s i).t 0 (addrOf (issOf s i) 4 atS4 0).toNat kRead = .ok (placeTlb 0) ∧
      accessCause s (s.privDispatch (issOf s i).t) false (placeTlb 0) (addrOf (issOf s i) 4 atS4 0).toNat = none ∧
      s.attrOf (placeTlb 0) 0x10000 = .cached ∧ s.ownerOf 0x10000 = none ∧
      AMap.get? (s.core (s.coreOf (issOf s i).t)).l1 (0x10000 / 1024) = none ∧ (issOf s i).act = 1 :=
  ⟨by decide, by unfold AcqDone; decide, by decide, by decide, by decide, by decide, by decide, by decide, by decide⟩

/-- A sector with an owner. -/
theorem witness_CacheControl_recall : let s := { rig (.nop al) with owners := [(512, ⟨0, 0, 0, 0x10000⟩)] }
    ∃ o, AMap.get? s.owners 512 = some o ∧ o.core = 0 := ⟨_, rfl, rfl⟩

/-! ## Class T -/

/-- A bracket over lanes 0 and 1. -/
def bracket (opened : Mask) (t : Train) : Train := { t with tx := { t.tx with on := true, em := 3, opened := opened }, em := 3 }

/-- Outside a bracket, inside one, in the token queue. -/
theorem witness_Brackets : ∀ f ∈ [id, bracket 3, fun t : Train => { t with tokenWait := true }],
    begins (rigWith (.txbeg none false) f) (.txbeg none false) = true ∧ begins (rigWith (.txbeg none true) f) (.txbeg none true) = true := by
  intro f hf
  simp only [List.mem_cons, List.not_mem_nil, or_false] at hf
  rcases hf with rfl | rfl | rfl <;> exact ⟨by decide, by decide⟩

theorem witness_BracketEnds : ∀ f ∈ [id, bracket 3, bracket 0],
    ∀ i ∈ [Instr.txabt al none, .txend none (dp 2), .txst none true (ds 4), .txst none false (ds 4), .txcause al none (dv 4)],
      begins (rigWith i f) i = true := by
  intro f hf
  simp only [List.mem_cons, List.not_mem_nil, or_false] at hf
  rcases hf with rfl | rfl | rfl <;> decide

/-- Quiet, and with a load under way. -/
theorem witness_BracketEnds_quiet : let s := rigWith (.txend none (dp 2)) (bracket 3)
    let r := issOf s (.txend none (dp 2))
    quiet r.t (s.core (s.coreOf r.t)) r.id = true ∧ r.t.tx.opened ≠ 0 ∧
      quiet { r.t with loads := [oneLoad] } (s.core (s.coreOf r.t)) r.id = false := by decide

def withCtx0 (s : State) (f : Context → Context) : State := { s with ctxs := s.ctxs.set 0 (f (Context.reset 0)) (by decide) }

theorem witness_Commits_grant : ∃ x cl,
    let s := withCtx0 (rig (.txbeg none true)) fun c => { c with tokenQueue := [1] }
    AMap.get? s.trains 1 = some x ∧ (s.ctx 0).token = none ∧ (s.ctx 0).tokenQueue = [1] ∧ x.clause = some cl := ⟨_, _, rfl, rfl, rfl, rfl⟩

/-- One cycle short of the limit, and at it. -/
theorem witness_Commits_hold : ∀ n ∈ [2 ^ 20 - 1, 2 ^ 20], ∃ x,
    let s := withCtx0 (rigWith (.nop al) (bracket 3)) fun c => { c with token := some (1, n) }
    AMap.get? s.trains 1 = some x ∧ (s.ctx 0).token = some (1, n) ∧ x.Ok :=
  fun _ _ => ⟨_, rfl, rfl, Train.norm_ok _⟩

/-- A bracket at its commit: lane 0 has read one granule and written half of another. -/
def committing (t : Train) : Train :=
  { bracket 1 t with
    tx := { (bracket 1 t).tx with
      ending := some (1, 0)
      rs := perLane fun L => if L = 0 then [(0x10000, 5)] else []
      ws := perLane fun L => if L = 0 then [(0x10008, (0x0F, 7))] else [] } }

theorem witness_Commits_step : ∃ x e,
    let s := rigWith (.nop al) committing
    AMap.get? s.trains 1 = some x ∧ KeysRise s.trains ∧ x.tx.ending = some e ∧ IsLowest x.tx.opened 0 ∧ KeysRise (x.tx.ws.at 0) ∧
      ∀ g ∈ x.tx.ws.at 0, g.1 % 8 = 0 := by
  refine ⟨_, _, rfl, by unfold KeysRise; decide, rfl, ⟨by decide, by decide, fun K h => by omega⟩, by unfold KeysRise; decide, by decide⟩

/-- The value read stands, has changed, or its granule is locked. -/
theorem witness_Commits_cases :
    Bytes.read (Bytes.write [] 0x10000 8 5) 0x10000 8 = (5 : DWord).toNat ∧ Bytes.read ([] : Bytes) 0x10000 8 ≠ (5 : DWord).toNat ∧
      AMap.get? ([(0x10000, ⟨2, 0⟩)] : AMap Lock) 0x10000 = some ⟨2, 0⟩ := by decide

/-- A write of another train of the core on the granule that lane 0 has read, and none. -/
theorem witness_Commits_clear : ∃ x, let s := rigWith (.nop al) committing
    let t := { s with cores := [(0, { s.core 0 with writes := [{ oneWrite .store 8 with train := 2 }] })] }
    AMap.get? t.trains 1 = some x ∧ (0x10000 ∈ (x.tx.rs.at 0).map (·.1)) ∧ ¬Clear t x 0x10000 8 ∧ ∀ g, Clear s x g 8 :=
  ⟨_, rfl, by decide, fun h => absurd (h _ (List.mem_singleton.2 rfl) 0 (by decide)) (by decide), nofun⟩

/-! ## Class Z -/

/-- Every listed number, with a scalar destination, and a number that is not listed. -/
theorem witness_SystemRegisters_zrd : ∀ k ∈ List.range 24,
    let i : Instr := .zrd none (ds 8) (sc k)
    begins (rig i) i = true ∧ (issOf (rig i) i).t.inTx = false ∧ ((issOf (rig i) i).x0 (sc k)).toNat = k ∧
      ((k = 23 ∧ ∀ e ∈ sysTable (issOf (rig i) i).t ((rig i).ctx 0), e.1 ≠ 23) ∨
        ∃ e ∈ sysTable (issOf (rig i) i).t ((rig i).ctx 0), e.1 = k ∧ (ds 8).sca e.2.1 = true ∧ (dv 8).sca e.2.1 = false) := by
  decide

theorem witness_SystemRegisters_zwr : ∀ k ∈ List.range 24,
    let i : Instr := .zwr none (sc k) (ss 4)
    begins (rig i) i = true ∧ (issOf (rig i) i).t.inTx = false ∧ ((issOf (rig i) i).x0 (sc k)).toNat = k ∧
      (ss 4).unif 1 = true ∧ (ss 4).unif 2 = true ∧ (sv 4).unif 1 = false := by decide

def iTlbi : Instr := .tlbi none (some (ss 4, ss 6))
def rigTlbi (lo hi n : Word) : State := rigWith iTlbi (sregs [(4, lo), (5, hi), (6, n)])

/-- The whole tag; one page; the last page below 2^55; a misaligned VA; a VA of 2^55; no page. -/
theorem witness_Invalidations_tlbi : begins (rig (.tlbi none none)) (.tlbi none none) = true ∧
    begins (rigTlbi 0x10000 0 1) iTlbi = true ∧ begins (rigTlbi 0xFFFF0000 0x7FFFFF 0xFFFFFFFF) iTlbi = true ∧
    begins (rigTlbi 0x10001 0 1) iTlbi = true ∧ begins (rigTlbi 0 0x800000 1) iTlbi = true ∧ begins (rigTlbi 0x10000 0 0) iTlbi = true := by
  decide

theorem witness_Invalidations_va : ((issOf (rigTlbi 0xFFFF0000 0x7FFFFF 0xFFFFFFFF) iTlbi).d0 (ss 4)).toNat = 2 ^ 55 - 65536 ∧
    ((issOf (rigTlbi 0 0x800000 1) iTlbi).d0 (ss 4)).toNat = 2 ^ 55 ∧ ((issOf (rigTlbi 0x10001 0 1) iTlbi).d0 (ss 4)).toNat = 0x10001 ∧
    (issOf (rigTlbi 0x10000 0 0) iTlbi).x0 (ss 6) = 0 := by decide

def tlbiOf (begun : Bool) : Tlbi :=
  { sync := false, train := 1, op := 5, ctx := 0, lo := 0x10000, hi := 0x20000, begun := begun, mark := 5 }
def tlbsyncOf : Tlbi := { tlbiOf false with sync := true, op := 6, lo := 0, hi := 0 }

theorem witness_Invalidations_sync : begins (rig (.tlbsync none)) (.tlbsync none) = true ∧
    (issOf (rig (.tlbsync none)) (.tlbsync none)).t.inTx = false := by decide

/-- The turn of a `tlbsync` after a `tlbi` that has begun, and after one that has not. -/
theorem witness_Invalidations_done : ∀ b ∈ [false, true], ∃ x,
    let s := { rig (.nop al) with agenda := [.syncDone 1 6], tlbis := [tlbiOf b, tlbsyncOf] }
    s.agenda = .syncDone 1 6 :: [] ∧ (∃ i ∈ s.tlbis, i.sync = true ∧ i.train = 1 ∧ i.op = 6) ∧
      AMap.get? s.trains 1 = some x ∧ ∀ i ∈ s.tlbis, i.train = 1 → i.sync = false → i.op < 6 → i.begun = b ∧ oldAccess s i = false := by
  intro b hb
  simp only [List.mem_cons, List.not_mem_nil, or_false] at hb
  rcases hb with rfl | rfl <;>
    exact ⟨_, rfl, ⟨tlbsyncOf, by decide, rfl, rfl, rfl⟩, rfl, by decide⟩

theorem witness_Invalidations_begin : ∃ x i,
    let s := { rig (.tlbi none none) with tlbis := [tlbiOf false] }
    AMap.get? s.trains 1 = some x ∧ s.tlbis.find? (fun i => i.train == 1 && i.op == 5 && !i.begun && !i.sync) = some i ∧ KeysRise s.owners ∧ KeysRise s.trains ∧
      KeysRise s.cores ∧ KeysRise s.l2 ∧ KeysRise s.l3 ∧ x.fifo = [] ∧ (s.core (s.coreOf x)).writes = [] := by
  refine ⟨_, _, rfl, rfl, ?_, ?_, ?_, ?_, ?_, rfl, by decide⟩ <;> (unfold KeysRise; decide)

end Sys2Proof.Tests
end

