-- ==== Sys2Proof/Tests/WitnessE.lean ====
section
/-! SUPPORT. Witnesses for the statements about the engine, ray and graph instructions at issue. -/

namespace Sys2Proof.Tests
open Sys2Proof.Machine

/-! ## The engines at issue -/

def streamCalls : List Instr := [
  .tbinit none false (ss 4) (sc 1), .tbexp none (ss 4) (ss 6), .tbarr none (ds 8) (ss 4) (sc 0), .srd none (.phase (ss 4)) (ds 8),
  .srd none (.arrive (ss 4)) (ds 8), .srd none (.sectors (ss 4)) (ds 8), .srd none .jobs (ds 8), .rbind none (sc 3) (ss 4),
  .rrel none (sc 0) (ss 4), .ctxsv none (ds 8) (sc 15) (ss 4), .ctxld none (ds 8) (sc 1) (ss 4)]

def matrixCalls : List Instr := [
  .tcfg none 7 (ss 4), .tfill none 0 (ss 4), .tzero none 1, .tmma none 2 0 1, .tmmb none 2 0 1, .tcvt none 3 4, .ttr none 3 4,
  .tloop none 2 0 1 (ss 4), .tvxm al none 0 2 2 0 (sv 4), .wsinfo none (ds 8) (sc 63)]

def esuCalls : List Instr := [
  .eqry none false (ds 8) (ss 4) (sc 0), .enext none true (ds 8), .erow al none false 1 (dv 8) (sv 4), .ecol al none 1 (dv 8) (sv 4) (sv 6) (sc 1),
  .ehchk al none 1 (sv 4), .eget al none .b128 true 1 (dv 8) (sv 4) (sv 6) (sv 7), .eput al none .b64 false 1 (sv 8) (sv 4) (sv 6) (sv 7),
  .ecrt al none true 1 (dv 8) none, .ecrt al none false 1 (dv 8) (some (true, sv 4, sv 6)), .edel al none false 1 (sv 4),
  .eadd al none false true 1 (sv 4) (sv 6) (sv 8), .erem al none false 1 (sv 4) (sv 6), .eset al none true false 1 (sv 4) (sv 6) (sv 8),
  .ecmt al none (ds 8), .esync none (ds 8) (sc 1), .epin none false (ds 8) (sc 1) (sc 2), .eunpin none (sc 1) (sc 2), .ever none true (ds 8) (sc 1)]

def rayCalls : List Instr := [.rygeo none 3 (ss 4), .ryinv none none, .ryinv none (some 1)]

def called (i : Instr) : Bool :=
  let s := rig i
  begins s i && !(issOf s i).t.inTx && (callTable s (issOf s i) i).isSome && (callTrap s (issOf s i) i).isNone &&
    (AMap.get? s.wheels (issOf s i).t.wheel).isSome && decide ((mxQueue s 0 0).length = 0) && (issOf s i).t.loads.isEmpty && (issOf s i).t.fifo.isEmpty &&
    (s.core (s.coreOf (issOf s i).t)).writes.isEmpty && s.tlbis.isEmpty &&
    !checkerFull s 0

theorem witness_EngineIssue_stream : ∀ i ∈ streamCalls, called i = true := by decide
theorem witness_EngineIssue_matrix : ∀ i ∈ matrixCalls, called i = true := by decide
theorem witness_EngineIssue_esu : ∀ i ∈ esuCalls, called i = true := by decide
theorem witness_EngineIssue_ray : ∀ i ∈ rayCalls, called i = true := by decide

/-- A class X instruction behind a full queue, `tloop` behind a `tlbsync`, and `rbind` at a full checker stall. -/
theorem witness_EngineIssue_stalls :
    let sync : Tlbi := { sync := true, train := 1, op := 3, ctx := 0, lo := 0, hi := 0, begun := false, mark := 0 }
    let j : Job := { order := 1, core := 0, wheel := none, ctx := 0, priv := false, kind := .tile 1, node := none, started := false, held := false,
                     reads := [], writes := [], sectors := [], clobber := [] }
    let x : Instr := .tloop none 2 0 1 (ss 4)
    let y : Instr := .rbind none (sc 3) (ss 4)
    let s := { rig x with tlbis := [sync] }
    let t := { rig y with jobs := (List.range 64).map fun k => (k, j) }
    (begins s x = true ∧ ¬AcqDone s (issOf s x)) ∧ begins t y = true ∧ checkerFull t (t.coreOf (issOf t y).t) = true := by
  refine ⟨⟨by decide, fun h => absurd h.2.2.2 (by decide)⟩, by decide, by decide⟩

/-- A barrier address of 8, one past the allotment, no arrivals, a ring of 4, a tile past the budget. -/
theorem witness_EngineIssue_traps :
    callTrap (rigWith (.tbexp none (ss 4) (sc 1)) (sregs [(4, 8)])) (issOf (rigWith (.tbexp none (ss 4) (sc 1)) (sregs [(4, 8)])) (.tbexp none (ss 4) (sc 1)))
      (.tbexp none (ss 4) (sc 1)) = some (0x04, none) ∧
    callTrap (rigWith (.tbexp none (ss 4) (sc 1)) (sregs [(4, 0x80000)])) (issOf (rigWith (.tbexp none (ss 4) (sc 1)) (sregs [(4, 0x80000)])) (.tbexp none (ss 4) (sc 1)))
      (.tbexp none (ss 4) (sc 1)) = some (0x06, none) ∧
    callTrap (rig (.tbinit none false (ss 4) (sc 0))) (issOf (rig (.tbinit none false (ss 4) (sc 0))) (.tbinit none false (ss 4) (sc 0)))
      (.tbinit none false (ss 4) (sc 0)) = some (0x03, none) ∧
    callTrap (rig (.rbind none (sc 4) (ss 4))) (issOf (rig (.rbind none (sc 4) (ss 4))) (.rbind none (sc 4) (ss 4))) (.rbind none (sc 4) (ss 4))
      = some (0x03, none) := by decide

/-- Sixteen entries in the matrix queue. -/
theorem witness_EngineIssue_full :
    let e : EngineOp := { id := 1, train := 1, instr := .tzero none 1, held := false, step := 0, pos := 0, words := []
                          cap := ⟨0, 0, perLane fun _ => 0, perLane fun _ => 0, perLane fun _ => 0, perLane fun _ => 0⟩ }
    let s := { rig (.tzero none 1) with matrix := (List.range 16).map fun k => (k, e) }
    begins s (.tzero none 1) = true ∧ (mxQueue s 0 0).length = 16 := by decide

def copyForms : List Instr := [.cpy none (some (ss 10)) (ss 2) (ss 4) (ss 6), .cpym none none (ss 2) (ss 4) (ss 6), .cpt none none (ss 2) (ss 4) (ss 6),
  .cpg none (some (ss 8)) (ss 2) (ss 4) (ss 6)]

theorem witness_JobIssue_copies : ∀ i ∈ copyForms,
    begins (rig i) i = true ∧ (issOf (rig i) i).t.inTx = false ∧ (copyTable i).isSome = true ∧
      AMap.get? (rig i).wheels (issOf (rig i) i).t.wheel = some placeWheel ∧ placeWheel.colls.length < 4 ∧
      checkerFull (rig i) placeWheel.core = false := by decide

/-- A barrier at 0, and one at 1. -/
theorem witness_JobIssue_barriers : let i : Instr := .cpg none (some (ss 8)) (ss 2) (ss 4) (ss 6)
    barTrap (rig i) (issOf (rig i) i) (ss 8) = none ∧
      barTrap (rigWith i (sregs [(8, 1)])) (issOf (rigWith i (sregs [(8, 1)])) i) (ss 8) = some (0x04, none) := by decide

def tileJobs : List Instr := [.tld none 1 ⟨false, ss 4⟩ (.data (ss 6)), .tst none 1 ⟨true, ss 4⟩ (.sc (ss 6)), .tld none 1 ⟨true, ss 4⟩ .ts,
  .tdrain none ⟨true, ss 4⟩ true true 1 (ss 6)]

theorem witness_JobIssue_tiles : ∀ i ∈ tileJobs, begins (rig i) i = true ∧ (issOf (rig i) i).t.inTx = false ∧
    (tileJobTable (issOf (rig i) i) i).isSome = true ∧ callTrap (rig i) (issOf (rig i) i) i = none := by decide

/-- 64 jobs fill the checker; the fifth collective waits. -/
theorem witness_JobIssue_full :
    let j : Job := { order := 1, core := 0, wheel := none, ctx := 0, priv := false, kind := .tile 1, node := none, started := false, held := false,
                     reads := [], writes := [], sectors := [], clobber := [] }
    checkerFull { rig (.nop al) with jobs := (List.range 64).map fun k => (k, j) } 0 = true ∧
      4 ≤ ({ placeWheel with colls := [⟨0, []⟩, ⟨1, []⟩, ⟨2, []⟩, ⟨3, []⟩] } : Wheel).colls.length := by decide

/-- A range that ends with the store, one that passes its end, one of nothing, an address that is no multiple of 128, trap mode. -/
theorem witness_JobIssue_wsld : let i : Instr := .wsld none (ss 2) (ss 4) (ss 6)
    let f (w a n : Word) : Train → Train := sregs [(2, w), (4, a), (6, n)]
    begins (rigWith i (f 0x3FFFF 0x80 1)) i = true ∧ begins (rigWith i (f 0x3FFFF 0x80 2)) i = true ∧
      begins (rigWith i (f 0 0x80 0)) i = true ∧ begins (rigWith i (f 0 0x40 1)) i = true ∧ begins (rigWith i fun t => { t with trap := { t.trap with tm := true } }) i = true := by decide

/-! ## The instructions that wait -/

def tbAt (phase : Nat) : Bytes := Bytes.write [] 0x100 16 (⟨0, 0, 1, 1, phase⟩ : TBar).toNat

theorem witness_EngineWaits_tbwait : let i : Instr := .tbwait none (ss 4) (sc 1)
    (∀ p ∈ [0, 1, 15], begins (rigL i (at_ 0x100) (tbAt p) 1) i = true) ∧
      ∀ b ∈ [false, true], begins (rigL i (fun t => waiting b (.tb 0x100 1) (at_ 0x100 t)) (tbAt 1) 1) i = true := by decide

theorem witness_EngineWaits_yieldc : let i : Instr := .yieldc al 4 1
    (∀ k ∈ [none, some 1], begins (rigL i (fun t => { at_ 0x100 t with keptPhase := k }) (tbAt 1) 1) i = true ∧
      Holds (issOf (rigL i (fun t => { at_ 0x100 t with keptPhase := k }) (tbAt 1) 1) i)) ∧
      begins (rigL i (bracket 3) (tbAt 1) 1) i = true ∧ begins (rig (.yieldc 0 4 1)) (.yieldc 0 4 1) = true ∧
      hasOps (rig i).stream 1 = false := by decide

def someLayout : Layout :=
  { base := 0, ndim := 1, esize := 4, oob := 0, loc := false, owned := false, size := [8, 1, 1, 1], stride := [4, 0, 0, 0], tile := [4, 1, 1, 1],
    owners := 0, peers := 1 }
def someRing (slots : List SlotState) (next : Nat) : WRing :=
  { lay := someLayout, slotBase := 0, slotBytes := 16, drain := false, org := [0, 0, 0, 0], count := [2, 1, 1, 1], slots := slots, todo := [], next := next, by_ := 1,
    addr := 0x10008 }
def withRing (s : State) (g : WRing) : State :=
  { s with wheels := [(1, { placeWheel with rings := ⟨#[some g, none, none, none], rfl⟩ })] }

/-- A tile that is ready, one that is not, none left, and no ring. -/
theorem witness_EngineWaits_racq : let i : Instr := .racq none (ds 8) (sc 0)
    let s := rig i
    begins s i = true ∧ (issOf s i).t.inTx = false ∧ hasOps s.stream (issOf s i).id = false ∧ ((issOf s i).x0 (sc 0)).toNat = 0 ∧
      begins (withRing s (someRing [.ready 0, .free] 0)) i = true ∧ begins (withRing s (someRing [.filling 0, .free] 0)) i = true ∧
      begins (withRing s (someRing [.free, .free] 2)) i = true := by decide

/-- The last tile of the budget and the first past it; a class X instruction under way. -/
theorem witness_EngineWaits_twait : begins (rig (.twait none none)) (.twait none none) = true ∧
    begins (rig (.twait none (some 7))) (.twait none (some 7)) = true ∧ tilesOf (rig (.nop al)) (rigTrain .X 0) = 8 ∧
    begins (rigL (.twait none (some 7)) (fun t => { t with inflight := [⟨5, 0x10000, none, [], [7], false⟩] }) [] 1) (.twait none (some 7)) = true := by
  decide

/-- Inside a refresh window and outside every window of the bank; a gap that exists, and one that does not. -/
theorem witness_EngineWaits_wsync : let i : Instr := .wsync none (ss 4) (ss 6)
    let s (ns : Nat) := { rigWith i (sregs [(4, 1), (6, 100)]) with mg := { Mg.reset with svc := 4, refreshNs := ns } }
    begins (s 0) i = true ∧ gapExists 3300 1 100 = true ∧ gapExists 3300 1 0xFFFFFFFF = false ∧ begins (s 500) i = true ∧
      bankPhase 500 0 = 500 ∧ bankPhase 0 0 = 0 := by decide

/-! ## Class Y -/

def aGeo : Geo := { root := 0x10000, gid := 1, gen := 1, quant := 0, predict := false }
def withGeo (s : State) : State :=
  { s with wheels := [(1, { placeWheel with geos := ⟨#[some aGeo, none, none, none], rfl⟩ })] }

def aQuery (kind : RayKind) (l : RayLane) (opened : Bool) : RayQuery :=
  { op := 5, kind := kind, geo := 0, bind := aGeo, mask := perLane fun _ => 0xFF, rays := perLane fun _ => List.replicate 8 0,
    lanes := perLane fun L => if L = 0 then l else .outside, rejected := perLane fun _ => [], cand := perLane fun _ => 0,
    best := perLane fun _ => none, looked := 0, tp := perLane fun _ => none, waits := [], opened := opened, held := false }
def aHit : Hit := { t := 0x3F800000, inst := 1, prim := 2, instVa := 0x10000, triVa := 0x10100, u := 0, v := 0, opaqueHit := false, leaf := 3 }
def asking (kind : RayKind) (l : RayLane) (opened : Bool) (t : Train) : Train := { t with ray := some (aQuery kind l opened) }

def queryForms : List Instr := [.rycl al none 0 (.v 8) (ss 3), .ryany al 0 (.v 8) (ss 3), .ryocc al (some 1) 0 (.v 8) (ss 3)]

/-- Bound and not; with an open query; with no lane. -/
theorem witness_RayInstructions_start : ∀ i ∈ queryForms,
    begins (withGeo (rig i)) i = true ∧ (issOf (withGeo (rig i)) i).t.queryOpen = false ∧ (issOf (withGeo (rig i)) i).act ≠ 0 ∧
      begins (rig i) i = true ∧ begins (rigWith i (asking .any .busy true)) i = true ∧
      (issOf (rigWith i (asking .any .busy true)) i).t.queryOpen = true ∧
      begins (withGeo (rigWith i fun t => { t with em := 0 })) i = true := by decide

theorem witness_RayInstructions_fresh : FreshFor (withGeo (rig (.nop al))) (rigTrain .Y 0) := nofun

/-- A pending candidate, a query of another kind, one that is closed, and none. -/
theorem witness_RayInstructions_ryacc : let i : Instr := .ryacc al none 1
    begins (rigWith i (asking .any (.pending aHit) true)) i = true ∧ begins (rigWith i (asking .closest .busy true)) i = true ∧
      begins (rigWith i (asking .any (.pending aHit) false)) i = true ∧ begins (rig i) i = true ∧
      (issOf (rigWith i (asking .any (.pending aHit) true)) i).t.Ok := ⟨by decide, by decide, by decide, by decide, Train.norm_ok _⟩

/-- Lanes that have settled and one that is busy. -/
theorem witness_RayInstructions_waits : ∀ i ∈ [Instr.ryres al none .t (dv 8), .rywait none (dp 1)],
    ∀ l ∈ [RayLane.busy, .pending aHit, .done (some aHit) 1], begins (rigWith i (asking .any l true)) i = true ∧ begins (rig i) i = true := by
  decide

theorem witness_RayInstructions_settled : LanesSettled (aQuery .any (.pending aHit) true) 0xFFFFFFFF ∧
    ¬LanesSettled (aQuery .any .busy true) 0xFFFFFFFF := by
  constructor
  · unfold LanesSettled
    decide
  · exact fun h => absurd (h 0 (by decide) (by decide)) (by decide)

/-- A store behind a `rywait` that waits, and the same query with no wait. -/
theorem witness_GlobalStores_query :
    let i : Instr := .st al none .w32 true .stream atS4 (sv 8)
    let s (w : List RayWait) : State := rigWith i fun t => { at_ 0x10000 t with ray := some { aQuery .any .busy true with waits := w } }
    (begins (s [⟨5, 0, .pred (dp 1)⟩]) i = true ∧ (issOf (s [⟨5, 0, .pred (dp 1)⟩]) i).t.queryFirst (s []).nextId = true) ∧
      begins (s []) i = true ∧ (issOf (s []) i).t.queryFirst (s []).nextId = false := by decide

/-- The last counter and one past it. -/
theorem witness_RayInstructions_rypst : ∀ c ∈ [4, 5], begins (rig (.rypst none (ds 8) (sc c))) (.rypst none (ds 8) (sc c)) = true ∧
    ((issOf (rig (.rypst none (ds 8) (sc c))) (.rypst none (ds 8) (sc c))).x0 (sc c)).toNat = c ∧
    ((rig (.rypst none (ds 8) (sc c))).ctx 0).hptCounts.toList[dieOf 0]? = some (Vector.replicate 5 0) ∧
    AcqDone (rig (.rypst none (ds 8) (sc c))) (issOf (rig (.rypst none (ds 8) (sc c))) (.rypst none (ds 8) (sc c))) := by
  unfold AcqDone
  decide

/-! ## Class G -/

/-- Ring k of context 0, enabled. -/
def aRing : Ring := { Ring.reset with ctl := 1, rec_ := ⟨0x10000, 0x10800, 0x10808, 0, 3, 2, 4⟩ }
def withRing64 (s : State) (k : Nat) : State := if h : k < 64 then { s with rings := s.rings.set k aRing h } else s

theorem witness_GraphInstructions_gkick : let i : Instr := .gkick none (ds 8) (ss 4) (ss 6)
    let s := withRing64 (rigWith i (sregs [(4, 63), (6, 8)])) 63
    begins s i = true ∧ (issOf s i).t.inTx = false ∧ Quiet s (issOf s i) ∧ FreshFor s (issOf s i).t ∧ ((issOf s i).x0 (ss 4)).toNat = 63 ∧
      RingFor s (issOf s i) 63 ∧ KickTakes (s.ring 63) 8 ∧ ¬KickTakes (s.ring 63) 9 ∧ ¬KickTakes (s.ring 63) 0 ∧ s.ringGone 63 = false :=
  ⟨by decide, by decide, ⟨by decide, by decide, by decide, by decide, by decide⟩, nofun, by decide, ⟨by decide, by decide⟩, by unfold KickTakes; decide,
    by unfold KickTakes; decide, by unfold KickTakes; decide, by decide⟩

/-- A ring that does not exist, and one that is not enabled. -/
theorem witness_GraphInstructions_rings : let i : Instr := .gkick none (ds 8) (ss 4) (ss 6)
    begins (rigWith i (sregs [(4, 64)])) i = true ∧ ((issOf (rigWith i (sregs [(4, 64)])) i).x0 (ss 4)).toNat = 64 ∧
      ¬RingFor (rig i) (issOf (rig i) i) 0 := by
  refine ⟨by decide, by decide, fun h => ?_⟩
  have := h.1
  revert this
  decide

/-- The page in the L3 table of a die. -/
def withL3 (s : State) (die : Nat) : State := { s with l3 := [(die, [placeTlb 0])] }

theorem at_lane {s : State} {core va pa : Nat} {kind : BitVec 3} (lo : va < 2 ^ 55) (f : tlbFind (s.l3Of (dieOf core)) (s.tagOf 0) va = some (placeTlb 0))
    (r : rightsOk true true true kind = true) (a : accessCause s false false (placeTlb 0) va = none) (p : (placeTlb 0).paOf va = pa)
    (m : s.region pa ≠ .mmio) : XlAt s core 0 false kind va pa :=
  ⟨lo, ⟨_, f, r, fun _ => rfl, a, p⟩, m⟩

theorem no_cause {s : State} {e : Tlb} {va : Nat} (p : e.paOf va = va) (g : s.region va = .gddr) (b : e.attr = .cached) (c : e.place = 1) :
    accessCause s false false e va = none := by
  unfold accessCause State.hostGone
  rw [p]
  dsimp only
  rw [g, b, c]
  rfl

/-- Any byte of the page. -/
theorem at_page {s : State} {core va : Nat} {kind : BitVec 3} (l : s.l3Of (dieOf core) = [placeTlb 0]) (t : s.tagOf 0 = 0)
    (d : s.reduced = false) (r : rightsOk true true true kind = true) (lo : 0x10000 ≤ va) (hi : va < 0x20000) :
    XlAt s core 0 false kind va va := by
  have p : (placeTlb 0).paOf va = va := by
    simp only [Tlb.paOf, placeTlb, placeAt]
    omega
  have g : s.region va = .gddr := by
    unfold State.region regionOf
    rw [d]
    simp only [Bool.false_eq_true, if_false]
    rw [if_pos (by omega)]
  refine ⟨by omega, ⟨placeTlb 0, ?_, r, fun _ => rfl, ?_, p⟩, by rw [g]; decide⟩
  · rw [l, t]
    have : (placeTlb 0).covers 0 va = true := by
      simp only [Tlb.covers, Tlb.size, placeTlb, placeAt, Bool.false_eq_true, if_false, beq_self_eq_true, Bool.true_and, beq_iff_eq]
      omega
    unfold tlbFind
    exact List.find?_cons_of_pos this
  · exact no_cause p g rfl rfl

/-- A record in the page, WIDX and the slot in it too, apart; the ring is empty. -/
theorem witness_GraphInstructions_gsub : let i : Instr := .gsub none (ds 8) (sc 1) (ss 4)
    let s := withL3 (withRing64 (rigWith i (sregs [(4, 0x11000)])) 1) 0
    begins s i = true ∧ Quiet s (issOf s i) ∧ RingFor s (issOf s i) 1 ∧ ((issOf s i).d0 (ss 4)).toNat = 0x11000 ∧ s.locks = [] ∧
      (∀ a n, Clear s (issOf s i).t a n) ∧ KeysRise s.trains ∧ UnitRange s (issOf s i) kRead 0x10800 0x10800 8 ∧ UnitRange s (issOf s i) kWrite 0x10800 0x10800 8 ∧
      UnitRange s (issOf s i) kWrite 0x10000 0x10000 128 ∧ UnitRange s (issOf s i) kRead 0x11000 0x11000 124 ∧
      Apart 0x10800 8 0x10000 128 ∧ Apart 0x10800 8 0x11000 124 ∧ Apart 0x10000 128 0x11000 124 := by
  refine ⟨by decide, ⟨by decide, by decide, by decide, by decide, by decide⟩, ⟨by decide, by decide⟩, by decide, by decide, nofun, by unfold KeysRise; decide, ?_, ?_, ?_, ?_,
    by unfold Apart; decide, by unfold Apart; decide, by unfold Apart; decide⟩ <;> intro j hj
  all_goals refine at_lane ?_ ?_ ?_ ?_ ?_ ?_ <;> (revert j; decide)

theorem witness_GraphInstructions_tokens : let i : Instr := .gsig none true (ss 4) (ss 6)
    let j : Instr := .gwait none (ss 4) (ss 6)
    let s := withL3 (rigWith i (sregs [(4, 0x10008), (6, 1)])) 0
    let t := withL3 (rigWith j (sregs [(4, 0x10008), (6, 1)])) 0
    begins s i = true ∧ Quiet s (issOf s i) ∧ UnitAt s (issOf s i) kWrite 0x10008 0x10008 ∧ lockedBytes s.locks 0x10008 8 = false ∧
      Clear s (issOf s i).t 0x10008 8 ∧ begins t j = true ∧ (issOf t j).t.wait = none ∧ AcqDone t (issOf t j) ∧ UnitAt t (issOf t j) kRead 0x10008 0x10008 ∧ (issOf t j).t.Ok ∧
      begins (rigWith i (sregs [(4, 0x10004)])) i = true ∧ begins (rigWith j (waiting true (.token 0x10008 0x10008 1))) j = true :=
  ⟨by decide, ⟨by decide, by decide, by decide, by decide, by decide⟩,
    at_lane (by decide) (by decide) (by decide) (by decide) (by decide) (by decide), by decide,
    nofun, by decide, by decide, by unfold AcqDone; decide, at_lane (by decide) (by decide) (by decide) (by decide) (by decide) (by decide), Train.norm_ok _, by decide, by decide⟩

/-- A write of the core on the token's bytes, and a ring whose host is gone. -/
theorem witness_GraphInstructions_waits : let i : Instr := .gsig none true (ss 4) (ss 6)
    let s := rigWith i (sregs [(4, 0x10008), (6, 1)])
    let t := { s with cores := [(0, { s.core 0 with writes := [{ oneWrite .store 8 with train := 2, acc := [⟨0, 0x10008, 0x10008, 1, 0, .cached, .near⟩] }] })] }
    begins t i = true ∧ Quiet t (issOf t i) ∧ ¬Clear t (issOf t i).t 0x10008 8 := by
  refine ⟨by decide, ⟨by decide, by decide, by decide, by decide, by decide⟩, fun h => ?_⟩
  exact absurd (h _ (List.mem_singleton.2 rfl) 0 (by decide)) (by decide)

/-- A node of context 0. -/
def aNode (order : Nat) (state : NodeState) (hold : Bool) : Node :=
  { ring := 1, ctx := 0, order := order, kind := 6, prio := 1, serial := false, hold := hold, idempotent := true, arg0 := 0x10010, arg1 := 7,
    token := 0, tokval := 0, fps := [], edges := [], state := state, cause := 0, trappc := 0, se := false, replays := 0, jobs := [], todo := [], core := 0,
    cost := 1, held := false, refused := false, signalled := false, wts := 0 }

/-- Each answer of `gdep`. -/
theorem witness_GraphInstructions_gdep : let i : Instr := .gdep none (ds 8) (ss 4) (ss 6)
    begins (rig i) i = true ∧ AcqDone (rig i) (issOf (rig i) i) ∧
      DepResult 0 none (aNode 2 .waiting true) 0 { aNode 2 .waiting true with hold := false } ∧
      DepResult 1 (some (aNode 1 .started false)) (aNode 2 .waiting true) 0 { aNode 2 .waiting true with edges := [1] } ∧
      DepResult 1 (some (aNode 1 .complete false)) (aNode 2 .waiting true) 1 { aNode 2 .waiting true with wts := max 0 0 } ∧
      DepResult 1 (some (aNode 1 .failed false)) (aNode 2 .waiting true) 3 { aNode 2 .waiting true with cause := 0x26 } :=
  ⟨by decide, by unfold AcqDone; decide, .unhold rfl rfl rfl rfl, .edge (by decide) rfl (.inl rfl) (by decide) ⟨rfl, rfl, .inl rfl⟩, .done (by decide) rfl rfl,
    .failed (by decide) rfl (.inl rfl) ⟨rfl, rfl, .inl rfl⟩⟩

/-- A completed `a` and a `b` that is not known. -/
theorem witness_GraphInstructions_early : let i : Instr := .gdep none (ds 8) (ss 4) (ss 6)
    let s := { rigWith i (sregs [(4, 1), (6, 9)]) with nodes := [(1, aNode 1 .complete false)] }
    begins s i = true ∧ AcqDone s (issOf s i) ∧ (issOf s i).d0 (ss 4) = 1 ∧ (issOf s i).d0 (ss 6) = 9 ∧ AMap.get? s.nodes 9 = none ∧
      ∃ z, (AMap.get? s.nodes 1).filter (fun n => n.ctx == s.ctxOf (issOf s i).t) = some z ∧ z.state = .complete :=
  ⟨by decide, by unfold AcqDone; decide, by decide, by decide, by decide, _, rfl, rfl⟩

end Sys2Proof.Tests
end

