-- ==== Sys2Proof/Tests/WitnessU.lean ====
section
/-! SUPPORT. Witnesses for the statements about the work at the units, the management registers, translation, the schedule and time. -/

namespace Sys2Proof.Tests
open Sys2Proof.Machine

theorem keys_one {α : Type} (k : Nat) (x : α) : KeysRise [(k, x)] := by
  unfold KeysRise
  simp

theorem keys_nil {α : Type} : KeysRise ([] : AMap α) := by
  unfold KeysRise
  simp

theorem get_one {α : Type} {k j : Nat} {x y : α} (h : AMap.get? [(k, x)] j = some y) : k = j ∧ x = y := by
  unfold AMap.get? at h
  split at h
  · exact ⟨‹_›, by simpa using h⟩
  · simp [AMap.get?] at h

/-! ## Work at the engines -/

/-- An operation that captured two 32-bit operands. -/
def anOp (i : Instr) (a b : DWord) : EngineOp :=
  { id := 5, train := 1, instr := i, held := false, step := 0, pos := 0, words := []
    cap := { act := 1, em := 1, a := perLane fun _ => a, b := perLane fun _ => b, c := perLane fun _ => 0, x := perLane fun _ => 0 } }

/-- A train whose one instruction under way is that operation. -/
def underWay (t : Train) : Train := { lane0 t with inflight := [⟨5, 0x10000, none, [], [], false⟩] }

def rigStream (i : Instr) (a b : DWord) (l : Bytes) : State :=
  { rigL (.nop al) underWay l 1 with stream := [(5, anOp i a b)] }

theorem head_one {s : State} {q : AMap EngineOp} {e : EngineOp} {x : Train} {wh : Wheel} (hq : q = [(5, e)]) (i : e.id = 5)
    (kw : KeysRise s.wheels) (ht : AMap.get? s.trains e.train = some x) (hw : AMap.get? s.wheels x.wheel = some wh) (hh : e.held = false)
    (hr : (s.ctx (s.ctxOf x)).stopped = false) (hf : x.fifo = []) (hc : (s.core (s.coreOf x)).writes = [])
    (hl : x.loads = []) (hy : s.tlbis = []) : OpHead s q 5 e x wh := by
  subst hq
  refine ⟨by simp [AMap.get?], i, ⟨keys_one _ _, kw⟩, fun k f h _ => ?_, ht, hw, hh, hr, ?_, ?_, ?_, ?_⟩
  · exact le_of_eq (get_one h).1
  · rw [hf]; simp
  · rw [hc]; simp
  · rw [hl]; simp
  · rw [hy]; simp

/-- A barrier all of whose arrivals have come, with one sector expected. -/
def flipping : Bytes := Bytes.write [] 0x100 16 (⟨0, 0xFFFFFFFF, 2, 0, 3⟩ : TBar).toNat

/-- A fresh place, the same count again, another count; an arrival before the last and the last one. -/
theorem witness_StreamWork : ∀ p ∈ [(Instr.tbinit none false (ss 4) (ss 6), ([] : Bytes)), (.tbinit none false (ss 4) (ss 6), tbAt 1),
      (.tbexp none (ss 4) (ss 6), tbAt 1), (.tbexp none (ss 4) (ss 6), flipping), (.tbarr none (ds 8) (ss 4) (ss 6), tbAt 15), (.srd none (.phase (ss 4)) (ds 8), tbAt 1)], ∃ x wh,
    OpHead (rigStream p.1 0x100 1 p.2) (rigStream p.1 0x100 1 p.2).stream 5 (anOp p.1 0x100 1) x wh ∧ x.queryFirst 5 = false ∧ x.Ok ∧ KeysRise (rigStream p.1 0x100 1 p.2).trains :=
  fun _ _ => ⟨_, _, head_one rfl rfl (keys_one _ _) rfl rfl rfl rfl rfl rfl rfl rfl, rfl, Train.norm_ok _, keys_one _ _⟩

theorem witness_StreamWork_words : (tbarAt [] 0x100).reset = 0 ∧ (tbarAt (tbAt 1) 0x100).reset = 1 ∧ (tbarAt (tbAt 15) 0x100).arr = 1 ∧
    (tbarAt (tbAt 15) 0x100).pend = 0 ∧ (tbarAt (Bytes.write [] 0x100 16 (⟨0, 4, 2, 2, 0⟩ : TBar).toNat) 0x100).arr = 2 ∧
    (tbarAt flipping 0x100).arr = 0 ∧ ((tbarAt flipping 0x100).pend + 1) % 2 ^ 32 = 0 := by decide

def aJob (kind : JobKind) (started : Bool) (sectors : List Sector) : Job :=
  { order := 5, core := 0, wheel := some 1, ctx := 0, priv := false, kind := kind, node := none, started := started, held := false, reads := [],
    writes := [], sectors := sectors, clobber := [] }

theorem witness_StreamWork_weights : let s := { rigWith (.nop al) underWay with jobs := [(6, aJob (.weights 1 5 0 0x10000 65536 0) false [])] }
    AMap.get? s.stream 6 = none ∧ ctxRuns s 0 = true ∧ engineMay s 1 5 = true ∧ s.reduced = false ∧
      rangeBound { s with dispatches := [] } (0 / 65536) (65536 / 65536) = false ∧ rangeBound s 0 1 = true := by decide

/-- A sector of one byte of a constant, with another sector of its job still to come. -/
def aSector : Sector := { space := .loc, slice := 0, bytes := [(0x200, .imm 7)] }

theorem witness_StreamWork_sector : let s := { rigL (.nop al) underWay [] 1 with jobs := [(6, aJob (.tile 5) true [aSector, aSector])] }
    AMap.get? s.wheels 1 = some placeWheel ∧ (aJob (.tile 5) true [aSector, aSector]).sectors[0]? = some aSector ∧
      (∀ b ∈ aSector.bytes, plainByte placeWheel.local_ b.2 = some 7) ∧ (aSector.bytes.map (·.1)).Nodup ∧ (s.ctx 0).stopped = false := by decide

theorem witness_StreamWork_barrier : 1 < (tbarAt (Bytes.write [] 0x100 16 (⟨0, 2, 1, 1, 0⟩ : TBar).toNat) 0x100).pend := by decide

/-- The last sector of a copy, and the last that its barrier expects; the barrier's bytes are not among it. -/
theorem witness_StreamWork_flip : let l := Bytes.write [] 0x100 16 (⟨0, 1, 1, 0, 0⟩ : TBar).toNat
    let s := { rigL (.nop al) underWay l 1 with jobs := [(6, aJob (.copy (some 0x100) []) true [aSector])] }
    (∃ wh, AMap.get? s.wheels 1 = some wh ∧ wh.local_ = l ∧ ∀ b ∈ aSector.bytes, plainByte wh.local_ b.2 = some 7) ∧
      (aJob (.copy (some 0x100) []) true [aSector]).sectors[0]? = some aSector ∧ (∀ b ∈ aSector.bytes, b.1 < 0x100 ∨ 0x100 + 16 ≤ b.1) ∧
      (tbarAt l 0x100).pend = 1 ∧ (tbarAt l 0x100).arr = 0 ∧ KeysRise s.trains :=
  ⟨⟨_, rfl, rfl, by decide⟩, rfl, by decide, by decide, by decide, keys_one _ _⟩

/-- The bytes of the page, to the last 65,536 of the range and before them. -/
theorem witness_StreamWork_store : ∀ m ∈ [0, 65536], ∃ x,
    let s := withL3 { rigWith (.nop al) underWay with jobs := [(6, aJob (.weights 1 5 0 (0x10000 - m) 131072 m) true [])] } 0
    AMap.get? s.jobs 6 = some (aJob (.weights 1 5 0 (0x10000 - m) 131072 m) true []) ∧ AMap.get? s.trains 1 = some x ∧ 6 < s.nextId ∧
      (s.ctx 0).stopped = false ∧ ∀ i, i < 65536 → XlAt s 0 0 false kRead (0x10000 - m + m + i) (0x10000 + i) := by
  intro m hm
  have e : 0x10000 - m + m = 0x10000 := by
    simp only [List.mem_cons, List.not_mem_nil, or_false] at hm
    omega
  refine ⟨_, rfl, rfl, show 6 < 8 by decide, rfl, fun i h => ?_⟩
  rw [e]
  exact at_page rfl rfl rfl rfl (by omega) (by omega)

/-! ## The matrix engine -/

/-- FP32 in slot 0: D accumulates 1 × 1, A is a row of one element, B the same in the other layout. -/
def ctl (acc lay : Bool) : Word := 0x100000 + (if acc then 0x80000 else 0) + (if lay then 0x40000 else 0)
def ctlTile (c : Word) : Tile := { Tile.reset with control := c }
def mxWheel : Wheel := { placeWheel with tiles := ⟨#[ctlTile (ctl false false), ctlTile (ctl false true), ctlTile (ctl true false), Tile.reset,
  Tile.reset, Tile.reset, Tile.reset, Tile.reset], rfl⟩ }
def rigMatrix (e : EngineOp) : State :=
  { rigWith (.nop al) underWay with wheels := [(1, mxWheel)], matrix := [(5, e)] }

def matrixOps : List Instr := [.tcfg none 7 (ss 4), .tzero none 0, .tfill none 7 (ss 4), .tmma none 2 0 1, .tmmb none 3 0 1, .wsinfo none (ds 8) (sc 63),
  .tloop none 2 0 1 (ss 4)]

theorem witness_MatrixWork : ∀ i ∈ matrixOps, ∃ x wh, mxHead (rigMatrix (anOp i 63 0)) 0 0 = some (5, anOp i 63 0) ∧
    AMap.get? (rigMatrix (anOp i 63 0)).trains 1 = some x ∧ AMap.get? (rigMatrix (anOp i 63 0)).wheels x.wheel = some wh := by
  intro i hi
  refine ⟨_, _, ?_, rfl, rfl⟩
  revert i
  decide

/-- A control of a tile that holds nothing, and one of an accumulator of 32 columns. -/
theorem witness_MatrixWork_controls : ctlCfg 0 = false ∧ (0x187C00 : Word).extractLsb' 21 11 = 0 ∧ (0x187C00 : Word).extractLsb' 3 2 = 0 ∧
    ctlCfg 0x187C00 = true ∧ ctlAcc 0x187C00 = true ∧ ctlLayout 0x187C00 = false ∧ ctlSlot 0x187C00 = 0 ∧ ctlCols 0x187C00 = 32 ∧
    ctlCfg (tileOf mxWheel 3).control = false := by decide

theorem witness_MatrixWork_product : ∃ x fa fb, AMap.get? (rigMatrix (anOp (.tmma none 2 0 1) 0 0)).trains 1 = some x ∧
    MmOk (rigMatrix (anOp (.tmma none 2 0 1) 0 0)) x mxWheel 2 0 1 fa fb := by
  refine ⟨_, ⟨.f32, 0, .rne, false⟩, ⟨.f32, 0, .rne, false⟩, rfl, ?_⟩
  constructor <;> decide

/-- A loop of two steps of one word each way. -/
theorem witness_MatrixWork_loop :
    LoopOk { anOp (.tloop none 2 0 1 (ss 4)) 0x400 0 with words := [0, 0, 16, 0x200, 0, 16, 2, 0] } 524288 1 1 1 ⟨.f32, 0, .rne, false⟩ ⟨.f32, 0, .rne, false⟩ := by
  constructor <;> decide

/-- The boundaries of a step of one, and of FP32's largest step while the array is whole. -/
theorem witness_MatrixWork_bounds : NextBound .f32 false 1 0 1 ∧ NextBound .f32 false 32 0 16 ∧ NextBound .f32 false 32 16 32 ∧
    NextBound .f32 true 32 8 16 := by
  unfold NextBound
  decide

end Sys2Proof.Tests
end

