-- ==== Sys2Proof/Tests/WitnessP.lean ====
section
/-! SUPPORT. Witnesses for the statements about the management registers, translation, the schedule and time. -/

namespace Sys2Proof.Tests
open Sys2Proof.Machine

/-- Every byte of a range of the one page, for the service die. -/
theorem service_range {s : State} {kind : BitVec 3} {va n : Nat} (lo : va + n ≤ 2 ^ 55)
    (f : ∀ j, j < n → tlbFind (s.l3Of (dieOf 800)) (s.tagOf 0) (va + j) = some (placeTlb 0)) (r : rightsOk true true true kind = true)
    (a : ∀ j, j < n → accessCause s false false (placeTlb 0) (va + j) = none) (p : ∀ j, j < n → (placeTlb 0).paOf (va + j) = va + j)
    (m : ∀ j, j < n → s.region (va + j) ≠ .mmio) : ServiceRange s 0 kind va va n :=
  fun j h => at_lane (by omega) (f j h) r (a j h) (p j h) (m j h)

/-! ## Registers of the management space -/

/-- A ring record at the start of the page. -/
def ringBytes : Bytes :=
  Bytes.write (Bytes.write (Bytes.write (Bytes.write (Bytes.write (Bytes.write [] 0x10000 8 0x10400) 0x10008 8 0x10800) 0x10010 8 0x10808)
    0x10020 1 3) 0x10021 1 7) 0x10022 2 1

def enabling (m : Bytes) : State :=
  let s := withL3 (rig (.nop al)) 4
  { s with mem := m, rings := s.rings.set 63 { Ring.reset with recVa := 0x10000, c := 5 } (by decide) }

theorem witness_RegisterWrites_ring : ((enabling ringBytes).ring 63).recVa.toNat % 64 = 0 ∧ ringEn ((enabling ringBytes).ring 63).ctl = false ∧
    (1 : Word).getLsbD 0 = true ∧ ringCtx 1 = 0 ∧ (enabling ringBytes).mg.svc ≠ 5 ∧ RingRecOk ringBytes 0x10000 ∧
    ServiceRange (enabling ringBytes) 0 kRead 0x10000 0x10000 64 ∧ (ringRecAt ringBytes 0x10000).head = 0x10808 ∧
    ServiceRange (enabling ringBytes) 0 kWrite 0x10808 0x10808 8 ∧ lockedBytes (enabling ringBytes).locks 0x10808 8 = false := by
  refine ⟨by decide, by decide, by decide, by decide, by decide, ?_, ?_, by decide, ?_, by decide⟩
  · constructor <;> decide
  · exact service_range (by decide) (by decide) (by decide) (by decide) (by decide) (by decide)
  · exact service_range (by decide) (by decide) (by decide) (by decide) (by decide) (by decide)

/-- A HEAD word whose granule a bracket has locked, and a record that is misplaced. -/
theorem witness_RegisterWrites_locked : lockedBytes ([(0x10808, ⟨2, 0⟩)] : AMap Lock) 0x10808 8 = true ∧ (0x10020 : Nat) % 64 ≠ 0 := by decide

/-- LOG2N of 2 breaks the table, and so does a record of zeros. -/
theorem witness_RegisterWrites_badring : ¬RingRecOk (Bytes.write ringBytes 0x10020 1 2) 0x10000 ∧ ¬RingRecOk [] 0x10000 :=
  ⟨fun h => absurd h.sizes.1 (by decide), fun h => absurd h.sizes.1 (by decide)⟩

theorem witness_RegisterWrites_context : (rig (.nop al)).residentIn 0 = true ∧ State.reset.residentIn 15 = false ∧ KeysRise State.reset.hpt ∧
    KeysRise (rig (.nop al)).cores ∧ 0x0D ∈ blockNumbers ∧ 0x13 ∉ blockNumbers ∧ BlockLegal 0x16 65536 ∧ ¬BlockLegal 0x16 65537 := by
  refine ⟨by decide, by decide, keys_nil, keys_one _ _, by decide, by decide, ⟨by decide, by decide, by decide⟩, fun h => ?_⟩
  exact absurd (h.2.2 rfl) (by decide)

/-- A number that stands saved with no train resident, under a thermal stop and without one: the next write creates a context. -/
theorem witness_RegisterWrites_creates : ∀ h, let s := withCtx0 { State.reset with mg := { Mg.reset with hold := h } } fun c => { c with saved := true, replayHeld := true }
    s.residentIn 0 = false ∧ (s.ctx 0).saved = true ∧ (0x13 : Nat) ∉ blockNumbers ∧ KeysRise s.hpt ∧ BlockLegal 0x13 5 :=
  fun _ => ⟨rfl, rfl, by decide, keys_nil, by decide, by decide, by decide⟩

theorem witness_RegisterWrites_kicks : ringCrown Ring.reset.ctl = false ∧ ringEn aRing.ctl = true ∧ KickTakes aRing 8 ∧ ¬KickTakes aRing 9 ∧
    ringCrown (3 : Word) = true := by
  refine ⟨by decide, by decide, ?_, ?_, by decide⟩ <;> (unfold KickTakes; decide)

/-! ## Translation events -/

def aWalk (running : Bool) (kind : BitVec 3) : Walk :=
  { cluster := 0, die := 0, ctx := 0, page := 0x20000, born := 0, running := running, waiters := [⟨1, 1, kind, false, true, 0, 1, 0, 0⟩] }
def walking_ (w : Walk) : State := { rig (.nop al) with walks := [(6, w)] }

theorem witness_TranslationEvents_start : AMap.get? (walking_ (aWalk false 1)).walks 6 = some (aWalk false 1) ∧ KeysRise (walking_ (aWalk false 1)).walks ∧
    ∀ j x, AMap.get? (walking_ (aWalk false 1)).walks j = some x → x.die = (aWalk false 1).die → x.running = false → 6 ≤ j :=
  ⟨rfl, keys_one _ _, fun _ _ h _ _ => le_of_eq (get_one h).1⟩

/-- The walkers of a die are all busy, half of them for the context. -/
def busyWalks : AMap Walk :=
  (List.range 128).map (fun k => (k, aWalk true 1)) ++ (List.range 128).map fun k => (128 + k, { aWalk true 1 with ctx := 1 })

theorem witness_TranslationEvents_busy : (busyWalks.filter fun x => x.2.die == 0 && x.2.running).length = 256 ∧
    (busyWalks.filter fun x => x.2.die == 0 && x.2.running && x.2.ctx == 0).length = 128 := by
  constructor <;> decide +kernel

/-- A tree with one page. -/
def treeBytes : Bytes :=
  Bytes.write (Bytes.write (Bytes.write [] 0x100000 8 0x200001) 0x200000 8 0x300001) 0x300010 8 (2 ^ 52 + 0x2000F)

theorem witness_TranslationEvents_leaf : WalkMeets treeBytes 0x100000 0x20000 (.leaf ⟨0x300010, 2 ^ 52 + 0x2000F, false⟩) ∧
    LeafRights (2 ^ 52 + 0x2000F) kWrite := by
  constructor
  · refine WalkMeets.leaf (m := treeBytes) (root := 0x100000) (va := 0x20000) 2 (.inr rfl) ?_ ?_ ?_ ?_
    · intro j h
      have : j = 0 ∨ j = 1 := by omega
      rcases this with rfl | rfl <;> exact ⟨by unfold PteV; decide, by unfold PteLeaf; decide⟩
    · unfold PteV; decide
    · unfold PteLeaf; decide
    · exact ⟨by decide, by decide, fun _ => by unfold PteR; decide, fun h => by revert h; decide⟩
  · exact ⟨fun _ => by unfold PteR; decide, fun _ => by unfold PteW; decide, fun h => absurd h (by decide)⟩

/-- A reader and a writer of a page that may be read: one is served and one is not. -/
theorem witness_TranslationEvents_partly : let w := { aWalk true 2 with waiters := [⟨1, 1, kRead, false, true, 0, 1, 0, 0⟩, ⟨1, 2, kWrite, false, true, 0, 1, 0, 0⟩] }
    ∃ served : Waiter → Bool, (∀ y, served y = true ↔ y.kind = kExec ∨ LeafRights (2 ^ 52 + 0x20003) y.kind) ∧
      (∃ y ∈ w.waiters, served y = true) ∧ (∃ y ∈ w.waiters, served y = false) ∧
      ¬∃ y ∈ w.waiters, served y = true ∧ y.kind.getLsbD 1 = true := by
  intro w
  have a : LeafRights (2 ^ 52 + 0x20003) kRead :=
    ⟨fun _ => by unfold PteR; decide, fun h => absurd h (by decide), fun h => absurd h (by decide)⟩
  have b : ¬LeafRights (2 ^ 52 + 0x20003) kWrite := fun h => absurd (h.2.1 (by decide)) (by unfold PteW; decide)
  classical
  refine ⟨fun y => decide (y.kind = kExec ∨ LeafRights (2 ^ 52 + 0x20003) y.kind), fun y => decide_eq_true_iff, ?_, ?_, ?_⟩
  · exact ⟨_, List.mem_cons_self, decide_eq_true (.inr a)⟩
  · refine ⟨_, List.mem_cons_of_mem _ List.mem_cons_self, decide_eq_false ?_⟩
    rintro (h | h)
    · exact absurd h (by decide)
    · exact b h
  · rintro ⟨y, hy, h, k⟩
    simp only [w, List.mem_cons, List.not_mem_nil, or_false] at hy
    rcases hy with rfl | rfl
    · revert k; decide
    · rcases of_decide_eq_true h with h | h
      · exact absurd h (by decide)
      · exact b h

theorem witness_TranslationEvents_faults : WalkMeets [] 0x100000 0x20000 .absent_ ∧
    WalkMeets (Bytes.write [] 0x100000 8 (2 ^ 52 + 1)) 0x100000 0x20000 .malformed ∧ ¬LeafRights (2 ^ 52 + 0x20003) kWrite := by
  refine ⟨.absent 0 (by decide) (fun j h => by omega) (by unfold PteV; decide), .high (by unfold PteV; decide) (by unfold PteLeaf; decide), fun h => ?_⟩
  exact absurd (h.2.1 (by decide)) (by unfold PteW; decide)

theorem witness_TranslationEvents_complete : let s := walking_ (aWalk true 2)
    AMap.get? s.walks 6 = some (aWalk true 2) ∧ KeysRise s.trains ∧ KeysRise s.walks ∧ (aWalk true 2).page % 65536 = 0 ∧
      (aWalk true 2).waiters ≠ [] ∧ (⟨0, 0, 0x20000⟩ : Mark) ∉ s.marks ∧ NoEntry (s.ctx 0) 0x20000 := by
  refine ⟨rfl, keys_one _ _, keys_one _ _, by decide, by decide, by decide, fun j e h => ?_⟩
  have : ((walking_ (aWalk true 2)).ctx 0).fbTail - ((walking_ (aWalk true 2)).ctx 0).fbHead = 0 := by decide
  rw [this] at h
  exact absurd h (by simp)

def parked (t : Train) : Train :=
  { t with park := some {
      lanes := 1, resume := 0, faulted := true, atHeader := false, op := 0, pages := [0x20000], did := 0, conf := false } }

theorem witness_TranslationEvents_replay : let s := rigWith (.nop al) parked
    s.replayBusy 0 = false ∧ (s.ctx 0).saved = false ∧ KeysRise s.trains ∧ KeysRise s.jobs ∧ KeysRise s.nodes ∧
      (withCtx0 s fun c => { c with saved := true }).replayBusy 0 = false := by
  refine ⟨by decide, by decide, keys_one _ _, keys_nil, keys_nil, by decide⟩

def anEntry : ChimeEntry := { page := 0x20000, tag := 1, dies := 1, thresholds := 0xFFFFFFFF }
def chimed (slots : AMap ChimeEntry) (head tail : Word) : Chime :=
  { slots := slots, head := head, tail := tail, overflow := false, drops := 65535, coming := [(0, 1, 0x20000)] }

/-- The page stands there already; it does not; the ring is full. -/
theorem witness_TranslationEvents_chime : ChimeAt (chimed [(63, anEntry)] 63 64) 1 0x20000 63 anEntry ∧
    (chimed [(63, anEntry)] 63 64).coming = [] ++ (0, 1, 0x20000) :: [] ∧ (∀ i e, ¬ChimeAt (chimed [] 0 0) 1 0x20000 i e) ∧
    ((chimed [] 0 64).tail - (chimed [] 0 64).head).toNat = 64 := by
  refine ⟨⟨0, by decide, by decide, rfl, rfl, rfl, fun k f h => by omega⟩, rfl, fun i e h => ?_, by decide⟩
  obtain ⟨j, hj, -⟩ := h
  revert hj
  simp [chimed]

/-! ## The schedule -/

/-- A train at a header: the words of the worked clause of one `fadd`. -/
def placed (w : Nat) : State := State.reset.withFetchWord 128 w
def faddWords : Nat := 0x0A00C00D05002800 * 2 ^ 64

theorem may_place {s : State} {x : Train} (h : AMap.get? s.trains 1 = some x) (c : s.coreOf x = 0) (p : portAt (s.core 0) 1 ≠ some 1)
    (r : trainReady s 1 x = true) : MayTake s 0 0 1 := ⟨x, h, c, p, r⟩

theorem witness_PortChoices : ∃ x, AMap.get? (placed faddWords).trains 1 = some x ∧ x.Ok ∧ portAt ((placed faddWords).core 0) 0 = none ∧
    KeysRise (placed faddWords).trains ∧ MayTake (placed faddWords) 0 0 1 ∧ (∀ j, j ≠ 1 → ¬MayTake (placed faddWords) 0 0 j) ∧ x.clause = none ∧
    x.xl = [] ∧ x.resume = none ∧ Fetched (placed faddWords) x 0x10000 0 ∧ decodeHeader 0 = some ⟨.V, 0, 0, false, false, 0, 0⟩ ∧
    Fetched (placed faddWords) x 0x10008 0x0A00C00D05002800 ∧ x.inflight = [] ∧ Enters (placed faddWords) x := by
  refine ⟨_, rfl, Train.norm_ok _, by decide, keys_one _ _, may_place rfl (by decide) (by decide) (by decide), fun j h m => ?_, by decide, by decide,
    by decide, ⟨by decide, placeTlb 0, by decide, by decide, by decide, by decide⟩, by decide,
    ⟨by decide, placeTlb 0, by decide, by decide, by decide, by decide⟩, by decide, ⟨by decide, by decide, by decide⟩⟩
  obtain ⟨x, hx, -⟩ := m
  exact h (get_one hx).1.symm

def aTrap : Deferred := { order := 5, cause := 0x06, lanes := none, tval := 7, inTm := false, early := false, dests := [] }

/-- The same train resuming at its one word, with a deferred trap whose destination the word names and one that it does not. -/
theorem witness_PortChoices_resume : ∃ x, let s := { placed faddWords with trains := [(1, ({ Train.start 1 0 0x10000 1 with resume := some 0x10008 } : Train).norm)] }
    AMap.get? s.trains 1 = some x ∧ x.clause = none ∧ x.xl = [] ∧ x.resume = some (x.pc + BitVec.ofNat 64 (8 * (0 + 1))) ∧
      let c : Clause := { hdr := x.pc, word := 0, words := [0x0A00C00D05002800], idx := 0, latches := [], resumed := true }
      (Deferred.at_ { aTrap with dests := [.s 5] } c).early = true ∧ (Deferred.at_ { aTrap with dests := [.s 9], early := true } c).early = false :=
  ⟨_, rfl, rfl, rfl, by decide, by decide, by decide⟩

/-- The matrix queue of a train at a clause of `tzero` is full. -/
def queued : State :=
  { placed ((plainHeader .X 0).toNat + ((encode (.tzero none 0)).map fun x => x.2.toNat * 2 ^ 64).getD 0) with
    matrix := (List.range 16).map fun k => (k, anOp (.tzero none 0) 0 0) }

theorem witness_PortChoices_queue : ∃ x h w, AMap.get? queued.trains 1 = some x ∧ x.clause = none ∧ x.xl = [] ∧ x.resume = none ∧
    Fetched queued x x.pc.toNat (plainHeader .X 0) ∧ decodeHeader (plainHeader .X 0) = some h ∧ h.cls = .X ∧ h.count = 0 ∧
    Fetched queued x (x.pc.toNat + 8) w ∧ QueueHolds queued x h [w] ∧ ¬QueueHolds { queued with matrix := [] } x h [w] := by
  refine ⟨_, ⟨.X, 0, 0, false, false, 0, 0⟩, ((encode (.tzero none 0)).map (·.2)).getD 0, rfl, rfl, rfl, rfl,
    ⟨by decide, placeTlb 0, by decide, by decide, by decide, by decide⟩, by decide, rfl, rfl,
    ⟨by decide, placeTlb 0, by decide, by decide, by decide, by decide⟩,
    ⟨by decide, 0, .tzero none 0, by decide, by decide, by decide⟩, ?_⟩
  rintro ⟨-, k, i, hk, hd, hf⟩
  have hk0 : k = 0 := by simpa using hk
  subst hk0
  have e : decodeWord (wordClass ⟨.X, 0, 0, false, false, 0, 0⟩ 0).1 (wordClass ⟨.X, 0, 0, false, false, 0, 0⟩ 0).2
      ([((encode (.tzero none 0)).map (·.2)).getD 0].getD 0 0) = .ok (.tzero none 0) := by decide
  rw [e] at hd
  cases hd
  revert hf
  decide

/-- A header that no class has, and one of class Z outside privilege. -/
theorem witness_PortChoices_traps : decodeHeader 0xB000000000000000 = none ∧
    decodeHeader 0x8000000000000000 = some ⟨.Z, 0, 0, false, false, 0, 0⟩ ∧
    ({ placed (2 ^ 63) with dispatches := [(1, placeDispatch false)] }.privOf ((Train.start 1 0 0x10000 0xFFFFFFFF).norm)) = false := by decide

/-- The choice between two trains of a wheel, and a port that is busy. -/
theorem witness_PortChoices_rank : Outranks (placed faddWords) (Train.start 1 0 0x10000 0xFFFFFFFF) (Train.start 1 1 0x10000 0xFFFFFFFF) ∧
    portBusy (rig (.nop al)) (portAt ((rig (.nop al)).core 0) 0) = true ∧ portBusy (placed faddWords) (portAt ((placed faddWords).core 0) 0) = false := by
  refine ⟨?_, by decide, by decide⟩
  unfold Outranks
  decide

/-! ## Time and failures of hardware -/

theorem witness_TimedEvents_deferred : ∃ x, let s := { placed faddWords with trains := [(1, ({ Train.start 1 0 0x10000 1 with deferred := [aTrap] } : Train).norm)] }
    AMap.get? s.trains 1 = some x ∧ x.ending = false ∧ x.deferred = [aTrap] ∧ x.clause = none ∧ x.resume = none ∧ x.tx.ending = none ∧ Enters s x :=
  ⟨_, rfl, rfl, rfl, rfl, rfl, rfl, ⟨by decide, by decide, by decide⟩⟩

/-- An early trap, at the word that waits. -/
theorem witness_TimedEvents_early : ∃ x c, let s := rigWith (.nop al) fun t => { t with deferred := [{ aTrap with early := true }] }
    AMap.get? s.trains 1 = some x ∧ x.ending = false ∧ x.deferred = [{ aTrap with early := true }] ∧ x.clause = some c ∧ x.resume = none ∧ x.tx.ending = none ∧ Enters s x :=
  ⟨_, _, rfl, rfl, rfl, rfl, rfl, rfl, ⟨by decide, by decide, by decide⟩⟩

theorem witness_TimedEvents_ecc : ∃ x c, AMap.get? (rig (.nop al)).trains 1 = some x ∧ x.ending = false ∧ x.clause = some c ∧ Enters (rig (.nop al)) x :=
  ⟨_, _, rfl, rfl, rfl, ⟨by decide, by decide, by decide⟩⟩

def rigEsu (e : EngineOp) : State := { rigWith (.nop al) underWay with esu := [(5, e)] }

theorem witness_TimedEvents_eccop : ∃ x, let s := rigEsu (anOp (.enext none false (ds 8)) 0 0)
    AMap.get? s.trains 1 = some x ∧ AMap.get? s.jobs 5 = none ∧ AMap.get? s.esu 5 = some (anOp (.enext none false (ds 8)) 0 0) := ⟨_, rfl, rfl, rfl⟩

/-- A watched train that has waited as long as its limit. -/
def hanging : State :=
  let s := rigWith (.barw al none atS4b) fun t => { waiting false (.barrier 0x100) t with wait := some ⟨.barrier 0x100, false, 0x1000000⟩ }
  withCtx0 { s with dispatches := [(1, { placeDispatch false with launch := { placeLaunch false with watched := true } })] }
    fun c => { c with regulator := 0x1000000 }

theorem witness_TimedEvents_hang : ∃ x w, hanging.ctxOf x = 0 ∧ AMap.get? hanging.trains 1 = some x ∧ KeysRise hanging.trains ∧ Waits x w ∧ w.age < 2 ^ 64 ∧
    hangOf hanging x = some 0x1000000 ∧ 0x1000000 ≤ (hanging.ctx 0).regulator ∧ x.Ok ∧ Enters hanging x ∧
    hanging.locks = [] ∧ walkersBusy hanging (dieOf 800) 0 = false ∧ ∀ j y v, j ≠ 1 → AMap.get? hanging.trains j = some y → hanging.ctxOf y = 0 → hangOf hanging y ≠ none → Waits y v → v.age < w.age := by
  refine ⟨_, _, by decide, rfl, keys_one _ _, ⟨rfl, by decide⟩, by decide, by decide, by decide, Train.norm_ok _, ⟨by decide, by decide, by decide⟩,
    by decide, by decide, fun j y v h e => ?_⟩
  exact absurd (get_one e).1.symm h

theorem witness_TimedEvents_tenant : let s := { rigMatrix (anOp (.tzero none 0) 0 0) with cores := [(0, { Core.reset with split := true })] }
    (s.core 0).split = true ∧ KeysRise s.matrix ∧ KeysRise s.wheels ∧ OnMatrix s 0 0 (anOp (.tzero none 0) 0 0) :=
  ⟨rfl, keys_one _ _, keys_one _ _, ⟨_, rfl, by decide, by decide⟩⟩

theorem witness_TimedEvents_tick : KeysRise (rig (.nop al)).trains ∧ ∀ j x, AMap.get? (rig (.nop al)).trains j = some x → x.Ok :=
  ⟨keys_one _ _, train_ok rfl⟩

/-- Every train of the context waits. -/
theorem witness_TimedEvents_regulator : ∃ x w, AMap.get? hanging.trains 1 = some x ∧ hanging.ctxOf x = 0 ∧ hanging.coreOf x = 0 ∧ Waits x w :=
  ⟨_, _, rfl, by decide, by decide, ⟨rfl, rfl⟩⟩

end Sys2Proof.Tests
end

