-- ==== Sys2Proof/Tests/WitnessN.lean ====
section
/-! SUPPORT. Witnesses for the statements about wheels and contexts, the Remontoir, the package, entities and rays, and the machine as a whole. -/

namespace Sys2Proof.Tests
open Sys2Proof.Machine

/- One theorem at a time: kernel evaluations that wait for each other would each keep a thread. -/
section
set_option Elab.async false

def isOk {s : State} {α : Type} (m : M s α) : Bool :=
  match m ⟨s, .refl⟩ with
  | .ok _ => true
  | .error _ => false

theorem ok_of {s : State} {α : Type} {m : M s α} (h : isOk m = true) : ∃ a r, m ⟨s, .refl⟩ = .ok (a, r) := by
  unfold isOk at h
  split at h
  · rename_i x e
    exact ⟨x.1, x.2, e⟩
  · cases h

/-! ## Wheels, trains and contexts -/

/-- A dispatch of two wheels, neither started. -/
def launching (query : Bool) : Dispatch :=
  { placeDispatch false with started := [], wheels := 2, chunks := [0, 1], launch := { placeLaunch false with query := query, wheelsOrQuery := 0x10000 } }
def rigLaunch (query : Bool) : State :=
  let s := withL3 (rig (.nop al)) 4
  { s with dispatches := [(1, launching query)], wheels := [], trains := [] }

theorem admits (query : Bool) : Admits (rigLaunch query) (launching query) 0 0 := by
  cases query <;> exact ⟨by decide, ⟨by decide, by decide, .inr (fun i h => by omega)⟩, ⟨by decide, by decide +kernel, .inl (by decide)⟩, nofun,
    ⟨by decide, by decide, by decide⟩, .inr (fun v h => by cases h), ⟨fun _ => by decide +kernel, fun h => absurd (by decide +kernel) h⟩, nofun⟩

theorem witness_WheelsStartAndEnd_start : AMap.get? (rigLaunch false).dispatches 1 = some (launching false) ∧
    Admits (rigLaunch false) (launching false) 0 0 ∧ (launching false).launch.query = false ∧ (launching false).launch.trains ≤ 16 :=
  ⟨rfl, admits false, rfl, by decide⟩

/-- A query domain whose world is gone starts its wheels with no row. -/
theorem witness_WheelsStartAndEnd_query : ∃ a r, Admits (rigLaunch true) (launching true) 0 0 ∧ (launching true).launch.query = true ∧
    chunkStart (launching true).eu (launching true) ((launching true).chunks.getD 0 0) (⟨rigLaunch true, .refl⟩ : Run (rigLaunch true)) = .ok (a, r) := by
  have h : isOk (s := rigLaunch true) (chunkStart (launching true).eu (launching true) ((launching true).chunks.getD 0 0)) = true := by decide +kernel
  obtain ⟨a, r, e⟩ := ok_of h
  exact ⟨a, r, admits true, rfl, e⟩

/-- A train that is ending, drained, and the last of its wheel. -/
def ended (t : Train) : Train := { t with ending := true, live := 0, em := 0, clause := none }

theorem no_ring (k : Nat) : ringOf placeWheel k = none := by simp [ringOf, placeWheel]

theorem witness_WheelsStartAndEnd_end : ∃ x, let s := rigWith (.nop al) ended
    AMap.get? s.trains 1 = some x ∧ AMap.get? s.wheels x.wheel = some placeWheel ∧ AMap.get? s.dispatches 1 = some (placeDispatch false) ∧
      KeysRise s.trains ∧ x.ending = true ∧ Drained s 1 x ∧ x.tx.on = false ∧ x.tx.opened = 0 ∧ NoToken s 1 x ∧
      (∀ k j, (k, j) ∈ s.jobs → j.wheel ≠ some x.wheel) ∧ RingsRest s placeWheel ∧
      ∀ j y, AMap.get? s.trains j = some y → j ≠ 1 → y.wheel ≠ x.wheel := by
  refine ⟨_, rfl, rfl, rfl, keys_one _ _, rfl, ⟨⟨rfl, rfl, by decide⟩, ⟨rfl, rfl, nofun⟩, ?_, ?_, ?_, ?_, nofun⟩, rfl, rfl,
    ⟨by decide, by decide⟩, nofun, ⟨fun k r h => ?_, fun v hv _ k r h => ?_⟩, fun j y h n => absurd (get_one h).1.symm n⟩
  iterate 4 unfold NoOps; intro k e h; cases h
  · rw [no_ring] at h
    cases h
  · cases List.mem_singleton.1 hv
    rw [no_ring] at h
    cases h

/-- A job of the wheel that is still moving, and one that has not begun. -/
theorem witness_WheelsStartAndEnd_moving : ∀ b, let s := { rigWith (.nop al) ended with jobs := [(6, aJob (.weights 1 5 0 0x10000 65536 0) b [])] }
    (∃ k j, (k, j) ∈ s.jobs ∧ j.wheel = some 1 ∧ j.started = true) ↔ b = true := by
  intro b
  simp [aJob]

/-- A failed dispatch, the train at a boundary, and one that stands still inside its clause. -/
def failedAt (s : State) : State := { s with dispatches := [(1, { placeDispatch false with failed := some (0x02, 0x10008) })] }

theorem witness_WheelsStartAndEnd_failed : ∀ s ∈ [placed 0, rigWith (.nop al) fun t => { t with tokenWait := true }, rigWith (.nop al) parked], ∃ x,
    AMap.get? (failedAt s).trains 1 = some x ∧ (x.clause = none ∨ x.waiting = true ∨ (∃ p, x.park = some p ∧ p.faulted = true ∧ p.resume = 0) ∨ x.tokenWait = true) ∧ x.fifo = [] ∧
      x.loads = [] ∧ (s.core (s.coreOf x)).writes = [] ∧ (∀ q, x.ray = some q → q.opened = false) ∧ (failedAt s).jobs = [] := by
  intro s h
  rcases List.mem_cons.1 h with rfl | h
  · exact ⟨_, rfl, .inl rfl, rfl, rfl, by decide, nofun, rfl⟩
  rcases List.mem_cons.1 h with rfl | h
  · exact ⟨_, rfl, .inr (.inr (.inr rfl)), rfl, rfl, by decide, nofun, rfl⟩
  · cases List.mem_singleton.1 h
    exact ⟨_, rfl, .inr (.inr (.inl ⟨_, rfl, rfl, rfl⟩)), rfl, rfl, by decide, nofun, rfl⟩

/-- A train that stands at a stop point inside its clause, and one that does not. -/
def stalled (t : Train) : Train := { underWay t with stall := true }

theorem witness_Preemption_stop : ∃ x, let s := withCtx0 (rigWith (.nop al) stalled) fun c => { c with preempt := true }
    AMap.get? s.trains 1 = some x ∧ s.ctxOf x < 16 ∧ KeysRise s.trains ∧ x.Ok ∧ (s.ctx (s.ctxOf x)).preempt = true ∧ x.stopped = false ∧
      x.ending = false ∧ x.deferred = [] ∧ x.fifo = [] ∧ x.loads = [] ∧ (∀ w ∈ (s.core (s.coreOf x)).writes, w.train ≠ 1) ∧ x.tx.ending = none ∧
      (x.tx.on = false → x.tx.opened = 0) ∧ (∀ w ∈ s.walks, ∀ u ∈ w.2.waiters, u.train ≠ 1) ∧ x.xl = [] ∧ StopPoint s 1 x :=
  ⟨_, rfl, by decide, keys_one _ _, Train.norm_ok _, by decide, rfl, rfl, rfl, rfl, rfl, by decide, rfl, fun _ => rfl, nofun, rfl,
    .inr (.inr (.inr (.inl rfl)))⟩

theorem witness_Preemption_inside : ∃ x, AMap.get? (rigWith (.nop al) underWay).trains 1 = some x ∧ ¬StopPoint (rigWith (.nop al) underWay) 1 x := by
  refine ⟨_, rfl, fun h => ?_⟩
  rcases h with h | h | ⟨w, h⟩ | h | h | h | ⟨w, h, _⟩
  · cases h
  · exact h rfl
  · obtain ⟨h, _⟩ := h
    cases h
  · cases h
  · cases h
  · exact h rfl
  · cases h

/-- A stopped context, with no thermal stop and under one. -/
def heldFor (h : Option (BitVec 16)) : State :=
  withCtx0 { rig (.nop al) with mg := { Mg.reset with svc := 4, hold := h } } fun c => { c with stopped := true }

theorem heldFor_ctx (h : Option (BitVec 16)) (id : Nat) (x : Train) (e : AMap.get? (heldFor h).trains id = some x) : (heldFor h).ctxOf x < 16 := by
  have hx : AMap.get? (rig (.nop al)).trains id = some x := e
  show (rig (.nop al)).ctxOf x < 16
  rw [← (get_one hx).2]
  decide

theorem witness_Preemption_resume : ∀ h ∈ [(none : Option (BitVec 16)), some 2], KeysRise (heldFor h).trains ∧
    (∀ id x, AMap.get? (heldFor h).trains id = some x → (heldFor h).ctxOf x < 16) ∧ (heldFor h).mg.hold = h ∧
      (1 : BitVec 16).getLsbD 0 = true ∧ ((heldFor h).ctx 0).stopped = true ∧ ((heldFor h).ctx 0).saved = false :=
  fun h _ => ⟨keys_one _ _, heldFor_ctx h, rfl, by decide, rfl, rfl⟩

/-! ## The Remontoir -/

/-- Slot 0 holds a SIGNAL node of a word in the page, stamped for packet 0. -/
def slotBytes : Bytes := Bytes.write (Bytes.write (Bytes.write [] 0x10000 8 0x106) 0x10008 16 (0x10900 + 7 * 2 ^ 64)) 0x1007C 4 0xFFFFFFFF
def kicked (m : Bytes) (ns : Nat) : State :=
  let s := withL3 (rig (.nop al)) 4
  { s with mem := m, rings := s.rings.set 1 { aRing with kt := 1, waitNs := ns } (by decide) }

theorem witness_PacketEvents : let s := kicked slotBytes 0
    RingTakes s 1 ∧ s.owners = [] ∧ slotAt (s.ring 1) = 0x10000 ∧ ServiceRange s 0 kRead 0x10000 0x10000 128 ∧
      fieldAt s.mem 0x10000 0x7C 4 = (~~~(s.ring 1).h).toNat ∧ NodeRecOk s.mem 0x10000 ∧ fieldAt s.mem 0x10000 0 1 = 6 ∧
      fieldAt s.mem 0x10000 3 1 = 0 ∧ fieldAt s.mem 0x10000 2 1 = 0 ∧ ServiceRange s 0 kWrite 0x10808 0x10808 8 ∧
      lockedBytes s.locks 0x10808 8 = false ∧ KeysRise s.nodes := by
  refine ⟨⟨⟨by decide, by decide, by decide, by decide⟩, by decide⟩, by decide, by decide, ?_, by decide, ?_, by decide, by decide, by decide, ?_,
    by decide, keys_nil⟩
  · exact service_range (by decide) (by decide) (by decide) (by decide) (by decide) (by decide)
  · have k : fieldAt (kicked slotBytes 0).mem 0x10000 0 1 = 6 := by decide
    refine ⟨by decide, by decide, by decide, by decide, by decide, by decide, ?_⟩
    simp only [k]
    decide
  · exact service_range (by decide) (by decide) (by decide) (by decide) (by decide) (by decide)

/-- A slot that does not match, at 64 µs and one short; a record of no kind, with its stamp. -/
theorem witness_PacketEvents_slots : fieldAt ([] : Bytes) 0x10000 0x7C 4 ≠ (~~~((kicked [] 63999).ring 1).h).toNat ∧
    ((kicked [] 63999).ring 1).waitNs < 64000 ∧ ¬((kicked [] 64000).ring 1).waitNs < 64000 ∧
    ¬NodeRecOk (Bytes.write [] 0x1007C 4 0xFFFFFFFF) 0x10000 := by
  refine ⟨by decide, by decide, by decide, fun h => absurd h.kind.1 (by decide)⟩

theorem witness_PacketEvents_derive : ∃ a r, derive (serviceEU 0) (nodeRecOf (Bytes.read slotBytes 0x10000 128))
    (⟨kicked slotBytes 0, .refl⟩ : Run (kicked slotBytes 0)) = .ok (a, r) :=
  ok_of (s := kicked slotBytes 0) (m := derive (serviceEU 0) (nodeRecOf (Bytes.read slotBytes 0x10000 128))) (by decide +kernel)

/-- 4,096 accepted nodes that are incomplete. -/
theorem witness_PacketEvents_full : ∃ l : AMap Node, let s := { kicked slotBytes 0 with nodes := l }
    (s.ring 1).headDue = false ∧ ¬RingTakes s 1 := by
  have d : ((kicked slotBytes 0).ring 1).headDue = false := by decide
  have e (l : AMap Node) (h : ∀ a ∈ l, a.2.ring = 1 ∧ a.2.state = .started) (n : 4096 ≤ l.length) : ¬RingTakes { kicked slotBytes 0 with nodes := l } 1 := by
    intro r
    have r := r.room
    rw [List.filter_eq_self.2] at r
    · exact absurd r (by show ¬l.length < 4096; omega)
    · intro a ha
      simp [h a ha]
  obtain ⟨l, a, n⟩ : ∃ l : AMap Node, (∀ a ∈ l, a.2.ring = 1 ∧ a.2.state = .started) ∧ l.length = 4096 := by
    refine ⟨(List.range 4096).map fun k => (k, aNode k .started false), fun a ha => ?_, by simp⟩
    obtain ⟨k, -, rfl⟩ := List.mem_map.1 ha
    exact ⟨rfl, rfl⟩
  exact ⟨l, d, e l a (le_of_eq n.symm)⟩

/-- A COPY node whose footprint entry lies at 2^55: its derivation meets E_PERM. -/
def copySlot : Bytes :=
  Bytes.write (Bytes.write (Bytes.write (Bytes.write [] 0x10000 8 0x400010003) 0x10008 16 (0x10900 + 2 ^ 64)) 0x10018 8 (2 ^ 55)) 0x1007C 4 0xFFFFFFFF
def deriveCause : Byte :=
  match derive (s := kicked copySlot 0) (serviceEU 0) (nodeRecOf (Bytes.read copySlot 0x10000 128)) ⟨kicked copySlot 0, .refl⟩ with
  | .error (.trap c _ _) => c
  | _ => 0

theorem witness_PacketEvents_trapped : deriveCause = 0x06 ∧ fieldAt copySlot 0x10000 0 1 = 3 ∧ fieldAt copySlot 0x10000 3 1 = 0 ∧
    NodeRecOk copySlot 0x10000 := by
  have k : fieldAt copySlot 0x10000 0 1 = 3 := by decide
  refine ⟨by decide +kernel, k, by decide, by decide, by decide, by decide, by decide, by decide, by decide, ?_⟩
  simp only [k]
  decide

/-- An enable's zero of HEAD that is still to be written, at a free granule and at a locked one. -/
def zeroDue (l : Bool) : State :=
  let s := kicked [] 0
  { s with rings := s.rings.set 1 { aRing with headDue := true } (by decide), locks := if l then [(0x10808, ⟨1, 0⟩)] else [] }

theorem witness_PacketEvents_headDue : ∀ l, let s := zeroDue l
    ringEn (s.ring 1).ctl = true ∧ (s.ring 1).held = false ∧ (s.ring 1).headDue = true ∧
      ServiceRange s 0 kWrite (s.ring 1).rec_.head 0x10808 8 ∧ lockedBytes s.locks 0x10808 8 = l := by
  intro l
  cases l <;> exact ⟨by decide, by decide, by decide,
    service_range (by decide) (by decide) (by decide) (by decide) (by decide) (by decide), by decide⟩

/-- A WSLOAD record whose launch, at 0x10200, is one train but is not privileged. -/
def weightSlot : Bytes :=
  Bytes.write (Bytes.write (Bytes.write (Bytes.write (Bytes.write [] 0x10000 8 5) 0x10008 8 0x10200) 0x1007C 4 0xFFFFFFFF) 0x10208 8 1) 0x10211 1 1

theorem witness_PacketEvents_weights : let s := kicked weightSlot 0
    NodeRecOk s.mem 0x10000 ∧ fieldAt s.mem 0x10000 2 1 = 0 ∧ fieldAt s.mem 0x10000 0 1 = 5 ∧
      ServiceRange s 0 kRead (fieldAt s.mem 0x10000 8 8) 0x10200 256 ∧ fieldAt s.mem 0x10200 0x10 1 ≠ 1 ∧ fieldAt s.mem 0x10200 0x60 8 = 0 ∧
      fieldAt s.mem 0x10200 8 8 = 1 ∧ fieldAt s.mem 0x10200 0x11 1 = 1 ∧ fieldAt s.mem 0x10200 0x14 1 / 8 % 2 = 0 := by
  have k : fieldAt (kicked weightSlot 0).mem 0x10000 0 1 = 5 := by decide
  have a : fieldAt (kicked weightSlot 0).mem 0x10000 8 8 = 0x10200 := by decide
  refine ⟨⟨by decide, by decide, by decide, by decide, by decide, by decide, ?_⟩, by decide, k, ?_, by decide, by decide, by decide, by decide,
    by decide⟩
  · simp only [k]
    decide
  · rw [a]
    exact service_range (by decide) (by decide +kernel) (by decide) (by decide +kernel) (by decide +kernel) (by decide +kernel)

/-- A record that names node 9, in each of its states. -/
def namingSlot : Bytes := Bytes.write (Bytes.write slotBytes 0x10003 1 1) 0x10020 8 9
def named (l : AMap Node) : State := { kicked namingSlot 0 with nodes := l }

theorem witness_PacketEvents_named : ∀ l ∈ [([] : AMap Node), [(9, aNode 1 .complete false)], [(9, aNode 1 .failed false)],
      [(9, { aNode 1 .waiting false with cause := 6 })], [(9, aNode 1 .started false)]],
    RingTakes (named l) 1 ∧ KeysRise (named l).nodes ∧ NodeRecOk (named l).mem 0x10000 ∧ fieldAt (named l).mem 0x10000 3 1 = 1 ∧
      fieldAt (named l).mem 0x10000 0x20 8 = 9 := by
  have k : fieldAt namingSlot 0x10000 0 1 = 6 := by decide
  have r : NodeRecOk namingSlot 0x10000 := by
    refine ⟨by decide, by decide, by decide, by decide, by decide, by decide, ?_⟩
    simp only [k]
    decide
  have f : fieldAt namingSlot 0x10000 3 1 = 1 ∧ fieldAt namingSlot 0x10000 0x20 8 = 9 := by decide
  have t : ∀ l, (named l).ring 1 = (kicked namingSlot 0).ring 1 ∧ (named l).ringGone 1 = (kicked namingSlot 0).ringGone 1 := by
    intro l
    exact ⟨rfl, by simp [State.ringGone, State.ctx, State.ring, named]⟩
  have w : ringEn ((kicked namingSlot 0).ring 1).ctl = true ∧ ((kicked namingSlot 0).ring 1).headDue = false ∧
    ((kicked namingSlot 0).ring 1).h ≠ ((kicked namingSlot 0).ring 1).kt ∧ ((kicked namingSlot 0).ring 1).held = false ∧
    (kicked namingSlot 0).ringGone 1 = false := by decide
  intro l h
  refine ⟨⟨?_, ?_⟩, ?_, r, f.1, f.2⟩
  · rw [(t l).1, (t l).2]
    exact w
  · show (l.filter _).length < 4096
    refine lt_of_le_of_lt (List.length_filter_le _ l) ?_
    revert h
    revert l
    decide
  · show KeysRise l
    simp only [List.mem_cons, List.not_mem_nil, or_false] at h
    rcases h with rfl | rfl | rfl | rfl | rfl
    · exact keys_nil
    all_goals exact keys_one _ _

def noded (n : Node) : State :=
  let s := kicked [] 0
  { s with nodes := [(9, n)], pool := Vector.replicate 4 1, dispatches := [], wheels := [], trains := []
           rings := s.rings.set 1 { aRing with deficit := Vector.replicate 4 4 } (by decide) }

theorem witness_NodeEvents_start : let n := aNode 1 .waiting false
    let s := noded n
    AMap.get? s.nodes 9 = some n ∧ KeysRise s.nodes ∧ TurnOf s 9 n ∧ n.ring < 64 ∧ n.cost ≤ deficitAt (s.ring n.ring) n.prio ∧ n.kind = 6 := by
  have m : NodeMay (noded (aNode 1 .waiting false)) (aNode 1 .waiting false) := by
    unfold NodeMay
    decide
  refine ⟨rfl, keys_one _ _, ⟨m, ⟨by decide, fun j x h _ => ?_⟩, by decide, fun j x h _ _ _ e => absurd (get_one h).1.symm e⟩, by decide, by decide,
    rfl⟩
  rw [← (get_one h).2]

/-- A cost that the deficit does not cover. -/
theorem witness_NodeEvents_cost : let n := { aNode 1 .waiting false with cost := 5 }
    deficitAt ((noded n).ring n.ring) n.prio < n.cost ∧ NodeMay (noded n) n := by
  refine ⟨by decide, ?_⟩
  unfold NodeMay
  decide

def signalling : Node := { aNode 1 .started false with arg0 := 0x10010 }
def tokened : Node := { aNode 1 .started false with kind := 3, token := 0x10010 }

/-- A SIGNAL node, and a node with a token. -/
theorem witness_NodeEvents_complete : ∀ n ∈ [signalling, tokened], AMap.get? (noded n).nodes 9 = some n ∧ n.state = .started ∧ n.cause = 0 ∧
    n.held = false ∧ n.jobs = [] ∧ 9 ∉ n.edges ∧ (n.kind = 6 ∨ n.token ≠ 0) ∧ (noded n).dispatches = [] ∧ lockedBytes (noded n).locks 0x10010 8 = false := by
  decide +kernel

theorem witness_NodeEvents_runs : CtxRuns (noded signalling) 0 ∧ NoDispatch (noded signalling) 9 ∧ HasReady (noded (aNode 1 .waiting false)) 1 1 :=
  ⟨⟨by decide, by decide⟩, by unfold NoDispatch; decide, ⟨9, aNode 1 .waiting false, by decide, by decide, by decide, by decide, by decide, by decide, by decide⟩⟩

theorem witness_NodeEvents_token : ServiceRange (noded tokened) 0 kWrite 0x10010 0x10010 8 ∧ KeysRise (noded tokened).nodes :=
  ⟨service_range (by decide) (by decide +kernel) (by decide) (by decide +kernel) (by decide +kernel) (by decide +kernel), keys_one _ _⟩

/-- A node whose dispatch has ended. -/
theorem witness_NodeEvents_dispatch : let n := { aNode 1 .started false with kind := 1 }
    let d : Dispatch := { placeDispatch false with node := some 9, ended := 1 }
    let s := { noded n with dispatches := [(4, d)] }
    AMap.get? s.dispatches 4 = some d ∧ d.node = some 9 ∧ (∀ e ∈ s.dispatches, e.2.node = some 9 → e = (4, d)) ∧ d.joined = true ∧
      d.failed = none ∧ d.ended = d.wheels ∧ d.view = none :=
  ⟨rfl, rfl, fun e h _ => by simpa using h, rfl, rfl, rfl, rfl⟩

def failing : Node := { aNode 1 .started false with kind := 3, cause := 0x06 }

/-- A failure that is replayed. -/
theorem witness_NodeEvents_fail : AMap.get? (noded failing).nodes 9 = some failing ∧ failing.ring < 64 ∧ failing.held = false ∧ failing.jobs = [] ∧
    (noded failing).dispatches = [] ∧ failing.cause ≠ 0 ∧ ((noded failing).ring 1).rec_.errlog = 0 ∧ failing.idempotent = true ∧
    failing.replays < ((noded failing).ring 1).rec_.retry := by decide +kernel

theorem witness_NodeEvents_log : let n := { aNode 1 .started false with cause := 0x06 }
    let s := { noded n with rings := (noded n).rings.set 1 { aRing with rec_ := { aRing.rec_ with errlog := 0x10A00 } } (by decide) }
    (s.ring 1).rec_.errlog ≠ 0 ∧ ServiceRange s 0 kWrite 0x10A00 0x10A00 32 ∧ s.locks = [] := by
  refine ⟨by decide, ?_, by decide⟩
  exact service_range (by decide) (by decide) (by decide) (by decide) (by decide) (by decide)

/-- A dispatch that ran to its end after its host was gone. -/
theorem witness_NodeEvents_doom : let d : Dispatch := { placeDispatch false with node := some 9, doom := some (0x13, 0), ended := 1 }
    let s := { noded (aNode 1 .started false) with dispatches := [(4, d)] }
    (∀ e ∈ s.dispatches, e.2.node = some 9 → e = (4, d)) ∧ d.failed = none ∧ d.doom = some (0x13, 0) ∧ d.joined = true ∧ d.ended = d.wheels ∧
      CtxRuns s 0 ∧ d.view = none :=
  ⟨fun e h _ => by simpa using h, rfl, rfl, rfl, rfl, ⟨by decide, by decide⟩, rfl⟩

theorem witness_NodeEvents_trap : let d : Dispatch := { placeDispatch false with node := some 9, failed := some (0x02, 0x10008) }
    let s := { noded (aNode 1 .started false) with dispatches := [(4, d)] }
    (∀ e ∈ s.dispatches, e.2.node = some 9 → e = (4, d)) ∧ (∀ w ∈ s.wheels, w.2.dispatch ≠ 4) ∧ d.view = none :=
  ⟨fun e h _ => by simpa using h, nofun, rfl⟩

/-! ## The package -/

/-- The last byte of GDDR7, and one past it; in reduced service. -/
theorem witness_HostEvents : GddrAt (rig (.nop al)) 0x1FFFFFFFFF ∧ ¬GddrAt (rig (.nop al)) 0x2000000000 ∧ ¬GddrAt State.reset 0 ∧
    lockedBytes (rig (.nop al)).locks 0x10000 8 = false ∧ lockedBytes ([(0x10000, ⟨1, 0⟩)] : AMap Lock) 0x10000 8 = true := by
  refine ⟨.inl (by decide +kernel), fun h => ?_, fun h => ?_, by decide, by decide⟩
  · rcases h with h | h
    · exact absurd h.2 (by decide)
    · exact absurd h.1 (by decide)
  · rcases h with h | h
    · exact absurd h.1 (by decide)
    · exact absurd h.1 (by decide)

/-- A register that a host may read, and a write of it that comes next. -/
theorem witness_HostEvents_registers : 0x100000 % 8 = 0 ∧ 0x100000 + 8 ≤ 0x200000 ∧ (rig (.nop al)).mg.svc ≠ 0 ∧ State.reset.mg.svc = 0 ∧
    let s := { rig (.nop al) with agenda := [.mmio true 0x100000 8 7] }
    s.agenda = .mmio true 0x100000 8 (leVal (fun j => ([7, 0, 0, 0, 0, 0, 0, 0] : List Byte).getD j 0) 8) :: [] := by decide

/-- An address of a host's export, and one of the card's own memory: an entry of two lanes may hold both. -/
theorem witness_HostEvents_gone : (OfHost (rig (.nop al)) 3 (2 ^ 51 + 3 * 2 ^ 41) ∨ OfHost (rig (.nop al)) 3 (3 * 2 ^ 41)) ∧
    ¬OfHost (rig (.nop al)) 3 0x10000 := by
  unfold OfHost
  decide

theorem witness_BringUpAndLimits : ∀ v ∈ [(0 : BitVec 3), 2, 3, 5], let s := { State.reset with mg := { Mg.reset with svc := v } }
    KeysRise s.cores ∧ KeysRise s.trains ∧ ∀ id x, AMap.get? s.trains id = some x → s.ctxOf x < 16 :=
  fun _ _ => ⟨keys_nil, keys_nil, fun _ _ h => by cases h⟩

/-- The change to full service: before it begins, while a context still stops, and with all of them stopped, with no thermal stop and under one. -/
def changing (m : Option (BitVec 16)) (h : Option (BitVec 16)) (all : Bool) : State :=
  let s := rig (.nop al)
  { s with mg := { Mg.reset with svc := 3, change := m, hold := h }
           ctxs := if all then Vector.replicate 16 { Context.reset 0 with stopped := true } else s.ctxs }

theorem witness_BringUpAndLimits_changing : ∀ h ∈ [(none : Option (BitVec 16)), some 2], (changing none h false).mg.svc = 3 ∧
    (changing none h false).mg.change = none ∧ KeysRise (changing (some 1) h true).trains ∧ (changing (some 1) h true).mg.change = some 1 ∧
      (changing (some 1) h true).mg.hold = h ∧ (∀ c, c < 16 → ((changing (some 1) h true).ctx c).stopped = true) ∧
      ((changing (some 1) h false).ctx 0).stopped = false ∧
      ∀ id x, AMap.get? (changing (some 1) h true).trains id = some x → (changing (some 1) h true).ctxOf x < 16 := by
  intro h _
  refine ⟨rfl, rfl, keys_one _ _, rfl, rfl, fun c hc => ?_, rfl, fun id x e => ?_⟩
  · simp [changing, State.ctx]
  · have hx : AMap.get? (rig (.nop al)).trains id = some x := e
    show (rig (.nop al)).ctxOf x < 16
    rw [← (get_one hx).2]
    decide

theorem witness_BringUpAndLimits_thermal : (110 : Byte) < 115 ∧ ¬(115 : Byte) < 115 ∧ (96 : Byte) > 95 ∧ ¬(95 : Byte) < 95 ∧
    RunMask State.reset 0xFFFF := by
  refine ⟨by decide, by decide, by decide, by decide, ?_⟩
  unfold RunMask
  decide

theorem witness_BringUpAndLimits_change : AllStopped State.reset 0 ∧ ¬AllStopped (rig (.nop al)) 0 := by
  refine ⟨fun _ _ h => by simp [State.reset] at h, fun h => ?_⟩
  obtain ⟨x, hx, a, b, c⟩ : ∃ x, (rig (.nop al)).trains = [(1, x)] ∧ x.stopped = false ∧ x.ending = false ∧ (rig (.nop al)).ctxOf x = 0 :=
    ⟨_, rfl, rfl, rfl, by decide⟩
  rcases h 1 x (by rw [hx]; simp) c with h | h <;> simp_all

/-- A file with one section of one byte, at 64 + 32 bytes. -/
def aFile : List Byte :=
  let head : List Byte := [0x4E, 0x4F, 0x42, 1, 3, 0, 1, 0, 0, 3, 0, 0, 0, 0, 0, 0] ++ List.replicate 48 0
  let variant : List Byte := List.replicate 8 0 ++ [0, 1, 0, 0, 0, 0, 0, 0] ++ List.replicate 8 0 ++ [1, 0, 0, 0, 0, 0, 0, 0]
  let section_ : List Byte := [0, 0, 0, 0, 0, 0, 0, 0, 1, 0, 0, 0, 0, 0, 0, 0, 0x28, 0, 0, 0, 0, 0, 0, 0] ++ List.replicate 16 0
  head ++ variant ++ List.replicate (256 - 96) 0 ++ section_ ++ [7]

theorem witness_BringUpAndLimits_object : ObjectHead aFile 0 ∧ OneSection aFile 296 1 0 := by
  constructor <;> constructor <;> decide +kernel

/-- A wrong magic and an empty variant with a foreign signature. -/
theorem witness_BringUpAndLimits_refused : fileVal (List.replicate 96 0) 0 4 ≠ 0x01424F4E := by decide

/-! ## Entities and rays -/

def liveEntry : DirEnt := { gen := 1, state := 1, row := 0, arch := 0, chunk := 0, version := 1 }
def dirBytes : Bytes := Bytes.write [] 0x10000 16 liveEntry.word

theorem witness_EntityWork_entry : EntryAt dirBytes 0x10000 liveEntry := by
  constructor <;> decide

theorem esu_head {s : State} {e : EngineOp} {x : Train} {wh : Wheel} (hq : s.esu = [(5, e)]) (i : e.id = 5) (kw : KeysRise s.wheels)
    (ht : AMap.get? s.trains e.train = some x) (hw : AMap.get? s.wheels x.wheel = some wh) (hh : e.held = false)
    (hr : (s.ctx (s.ctxOf x)).stopped = false) (hf : x.fifo = []) (hc : (s.core (s.coreOf x)).writes = []) (l : x.loads = []) (z : s.tlbis = []) (y : s.syncs = []) (g : x.queryFirst 5 = false) :
    EsuHead s 5 e x wh :=
  ⟨head_one hq i kw ht hw hh hr hf hc l z, by rw [l]; simp, by rw [y]; simp, g⟩

theorem witness_EntityWork : ∀ i ∈ [Instr.enext none false (ds 8), .ever none false (ds 8) (ss 4), .ehchk al none 1 (sv 4), .erow al none false 1 (dv 8) (sv 4),
      .esync none (ds 8) (ss 4)], ∃ x wh, EsuHead (rigEsu (anOp i 0 0)) 5 (anOp i 0 0) x wh ∧ x.Ok ∧
        ∀ f, (rigEsu (anOp i 0 0)).dispatchOf x = some f → f.launch.sync = false ∧ f.launch.viewWorld = 0 ∧ f.launch.strict = false := by
  intro i _
  refine ⟨_, _, esu_head rfl rfl (keys_one _ _) rfl rfl rfl rfl rfl rfl rfl rfl rfl rfl, Train.norm_ok _, fun f h => ?_⟩
  have e : (rigEsu (anOp i 0 0)).dispatchOf (underWay (rigTrain .C (0x00380700_00000000))).norm = some (placeDispatch false) := rfl
  have : some (placeDispatch false) = some f := h
  cases this
  exact ⟨rfl, rfl, rfl⟩

/-- A unit's reading of the entry of slot 0 of a directory at 0x10000, and of a live handle of it. -/
def dirState : State := { withL3 (rig (.nop al)) 0 with mem := dirBytes }

theorem witness_EntityWork_directory : (∀ j, j < 16 → XlAt dirState 0 0 false kRead (0x10000 + 16 * 0 + j) (0x10000 + j)) ∧ dirState.owners = [] ∧
    EntryAt dirState.mem 0x10000 liveEntry ∧ (0x0100000100000000 : DWord).toNat % 2 ^ 32 = 0 ∧
      (0x0100000100000000 : DWord).toNat / 2 ^ 32 % 2 ^ 24 = liveEntry.gen := by
  refine ⟨fun j h => ?_, rfl, witness_EntityWork_entry, by decide, by decide⟩
  refine at_lane ?_ ?_ ?_ ?_ ?_ ?_ <;> (revert j; decide)

/-- A unit's reading of a handle of world 0: no world, stale. -/
theorem witness_EntityWork_classify : ReadsAs (classify (s := rig (.nop al)) { core := 0, ctx := 0, priv := false, train := some 1, node := none } 0)
    ⟨none, .stale, DirEnt.none⟩ := ⟨_, rfl, rfl⟩

/-- A world of one directory entry, one type, one archetype and one chunk, at CURVER 1, with no command area. -/
def worldBytes : Bytes :=
  ([(0x10008, 8, 0x10100), (0x10100, 8, 0x10400), (0x10108, 4, 1), (0x1010C, 4, 0xFFFFFFFF), (0x10110, 8, 0x10080), (0x10118, 2, 1),
    (0x1011C, 4, 1), (0x10120, 8, 0x12000), (0x10128, 4, 1), (0x1012C, 4, 3072), (0x10130, 8, 0x14000), (0x10138, 4, 1), (0x10140, 8, 0x10090),
    (0x10148, 4, 1), (0x10168, 8, 0x18000), (0x10080, 4, 4)] : List (Nat × Nat × Nat)).foldl (fun m f => Bytes.write m f.1 f.2.1 f.2.2) []
def anEsync : EngineOp := anOp (.esync none (ds 8) (ss 4)) 1 0
def worldState (m : Bytes) (tab : DWord) (locks : AMap Lock) : State :=
  let s := withL3 (rigEsu anEsync) 0
  { s with mem := m, locks := locks, ctxs := s.ctxs.set 0 { Context.reset 0 with worldtab := tab } (by decide) }
def unit0 : EU := { core := 0, ctx := 0, priv := false, train := some 1, node := none }

/-- World 1 is there, its next version fits the pool, and it is published. -/
def publishes (s : State) : Bool :=
  match worldOf (s := s) unit0 1 ⟨s, .refl⟩ with
  | .ok (some w, r1) => match planSync unit0 w r1 with
    | .ok (pl, r2) => !pl.pool.short && !pl.pool.mapShort && (match publish unit0 w pl r2 with
      | .ok _ => true
      | .error _ => false)
    | .error _ => false
  | _ => false

theorem witness_EntityWork_publish : let s := worldState worldBytes 0x10000 []
    ∃ w r1 pl r2 v q, worldOf (s := s) unit0 1 ⟨s, .refl⟩ = .ok (some w, r1) ∧ planSync unit0 w r1 = .ok (pl, r2) ∧ pl.pool.short = false ∧
      pl.pool.mapShort = false ∧ publish unit0 w pl r2 = .ok (v, q) := by
  have h : publishes (worldState worldBytes 0x10000 []) = true := by decide +kernel
  unfold publishes at h
  split at h
  · rename_i w r1 e1
    split at h
    · rename_i pl r2 e2
      split at h
      · rename_i v e3
        simp only [Bool.and_true, Bool.and_eq_true, Bool.not_eq_true'] at h
        exact ⟨w, r1, pl, r2, v.1, v.2, e1, e2, h.1, h.2, e3⟩
      · simp at h
    · cases h
  · cases h

/-- How a unit's computation ends. -/
def endOf {s : State} (m : M s EAns) : Nat :=
  match m ⟨s, .refl⟩ with
  | .ok (.done, _) => 0
  | .ok (.fails _ _ _, _) => 1
  | .ok (.stays, _) => 2
  | .error .wait => 3
  | .error (.held _ _ _ _) => 4
  | .error (.trap _ _ _) => 5
  | .error _ => 6

/-- A sync point that is published, one of a world that is gone, one that waits at a locked granule, one whose world table is not mapped. -/
theorem witness_EntityWork_syncRun : let run (s : State) := endOf (s := s) (syncRun anEsync unit0 1)
    run (worldState worldBytes 0x10000 []) = 0 ∧ run (worldState [] 0x10000 []) = 1 ∧
      run (worldState worldBytes 0x10000 [(0x10148, ⟨9, 0⟩)]) = 3 ∧ run (worldState worldBytes 0 []) = 4 := by
  decide +kernel

/-- The operation of a rig's train at the unit. -/
def opRun (s : State) (e : EngineOp) : Nat :=
  match AMap.get? s.trains 1 with
  | some x => endOf (s := s) (esuRun e (opFor s x placeWheel))
  | none => 9

def syncing (s : State) : State :=
  { s with dispatches := [(1, { placeDispatch false with launch := { placeLaunch false with sync := true } })] }

/-- An operation that completes, that fails, that stays, that waits for a sync point in progress, and that a page holds. -/
theorem witness_EntityWork_run : opRun (worldState [] 0 []) (anOp (.enext none false (ds 8)) 0 0) = 0 ∧ opRun (worldState [] 0 []) anEsync = 1 ∧
    opRun (syncing (worldState worldBytes 0x10000 [])) anEsync = 2 ∧
    opRun { syncing (worldState worldBytes 0x10000 []) with syncs := [⟨2, 4, 0, 1⟩] } anEsync = 3 ∧
    opRun (syncing (worldState worldBytes 0 [])) anEsync = 4 := by
  decide +kernel

def aPoint : SyncPoint :=
  { train := 1, op := 5, ctx := 0, world := 1 }

theorem witness_EntityWork_sync : let s := { rigEsu (anOp (.esync none (ds 8) (ss 4)) 1 0) with syncs := [aPoint] }
    s.syncs.find? (·.train == 1) = some aPoint ∧ AMap.get? s.esu aPoint.op = some (anOp (.esync none (ds 8) (ss 4)) 1 0) := ⟨rfl, rfl⟩

/-- A ray along x from the origin. -/
def aRay : List Word := [0, 0, 0, 0, 0x3F800000, 0, 0, 0x7F800000]

/-- One instance of one opaque triangle that the ray meets at t = 1. -/
def sceneBytes : Bytes :=
  ([(0x10100, 4, 0x3F800000), (0x10114, 4, 0x3F800000), (0x10128, 4, 0x3F800000), (0x10130, 8, 0x10202), (0x10138, 8, 0x1FF000001),
    (0x10200, 4, 0x3F800000), (0x10204, 4, 0xBF800000), (0x10208, 4, 0xBF800000), (0x1020C, 4, 0x3F800000), (0x10210, 4, 0x40400000),
    (0x10214, 4, 0xBF800000), (0x10218, 4, 0x3F800000), (0x1021C, 4, 0xBF800000), (0x10220, 4, 0x40400000)] : List (Nat × Nat × Nat)).foldl
    (fun m f => Bytes.write m f.1 f.2.1 f.2.2) []

/-- A query of lanes 0 and 1, with the predictions `tp` of lanes already looked up. -/
def tracing (kind : RayKind) (r : List Word) (tp : Option Word) (t : Train) : Train :=
  { t with ray := some { aQuery kind .busy true with
      rays := perLane fun _ => r, lanes := perLane fun L => if L < 2 then .busy else .outside, looked := if tp.isSome then 3 else 0
      tp := perLane fun _ => tp, bind := { aGeo with root := 0x10103 } } }
def rays (k : RayKind) (r : List Word) (tp : Option Word) : State := { withL3 (rigWith (.nop al) (tracing k r tp)) 0 with mem := sceneBytes }
def trainOf (s : State) : Train := (AMap.get? s.trains 1).getD (Train.start 0 0 0 0)
def queryOf_ (s : State) : RayQuery := (trainOf s).ray.getD (aQuery .any .busy true)

def rayCases : List (RayKind × List Word × Option Word) :=
  [(.closest, aRay, none), (.any, aRay, none), (.occluded, aRay, none), (.closest, [], none), (.closest, aRay, some 0x40000000)]

/-- Each kind of query on a ray, a void ray, and a lane with a prediction. -/
theorem witness_RayWork : ∀ p ∈ rayCases, let s := rays p.1 p.2.1 p.2.2
    AMap.get? s.trains 1 = some (trainOf s) ∧ (trainOf s).ray = some (queryOf_ s) ∧ ((queryOf_ s).opened = true ∧ (queryOf_ s).held = false) ∧
      ((trainOf s).stopped = false ∧ (trainOf s).ending = false ∧ (s.ctx (s.ctxOf (trainOf s))).stopped = false ∧
        (s.ctx (s.ctxOf (trainOf s))).preempt = false) ∧ (trainOf s).fifo = [] ∧ (s.core (s.coreOf (trainOf s))).writes = [] ∧
      (trainOf s).loads = [] ∧ s.tlbis = [] ∧ s.ray = [] ∧ (queryOf_ s).lanes.at 0 = .busy ∧ (queryOf_ s).lanes.at 1 = .busy ∧
      (queryOf_ s).waits = [] ∧ voidRay ((queryOf_ s).rays.at 0) = p.2.1.isEmpty ∧ (queryOf_ s).bind.predict = false ∧
      (queryOf_ s).looked.getLsbD 0 = p.2.2.isSome ∧ (queryOf_ s).tp.at 0 = p.2.2 ∧ s.ctxOf (trainOf s) < 16 ∧
      (p.2.1 ≠ [] → (begun (queryOf_ s)).tp.at 0 = p.2.2) := by decide +kernel

theorem rays_ok (k : RayKind) (r : List Word) (tp : Option Word) : (trainOf (rays k r tp)).Ok := by
  have e : ∃ x : Train, AMap.get? (rays k r tp).trains 1 = some x.norm := ⟨_, rfl⟩
  obtain ⟨x, e⟩ := e
  unfold trainOf
  rw [e]
  exact x.norm_ok

theorem witness_RayWork_runs : ∀ p ∈ rayCases, let s := rays p.1 p.2.1 p.2.2
    QueryRuns s 1 (trainOf s) (queryOf_ s) ∧ (trainOf s).Ok := by
  intro p hp
  obtain ⟨a, b, c, d, f, w, l, y, _⟩ := witness_RayWork p hp
  refine ⟨⟨a, b, c, d, ⟨?_, ?_⟩, ?_, ?_⟩, rays_ok _ _ _⟩
  · rw [f]; simp
  · rw [w]; simp
  · rw [l]; simp
  · rw [y]; simp

/-- How many hits the ray has in the scene, within a bound. -/
def hitCount (tmax : Word) : Nat :=
  let s := rays .closest aRay none
  let s0 := s.upd (.train 1 (some { trainOf s with ray := some (begun (queryOf_ s)) }))
  match trace (s := s0) (rayEU s 1 (trainOf s)) 0x10103 aRay 0xFF tmax ⟨s0, .refl⟩ with
  | .ok (l, _) => l.length
  | .error _ => 0

theorem witness_RayWork_trace : hitCount 0x7F800000 = 1 ∧ hitCount 0x40000000 = 1 := by decide +kernel

def geoBytes : Bytes := Bytes.write [] 0x10000 16 (0x10100 + 2 ^ 64 + 2 ^ 96)
def rigRay (e : EngineOp) : State := { withL3 (rigWith (.nop al) underWay) 0 with mem := geoBytes, ray := [(5, e)] }

/-- No record, a record that is well formed, an address that is no multiple of 64. -/
theorem witness_RayWork_rygeo : ∀ a ∈ [(0 : DWord), 0x10000, 0x10020], ∃ x wh, OpHead (rigRay (anOp (.rygeo none 3 (ss 4)) a 0))
    (rigRay (anOp (.rygeo none 3 (ss 4)) a 0)).ray 5 (anOp (.rygeo none 3 (ss 4)) a 0) x wh ∧ x.Ok :=
  fun _ _ => ⟨_, _, head_one rfl rfl (keys_one _ _) rfl rfl rfl rfl rfl rfl rfl rfl, Train.norm_ok _⟩

theorem witness_RayWork_record : fieldAt geoBytes 0x10000 0x11 1 < 2 ∧ fieldAt geoBytes 0x10000 0x12 46 = 0 ∧
    fieldAt (Bytes.write geoBytes 0x10011 1 2) 0x10000 0x11 1 = 2 ∧
    ∀ j, j < 64 → XlAt (rigRay (anOp (.rygeo none 3 (ss 4)) 0x10000 0)) 0 0 false kRead (0x10000 + j) (0x10000 + j) := by
  refine ⟨by decide, by decide, by decide, fun j h => ?_⟩
  refine at_lane ?_ ?_ ?_ ?_ ?_ ?_ <;> (revert j; decide)

/-! ## The machine as a whole -/

/-- The state of `withFetchWord` meets the hypotheses of the fetch. -/
theorem witness_StepRunsDecoded : ∃ x i, (placed faddWords).agenda = .issue 0 0 :: [] ∧ AMap.get? (placed faddWords).trains 1 = some x ∧
    decodeWord (wordClass ⟨.V, 0, 0, false, false, 0, 0⟩ 0).1 (wordClass ⟨.V, 0, 0, false, false, 0, 0⟩ 0).2 0x0A00C00D05002800 = .ok i ∧
    Fetched (placed faddWords) x x.pc.toNat 0 ∧ MayTake (placed faddWords) 0 0 1 ∧
    ¬QueueHolds (placed faddWords) x ⟨.V, 0, 0, false, false, 0, 0⟩ [0x0A00C00D05002800] ∧ ∀ d, d < 16 → ((placed faddWords).ctx d).norm = (placed faddWords).ctx d := by
  refine ⟨_, _, rfl, rfl, rfl, ⟨by decide, placeTlb 0, by decide, by decide, by decide, by decide⟩, may_place rfl (by decide) (by decide) (by decide),
    fun h => ?_, by decide⟩
  obtain ⟨_, k, i, hk, d, f⟩ := h
  have hk : k = 0 := by simp at hk; exact hk
  subst hk
  cases d
  cases f

/-- A train inside its clause, at a word that decodes, at one that no class has and at one with a bad operand field. -/
theorem witness_StepRunsDecoded_clause : ∃ x c h, AMap.get? (rig (.nop al)).trains 1 = some x ∧ x.clause = some c ∧ x.free (rig (.nop al)) = true ∧
    portAt ((rig (.nop al)).core 0) 0 = some 1 ∧ (rig (.nop al)).coreOf x = 0 ∧ decodeHeader c.word = some h ∧
    decodeWord (wordClass h c.idx).1 (wordClass h c.idx).2 c.cur = .ok (.nop al) ∧ decodeWord .V true 0x0A80100803001C40 = .error .illOp ∧
    decodeWord .V true 0x01001DCC03001C00 = .error .illOperand :=
  ⟨_, _, _, rfl, rfl, by decide, by decide, by decide, rfl, by decide, by decide, by decide⟩

theorem witness_EncodeDecode : encode (.fadd 10 false .rne (dv 12) (sv 3) (ss 5)) = some (.V, 0x0A00C00D05002800) ∧
    instrWf (.fadd 10 false .rne (dv 12) (sv 3) (ss 5)) = true := by decide

theorem witness_DecodeEncode : decodeWord .V true 0x0A00C00D05002800 = .ok (.fadd 10 false .rne (dv 12) (sv 3) (ss 5)) := by decide

/-- The reset state and a step from it. -/
theorem witness_StepKeepsInv : State.reset.Inv ∧ step State.reset = .next (plan State.reset) := by
  refine ⟨⟨by decide, by decide, fun _ _ h => by simp [State.reset] at h, ⟨keys_nil, keys_nil, keys_nil, keys_nil, keys_nil⟩, ⟨keys_nil, keys_nil, keys_nil, keys_nil, keys_nil⟩,
    ⟨keys_nil, keys_nil, keys_nil, keys_nil⟩, by decide, fun c => ?_⟩, by unfold step; rfl⟩
  have h : ∀ k, k < 16 → 0x10000 ≤ (State.reset.ctx k).hangLimit.toNat ∧ (State.reset.ctx k).hangLimit.toNat ≤ 0x10000000000 ∧
      1 ≤ (State.reset.ctx k).lease.toNat ∧ (State.reset.ctx k).lease.toNat ≤ 65535 := by decide
  have e : State.reset.ctx c = State.reset.ctx (c % 16) := by simp [State.ctx]
  rw [e]
  exact h _ (Nat.mod_lt _ (by decide))

end

end Sys2Proof.Tests
end

