-- ==== Sys2Proof/Tests/Words.lean ====
section
/-! SUPPORT. One word of every instruction, put together by hand from the field tables of spec/ (03 and the chapter of its class), decodes to that instruction. -/

namespace Sys2Proof.Tests

def decodesAll (l : List (Cls × DWord × Instr)) : Bool := l.all fun x => dec x.1 x.2.1 == some x.2.2

/-- Words of the tables of 05. -/
theorem test_words_V0 : decodesAll [
    (.V, 0x0000100800001C01, .mov al .n32 (dv 1) (sv 2)),
    (.V, 0x0040200D04001C00, .movk al (dv 2) (sv 3) (ss 4)),
    (.V, 0x0080500000002405, .movs 9 (dv 5) .core),
    (.V, 0x00C060200A009C02, .sel al .s64 (dv 6) (sv 8) (sv 10) 2),
    (.V, 0x0100100803001C0E, .iadd al true .s8 (dv 1) (sv 2) (sv 3)),
    (.V, 0x0150340702001C01, .isub al false .n32 (ds 3) (ss 1) (sc 2)),
    (.V, 0x0180100803001C04, .imul al false .s16 (dv 1) (sv 2) (sv 3)),
    (.V, 0x01C0201006001C03, .imulh al .n64 (dv 2) (sv 4) (sv 6)),
    (.V, 0x0200100803011C08, .imad al true .s32 (dv 1) (sv 2) (sv 3) (sv 4)),
    (.V, 0x0240100803001C05, .imin al .n16 (dv 1) (sv 2) (sv 3)),
    (.V, 0x0280100803001C07, .imax al .n8 (dv 1) (sv 2) (sv 3)),
    (.V, 0x02C0100800001C08, .iabs al true .s32 (dv 1) (sv 2))] = true := by decide

/-- Words of the tables of 05. -/
theorem test_words_V1 : decodesAll [
    (.V, 0x0300201006001C01, .iaddx al true (dv 2) (sv 4) (sv 6)),
    (.V, 0x0340201407021C00, .imadx al false (dv 2) (sv 5) (sv 7) (sv 8)),
    (.V, 0x0400100803001C00, .and al .s32 (dv 1) (sv 2) (sv 3)),
    (.V, 0x0440100803001C01, .or al .n32 (dv 1) (sv 2) (sv 3)),
    (.V, 0x0480201006001C02, .xor al .s64 (dv 2) (sv 4) (sv 6)),
    (.V, 0x04C0100803001C00, .andn al .s32 (dv 1) (sv 2) (sv 3)),
    (.V, 0x0500100803C15C00, .lop3 al (dv 1) (sv 2) (sv 3) (sc 5)),
    (.V, 0x0540100803001C00, .shl al .s32 (dv 1) (sv 2) (sv 3)),
    (.V, 0x0580100803001C01, .shr al .n32 (dv 1) (sv 2) (sv 3)),
    (.V, 0x05C0201003001C02, .sra al .s64 (dv 2) (sv 4) (sv 3)),
    (.V, 0x0600100803001C00, .rot al .s32 (dv 1) (sv 2) (sv 3)),
    (.V, 0x0640100803001C01, .bfx al .n32 (dv 1) (sv 2) (sv 3))] = true := by decide

/-- Words of the tables of 05. -/
theorem test_words_V2 : decodesAll [
    (.V, 0x0680100803011C00, .bfi al .s32 (dv 1) (sv 2) (sv 3) (sv 4)),
    (.V, 0x06C0100800001C02, .popc al .s64 (dv 1) (sv 2)),
    (.V, 0x0700100800001C00, .clz al .s32 (dv 1) (sv 2)),
    (.V, 0x0740201000001C03, .brev al .n64 (dv 2) (sv 4)),
    (.V, 0x0820300803001C26, .icmp al .gt .s8 ⟨true, 3⟩ (sv 2) (sv 3)),
    (.V, 0x0840300803001C0D, .fcmp al .geu (dp 3) (sv 2) (sv 3)),
    (.V, 0x0880100803001C03, .plop al .andn (dp 1) 2 3),
    (.V, 0x08D0401800001C01, .pmov al (.toScalar (ds 4) 6)),
    (.V, 0x0A00100803001C05, .fadd al true .rtz (dv 1) (sv 2) (sv 3)),
    (.V, 0x0A40100803001C02, .fsub al false .rdn (dv 1) (sv 2) (sv 3)),
    (.V, 0x0A80100803001C03, .fmul al false .rup (dv 1) (sv 2) (sv 3)),
    (.V, 0x0AC0100803011C04, .ffma al true .rne (dv 1) (sv 2) (sv 3) (sv 4))] = true := by decide

/-- Words of the tables of 05. -/
theorem test_words_V3 : decodesAll [
    (.V, 0x0B00100803001C00, .fmin al (dv 1) (sv 2) (sv 3)),
    (.V, 0x0B40100803001C00, .fmax al (dv 1) (sv 2) (sv 3)),
    (.V, 0x0B80100800001C03, .frnd al .rup (dv 1) (sv 2)),
    (.V, 0x0C00100800001C00, .frcp al (dv 1) (sv 2)),
    (.V, 0x0C40100800001C00, .frsq al (dv 1) (sv 2)),
    (.V, 0x0C80100800001C00, .fsqrt al (dv 1) (sv 2)),
    (.V, 0x0CC0100800001C00, .fexp2 al (dv 1) (sv 2)),
    (.V, 0x0D00100800001C00, .flog2 al (dv 1) (sv 2)),
    (.V, 0x0D40100800001C00, .fsin al (dv 1) (sv 2)),
    (.V, 0x0D80100800001C00, .fcos al (dv 1) (sv 2)),
    (.V, 0x0E00100803001C0B, .hadd2 al true .rtz true (dv 1) (sv 2) (sv 3)),
    (.V, 0x0E40100803001C04, .hmul2 al false .rdn false (dv 1) (sv 2) (sv 3))] = true := by decide

/-- Words of the tables of 05. -/
theorem test_words_V4 : decodesAll [
    (.V, 0x0E80100803011C07, .hfma2 al false .rup true (dv 1) (sv 2) (sv 3) (sv 4)),
    (.V, 0x1000100800001C0C, .cvti al .rtz .s16 (dv 1) (sv 2)),
    (.V, 0x1040100800001C13, .cvtf al .rdn .n64 (dv 1) (sv 2)),
    (.V, 0x1080100800001C07, .cvth al (dv 1) (.up true true (sv 2))),
    (.V, 0x10C0100803011C05, .cvtn al 5 (dv 1) (.pk (sv 2) (sv 3) (sv 4))),
    (.V, 0x1200100803001C03, .shfl al false .flip (dv 1) (sv 2) (sv 3)),
    (.V, 0x1240201003019C2D, .shfx al true .seg16 .sub (dv 2) (sv 4) (sv 3) (sv 6)),
    (.V, 0x1290700C00001C03, .vote al (.mask (ds 7)) 3),
    (.V, 0x12D0201103001C20, .rdlane al true (ds 2) (sv 4) (ss 3)),
    (.V, 0x1300140B03001C00, .wrlane al false (dv 1) (ss 2) (sc 3)),
    (.V, 0x1340100800001C0D, .iscan al .n32 true .min (dv 1) (sv 2)),
    (.V, 0x1390201000001C12, .ired al .s64 .max (ds 2) (sv 4))] = true := by decide

/-- Words of the tables of 05. -/
theorem test_words_V5 : decodesAll [
    (.V, 0x1410300000001C00, .emrd (ds 3)),
    (.V, 0x1440040C00001C00, .emwr (ss 3)),
    (.V, 0x14800C0400001C00, .emand (sc 1)),
    (.V, 0x14C0040000001C00, .emor (ss 0))] = true := by decide

/-- Words of the tables of 05. -/
theorem test_words_K0 : decodesAll [
    (.V, 0x8000300112345678, .movK 1 (dv 3) 305419896),
    (.V, 0x81003016FFFFFFFF, .iaddK 2 (dv 3) (sv 5) 4294967295),
    (.V, 0x8140301700000007, .isubK 3 (dv 3) (sv 5) 7),
    (.V, 0x8180301480000000, .imulK 0 (dv 3) (sv 5) 2147483648),
    (.V, 0x84003014000000FF, .andK 0 (dv 3) (sv 5) 255),
    (.V, 0x8440301400000100, .orK 0 (dv 3) (sv 5) 256),
    (.V, 0x8480301400000001, .xorK 0 (dv 3) (sv 5) 1),
    (.V, 0x8540301400000028, .shlK 0 (dv 3) (sv 5) 40),
    (.V, 0x8580301400000003, .shrK 0 (dv 3) (sv 5) 3),
    (.V, 0x85C030140000001F, .sraK 0 (dv 3) (sv 5) 31),
    (.V, 0x8A0030143F800000, .faddK 0 (dv 3) (sv 5) 1065353216),
    (.V, 0x8A80301440000000, .fmulK 0 (dv 3) (sv 5) 1073741824)] = true := by decide

/-- Words of the tables of 06. -/
theorem test_words_M0 : decodesAll [
    (.M, 0x0000841002FC9FEB, .ld al (some 7) .w64 true .keep ⟨ss 4, sv 2, true, 252⟩ (dv 8)),
    (.M, 0x00409413FF015C11, .st al none .n16 true .stream ⟨ss 4, sc 255, false, 1⟩ (sv 9)),
    (.M, 0x0080841002FCCC22, .ldp 3 none .w32 .fresh ⟨ss 4, sv 2, true, 252⟩ (dv 8)),
    (.M, 0x00C08413FF011C04, .lds al none .b128 ⟨ss 4, sc 255, false, 1⟩ (dv 8)),
    (.M, 0x01008413FF011C00, .sts al none .n8 ⟨ss 4, sc 255, false, 1⟩ (sv 8)),
    (.M, 0x0140841002FC1C26, .ldl al none .s16 ⟨ss 4, sv 2, true, 252⟩ (dv 8)),
    (.M, 0x0180841002FC1C22, .stl al none .w32 ⟨ss 4, sv 2, true, 252⟩ (sv 8)),
    (.M, 0x01C08413FF011C05, .ldw al none .s8 ⟨ss 4, sc 255, false, 1⟩ (dv 8)),
    (.M, 0x040084180903DC7A, .atom al (some 0) .fadd .w32 .acqrel ⟨ss 6, 3⟩ (sv 9) (dv 8)),
    (.M, 0x0440841BFF039C12, .red al none .or .w32 true ⟨ss 6, 3⟩ (sv 8)),
    (.M, 0x048084180C031C0B, .cas al none .w64 .acq ⟨ss 6, 3⟩ (sv 12) (dv 8)),
    (.M, 0x04C0841809035C22, .atoml al none .min .w32 ⟨ss 6, 3⟩ (sv 9) (dv 8))] = true := by decide

/-- Words of the tables of 06. -/
theorem test_words_M1 : decodesAll [
    (.M, 0x0500841809031C02, .casl al none .w32 ⟨ss 6, 3⟩ (sv 9) (dv 8)),
    (.M, 0x0600000000001CC0, .fence al (some 1)),
    (.M, 0x0640000000001C00, .drain al none),
    (.M, 0x0800041BFF001C03, .barw al none ⟨ss 6, 0⟩),
    (.M, 0x0840041BFF031C03, .bara al none ⟨ss 6, 3⟩),
    (.M, 0x0880041907031C03, .barm al none ⟨ss 6, 3⟩ (ss 7)),
    (.M, 0x08C0041B0F031C03, .barinit al none ⟨ss 6, 3⟩ (sc 15)),
    (.M, 0x0A10241BFF031C0B, .mon al none .w64 true ⟨ss 6, 3⟩ (ds 2)),
    (.M, 0x0A40000000001D40, .mwait al (some 2)),
    (.M, 0x0C00041002FC9C24, .prf al none .b128 .keep ⟨ss 4, sv 2, true, 252⟩),
    (.M, 0x0C400413FF011C02, .own al none .w32 ⟨ss 4, sc 255, false, 1⟩),
    (.M, 0x0C800413FF011C00, .unown al none .n8 ⟨ss 4, sc 255, false, 1⟩)] = true := by decide

/-- Words of the tables of 06. -/
theorem test_words_M2 : decodesAll [
    (.M, 0x0CC0041002FC1C23, .cwb al none .w64 ⟨ss 4, sv 2, true, 252⟩),
    (.M, 0x0D000413FF011C01, .cinv al none .n16 ⟨ss 4, sc 255, false, 1⟩)] = true := by decide

/-- Words of the tables of 04. -/
theorem test_words_C0 : decodesAll [
    (.C, 0x0000020000000005, .bra 2 5),
    (.C, 0x00504700FFFFFFFF, .brz al (ss 4) 0xFFFFFFFF),
    (.C, 0x0090470000000002, .brnz al (ss 4) 2),
    (.C, 0x00C0670000000003, .brany al 6 3),
    (.C, 0x0100170000000004, .brall al 1 4),
    (.C, 0x0150870000000009, .call al 8 9),
    (.C, 0x0190870000000000, .ret al 8),
    (.C, 0x01D0AC0000000000, .jmpi 12 10),
    (.C, 0x02103700FFFFFFF0, .loop al 3 0xFFFFFFF0),
    (.C, 0x0240080000000000, .exit 8),
    (.C, 0x0280070000000000, .yield al),
    (.C, 0x02D0370000000006, .yieldc al 3 6)] = true := by decide

/-- Words of the tables of 04. -/
theorem test_words_C1 : decodesAll [
    (.C, 0x03000700000000FF, .trap al 255),
    (.C, 0x0340070000000001, .brk al 1),
    (.C, 0x0380070000000000, .nop al)] = true := by decide

/-- Words of the tables of 16. -/
theorem test_words_X0 : decodesAll [
    (.X, 0x0000540800001C40, .tcfg (some 0) 5 (ss 2)),
    (.X, 0x0040540904001C01, .tld none 5 ⟨true, ss 2⟩ (.data (ss 4))),
    (.X, 0x0080540D04001C02, .tst none 5 ⟨false, ss 3⟩ (.sc (ss 4))),
    (.X, 0x00C0700000001C00, .tzero none 7),
    (.X, 0x0100100803001C00, .tmma none 1 2 3),
    (.X, 0x0140100803425C00, .tloop none 1 2 3 (ss 9)),
    (.X, 0x0180100803001C00, .tmmb none 1 2 3),
    (.X, 0x01C0100806000423, .tvxm 1 none 3 4 1 2 (sv 6)),
    (.X, 0x0200001102415C05, .tdrain none ⟨true, ss 2⟩ false true 4 (ss 5)),
    (.X, 0x0240001800001C00, .twait none (some 6)),
    (.X, 0x0280100800001C00, .tcvt none 1 2),
    (.X, 0x02C0100800001C00, .ttr none 1 2)] = true := by decide

/-- Words of the tables of 16. -/
theorem test_words_X1 : decodesAll [
    (.X, 0x0300140800001C00, .tfill none 1 (ss 2)),
    (.X, 0x0400040905001C00, .wsync none (ss 2) (ss 5)),
    (.X, 0x0450340800001C00, .wsinfo none (ds 3) (ss 2))] = true := by decide

/-- Words of the tables of 14. -/
theorem test_words_S0 : decodesAll [
    (.S, 0x0000040904419CC0, .cpy (some 1) none (ss 2) (ss 4) (ss 6)),
    (.S, 0x0050940904419C01, .cpym none (some (ss 9)) (ss 2) (ss 4) (ss 6)),
    (.S, 0x0080040904419CC0, .cpt (some 1) none (ss 2) (ss 4) (ss 6)),
    (.S, 0x00C0040904419CC0, .cpg (some 1) none (ss 2) (ss 4) (ss 6)),
    (.S, 0x0100040B03001C01, .tbinit none true (ss 2) (sc 3)),
    (.S, 0x0150440903001C00, .tbarr none (ds 4) (ss 2) (ss 3)),
    (.S, 0x0180040903001C00, .tbexp none (ss 2) (ss 3)),
    (.S, 0x01C0040903001C00, .tbwait none (ss 2) (ss 3)),
    (.S, 0x02000C0502001C00, .rbind none (sc 1) (ss 2)),
    (.S, 0x02504C0400001C00, .racq none (ds 4) (sc 1)),
    (.S, 0x02800C0502001C00, .rrel none (sc 1) (ss 2)),
    (.S, 0x02D0440800001C02, .srd none (.sectors (ss 2)) (ds 4))] = true := by decide

/-- Words of the tables of 11. -/
theorem test_words_E0 : decodesAll [
    (.E, 0x0010140905001C10, .eqry none true (ds 1) (ss 2) (ss 5)),
    (.E, 0x0050400000001C00, .enext none false (ds 4)),
    (.E, 0x0080401800001C0A, .erow al none true 2 (dv 4) (sv 6)),
    (.E, 0x00C0401809C05C03, .ecol al none 3 (dv 4) (sv 6) (sv 9) (sc 1)),
    (.E, 0x0100001800000005, .ehchk 0 none 5 (sv 6)),
    (.E, 0x014080180902DC29, .eget al none .b128 true 1 (dv 8) (sv 6) (sv 9) (sv 11)),
    (.E, 0x018080180902DC11, .eput al none .b64 false 1 (sv 8) (sv 6) (sv 9) (sv 11)),
    (.E, 0x01C040240C001C1A, .ecrt al none true 2 (dv 4) (some (true, sv 9, sv 12))),
    (.E, 0x0200001800001C09, .edel al none true 1 (sv 6)),
    (.E, 0x0240001809031C01, .eadd al none false false 1 (sv 6) (sv 9) (sv 12)),
    (.E, 0x0280001809001C01, .erem al none false 1 (sv 6) (sv 9)),
    (.E, 0x02C0001809031C11, .eset al none true false 1 (sv 6) (sv 9) (sv 12))] = true := by decide

/-- Words of the tables of 11. -/
theorem test_words_E1 : decodesAll [
    (.E, 0x0310100000001C00, .ecmt al none (ds 1)),
    (.E, 0x0350140800001C00, .esync none (ds 1) (ss 2)),
    (.E, 0x0390140903001C08, .epin none true (ds 1) (ss 2) (ss 3)),
    (.E, 0x03C0040903001C00, .eunpin none (ss 2) (ss 3)),
    (.E, 0x0410140800001C10, .ever none true (ds 1) (ss 2))] = true := by decide

/-- Words of the tables of 13. -/
theorem test_words_T0 : decodesAll [
    (.T, 0x0000000000001E40, .txbeg (some 4) false),
    (.T, 0x0060500000001C00, .txend none ⟨true, 5⟩),
    (.T, 0x0080000000000C00, .txabt 3 none),
    (.T, 0x00D0600000001C00, .txst none false (ds 6)),
    (.T, 0x0100900000001C00, .txcause al none (dv 9))] = true := by decide

/-- Words of the tables of 18. -/
theorem test_words_Y0 : decodesAll [
    (.Y, 0x0000004103001C03, .rycl al none 3 (sv 16) (ss 3)),
    (.Y, 0x0040002301001C02, .ryany al 2 (sv 8) (sc 1)),
    (.Y, 0x0080002005001DC0, .ryocc al (some 3) 0 (sv 8) (sv 5)),
    (.Y, 0x00C0001800001C00, .ryacc al none 6),
    (.Y, 0x0100700000001C05, .ryres al none .kind (dv 7)),
    (.Y, 0x0140400000001C00, .rywait none (dp 4)),
    (.Y, 0x0180000000001C06, .ryinv none (some 3)),
    (.Y, 0x01C0041800001C01, .rygeo none 1 (ss 6)),
    (.Y, 0x02105C1000001C00, .rypst none (ds 5) (sc 4))] = true := by decide

/-- Words of the tables of 08 and 22. -/
theorem test_words_Z0 : decodesAll [
    (.Z, 0x00104C2000001C00, .zrd none (ds 4) (sc 8)),
    (.Z, 0x00400C2504001C00, .zwr none (sc 9) (ss 4)),
    (.Z, 0x0080000000001C01, .tlbi none none),
    (.Z, 0x00C0000000001EC0, .tlbsync (some 5)),
    (.Z, 0x0100000000001C01, .trapret true),
    (.Z, 0x01502C0504001C00, .ctxsv none (ds 2) (sc 1) (ss 4)),
    (.Z, 0x01902C0504001C00, .ctxld none (ds 2) (sc 1) (ss 4)),
    (.Z, 0x01C0040904419C00, .wsld none (ss 2) (ss 4) (ss 6))] = true := by decide

/-- Words of the tables of 20. -/
theorem test_words_G0 : decodesAll [
    (.G, 0x00102C1504001C00, .gsub none (ds 2) (sc 5) (ss 4)),
    (.G, 0x00502C1503001C00, .gkick none (ds 2) (sc 5) (ss 3)),
    (.G, 0x0080040904001C00, .gsig none false (ss 2) (ss 4)),
    (.G, 0x00C0040904001F40, .gwait (some 6) (ss 2) (ss 4)),
    (.G, 0x0110241106001C00, .gdep none (ds 2) (ss 4) (ss 6))] = true := by decide

end Sys2Proof.Tests
end

