-- ==== Sys2Proof/Tests/Slice0.lean ====
section
/-! SUPPORT. The well-formedness smoke test, with an ill-formed term for each check, and small tests of one step each: expected values are those of the case tables and the text of spec/. -/

namespace Sys2Proof.Tests
open Sys2Proof.Machine

/-! ## Ill-formed terms (R46, R48 to R57) -/

/-- Registers out of range or misaligned, constants that are not listed, types an instruction has not. -/
theorem test_wf_fields : [
    Instr.mov al .s16 (dv 1) (sv 2), .mov al .s64 (dv 1) (sv 2), .mov al .s64 (dv 2) (sv 3), .mov al .n32 (ds 64) (ss 1),
    .mov al .n32 (dv 1) (.c 0x73), .movk al (dv 3) (sv 2) (sv 4), .movs al (ds 5) .lane, .movs al (dv 5) .clock,
    .sel al .s64 (dv 2) (sv 4) (sv 5) 1, .iadd al false .s32 (ds 3) (sv 1) (ss 2), .imulh al .s16 (dv 1) (sv 2) (sv 3),
    .imad al false .n64 (dv 2) (sv 4) (sv 6) (sv 9), .iabs al false .n32 (dv 1) (sv 2), .iaddx al false (dv 3) (sv 4) (sv 6),
    .imadx al false (dv 2) (sv 4) (sv 5) (sv 7), .and al .s8 (dv 1) (sv 2) (sv 3), .lop3 al (dv 1) (sv 2) (sv 3) (sv 4),
    .shl al .s64 (dv 2) (sv 3) (sv 4), .bfx al .s64 (dv 2) (sv 5) (sv 6), .bfi al .n32 (dv 1) (sv 2) (sv 3) (.c 0x73), .popc al .s64 (dv 1) (sv 3),
    .brev al .n8 (dv 1) (sv 2)].all (fun i => !instrWf i) = true := by decide

theorem test_wf_vector : [
    Instr.icmp al .eq .s64 (dp 1) (sv 3) (sv 4), .fcmp al .eq (dp 1) (.c 0x73) (sv 2), .pmov al (.toPred (dp 1) (sv 2)), .pmov al (.toScalar (dv 1) 2),
    .fadd al false .rne (ds 1) (sv 2) (ss 3), .ffma al false .rne (dv 1) (sv 2) (sv 3) (.c 0x73), .fmin al (ds 1) (ss 2) (sv 3),
    .frnd al .rne (ds 1) (sv 2), .frcp al (ds 1) (sv 2), .hadd2 al false .rne false (ds 1) (sv 2) (ss 3),
    .hfma2 al false .rne false (ds 1) (sv 2) (ss 3) (ss 4), .cvti al .rne .s64 (dv 1) (sv 2), .cvtf al .rne .s64 (dv 1) (sv 3),
    .cvth al (ds 1) (.pk false .rne false (sv 2) (ss 3)), .cvth al (ds 1) (.up false false (sv 2)), .cvtn al 0 (ds 1) (.pk (sv 1) (ss 2) (ss 3)),
    .cvtn al 0 (ds 1) (.up (sv 2) (ss 3)), .shfl al true .abs (dv 2) (sv 3) (sv 4), .shfx al false .seg8 .add (dv 2) (sv 3) (sv 4) (.c 0x73),
    .vote al (.mask (dv 1)) 2, .rdlane al false (dv 1) (sv 2) (ss 3), .rdlane al false (ds 1) (sv 2) (sv 3), .wrlane al false (ds 1) (ss 2) (ss 3),
    .wrlane al false (dv 1) (sv 2) (ss 3), .iscan al .n32 false .add (ds 1) (sv 2), .ired al .s64 .add (dv 1) (sv 2), .emrd (dv 1), .emwr (sv 1),
    .movK 0 (ds 64) 1, .iaddK 0 (ds 1) (sv 2) 1].all (fun i => !instrWf i) = true := by decide

theorem test_wf_memory : [
    Instr.ld al none .w32 false .dflt ⟨ss 5, sc 0, false, 0⟩ (dv 1), .ld al none .w32 false .dflt ⟨sv 4, sc 0, false, 0⟩ (ds 1),
    .st al none .s16 false .dflt atS4 (sv 1), .st al none .b128 false .dflt atS4 (sv 2), .ldp 7 none .w32 .dflt atS4 (dv 1),
    .ldp 1 none .w32 .dflt atS4 (ds 1), .lds al none .w64 atS4 (dv 1), .ldl al none .w32 atS4 (ds 1), .sts al none .s8 atS4 (sv 1),
    .ldw al none .b128 atS4 (dv 2), .atom al none .fadd .w64 .plain atS4b (sv 2) (dv 4), .atom al none .add .w32 .plain atS4b (sv 2) (ds 4),
    .red al none .fadd .w64 false atS4b (sv 2), .cas al none .w32 .plain atS4b (sv 2) (dv 5), .atoml al none .fadd .w64 atS4b (sv 2) (dv 4),
    .casl al none .w64 atS4b (sv 2) (dv 6), .barw al none ⟨sv 4, 0⟩, .barm al none atS4b (sv 4), .barinit al none ⟨sv 4, 0⟩ (ss 1),
    .mon al none .w32 false atS4b (dv 1), .prf al none .s8 .dflt atS4, .own al none .n8 ⟨ss 5, sc 0, false, 0⟩, .brz al (sv 4) 1, .call al 3 1,
    .ret al 5, .jmpi al 1].all (fun i => !instrWf i) = true := by decide

theorem test_wf_engines : [
    Instr.tcfg none 1 (sv 1), .tld none 1 ⟨true, ss 5⟩ .ts, .tst none 1 ⟨false, sv 4⟩ .ts, .tld none 1 ⟨false, ss 4⟩ (.data (sv 1)), .tloop none 1 2 3 (sv 4),
    .tvxm al none 0 1 2 3 (sv 5), .tdrain none ⟨true, ss 4⟩ true true 1 (sv 1), .tfill none 1 (sv 1), .wsync none (ss 5) (ss 1), .wsinfo none (dv 1) (ss 1),
    .cpy none (some (sv 1)) (ss 2) (ss 4) (ss 6), .cpg none none (ss 3) (ss 4) (ss 6), .tbinit none false (sv 1) (ss 1), .tbarr none (dv 1) (ss 1) (ss 2),
    .tbwait none (sv 1) (ss 1), .rbind none (ss 1) (ss 3), .racq none (ds 3) (ss 1), .rrel none (ss 1) (sv 1), .srd none (.phase (sv 1)) (ds 1),
    .srd none .jobs (dv 1), .eqry none false (ds 1) (ss 3) (ss 1), .enext none false (dv 2), .erow al none false 1 (ds 2) (sv 4),
    .ecol al none 1 (dv 2) (sv 5) (sv 6) (ss 1), .ehchk al none 1 (sv 5), .eget al none .b128 false 1 (dv 2) (sv 4) (sv 6) (sv 7),
    .eput al none .b64 false 1 (sv 3) (sv 4) (sv 6) (sv 7), .ecrt al none false 1 (dv 2) (some (false, sv 4, .c 0)), .edel al none false 1 (sv 5),
    .eadd al none true false 1 (sv 4) (sv 6) (sv 9), .erem al none false 1 (sv 5) (sv 6), .ecmt al none (dv 1), .esync none (dv 1) (ss 1),
    .epin none false (ds 1) (sv 1) (ss 1), .eunpin none (sv 1) (ss 1), .ever none false (dv 1) (ss 1), .txst none false (dv 1), .txcause al none (ds 1),
    .rycl al none 0 (sv 4) (ss 1), .ryany al 0 (ss 8) (ss 1), .ryres al none .t (ds 1), .rygeo none 0 (ss 3), .rypst none (dv 1) (ss 1),
    .zrd none (dv 1) (ss 1), .zwr none (sv 1) (ss 1), .tlbi none (some (sc 0, ss 1)), .ctxsv none (ds 1) (ss 1) (ss 3), .wsld none (ss 1) (ss 3) (ss 1),
    .gsub none (dv 1) (ss 1) (ss 2), .gkick none (ds 1) (sv 1) (ss 2), .gsig none false (ss 3) (ss 4), .gwait none (ss 2) (ss 5),
    .gdep none (dv 1) (ss 2) (ss 4)].all (fun i => !instrWf i) = true := by decide

/-! ## Decoding cases (Table 3-13) -/

def refuses (c : Cls) (last : Bool) (w : DWord) (e : DecErr) : Bool :=
  match decodeWord c last w with
  | .ok _ => false
  | .error x => x == e

/-- CLASS 11; TAILC in class C; LUA bit 5 with COUNT 2; a reserved bit. -/
theorem test_dec_headers : decodeHeader 0xB000000000000000 = none ∧ decodeHeader 0x2000400000000000 = none ∧ decodeHeader 0x0200000800000000 = none ∧
    decodeHeader 1 = none := by decide

/-- OPC 0x205 in class M, OPC 0x209 in class V: no such instruction. -/
theorem test_dec_opcodes : refuses .M true (0x205 <<< 54) .illOp = true ∧ refuses .V true (0x209 <<< 54) .illOp = true := by decide

/-- A row's bits as the opcode table numbers them: the header low, the word above it. -/
theorem test_table_word : decodeTableWord 128 faddWords = some (.fadd 10 false .rne ⟨false, false, 12⟩ (.v 3) (.s 5)) := by decide

/-! ## One step each -/

/-- The train after an instruction, its vector registers given, the same in every lane. -/
def runV (i : Instr) (l : List (Nat × Word)) : Option Train :=
  match exec i (rigWith i fun t => { t with v := l.map fun p => (p.1, perLane fun _ => p.2) }) with
  | .next t => AMap.get? t.trains 1
  | _ => none

def runT (i : Instr) (f : Train → Train) : Option Train :=
  match exec i (rigWith i f) with
  | .next t => AMap.get? t.trains 1
  | _ => none

/-- Vector register k of lane 0. -/
def v0 (t : Option Train) (k : Nat) : Option Word := t.map fun x => (x.vreg k).at 0
/-- The cause of the trap that was taken. -/
def causeOf (t : Option Train) : Option Byte := t.bind fun x => if x.trap.tm then some x.trap.cause else none

/-- Table 5-11: 100 + 100 in 8 bits, and saturated; 3 − 5 saturated without sign. -/
theorem test_iadd : v0 (runV (.iadd al false .s8 (dv 1) (sv 2) (sv 3)) [(2, 100), (3, 100)]) 1 = some 0xFFFFFFC8 ∧
    v0 (runV (.iadd al true .s8 (dv 1) (sv 2) (sv 3)) [(2, 100), (3, 100)]) 1 = some 127 := by decide

theorem test_isub_sat : v0 (runV (.isub al true .n32 (dv 1) (sv 2) (sv 3)) [(2, 3), (3, 5)]) 1 = some 0 := by decide

/-- Table 5-11: counts past the width. -/
theorem test_shifts : v0 (runV (.shl al .n32 (dv 1) (sv 2) (sv 3)) [(2, 1), (3, 40)]) 1 = some 0 ∧
    v0 (runV (.sra al .n32 (dv 1) (sv 2) (sv 3)) [(2, 0x80000000), (3, 40)]) 1 = some 0xFFFFFFFF := by decide

/-- Table 5-11: a field that reaches past the width reads zeros there. -/
theorem test_bfx : v0 (runV (.bfx al .s32 (dv 1) (sv 2) (sv 3)) [(2, 0xF0000000), (3, 0x81C)]) 1 = some 0xF := by decide

/-- Table 5-11: 0.75 + 0.5 saturated, the maximum of a NaN and −3, 1/2^127, and −3.7e10 to an integer. -/
theorem test_fadd_sat : v0 (runV (.fadd al true .rne (dv 1) (sv 2) (sv 3)) [(2, 0x3F400000), (3, 0x3F000000)]) 1 = some 0x3F800000 := by decide

theorem test_fmax : v0 (runV (.fmax al (dv 1) (sv 2) (sv 3)) [(2, 0x7FC00000), (3, 0xC0400000)]) 1 = some 0xC0400000 := by decide

theorem test_frcp : v0 (runV (.frcp al (dv 1) (sv 2)) [(2, 0x7F000000)]) 1 = some 0x00400000 := by decide +kernel

theorem test_cvti : v0 (runV (.cvti al .rtz .s32 (dv 1) (sv 2)) [(2, 0xD109D5B3)]) 1 = some 0x80000000 := by decide

/-- `frnd` of −0.3 is −0 (R102). -/
theorem test_frnd : v0 (runV (.frnd al .rne (dv 1) (sv 2)) [(2, 0xBE99999A)]) 1 = some 0x80000000 := by decide

/-- Table 5-11: lane 1 receives the value of lane 30. -/
theorem test_shfl : (runT (.shfl al false .sub (dv 1) (.c 0xE0) (sc 3)) id).map (fun x => (x.vreg 1).at 1) = some 30 := by decide

/-- Table 5-11: a vote under PRED = always with no lane on writes 0. -/
theorem test_vote_mask : (runT (.vote al (.mask (ds 3)) 7) fun t => { t with em := 0, s := [(3, 9)] }).map (·.sreg 3) = some 0 := by decide

/-- Table 4-9: `bra` with no lane on is taken; under a guard that no lane has it is not. -/
theorem test_bra : (runT (.bra al 4) fun t => { t with em := 0 }).map (·.pc) = some 0x10028 ∧ (runT (.bra 2 4) id).map (·.pc) = some 0x10010 := by decide

/-- Table 4-9: `ret` to an address that ends in 4. -/
theorem test_ret : causeOf (runT (.ret al 4) (sregs [(4, 0x20004)])) = some 0x04 ∧
    (runT (.ret al 4) (sregs [(4, 0x20004)])).map (·.trap.tval) = some 0x20004 := by decide

/-- Table 4-9: `loop` under a guard that no lane has changes nothing. -/
theorem test_loop : (runT (.loop 0 1 0xFFFFFFFF) (sregs [(1, 5)])).map (·.sreg 1) = some 5 ∧
    (runT (.loop al 1 0xFFFFFFFF) (sregs [(1, 5)])).map (fun x => (x.sreg 1, x.pc)) = some (4, 0x10000) := by decide

/-- R74: a trap saves its word, its header and the next header, and goes to the vector. -/
theorem test_trap : (runT (.trap al 7) lane0).map (fun x => (x.trap.trappc, x.trap.thdr, x.trap.tnext, x.pc)) = some (0x10008, 0x10000, 0x10010, 0x20000) ∧
    (runT (.trap al 7) lane0).map (fun x => (x.trap.cause, x.trap.tval, x.trap.tlanes, x.trap.tem, x.em)) = some (0x10, 7, 1, 1, 0xFFFFFFFF) := by decide

/-- R112: `emwr` cannot bring back a lane that `exit` has ended. -/
theorem test_emwr : (runT (.emwr (.c 0x40)) fun t => { t with live := 0xFFFFFFFE, em := 2 }).map (·.em) = some 0xFFFFFFFE := by decide

/-- Table 6-10: a word at an address that ends in 2. -/
theorem test_ld_misaligned : causeOf (runT (.ld al none .n16 false .dflt atS4 (dv 1)) (at_ 0x10001)) = some 0x04 := by decide

/-- Table 6-10: `sts` past LOCAL. -/
theorem test_sts_range : causeOf (runT (.sts al none .w32 atS4 (sv 1)) (at_ 0x80000)) = some 0x06 := by decide

/-- Table 6-10: `mwait` with no `mon` returns at once. -/
theorem test_mwait : (runT (.mwait al none) id).map (fun x => (x.wait, x.clause.isNone)) = some (none, true) := by decide

/-- R131: an atomic add on the local store, one lane after the other, each with the old value. -/
theorem test_atoml : (runT (.atoml al none .add .w32 atS4b (.c 1) (dv 8)) (fun t => { at_ 0x100 t with em := 3 })).map (fun x => ((x.vreg 8).at 0, (x.vreg 8).at 1)) =
    some (0, 1) := by decide

/-- Table 13-11 and R228: `txend` outside a bracket. -/
theorem test_txend : causeOf (runT (.txend none (dp 1)) id) = some 0x0B := by decide

/-- R366: `zrd` of a number that is not listed; ZS_VCTX reads the context's number. -/
theorem test_zrd : causeOf (runT (.zrd none (ds 4) (sc 63)) id) = some 0x03 ∧ (runT (.zrd none (ds 4) (sc 0x11)) (sregs [(4, 9)])).map (·.sreg 4) = some 0 := by
  decide

/-- R48: a register that its last-use bit frees and that the result is written to holds the result. -/
theorem test_last_use : (runT (.iadd al false .n32 (dv 2) (sv 2) (sc 1)) fun t =>
    { t with v := [(2, perLane fun _ => 6)], clause := t.clause.map fun c => { c with word := 0x0000000040000000 } }).map (fun x => (x.vreg 2).at 0) = some 7 := by
  decide

/-- A step from `withFetchWord` runs the word placed: `iadd v7, v2, #1000` (03, format VK example) under the guard always, with v2 zero. -/
theorem test_step_placed : (match step (placed (0x81007008000003E8 * 2 ^ 64)) with
    | .next t => v0 (AMap.get? t.trains 1) 7
    | _ => none) = some 1000 := by decide

end Sys2Proof.Tests
end

