-- ==== Sys2Proof/Tests/WitnessV.lean ====
section
/-! SUPPORT. Witnesses for the statements about classes V and C and about traps: states and operands that meet the hypotheses together. -/

namespace Sys2Proof.Tests
open Sys2Proof.Machine

/-! ## Class V -/

def intForms : List Instr := [
  .mov al .n32 (dv 1) (sv 2), .movk al (dv 2) (sv 3) (ss 4), .sel al .s64 (dv 6) (sv 8) (sv 10) 2,
  .iadd al true .s8 (dv 1) (sv 2) (sv 3), .isub al false .n32 (ds 3) (ss 1) (sc 2), .imul al false .s16 (dv 1) (sv 2) (sv 3),
  .imulh al .n64 (dv 2) (sv 4) (sv 6), .imad al true .s32 (dv 1) (sv 2) (sv 3) (sv 4), .imin al .n16 (dv 1) (sv 2) (sv 3),
  .imax al .s64 (dv 2) (sv 4) (sv 6), .iabs al true .s32 (dv 1) (sv 2), .iaddx al false (dv 2) (sv 4) (sv 6),
  .imadx al true (dv 2) (sv 4) (sv 5) (sv 6)]

theorem witness_IntegerResults_table : ∀ i ∈ intForms,
    begins (rig i) i = true ∧ (intTable (issOf (rig i) i) i).isSome = true := by decide

def bitForms : List Instr := [
  .and al .s32 (dv 1) (sv 2) (sv 3), .or al .n64 (dv 2) (sv 4) (sv 6), .xor al .n32 (dv 1) (sv 2) (sc 64),
  .andn al .n32 (ds 3) (ss 1) (ss 2), .shl al .n32 (dv 1) (sv 2) (sc 32), .shr al .s64 (dv 2) (sv 4) (sv 6),
  .sra al .s64 (dv 2) (sv 4) (sc 64), .rot al .n32 (dv 1) (sv 2) (sv 3), .brev al .n64 (dv 2) (sv 4)]

theorem witness_IntegerResults_bits : ∀ i ∈ bitForms,
    begins (rig i) i = true ∧ (bitTable (issOf (rig i) i) i).isSome = true := by decide

def kForms : List Instr := [
  .movK 0 (dv 1) 5, .iaddK 0 (dv 1) (sv 2) 5, .isubK 1 (dv 1) (sv 2) 0xFFFFFFFF, .imulK 0 (dv 1) (sv 2) 5,
  .andK 0 (dv 1) (sv 2) 5, .orK 0 (dv 1) (sv 2) 5, .xorK 0 (dv 1) (sv 2) 5, .shlK 0 (dv 1) (sv 2) 32, .shrK 0 (dv 1) (sv 2) 31,
  .sraK 0 (dv 1) (sv 2) 255, .faddK 0 (dv 1) (sv 2) 0x3F800000, .fmulK 0 (dv 1) (sv 2) 0x3F800000]

theorem witness_IntegerResults_k : ∀ i ∈ kForms,
    begins (rig i) i = true ∧ (kTable (issOf (rig i) i) i).isSome = true := by decide

def floatForms : List Instr := [
  .fadd al true .rne (dv 1) (sv 2) (sv 3), .fsub al false .rtz (dv 1) (sv 2) (sv 3), .fmul al false .rup (dv 1) (sv 2) (sv 3),
  .ffma al false .rdn (dv 1) (sv 2) (sv 3) (sv 4), .fmin al (dv 1) (sv 2) (sv 3), .fmax al (dv 1) (sv 2) (sv 3),
  .frnd al .rtz (dv 1) (sv 2), .frcp al (dv 1) (sv 2), .frsq al (dv 1) (sv 2), .fsqrt al (dv 1) (sv 2), .fexp2 al (dv 1) (sv 2),
  .flog2 al (dv 1) (sv 2), .fsin al (dv 1) (sv 2), .fcos al (dv 1) (sv 2), .hadd2 al true .rne true (dv 1) (sv 2) (sv 3),
  .hmul2 al false .rne false (dv 1) (sv 2) (sv 3), .hfma2 al true .rne true (dv 1) (sv 2) (sv 3) (sv 4),
  .cvti al .rtz .s64 (dv 2) (sv 4), .cvtf al .rne .n16 (dv 1) (sv 2), .cvth al (dv 1) (.pk true .rne true (sv 2) (sv 3)),
  .cvth al (dv 1) (.up true false (sv 2)), .faddK 0 (dv 1) (sv 2) 0x3F800000, .fmulK 0 (dv 1) (sv 2) 0xBF800000]

theorem witness_FloatResults : ∀ i ∈ floatForms,
    begins (rig i) i = true ∧ (floatTable (issOf (rig i) i) i).isSome = true := by decide

def predForms : List Instr := [
  .icmp al .lt .s16 (dp 1) (sv 2) (sv 3), .fcmp al .geu (dp 7) (sv 2) (sv 3), .plop al .orn (dp 2) 7 1,
  .pmov al (.toPred (dp 1) (ss 2)), .vote al (.some (dp 1)) 2, .vote al (.every (dp 1)) 2, .vote al (.agree ⟨true, 0⟩) 2]

theorem witness_PredicateResults : ∀ i ∈ predForms,
    begins (rig i) i = true ∧ (predTable (issOf (rig i) i) i).isSome = true := by decide

def redForms : List Instr := [
  .pmov al (.toScalar (ds 1) 2), .vote al (.mask (ds 1)) 2, .rdlane al true (ds 2) (sv 4) (ss 6), .emrd (ds 1),
  .ired al .s64 .add (ds 2) (sv 4), .ired 0 .n32 .or (ds 2) (sv 4)]

theorem witness_ReducingResults : ∀ i ∈ redForms,
    begins (rig i) i = true ∧ (redTable (issOf (rig i) i) i).isSome = true := by decide

/-- Under PRED = always with no lane on. -/
theorem witness_ReducingResults_em0 :
    let s := rigWith (.emrd (ds 1)) fun t => { t with em := 0 }
    begins s (.emrd (ds 1)) = true ∧ (issOf s (.emrd (ds 1))).act = 0 := by decide

def fieldForms : List Instr := [
  .lop3 al (dv 1) (sv 2) (sv 3) (sc 63), .bfx al .s64 (dv 2) (sv 4) (sv 6), .bfi al .n32 (dv 1) (sv 2) (sv 3) (sv 4),
  .popc al .n64 (dv 1) (sv 2), .clz al .n32 (dv 1) (sv 2), .shfx al true .seg8 .flip (dv 2) (sv 4) (sv 6) (sv 8),
  .ired al .n32 .min (dv 2) (sv 4)]

/-- A truth table of 63 for `lop3`. -/
theorem witness_FieldResults : ∀ i ∈ fieldForms, begins (rig i) i = true ∧
    (fieldTable (issOf (rig i) i) i).isSome = true ∧ ((issOf (rig i) i).x0 (sc 63)).toNat < 256 := by decide

/-- A table value of 256 raises E_ILL_OPERAND. -/
theorem witness_FieldResults_traps :
    let i : Instr := .lop3 al (dv 1) (sv 2) (sv 3) (ss 5)
    let s := rigWith i (sregs [(5, 256)])
    begins s i = true ∧ 256 ≤ ((issOf s i).x0 (ss 5)).toNat := by decide

def specials : List Special := [.lane, .train, .wheel, .wheels, .role, .core, .ctx, .clock, .param]

theorem witness_SpecialValues : ∀ w ∈ specials, begins (rig (.movs al (dv 4) w)) (.movs al (dv 4) w) = true ∧
    wheelsOpen (rig (.movs al (dv 4) w)) (issOf (rig (.movs al (dv 4) w)) (.movs al (dv 4) w)).t = false := by decide

/-- A query domain whose join has not ended. -/
def joining (s : State) : State :=
  { s with dispatches := [(1, { placeDispatch false with joined := false, launch := { placeLaunch false with query := true } })] }

theorem witness_SpecialValues_waits :
    let s := joining (rig (.movs al (dv 4) .wheels))
    begins s (.movs al (dv 4) .wheels) = true ∧ wheelsOpen s (issOf s (.movs al (dv 4) .wheels)).t = true := by decide

def laneForms : List Instr := [
  .shfl al false .sub (dv 1) (sv 2) (sv 3), .shfl al true .abs (dv 2) (sv 4) (sv 6), .iscan al .s64 true .add (dv 2) (sv 4),
  .iscan al .n32 false .max (dv 2) (sv 4)]

theorem witness_LaneResults : (∀ i ∈ laneForms,
    begins (rig i) i = true ∧ (laneTable (issOf (rig i) i) i).isSome = true) ∧
    begins (rig (.wrlane al true (dv 2) (ss 4) (ss 6))) (.wrlane al true (dv 2) (ss 4) (ss 6)) = true := by decide

theorem witness_EmWrites : ∀ i ∈ [Instr.emwr (ss 1), .emand (ss 1), .emor (sc 64)],
    begins (rigWith i fun t => { t with em := 0 }) i = true := by decide

/-- A bracket with two open lanes. -/
def inBracket (t : Train) : Train := { t with tx := { t.tx with on := true, em := 3, opened := 3 }, em := 3 }

theorem witness_EmWrites_bracket :
    begins (rigWith (.emwr (ss 1)) inBracket) (.emwr (ss 1)) = true ∧
      (issOf (rigWith (.emwr (ss 1)) inBracket) (.emwr (ss 1))).t.inTx = true := by decide

/-- Slot 0 holds the descriptor of FP16 and slot 1 nothing legal. -/
def withSlots (s : State) : State :=
  { s with dispatches := [(1, { placeDispatch false with launch := { placeLaunch false with
      slots := ⟨#[0, 0xFFFFFFFF, 0, 0, 0, 0, 0, 0], rfl⟩ } })] }

theorem witness_CvtnResults :
    let i : Instr := .cvtn al 0 (dv 1) (.pk (sv 2) (sv 3) (sv 4))
    let j : Instr := .cvtn al 1 (dv 1) (.up (sv 2) (sv 3))
    begins (withSlots (rig i)) i = true ∧
      (slotFields (slotWord (withSlots (rig i)) (issOf (withSlots (rig i)) i).t 0)).isSome = true ∧
      begins (withSlots (rig j)) j = true ∧
      slotFields (slotWord (withSlots (rig j)) (issOf (withSlots (rig j)) j).t 1) = none := by decide

/-! ## Class C and traps -/

theorem witness_ControlTransfers_branches :
    ∀ i ∈ [Instr.bra al 4, .brz al (ss 5) 0xFFFFFFFA, .brnz al (ss 5) 1, .brany al 7 2, .brall al 2 2],
      begins (rig i) i = true ∧ (branchTable (issOf (rig i) i) i).isSome = true := by decide

/-- Taken and not taken: `brz` of a register of zero, `brnz` of the same, a guard with no lane. -/
theorem witness_ControlTransfers_taken :
    (issOf (rig (.brz al (ss 5) 1)) (.brz al (ss 5) 1)).x0 (ss 5) = 0 ∧
      Holds (issOf (rig (.brz al (ss 5) 1)) (.brz al (ss 5) 1)) ∧ ¬Holds (issOf (rig (.bra 0 1)) (.bra 0 1)) ∧
      begins (rig (.bra 0 1)) (.bra 0 1) = true := by decide

theorem witness_ControlTransfers_call : begins (rig (.call al 62 1)) (.call al 62 1) = true := by decide

/-- A link pair that is a multiple of 8, and one that is not. -/
theorem witness_ControlTransfers_ret : ∀ i ∈ [Instr.ret al 4, .jmpi al 4],
    begins (rigWith i (sregs [(4, 8)])) i = true ∧ Holds (issOf (rigWith i (sregs [(4, 8)])) i) ∧
      (issOf (rigWith i (sregs [(4, 8)])) i).t.pair 4 &&& 7 = 0 ∧ begins (rigWith i (sregs [(4, 4)])) i = true ∧
      Holds (issOf (rigWith i (sregs [(4, 4)])) i) ∧ (issOf (rigWith i (sregs [(4, 4)])) i).t.pair 4 &&& 7 ≠ 0 := by decide

/-- The last count and one before it. -/
theorem witness_ControlTransfers_loop : ∀ v ∈ [1, 2],
    begins (rigWith (.loop al 4 0xFFFFFFFF) (sregs [(4, BitVec.ofNat 32 v)])) (.loop al 4 0xFFFFFFFF) = true := by decide

theorem witness_ExitYieldNop : ∀ i ∈ [Instr.exit al, .yield al, .nop al],
    begins (rig i) i = true ∧ begins (rigWith i inBracket) i = true ∧ begins (rigWith i lane0) i = true := by decide

theorem witness_TrapEntries : ∀ i ∈ [Instr.trap al 7, .brk al 255],
    begins (rig i) i = true ∧ Holds (issOf (rig i) i) ∧ vectorOf (rig i) (issOf (rig i) i).t ≠ 0 ∧
      (issOf (rig i) i).t.trap.tm = false ∧ (issOf (rig i) i).t.inTx = false := by decide

theorem witness_TrapEntries_not : ∀ i ∈ [Instr.trap 0 7, .brk 0 255],
    begins (rig i) i = true ∧ ¬Holds (issOf (rig i) i) := by decide

/-- In trap mode. -/
def inTrap (t : Train) : Train := { t with trap := { t.trap with tm := true, incl := true, trappc := 0x10008, thdr := 0x10000 } }

theorem witness_TrapEntries_any : ∃ t c,
    (rig (.nop al)).cur = some 1 ∧ AMap.get? (rig (.nop al)).trains 1 = some t ∧ t.clause = some c ∧
      vectorOf (rig (.nop al)) t ≠ 0 ∧ t.trap.tm = false ∧ t.inTx = false ∧ (0x03 : Byte) ≠ 0x13 := ⟨_, _, rfl, rfl, rfl, by decide, rfl, rfl, by decide⟩

theorem witness_TrapEntries_fatal : ∃ t c w d,
    let s := rigWith (.nop al) inTrap
    s.cur = some 1 ∧ AMap.get? s.trains 1 = some t ∧ t.clause = some c ∧ AMap.get? s.wheels t.wheel = some w ∧
      AMap.get? s.dispatches w.dispatch = some d ∧ (d.launch.trapVector = 0 ∨ t.trap.tm = true) ∧ t.tx.on = false ∧
      KeysRise s.trains := by
  refine ⟨_, _, _, _, rfl, rfl, rfl, rfl, rfl, .inr rfl, rfl, ?_⟩
  unfold KeysRise
  decide

/-- Memory of a gone host, in a dispatch with a vector. -/
theorem witness_TrapEntries_host : ∃ t c w d,
    let s := rig (.nop al)
    s.cur = some 1 ∧ AMap.get? s.trains 1 = some t ∧ t.clause = some c ∧ AMap.get? s.wheels t.wheel = some w ∧
      AMap.get? s.dispatches w.dispatch = some d ∧ d.launch.trapVector ≠ 0 ∧ t.trap.tm = false ∧ t.inTx = false :=
  ⟨_, _, _, _, rfl, rfl, rfl, rfl, rfl, by decide, rfl, rfl⟩

theorem witness_TrapReturn : ∀ n ∈ [false, true],
    begins (rigWith (.trapret n) inTrap) (.trapret n) = true ∧
      (issOf (rigWith (.trapret n) inTrap) (.trapret n)).t.trap.incl = true ∧
      begins (rig (.trapret n)) (.trapret n) = true ∧ (issOf (rig (.trapret n)) (.trapret n)).t.trap.tm = false ∧
      (issOf (rigWith (.trapret n) inTrap) (.trapret n)).t.inTx = false := by decide

end Sys2Proof.Tests
end

section
/-! SUPPORT. Big steps of the computations of a meaning, one rule for each way of building one; and the completion of an instruction that acts once. -/

namespace Sys2Proof.Machine

variable {s t u v : State} {α β : Type}

/-! ## Big steps of a computation -/

/-- Run in `t`, the computation answers `a` and leaves `u`. -/
def Ends (m : M s α) (t : State) (a : α) (u : State) : Prop := ∀ h : Reach s t, ∃ h' : Reach s u, m ⟨t, h⟩ = .ok (a, ⟨u, h'⟩)

/-- Run in `t`, the computation ends early with `e`. -/
def Stops (m : M s α) (t : State) (e : Stop) : Prop := ∀ h : Reach s t, m ⟨t, h⟩ = .error e

theorem Ends.pure (a : α) : Ends (pure a : M s α) t a t := fun h => ⟨h, rfl⟩

theorem Ends.bind {m : M s α} {f : α → M s β} {a : α} {b : β} (hm : Ends m t a u) (hf : Ends (f a) u b v) :
    Ends (m >>= f) t b v := by
  intro h
  obtain ⟨h1, e1⟩ := hm h
  obtain ⟨h2, e2⟩ := hf h1
  exact ⟨h2, by rw [M.bind_run, e1]; exact e2⟩

theorem Ends.upd (x : Upd) : Ends (upd x : M s Unit) t () (t.upd x) := fun h => ⟨h.step x, rfl⟩

theorem Ends.updAll (l : List Upd) : Ends (updAll l : M s Unit) t () (t.upds l) := fun h => ⟨h.upds l, updAll_ok l ⟨t, h⟩⟩

theorem Ends.now {f : State → M s β} {b : β} (hf : Ends (f t) t b v) : Ends (now >>= f) t b v :=
  Ends.bind (fun h => ⟨h, rfl⟩) hf

theorem Ends.tryM {m : M s α} {a : α} (hm : Ends m t a u) : Ends (tryM m) t (.ok a) u := by
  intro h
  obtain ⟨h1, e1⟩ := hm h
  exact ⟨h1, by unfold Machine.tryM; rw [e1]⟩

theorem Stops.stop (e : Stop) : Stops (stop e : M s α) t e := fun _ => rfl

theorem Stops.bind_left {m : M s α} {f : α → M s β} {e : Stop} (hm : Stops m t e) : Stops (m >>= f) t e := by
  intro h
  rw [M.bind_run, hm h]

theorem Stops.bind {m : M s α} {f : α → M s β} {a : α} {e : Stop} (hm : Ends m t a u) (hf : Stops (f a) u e) :
    Stops (m >>= f) t e := by
  intro h
  obtain ⟨h1, e1⟩ := hm h
  rw [M.bind_run, e1]
  exact hf h1

theorem Stops.now {f : State → M s β} {e : Stop} (hf : Stops (f t) t e) : Stops (now >>= f) t e :=
  Stops.bind (fun h => ⟨h, rfl⟩) hf

theorem Stops.tryM {m : M s α} {e : Stop} (hm : Stops m t e) : Ends (tryM m) t (.error e) t := by
  intro h
  exact ⟨h, by unfold Machine.tryM; rw [hm h]⟩

theorem Ends.runM {m : M s Unit} (hm : Ends m s () u) : runM s m = .next u := (hm .refl).elim fun _ e => runM_ok e

theorem Ends.runE {m : M s Unit} (hm : Ends m s () u) : runE s m = .next u := (hm .refl).elim fun _ e => runE_ok e

theorem Stops.runM {m : M s Unit} {e : Stop} (hm : Stops m s e) : runM s m = stopped s e := runM_error (hm .refl)

/-! ## Big steps of the shared operations -/

theorem Ends.need {b : Bool} {e : Stop} (hb : b = true) : Ends (need b e : M s Unit) t () t := by
  subst hb; exact Ends.pure ()

theorem Ends.orStop {o : Option α} {a : α} {e : Stop} (ho : o = some a) : Ends (orStop o e : M s α) t a t := by
  subst ho; exact Ends.pure a

theorem Ends.beginMem {i : Instr} {r : Iss} (h : begin_ s i = .ok r) (ha : AcqDone s r) : Ends (beginMem i : M s Iss) s r s :=
  fun _ => ⟨.refl, beginMem_run h ha⟩

/-- A change of a resident train. -/
theorem Ends.modTrain {id : Nat} {f : Train → Train} {x : Train} (h : AMap.get? t.trains id = some x) :
    Ends (modTrain id f : M s Unit) t () (t.upd (.train id (some (f x)))) := fun h' => ⟨h'.step _, modTrain_run h⟩

theorem Ends.wheelM {r : Iss} {wh : Wheel} (h : AMap.get? t.wheels r.t.wheel = some wh) : Ends (wheelM r : M s Wheel) t wh t :=
  Ends.now (Ends.orStop h)

/-! ## An instruction that acts once completes -/

/-- Last-use bits, the results of completed lanes kept, change the register files and nothing else. -/
theorem freesDone_rest (r : Iss) (x : Train) : r.freesDone x = { x with s := (r.freesDone x).s, v := (r.freesDone x).v } := by
  unfold Iss.freesDone
  split
  · exact Train.frees_rest x r.c r.u
  · generalize r.u.dst.flatMap (fun d => dstRegs (d.1, d.2 - r.u.kept)) = l
    have h0 := Train.frees_rest x r.c r.u
    generalize x.frees r.c r.u = f at h0
    induction l generalizing f with
    | nil => exact h0
    | cons d l ih =>
      refine ih _ ?_
      dsimp only
      split
      · split
        · rw [h0]; rfl
        · exact h0
      · exact h0

/-- Retiring the issuing train finishes its instruction. -/
theorem retired_finished (r : Iss) : Finished r (r.retired r.t) := by
  have e := freesDone_rest r r.t
  let y : Train := { r.freesDone r.t with park := none, wait := none, xl := [] }
  have hy : r.retired r.t = y.advance r.c none := rfl
  have hr : y.retired = r.t.retired ∧ y.yielded = r.t.yielded ∧ y.trap = r.t.trap ∧ y.p = r.t.p := by
    show (r.freesDone r.t).retired = _ ∧ (r.freesDone r.t).yielded = _ ∧ (r.freesDone r.t).trap = _ ∧ (r.freesDone r.t).p = _
    rw [e]
    exact ⟨rfl, rfl, rfl, rfl⟩
  rw [hy]
  refine ⟨advance_s .., advance_v .., (advance_p ..).trans hr.2.2.2, advance_goesOn _ _ _ rfl hr.1 hr.2.1 hr.2.2.1,
    advance_trap _ _ hr.2.2.1, ?_⟩
  have hy' : y = { r.t with s := y.s, v := y.v, park := none, wait := none, xl := [] } := by
    show ({ r.freesDone r.t with park := none, wait := none, xl := [] } : Train) = _
    rw [e]
  rw [advance_rest y, hy']

/-- The issuing train, still as it was, finishes its instruction. -/
theorem Ends.finishNow {r : Iss} (h : AMap.get? t.trains r.id = some r.t) :
    Ends (finishNow r id : M s Unit) t () (t.upd (.train r.id (some (r.retired r.t)))) := Ends.modTrain h

end Sys2Proof.Machine
end

section
/-! SUPPORT. Barrier words (R138 to R140): where an arrival and `barinit` stop, and the word that `barinit` writes. -/

namespace Sys2Proof.Machine

variable {s t u v : State} {α β : Type}

/-! ## Barrier words -/

theorem memAddrB_eq (r : Iss) (n : Nat) (m : MemB) (L : Nat) : memAddrB r n m L = addrOfB r n m L := by
  unfold memAddrB addrOfB
  rw [BitVec.ofInt_mul, BitVec.signExtend, mul_comm, BitVec.ofInt_natCast]

variable {r : Iss} {m : MemB}

theorem barAddr_misaligned (h : (addrOfB r 8 m 0).toNat % 8 ≠ 0) :
    Stops (barAddr r m : M s Nat) t (.trap 0x04 (some r.t.em) (some (addrOfB r 8 m 0))) := by
  refine Stops.now ?_
  dsimp only
  rw [memAddrB_eq, if_pos h]
  exact Stops.stop _

theorem barAddr_outside (h : (addrOfB r 8 m 0).toNat % 8 = 0) (hs : localSize t r.t < (addrOfB r 8 m 0).toNat + 8) :
    Stops (barAddr r m : M s Nat) t (.trap 0x06 (some r.t.em) (some (addrOfB r 8 m 0))) := by
  refine Stops.now ?_
  dsimp only
  rw [memAddrB_eq, if_neg (by simpa using h), if_pos hs]
  exact Stops.stop _

theorem barAddr_ok (h : (addrOfB r 8 m 0).toNat % 8 = 0) (hs : (addrOfB r 8 m 0).toNat + 8 ≤ localSize t r.t) :
    Ends (barAddr r m : M s Nat) t (addrOfB r 8 m 0).toNat t := by
  refine Ends.now ?_
  dsimp only
  rw [memAddrB_eq, if_neg (by simpa using h), if_neg (by omega)]
  exact Ends.pure _

theorem trainsOf_eq (s : State) (t : Train) : trainsOf s t = trainsPer s t := rfl

theorem not_maskOk_iff {n : Nat} : ¬MaskOk s r n ↔ n = 0 ∨ 2 ^ trainsOf s r.t ≤ n := by
  unfold MaskOk
  rw [trainsOf_eq]
  omega

section
variable {i : Instr} (hb : begin_ s i = .ok r) (ha : AcqDone s r) (hw : r.t.wait = none) (hx : r.t.inTx = false) (hh : Holds r)
include hb ha hw hx hh

/-- A bad address stops an arrival. -/
theorem barrierInstr_address {mask : Option Src} {stay : Bool} {e : Stop} (h : Stops (barAddr r m : M s Nat) s e) :
    Stops (barrierInstr i m mask stay : M s Unit) s e := by
  unfold barrierInstr
  refine Stops.bind (Ends.beginMem hb ha) ?_
  rw [hw, hx, show r.acts = true from holds_iff.2 hh]
  exact Stops.bind_left h

/-- An arrival that may be made stops where `arrive` does. -/
theorem barrierInstr_arrive {mask : Option Src} {stay : Bool} {e : Stop} {a : Nat} (h : Ends (barAddr r m : M s Nat) s a s)
    (hm : ArrivalMay s r) (hs : Stops (arrive r a (mask.map r.x0) stay : M s Unit) s e) :
    Stops (barrierInstr i m mask stay : M s Unit) s e := by
  obtain ⟨hf, hl, hc⟩ := hm
  unfold barrierInstr
  refine Stops.bind (Ends.beginMem hb ha) ?_
  rw [hw, hx, show r.acts = true from holds_iff.2 hh]
  refine Stops.bind h (Stops.now (Stops.bind (Ends.need ?_) hs))
  simp only [hf, hl, List.isEmpty_nil, Bool.and_self, Bool.true_and, Core.writesOf, List.all_eq_true, List.mem_filter, beq_iff_eq,
    Bool.and_eq_true, and_imp]
  exact fun w hw' ht => ⟨(hc w hw' ht).1, fun a h' => (hc w hw' ht).2 a h'⟩

end

/-- An arrival at a word that is not valid, has a reserved bit or an illegal EXPECT, or with an illegal mask. -/
theorem arrive_stops {wh : Wheel} {a : Nat} {mask : Option Word} {stay : Bool} (h : AMap.get? t.wheels r.t.wheel = some wh)
    (hbad : (barAt wh.local_ a).valid = false ∨ (barAt wh.local_ a).rsvd ≠ 0 ∨ ¬MaskOk t r (barAt wh.local_ a).expect ∨
      ∃ k, mask = some k ∧ ¬MaskOk t r k.toNat) : Stops (arrive r a mask stay : M s Unit) t (.trap 0x03 none none) := by
  unfold arrive
  refine Stops.now (Stops.bind (Ends.wheelM h) ?_)
  dsimp only
  by_cases hw : (barAt wh.local_ a).valid = false ∨ (barAt wh.local_ a).rsvd ≠ 0 ∨ ¬MaskOk t r (barAt wh.local_ a).expect
  · rw [if_pos (by simpa [barAt, not_maskOk_iff, or_assoc] using hw)]
    exact Stops.stop _
  · obtain ⟨k, rfl, hk⟩ : ∃ k, mask = some k ∧ ¬MaskOk t r k.toNat := by tauto
    rw [if_neg (by simpa [barAt, not_maskOk_iff, or_assoc] using hw), if_pos (by simpa using not_maskOk_iff.1 hk)]
    exact Stops.stop _

/-! ## `barinit` -/

/-- No byte of a list is part of a waited-on word. -/
theorem clobbered_eq_none_iff {ws : List (Nat × Nat)} {bs : List Nat} :
    clobbered ws bs = none ↔ ∀ w ∈ ws, ∀ b ∈ bs, ¬(w.1 ≤ b ∧ b < w.1 + w.2) := by
  unfold clobbered
  rw [List.min?_eq_none_iff, List.map_eq_nil_iff, List.filter_eq_nil_iff]
  simp

theorem Ends.putBar {wheel a : Nat} {w : BarWord} {wh : Wheel} (h : AMap.get? t.wheels wheel = some wh) :
    Ends (putBar wheel a w : M s Unit) t () (t.upd (.wheel wheel (some (withBar wh a w)))) := by
  refine Ends.now ?_
  rw [h]
  exact Ends.upd _

section
variable {g : Guard} {sb : Sb} {k : Src} (hb : begin_ s (.barinit g sb m k) = .ok r) (ha : AcqDone s r) (hx : r.t.inTx = false)
  (hh : Holds r)
include hb ha hx hh

/-- A bad address stops `barinit`. -/
theorem execBarinit_address {e : Stop} (h : Stops (barAddr r m : M s Nat) s e) : execBarinit g sb m k s = stopped s e := by
  refine Stops.runM (Stops.bind (Ends.beginMem hb ha) ?_)
  rw [hx, show r.acts = true from holds_iff.2 hh]
  exact Stops.bind_left h

variable {a : Nat} (had : Ends (barAddr r m : M s Nat) s a s)
include had

theorem execBarinit_mask (hm : ¬MaskOk s r (r.x0 k).toNat) : execBarinit g sb m k s = .next (trapCur s 0x03 none none) := by
  refine Stops.runM (e := .trap 0x03 none none) (Stops.bind (Ends.beginMem hb ha) ?_)
  rw [hx, show r.acts = true from holds_iff.2 hh]
  refine Stops.bind had (Stops.now ?_)
  dsimp only
  rw [if_pos (by simpa using not_maskOk_iff.1 hm)]
  exact Stops.stop _

theorem execBarinit_waited (hm : MaskOk s r (r.x0 k).toNat) (hc : ∃ j, j < 8 ∧ ¬NotWaited s r (a + j)) :
    ∃ v, execBarinit g sb m k s = .next (trapCur s 0x08 (some r.t.em) (some v)) := by
  obtain ⟨v, hv⟩ : ∃ v, clobbered (waitedWords s r.t.wheel) ((List.range 8).map (a + ·)) = some v := by
    rw [← Option.ne_none_iff_exists', ne_eq, clobbered_eq_none_iff]
    intro hn
    obtain ⟨j, hj, hw⟩ := hc
    exact hw fun w h => hn w h _ (List.mem_map_of_mem (List.mem_range.2 hj))
  refine ⟨BitVec.ofNat 64 v, Stops.runM (e := .trap 0x08 (some r.t.em) (some (BitVec.ofNat 64 v))) (Stops.bind (Ends.beginMem hb ha) ?_)⟩
  rw [hx, show r.acts = true from holds_iff.2 hh]
  refine Stops.bind had (Stops.now ?_)
  dsimp only
  rw [if_neg (fun h => not_maskOk_iff.2 (by simpa using h) hm), hv]
  exact Stops.stop _

theorem execBarinit_fresh {wh : Wheel} (hwh : AMap.get? s.wheels r.t.wheel = some wh) (hm : MaskOk s r (r.x0 k).toNat)
    (hc : ∀ j, j < 8 → NotWaited s r (a + j)) :
    execBarinit g sb m k s = .next ((s.upd (.wheel r.t.wheel (some (withBar wh a { barAt wh.local_ a with
      valid := true, masked := false, phase := 0, members := 0, arrived := 0, expect := (r.x0 k).toNat })))).upd
        (.train r.id (some (r.retired r.t)))) := by
  have hn : clobbered (waitedWords s r.t.wheel) ((List.range 8).map (a + ·)) = none := by
    rw [clobbered_eq_none_iff]
    intro w hw b hb
    obtain ⟨j, hj, rfl⟩ := List.mem_map.1 hb
    exact hc j (List.mem_range.1 hj) w hw
  refine Ends.runM (Ends.bind (Ends.beginMem hb ha) ?_)
  rw [hx, show r.acts = true from holds_iff.2 hh]
  refine Ends.bind had (Ends.now ?_)
  dsimp only
  rw [if_neg (fun h => not_maskOk_iff.2 (by simpa using h) hm), hn]
  refine Ends.bind (Ends.wheelM hwh) (Ends.bind (Ends.putBar hwh) (Ends.finishNow ?_))
  simpa using (issuing_train (begin_ok_iff.1 hb).1).2.1

end

/-! ## The statement -/

/-- A bad address stops every barrier instruction. -/
theorem barrier_address {i : Instr} {g : Guard} {sb : Sb} {k : Src} {e : Stop} (hb : begin_ s i = .ok r) (ha : AcqDone s r)
    (hw : r.t.wait = none) (hx : r.t.inTx = false) (hh : Holds r)
    (hi : i = .barinit g sb m k ∨ i = .barw g sb m ∨ i = .bara g sb m ∨ i = .barm g sb m k)
    (h : Stops (barAddr r m : M s Nat) s e) : exec i s = stopped s e := by
  obtain rfl | rfl | rfl | rfl := hi
  · exact execBarinit_address hb ha hx hh h
  · exact Stops.runM (barrierInstr_address hb ha hw hx hh h)
  · exact Stops.runM (barrierInstr_address hb ha hw hx hh h)
  · exact Stops.runM (barrierInstr_address hb ha hw hx hh h)

/-- An arrival with a bad word or a bad mask raises E_ILL_OPERAND. -/
theorem barrier_illegal {i : Instr} {g : Guard} {sb : Sb} {k : Src} {wh : Wheel} {a : Nat} (hb : begin_ s i = .ok r)
    (ha : AcqDone s r) (hw : r.t.wait = none) (hx : r.t.inTx = false) (hh : Holds r)
    (hwh : AMap.get? s.wheels r.t.wheel = some wh)
    (hi : i = .barw g sb m ∨ i = .bara g sb m ∨ i = .barm g sb m k) (had : Ends (barAddr r m : M s Nat) s a s)
    (hm : ArrivalMay s r) (hbad : (barAt wh.local_ a).valid = false ∨ (barAt wh.local_ a).rsvd ≠ 0 ∨
      ¬MaskOk s r (barAt wh.local_ a).expect ∨ (i = .barm g sb m k ∧ ¬MaskOk s r (r.x0 k).toNat)) :
    exec i s = .next (trapCur s 0x03 none none) := by
  have hstop {mask : Option Src} {stay : Bool}
      (h : (i = .barm g sb m k ∧ ¬MaskOk s r (r.x0 k).toNat) → ∃ v, mask.map r.x0 = some v ∧ ¬MaskOk s r v.toNat) :
      runM s (barrierInstr i m mask stay) = stopped s (.trap 0x03 none none) :=
    Stops.runM (barrierInstr_arrive hb ha hw hx hh had hm (arrive_stops hwh (hbad.imp_right (Or.imp_right (Or.imp_right h)))))
  obtain rfl | rfl | rfl := hi
  · exact hstop (mask := none) (stay := true) fun h => nomatch h.1
  · exact hstop (mask := none) (stay := false) fun h => nomatch h.1
  · exact hstop (mask := some k) (stay := true) fun h => ⟨_, rfl, h.2⟩

/-- Settles O28: each trap is where the instruction's computation stops, and a fresh word is where it ends. -/
theorem barrierWords : Obligations.BarrierWords := by
  unfold Obligations.BarrierWords
  intro s i g sb m k r wh hb ha hw hx hh hwh a hi
  refine ⟨fun h => ?_, fun h hs => ?_, fun h hs => ?_⟩
  · exact barrier_address hb ha hw hx hh hi (barAddr_misaligned h)
  · exact barrier_address hb ha hw hx hh hi (barAddr_outside h hs)
  · have had := barAddr_ok (s := s) h hs
    refine ⟨fun hn hm hbad => ?_, ?_⟩
    · exact barrier_illegal hb ha hw hx hh hwh (hi.resolve_left hn) had hm hbad
    · rintro rfl
      refine ⟨execBarinit_mask hb ha hx hh had, fun hm => ⟨fun hc => ?_, execBarinit_waited hb ha hx hh had hm⟩⟩
      exact ⟨_, execBarinit_fresh hb ha hx hh had hwh hm hc, retired_finished r⟩

end Sys2Proof.Machine
end

section
/-! SUPPORT. Finite maps and the barriers of the stream engine: what a release and a wake leave of the trains and the contexts. -/

namespace Sys2Proof.Machine

variable {s t u v : State} {α β : Type}

/-! ## Finite maps -/

theorem AMap.get?_cons (i k : Nat) (x : α) (m : AMap α) :
    AMap.get? ((i, x) :: m) k = if i = k then some x else AMap.get? m k := rfl

theorem AMap.mem_of_get? {m : AMap α} {k : Nat} {x : α} (h : AMap.get? m k = some x) : (k, x) ∈ m := by
  induction m with
  | nil => exact nomatch h
  | cons kv m ih =>
    obtain ⟨i, y⟩ := kv
    rw [AMap.get?_cons] at h
    split at h
    · rename_i hi
      cases h
      exact hi ▸ List.mem_cons_self
    · exact List.mem_cons_of_mem _ (ih h)

theorem AMap.get?_of_mem {m : AMap α} (hm : KeysRise m) {k : Nat} {x : α} (h : (k, x) ∈ m) : AMap.get? m k = some x := by
  induction m with
  | nil => exact nomatch h
  | cons kv m ih =>
    obtain ⟨i, y⟩ := kv
    have ⟨hlt, hm'⟩ := KeysRise.cons.1 hm
    rw [AMap.get?_cons]
    rcases List.mem_cons.1 h with h | h
    · cases h
      rw [if_pos rfl]
    · rw [if_neg (Nat.ne_of_lt (hlt k (List.mem_map_of_mem h)))]
      exact ih hm' h

theorem AMap.mem_iff {m : AMap α} (hm : KeysRise m) {k : Nat} {x : α} : (k, x) ∈ m ↔ AMap.get? m k = some x :=
  ⟨AMap.get?_of_mem hm, AMap.mem_of_get?⟩

/-- Setting a key to the value it has changes nothing. -/
theorem AMap.set_get? {m : AMap α} (hm : KeysRise m) {k : Nat} {x : α} (h : AMap.get? m k = some x) : AMap.set m k x = m := by
  induction m with
  | nil => exact nomatch h
  | cons kv m ih =>
    obtain ⟨i, y⟩ := kv
    have ⟨hlt, hm'⟩ := KeysRise.cons.1 hm
    rw [AMap.get?_cons] at h
    unfold AMap.set
    split at h
    · rename_i hi
      cases h
      rw [if_neg (by omega), if_pos hi, hi]
    · rename_i hi
      have hk := hlt k (List.mem_map_of_mem (AMap.mem_of_get? h))
      rw [if_neg (by omega), if_neg hi, ih hm' h]

theorem KeysRise.filter {m : AMap α} (hm : KeysRise m) (p : Nat × α → Bool) : KeysRise (m.filter p) :=
  List.Pairwise.sublist (List.filter_sublist.map _) hm

theorem AMap.get?_filter {m : AMap α} (hm : KeysRise m) (p : Nat × α → Bool) (k : Nat) :
    AMap.get? (m.filter p) k = (AMap.get? m k).filter fun x => p (k, x) := by
  ext x
  rw [← AMap.mem_iff (hm.filter p), List.mem_filter, AMap.mem_iff hm, Option.filter_eq_some_iff]

/-! ## Several trains changed -/

/-- The trains of a list set in a map, each changed by `g`. -/
theorem get?_foldl_train (g : Train → Train) {l : AMap Train} (hl : KeysRise l) (m : AMap Train) (j : Nat) :
    AMap.get? (l.foldl (fun m kv => AMap.set m kv.1 (g kv.2).norm) m) j =
      ((AMap.get? l j).map fun z => (g z).norm).or (AMap.get? m j) := by
  induction l generalizing m with
  | nil => rfl
  | cons kv l ih =>
    obtain ⟨i, z⟩ := kv
    have ⟨hlt, hl'⟩ := KeysRise.cons.1 hl
    rw [List.foldl_cons, ih hl', AMap.get?_set, AMap.get?_cons]
    by_cases hij : i = j
    · subst hij
      have hn : AMap.get? l i = none := by
        rw [Option.eq_none_iff_forall_not_mem]
        exact fun y hy => Nat.lt_irrefl i (hlt i (List.mem_map_of_mem (AMap.mem_of_get? hy)))
      simp [hn]
    · simp [hij, Ne.symm hij]

theorem upds_train_list (g : Train → Train) (l : AMap Train) (t : State) :
    t.upds (l.map fun kv => .train kv.1 (some (g kv.2))) =
      { t with trains := l.foldl (fun m kv => AMap.set m kv.1 (g kv.2).norm) t.trains } := by
  induction l generalizing t with
  | nil => rfl
  | cons kv l ih => exact ih _

theorem KeysRise.foldl_train (g : Train → Train) (l : AMap Train) {m : AMap Train} (hm : KeysRise m) :
    KeysRise (l.foldl (fun m kv => AMap.set m kv.1 (g kv.2).norm) m) := by
  induction l generalizing m with
  | nil => exact hm
  | cons kv l ih => exact ih (hm.set _ _)

/-- Every train that passes a test is changed by `g`, and nothing else. -/
structure TrainsChanged (t u : State) (p : Nat → Train → Bool) (g : Train → Train) : Prop where
  frame : u = { t with trains := u.trains }
  keys : KeysRise u.trains
  get : ∀ j, AMap.get? u.trains j = (AMap.get? t.trains j).map fun z => if p j z then (g z).norm else z

theorem trainsChanged (hk : KeysRise t.trains) (p : Nat → Train → Bool) (g : Train → Train) :
    TrainsChanged t (t.upds ((t.trains.filter fun kv => p kv.1 kv.2).map fun kv => .train kv.1 (some (g kv.2)))) p g := by
  rw [upds_train_list]
  refine ⟨rfl, hk.foldl_train g _, fun j => ?_⟩
  show AMap.get? (List.foldl _ t.trains _) j = _
  rw [get?_foldl_train g (hk.filter _), AMap.get?_filter hk]
  cases AMap.get? t.trains j with
  | none => rfl
  | some z => by_cases hp : p j z = true <;> simp [Option.filter, hp]

/-! ## The Regulator's counts -/

theorem Ends.restartCount (c : Nat) : Ends (restartCount c : M s Unit) t () (restarted t c) := by
  refine Ends.now ?_
  unfold restarted
  split
  · exact Ends.pure ()
  · exact Ends.upd _

theorem Ends.forM {f : α → M s Unit} {g : State → α → State} (h : ∀ t x, Ends (f x) t () (g t x)) (l : List α) (t : State) :
    Ends (l.forM f) t () (l.foldl g t) := by
  induction l generalizing t with
  | nil => exact Ends.pure ()
  | cons x l ih => exact Ends.bind (h t x) (ih _)

/-- The state with the counts of a list of contexts restarted. -/
def restartedAll (t : State) (l : List Nat) : State := l.foldl restarted t

theorem restarted_rest (t : State) (c : Nat) : restarted t c = { t with ctxs := (restarted t c).ctxs } := by
  unfold restarted
  split
  · rfl
  · simp only [State.upd]
    split <;> rfl

theorem restartedAll_rest (t : State) (l : List Nat) : restartedAll t l = { t with ctxs := (restartedAll t l).ctxs } := by
  induction l generalizing t with
  | nil => rfl
  | cons c l ih =>
    show restartedAll (restarted t c) l = { t with ctxs := (restartedAll (restarted t c) l).ctxs }
    rw [ih, restarted_rest]

/-- A context after another's count, or its own, has restarted. -/
theorem restarted_ctx {c : Nat} (hc : c < 16) (hn : (t.ctx c).norm = t.ctx c) (k : Nat) :
    (restarted t k).ctx c = if c = k then { t.ctx c with regulator := 0 } else t.ctx c := by
  by_cases hk : c = k
  · subst hk
    rw [if_pos rfl]
    unfold restarted
    split
    · rename_i h0
      rw [← h0]
    · have hm : c % 16 = c := Nat.mod_eq_of_lt hc
      have hw : ({ t.ctx c with regulator := 0 } : Context).norm = { t.ctx c with regulator := 0 } := by
        show ({ (t.ctx c).norm with regulator := 0 } : Context) = _
        rw [hn]
      simp only [State.ctx, State.upd_ctxs, dif_pos hc, hm, Vector.getElem_set_self]
      simpa only [State.ctx, hm] using hw
  · rw [if_neg hk]
    unfold restarted
    split
    · rfl
    · simp only [State.ctx, State.upd_ctxs]
      split
      · rw [Vector.getElem_set_ne]
        omega
      · rfl

theorem restartedAll_ctx {c : Nat} (hc : c < 16) (l : List Nat) (hn : (t.ctx c).norm = t.ctx c) :
    (restartedAll t l).ctx c = if c ∈ l then { t.ctx c with regulator := 0 } else t.ctx c := by
  induction l generalizing t with
  | nil => simp [restartedAll]
  | cons k l ih =>
    show (restartedAll (restarted t k) l).ctx c = _
    have hk := restarted_ctx hc hn k
    have hn' : ((restarted t k).ctx c).norm = (restarted t k).ctx c := by
      rw [hk]
      split
      · show ({ (t.ctx c).norm with regulator := 0 } : Context) = _
        rw [hn]
      · exact hn
    rw [ih hn', hk]
    by_cases h1 : c = k
    · simp [h1]
    · simp [h1]

/-! ## Ended waits -/

/-- A train whose wait has ended. -/
def Train.woke (z : Train) : Train := { z with wait := z.wait.map fun w => { w with woken := true } }

/-- The waits that a test names have ended, and the counts of their contexts restarted. -/
structure Woken (t u : State) (f : Nat → Train → Bool) : Prop where
  frame : u = { t with trains := u.trains, ctxs := u.ctxs }
  keys : KeysRise u.trains
  get : ∀ j, AMap.get? u.trains j = (AMap.get? t.trains j).map fun z => if z.waiting && f j z then z.woke.norm else z
  ctx : ∀ c, c < 16 → (t.ctx c).norm = t.ctx c →
    ((∃ j z, AMap.get? t.trains j = some z ∧ (z.waiting && f j z) = true ∧ t.ctxOf z = c) → u.ctx c = { t.ctx c with regulator := 0 }) ∧
    ((¬∃ j z, AMap.get? t.trains j = some z ∧ (z.waiting && f j z) = true ∧ t.ctxOf z = c) → u.ctx c = t.ctx c)

/-- `wakeTrains` in a state whose trains' keys rise. -/
theorem Ends.wakeTrains (hk : KeysRise t.trains) (f : Nat → Train → Bool) :
    ∃ u, Ends (wakeTrains f : M s Unit) t () u ∧ Woken t u f := by
  have hc := trainsChanged hk (fun j z => z.waiting && f j z) Train.woke
  let l := t.trains.filter fun kv => kv.2.waiting && f kv.1 kv.2
  let t1 := t.upds (l.map fun kv => .train kv.1 (some kv.2.woke))
  let cs := (l.map fun kv => t.ctxOf kv.2).dedup
  have h1 : t1 = { t with trains := t1.trains } := hc.frame
  have hr := restartedAll_rest t1 cs
  have hin (c : Nat) : c ∈ cs ↔ ∃ j z, AMap.get? t.trains j = some z ∧ (z.waiting && f j z) = true ∧ t.ctxOf z = c := by
    show c ∈ (List.map _ _).dedup ↔ _
    simp only [List.mem_dedup, List.mem_map, l, List.mem_filter, Prod.exists, AMap.mem_iff hk, and_assoc]
  refine ⟨restartedAll t1 cs, Ends.now (Ends.bind (Ends.updAll _) (Ends.forM (fun _ c => Ends.restartCount c) cs t1)), ?_, ?_, ?_, ?_⟩
  · rw [hr, h1]
  · rw [hr]
    exact hc.keys
  · rw [hr]
    exact hc.get
  · intro c hlt hn
    have e : t1.ctx c = t.ctx c := by rw [h1]; rfl
    rw [restartedAll_ctx hlt cs (by rw [e]; exact hn), e]
    exact ⟨fun h => if_pos ((hin c).2 h), fun h => if_neg fun hm => h ((hin c).1 hm)⟩

theorem and_eq_self_of_and_not {w : Nat} {a b : BitVec w} (h : a &&& ~~~b = 0) : a &&& b = a := by
  ext i hi
  have := congrArg (fun m : BitVec w => m.getLsbD i) h
  simp [hi] at this ⊢
  tauto

/-- A train in the form the machine stores is stored as it is. -/
theorem Train.norm_of_ok {z : Train} (h : z.Ok) : z.norm = z := by
  obtain ⟨hl, hp, hpc, ho⟩ := h
  have hem : z.em &&& z.live = z.em := and_eq_self_of_and_not hl
  have hpc' : z.pc &&& 0xFFFFFFFFFFFFFFF8#64 = z.pc := and_eq_self_of_and_not hpc
  have hp' : z.p.set 7 0xFFFFFFFF = z.p := by
    rw [← hp]
    simp
  have hem' : (if (z.tx.on && !z.trap.tm) = true then z.em &&& z.tx.opened else z.em) = z.em := by
    split
    · exact and_eq_self_of_and_not (ho ‹_›)
    · rfl
  simp only [Train.norm, hem, hpc', hp', hem']

theorem Train.Ok.woke {z : Train} (h : z.Ok) : z.woke.Ok := ⟨h.live, h.p7, h.pc, h.opened⟩

/-! ## Ended waits as the statements say it -/

/-- What decides whether a train's wait ends: its wheel and its wait. -/
def Train.waitView (z : Train) : Nat × Option Wait := (z.wheel, z.wait)

/-- The trains wait for the same in both states, on wheels of the same dispatches. -/
structure SameWaits (s t : State) : Prop where
  trains : ∀ j, (AMap.get? t.trains j).map Train.waitView = (AMap.get? s.trains j).map Train.waitView
  wheels : ∀ k, (AMap.get? t.wheels k).map Wheel.dispatch = (AMap.get? s.wheels k).map Wheel.dispatch
  dispatches : t.dispatches = s.dispatches
  ctxs : t.ctxs = s.ctxs

theorem SameWaits.trans (h : SameWaits s t) (h' : SameWaits t u) : SameWaits s u :=
  ⟨fun j => (h'.trains j).trans (h.trains j), fun k => (h'.wheels k).trans (h.wheels k), h'.dispatches.trans h.dispatches,
    h'.ctxs.trans h.ctxs⟩

/-- The context of a train is that of its wheel's dispatch. -/
theorem ctxOf_congr {z z' : Train} (hz : z'.wheel = z.wheel)
    (hw : ∀ k, (AMap.get? t.wheels k).map Wheel.dispatch = (AMap.get? s.wheels k).map Wheel.dispatch)
    (hd : t.dispatches = s.dispatches) : t.ctxOf z' = s.ctxOf z := by
  have h (s : State) (z : Train) : s.dispatchOf z = ((AMap.get? s.wheels z.wheel).map Wheel.dispatch).bind (AMap.get? s.dispatches) := by
    unfold State.dispatchOf State.wheelOf
    cases AMap.get? s.wheels z.wheel <;> rfl
  unfold State.ctxOf
  rw [h, h, hz, hw, hd]

/-- A train of one state has its counterpart in the other. -/
theorem SameWaits.exists_left (h : SameWaits s t) {j : Nat} {z : Train} (hz : AMap.get? t.trains j = some z) :
    ∃ y, AMap.get? s.trains j = some y ∧ z.wheel = y.wheel ∧ z.wait = y.wait ∧ t.ctxOf z = s.ctxOf y := by
  have e := h.trains j
  rw [hz] at e
  obtain ⟨y, hy, he⟩ := Option.map_eq_some_iff.1 e.symm
  have hw : z.wheel = y.wheel := (congrArg Prod.fst he).symm
  exact ⟨y, hy, hw, (congrArg Prod.snd he).symm, ctxOf_congr hw h.wheels h.dispatches⟩

theorem SameWaits.exists_right (h : SameWaits s t) {j : Nat} {z : Train} (hz : AMap.get? s.trains j = some z) :
    ∃ y, AMap.get? t.trains j = some y ∧ y.wheel = z.wheel ∧ y.wait = z.wait ∧ t.ctxOf y = s.ctxOf z := by
  have e := h.trains j
  rw [hz] at e
  obtain ⟨y, hy, he⟩ := Option.map_eq_some_iff.1 e
  have hw : y.wheel = z.wheel := congrArg Prod.fst he
  exact ⟨y, hy, hw, congrArg Prod.snd he, ctxOf_congr hw h.wheels h.dispatches⟩

/-- The waits ended between `t` and `u` are those ended between `s` and `v`, where the trains but `id` differ from `s` to `t` as `g` says and not from `u` to `v`. -/
theorem WaitsEnded.congr {id : Nat} {f g : Train → Train} {p : Train → Wait → Prop} (h : WaitsEnded t u id f p) (st : SameWaits s t)
    (hg : ∀ j z, j ≠ id → AMap.get? s.trains j = some z → z.Ok → ∃ y, AMap.get? t.trains j = some y ∧ y.Ok ∧ f y = g z)
    (hv : OnlyTrain u v id) (hc : v.ctxs = u.ctxs) (hp : ∀ y z w, y.wheel = z.wheel → (p y w ↔ p z w)) : WaitsEnded s v id g p := by
  refine ⟨fun j z hj hz hok => ?_, fun c hlt hn => ?_⟩
  · obtain ⟨y, hy, hyok, hfg⟩ := hg j z hj hz hok
    obtain ⟨z', hz', hw, hwait, -⟩ := st.exists_left hy
    cases hz.symm.trans hz'
    have hj' := h.1 j y hj hy hyok
    rw [hv j hj, ← hfg]
    exact ⟨fun v' h1 h2 h3 => hj'.1 v' (hwait.trans h1) h2 ((hp y z v' hw).2 h3),
      fun hno => hj'.2 fun v' h1 h2 h3 => hno v' (hwait.symm.trans h1) h2 ((hp y z v' hw).1 h3)⟩
  · have hst : t.ctx c = s.ctx c := by unfold State.ctx; rw [st.ctxs]
    have hvu : v.ctx c = u.ctx c := by unfold State.ctx; rw [hc]
    have hended : (∃ j z w, AMap.get? s.trains j = some z ∧ s.ctxOf z = c ∧ z.wait = some w ∧ w.woken = false ∧ p z w) ↔
        ∃ j z w, AMap.get? t.trains j = some z ∧ t.ctxOf z = c ∧ z.wait = some w ∧ w.woken = false ∧ p z w := by
      constructor
      · rintro ⟨j, z, w, hz, hcz, hwz, hwo, hpz⟩
        obtain ⟨y, hy, hwh, hwt, hcy⟩ := st.exists_right hz
        exact ⟨j, y, w, hy, hcy.trans hcz, hwt.trans hwz, hwo, (hp y z w hwh).2 hpz⟩
      · rintro ⟨j, z, w, hz, hcz, hwz, hwo, hpz⟩
        obtain ⟨y, hy, hwh, hwt, hcy⟩ := st.exists_left hz
        exact ⟨j, y, w, hy, hcy.symm.trans hcz, hwt.symm.trans hwz, hwo, (hp z y w hwh).1 hpz⟩
    rw [hvu, hended, ← hst]
    exact h.2 c hlt (by rw [hst]; exact hn)

/-- What `wakeTrains` leaves, where its test says `p` of the trains that wait. -/
theorem Woken.waitsEnded {f : Nat → Train → Bool} {p : Train → Wait → Prop} (h : Woken t u f)
    (hf : ∀ j z w, z.wait = some w → (f j z = true ↔ p z w)) (i : Nat) : WaitsEnded t u i id p := by
  have hwaits (j : Nat) (z : Train) : (z.waiting && f j z) = true ↔ ∃ w, z.wait = some w ∧ w.woken = false ∧ p z w := by
    rw [Bool.and_eq_true]
    unfold Train.waiting
    cases hz : z.wait with
    | none => simp
    | some w => simp [hf j z w hz]
  refine ⟨fun j z _ hz hok => ⟨fun w hw hwo hpw => ?_, fun hno => ?_⟩, fun c hlt hn => ?_⟩
  · rw [h.get, hz, Option.map_some, if_pos ((hwaits j z).2 ⟨w, hw, hwo, hpw⟩), Train.norm_of_ok hok.woke, Train.woke, hw]
    rfl
  · rw [h.get, hz, Option.map_some, if_neg]
    · rfl
    · intro hc
      obtain ⟨w, hw, hwo, hpw⟩ := (hwaits j z).1 hc
      exact hno w hw hwo hpw
  · have he : (∃ j z w, AMap.get? t.trains j = some z ∧ t.ctxOf z = c ∧ z.wait = some w ∧ w.woken = false ∧ p z w) ↔
        ∃ j z, AMap.get? t.trains j = some z ∧ (z.waiting && f j z) = true ∧ t.ctxOf z = c := by
      simp only [hwaits]
      constructor
      · rintro ⟨j, z, w, h1, h2, h3⟩
        exact ⟨j, z, h1, ⟨w, h3⟩, h2⟩
      · rintro ⟨j, z, h1, ⟨w, h3⟩, h2⟩
        exact ⟨j, z, w, h1, h2, h3⟩
    rw [he]
    exact h.ctx c hlt hn


/-! ## Transaction barriers -/

/-- The fields of a barrier fit their places in its 128 bits (Table 14-4). -/
structure TBar.Fits (q : TBar) : Prop where
  rsvd : q.rsvd < 2 ^ 60
  pend : q.pend < 2 ^ 32
  reset : q.reset < 2 ^ 16
  arr : q.arr < 2 ^ 16
  phase : q.phase < 2 ^ 4

theorem TBar.ofNat_fits (n : Nat) : (TBar.ofNat n).Fits := by
  constructor <;> exact Nat.mod_lt _ (by decide)

theorem tbarAt_fits (b : Bytes) (a : Nat) : (tbarAt b a).Fits := TBar.ofNat_fits _

theorem TBar.ofNat_toNat {q : TBar} (h : q.Fits) : TBar.ofNat (q.toNat % 256 ^ 16) = q := by
  obtain ⟨h1, h2, h3, h4, h5⟩ := h
  obtain ⟨rsvd, pend, reset, arr, phase⟩ := q
  norm_num at h1 h2 h3 h4 h5
  simp only [TBar.ofNat, TBar.toNat, bits, TBar.mk.injEq]
  norm_num
  refine ⟨?_, ?_, ?_, ?_, ?_⟩ <;> omega

/-- A barrier written is read back. -/
theorem tbarAt_write (b : Bytes) (a : Nat) {q : TBar} (h : q.Fits) : tbarAt (Bytes.write b a 16 q.toNat) a = q := by
  unfold tbarAt
  rw [Bytes.read_write, TBar.ofNat_toNat h]

/-- The phase of a barrier written, whatever its counts. -/
theorem tbarAt_write_phase (b : Bytes) (a : Nat) {q : TBar} (h : q.phase < 16) :
    (tbarAt (Bytes.write b a 16 q.toNat) a).phase = q.phase := by
  unfold tbarAt
  rw [Bytes.read_write]
  simp only [TBar.ofNat, TBar.toNat, bits]
  norm_num
  omega

theorem tbGet_eq {W : Nat} {wh : Wheel} (h : AMap.get? t.wheels W = some wh) (a : Nat) : tbGet t W a = tbarAt wh.local_ a := by
  unfold tbGet localOf
  rw [h]
  rfl

theorem Ends.putLocal {W : Nat} {wh : Wheel} (h : AMap.get? t.wheels W = some wh) (f : Bytes → Bytes) :
    Ends (putLocal W f : M s Unit) t () (t.upd (.wheel W (some { wh with local_ := f wh.local_ }))) := by
  refine Ends.now ?_
  rw [h]
  exact Ends.upd _

@[simp] theorem get?_upd_wheel (W : Nat) (wh : Wheel) : AMap.get? (t.upd (.wheel W (some wh))).wheels W = some wh := by
  simp [putOpt]

theorem sameWaits_upd_wheel {W : Nat} {wh wh' : Wheel} (h : AMap.get? t.wheels W = some wh) (hd : wh'.dispatch = wh.dispatch) :
    SameWaits t (t.upd (.wheel W (some wh'))) := by
  refine ⟨fun j => by simp, fun k => ?_, by simp, by simp⟩
  simp only [State.upd_wheels, putOpt, AMap.get?_set]
  split
  · rename_i hk
    rw [hk, h]
    simp [hd]
  · rfl

theorem withLocal_dispatch (wh : Wheel) (b : Bytes) : ({ wh with local_ := b } : Wheel).dispatch = wh.dispatch := rfl

theorem sameWaits_withTbar {W : Nat} {wh : Wheel} (h : AMap.get? t.wheels W = some wh) (a : Nat) (q : TBar) :
    SameWaits t (t.upd (.wheel W (some (withTbar wh a q)))) :=
  sameWaits_upd_wheel h (withLocal_dispatch wh _)

/-- A wait that a barrier's phase ends (R256, R257). -/
def EndedBy (W a ph : Nat) (z : Train) (v : Wait) : Prop := z.wheel = W ∧ ∃ p, v.on = .tb a p ∧ p ≠ ph

theorem EndedBy.congr {W a ph : Nat} (y z : Train) (v : Wait) (h : y.wheel = z.wheel) : EndedBy W a ph y v ↔ EndedBy W a ph z v := by
  unfold EndedBy
  rw [h]

/-- A train after a release: its wait may have ended and its clause count restarted, nothing else but its stored form. -/
def OnlyWoken (z y : Train) : Prop := y = { z with em := y.em, pc := y.pc, p := y.p, wait := y.wait, retired := y.retired }

theorem onlyWoken_refl (z : Train) : OnlyWoken z z := rfl

theorem OnlyWoken.trans {x y z : Train} (h : OnlyWoken x y) (h' : OnlyWoken y z) : OnlyWoken x z := by
  unfold OnlyWoken at *
  rw [h', h]

theorem onlyWoken_woke (z : Train) : OnlyWoken z z.woke.norm := rfl

theorem onlyWoken_retired (z : Train) : OnlyWoken z ({ z with retired := 0 } : Train).norm := rfl

theorem OnlyWoken.ite {x y z : Train} {c : Prop} [Decidable c] (hx : OnlyWoken z x) (hy : OnlyWoken z y) :
    OnlyWoken z (if c then x else y) := by
  split
  · exact hx
  · exact hy

/-- A barrier of phase `ph` has ended the waits it ends, the trains else being as `g` leaves them. -/
structure Released (t u : State) (W a ph : Nat) (g : Train → Train) : Prop where
  frame : u = { t with trains := u.trains, ctxs := u.ctxs }
  woken : ∀ i, WaitsEnded t u i g (EndedBy W a ph)
  trains : ∀ j z, AMap.get? t.trains j = some z → ∃ y, AMap.get? u.trains j = some y ∧ OnlyWoken z y

theorem Ends.wakeTb {W a : Nat} {wh : Wheel} (hk : KeysRise t.trains) (h : AMap.get? t.wheels W = some wh) :
    ∃ u, Ends (wakeTb W a : M s Unit) t () u ∧ Released t u W a (tbarAt wh.local_ a).phase id := by
  obtain ⟨u, hu, hw⟩ := Ends.wakeTrains (s := s) hk fun _ x => x.wheel == W && (match x.wait with
    | some ⟨.tb b ph, _, _⟩ => b == a && ph != (tbarAt wh.local_ a).phase
    | _ => false)
  refine ⟨u, Ends.now (by rw [tbGet_eq h]; exact hu), hw.frame, hw.waitsEnded fun j z w hz => ?_, fun j z hz => ?_⟩
  · obtain ⟨on, woken, age⟩ := w
    rw [hz, Bool.and_eq_true, beq_iff_eq, EndedBy]
    cases on <;> simp
  · exact ⟨_, by rw [hw.get, hz]; rfl, .ite (onlyWoken_woke z) (onlyWoken_refl z)⟩


/-- A train after a barrier release of wheel `W` (R69). -/
def afterRelease (W : Nat) (z : Train) : Train := if z.wheel = W then { z with retired := 0 } else z

theorem Ends.wheelReleased {W : Nat} (hk : KeysRise t.trains) :
    ∃ u, Ends (wheelReleased W : M s Unit) t () u ∧ TrainsChanged t u (fun _ z => z.wheel == W) fun z => { z with retired := 0 } :=
  ⟨_, Ends.now (Ends.updAll _), trainsChanged hk (fun _ z => z.wheel == W) fun z => { z with retired := 0 }⟩

/-- A flip: the release restarts the clause counts, and the new phase ends the waits for another (R69, R257). -/
theorem Ends.flip {W a : Nat} {wh : Wheel} (hk : KeysRise t.trains) (h : AMap.get? t.wheels W = some wh) :
    ∃ u, Ends (do Machine.wheelReleased W; Machine.wakeTb W a : M s Unit) t () u ∧
      Released t u W a (tbarAt wh.local_ a).phase (afterRelease W) := by
  obtain ⟨t1, h1, hc⟩ := Ends.wheelReleased (s := s) (W := W) hk
  have hw1 : AMap.get? t1.wheels W = some wh := by rw [hc.frame]; exact h
  obtain ⟨u, h2, hr⟩ := Ends.wakeTb (s := s) (a := a) hc.keys hw1
  have hget (j : Nat) (z : Train) (hz : AMap.get? t.trains j = some z) :
      AMap.get? t1.trains j = some (if z.wheel == W then ({ z with retired := 0 } : Train).norm else z) := by
    rw [hc.get, hz]
    rfl
  have hsame : SameWaits t t1 := by
    refine ⟨fun j => ?_, fun k => by rw [hc.frame], by rw [hc.frame], by rw [hc.frame]⟩
    rw [hc.get, Option.map_map]
    congr 1
    funext z
    simp only [Function.comp_apply]
    split <;> rfl
  refine ⟨u, Ends.bind h1 h2, ?_, fun i => ?_, fun j z hz => ?_⟩
  · rw [hr.frame, hc.frame]
  · refine (hr.woken i).congr hsame (fun j z _ hz hok => ⟨_, hget j z hz, ?_, ?_⟩) (fun _ _ => rfl) rfl EndedBy.congr
    · split
      · exact Train.norm_ok _
      · exact hok
    · unfold afterRelease
      simp only [beq_iff_eq, id]
      split
      · exact Train.norm_of_ok ⟨hok.live, hok.p7, hok.pc, hok.opened⟩
      · rfl
  · obtain ⟨y, hy, hzy⟩ := hr.trains j _ (hget j z hz)
    exact ⟨y, hy, OnlyWoken.trans (.ite (onlyWoken_retired z) (onlyWoken_refl z)) hzy⟩

/-- The barrier after a flip (R257). -/
def TBar.flipped (q : TBar) : TBar := { q with pend := 0, arr := q.reset, phase := (q.phase + 1) % 16 }

/-- An update that leaves a count to come writes the barrier. -/
theorem Ends.tbUpdate_stays {W a : Nat} {wh : Wheel} {f : TBar → TBar} (h : AMap.get? t.wheels W = some wh)
    (hf : (f (tbarAt wh.local_ a)).arr ≠ 0 ∨ (f (tbarAt wh.local_ a)).pend ≠ 0) :
    Ends (tbUpdate W a f : M s Unit) t () (t.upd (.wheel W (some (withTbar wh a (f (tbarAt wh.local_ a)))))) := by
  have e : (f (tbarAt wh.local_ a)).flip = (f (tbarAt wh.local_ a), false) := by
    unfold TBar.flip
    rw [if_neg (by simpa [Decidable.imp_iff_not_or] using hf)]
  refine Ends.now ?_
  rw [tbGet_eq h, e]
  exact Ends.bind (Ends.putLocal h _) (Ends.pure ())

/-- An update that brings both counts to zero flips the barrier. -/
theorem Ends.tbUpdate_flips {W a : Nat} {wh : Wheel} {f : TBar → TBar} (hk : KeysRise t.trains) (h : AMap.get? t.wheels W = some wh)
    (ha : (f (tbarAt wh.local_ a)).arr = 0) (hp : (f (tbarAt wh.local_ a)).pend = 0) :
    ∃ u, Ends (tbUpdate W a f : M s Unit) t () u ∧
      Released (t.upd (.wheel W (some (withTbar wh a (f (tbarAt wh.local_ a)).flipped)))) u W a
        (f (tbarAt wh.local_ a)).flipped.phase (afterRelease W) := by
  generalize hq : f (tbarAt wh.local_ a) = q at ha hp ⊢
  have e : q.flip = (q.flipped, true) := by
    unfold TBar.flip
    rw [if_pos (by simp [ha, hp])]
    rfl
  obtain ⟨u, hu, hr⟩ := Ends.flip (s := s) (a := a) (t := t.upd (.wheel W (some (withTbar wh a q.flipped)))) (by simpa using hk)
    (get?_upd_wheel W _)
  refine ⟨u, Ends.now ?_, ?_⟩
  · rw [tbGet_eq h, hq, e]
    exact Ends.bind (Ends.putLocal h _) hu
  · have hph : (tbarAt (withTbar wh a q.flipped).local_ a).phase = q.flipped.phase :=
      tbarAt_write_phase _ _ (Nat.mod_lt _ (by decide))
    rw [hph] at hr
    exact hr

end Sys2Proof.Machine
end

section
/-! SUPPORT. An operation of a stream queue: what JOB_START of it finds, and how its train completes it (R247, R254). -/

namespace Sys2Proof.Machine

variable {s t u v : State} {α β : Type}

/-! ## An operation of a train ends -/

/-- Completing an instruction changes its interlocks, its scoreboard and the gate, and nothing else. -/
theorem complete_rest (x : Train) (op : Nat) :
    x.complete op = { x with inflight := (x.complete op).inflight, gate := (x.complete op).gate, sb := (x.complete op).sb } := by
  unfold Train.complete
  split <;> rfl

theorem complete_completed (x : Train) (op : Nat) : Completed x (x.complete op) op := by
  refine ⟨?_, fun f hf i => ?_, by rw [complete_rest]; exact ⟨rfl, rfl, rfl, rfl⟩⟩
  · unfold Train.complete
    split
    · rename_i hn
      rw [List.find?_eq_none] at hn
      exact (List.filter_eq_self.2 fun f hf => by simpa using hn f hf).symm
    · rfl
  · obtain ⟨_, _, sb, _, _, _⟩ := f
    unfold Train.complete
    rw [hf]
    cases sb with
    | none => simp [Train.sbCount]
    | some k =>
      by_cases hk : k = i
      · simp [Train.sbCount, hk]
      · have hne : k.toNat ≠ i.toNat := fun hc => hk (BitVec.eq_of_toNat_eq hc)
        simp [Train.sbCount, hk, Vector.getElem_set_ne _ _ hne]

/-- An operation of the train `id`, which is `x`, has ended and left it `y`. -/
structure OpEnded (t u : State) (id op : Nat) (x y : Train) : Prop where
  frame : u = { t with trains := u.trains }
  only : OnlyTrain t u id
  get : AMap.get? u.trains id = some y
  done : Completed x y op
  regs : y.s = x.s ∧ y.v = x.v
  view : y.waitView = x.waitView

theorem onlyTrain_upd (t : State) (id : Nat) (x : Train) : OnlyTrain t (t.upd (.train id (some x))) id := by
  intro k hk
  simp [putOpt, AMap.get?_set_ne _ _ hk]

theorem OnlyTrain.trans {id : Nat} (h : OnlyTrain s t id) (h' : OnlyTrain t u id) : OnlyTrain s u id :=
  fun k hk => (h' k hk).trans (h k hk)

@[simp] theorem get?_upd_train (id : Nat) (x : Train) : AMap.get? (t.upd (.train id (some x))).trains id = some x.norm := by
  simp [putOpt]

/-- The train's write time when an operation of it ends (R13, R263). -/
def reachWts (t : State) (x : Train) : Train := { x with wtsMax := max x.wtsMax (t.core (t.coreOf x)).clock }

/-- A change of a train that completes its operation, after the one of its write time. -/
theorem opEnded_of {id op : Nat} {x y : Train} (w : Nat) (hy : Completed x y op) (hr : y.s = x.s ∧ y.v = x.v)
    (hv : y.waitView = x.waitView) :
    OpEnded t ((t.upd (.train id (some { x with wtsMax := w }))).upd (.train id (some y))) id op x y.norm :=
  ⟨rfl, (onlyTrain_upd t id _).trans (onlyTrain_upd _ id _), get?_upd_train id y, ⟨hy.flight, hy.sb, hy.rest⟩, hr, hv⟩

theorem Ends.endOp {id op : Nat} {x : Train} (h : AMap.get? t.trains id = some x) :
    ∃ u y, Ends (Machine.endOp id op none : M s Unit) t () u ∧ OpEnded t u id op x y := by
  let x1 : Train := (reachWts t x).norm
  have hc := complete_completed x1 op
  have e := complete_rest x1 op
  refine ⟨_, _, Ends.now (Ends.bind (Ends.modTrain h) (Ends.modTrain (get?_upd_train id _))), opEnded_of _ (y := x1.complete op)
    ⟨hc.flight, hc.sb, hc.rest⟩ ?_ ?_⟩
  · rw [e]
    exact ⟨rfl, rfl⟩
  · rw [e]
    rfl

theorem Ends.endOp_trap {id op : Nat} {x : Train} (h : AMap.get? t.trains id = some x) (c : Byte) (lanes : Option Mask)
    (w : Option DWord) :
    ∃ u y, Ends (Machine.endOp id op (some (c, lanes, w)) : M s Unit) t () u ∧ OpEnded t u id op x y ∧ Deferred_ x y op c lanes := by
  let x1 : Train := ((reachWts t x).norm).defers op c lanes w
  have hc := complete_completed x1 op
  have e := complete_rest x1 op
  have hd : ∃ d ∈ x1.deferred, d.order = op ∧ d.cause = c ∧ d.lanes = lanes := by
    refine ⟨_, List.mem_append_left _ (List.mem_append_right _ List.mem_cons_self), rfl, rfl, rfl⟩
  have ho := opEnded_of (t := t) (id := id) (reachWts t x).wtsMax (x := x) (y := x1.complete op) (op := op)
    ⟨hc.flight, hc.sb, hc.rest⟩ (by rw [e]; exact ⟨rfl, rfl⟩) (by rw [e]; rfl)
  refine ⟨_, _, Ends.now (Ends.bind (Ends.modTrain h) (Ends.modTrain (get?_upd_train id _))), ho, ho.done, ?_⟩
  show ∃ d ∈ (x1.complete op).deferred, _
  rw [e]
  exact hd

/-! ## The first operation of a train's stream queue -/

/-- What an operation of the train `x` on the wheel `wh` knows of them. -/
def ctxOfOp (s : State) (x : Train) (wh : Wheel) : OpCtx :=
  { tr := x, wheel := wh, ctx := s.ctxOf x, priv := s.privDispatch x, trains := trainsOf s x, size := localSize s x }

section
variable {op : Nat} {e : EngineOp} {x : Train} {wh : Wheel} (h : OpHead s s.stream op e x wh)
include h

theorem OpHead.opCtx : opCtx s e = some (ctxOfOp s x wh) := by
  unfold Machine.opCtx State.wheelOf
  rw [h.train]
  simp only [h.wheel]
  rfl

/-- No operation of the train stands before it. -/
theorem OpHead.firstOf : firstOf s.stream e.train = some op := by
  unfold Machine.firstOf
  have hm : (op, e) ∈ s.stream := AMap.mem_of_get? h.found
  obtain ⟨kv, hkv⟩ : ∃ kv, s.stream.find? (fun kv => kv.2.train == e.train) = some kv := by
    rw [← Option.isSome_iff_exists, List.find?_isSome]
    exact ⟨_, hm, by simp⟩
  rw [hkv, Option.map_some, Option.some.injEq]
  obtain ⟨hp, l₁, l₂, hl, hno⟩ := List.find?_eq_some_iff_append.1 hkv
  have hkv' : AMap.get? s.stream kv.1 = some kv.2 := AMap.get?_of_mem h.keys.1 (List.mem_of_find?_eq_some hkv)
  have hle : op ≤ kv.1 := h.first kv.1 kv.2 hkv' (by simpa using hp)
  have hk := h.keys.1
  unfold KeysRise at hk
  rw [hl, List.map_append, List.map_cons] at hk
  rw [hl] at hm
  rcases List.mem_append.1 hm with hm | hm
  · exact absurd (hno _ hm) (by simp)
  · rcases List.mem_cons.1 hm with hm | hm
    · rw [← hm]
    · have := (List.pairwise_cons.1 (List.pairwise_append.1 hk).2.1).1 op (List.mem_map_of_mem (f := (·.1)) hm)
      omega

/-- What precedes its issue is performed. -/
theorem OpHead.engineMay (hq : x.queryFirst op = false) : engineMay s e.train e.id = true := by
  unfold Machine.engineMay issueDone
  rw [h.train, h.own]
  simp only [hq, Bool.not_false, Bool.and_true, Bool.and_eq_true, Bool.not_eq_true', List.any_eq_false, decide_eq_true_eq,
    Nat.not_lt, beq_iff_eq, not_and, and_imp]
  exact ⟨⟨⟨h.fifo, h.writes⟩, h.acquired⟩, h.synced⟩

/-- Nothing keeps it back. -/
theorem OpHead.acts (hq : x.queryFirst op = false) (hl : afterAccesses e.instr = true → ∀ l ∈ x.loads, op ≤ l.id) :
    (e.held || frozen s (ctxOfOp s x wh).ctx || decide (Machine.firstOf s.stream e.train ≠ some op) ||
      !Machine.engineMay s e.train e.id || (afterAccesses e.instr && (ctxOfOp s x wh).tr.loads.any fun l => l.id < e.id)) = false := by
  rw [h.free_, h.firstOf, h.engineMay hq, h.own]
  have hf : frozen s (ctxOfOp s x wh).ctx = false := h.runs
  have hla : (afterAccesses e.instr && x.loads.any fun l => decide (l.id < op)) = false := by
    cases ha : afterAccesses e.instr with
    | false => rfl
    | true => simpa using hl ha
  have hx : (ctxOfOp s x wh).tr = x := rfl
  rw [hf, hx, hla]
  simp

theorem OpHead.exec (hi : ∀ sb d c a, e.instr ≠ .ctxsv sb d c a ∧ e.instr ≠ .ctxld sb d c a) (hs : Ends (streamStep op e : M s Unit) s () u) :
    exec (.jobStart op) s = .next u := by
  refine Ends.runE (Ends.now ?_)
  rw [h.found]
  dsimp only
  split
  · rename_i he
    exact absurd he (hi _ _ _ _).1
  · rename_i he
    exact absurd he (hi _ _ _ _).2
  · exact hs

variable (hq : x.queryFirst op = false) (hl : afterAccesses e.instr = true → ∀ l ∈ x.loads, op ≤ l.id)
  (hi : ∀ sb d c a, e.instr ≠ .ctxsv sb d c a ∧ e.instr ≠ .ctxld sb d c a)
include hq hl hi

/-- An operation that completes leaves its queue, and its train completes it. -/
theorem OpHead.completes {x' : Train} (hr : Ends (streamRun e (ctxOfOp s x wh) : M s Bool) s true t)
    (hx : AMap.get? t.trains e.train = some x') :
    ∃ u y, Machine.exec (.jobStart op) s = .next u ∧ OpEnded (t.upd (.stream op none)) u e.train op x' y := by
  obtain ⟨u, y, hu, ho⟩ := Ends.endOp (s := s) (t := t.upd (.stream op none)) (id := e.train) (op := op) (x := x') (by simpa using hx)
  refine ⟨u, y, h.exec hi ?_, ho⟩
  refine Ends.now ?_
  rw [h.opCtx]
  dsimp only
  rw [h.acts hq hl, if_neg (by decide)]
  exact Ends.bind (Ends.tryM hr) (Ends.bind (Ends.upd _) hu)

/-- An operation that finds a trap leaves its queue, and its train completes it with the trap deferred. -/
theorem OpHead.traps {c : Byte} {lanes : Option Mask} {w : Option DWord} (hc : isCopy e.instr = false)
    (hr : Stops (streamRun e (ctxOfOp s x wh) : M s Bool) s (.trap c lanes w)) :
    ∃ u y, Machine.exec (.jobStart op) s = .next u ∧ OpEnded (s.upd (.stream op none)) u e.train op x y ∧
      Deferred_ x y op c lanes := by
  obtain ⟨u, y, hu, ho, hd⟩ := Ends.endOp_trap (s := s) (t := s.upd (.stream op none)) (id := e.train) (op := op) (x := x)
    (by simpa using h.train) c lanes (foundValue c w)
  refine ⟨u, y, h.exec hi ?_, ho, hd⟩
  refine Ends.now ?_
  rw [h.opCtx]
  dsimp only
  rw [h.acts hq hl, if_neg (by decide)]
  refine Ends.bind (Stops.tryM hr) (Ends.bind (Ends.upd _) ?_)
  rw [hc, if_neg (by decide)]
  exact hu

end

end Sys2Proof.Machine
end

section
/-! SUPPORT. `tbinit`, `tbexp`, `tbarr` and `srd` at the engine (R255 to R257). -/

namespace Sys2Proof.Machine

variable {s t u v : State} {α β : Type}

/-! ## What an operation of class S leaves -/

/-- The instructions of a train under way, and all that their completion reads, stand in both. -/
structure SameWork (x y : Train) : Prop where
  inflight : y.inflight = x.inflight
  sb : y.sb = x.sb
  clause : y.clause = x.clause
  live : y.live = x.live
  fifo : y.fifo = x.fifo
  loads : y.loads = x.loads

theorem Completed.of_sameWork {x x' y : Train} {op : Nat} (h : SameWork x x') (hc : Completed x' y op) : Completed x y op := by
  refine ⟨by rw [hc.flight, h.inflight], fun f hf i => ?_, ?_⟩
  · have := hc.sb f (by rw [h.inflight]; exact hf) i
    unfold Train.sbCount at *
    rw [this, h.sb]
  · obtain ⟨h1, h2, h3, h4⟩ := hc.rest
    exact ⟨h1.trans h.clause, h2.trans h.live, h3.trans h.fifo, h4.trans h.loads⟩

theorem OnlyWoken.sameWork {x y : Train} (h : OnlyWoken x y) : SameWork x y := by
  unfold OnlyWoken at h
  rw [h]
  exact ⟨rfl, rfl, rfl, rfl, rfl, rfl⟩

theorem OnlyWoken.regs {x y : Train} (h : OnlyWoken x y) : y.s = x.s ∧ y.v = x.v := by
  unfold OnlyWoken at h
  rw [h]
  exact ⟨rfl, rfl⟩

theorem SameWork.trans {x y z : Train} (h : SameWork x y) (h' : SameWork y z) : SameWork x z :=
  ⟨h'.inflight.trans h.inflight, h'.sb.trans h.sb, h'.clause.trans h.clause, h'.live.trans h.live, h'.fifo.trans h.fifo,
    h'.loads.trans h.loads⟩

theorem sameWork_refl (x : Train) : SameWork x x := ⟨rfl, rfl, rfl, rfl, rfl, rfl⟩

/-- A train with the value of an operation in its destination. -/
def withDst (x : Train) (d : Dst) (n : Nat) : Train := x.setDst d 0xFFFFFFFF 0 (fun _ j => dwPart (BitVec.ofNat 64 n) j) 1

theorem Ends.opDst {id : Nat} {x : Train} (h : AMap.get? t.trains id = some x) (d : Dst) (n : Nat) :
    Ends (opDst id d 1 (BitVec.ofNat 64 n) : M s Unit) t () (t.upd (.train id (some (withDst x d n)))) := Ends.modTrain h

theorem withDst_sameWork (x : Train) (d : Dst) (n : Nat) : SameWork x (withDst x d n).norm := by
  unfold withDst
  rw [Train.setDst_rest]
  exact ⟨rfl, rfl, rfl, rfl, rfl, rfl⟩

theorem withDst_view (x : Train) (d : Dst) (n : Nat) : (withDst x d n).norm.waitView = x.waitView := by
  unfold withDst
  rw [Train.setDst_rest]
  rfl

theorem dwPart_zero (n : Nat) : dwPart (BitVec.ofNat 64 n) 0 = BitVec.ofNat 32 n := by
  unfold dwPart
  apply BitVec.eq_of_toNat_eq
  simp [BitVec.extractLsb'_toNat]

theorem withDst_sreg (x : Train) (d : Dst) (n k : Nat) : (withDst x d n).norm.sreg k =
    if d.nowb = false ∧ d.scalar = true ∧ k = d.idx.toNat then BitVec.ofNat 32 n else x.sreg k := by
  show (withDst x d n).sreg k = _
  unfold withDst
  rw [Train.sreg_setDst]
  by_cases h : d.nowb = false ∧ d.scalar = true ∧ k = d.idx.toNat
  · obtain ⟨h1, h2, h3⟩ := h
    rw [if_pos ⟨h1, h2, by omega, by omega⟩, if_pos ⟨h1, h2, h3⟩, h3, Nat.sub_self, dwPart_zero]
  · rw [if_neg h, if_neg]
    rintro ⟨h1, h2, h3, h4⟩
    exact h ⟨h1, h2, by omega⟩

theorem withDst_v (x : Train) {d : Dst} (n : Nat) (h : d.scalar = true) : (withDst x d n).norm.v = x.v := by
  show (withDst x d n).v = _
  unfold withDst Train.setDst
  rw [h]
  split <;> rfl

/-- A scalar register after an operation with a destination, or none, has completed. -/
def sregAfter (x : Train) (d : Option (Dst × Nat)) (k : Nat) : Word :=
  match d with
  | some (d, n) => if d.nowb = false ∧ d.scalar = true ∧ k = d.idx.toNat then BitVec.ofNat 32 n else x.sreg k
  | none => x.sreg k

/-- What JOB_START of an operation leaves that ends no wait: the wheel, the clock of its core and the destination it writes. -/
def Leaves (s : State) (op : Nat) (e : EngineOp) (x : Train) (wh wheel : Wheel) (clock : Nat) (d : Option (Dst × Nat)) : Prop :=
  ∃ t y, exec (.jobStart op) s = .next t ∧
    t = { s with
      trains := t.trains, wheels := AMap.set s.wheels x.wheel wheel, stream := AMap.erase s.stream op
      cores := t.cores } ∧
    (∀ k, k ≠ wh.core → t.core k = s.core k) ∧ t.core wh.core = { s.core wh.core with clock := clock } ∧
    OnlyTrain s t e.train ∧ AMap.get? t.trains e.train = some y ∧ Completed x y op ∧
    ((∀ q, d = some q → q.1.scalar = true) → y.v = x.v) ∧ ∀ k, y.sreg k = sregAfter x d k

/-- What JOB_START of an operation leaves that flips its barrier (R257). -/
def Flips (s : State) (op : Nat) (e : EngineOp) (x : Train) (wh : Wheel) (a clock : Nat) : Prop :=
  ∃ t y, exec (.jobStart op) s = .next t ∧ t.mem = s.mem ∧
    t.wheels = AMap.set s.wheels x.wheel (withTbar wh a (tbarAt wh.local_ a).flipped) ∧
    clock ≤ (t.core wh.core).clock ∧ AMap.get? t.trains e.train = some y ∧ Completed x y op ∧
    WaitsEnded s t e.train (afterRelease x.wheel) (EndedBy x.wheel a (tbarAt wh.local_ a).flipped.phase)

section
variable {op : Nat} {e : EngineOp} {x : Train} {wh : Wheel} (h : OpHead s s.stream op e x wh) (hq : x.queryFirst op = false)
  (hl : afterAccesses e.instr = true → ∀ l ∈ x.loads, op ≤ l.id)
  (hi : ∀ sb d c a, e.instr ≠ .ctxsv sb d c a ∧ e.instr ≠ .ctxld sb d c a)
include h hq hl hi

omit hq hl hi in
theorem OpHead.tbGet (a : Nat) : tbGet s (ctxOfOp s x wh).tr.wheel a = tbarAt wh.local_ a := tbGet_eq h.wheel a

/-- The operation ends in `t`, where its train is `x'`. -/
theorem OpHead.leaves {x' : Train} {wheel : Wheel} {clock : Nat} {d : Option (Dst × Nat)}
    (hr : Ends (streamRun e (ctxOfOp s x wh) : M s Bool) s true t)
    (ht : t = { s with trains := t.trains, wheels := AMap.set s.wheels x.wheel wheel, cores := t.cores })
    (hc : (∀ k, k ≠ wh.core → t.core k = s.core k) ∧ t.core wh.core = { s.core wh.core with clock := clock })
    (ho : OnlyTrain s t e.train) (hx : AMap.get? t.trains e.train = some x') (hw : SameWork x x')
    (hv : (∀ q, d = some q → q.1.scalar = true) → x'.v = x.v)
    (hs : ∀ k, x'.sreg k = sregAfter x d k) : Leaves s op e x wh wheel clock d := by
  obtain ⟨u, y, hu, hoe⟩ := h.completes hq hl hi hr hx
  have hcore (k : Nat) : u.core k = t.core k := by
    rw [hoe.frame]
    rfl
  refine ⟨u, y, hu, ?_, fun k hk => (hcore k).trans (hc.1 k hk), (hcore _).trans hc.2, ho.trans hoe.only, hoe.get,
    hoe.done.of_sameWork hw, fun hd => hoe.regs.2.trans (hv hd), fun k => ?_⟩
  · rw [hoe.frame, ht]
    rfl
  · rw [← hs k]
    unfold Train.sreg
    rw [hoe.regs.1]

/-- The operation ends in `t`, where a barrier has ended waits, from `t1` on. -/
theorem OpHead.wakes {t1 : State} {x1 : Train} {a ph : Nat} {g : Train → Train}
    (hr : Ends (streamRun e (ctxOfOp s x wh) : M s Bool) s true t) (hrel : Released t1 t x.wheel a ph g) (hsame : SameWaits s t1)
    (ho : OnlyTrain s t1 e.train) (hx : AMap.get? t1.trains e.train = some x1) (hw : SameWork x x1) :
    ∃ u y, Machine.exec (.jobStart op) s = .next u ∧
      u = { t1 with trains := u.trains, ctxs := u.ctxs, stream := AMap.erase t1.stream op } ∧
      AMap.get? u.trains e.train = some y ∧ Completed x y op ∧ y.s = x1.s ∧ y.v = x1.v ∧
      WaitsEnded s u e.train g (EndedBy x.wheel a ph) := by
  obtain ⟨x2, hx2, h12⟩ := hrel.trains _ _ hx
  obtain ⟨u, y, hu, hoe⟩ := h.completes hq hl hi hr hx2
  refine ⟨u, y, hu, ?_, hoe.get, hoe.done.of_sameWork (hw.trans h12.sameWork), hoe.regs.1.trans h12.regs.1, hoe.regs.2.trans h12.regs.2, ?_⟩
  · rw [hoe.frame, hrel.frame]
    rfl
  · exact (hrel.woken e.train).congr hsame (fun j z hj hz hok => ⟨z, (ho j hj).trans hz, hok, rfl⟩) (fun k hk => by
      rw [hoe.only k hk]
      simp) (by rw [hoe.frame]; simp) EndedBy.congr

end

/-! ## `tbinit` -/

section
variable {op : Nat} {e : EngineOp} {x : Train} {wh : Wheel} (h : OpHead s s.stream op e x wh) (hq : x.queryFirst op = false)
include h hq

/-- The barrier as `tbinit` makes it (R255). -/
def TBar.made (w : TBar) (n : Nat) : TBar := { w with pend := 0, reset := n, arr := n, phase := 0 }

theorem OpHead.tbinit_makes {sb : Sb} {b m : Src} (he : e.instr = .tbinit sb false b m)
    (hw : (tbarAt wh.local_ (e.cap.a.at 0).toNat).reset = 0) (hk : KeysRise s.trains) :
    ∃ t y, Machine.exec (.jobStart op) s = .next t ∧
      t = { s with
        trains := t.trains, ctxs := t.ctxs
        wheels := AMap.set s.wheels x.wheel (withTbar wh (e.cap.a.at 0).toNat
          ((tbarAt wh.local_ (e.cap.a.at 0).toNat).made (e.cap.b.at 0).toNat))
        stream := AMap.erase s.stream op } ∧
      AMap.get? t.trains e.train = some y ∧ Completed x y op ∧ y.s = x.s ∧ y.v = x.v ∧
      WaitsEnded s t e.train id (EndedBy x.wheel (e.cap.a.at 0).toNat 0) := by
  generalize ha : (e.cap.a.at 0).toNat = a at hw ⊢
  generalize hn : (e.cap.b.at 0).toNat = n
  let wh1 : Wheel := withTbar wh a ((tbarAt wh.local_ a).made n)
  let t1 : State := s.upd (.wheel x.wheel (some wh1))
  obtain ⟨u, hu, hr⟩ := Ends.wakeTb (s := s) (t := t1) (a := a) (by simpa [t1] using hk) (get?_upd_wheel x.wheel wh1)
  have hph : (tbarAt wh1.local_ a).phase = 0 := tbarAt_write_phase (q := (tbarAt wh.local_ a).made n) _ _ (Nat.zero_lt_succ 15)
  rw [hph] at hr
  have hrun : Ends (streamRun e (ctxOfOp s x wh) : M s Bool) s true u := by
    refine Ends.now ?_
    rw [he, ha, hn]
    dsimp only
    rw [h.tbGet, if_neg (by simp), if_pos (by simp [hw])]
    exact Ends.bind (Ends.putLocal h.wheel _) (Ends.bind hu (Ends.pure true))
  exact h.wakes hq (by simp [he, afterAccesses]) (by simp [he]) hrun hr (sameWaits_withTbar h.wheel a _) (fun _ _ => rfl) h.train
    (sameWork_refl x)

theorem OpHead.tbinit_again {sb : Sb} {b m : Src} (he : e.instr = .tbinit sb false b m)
    (hw : (tbarAt wh.local_ (e.cap.a.at 0).toNat).reset = (e.cap.b.at 0).toNat)
    (h0 : (tbarAt wh.local_ (e.cap.a.at 0).toNat).reset ≠ 0) : Leaves s op e x wh wh (s.core wh.core).clock none := by
  have hrun : Ends (streamRun e (ctxOfOp s x wh) : M s Bool) s true s := by
    refine Ends.now ?_
    rw [he]
    dsimp only
    rw [h.tbGet, if_neg (by simp), if_neg (by simpa using h0), if_neg (by simpa using hw)]
    exact Ends.pure true
  exact h.leaves hq (by simp [he, afterAccesses]) (by simp [he]) hrun (by rw [AMap.set_get? h.keys.2 h.wheel]) ⟨fun _ _ => rfl, rfl⟩
    (fun _ _ => rfl) h.train (sameWork_refl x) (fun _ => rfl) fun _ => rfl

theorem OpHead.tbinit_differs {sb : Sb} {b m : Src} (he : e.instr = .tbinit sb false b m)
    (h0 : (tbarAt wh.local_ (e.cap.a.at 0).toNat).reset ≠ 0)
    (hw : (tbarAt wh.local_ (e.cap.a.at 0).toNat).reset ≠ (e.cap.b.at 0).toNat) :
    ∃ t y, Machine.exec (.jobStart op) s = .next t ∧ t.wheels = s.wheels ∧ t.mem = s.mem ∧
      AMap.get? t.trains e.train = some y ∧ Deferred_ x y op 0x03 none := by
  have hrun : Stops (streamRun e (ctxOfOp s x wh) : M s Bool) s (.trap eIllOperand none none) := by
    refine Stops.now ?_
    rw [he]
    dsimp only
    rw [h.tbGet, if_neg (by simp), if_neg (by simpa using h0), if_pos (by simpa using hw)]
    exact Stops.stop _
  obtain ⟨u, y, hu, ho, hd⟩ := h.traps hq (by simp [he, afterAccesses]) (by simp [he]) (by simp [he, isCopy]) hrun
  exact ⟨u, y, hu, by rw [ho.frame]; rfl, by rw [ho.frame]; rfl, ho.get, hd⟩

end

/-! ## `tbexp`, `tbarr` and `srd` -/

theorem upd_wheel_eq (W : Nat) (wh : Wheel) : t.upd (.wheel W (some wh)) = { t with wheels := AMap.set t.wheels W wh } := rfl

/-- The barrier with `n` more sectors expected, modulo 2^32 (R257). -/
def TBar.expects (w : TBar) (n : Nat) : TBar := { w with pend := (w.pend + n) % 2 ^ 32 }

/-- The barrier after an arrival that expects `n` sectors (R256). -/
def TBar.arrived (w : TBar) (n : Nat) : TBar := { w with pend := (w.pend + n) % 2 ^ 32, arr := w.arr - 1 }

theorem tbExpect_nat (W a n : Nat) : (tbExpect W a n : M s Unit) = tbUpdate W a (·.expects n) := rfl

theorem Ends.streamRun_tbexp {e : EngineOp} {x : Train} {wh : Wheel} {sb : Sb} {b m : Src} (he : e.instr = .tbexp sb b m)
    (hr : Ends (tbUpdate x.wheel (e.cap.a.at 0).toNat (·.expects (e.cap.b.at 0).toNat) : M s Unit) s () t) :
    Ends (streamRun e (ctxOfOp s x wh) : M s Bool) s true t := by
  rw [← tbExpect_nat] at hr
  refine Ends.now ?_
  rw [he]
  exact Ends.bind hr (Ends.pure true)

/-- The state in which an arrival updates its barrier: the phase stands in its destination, and its core's clock is past the writes of its train (R256, R263). -/
def arriving (s : State) (e : EngineOp) (x : Train) (wh : Wheel) (d : Dst) : State :=
  (s.upd (.train e.train (some (withDst x d (tbarAt wh.local_ (e.cap.a.at 0).toNat).phase)))).upd
    (.core wh.core { s.core wh.core with clock := max (s.core wh.core).clock x.wtsMax })

theorem core_upd_core (k j : Nat) (c : Core) : (t.upd (.core k c)).core j = if j = k then c else t.core j := by
  simp [State.core, AMap.getD_set]

section
variable {op : Nat} {e : EngineOp} {x : Train} {wh : Wheel} (h : OpHead s s.stream op e x wh) (hq : x.queryFirst op = false)
include h hq

theorem OpHead.tbexp_stays {sb : Sb} {b m : Src} (he : e.instr = .tbexp sb b m)
    (hw : ((tbarAt wh.local_ (e.cap.a.at 0).toNat).expects (e.cap.b.at 0).toNat).arr ≠ 0 ∨
      ((tbarAt wh.local_ (e.cap.a.at 0).toNat).expects (e.cap.b.at 0).toNat).pend ≠ 0) :
    Leaves s op e x wh (withTbar wh (e.cap.a.at 0).toNat ((tbarAt wh.local_ (e.cap.a.at 0).toNat).expects (e.cap.b.at 0).toNat))
      (s.core wh.core).clock none :=
  h.leaves hq (by simp [he, afterAccesses]) (by simp [he]) (Ends.streamRun_tbexp he (Ends.tbUpdate_stays h.wheel hw)) (upd_wheel_eq _ _)
    ⟨fun _ _ => rfl, rfl⟩ (fun _ _ => rfl) h.train (sameWork_refl x) (fun _ => rfl) fun _ => rfl

/-- An update that flips the barrier, after the operation has written its destination and moved its core's clock. -/
theorem OpHead.flips {t1 u : State} {x1 : Train} {a : Nat} {q : TBar} {clock : Nat}
    (hl : afterAccesses e.instr = true → ∀ l ∈ x.loads, op ≤ l.id)
    (hi : ∀ sb d c a, e.instr ≠ .ctxsv sb d c a ∧ e.instr ≠ .ctxld sb d c a)
    (hr : Ends (streamRun e (ctxOfOp s x wh) : M s Bool) s true u)
    (ht : t1 = { s with trains := t1.trains, cores := t1.cores }) (hc : clock ≤ (t1.core wh.core).clock)
    (hrel : Released (t1.upd (.wheel x.wheel (some (withTbar wh a q.flipped)))) u x.wheel a q.flipped.phase (afterRelease x.wheel))
    (hq' : q.flipped = (tbarAt wh.local_ a).flipped)
    (ho : OnlyTrain s t1 e.train) (hx : AMap.get? t1.trains e.train = some x1) (hw : SameWork x x1)
    (hv : x1.waitView = x.waitView) : Flips s op e x wh a clock := by
  have hsame : SameWaits s t1 := by
    refine ⟨fun j => ?_, fun k => by rw [ht], by rw [ht], by rw [ht]⟩
    by_cases hj : j = e.train
    · rw [hj, hx, h.train, Option.map_some, Option.map_some, hv]
    · rw [ho j hj]
  have hwh : AMap.get? t1.wheels x.wheel = some wh := by rw [ht]; exact h.wheel
  obtain ⟨v, y, hv, hf, hy, hcy, -, -, hwe⟩ := h.wakes hq hl hi hr hrel (hsame.trans (sameWaits_withTbar hwh a _)) ho hx hw
  rw [hq'] at hf hwe
  refine ⟨v, y, hv, ?_, ?_, ?_, hy, hcy, hwe⟩
  · rw [hf, ht]
    rfl
  · rw [hf, ht]
    rfl
  · rw [hf]
    exact hc

theorem OpHead.tbexp_flips {sb : Sb} {b m : Src} (he : e.instr = .tbexp sb b m) (hk : KeysRise s.trains)
    (ha : ((tbarAt wh.local_ (e.cap.a.at 0).toNat).expects (e.cap.b.at 0).toNat).arr = 0)
    (hp : ((tbarAt wh.local_ (e.cap.a.at 0).toNat).expects (e.cap.b.at 0).toNat).pend = 0) :
    Flips s op e x wh (e.cap.a.at 0).toNat (s.core wh.core).clock := by
  obtain ⟨u, hu, hrel⟩ := Ends.tbUpdate_flips (s := s) (f := (·.expects (e.cap.b.at 0).toNat)) hk h.wheel ha hp
  exact h.flips hq (by simp [he, afterAccesses]) (by simp [he]) (Ends.streamRun_tbexp he hu) rfl (Nat.le_refl _) hrel rfl (fun _ _ => rfl)
    h.train (sameWork_refl x) rfl

omit hq in
theorem OpHead.tbarr_run {sb : Sb} {d : Dst} {b m : Src} (he : e.instr = .tbarr sb d b m)
    (hr0 : (tbarAt wh.local_ (e.cap.a.at 0).toNat).reset ≠ 0) (ha0 : (tbarAt wh.local_ (e.cap.a.at 0).toNat).arr ≠ 0)
    (hr : Ends (tbUpdate x.wheel (e.cap.a.at 0).toNat (·.arrived (e.cap.b.at 0).toNat) : M s Unit) (arriving s e x wh d) () t) :
    Ends (streamRun e (ctxOfOp s x wh) : M s Bool) s true t := by
  refine Ends.now ?_
  rw [he]
  dsimp only
  rw [h.tbGet, if_neg (by simpa using ⟨hr0, ha0⟩)]
  exact Ends.bind (Ends.opDst h.train d _) (Ends.bind (Ends.upd _) (Ends.bind hr (Ends.pure true)))

theorem OpHead.tbarr_stays {sb : Sb} {d : Dst} {b m : Src} (he : e.instr = .tbarr sb d b m)
    (hr0 : (tbarAt wh.local_ (e.cap.a.at 0).toNat).reset ≠ 0) (ha0 : (tbarAt wh.local_ (e.cap.a.at 0).toNat).arr ≠ 0)
    (hl : ∀ l ∈ x.loads, op ≤ l.id)
    (hw : ((tbarAt wh.local_ (e.cap.a.at 0).toNat).arrived (e.cap.b.at 0).toNat).arr ≠ 0 ∨
      ((tbarAt wh.local_ (e.cap.a.at 0).toNat).arrived (e.cap.b.at 0).toNat).pend ≠ 0) :
    Leaves s op e x wh (withTbar wh (e.cap.a.at 0).toNat ((tbarAt wh.local_ (e.cap.a.at 0).toNat).arrived (e.cap.b.at 0).toNat))
      (max (s.core wh.core).clock x.wtsMax) (some (d, (tbarAt wh.local_ (e.cap.a.at 0).toNat).phase)) := by
  have hst := Ends.tbUpdate_stays (s := s) (t := arriving s e x wh d) (f := (·.arrived (e.cap.b.at 0).toNat)) h.wheel hw
  refine h.leaves hq (fun _ => hl) (by simp [he]) (h.tbarr_run he hr0 ha0 hst) (upd_wheel_eq _ _) ⟨fun k hk => ?_, ?_⟩
    (onlyTrain_upd s _ _) (get?_upd_train _ _) (withDst_sameWork _ _ _) (fun hd => withDst_v _ _ (hd _ rfl)) (withDst_sreg _ _ _)
  · exact (core_upd_core _ _ _).trans (if_neg hk)
  · exact (core_upd_core _ _ _).trans (if_pos rfl)

theorem OpHead.tbarr_flips {sb : Sb} {d : Dst} {b m : Src} (he : e.instr = .tbarr sb d b m) (hk : KeysRise s.trains)
    (hr0 : (tbarAt wh.local_ (e.cap.a.at 0).toNat).reset ≠ 0) (ha1 : (tbarAt wh.local_ (e.cap.a.at 0).toNat).arr = 1)
    (hl : ∀ l ∈ x.loads, op ≤ l.id) (hp : ((tbarAt wh.local_ (e.cap.a.at 0).toNat).pend + (e.cap.b.at 0).toNat) % 2 ^ 32 = 0) :
    Flips s op e x wh (e.cap.a.at 0).toNat x.wtsMax := by
  obtain ⟨u, hu, hrel⟩ := Ends.tbUpdate_flips (s := s) (t := arriving s e x wh d) (f := (·.arrived (e.cap.b.at 0).toNat))
    (hk.putOpt e.train (some (withDst x d _).norm)) h.wheel (show (tbarAt wh.local_ (e.cap.a.at 0).toNat).arr - 1 = 0 by rw [ha1]) hp
  refine h.flips hq (fun _ => hl) (by simp [he]) (h.tbarr_run he hr0 (by omega) hu) rfl ?_ hrel rfl (onlyTrain_upd s _ _)
    (get?_upd_train _ _) (withDst_sameWork _ _ _) (withDst_view _ _ _)
  rw [arriving, core_upd_core, if_pos rfl]
  exact Nat.le_max_right _ _

/-- `srd` of a field of a barrier (R259). -/
theorem OpHead.srd {sb : Sb} {k : SrdOp} {d : Dst} {n : Nat} (he : e.instr = .srd sb k d)
    (hn : ∃ b, (k = .phase b ∧ n = (tbarAt wh.local_ (e.cap.a.at 0).toNat).phase) ∨
      (k = .arrive b ∧ n = (tbarAt wh.local_ (e.cap.a.at 0).toNat).arr) ∨
      (k = .sectors b ∧ n = (tbarAt wh.local_ (e.cap.a.at 0).toNat).pend)) :
    Leaves s op e x wh wh (s.core wh.core).clock (some (d, n)) := by
  have hrun : Ends (streamRun e (ctxOfOp s x wh) : M s Bool) s true (s.upd (.train e.train (some (withDst x d n)))) := by
    refine Ends.now ?_
    rw [he]
    dsimp only
    rw [h.tbGet]
    obtain ⟨b, ⟨rfl, rfl⟩ | ⟨rfl, rfl⟩ | ⟨rfl, rfl⟩⟩ := hn
    · exact Ends.bind (Ends.opDst h.train d _) (Ends.pure true)
    · exact Ends.bind (Ends.opDst h.train d _) (Ends.pure true)
    · exact Ends.bind (Ends.opDst h.train d _) (Ends.pure true)
  exact h.leaves hq (by simp [he, afterAccesses]) (by simp [he]) hrun (by rw [AMap.set_get? h.keys.2 h.wheel]; rfl)
    ⟨fun _ _ => rfl, rfl⟩ (onlyTrain_upd s _ _) (get?_upd_train _ _) (withDst_sameWork _ _ _) (fun hd => withDst_v _ _ (hd _ rfl))
    (withDst_sreg _ _ _)

end

end Sys2Proof.Machine
end

section
/-! SUPPORT. A WSLOAD job starts; what the end of a job keeps (R254, R262, R370). -/

namespace Sys2Proof.Machine

variable {s t u v : State} {α β : Type}

/-! ## A step of a job -/

theorem Ends.jobStep {id : Nat} {j : Job} {m : M s Unit} (h : Ends m t () u) : Ends (Machine.jobStep id j m) t () u :=
  Ends.bind (Ends.tryM h) (Ends.pure ())

theorem Ends.jobStep_wait {id : Nat} {j : Job} {m : M s Unit} (h : Stops m t .wait) : Ends (Machine.jobStep id j m) t () t :=
  Ends.bind (Stops.tryM h) (Ends.pure ())

/-! ## A WSLOAD job starts -/

/-- The job of a `wsld` with its footprint: it reads memory, and writes no byte that another job reads (R370). -/
def Job.weighing (j : Job) (a n : Nat) : Job :=
  { j with started := true, reads := (List.range (n / 128)).map fun i => (Space.glob, a / 128 + i) }

theorem jobStart_weights {k train op w a n m : Nat} {j : Job} (hs : AMap.get? s.stream k = none) (hj : AMap.get? s.jobs k = some j)
    (hkind : j.kind = .weights train op w a n m) (hst : j.started = false) (hheld : j.held = false) (hruns : ctxRuns s j.ctx = true)
    (hmay : engineMay s train op = true) (hred : s.reduced = false) (hrb : rangeBound s (w / 65536) (n / 65536) = false) :
    exec (.jobStart k) s =
      .next (if mayStart s k (j.weighing a n) then s.upd (.job k (some (j.weighing a n))) else s) := by
  have hjm : jobMay s j = true := by
    unfold jobMay
    rw [hkind]
    exact hmay
  refine Ends.runE (Ends.now ?_)
  rw [hs]
  dsimp only
  rw [hj]
  dsimp only
  rw [hst, hheld, hruns, hjm, if_neg (by decide)]
  by_cases hms : mayStart s k (j.weighing a n) = true
  · rw [if_pos hms]
    refine Ends.jobStep (Ends.now ?_)
    rw [hkind]
    refine Ends.now ?_
    unfold Job.weighing at hms
    dsimp only
    rw [hms, hred, hrb, if_neg (by decide), if_neg (by decide)]
    exact Ends.upd _
  · rw [if_neg hms]
    refine Ends.jobStep_wait (Stops.now ?_)
    rw [hkind]
    refine Stops.now ?_
    unfold Job.weighing at hms
    dsimp only
    rw [if_pos (by simpa using hms)]
    exact Stops.stop _

/-! ## What the end of a job keeps -/

/-- Bytes of memory, bytes of the local stores and the waits of the trains stand. -/
structure Kept (t u : State) : Prop where
  mem : u.mem = t.mem
  local_ : ∀ W wh, AMap.get? t.wheels W = some wh → ∃ wh', AMap.get? u.wheels W = some wh' ∧ wh'.local_ = wh.local_
  views : ∀ j, (AMap.get? u.trains j).map Train.waitView = (AMap.get? t.trains j).map Train.waitView

theorem Kept.refl (t : State) : Kept t t := ⟨rfl, fun _ wh h => ⟨wh, h, rfl⟩, fun _ => rfl⟩

theorem Kept.trans (h : Kept t u) (h' : Kept u v) : Kept t v := by
  refine ⟨h'.mem.trans h.mem, fun W wh hw => ?_, fun j => (h'.views j).trans (h.views j)⟩
  obtain ⟨wh1, h1, e1⟩ := h.local_ W wh hw
  obtain ⟨wh2, h2, e2⟩ := h'.local_ W wh1 h1
  exact ⟨wh2, h2, e2.trans e1⟩

/-- What the pump of a checker keeps: it makes jobs under new identities, and takes them off the rings and nodes they came from. -/
structure Pumped (t u : State) : Prop where
  mem : u.mem = t.mem
  wmem : u.wmem = t.wmem
  trains : u.trains = t.trains
  local_ : ∀ W wh, AMap.get? t.wheels W = some wh → ∃ wh', AMap.get? u.wheels W = some wh' ∧ wh'.local_ = wh.local_
  nextId : t.nextId ≤ u.nextId
  jobs : ∀ k, k < t.nextId → AMap.get? u.jobs k = AMap.get? t.jobs k

theorem Pumped.refl (t : State) : Pumped t t := ⟨rfl, rfl, rfl, fun _ wh h => ⟨wh, h, rfl⟩, Nat.le_refl _, fun _ _ => rfl⟩

theorem Pumped.kept (h : Pumped t u) : Kept t u := ⟨h.mem, h.local_, fun j => by rw [h.trains]⟩

theorem Pumped.trans (h : Pumped t u) (h' : Pumped u v) : Pumped t v :=
  ⟨h'.mem.trans h.mem, h'.wmem.trans h.wmem, h'.trains.trans h.trains, (h.kept.trans h'.kept).local_, h.nextId.trans h'.nextId,
    fun k hk => (h'.jobs k (Nat.lt_of_lt_of_le hk h.nextId)).trans (h.jobs k hk)⟩

theorem pumped_setRing (W k : Nat) (f : WRing → WRing) : ∃ u, Ends (setRing W k f : M s Unit) t () u ∧ Pumped t u := by
  unfold setRing
  cases h : AMap.get? t.wheels W with
  | none => exact ⟨t, Ends.now (by rw [h]; exact Ends.pure ()), Pumped.refl t⟩
  | some wh =>
    refine ⟨t.upd (.wheel W (some { wh with rings := wh.rings.set (k % 4) ((ringOf wh k).map f) (Nat.mod_lt _ (by decide)) })),
      Ends.now (by rw [h]; exact Ends.upd _), rfl, rfl, rfl, fun V wh' hv => ?_, Nat.le_refl _, fun _ _ => rfl⟩
    simp only [State.upd_wheels, putOpt, AMap.get?_set]
    split
    · rename_i hV
      rw [hV, h] at hv
      cases hv
      exact ⟨_, rfl, rfl⟩
    · exact ⟨wh', hv, rfl⟩

theorem Ends.freshId : Ends (Machine.freshId : M s Nat) t t.nextId (t.upd (.nextId (t.nextId + 1))) := fun h => ⟨h.step _, rfl⟩

/-- A job made under the next identity. -/
theorem pumped_newJob (t : State) (j : Job) : Pumped t ((t.upd (.nextId (t.nextId + 1))).upd (.job t.nextId (some j))) :=
  ⟨rfl, rfl, rfl, fun _ wh h => ⟨wh, h, rfl⟩, Nat.le_succ _, fun k hk => by
    simp [putOpt, AMap.get?_set_ne _ _ (Nat.ne_of_lt hk)]⟩

theorem pumped_pumpJobs (core n : Nat) (t : State) : ∃ u, Ends (pumpJobs core n : M s Unit) t () u ∧ Pumped t u := by
  induction n generalizing t with
  | zero => exact ⟨t, Ends.pure (), Pumped.refl t⟩
  | succ n ih =>
    unfold pumpJobs
    cases hto : (if checkerFull t core then none else oldestTodo (todos t core)) with
    | none => exact ⟨t, Ends.now (by rw [hto]; exact Ends.pure ()), Pumped.refl t⟩
    | some x =>
      cases x with
      | ring order W k q =>
        cases hw : AMap.get? t.wheels W with
        | none =>
          obtain ⟨u, hu, hp⟩ := ih t
          exact ⟨u, Ends.now (by rw [hto]; dsimp only; rw [hw]; exact hu), hp⟩
        | some wh =>
          obtain ⟨u1, h1, hp1⟩ := pumped_setRing (s := s) (t := t) W k fun r => { r with todo := r.todo.drop 1 }
          obtain ⟨u, hu, hp⟩ := ih ((u1.upd (.nextId (u1.nextId + 1))).upd (.job u1.nextId (some
            (transferJob t order W k q wh ((ringOf wh k).elim false (·.drain))))))
          refine ⟨u, Ends.now ?_, hp1.trans ((pumped_newJob u1 _).trans hp)⟩
          rw [hto]
          dsimp only
          rw [hw]
          exact Ends.bind h1 (Ends.bind Ends.freshId (Ends.bind (Ends.upd _) hu))
      | entry order node y =>
        let t1 := t.upd (.nextId (t.nextId + 1))
        cases hn : AMap.get? t.nodes node with
        | none =>
          obtain ⟨u, hu, hp⟩ := ih t1
          have hp1 : Pumped t t1 := ⟨rfl, rfl, rfl, fun _ wh h => ⟨wh, h, rfl⟩, Nat.le_succ _, fun _ _ => rfl⟩
          refine ⟨u, Ends.now ?_, hp1.trans hp⟩
          rw [hto]
          dsimp only
          rw [hn]
          exact Ends.bind Ends.freshId hu
        | some z =>
          let t2 := t1.upd (.job t.nextId (some (entryJob order node z y)))
          let t3 := t2.upd (.node node { z with jobs := z.jobs ++ [t.nextId], todo := z.todo.drop 1 })
          obtain ⟨u, hu, hp⟩ := ih t3
          have hp3 : Pumped t2 t3 := ⟨rfl, rfl, rfl, fun _ wh h => ⟨wh, h, rfl⟩, Nat.le_refl _, fun _ _ => rfl⟩
          refine ⟨u, Ends.now ?_, (pumped_newJob t _).trans (hp3.trans hp)⟩
          rw [hto]
          dsimp only
          rw [hn]
          exact Ends.bind Ends.freshId (Ends.bind (Ends.upd _) (Ends.bind (Ends.upd _) hu))

theorem pumped_pump (core : Nat) (t : State) : ∃ u, Ends (pump core : M s Unit) t () u ∧ Pumped t u := pumped_pumpJobs core 64 t

/-- The computation ends in every state and keeps what `Kept` names. -/
def Keeps (m : M s α) : Prop := ∀ t, ∃ a u, Ends m t a u ∧ Kept t u

theorem Keeps.pure (a : α) : Keeps (Pure.pure a : M s α) := fun t => ⟨a, t, Ends.pure a, Kept.refl t⟩

theorem Keeps.bind {m : M s α} {f : α → M s β} (hm : Keeps m) (hf : ∀ a, Keeps (f a)) : Keeps (m >>= f) := by
  intro t
  obtain ⟨a, u, hu, hk⟩ := hm t
  obtain ⟨b, v, hv, hk'⟩ := hf a u
  exact ⟨b, v, Ends.bind hu hv, hk.trans hk'⟩

theorem Keeps.now {f : State → M s β} (hf : ∀ t, Keeps (f t)) : Keeps (Machine.now >>= f) :=
  Keeps.bind (fun t => ⟨t, t, fun h => ⟨h, rfl⟩, Kept.refl t⟩) hf

theorem Keeps.upd {x : Upd} (hx : ∀ t, Kept t (t.upd x)) : Keeps (Machine.upd x : M s Unit) := fun t => ⟨(), _, Ends.upd x, hx t⟩

theorem Keeps.forM {f : α → M s Unit} (h : ∀ x, Keeps (f x)) (l : List α) : Keeps (l.forM f) := by
  induction l with
  | nil => exact Keeps.pure ()
  | cons x l ih => exact Keeps.bind (h x) fun _ => ih

theorem OpEnded.kept {id op : Nat} {x y : Train} (h : OpEnded t u id op x y) (hx : AMap.get? t.trains id = some x) : Kept t u := by
  refine ⟨by rw [h.frame], fun W wh hw => ⟨wh, by rw [h.frame]; exact hw, rfl⟩, fun j => ?_⟩
  by_cases hj : j = id
  · rw [hj, h.get, hx, Option.map_some, Option.map_some, h.view]
  · rw [h.only j hj]

/-- The end of an operation, of a train that may be gone. -/
theorem keeps_endOp (id op : Nat) (c : Option (Byte × Option Mask × Option DWord)) : Keeps (endOp id op c : M s Unit) := by
  intro t
  cases hx : AMap.get? t.trains id with
  | none =>
    have hm (f : Train → Train) : Ends (modTrain id f : M s Unit) t () t := Ends.now (by rw [hx]; exact Ends.pure ())
    cases c with
    | none => exact ⟨(), t, Ends.now (Ends.bind (hm _) (hm _)), Kept.refl t⟩
    | some c => exact ⟨(), t, Ends.now (Ends.bind (hm _) (hm _)), Kept.refl t⟩
  | some x =>
    cases c with
    | none =>
      obtain ⟨u, y, hu, ho⟩ := Ends.endOp (s := s) (op := op) hx
      exact ⟨(), u, hu, ho.kept hx⟩
    | some c =>
      obtain ⟨u, y, hu, ho, -⟩ := Ends.endOp_trap (s := s) (op := op) hx c.1 c.2.1 c.2.2
      exact ⟨(), u, hu, ho.kept hx⟩

theorem keeps_nodeJobEnd (node job core : Nat) (cause : Option Byte) : Keeps (nodeJobEnd node job core cause : M s Unit) := by
  refine Keeps.now fun t => Keeps.now fun _ => ?_
  split
  · exact Keeps.upd fun t => ⟨rfl, fun _ wh h => ⟨wh, h, rfl⟩, fun _ => rfl⟩
  · exact Keeps.pure ()

theorem keeps_pump (core : Nat) : Keeps (pump core : M s Unit) := fun t =>
  (pumped_pump core t).elim fun u h => ⟨(), u, h.1, h.2.kept⟩

/-- The end of a copy that no cause has stopped: its slices complete, and the checker has room for the next. -/
theorem keeps_endJob_copy {id w : Nat} {j : Job} {tb : Option Nat} {slices : List Slice} (hkind : j.kind = .copy tb slices)
    (hw : j.wheel = some w) : Keeps (endJob id j none : M s Unit) := by
  have hslice (m : Slice → Nat → M s Unit) (tb : Option Nat) (x : Slice) : Keeps (if x.refused then pure () else match tb with
      | some a => if (none : Option Byte).isSome && decide (x.pending ≠ 0) then m x a else endOp x.train x.op (endJob.jobTrap j none)
      | none => endOp x.train x.op (endJob.jobTrap j none)) := by
    split
    · exact Keeps.pure ()
    · cases tb with
      | none => exact keeps_endOp _ _ _
      | some a => exact keeps_endOp _ _ _
  unfold endJob
  refine Keeps.bind (Keeps.upd fun t => ⟨rfl, fun _ wh h => ⟨wh, h, rfl⟩, fun _ => rfl⟩) fun _ => ?_
  rw [hkind, hw]
  dsimp only
  split
  · refine Keeps.bind (keeps_nodeJobEnd _ _ _ _) fun _ => ?_
    exact Keeps.bind (Keeps.forM (hslice _ tb) slices) fun _ => keeps_pump _
  · exact Keeps.bind (Keeps.forM (hslice _ tb) slices) fun _ => keeps_pump _

end Sys2Proof.Machine
end

section
/-! SUPPORT. Bytes delivered to a local store (R140, R258). -/

namespace Sys2Proof.Machine

variable {s t u v : State} {α β : Type}

/-! ## Bytes delivered to a local store -/

/-- Bytes put one after the other into a memory. -/
def Bytes.puts (m : Bytes) (l : List (Nat × Byte)) : Bytes := l.foldl (fun m b => Bytes.put m b.1 b.2) m

theorem Bytes.get_puts_of_not_mem {m : Bytes} {l : List (Nat × Byte)} {a : Nat} (h : a ∉ l.map (·.1)) :
    Bytes.get (Bytes.puts m l) a = Bytes.get m a := by
  induction l generalizing m with
  | nil => rfl
  | cons b l ih =>
    rw [List.map_cons, List.mem_cons, not_or] at h
    show Bytes.get (Bytes.puts (Bytes.put m b.1 b.2) l) a = _
    rw [ih h.2, Bytes.get_put, if_neg h.1]

theorem Bytes.get_puts_of_mem {m : Bytes} {l : List (Nat × Byte)} {a : Nat} {x : Byte} (hn : (l.map (·.1)).Nodup) (h : (a, x) ∈ l) :
    Bytes.get (Bytes.puts m l) a = x := by
  induction l generalizing m with
  | nil => exact nomatch h
  | cons b l ih =>
    rw [List.map_cons, List.nodup_cons] at hn
    show Bytes.get (Bytes.puts (Bytes.put m b.1 b.2) l) a = _
    rcases List.mem_cons.1 h with rfl | h
    · rw [Bytes.get_puts_of_not_mem hn.1, Bytes.get_put, if_pos rfl]
    · exact ih hn.2 h

/-- No train of the wheel waits on a word of which the byte is a part. -/
def FreeByte (t : State) (w a : Nat) : Prop := ∀ v ∈ waitedWords t w, ¬(v.1 ≤ a ∧ a < v.1 + v.2)

theorem waited_any_iff {w a : Nat} :
    (!(waitedWords t w).any fun v => decide (v.1 ≤ a) && decide (a < v.1 + v.2)) = true ↔ FreeByte t w a := by
  unfold FreeByte
  simp

/-- The local store after a sector's bytes but those of waited-on words (R140, R258). -/
def deliveredTo (t : State) (w : Nat) (m : Bytes) (l : List (Nat × Byte)) : Bytes :=
  Bytes.puts m (l.filter fun b => !(waitedWords t w).any fun v => decide (v.1 ≤ b.1) && decide (b.1 < v.1 + v.2))

theorem get_deliveredTo_free {w : Nat} {m : Bytes} {l : List (Nat × Byte)} {a : Nat} {x : Byte} (hn : (l.map (·.1)).Nodup)
    (h : (a, x) ∈ l) (hf : FreeByte t w a) : Bytes.get (deliveredTo t w m l) a = x :=
  Bytes.get_puts_of_mem (hn.sublist (List.filter_sublist.map _)) (List.mem_filter.2 ⟨h, waited_any_iff.2 hf⟩)

theorem get_deliveredTo_other {w : Nat} {m : Bytes} {l : List (Nat × Byte)} {a : Nat} (h : a ∉ l.map (·.1) ∨ ¬FreeByte t w a) :
    Bytes.get (deliveredTo t w m l) a = Bytes.get m a := by
  refine Bytes.get_puts_of_not_mem fun hm => ?_
  obtain ⟨b, hb, rfl⟩ := List.mem_map.1 hm
  obtain ⟨hb, hf⟩ := List.mem_filter.1 hb
  exact h.elim (fun h => h (List.mem_map_of_mem hb)) fun h => h (waited_any_iff.1 hf)

/-- A barrier none of whose bytes is among those delivered. -/
theorem tbarAt_deliveredTo {w a : Nat} {m : Bytes} {l : List (Nat × Byte)} (h : ∀ b ∈ l.map (·.1), b < a ∨ a + 16 ≤ b) :
    tbarAt (deliveredTo t w m l) a = tbarAt m a := by
  unfold tbarAt
  rw [Bytes.read_congr fun j h1 h2 => get_deliveredTo_other (.inl fun hj => ?_)]
  have := h j hj
  omega

theorem Ends.srcByte {j : Job} {w : Nat} {wh : Wheel} {src : ByteSrc} {b : Byte} (hw : j.wheel = some w)
    (hwh : AMap.get? t.wheels w = some wh) (h : plainByte wh.local_ src = some b) : Ends (Machine.srcByte j src : M s Byte) t b t := by
  cases src with
  | zero =>
    cases h
    exact Ends.pure _
  | imm x =>
    cases h
    exact Ends.pure _
  | mem sp a =>
    cases sp with
    | glob => exact nomatch h
    | loc =>
      cases h
      have hr : Ends (jobRead j .loc a 1 : M s Nat) t (Bytes.read wh.local_ a 1) t := by
        refine Ends.now ?_
        rw [hw]
        dsimp only
        unfold localOf
        rw [hwh]
        exact Ends.pure _
      have hb : BitVec.ofNat 8 (Bytes.read wh.local_ a 1) = Bytes.get wh.local_ a := by
        simp [Bytes.read]
      rw [← hb]
      exact Ends.bind hr (Ends.pure _)

theorem Ends.mapM {f : α → M s β} {g : α → β} {l : List α} (h : ∀ x ∈ l, Ends (f x) t (g x) t) : Ends (l.mapM f) t (l.map g) t := by
  induction l with
  | nil => exact Ends.pure []
  | cons x l ih =>
    rw [List.mapM_cons]
    exact Ends.bind (h x List.mem_cons_self) (Ends.bind (ih fun y hy => h y (List.mem_cons_of_mem _ hy)) (Ends.pure _))

/-- The bytes of a local sector reach the store of the wheel; the answer is the lowest waited-on word they touch. -/
theorem Ends.deliverBytes {j : Job} {sec : Sector} {w : Nat} {wh : Wheel} {f : Nat × ByteSrc → Byte} (hw : j.wheel = some w)
    (hwh : AMap.get? t.wheels w = some wh) (hsp : sec.space = .loc) (hf : ∀ b ∈ sec.bytes, plainByte wh.local_ b.2 = some (f b)) :
    Ends (Machine.deliverBytes j sec : M s (Option Nat)) t (clobbered (waitedWords t w) (sec.bytes.map (·.1)))
      (t.upd (.wheel w (some { wh with local_ := deliveredTo t w wh.local_ (sec.bytes.map fun b => (b.1, f b)) }))) := by
  refine Ends.bind (Ends.mapM (g := fun b => (b.1, f b)) fun b hb => Ends.bind (Ends.srcByte hw hwh (hf b hb)) (Ends.pure _)) ?_
  rw [hsp, hw]
  have hm : (sec.bytes.map fun b => (b.1, f b)).map (·.1) = sec.bytes.map (·.1) := by
    rw [List.map_map]
    rfl
  rw [← hm]
  exact Ends.now (Ends.bind (Ends.putLocal hwh _) (Ends.pure _))

end Sys2Proof.Machine
end

section
/-! SUPPORT. SECTOR_DELIVER of a local sector (R254). -/

namespace Sys2Proof.Machine

variable {s t u v : State} {α β : Type}

/-! ## SECTOR_DELIVER -/

/-- A started job of a running context has a local sector to deliver, of the bytes `f`. -/
structure Delivers (s : State) (k i w : Nat) (j : Job) (sec : Sector) (wh : Wheel) (f : Nat × ByteSrc → Byte) : Prop where
  job : AMap.get? s.jobs k = some j
  started : j.started = true
  free_ : j.held = false
  runs : (s.ctx j.ctx).stopped = false
  sector : j.sectors[i]? = some sec
  space : sec.space = .loc
  owner : j.wheel = some w
  wheel : AMap.get? s.wheels w = some wh
  values : ∀ b ∈ sec.bytes, plainByte wh.local_ b.2 = some (f b)

/-- The job after its sector `i`; `dropped` is the lowest waited-on word among its bytes (R140, R254). -/
def Job.after (j : Job) (i : Nat) (dropped : Option Nat) : Job :=
  { j with
    sectors := j.sectors.eraseIdx i
    clobber := match dropped with
      | some a => j.clobber ++ [a]
      | none => j.clobber }

theorem Job.after_clobber (j : Job) (i : Nat) (dropped : Option Nat) : (j.after i dropped).clobber = j.clobber ↔ dropped = none := by
  cases dropped <;> simp [Job.after]

/-- The wheel with the sector's bytes in its local store, but for those of waited-on words. -/
def Wheel.stored (wh : Wheel) (s : State) (w : Nat) (sec : Sector) (f : Nat × ByteSrc → Byte) : Wheel :=
  { wh with local_ := deliveredTo s w wh.local_ (sec.bytes.map fun b => (b.1, f b)) }

/-- The job after its sector. -/
def jobAfter (s : State) (i w : Nat) (j : Job) (sec : Sector) : Job := j.after i (clobbered (waitedWords s w) (sec.bytes.map (·.1)))

/-- The state with the bytes of the sector in the local store and the sector off its job. -/
def afterSector (s : State) (k i w : Nat) (j : Job) (sec : Sector) (wh : Wheel) (f : Nat × ByteSrc → Byte) : State :=
  (s.upd (.wheel w (some (wh.stored s w sec f)))).upd (.job k (some (jobAfter s i w j sec)))

/-- The job, of the slices of a copy to a barrier, with a pair of one slice counted (R257). -/
def Job.counted (j : Job) (a : Nat) (slices : List Slice) (slice : Nat) : Job :=
  { j with kind := .copy (some a) (slices.zipIdx.map fun (x, i) => if i = slice then { x with pending := x.pending - 1 } else x) }

/-- The barrier with one pair delivered (R257). -/
def TBar.paid (q : TBar) : TBar := { q with pend := q.pend - 1 }

theorem TBar.Fits.flipped {q : TBar} (h : q.Fits) : q.flipped.Fits :=
  ⟨h.rsvd, Nat.two_pow_pos 32, h.reset, h.reset, Nat.mod_lt _ (by decide)⟩

theorem TBar.Fits.paid {q : TBar} (h : q.Fits) : q.paid.Fits := ⟨h.rsvd, Nat.lt_of_le_of_lt (Nat.sub_le _ _) h.pend, h.reset, h.arr, h.phase⟩

theorem TBar.expect_neg_one {q : TBar} (h : q.Fits) (hp : 0 < q.pend) :
    ({ q with pend := (((q.pend : Int) + (-1)) % (2 ^ 32 : Nat)).toNat } : TBar) = q.paid := by
  have := h.pend
  unfold TBar.paid
  congr 1
  omega

theorem eraseIdx_isEmpty {l : List α} {i : Nat} {x : α} (hi : l[i]? = some x) (hl : l.length ≠ 1) : (l.eraseIdx i).isEmpty = false := by
  have h := (List.getElem?_eq_some_iff.1 hi).1
  rw [List.isEmpty_eq_false_iff, ← List.length_pos_iff, List.length_eraseIdx_of_lt h]
  omega

/-- The job keeps its dropped words exactly where no byte is of a waited-on word. -/
theorem jobAfter_clobber_iff {i w : Nat} {j : Job} {sec : Sector} :
    (jobAfter s i w j sec).clobber = j.clobber ↔ ∀ b ∈ sec.bytes, FreeByte s w b.1 := by
  unfold jobAfter
  rw [Job.after_clobber, clobbered_eq_none_iff]
  unfold FreeByte
  simp only [List.mem_map, forall_exists_index, and_imp, forall_apply_eq_imp_iff₂]
  exact ⟨fun h b hb v hv => h v hv b hb, fun h v hv b hb => h b hb v hv⟩

section
variable {k i w : Nat} {j : Job} {sec : Sector} {wh : Wheel} {f : Nat × ByteSrc → Byte} (h : Delivers s k i w j sec wh f)
include h

/-- The event delivers the bytes, counts the pair, and ends the job with its last sector. -/
theorem Delivers.ends {j2 : Job} (hc : Ends (countDelivered k (jobAfter s i w j sec) sec.slice : M s Unit) (afterSector s k i w j sec wh f) () t)
    (hj : AMap.get? t.jobs k = some j2) (he : Ends (if j2.sectors.isEmpty then endJob k j2 none else pure () : M s Unit) t () u) :
    Machine.exec (.sectorDeliver k i) s = .next u := by
  refine Ends.runE (Ends.now ?_)
  rw [h.job]
  dsimp only
  rw [h.sector]
  dsimp only
  have hgo : (!j.started || j.held || frozen s j.ctx) = false := by
    rw [h.started, h.free_]
    exact h.runs
  rw [hgo, if_neg (by decide)]
  refine Ends.jobStep (Ends.bind (Ends.deliverBytes h.owner h.wheel h.space h.values) (Ends.bind (Ends.upd _) (Ends.bind hc (Ends.now ?_))))
  rw [hj]
  exact he

/-- A job of another kind counts nothing, and keeps its other sectors. -/
theorem Delivers.ends_other (hl : j.sectors.length ≠ 1) (hk : ∀ a slices, j.kind ≠ .copy (some a) slices) :
    Machine.exec (.sectorDeliver k i) s = .next (afterSector s k i w j sec wh f) := by
  have hc : Ends (countDelivered k (jobAfter s i w j sec) sec.slice : M s Unit) (afterSector s k i w j sec wh f) ()
      (afterSector s k i w j sec wh f) := by
    unfold countDelivered
    split
    · rename_i hkind
      exact absurd hkind (hk _ _)
    · exact Ends.pure ()
  refine h.ends hc (j2 := jobAfter s i w j sec) (by simp [afterSector, putOpt]) ?_
  rw [show (jobAfter s i w j sec).sectors.isEmpty = false from eraseIdx_isEmpty h.sector hl]
  exact Ends.pure ()

end

end Sys2Proof.Machine
end

section
/-! SUPPORT. SECTOR_DELIVER of a copy to a barrier (R257). -/

namespace Sys2Proof.Machine

variable {s t u v : State} {α β : Type}

theorem Released.mem {W a ph : Nat} {g : Train → Train} (h : Released t u W a ph g) : u.mem = t.mem := by rw [h.frame]

theorem Released.wheels {W a ph : Nat} {g : Train → Train} (h : Released t u W a ph g) : u.wheels = t.wheels := by rw [h.frame]

theorem Released.jobs {W a ph : Nat} {g : Train → Train} (h : Released t u W a ph g) : u.jobs = t.jobs := by rw [h.frame]

theorem tbarAt_withTbar (wh : Wheel) (a : Nat) {q : TBar} (h : q.Fits) : tbarAt (withTbar wh a q).local_ a = q := by
  unfold withTbar
  exact tbarAt_write _ _ h

/-! ## A delivered pair on its barrier -/

section
variable {W a : Nat} {wh : Wheel} {q : TBar} (h : AMap.get? t.wheels W = some wh) (hq : tbarAt wh.local_ a = q) (hp : 0 < q.pend)
include h hq hp

omit h in
theorem tbExpect_neg_one :
    ({ tbarAt wh.local_ a with pend := ((((tbarAt wh.local_ a).pend : Int) + (-1)) % (2 ^ 32 : Nat)).toNat } : TBar) = q.paid := by
  rw [hq]
  exact TBar.expect_neg_one (hq ▸ tbarAt_fits _ _) hp

theorem Ends.tbPay_stays (hs : q.paid.arr ≠ 0 ∨ q.paid.pend ≠ 0) :
    Ends (tbExpect W a (-1) : M s Unit) t () (t.upd (.wheel W (some (withTbar wh a q.paid)))) := by
  have e := tbExpect_neg_one hq hp
  rw [← e] at hs ⊢
  exact Ends.tbUpdate_stays h hs

theorem Ends.tbPay_flips (hk : KeysRise t.trains) (ha : q.paid.arr = 0) (hz : q.paid.pend = 0) :
    ∃ u, Ends (tbExpect W a (-1) : M s Unit) t () u ∧
      Released (t.upd (.wheel W (some (withTbar wh a q.paid.flipped)))) u W a q.paid.flipped.phase (afterRelease W) := by
  have e := tbExpect_neg_one hq hp
  rw [← e] at ha hz ⊢
  exact Ends.tbUpdate_flips hk h ha hz

end

theorem Ends.countDelivered {id w a slice : Nat} {j : Job} {slices : List Slice} (hkind : j.kind = .copy (some a) slices)
    (hw : j.wheel = some w) (hu : Ends (tbExpect w a (-1) : M s Unit) (t.upd (.job id (some (j.counted a slices slice)))) () u) :
    Ends (Machine.countDelivered id j slice : M s Unit) t () u := by
  cases j
  subst hkind hw
  exact Ends.bind (Ends.upd _) hu

/-! ## SECTOR_DELIVER of a copy to a barrier -/

/-- The state in which the pair is taken off the barrier. -/
def beforePay (s : State) (k i w : Nat) (j : Job) (sec : Sector) (wh : Wheel) (f : Nat × ByteSrc → Byte) (a : Nat) (slices : List Slice) :
    State :=
  (afterSector s k i w j sec wh f).upd (.job k (some ((jobAfter s i w j sec).counted a slices sec.slice)))

section
variable {k i w a : Nat} {j : Job} {sec : Sector} {wh : Wheel} {f : Nat × ByteSrc → Byte} {slices : List Slice}

theorem jobAfter_counted_sectors :
    ((jobAfter s i w j sec).counted a slices sec.slice).sectors = j.sectors.eraseIdx i := rfl

theorem beforePay_wheel : AMap.get? (beforePay s k i w j sec wh f a slices).wheels w = some (wh.stored s w sec f) := by
  simp [beforePay, afterSector, putOpt]

theorem beforePay_job :
    AMap.get? (beforePay s k i w j sec wh f a slices).jobs k = some ((jobAfter s i w j sec).counted a slices sec.slice) := by
  simp [beforePay, putOpt]

/-- The sector leaves the barrier's bytes as they were. -/
theorem tbarAt_stored (hb : ∀ b ∈ sec.bytes, b.1 < a ∨ a + 16 ≤ b.1) : tbarAt (wh.stored s w sec f).local_ a = tbarAt wh.local_ a :=
  tbarAt_deliveredTo fun b hm => by
    rw [List.map_map] at hm
    obtain ⟨b, hbs, rfl⟩ := List.mem_map.1 hm
    exact hb b hbs

variable (h : Delivers s k i w j sec wh f) (hkind : j.kind = .copy (some a) slices)
include h hkind

theorem Delivers.counts (hu : Ends (tbExpect w a (-1) : M s Unit) (beforePay s k i w j sec wh f a slices) () u) :
    Ends (countDelivered k (jobAfter s i w j sec) sec.slice : M s Unit) (afterSector s k i w j sec wh f) () u :=
  Ends.countDelivered hkind h.owner hu

variable (hb : ∀ b ∈ sec.bytes, b.1 < a ∨ a + 16 ≤ b.1) (hp : 0 < (tbarAt wh.local_ a).pend)
include hb hp

theorem Delivers.stays (hl : j.sectors.length ≠ 1) (hs : (tbarAt wh.local_ a).paid.arr ≠ 0 ∨ (tbarAt wh.local_ a).paid.pend ≠ 0) :
    ∃ t wh', exec (.sectorDeliver k i) s = .next t ∧ t.mem = s.mem ∧ t.trains = s.trains ∧
      AMap.get? t.wheels w = some wh' ∧ tbarAt wh'.local_ a = (tbarAt wh.local_ a).paid := by
  have hw := beforePay_wheel (s := s) (k := k) (i := i) (w := w) (j := j) (sec := sec) (wh := wh) (f := f) (slices := slices) (a := a)
  have hq := tbarAt_stored (s := s) (w := w) (wh := wh) (f := f) hb
  have hf := (tbarAt_fits wh.local_ a).paid
  generalize wh.stored s w sec f = wh1 at hw hq
  generalize tbarAt wh.local_ a = q at hq hs hp hf
  have hpay := Ends.tbPay_stays (s := s) hw hq hp hs
  have hj : AMap.get? ((beforePay s k i w j sec wh f a slices).upd (.wheel w (some (withTbar wh1 a q.paid)))).jobs k =
      some ((jobAfter s i w j sec).counted a slices sec.slice) := by
    rw [State.upd_jobs]
    exact beforePay_job
  have hex := h.ends (h.counts hkind hpay) hj (by
    rw [jobAfter_counted_sectors, eraseIdx_isEmpty h.sector hl]
    exact Ends.pure ())
  refine ⟨_, _, hex, ?_, ?_, get?_upd_wheel _ _, ?_⟩
  · rw [State.upd_mem]
    rfl
  · rw [State.upd_trains]
    rfl
  · exact tbarAt_withTbar wh1 a hf

/-- What the last expected pair leaves: the flipped barrier, and the waits for another phase ended. -/
theorem Delivers.flips (hk : KeysRise s.trains) (ha : (tbarAt wh.local_ a).paid.arr = 0) (hz : (tbarAt wh.local_ a).paid.pend = 0) :
    ∃ t u wh', exec (.sectorDeliver k i) s = .next t ∧ t.mem = s.mem ∧ AMap.get? t.wheels w = some wh' ∧
      tbarAt wh'.local_ a = (tbarAt wh.local_ a).paid.flipped ∧ Kept u t ∧
      Released ((beforePay s k i w j sec wh f a slices).upd (.wheel w (some (withTbar (wh.stored s w sec f) a (tbarAt wh.local_ a).paid.flipped)))) u w a
        (tbarAt wh.local_ a).paid.flipped.phase (afterRelease w) := by
  obtain ⟨u, hu, hr⟩ := Ends.tbPay_flips (s := s)
    (beforePay_wheel (s := s) (k := k) (i := i) (w := w) (j := j) (sec := sec) (wh := wh) (f := f) (slices := slices) (a := a)) (tbarAt_stored hb) hp hk ha hz
  have hj : AMap.get? u.jobs k = some ((jobAfter s i w j sec).counted a slices sec.slice) := by
    rw [hr.jobs, State.upd_jobs]
    exact beforePay_job
  obtain ⟨t, ht, hkt⟩ : ∃ t, exec (.sectorDeliver k i) s = .next t ∧ Kept u t := by
    by_cases he : ((jobAfter s i w j sec).counted a slices sec.slice).sectors.isEmpty = true
    · obtain ⟨_, t, ht, hkt⟩ := keeps_endJob_copy (s := s) (id := k) (j := (jobAfter s i w j sec).counted a slices sec.slice) rfl h.owner u
      exact ⟨t, h.ends (h.counts hkind hu) hj (by rw [if_pos he]; exact ht), hkt⟩
    · exact ⟨u, h.ends (h.counts hkind hu) hj (by rw [if_neg he]; exact Ends.pure ()), Kept.refl u⟩
  have hwu : AMap.get? u.wheels w = some (withTbar (wh.stored s w sec f) a (tbarAt wh.local_ a).paid.flipped) := by
    rw [hr.wheels]
    exact get?_upd_wheel _ _
  obtain ⟨wh', hwh', hl⟩ := hkt.local_ w _ hwu
  refine ⟨t, u, wh', ht, ?_, hwh', ?_, hkt, hr⟩
  · rw [hkt.mem, hr.mem]
    rfl
  · rw [hl]
    exact tbarAt_withTbar _ _ (tbarAt_fits _ _).paid.flipped

end

/-- A train that waited for another phase than a barrier has come to has its wait ended. -/
theorem Released.wait {W a ph id p : Nat} {z : Train} {w : Wait} (h : Released t u W a ph (afterRelease W))
    (hz : AMap.get? t.trains id = some z) (hok : z.Ok) (hW : z.wheel = W) (hw : z.wait = some w) (hon : w.on = .tb a p) (hp : p ≠ ph) :
    ∃ z', AMap.get? u.trains id = some z' ∧ z'.wait = some { w with woken := true } := by
  have hid := (h.woken (id + 1)).1 id z (Nat.ne_of_lt (Nat.lt_succ_self id)) hz hok
  cases hwo : w.woken with
  | false => exact ⟨_, hid.1 w hw hwo ⟨hW, p, hon, hp⟩, rfl⟩
  | true =>
    refine ⟨_, hid.2 fun v hv hv' _ => ?_, ?_⟩
    · rw [hw] at hv
      cases hv
      exact absurd (hwo.symm.trans hv') (by decide)
    · have he : (afterRelease W z).wait = z.wait := by
        unfold afterRelease
        split <;> rfl
      rw [he, hw, ← hwo]

theorem Kept.wait {id : Nat} {z : Train} {w : Wait} (h : Kept t u) (hz : AMap.get? t.trains id = some z) (hw : z.wait = some w) :
    ∃ z', AMap.get? u.trains id = some z' ∧ z'.wait = some w := by
  have e := h.views id
  rw [hz] at e
  obtain ⟨z', hz', he⟩ := Option.map_eq_some_iff.1 e
  exact ⟨z', hz', (congrArg Prod.snd he).trans hw⟩

end Sys2Proof.Machine
end

section
/-! SUPPORT. What SECTOR_DELIVER leaves, with each kind of job. -/

namespace Sys2Proof.Machine

variable {s t u v : State} {α β : Type}

section
variable {k i w : Nat} {j : Job} {sec : Sector} {wh : Wheel} {f : Nat × ByteSrc → Byte} (h : Delivers s k i w j sec wh f)
include h

/-- The last expected pair ends the waits of its wheel's trains for another phase (R257). -/
theorem Delivers.flips_wakes {a : Nat} {slices : List Slice} (hkind : j.kind = .copy (some a) slices)
    (hb : ∀ b ∈ sec.bytes, b.1 < a ∨ a + 16 ≤ b.1) (hp : (tbarAt wh.local_ a).pend = 1) (ha : (tbarAt wh.local_ a).arr = 0)
    (hk : KeysRise s.trains) :
    ∃ t wh', exec (.sectorDeliver k i) s = .next t ∧ t.mem = s.mem ∧ AMap.get? t.wheels w = some wh' ∧
      tbarAt wh'.local_ a = (tbarAt wh.local_ a).paid.flipped ∧
      ∀ id z v p, AMap.get? s.trains id = some z → z.Ok → z.wheel = w → z.wait = some v → v.on = .tb a p →
        p ≠ (tbarAt wh.local_ a).paid.flipped.phase →
        ∃ z', AMap.get? t.trains id = some z' ∧ z'.wait = some { v with woken := true } := by
  obtain ⟨t, u, wh', ht, hm, hwh, hq, hkept, hrel⟩ := h.flips hkind hb (by rw [hp]; decide) hk ha (by
    unfold TBar.paid
    dsimp only
    rw [hp])
  refine ⟨t, wh', ht, hm, hwh, hq, fun id z v p hz hok hzw hv hon hne => ?_⟩
  obtain ⟨z', hz', hw'⟩ := hrel.wait (by rw [State.upd_trains]; exact hz) hok hzw hv hon hne
  exact hkept.wait hz' hw'

/-- A job of another kind keeps its other sectors, and the store holds the bytes of this one. -/
theorem Delivers.other (hn : (sec.bytes.map (·.1)).Nodup) (hl : j.sectors.length ≠ 1) (hk : ∀ a slices, j.kind ≠ .copy (some a) slices) :
    ∃ t wh' j', exec (.sectorDeliver k i) s = .next t ∧ t = { s with wheels := t.wheels, jobs := t.jobs } ∧
      AMap.get? t.wheels w = some wh' ∧ wh' = { wh with local_ := wh'.local_ } ∧
      (∀ b ∈ sec.bytes, FreeByte s w b.1 → Bytes.get wh'.local_ b.1 = f b) ∧
      (∀ a, (a ∉ sec.bytes.map (·.1) ∨ ¬FreeByte s w a) → Bytes.get wh'.local_ a = Bytes.get wh.local_ a) ∧
      AMap.get? t.jobs k = some j' ∧ j' = { j with sectors := j.sectors.eraseIdx i, clobber := j'.clobber } ∧
      (j'.clobber = j.clobber ↔ ∀ b ∈ sec.bytes, FreeByte s w b.1) := by
  have hm : (sec.bytes.map fun b => (b.1, f b)).map (·.1) = sec.bytes.map (·.1) := by
    rw [List.map_map]
    rfl
  refine ⟨afterSector s k i w j sec wh f, wh.stored s w sec f, jobAfter s i w j sec, h.ends_other hl hk, rfl, ?_, rfl, fun b hb hf => ?_,
    fun a ha => ?_, ?_, rfl, jobAfter_clobber_iff⟩
  · simp [afterSector, putOpt]
  · exact get_deliveredTo_free (by rw [hm]; exact hn) (List.mem_map_of_mem hb) hf
  · exact get_deliveredTo_other (by rw [hm]; exact ha)
  · simp [afterSector, putOpt]

end

end Sys2Proof.Machine
end

section
/-! SUPPORT. Reads of an engine through a cached translation, and the copy to the weight store (R254, R370). -/

namespace Sys2Proof.Machine

variable {s t u v : State} {α β : Type}

/-! ## Reads of an engine through a cached translation -/

/-- Ownership of sectors, the cores that held them and the weight store apart, nothing differs. -/
def Weighs (t u : State) : Prop := u = { t with cores := u.cores, owners := u.owners, wmem := u.wmem }

theorem weighs_refl (t : State) : Weighs t t := rfl

theorem Weighs.trans (h : Weighs t u) (h' : Weighs u v) : Weighs t v := by
  unfold Weighs at *
  rw [h', h]

theorem Weighs.xlAt {core ctx va pa : Nat} {priv : Bool} {kind : BitVec 3} (h : Weighs t u) (hx : XlAt t core ctx priv kind va pa) :
    XlAt u core ctx priv kind va pa := by
  unfold Weighs at h
  rw [h]
  exact ⟨hx.low, hx.xlate, hx.plain⟩

theorem Ends.engineX {core ctx va pa : Nat} {priv : Bool} {kind : BitVec 3} (h : XlAt t core ctx priv kind va pa) :
    Ends (Machine.engineX core ctx priv false va kind : M s Nat) t pa t := by
  obtain ⟨e, hfind, hright, hd, hcause, hpa⟩ := h.xlate
  have hwalk : Ends (walkNow core ctx va kind : M s Tlb) t e t := by
    refine Ends.now ?_
    dsimp only
    rw [hfind]
    dsimp only
    rw [hright, if_neg (by decide), if_neg (by simpa using hd)]
    exact Ends.pure e
  unfold Machine.engineX
  rw [if_neg (Nat.not_le.2 h.low)]
  refine Ends.bind hwalk (Ends.now ?_)
  rw [hcause, hpa]
  exact Ends.pure pa

theorem Ends.disown (sector : Nat) : ∃ u, Ends (Machine.disown sector : M s Unit) t () u ∧ u = { t with cores := u.cores, owners := u.owners } := by
  cases ho : AMap.get? t.owners sector with
  | none => exact ⟨t, Ends.now (by rw [ho]; exact Ends.pure ()), rfl⟩
  | some o => exact ⟨_, Ends.now (by rw [ho]; exact Ends.bind (Ends.upd _) (Ends.upd _)), rfl⟩

theorem Ends.homeRead_none (pa n : Nat) :
    ∃ u, Ends (homeRead none pa n : M s Nat) t (Bytes.read t.mem pa n) u ∧ u = { t with cores := u.cores, owners := u.owners } := by
  obtain ⟨u, hu, he⟩ : ∃ u, Ends (recallOwner none pa : M s Unit) t () u ∧ u = { t with cores := u.cores, owners := u.owners } := by
    cases ho : t.ownerOf pa with
    | none => exact ⟨t, Ends.now (by rw [ho]; exact Ends.pure ()), rfl⟩
    | some k =>
      obtain ⟨u, hu, he⟩ := Ends.disown (s := s) (t := t) (pa / 128)
      exact ⟨u, Ends.now (by rw [ho]; exact hu), he⟩
  have hm : u.mem = t.mem := by rw [he]
  exact ⟨u, Ends.bind hu (Ends.now (by rw [hm]; exact Ends.pure _)), he⟩

theorem Ends.engineRead {core ctx va pa : Nat} {priv : Bool} (h : XlAt t core ctx priv kRead va pa) (n : Nat) :
    ∃ u, Ends (Machine.engineRead core ctx priv false va n : M s Nat) t (Bytes.read t.mem pa n) u ∧
      u = { t with cores := u.cores, owners := u.owners } := by
  obtain ⟨u, hu, he⟩ := Ends.homeRead_none (s := s) (t := t) pa n
  refine ⟨u, Ends.bind (Ends.engineX h) (Ends.now ?_), he⟩
  rw [if_neg (by simpa using h.plain)]
  exact hu

/-- A byte of a little-endian number read from a memory. -/
theorem Bytes.byte_read (m : Bytes) (a : Nat) {n i : Nat} (hi : i < n) : BitVec.ofNat 8 (Bytes.read m a n / 256 ^ i) = Bytes.get m (a + i) := by
  induction n generalizing a i with
  | zero => omega
  | succ n ih =>
    have hlt := (Bytes.get m a).isLt
    unfold Bytes.read
    cases i with
    | zero =>
      apply BitVec.eq_of_toNat_eq
      simpa using hlt
    | succ i =>
      rw [Nat.pow_succ', ← Nat.div_div_eq_div_mul, Nat.add_mul_div_left _ _ (by decide), Nat.div_eq_of_lt hlt, Nat.zero_add,
        ih (a + 1) (by omega), Nat.add_right_comm, Nat.add_assoc]

/-! ## The weight store written -/

theorem upds_wbytes (l : List (Nat × Byte)) (t : State) :
    t.upds (l.map fun b => .wbyte b.1 b.2) = { t with wmem := Bytes.puts t.wmem l } := by
  induction l generalizing t with
  | nil => rfl
  | cons b l ih => exact ih _

/-- A word of 8 bytes put into a memory, byte after byte. -/
theorem get_puts_word (m m' : Bytes) (w a b : Nat) :
    Bytes.get (Bytes.puts m ((List.range 8).map fun i => (w + i, BitVec.ofNat 8 (Bytes.read m' a 8 / 256 ^ i)))) b =
      if w ≤ b ∧ b < w + 8 then Bytes.get m' (a + (b - w)) else Bytes.get m b := by
  have hkeys : ((List.range 8).map fun i => (w + i, BitVec.ofNat 8 (Bytes.read m' a 8 / 256 ^ i))).map (·.1) = List.range' w 8 := by
    rw [List.map_map]
    exact List.range'_eq_map_range.symm
  split
  · rename_i hb
    refine Bytes.get_puts_of_mem (by rw [hkeys]; exact List.nodup_range') (List.mem_map.2 ⟨b - w, List.mem_range.2 (by omega), ?_⟩)
    rw [Bytes.byte_read _ _ (by omega), Nat.add_sub_cancel' hb.1]
  · rename_i hb
    exact Bytes.get_puts_of_not_mem (by rw [hkeys, List.mem_range'_1]; exact hb)

/-- The copy of `n` words from memory to the weight store. -/
theorem Ends.weightWords {j : Job} (n : Nat) {w a P : Nat} (hx : ∀ i, i < 8 * n → XlAt t j.core j.ctx j.priv kRead (a + i) (P + i)) :
    ∃ u, Ends (Machine.weightWords j w a n : M s Unit) t () u ∧ Weighs t u ∧
      ∀ b, Bytes.get u.wmem b = if w ≤ b ∧ b < w + 8 * n then Bytes.get t.mem (P + (b - w)) else Bytes.get t.wmem b := by
  induction n generalizing t w a P with
  | zero => exact ⟨t, Ends.pure (), weighs_refl t, fun b => by rw [if_neg (by omega)]⟩
  | succ n ih =>
    obtain ⟨t1, h1, he⟩ := Ends.engineRead (s := s) (hx 0 (by omega)) 8
    let l := (List.range 8).map fun i => (w + i, BitVec.ofNat 8 (Bytes.read t.mem P 8 / 256 ^ i))
    have h2 : Ends (Machine.updAll (l.map fun b => .wbyte b.1 b.2) : M s Unit) t1 () { t1 with wmem := Bytes.puts t1.wmem l } := by
      rw [← upds_wbytes]
      exact Ends.updAll _
    have hw : Weighs t { t1 with wmem := Bytes.puts t1.wmem l } := by
      unfold Weighs
      rw [he]
    obtain ⟨u, h3, hu, hb⟩ := ih (t := { t1 with wmem := Bytes.puts t1.wmem l }) (w := w + 8) (a := a + 8) (P := P + 8) fun i hi => by
      rw [Nat.add_assoc, Nat.add_assoc]
      exact hw.xlAt (hx _ (by omega))
    refine ⟨u, Ends.bind h1 (Ends.bind h2 h3), hw.trans hu, fun b => ?_⟩
    have hm : t1.mem = t.mem := by rw [he]
    have hwm : t1.wmem = t.wmem := by rw [he]
    rw [hb, hm, hwm, get_puts_word]
    by_cases h8 : w + 8 ≤ b
    · by_cases hlt : b < w + 8 * (n + 1)
      · rw [if_pos (by omega), if_pos (by omega)]
        congr 1
        omega
      · rw [if_neg (by omega), if_neg (by omega), if_neg (by omega)]
    · rw [if_neg (by omega)]
      by_cases hle : w ≤ b
      · rw [if_pos (by omega), if_pos (by omega)]
      · rw [if_neg (by omega), if_neg (by omega)]

end Sys2Proof.Machine
end

section
/-! SUPPORT. WEIGHT_STORE_WRITE_COMPLETE (R370). -/

namespace Sys2Proof.Machine

variable {s t u v : State} {α β : Type}

/-! ## WEIGHT_STORE_WRITE_COMPLETE -/

theorem Weighs.mem (h : Weighs t u) : u.mem = t.mem := by rw [h]
theorem Weighs.trains (h : Weighs t u) : u.trains = t.trains := by rw [h]
theorem Weighs.jobs (h : Weighs t u) : u.jobs = t.jobs := by rw [h]
theorem Weighs.nextId (h : Weighs t u) : u.nextId = t.nextId := by rw [h]

theorem OpEnded.pumped {id op : Nat} {x y : Train} (h : OpEnded t u id op x y) (hp : Pumped u v) :
    v.mem = t.mem ∧ v.wmem = t.wmem ∧ (∀ k, k < t.nextId → AMap.get? v.jobs k = AMap.get? t.jobs k) ∧
      OnlyTrain t v id ∧ AMap.get? v.trains id = some y := by
  have hn : u.nextId = t.nextId := by rw [h.frame]
  refine ⟨?_, ?_, fun k hk => ?_, fun i hi => ?_, ?_⟩
  · rw [hp.mem, h.frame]
  · rw [hp.wmem, h.frame]
  · rw [hp.jobs k (hn ▸ hk), h.frame]
  · rw [hp.trains]
    exact h.only i hi
  · rw [hp.trains]
    exact h.get

/-- The end of a `wsld`: its instruction completes, and the checker has room for the next. -/
theorem Ends.endJob_weights {id train op w a n m : Nat} {j : Job} {x : Train} (hkind : j.kind = .weights train op w a n m)
    (hnode : j.node = none) (hx : AMap.get? t.trains train = some x) :
    ∃ u v y, Ends (endJob id j none : M s Unit) t () v ∧ OpEnded (t.upd (.job id none)) u train op x y ∧ Pumped u v := by
  obtain ⟨u, y, hu, ho⟩ := Ends.endOp (s := s) (t := t.upd (.job id none)) (op := op) (x := x) (by rw [State.upd_trains]; exact hx)
  obtain ⟨v, hv, hp⟩ := pumped_pump (s := s) j.core u
  refine ⟨u, v, y, ?_, ho, hp⟩
  have he : Ends (do
      Machine.endOp train op none
      pump j.core : M s Unit) (t.upd (.job id none)) () v := Ends.bind hu hv
  cases j
  subst hkind hnode
  exact Ends.bind (Ends.upd _) he

/-- The job of a `wsld` with its next 65,536 bytes written. -/
def Job.weighed (j : Job) (train op w a n m : Nat) : Job := { j with kind := .weights train op w a n (m + 65536) }

section
variable {k train op w a n m P : Nat} {j : Job} (hj : AMap.get? s.jobs k = some j) (hkind : j.kind = .weights train op w a n m)
  (hst : j.started = true) (hheld : j.held = false) (hruns : (s.ctx j.ctx).stopped = false)
include hj hkind hst hheld hruns

theorem weightStore_exec (hw : Ends (weightWords j (w + m) (a + m) 8192 : M s Unit) s () t)
    (he : Ends (if n ≤ m + 65536 then endJob k (j.weighed train op w a n m) none
      else upd (.job k (some (j.weighed train op w a n m))) : M s Unit) t () u) :
    exec (.weightStoreWriteComplete k) s = .next u := by
  have hgo : (!j.started || j.held || frozen s j.ctx) = false := by
    rw [hst, hheld]
    exact hruns
  refine Ends.runE (Ends.now ?_)
  rw [hj]
  dsimp only
  split
  · rename_i hkind'
    cases hkind.symm.trans hkind'
    rw [hgo, if_neg (by decide)]
    exact Ends.jobStep (Ends.bind hw he)
  · rename_i hno
    exact absurd hkind (hno _ _ _ _ _ _)

/-- The bytes reach the weight store; the last of them complete the `wsld` (R370). -/
theorem weightStore_writes (hnode : j.node = none)
    (hx : ∀ i, i < 65536 → XlAt s j.core j.ctx j.priv kRead (a + m + i) (P + i)) {x : Train} (htr : AMap.get? s.trains train = some x)
    (hk : k < s.nextId) :
    ∃ t, exec (.weightStoreWriteComplete k) s = .next t ∧ t.mem = s.mem ∧
      (∀ b, Bytes.get t.wmem b = if w + m ≤ b ∧ b < w + m + 65536 then Bytes.get s.mem (P + (b - w - m)) else Bytes.get s.wmem b) ∧
      (m + 65536 < n → t.trains = s.trains ∧ t.jobs = AMap.set s.jobs k (j.weighed train op w a n m)) ∧
      (n ≤ m + 65536 → AMap.get? t.jobs k = none ∧ OnlyTrain s t train ∧
        ∃ y, AMap.get? t.trains train = some y ∧ Completed x y op ∧ y.s = x.s ∧ y.v = x.v) := by
  obtain ⟨t, ht, hwt, hb⟩ := Ends.weightWords (s := s) (w := w + m) 8192 hx
  have hbytes (b : Nat) : Bytes.get t.wmem b =
      if w + m ≤ b ∧ b < w + m + 65536 then Bytes.get s.mem (P + (b - w - m)) else Bytes.get s.wmem b := by
    rw [hb, Nat.sub_sub]
  by_cases hn : n ≤ m + 65536
  · obtain ⟨u, v, y, hv, ho, hp⟩ := Ends.endJob_weights (s := s) (t := t) (id := k) (j := j.weighed train op w a n m) (x := x) rfl hnode
      (by rw [hwt.trains]; exact htr)
    obtain ⟨hm, hwm, hjobs, honly, hget⟩ := ho.pumped hp
    refine ⟨v, weightStore_exec hj hkind hst hheld hruns ht (by rw [if_pos hn]; exact hv), ?_, fun b => ?_,
      fun hlt => absurd hn (Nat.not_le.2 hlt), fun _ => ⟨?_, fun i hi => ?_, y, hget, ho.done, ho.regs⟩⟩
    · rw [hm, State.upd_mem]
      exact hwt.mem
    · rw [hwm, State.upd_wmem]
      exact hbytes b
    · rw [hjobs k (by rw [State.upd_nextId]; exact hwt.nextId ▸ hk)]
      simp [putOpt, AMap.get?_erase]
    · rw [honly i hi, State.upd_trains]
      exact congrArg (AMap.get? · i) hwt.trains
  · refine ⟨_, weightStore_exec hj hkind hst hheld hruns ht (by rw [if_neg hn]; exact Ends.upd _), ?_, fun b => ?_, fun _ => ⟨?_, ?_⟩,
      fun hle => absurd hle hn⟩
    · rw [State.upd_mem]
      exact hwt.mem
    · rw [State.upd_wmem]
      exact hbytes b
    · rw [State.upd_trains]
      exact hwt.trains
    · rw [State.upd_jobs, hwt.jobs]
      rfl

end

end Sys2Proof.Machine
end

section
/-! SUPPORT. The work of the stream engine, put together. -/

namespace Sys2Proof.Machine

/-- Settles O41: an update of a barrier either stays or flips it, and a flip ends the waits for another phase, whether an operation or a delivered sector makes it; a `wsld` reads its bytes through a translation that its own reads leave as it is. -/
theorem streamWork : Obligations.StreamWork := by
  unfold Obligations.StreamWork
  refine ⟨fun s op e x wh h hq hok => ?_, fun s k j train op w a n m hs hj hkind hst hheld hruns hmay hred hrb => ?_,
    fun s k i w j sec wh f hj hst hheld hruns hsec hsp hw hwh hf hn => ?_,
    fun s k j train op w a n m P x hj hkind hnode hst hheld hruns hx htr hk => ?_⟩
  · refine ⟨fun sb b m he => ⟨h.tbinit_makes hq he, h.tbinit_again hq he, h.tbinit_differs hq he⟩, fun sb b m he => ⟨?_, fun ha hp hk => ?_⟩,
      fun sb d b m he hr hl => ⟨fun hw => ?_, fun ha hp hk => ?_⟩, fun sb d b he => ?_, fun sb d b he => ?_, fun sb d b he => ?_⟩
    · exact h.tbexp_stays hq he
    · exact h.tbexp_flips hq he hk ha hp
    · exact h.tbarr_stays hq he hr (by omega) hl (by unfold TBar.arrived; dsimp only; omega)
    · exact h.tbarr_flips hq he hk hr ha hl hp
    · exact h.srd hq he ⟨b, .inl ⟨rfl, rfl⟩⟩
    · exact h.srd hq he ⟨b, .inr (.inl ⟨rfl, rfl⟩)⟩
    · exact h.srd hq he ⟨b, .inr (.inr ⟨rfl, rfl⟩)⟩
  · exact jobStart_weights hs hj hkind hst hheld hruns hmay hred hrb
  · have h : Delivers s k i w j sec wh f := ⟨hj, hst, hheld, hruns, hsec, hsp, hw, hwh, hf⟩
    refine ⟨fun a slices hkind hb => ⟨fun hl hq => ?_, fun hp ha hk => ?_⟩, fun hl hk => ?_⟩
    · exact h.stays hkind hb (by omega) hl (by unfold TBar.paid; dsimp only; omega)
    · exact h.flips_wakes hkind hb hp ha hk
    · exact h.other hn hl hk
  · exact weightStore_writes hj hkind hst hheld hruns hnode hx htr hk
end Sys2Proof.Machine
end

section
/-! SUPPORT. An instruction that issues to a unit outside a bracket: how it begins, the train it leaves, the queue and the job it brings (R12, R47, R48, R205, R228). -/

namespace Sys2Proof.Machine

variable {s t u : State} {i : Instr} {r : Iss}

/-! ## Beginning and stopping -/

theorem Ends.beginM (h : begin_ s i = .ok r) : Ends (Machine.beginM i : M s Iss) s r s := fun _ => ⟨.refl, beginM_run h⟩

theorem Ends.beginOnce {body : Iss → M s Unit} (h : begin_ s i = .ok r) (hx : r.t.inTx = false)
    (hb : Ends (body r) s () u) : Ends (Machine.beginOnce i body) s () u := by
  refine Ends.bind (Ends.beginM h) ?_
  rw [hx]
  exact hb

theorem Stops.beginOnce {body : Iss → M s Unit} {e : Stop} (h : begin_ s i = .ok r) (hx : r.t.inTx = false)
    (hb : Stops (body r) s e) : Stops (Machine.beginOnce i body) s e := by
  refine Stops.bind (Ends.beginM h) ?_
  rw [hx]
  exact hb

theorem Stops.need {b : Bool} {e : Stop} (hb : b = false) : Stops (need b e : M s Unit) t e := by
  subst hb
  exact Stops.stop e

/-- An instruction that waits in place leaves the note that its train has waited. -/
theorem Stops.waits {m : M s Unit} (h : begin_ s i = .ok r) (hm : Stops m s .wait) :
    Machine.runM s m = .next (waited s r) := by
  obtain ⟨hc, ht, -⟩ := issuing_train (begin_ok_iff.1 h).1
  rw [hm.runM]
  simp only [stopped, stalled, hc, ht]
  rfl

theorem begin_train (h : begin_ s i = .ok r) : AMap.get? s.trains r.id = some r.t :=
  (issuing_train (begin_ok_iff.1 h).1).2.1

/-! ## The train that has issued -/

/-- The register files of two trains are the same. -/
def SameFiles (x y : Train) : Prop := x.s = y.s ∧ x.v = y.v

theorem SameFiles.freeV {x y : Train} (h : SameFiles x y) (i n : Nat) : SameFiles (x.freeV i n) (y.freeV i n) := by
  induction n generalizing x y i with
  | zero => exact h
  | succ n ih =>
    exact ih (x := { x with v := AMap.erase x.v i }) (y := { y with v := AMap.erase y.v i }) ⟨h.1, congrArg (AMap.erase · i) h.2⟩ _

theorem SameFiles.freeS {x y : Train} (h : SameFiles x y) (i n : Nat) : SameFiles (x.freeS i n) (y.freeS i n) := by
  induction n generalizing x y i with
  | zero => exact h
  | succ n ih =>
    exact ih (x := { x with s := AMap.erase x.s i }) (y := { y with s := AMap.erase y.s i }) ⟨congrArg (AMap.erase · i) h.1, h.2⟩ _

theorem SameFiles.freeOpd {x y : Train} (h : SameFiles x y) (o : Option (Src × Nat)) : SameFiles (x.freeOpd o) (y.freeOpd o) := by
  unfold Train.freeOpd
  split
  · exact h.freeV _ _
  · exact h.freeS _ _
  · exact h

theorem SameFiles.frees {x y : Train} (h : SameFiles x y) (c : Clause) (u : Use) : SameFiles (x.frees c u) (y.frees c u) := by
  unfold Train.frees
  cases c.lua <;> cases c.lub
  · exact h
  · exact h.freeOpd _
  · exact h.freeOpd _
  · exact (h.freeOpd _).freeOpd _

/-- What last-use bits leave of the register files depends on the register files alone. -/
theorem SameFiles.freesDone {x y : Train} (h : SameFiles x y) (r : Iss) : SameFiles (r.freesDone x) (r.freesDone y) := by
  have hf := h.frees r.c r.u
  unfold Iss.freesDone
  dsimp only
  split
  · exact hf
  · generalize x.frees r.c r.u = f, y.frees r.c r.u = g at hf
    generalize r.u.dst.flatMap (fun d => dstRegs (d.1, d.2 - r.u.kept)) = l
    induction l generalizing f g with
    | nil => exact hf
    | cons d l ih =>
      refine ih _ _ ?_
      cases d with
      | v i =>
        dsimp only
        rw [h.2, hf.2]
        split
        · refine ⟨hf.1, ?_⟩
          simp only [Train.setV, Train.vreg, h.2, hf.2]
        · exact hf
      | s i => exact hf
      | p i => exact hf

/-- The scoreboard that an instruction raises. -/
theorem started_sbCount (r : Iss) (op : Nat) (dests : List Reg) (tiles : List Nat) (x : Train) (k : BitVec 3) :
    (r.started op dests tiles x).sbCount k = x.sbCount k + if r.u.sb = some k then 1 else 0 := by
  unfold Iss.started Train.sbCount
  cases r.u.sb with
  | none => simp
  | some j =>
    by_cases hj : j = k
    · simp [hj]
    · have hne : j.toNat ≠ k.toNat := fun hc => hj (BitVec.eq_of_toNat_eq hc)
      simp [hj, Vector.getElem_set_ne _ _ hne]

/-- The train of an instruction that has gone to a unit: its count of copies and the gate of its next clause apart, it is as R47 and R48 say. -/
theorem issued_is (r : Iss) (op : Nat) (dests : List Reg) (tiles : List Nat) {f : Train → Train} {c : Nat} {g : Option Nat}
    (hf : f r.t = { r.t with copies := c, gate := g }) :
    Issued r op true dests tiles (r.issued op dests tiles f) ∧ (r.issued op dests tiles f).copies = c ∧
      (r.issued op dests tiles f).gate = g := by
  let y : Train := r.started op dests tiles { r.t with copies := c, gate := g }
  let z : Train := { r.freesDone y with park := none, wait := none, xl := [] }
  have hfiles : SameFiles (r.freesDone y) (r.freesDone r.t) := SameFiles.freesDone (x := y) (y := r.t) ⟨rfl, rfl⟩ r
  have hz : z = { y with s := r.left.s, v := r.left.v, park := none, wait := none, xl := [] } := by
    show ({ r.freesDone y with park := none, wait := none, xl := [] } : Train) = _
    rw [freesDone_rest, hfiles.1, hfiles.2]
    rfl
  have hi : r.issued op dests tiles f = z.advance r.c none := by
    unfold Iss.issued
    rw [hf]
    rfl
  have hrest := advance_rest z r.c none
  rw [hi]
  refine ⟨⟨?_, advance_goesOn _ _ _ rfl (by rw [hz]; rfl) (by rw [hz]; rfl) (by rw [hz]; rfl), fun k => ?_, ?_, ?_⟩, ?_, ?_⟩
  · rw [hrest, hz]
    exact ⟨rfl, rfl, rfl, rfl, rfl⟩
  · have hk : (z.advance r.c none).sbCount k = y.sbCount k := by rw [hrest, hz]; rfl
    exact hk.trans ((started_sbCount r op dests tiles _ k).trans (congrArg (r.t.sbCount k + ·) (by simp)))
  · rw [hrest, hz]
    rfl
  · rw [hrest, hz]
    exact ⟨rfl, rfl, rfl⟩
  · rw [hrest, hz]
    rfl
  · rw [hrest, hz]
    rfl

/-! ## Entering a queue -/

/-- An operation as it enters its queue. -/
def queued (r : Iss) (i : Instr) (cap : Cap) (words : List Nat) (op : Nat) : EngineOp :=
  { id := op, train := r.id, instr := i, cap := cap, held := false, step := 0, pos := 0, words := words }

theorem Ends.enqueue (h : AMap.get? t.trains r.id = some r.t) (i : Instr) (cap : Cap) (words : List Nat) (dests : List Reg)
    (tiles : List Nat) (q : Nat → EngineOp → Upd) (f : Train → Train) :
    Ends (Machine.enqueue r i cap words dests tiles q f : M s Nat) t t.nextId
      (((t.upd (.nextId (t.nextId + 1))).upd (.train r.id (some (r.issued t.nextId dests tiles f)))).upd
        (q t.nextId (queued r i cap words t.nextId))) := by
  refine Ends.bind Ends.freshId (Ends.bind (Ends.modTrain (x := r.t) ?_) (Ends.bind (Ends.upd _) (Ends.pure _)))
  simpa using h

end Sys2Proof.Machine
end

section
/-! SUPPORT. Numbers read from a memory, and the check of a barrier's address (R2, R255). -/

namespace Sys2Proof.Machine

variable {s : State} {r : Iss}

/-! ## Numbers read from a memory -/

/-- A number read in two parts. -/
theorem Bytes.read_add (m : Bytes) (a n k : Nat) : Bytes.read m a (n + k) = Bytes.read m a n + 256 ^ n * Bytes.read m (a + n) k := by
  induction n generalizing a with
  | zero => simp [Bytes.read]
  | succ n ih =>
    rw [Nat.add_right_comm, Bytes.read, ih, Bytes.read, Nat.pow_succ', Nat.mul_add, Nat.mul_assoc, Nat.add_assoc, Nat.add_assoc, Nat.add_comm 1 n]

theorem Bytes.read_lt (m : Bytes) (a n : Nat) : Bytes.read m a n < 256 ^ n := by
  induction n generalizing a with
  | zero => simp [Bytes.read]
  | succ n ih =>
    have h1 := (Bytes.get m a).isLt
    have h2 := ih (a + 1)
    rw [Bytes.read, Nat.pow_succ']
    omega

/-- The number whose bytes stand in a memory is what is read there. -/
theorem leVal_get (m : Bytes) (a n : Nat) : leVal (fun j => Bytes.get m (a + j)) n = Bytes.read m a n := by
  induction n with
  | zero => rfl
  | succ n ih => rw [leVal, ih, Bytes.read_add, Nat.mul_comm (256 ^ n)]; rfl

/-! ## The address of a barrier -/

/-- A barrier word has a reserved bit when it is as large as the first of them. -/
theorem rsvd_eq_zero_iff (b : Bytes) (a : Nat) : (TBar.ofNat (Bytes.read b a 16)).rsvd = 0 ↔ Bytes.read b a 16 < 2 ^ 68 := by
  have h := Bytes.read_lt b a 16
  unfold TBar.ofNat bits
  dsimp only
  generalize Bytes.read b a 16 = w at *
  omega

/-- The check of a barrier's address says what the statements say. -/
theorem barTrap_eq (s : State) (r : Iss) (b : Src) : barTrap s r b = (tbCheck s r.t (r.x0 b).toNat).map fun c => (c, none) := by
  unfold barTrap tbCheck tbGet
  dsimp only
  rw [leVal_get]
  have h := rsvd_eq_zero_iff (localOf s r.t.wheel) (r.x0 b).toNat
  by_cases h1 : (r.x0 b).toNat % 16 ≠ 0
  · rw [if_pos h1, if_pos h1]; rfl
  rw [if_neg h1, if_neg h1]
  by_cases h2 : localSize s r.t < (r.x0 b).toNat + 16
  · rw [if_pos h2, if_pos h2]; rfl
  rw [if_neg h2, if_neg h2]
  by_cases h3 : 2 ^ 68 ≤ Bytes.read (localOf s r.t.wheel) (r.x0 b).toNat 16
  · rw [if_pos h3, if_pos (by rw [ne_eq, h]; omega)]; rfl
  · rw [if_neg h3, if_neg (by rw [ne_eq, not_not, h]; omega)]; rfl

theorem Stops.tbCheckM {b : Src} {c : Byte} {v : Option DWord} (h : barTrap s r b = some (c, v)) :
    Stops (Machine.tbCheckM r (r.x0 b).toNat : M s Unit) s (.trap c none v) := by
  rw [barTrap_eq, Option.map_eq_some_iff] at h
  obtain ⟨d, hd, he⟩ := h
  cases he
  refine Stops.now ?_
  rw [hd]
  exact Stops.stop _

theorem Ends.tbCheckM {b : Src} (h : barTrap s r b = none) : Ends (Machine.tbCheckM r (r.x0 b).toNat : M s Unit) s () s := by
  rw [barTrap_eq, Option.map_eq_none_iff] at h
  refine Ends.now ?_
  rw [h]
  exact Ends.pure ()

end Sys2Proof.Machine
end

section
/-! SUPPORT. Copies, tile jobs and `wsld` at issue (R248, R286, R370). -/

namespace Sys2Proof.Machine

variable {s t u : State} {i : Instr} {r : Iss}

/-! ## Copies -/

theorem exec_copy {tb : Option Src} {ls ld rec : Src} (h : copyTable i = some (tb, ls, ld, rec)) (s : State) :
    exec i s = runM s (copyIssue i tb ls ld rec) := by
  unfold copyTable at h
  split at h <;> cases h <;> rfl

/-- What a copy captures of its barrier's address. -/
def copyAddr (r : Iss) (tb : Option Src) : BitVec 128 :=
  match tb with
  | some b => (r.x0 b).setWidth 128
  | none => 0

/-- The check of a copy's barrier, if it names one. -/
def copyBarrier (r : Iss) (tb : Option Src) : M s Unit :=
  match tb with
  | some b => tbCheckM r (r.x0 b).toNat
  | none => pure ()

/-- The operands of a copy. -/
def copyCap (r : Iss) (tb : Option Src) (ls ld rec : Src) : Cap :=
  { act := r.act, em := r.t.em, a := perLane (w64 r ls), b := perLane (w64 r ld), c := perLane (w64 r rec)
    x := perLane fun _ => copyAddr r tb }

/-- A copy whose barrier has been checked: its place in the wheel's collective and its queue. -/
def copyEnter (i : Instr) (r : Iss) (cap : Cap) : M s Unit := do
  let w ← wheelM r
  let t ← now
  let k := r.t.copies
  if w.colls.any fun c => c.k == k then pure ()
  else do
    need (!copyFull t r.t) .wait
    upd (.wheel r.t.wheel (some { w with colls := w.colls ++ [{ k := k, slices := [] }] }))
  let _ ← enqueue r i cap [] [] [] (fun n e => .stream n (some { e with step := k })) (fun t => { t with copies := k + 1 })
  pure ()

theorem copyIssue_eq (i : Instr) (tb : Option Src) (ls ld rec : Src) : (copyIssue i tb ls ld rec : M s Unit) =
    beginOnce i fun r => copyBarrier r tb >>= fun _ => copyEnter i r (copyCap r tb ls ld rec) := by
  cases tb with
  | none => rfl
  | some b =>
    unfold copyIssue copyCap copyAddr
    simp only [BitVec.ofNat_toNat]
    rfl

theorem Ends.copyBarrier {tb : Option Src} (h : ∀ b, tb = some b → barTrap s r b = none) :
    Ends (Machine.copyBarrier r tb : M s Unit) s () s := by
  cases tb with
  | none => exact Ends.pure ()
  | some b => exact Ends.tbCheckM (h b rfl)

/-- A barrier's bad address stops a copy. -/
theorem copyIssue_barrier {tb : Option Src} {ls ld rec b : Src} {c : Byte} {v : Option DWord} (hb : begin_ s i = .ok r)
    (hx : r.t.inTx = false) (hi : tb = some b) (h : barTrap s r b = some (c, v)) :
    Stops (copyIssue i tb ls ld rec : M s Unit) s (.trap c none v) := by
  subst hi
  rw [copyIssue_eq]
  exact Stops.beginOnce hb hx (Stops.bind_left (Stops.tbCheckM h))

section
variable {wh : Wheel} (hwh : AMap.get? s.wheels r.t.wheel = some wh)
include hwh

/-- A copy that would open a collective waits for room for it. -/
theorem Stops.copyEnter (cap : Cap) (hj : (wh.colls.any fun c => c.k == r.t.copies) = false)
    (hf : 4 ≤ wh.colls.length ∨ checkerFull s wh.core = true) : Stops (Machine.copyEnter i r cap : M s Unit) s .wait := by
  refine Stops.bind (Ends.wheelM hwh) (Stops.now ?_)
  dsimp only
  rw [hj, if_neg (by decide)]
  refine Stops.bind_left (Stops.need ?_)
  unfold copyFull State.wheelOf
  rw [hwh]
  rcases hf with hf | hf <;> simp [hj, hf]

/-- The wheel once a copy has begun a collective, or joined one. -/
def withCollective (s : State) (r : Iss) (wh : Wheel) : State :=
  if wh.colls.any fun c => c.k == r.t.copies then s
  else s.upd (.wheel r.t.wheel (some { wh with colls := wh.colls ++ [⟨r.t.copies, []⟩] }))

theorem Ends.copyEnter (ht : AMap.get? s.trains r.id = some r.t) (cap : Cap)
    (hj : (wh.colls.any fun c => c.k == r.t.copies) = true ∨ (wh.colls.length < 4 ∧ checkerFull s wh.core = false)) :
    Ends (Machine.copyEnter i r cap : M s Unit) s () ((((withCollective s r wh).upd (.nextId (s.nextId + 1))).upd
      (.train r.id (some (r.issued s.nextId [] [] fun t => { t with copies := r.t.copies + 1 })))).upd
        (.stream s.nextId (some { queued r i cap [] s.nextId with step := r.t.copies }))) := by
  have henter (t : State) (h1 : t.trains = s.trains) (h2 : t.nextId = s.nextId) :=
    Ends.enqueue (s := s) (t := t) (r := r) (by rw [h1]; exact ht) i cap [] [] []
      (fun n e => .stream n (some { e with step := r.t.copies })) (fun t => { t with copies := r.t.copies + 1 })
  refine Ends.bind (Ends.wheelM hwh) (Ends.now ?_)
  dsimp only
  unfold withCollective
  cases hc : wh.colls.any fun c => c.k == r.t.copies with
  | true =>
    simp only [if_true]
    exact Ends.bind (henter s rfl rfl) (Ends.pure ())
  | false =>
    simp only [Bool.false_eq_true, if_false]
    obtain ⟨hl, hf⟩ := hj.resolve_left (by simp [hc])
    have hroom : copyFull s r.t = false := by
      unfold copyFull State.wheelOf
      rw [hwh]
      simpa [hc, hf] using hl
    refine Ends.bind (Ends.need (by rw [hroom]; rfl)) (Ends.bind (Ends.upd _) ?_)
    exact Ends.bind (henter _ (by simp) (by simp)) (Ends.pure ())

end

/-! ## Tile jobs -/

/-- What the instructions that enter a matrix queue with a job have in common. -/
structure TileJob (s : State) (i : Instr) (r : Iss) (tile : BitVec 3) (cap : Cap) (read : Iss → M s (Cap × List Nat)) : Prop where
  tiles : tilesNamed i = [tile]
  kind : isTileJob i = true ∧ isLanes i = false
  trap : callTrap s r i = if tilesOf s r.t ≤ tile.toNat then some (0x03, none) else none
  exec : Machine.exec i s = runM s (mxIssue i [tile] [] read)
  cap : read r = pure (cap, [])

/-- The operands of a tile job. -/
def tileCap (r : Iss) (a b : DWord) : Cap :=
  { act := r.act, em := r.t.em, a := perLane fun _ => a, b := perLane fun _ => b, c := perLane fun _ => 0, x := perLane fun _ => 0 }

theorem tileJob_of_table {a b : DWord} (h : tileJobTable r i = some (a, b)) (s : State) :
    ∃ tile read, TileJob s i r tile (tileCap r a b) read := by
  unfold tileJobTable at h
  split at h
  · cases h
    exact ⟨_, _, rfl, ⟨rfl, rfl⟩, by simp [callTrap, tilesNamed], rfl, rfl⟩
  · cases h
    exact ⟨_, _, rfl, ⟨rfl, rfl⟩, by simp [callTrap, tilesNamed], rfl, rfl⟩
  · cases h
    exact ⟨_, _, rfl, ⟨rfl, rfl⟩, by simp [callTrap, tilesNamed], rfl, rfl⟩
  · cases h

section
variable {tile : BitVec 3} {cap : Cap} {read : Iss → M s (Cap × List Nat)} (h : TileJob s i r tile cap read)
  (hb : begin_ s i = .ok r) (hx : r.t.inTx = false)
include h hb

theorem TileJob.trapped (ht : tilesOf s r.t ≤ tile.toNat) : Machine.exec i s = .next (trapCur s 0x03 none none) := by
  rw [h.exec]
  refine Stops.runM (e := .trap 0x03 none none) (Stops.bind (Ends.beginM hb) (Stops.now ?_))
  rw [if_pos (by simpa using ht)]
  exact Stops.stop _

include hx
variable (ht : ¬tilesOf s r.t ≤ tile.toNat)
include ht

theorem TileJob.full (hf : 16 ≤ (mxQueue s (s.coreOf r.t) (s.ctxOf r.t)).length ∨ checkerFull s (s.coreOf r.t) = true) :
    Machine.exec i s = .next (waited s r) := by
  rw [h.exec]
  refine Stops.waits hb (Stops.bind (Ends.beginM hb) (Stops.now ?_))
  rw [if_neg (by simpa using ht), h.kind.2, if_neg (by decide)]
  refine Stops.beginOnce hb hx (Stops.now (Stops.bind_left (Stops.need ?_)))
  unfold mxFull
  rcases hf with hf | hf <;> simp [hf, h.kind.1]

theorem TileJob.enters (hf : ¬(16 ≤ (mxQueue s (s.coreOf r.t) (s.ctxOf r.t)).length ∨ checkerFull s (s.coreOf r.t) = true)) :
    Machine.exec i s = .next (((((s.upd (.nextId (s.nextId + 1))).upd
      (.train r.id (some (r.issued s.nextId [] ([tile].map (·.toNat)) id)))).upd
        (.matrix s.nextId (some (queued r i cap [] s.nextId)))).upd (.nextId (s.nextId + 2))).upd
          (.job (s.nextId + 1) (some (freshJob s r (.tile s.nextId))))) := by
  rw [h.exec]
  refine Ends.runM (Ends.bind (Ends.beginM hb) (Ends.now ?_))
  rw [if_neg (by simpa using ht), h.kind.2, if_neg (by decide)]
  refine Ends.beginOnce hb hx (Ends.now (Ends.bind (Ends.need ?_) ?_))
  · unfold mxFull
    simpa [h.kind.1] using hf
  · rw [h.cap, h.kind.1]
    refine Ends.bind (Ends.pure _) (Ends.bind (Ends.enqueue (begin_train hb) _ _ _ _ _ _ _) ?_)
    rw [if_pos rfl]
    refine Ends.bind Ends.freshId ?_
    simp only [State.upd_nextId]
    exact Ends.upd _

end

/-! ## `wsld` -/

theorem Stops.beginPriv_tm {body : Iss → M s Unit} (hb : begin_ s i = .ok r) (hx : r.t.inTx = false) (ht : r.t.trap.tm = true) :
    Stops (beginPriv i body) s (.trap 0x18 none none) := by
  refine Stops.beginOnce hb hx ?_
  rw [ht]
  exact Stops.stop _

theorem Stops.beginPriv {body : Iss → M s Unit} {e : Stop} (hb : begin_ s i = .ok r) (hx : r.t.inTx = false)
    (ht : r.t.trap.tm = false) (h : Stops (body r) s e) : Stops (Machine.beginPriv i body) s e := by
  refine Stops.beginOnce hb hx ?_
  rw [ht]
  exact h

theorem Ends.beginPriv {body : Iss → M s Unit} (hb : begin_ s i = .ok r) (hx : r.t.inTx = false) (ht : r.t.trap.tm = false)
    (h : Ends (body r) s () u) : Ends (Machine.beginPriv i body) s () u := by
  refine Ends.beginOnce hb hx ?_
  rw [ht]
  exact h

section
variable {sb : Sb} {w a n : Src} (hb : begin_ s (.wsld sb w a n) = .ok r) (hx : r.t.inTx = false) (ht : r.t.trap.tm = false)
include hb hx ht

theorem execWsld_range (h : r.x0 n = 0 ∨ 262144 < (r.x0 w).toNat + (r.x0 n).toNat) :
    exec (.wsld sb w a n) s = .next (trapCur s 0x03 none none) := by
  refine Stops.runM (e := .trap 0x03 none none) (Stops.beginPriv hb hx ht ?_)
  dsimp only
  rw [if_pos (by simpa [BitVec.toNat_eq] using h)]
  exact Stops.stop _

variable (hn : r.x0 n ≠ 0) (hr : (r.x0 w).toNat + (r.x0 n).toNat ≤ 262144)
include hn hr

omit hb hx ht in
/-- The range of a `wsld` is in order. -/
theorem wsld_range_ok : ¬(decide ((r.x0 n).toNat = 0) || decide (262144 < (r.x0 w).toNat + (r.x0 n).toNat)) = true := by
  have : (r.x0 n).toNat ≠ 0 := fun h => hn (BitVec.eq_of_toNat_eq h)
  simp only [Bool.or_eq_true, decide_eq_true_eq]
  omega

theorem execWsld_misaligned (h : (r.d0 a).toNat % 128 ≠ 0) :
    exec (.wsld sb w a n) s = .next (trapCur s 0x04 (some r.t.em) (some (r.d0 a))) := by
  refine Stops.runM (e := .trap 0x04 (some r.t.em) (some (r.d0 a))) (Stops.beginPriv hb hx ht ?_)
  dsimp only
  rw [if_neg (wsld_range_ok hn hr), if_pos h]
  exact Stops.stop _

variable (ha : (r.d0 a).toNat % 128 = 0)
include ha

theorem execWsld_full (h : checkerFull s (s.coreOf r.t) = true) : exec (.wsld sb w a n) s = .next (waited s r) := by
  refine Stops.waits hb (Stops.beginPriv hb hx ht ?_)
  dsimp only
  rw [if_neg (wsld_range_ok hn hr), if_neg (by simpa using ha)]
  exact Stops.now (Stops.bind_left (Stops.need (by rw [h]; rfl)))

theorem execWsld_job (h : checkerFull s (s.coreOf r.t) = false) :
    exec (.wsld sb w a n) s = .next ((((s.upd (.nextId (s.nextId + 1))).upd
      (.train r.id (some (r.issued s.nextId [] [] id)))).upd (.nextId (s.nextId + 2))).upd (.job (s.nextId + 1) (some
        (freshJob s r (.weights r.id s.nextId (65536 * (r.x0 w).toNat) (r.d0 a).toNat (65536 * (r.x0 n).toNat) 0))))) := by
  refine Ends.runM (Ends.beginPriv hb hx ht ?_)
  dsimp only
  rw [if_neg (wsld_range_ok hn hr), if_neg (by simpa using ha)]
  refine Ends.now (Ends.bind (Ends.need (by rw [h]; rfl)) (Ends.bind Ends.freshId (Ends.bind (Ends.modTrain (x := r.t) ?_)
    (Ends.bind Ends.freshId ?_))))
  · simpa using begin_train hb
  · simp only [State.upd_nextId]
    exact Ends.upd _

end

/-! ## The statement -/

/-- A train that issues an instruction which changes nothing else of it. -/
theorem issued_id (r : Iss) (op : Nat) (tiles : List Nat) : Issued r op true [] tiles (r.issued op [] tiles id) :=
  (issued_is r op [] tiles (c := r.t.copies) (g := r.t.gate) rfl).1

/-- Settles O37: each trap and each wait is where the instruction's computation stops, and a queue entry or a job is where it ends. -/
theorem jobIssue : Obligations.JobIssue := by
  unfold Obligations.JobIssue
  refine ⟨fun s i r wh tb ls ld rec hb hx hi hwh => ⟨fun b c v hbr htr => ?_, fun hbar => ⟨fun hj hf => ?_, fun hj => ?_⟩⟩,
    fun s i r a b hb hx hi => ?_, fun s sb w a n r hb hx => ⟨fun ht => ?_, fun ht h => ?_, fun ht hn hr h => ?_,
      fun ht hn hr ha => ⟨fun h => ?_, fun h => ⟨_, ?_, issued_id ..⟩⟩⟩⟩
  · rw [exec_copy hi]
    exact Stops.runM (copyIssue_barrier hb hx hbr htr)
  · rw [exec_copy hi, copyIssue_eq]
    exact Stops.waits hb (Stops.beginOnce hb hx (Stops.bind (Ends.copyBarrier hbar) (Stops.copyEnter hwh _ hj hf)))
  · have he := Ends.copyEnter (i := i) hwh (begin_train hb) (copyCap r tb ls ld rec) hj
    obtain ⟨h1, h2, -⟩ := issued_is r s.nextId [] [] (f := fun t => { t with copies := r.t.copies + 1 }) (c := r.t.copies + 1)
      (g := r.t.gate) rfl
    refine ⟨_, ?_, h1, h2⟩
    rw [exec_copy hi, copyIssue_eq]
    exact Ends.runM (Ends.beginOnce hb hx (Ends.bind (Ends.copyBarrier hbar) he))
  · obtain ⟨tile, read, h⟩ := tileJob_of_table hi s
    have htr := h.trap
    intro full
    by_cases ht : tilesOf s r.t ≤ tile.toNat
    · rw [if_pos ht] at htr
      rw [htr]
      refine ⟨fun c v hc => ?_, fun hc => (nomatch hc), fun hc => (nomatch hc)⟩
      cases hc
      exact h.trapped hb ht
    · rw [if_neg ht] at htr
      rw [htr, h.tiles]
      exact ⟨fun c v hc => (nomatch hc), fun _ => h.full hb hx ht, fun _ hf => ⟨_, h.enters hb hx ht hf, issued_id ..⟩⟩
  · exact Stops.runM (Stops.beginPriv_tm hb hx ht)
  · exact execWsld_range hb hx ht h
  · exact execWsld_misaligned hb hx ht hn hr h
  · exact execWsld_full hb hx ht hn hr ha h
  · exact execWsld_job hb hx ht hn hr ha h

end Sys2Proof.Machine
end

section
/-! SUPPORT. The Remontoir's state: nodes and rings changed, the ready pool and its deficits (R346, R351). -/

namespace Sys2Proof.Machine

variable {s t u : State} {k : Nat} {n : Node}

/-! ## Nodes and rings changed -/

theorem Ends.modNode (h : AMap.get? t.nodes k = some n) (f : Node → Node) :
    Ends (Machine.modNode k f : M s Unit) t () (t.upd (.node k (f n))) := by
  refine Ends.now ?_
  rw [h]
  exact Ends.upd _

/-- Ring k changed; past ring 63 there is none. -/
theorem Ends.modRing (k : Nat) (f : Ring → Ring) : Ends (Machine.modRing k f : M s Unit) t () (t.upd (.ring k (f (t.ring k)))) := by
  refine Ends.now ?_
  by_cases hk : k < 64
  · rw [if_pos hk]
    exact Ends.upd _
  · rw [if_neg hk, State.upd, dif_neg hk]
    exact Ends.pure ()

theorem State.upd_ring_rest (t : State) (k : Nat) (x : Ring) : t.upd (.ring k x) = { t with rings := (t.upd (.ring k x)).rings } := by
  simp only [State.upd]
  split <;> rfl

theorem State.ring_upd_ring (t : State) (x : Ring) {j : Nat} (hj : j < 64) :
    (t.upd (.ring k x)).ring j = if j = k then x else t.ring j := by
  simp only [State.ring, State.upd_rings, Nat.mod_eq_of_lt hj]
  by_cases hk : k < 64
  · by_cases h : j = k
    · subst h
      simp [hk]
    · simp [hk, h, Vector.getElem_set_ne _ _ (Ne.symm h)]
  · rw [if_neg (by omega)]
    simp [hk]

/-! ## Several nodes changed -/

/-- The entries of a list set in a map, each changed by `g`. -/
theorem get?_foldl_set {α : Type} (g : α → α) {l : AMap α} (hl : KeysRise l) (m : AMap α) (j : Nat) :
    AMap.get? (l.foldl (fun m kv => AMap.set m kv.1 (g kv.2)) m) j = ((AMap.get? l j).map g).or (AMap.get? m j) := by
  induction l generalizing m with
  | nil => rfl
  | cons kv l ih =>
    obtain ⟨i, z⟩ := kv
    have ⟨hlt, hl'⟩ := KeysRise.cons.1 hl
    rw [List.foldl_cons, ih hl', AMap.get?_set, AMap.get?_cons]
    by_cases hij : i = j
    · subst hij
      have hn : AMap.get? l i = none := by
        rw [Option.eq_none_iff_forall_not_mem]
        exact fun y hy => Nat.lt_irrefl i (hlt i (List.mem_map_of_mem (AMap.mem_of_get? hy)))
      simp [hn]
    · simp [hij, Ne.symm hij]

theorem upds_node_list (g : Node → Node) (l : AMap Node) (t : State) :
    t.upds (l.map fun kv => .node kv.1 (g kv.2)) = { t with nodes := l.foldl (fun m kv => AMap.set m kv.1 (g kv.2)) t.nodes } := by
  induction l generalizing t with
  | nil => rfl
  | cons kv l ih => exact ih _

/-- Every node that passes a test is changed by `g`, and nothing else. -/
structure NodesChanged (t u : State) (p : Node → Bool) (g : Node → Node) : Prop where
  frame : u = { t with nodes := u.nodes }
  get : ∀ j, AMap.get? u.nodes j = (AMap.get? t.nodes j).map fun m => if p m then g m else m

theorem nodesChanged (hk : KeysRise t.nodes) (p : Node → Bool) (g : Node → Node) :
    NodesChanged t (t.upds ((t.nodes.filter fun kv => p kv.2).map fun kv => .node kv.1 (g kv.2))) p g := by
  rw [upds_node_list]
  refine ⟨rfl, fun j => ?_⟩
  show AMap.get? (List.foldl _ t.nodes _) j = _
  rw [get?_foldl_set g (hk.filter _), AMap.get?_filter hk]
  cases AMap.get? t.nodes j with
  | none => rfl
  | some m => by_cases hp : p m = true <;> simp [Option.filter, hp]

/-! ## The ready pool -/

theorem nodeReady_iff : nodeReady s n = true ↔ NodeMay s n := by
  unfold nodeReady NodeMay ctxRuns
  simp only [Bool.and_eq_true, Bool.not_eq_true', beq_iff_eq, List.isEmpty_iff, and_assoc]

theorem get?_readyNodes (hk : KeysRise s.nodes) (j : Nat) (m : Node) :
    AMap.get? (readyNodes s) j = some m ↔ AMap.get? s.nodes j = some m ∧ NodeMay s m := by
  unfold readyNodes
  rw [AMap.get?_filter hk, Option.filter_eq_some_iff, nodeReady_iff]

theorem mem_readyNodes (hk : KeysRise s.nodes) (j : Nat) (m : Node) :
    (j, m) ∈ readyNodes s ↔ AMap.get? s.nodes j = some m ∧ NodeMay s m := by
  rw [← get?_readyNodes hk]
  exact AMap.mem_iff (hk.filter _)

/-- The node that stands before all others of a list is the oldest of it. -/
theorem oldest_eq {l : AMap Node} (hm : (k, n) ∈ l) (hf : ∀ kv ∈ l, kv ≠ (k, n) → n.order < kv.2.order) : oldest l = some (k, n) := by
  have h (b : Option (Nat × Node)) (hb : b = some (k, n) ∨ (k, n) ∈ l) (hlt : ∀ x, b = some x → x ≠ (k, n) → n.order < x.2.order) :
      l.foldl (fun b kv => match b with
        | none => some kv
        | some x => if kv.2.order < x.2.order then some kv else b) b = some (k, n) := by
    clear hm
    induction l generalizing b with
    | nil => exact hb.resolve_right List.not_mem_nil
    | cons kv l ih =>
      have hkv := hf kv List.mem_cons_self
      refine ih (fun x hx => hf x (List.mem_cons_of_mem _ hx)) _ ?_ ?_
      · rcases hb with hb | hb
        · subst hb
          by_cases he : kv = (k, n)
          · subst he
            simp
          · exact .inl (if_neg (by have := hkv he; simp only; omega))
        · rcases List.mem_cons.1 hb with hb | hb
          · subst hb
            refine .inl ?_
            cases b with
            | none => rfl
            | some x =>
              by_cases he : x = (k, n)
              · subst he
                simp
              · exact if_pos (hlt x rfl he)
          · exact .inr hb
      · intro x hx hne
        cases b with
        | none =>
          cases hx
          exact hkv hne
        | some y =>
          dsimp only at hx
          split at hx
          · cases hx
            exact hkv hne
          · cases hx
            exact hlt x rfl hne
  exact h none (.inr hm) fun x hx => nomatch hx

/-! ## Deficits -/

/-- A ring with another deficit at a priority. -/
def Ring.withDeficit (r : Ring) (p d : Nat) : Ring := { r with deficit := r.deficit.set (p % 4) d (Nat.mod_lt _ (by decide)) }

theorem deficitAt_withDeficit (r : Ring) (p d q : Nat) : deficitAt (r.withDeficit p d) q = if q % 4 = p % 4 then d else deficitAt r q := by
  unfold deficitAt Ring.withDeficit
  by_cases h : q % 4 = p % 4
  · simp [h]
  · simp [h, Vector.getElem_set_ne _ _ (Ne.symm h)]

theorem Ring.withDeficit_self {r : Ring} {p d : Nat} (h : deficitAt r p = d) : r.withDeficit p d = r := by
  subst h
  unfold Ring.withDeficit deficitAt
  rw [Vector.set_getElem_self]

theorem Ring.withDeficit_withDeficit (r : Ring) (p d e : Nat) : (r.withDeficit p d).withDeficit p e = r.withDeficit p e := by
  simp [Ring.withDeficit]

theorem Ends.setDeficit (k p d : Nat) : Ends (Machine.setDeficit k p d : M s Unit) t () (t.upd (.ring k ((t.ring k).withDeficit p d))) :=
  Ends.modRing k _

/-- The model's test for a ready node of ring `j` at a priority. -/
def hasReady (t : State) (j p : Nat) : Bool := t.nodes.any fun kv => kv.2.ring == j && kv.2.prio == p && kv.2.ready

theorem hasReady_iff (hk : KeysRise t.nodes) {j p : Nat} : hasReady t j p = true ↔ HasReady t j p := by
  unfold hasReady HasReady Node.ready
  simp only [List.any_eq_true, Prod.exists, AMap.mem_iff hk, Bool.and_eq_true, beq_iff_eq, Bool.not_eq_true', List.isEmpty_iff,
    and_assoc]

/-- The deficits of rings `l` at a priority dropped, where the ring has no ready node in `t`. -/
def dropsIn (t : State) (p : Nat) (u : State) (j : Nat) : State :=
  if (hasReady t j p || decide (deficitOf (t.ring j) p = 0)) = true then u else u.upd (.ring j ((u.ring j).withDeficit p 0))

theorem dropsIn_rest (t : State) (p : Nat) (l : List Nat) (u : State) :
    l.foldl (dropsIn t p) u = { u with rings := (l.foldl (dropsIn t p) u).rings } := by
  induction l generalizing u with
  | nil => rfl
  | cons j l ih =>
    rw [List.foldl_cons, ih]
    unfold dropsIn
    split
    · rfl
    · rw [State.upd_ring_rest]

theorem dropsIn_ring (t : State) (p : Nat) (l : List Nat) (u : State) {j : Nat} (hj : j < 64) :
    (l.foldl (dropsIn t p) u).ring j =
      if j ∈ l ∧ ¬(hasReady t j p || decide (deficitOf (t.ring j) p = 0)) = true then (u.ring j).withDeficit p 0 else u.ring j := by
  induction l generalizing u with
  | nil => simp
  | cons i l ih =>
    rw [List.foldl_cons, ih]
    have hi : (dropsIn t p u i).ring j =
        if j = i ∧ ¬(hasReady t j p || decide (deficitOf (t.ring j) p = 0)) = true then (u.ring j).withDeficit p 0 else u.ring j := by
      unfold dropsIn
      by_cases hc : (hasReady t i p || decide (deficitOf (t.ring i) p = 0)) = true
      · rw [if_pos hc, if_neg]
        rintro ⟨rfl, h⟩
        exact h hc
      · rw [if_neg hc, State.ring_upd_ring _ _ hj]
        by_cases hij : j = i
        · subst hij
          rw [if_pos rfl, if_pos ⟨rfl, hc⟩]
        · rw [if_neg hij, if_neg (fun h => hij h.1)]
    rw [hi]
    by_cases hc : (hasReady t j p || decide (deficitOf (t.ring j) p = 0)) = true
    · simp [hc]
    · by_cases h1 : j = i
      · subst h1
        by_cases h2 : j ∈ l
        · simp [hc, h2, Ring.withDeficit_withDeficit]
        · simp [hc, h2]
      · simp [h1]

/-- `dropDeficits` leaves a ring with a ready node as it was and any other without a deficit. -/
theorem Ends.dropDeficits (hk : KeysRise t.nodes) (p : Nat) : ∃ u, Ends (Machine.dropDeficits p : M s Unit) t () u ∧
    u = { t with rings := u.rings } ∧ ∀ j, j < 64 →
      (HasReady t j p → u.ring j = t.ring j) ∧ (¬HasReady t j p → u.ring j = (t.ring j).withDeficit p 0) := by
  refine ⟨(List.range 64).foldl (dropsIn t p) t, Ends.now (Ends.forM (fun v j => ?_) _ _), dropsIn_rest .., fun j hj => ?_⟩
  · unfold dropsIn
    split
    · rename_i hc
      rw [if_pos (show (hasReady t j p || decide (deficitOf (t.ring j) p = 0)) = true from hc)]
      exact Ends.pure ()
    · rename_i hc
      rw [if_neg (show ¬(hasReady t j p || decide (deficitOf (t.ring j) p = 0)) = true from hc)]
      exact Ends.setDeficit j p 0
  · rw [dropsIn_ring _ _ _ _ hj, ← hasReady_iff hk]
    refine ⟨fun h => if_neg fun hc => hc.2 (by rw [h]; rfl), fun h => ?_⟩
    by_cases hd : deficitOf (t.ring j) p = 0
    · rw [if_neg (fun hc => hc.2 (by simp [hd])), Ring.withDeficit_self hd]
    · exact if_pos ⟨List.mem_range.2 hj, by simp [h, hd]⟩

end Sys2Proof.Machine
end

section
/-! SUPPORT. NODE_START: whose turn it is, the start of a node and the turn passed on (R351). -/

namespace Sys2Proof.Machine

variable {s t u : State} {k : Nat} {n : Node}

/-! ## The turn -/

theorem execNodeStart_waits (hk : KeysRise s.nodes) (hn : AMap.get? s.nodes k = some n)
    (h : n.state ≠ .waiting ∨ n.cause ≠ 0 ∨ n.edges ≠ [] ∨ n.hold = true ∨ n.held = true) : exec (.nodeStart k) s = .next s := by
  have hg : AMap.get? (readyNodes s) k = none := by
    rw [Option.eq_none_iff_forall_ne_some]
    intro m hm
    obtain ⟨hm, h1, h2, h3, h4, h5, -⟩ := (get?_readyNodes hk k m).1 hm
    cases hn.symm.trans hm
    simp [h1, h2, h3, h4, h5] at h
  refine Ends.runE (Ends.now ?_)
  dsimp only
  rw [hg]
  exact Ends.pure ()

section
variable (hk : KeysRise s.nodes) (hn : AMap.get? s.nodes k = some n) (ht : TurnOf s k n)
include hk hn ht

/-- The ready nodes at the priority of the turn. -/
def peersOf (s : State) (n : Node) : AMap Node := (readyNodes s).filter fun kv => kv.2.prio == n.prio

omit hn ht in
theorem mem_peersOf {j : Nat} {m : Node} : (j, m) ∈ peersOf s n ↔ AMap.get? s.nodes j = some m ∧ NodeMay s m ∧ m.prio = n.prio := by
  unfold peersOf
  rw [List.mem_filter, mem_readyNodes hk, beq_iff_eq, and_assoc]

theorem oldest_turn : oldest ((peersOf s n).filter fun kv => kv.2.ring == n.ring) = some (k, n) := by
  refine oldest_eq ?_ fun kv hkv hne => ?_
  · exact List.mem_filter.2 ⟨(mem_peersOf hk).2 ⟨hn, ht.may, rfl⟩, by simp⟩
  · obtain ⟨j, m⟩ := kv
    obtain ⟨hm, hr⟩ := List.mem_filter.1 hkv
    obtain ⟨hj, hmay, hp⟩ := (mem_peersOf hk).1 hm
    refine ht.first j m hj hmay hp (by simpa using hr) ?_
    rintro rfl
    cases hn.symm.trans hj
    exact hne rfl

/-- What NODE_START does of the node whose turn it is. -/
def turnWork (s : State) (k : Nat) (n : Node) : M s Unit :=
  if n.cost ≤ deficitOf (s.ring n.ring) n.prio then do
    let done ← startNode k n
    if done then do
      setDeficit n.ring n.prio (deficitOf (s.ring n.ring) n.prio - n.cost)
      dropDeficits n.prio
    else pure ()
  else passTurn n.prio n.ring (((peersOf s n).map fun kv => kv.2.ring).dedup)

theorem execNodeStart_turn (h : Ends (turnWork s k n) s () u) : exec (.nodeStart k) s = .next u := by
  have hg : AMap.get? (readyNodes s) k = some n := (get?_readyNodes hk k n).2 ⟨hn, ht.may⟩
  have hp : ((readyNodes s).any fun kv => decide (n.prio < kv.2.prio)) = false := by
    rw [List.any_eq_false]
    intro kv hkv
    obtain ⟨hj, hmay⟩ := (mem_readyNodes hk kv.1 kv.2).1 hkv
    simpa using ht.prio.2 kv.1 kv.2 hj hmay
  have ho := oldest_turn hk hn ht
  unfold peersOf at ho
  refine Ends.runE (Ends.now ?_)
  dsimp only
  rw [hg]
  dsimp only
  rw [hp, if_neg (by decide), ht.ring, ho]
  dsimp only
  rw [if_pos rfl]
  exact h

end

/-! ## A start -/

theorem Ends.startNode (h : Ends (startWork k n : M s Unit) t () u) : Ends (Machine.startNode k n : M s Bool) t true u := by
  refine Ends.bind (Ends.tryM h) ?_
  exact Ends.pure true

/-- The deficits of the rings as the statements say it, from the rings. -/
theorem deficitsAre_of {p r d : Nat} (hy : ∀ j, j < 64 → HasReady t j p → u.ring j = if j = r then (t.ring j).withDeficit p d else t.ring j)
    (hno : ∀ j, j < 64 → ¬HasReady t j p → u.ring j = (t.ring j).withDeficit p 0) : DeficitsAre t u p r d := by
  intro j hj
  by_cases hc : HasReady t j p
  · rw [hy j hj hc]
    by_cases hjr : j = r
    · simp only [if_pos hjr, deficitAt_withDeficit]
      exact ⟨rfl, fun q hq => if_neg hq, fun _ => if_pos trivial, fun h => absurd hc h⟩
    · simp only [if_neg hjr]
      exact ⟨trivial, fun _ _ => trivial, fun _ => trivial, fun h => absurd hc h⟩
  · rw [hno j hj hc]
    simp only [deficitAt_withDeficit]
    exact ⟨rfl, fun q hq => if_neg hq, fun h => absurd h hc, fun _ => if_pos trivial⟩

/-- A deficit set, then those of rings with no ready node dropped. -/
theorem Ends.setDeficit_drop (hk : KeysRise t.nodes) (p r d : Nat) :
    ∃ u, Ends (do Machine.setDeficit r p d; Machine.dropDeficits p : M s Unit) t () u ∧ u = { t with rings := u.rings } ∧
      DeficitsAre t u p r d := by
  let t1 := t.upd (.ring r ((t.ring r).withDeficit p d))
  have h1 : t1 = { t with rings := t1.rings } := State.upd_ring_rest ..
  have hn : t1.nodes = t.nodes := by rw [h1]
  obtain ⟨u, hu, hf, hr⟩ := Ends.dropDeficits (s := s) (t := t1) (by rw [hn]; exact hk) p
  have hh (j : Nat) : HasReady t1 j p ↔ HasReady t j p := by unfold HasReady; rw [hn]
  have hj1 (j : Nat) (hj : j < 64) : t1.ring j = if j = r then (t.ring r).withDeficit p d else t.ring j := State.ring_upd_ring _ _ hj
  refine ⟨u, Ends.bind (Ends.setDeficit _ _ _) hu, by rw [hf, h1], deficitsAre_of (fun j hj hc => ?_) fun j hj hc => ?_⟩
  · rw [(hr j hj).1 ((hh j).2 hc), hj1 j hj]
    split
    · rename_i h
      rw [h]
    · rfl
  · rw [(hr j hj).2 fun h => hc ((hh j).1 h), hj1 j hj]
    split
    · rename_i h
      rw [h, Ring.withDeficit_withDeficit]
    · rfl

/-! ## The turn passed on -/

/-- The search for the next ring with ready nodes, from the one after the turn's on. -/
def nextRing (cur : Nat) (rings : List Nat) : Option Nat :=
  ((List.range 64).map fun i => (cur + 1 + i) % 64).find? fun k => rings.contains k

theorem nextRing_some {cur : Nat} {rings : List Nat} (hc : cur < 64) (h : cur ∈ rings) : ∃ j, nextRing cur rings = some j ∧ j < 64 ∧ j ∈ rings := by
  obtain ⟨j, hj⟩ : ∃ j, nextRing cur rings = some j := by
    rw [← Option.isSome_iff_exists, nextRing, List.find?_isSome]
    exact ⟨cur, List.mem_map.2 ⟨63, by simp, by omega⟩, by simpa using h⟩
  have hm := List.mem_of_find?_eq_some hj
  have hp := List.find?_some hj
  rw [List.mem_map] at hm
  obtain ⟨i, -, rfl⟩ := hm
  exact ⟨_, hj, Nat.mod_lt _ (by decide), by simpa using hp⟩

/-- A turn passed to ring `j`, which has a ready node. -/
theorem Ends.passTurn (hk : KeysRise t.nodes) {p cur j : Nat} {rings : List Nat} (hj : nextRing cur rings = some j) (hlt : j < 64)
    (hh : HasReady t j p) : ∃ u, Ends (Machine.passTurn p cur rings : M s Unit) t () u ∧
      u = { t with rings := u.rings, pool := u.pool } ∧ u.pool[p % 4]'(Nat.mod_lt _ (by decide)) = j ∧
      DeficitsAre t u p j (deficitAt (t.ring j) p + (t.ring j).rec_.quantum) := by
  obtain ⟨v, hv, hf, hr⟩ := Ends.dropDeficits (s := s) hk p
  have hvj : v.ring j = t.ring j := (hr j hlt).1 hh
  let d := deficitAt (t.ring j) p + (t.ring j).rec_.quantum
  let w := v.upd (.ring j ((v.ring j).withDeficit p d))
  have hw : w = { v with rings := w.rings } := State.upd_ring_rest ..
  have hring (i : Nat) (hi : i < 64) : w.ring i = if i = j then (t.ring i).withDeficit p d else v.ring i := by
    refine (State.ring_upd_ring v _ hi).trans ?_
    split
    · rename_i h
      rw [hvj, h]
    · rfl
  refine ⟨w.upd (.pool (v.pool.set (p % 4) j (Nat.mod_lt _ (by decide)))), ?_, ?_, ?_, deficitsAre_of (fun i hi hc => ?_) fun i hi hc => ?_⟩
  · refine Ends.now ?_
    unfold nextRing at hj
    rw [hj]
    exact Ends.bind hv (Ends.now (Ends.bind (u := w) (by rw [hvj]; exact Ends.setDeficit j p d) (Ends.upd _)))
  · rw [State.upd, hw, hf]
  · simp
  · exact (hring i hi).trans (by rw [(hr i hi).1 hc])
  · exact (hring i hi).trans (by rw [if_neg (by rintro rfl; exact hc hh), (hr i hi).2 hc])

/-! ## NODE_START -/

/-- A SIGNAL node is started at once. -/
theorem Ends.startWork_signal (hn : AMap.get? t.nodes k = some n) (h : n.kind = 6) :
    Ends (startWork k n : M s Unit) t () (t.upd (.node k { n with state := .started })) := by
  refine Ends.now ?_
  dsimp only
  split
  · rename_i h3
    exact absurd (h3.symm.trans h) (by decide)
  · rename_i h4
    exact absurd (h4.symm.trans h) (by decide)
  · exact Ends.modNode hn _
  · rename_i h6
    exact absurd h h6

section
variable (hk : KeysRise s.nodes) (hn : AMap.get? s.nodes k = some n) (ht : TurnOf s k n)
include hk hn ht

/-- The node starts and its cost comes off its ring's deficit. -/
theorem execNodeStart_starts (hc : n.cost ≤ deficitAt (s.ring n.ring) n.prio) (hku : KeysRise u.nodes) (h : Ends (startWork k n : M s Unit) s () u) :
    ∃ t, exec (.nodeStart k) s = .next t ∧ t = { u with rings := t.rings } ∧
      DeficitsAre u t n.prio n.ring (deficitAt (s.ring n.ring) n.prio - n.cost) := by
  obtain ⟨t, ht', hf, hd⟩ := Ends.setDeficit_drop (s := s) hku n.prio n.ring (deficitAt (s.ring n.ring) n.prio - n.cost)
  refine ⟨t, execNodeStart_turn hk hn ht ?_, hf, hd⟩
  unfold turnWork
  rw [if_pos (show n.cost ≤ deficitOf (s.ring n.ring) n.prio from hc)]
  exact Ends.bind (Ends.startNode h) ht'

/-- Without the deficit the turn passes to a ring with a node that may start. -/
theorem execNodeStart_passes (hr : n.ring < 64) (hc : deficitAt (s.ring n.ring) n.prio < n.cost) :
    ∃ t, exec (.nodeStart k) s = .next t ∧ t = { s with rings := t.rings, pool := t.pool } ∧
      ∃ j i m, j < 64 ∧ AMap.get? s.nodes i = some m ∧ NodeMay s m ∧ m.prio = n.prio ∧ m.ring = j ∧
        t.pool[n.prio % 4]'(Nat.mod_lt _ (by decide)) = j ∧
        DeficitsAre s t n.prio j (deficitAt (s.ring j) n.prio + (s.ring j).rec_.quantum) := by
  obtain ⟨j, hj, hlt, hm⟩ := nextRing_some (rings := ((peersOf s n).map fun kv => kv.2.ring).dedup) hr
    (List.mem_dedup.2 (List.mem_map.2 ⟨(k, n), (mem_peersOf hk).2 ⟨hn, ht.may, rfl⟩, rfl⟩))
  obtain ⟨⟨i, m⟩, him, hmr⟩ := List.mem_map.1 (List.mem_dedup.1 hm)
  obtain ⟨hi, hmay, hp⟩ := (mem_peersOf hk).1 him
  obtain ⟨hst, hca, hed, hho, -⟩ := id hmay
  obtain ⟨t, ht', hf, hpool, hd⟩ := Ends.passTurn (s := s) hk hj hlt ⟨i, m, hi, hmr, hp, hst, hca, hed, hho⟩
  refine ⟨t, execNodeStart_turn hk hn ht ?_, hf, j, i, m, hlt, hi, hmay, hp, hmr, hpool, hd⟩
  unfold turnWork
  rw [if_neg (show ¬n.cost ≤ deficitOf (s.ring n.ring) n.prio from Nat.not_le.2 hc)]
  exact ht'

end
end Sys2Proof.Machine
end

section
/-! SUPPORT. Words that the Remontoir writes at their homes (R345, R352). -/

namespace Sys2Proof.Machine

variable {s t u v : State} {α β : Type}

/-! ## A write at its home -/

/-- `n` bytes of a number stand at `P`, written at time `w`; what a write does besides to cores, owners, write times and watches apart, nothing differs. -/
structure WordWritten (t u : State) (P n val w : Nat) : Prop where
  frame : u = { t with cores := u.cores, owners := u.owners, lines := u.lines, trains := u.trains, mem := Bytes.write t.mem P n val }
  wts : (u.line P).wts = w

theorem Ends.recallOwner_none (pa : Nat) :
    ∃ u, Ends (recallOwner none pa : M s Unit) t () u ∧ u = { t with cores := u.cores, owners := u.owners } := by
  cases ho : t.ownerOf pa with
  | none => exact ⟨t, Ends.now (by rw [ho]; exact Ends.pure ()), rfl⟩
  | some k =>
    obtain ⟨u, hu, he⟩ := Ends.disown (s := s) (t := t) (pa / 128)
    exact ⟨u, Ends.now (by rw [ho]; exact hu), he⟩

theorem Ends.hitWatches (sector w : Nat) : ∃ u, Ends (Machine.hitWatches sector w : M s Unit) t () u ∧ u = { t with trains := u.trains } :=
  ⟨_, Ends.now (Ends.updAll _), by
    rw [upds_train_list fun z => { z with watch := z.watch.map fun w => { w with hit := true } }]⟩

theorem Ends.homeWrite_none (floor pa n val : Nat) :
    ∃ u w, Ends (homeWrite none floor pa n val : M s Nat) t w u ∧ WordWritten t u pa n val w ∧ floor < w := by
  obtain ⟨t1, h1, e1⟩ := Ends.recallOwner_none (s := s) (t := t) pa
  let w := max (max (t1.line pa).wts (t1.line pa).rts + 1) (floor + 1)
  let t2 := t1.upd (.line (pa / 1024) { t1.line pa with wts := w })
  obtain ⟨t3, h3, e3⟩ := Ends.hitWatches (s := s) (t := t2) (pa / 128) w
  refine ⟨t3.upds (byteUpds pa n val), w, Ends.bind h1 (Ends.bind (Ends.now (Ends.bind (Ends.upd _) (Ends.bind h3 (Ends.pure w))))
    (Ends.bind (Ends.updAll _) (Ends.pure w))), ⟨?_, ?_⟩, by omega⟩
  · have e2 : t2 = { t1 with lines := t2.lines } := rfl
    rw [State.upds_byteUpds, e3, e2, e1]
  · rw [State.upds_byteUpds]
    show (AMap.getD t3.lines (pa / 1024) ⟨0, 0⟩).wts = w
    rw [e3]
    show (AMap.getD (AMap.set t1.lines (pa / 1024) _) (pa / 1024) ⟨0, 0⟩).wts = w
    rw [AMap.getD_set, if_pos rfl]

theorem Ends.placeWrite {ctx va pa n : Nat} (hx : XlAt t 800 ctx false kWrite va pa) (hl : lockedBytes t.locks pa n = false)
    (val floor : Nat) :
    ∃ u w, Ends (Machine.placeWrite (serviceEU ctx) va n val floor : M s Nat) t w u ∧ WordWritten t u pa n val w ∧ floor < w := by
  obtain ⟨u, w, hu, hp⟩ := Ends.homeWrite_none (s := s) (t := t) floor pa n val
  refine ⟨u, w, Ends.bind (Ends.engineX hx) (Ends.now ?_), hp⟩
  rw [hl, if_neg (by decide), if_neg (by simpa using hx.plain)]
  exact hu

/-- A write leaves the translations as they were. -/
theorem WordWritten.xlAt {P n val w core ctx va pa : Nat} {priv : Bool} {kind : BitVec 3} (h : WordWritten t u P n val w)
    (hx : XlAt t core ctx priv kind va pa) : XlAt u core ctx priv kind va pa := by
  rw [h.frame]
  exact ⟨hx.low, hx.xlate, hx.plain⟩

end Sys2Proof.Machine
end

section
/-! SUPPORT. NODE_COMPLETE: the parts of a node's end, and its successors let go on (R10, R352). -/

namespace Sys2Proof.Machine

variable {s t u v : State} {k : Nat} {n : Node}

/-! ## The dispatch of a node -/

theorem nodeDispatch_none (h : NoDispatch s k) : nodeDispatch s k = none := by
  unfold nodeDispatch
  rw [List.find?_eq_none]
  exact fun d hd => by simpa using h d hd

theorem nodeDispatch_some {dk : Nat} {d : Dispatch} (hd : AMap.get? s.dispatches dk = some d) (hk : d.node = some k)
    (hu : ∀ e ∈ s.dispatches, e.2.node = some k → e = (dk, d)) : nodeDispatch s k = some (dk, d) := by
  unfold nodeDispatch
  obtain ⟨e, he⟩ : ∃ e, s.dispatches.find? (fun kv => kv.2.node == some k) = some e := by
    rw [← Option.isSome_iff_exists, List.find?_isSome]
    exact ⟨(dk, d), AMap.mem_of_get? hd, by simpa using hk⟩
  rw [he, hu e (List.mem_of_find?_eq_some he) (by simpa using List.find?_some he)]

/-- The state once the dispatch of the node is gone. -/
def closed (s : State) (k dk : Nat) (n : Node) (d : Dispatch) : State :=
  (s.upd (.dispatch dk none)).upd (.node k { n with se := n.se || d.se, wts := max n.wts d.wts })

theorem Ends.closeDispatch {dk : Nat} {d : Dispatch} (hn : AMap.get? t.nodes k = some n) (hv : d.view = none) :
    Ends (Machine.closeDispatch k dk d : M s Unit) t () (closed t k dk n d) := by
  refine Ends.bind (u := t) (a := ()) ?_ (Ends.bind (Ends.upd _) (Ends.modNode (by simpa using hn) _))
  unfold unpinDispatch
  rw [hv]
  exact Ends.pure ()

/-! ## The parts of a node's end -/

theorem Ends.nodePart {m : M s Unit} (h : Ends m t () u) : Ends (Machine.nodePart k n m : M s Bool) t true u := by
  refine Ends.bind (Ends.tryM h) ?_
  exact Ends.pure true

/-- The release of a node's dispatch, if it has one. -/
def closePart (t : State) (k : Nat) (n : Node) : M s Bool :=
  match nodeDispatch t k with
  | some (dk, d) => nodePart k n (closeDispatch k dk d)
  | none => pure true

/-- The word of a SIGNAL node. -/
def signalPart (k : Nat) (n : Node) : M s Bool :=
  if n.kind ≠ 6 || n.signalled then pure true
  else nodePart k n do
    writeToken k n n.arg0 n.arg1
    modNode k fun x => { x with signalled := true }

/-- The token of a node. -/
def tokenPart (k : Nat) (n : Node) : M s Bool := if n.token = 0 then pure true else nodePart k n (writeToken k n n.token n.tokval)

/-- The node complete and its successors let go on. -/
def completeNode (k : Nat) (n : Node) : M s Unit := do
  upd (.node k { n with state := .complete })
  releaseEdges k n.wts

theorem Ends.signalPart_none (h : n.kind ≠ 6) : Ends (signalPart k n : M s Bool) t true t := by
  unfold signalPart
  rw [if_pos (by simp [h])]
  exact Ends.pure true

theorem Ends.tokenPart_none (h : n.token = 0) : Ends (tokenPart k n : M s Bool) t true t := by
  unfold tokenPart
  rw [if_pos h]
  exact Ends.pure true

section
variable {f : Bool → M s Unit}

theorem Ends.closeThen (h1 : Ends (closePart t k n : M s Bool) t true u) (h2 : Ends (f true) u () v) :
    Ends (match nodeDispatch t k with
      | some (dk, d) => Machine.nodePart k n (Machine.closeDispatch k dk d) >>= f
      | none => Pure.pure true >>= f) t () v := by
  unfold closePart at h1
  cases hd : nodeDispatch t k with
  | none =>
    rw [hd] at h1
    exact Ends.bind h1 h2
  | some d =>
    rw [hd] at h1
    exact Ends.bind h1 h2

theorem Ends.signalThen (h1 : Ends (signalPart k n : M s Bool) t true u) (h2 : Ends (f true) u () v) :
    Ends (if (!true) = true then Pure.pure false >>= f
      else if (decide (n.kind ≠ 6) || n.signalled) = true then Pure.pure true >>= f
      else Machine.nodePart k n (do writeToken k n n.arg0 n.arg1; Machine.modNode k fun x => { x with signalled := true }) >>= f) t () v := by
  unfold signalPart at h1
  rw [if_neg (by decide)]
  split at h1
  · rw [if_pos ‹_›]
    exact Ends.bind h1 h2
  · rw [if_neg ‹_›]
    exact Ends.bind h1 h2

theorem Ends.tokenThen (h1 : Ends (tokenPart k n : M s Bool) t true u) (h2 : Ends (f true) u () v) :
    Ends (if (!true) = true then Pure.pure false >>= f
      else if n.token = 0 then Pure.pure true >>= f
      else Machine.nodePart k n (writeToken k n n.token n.tokval) >>= f) t () v := by
  unfold tokenPart at h1
  rw [if_neg (by decide)]
  split at h1
  · rw [if_pos ‹_›]
    exact Ends.bind h1 h2
  · rw [if_neg ‹_›]
    exact Ends.bind h1 h2

end

/-- NODE_COMPLETE, when each of its parts goes on to the next. -/
theorem execNodeComplete_ends {n1 n2 n3 : Node} {t1 t2 t3 : State} (hn : AMap.get? s.nodes k = some n) (hw : workDone s k n = true)
    (h1 : Ends (closePart s k n : M s Bool) s true t1) (hn1 : AMap.get? t1.nodes k = some n1)
    (h2 : Ends (signalPart k n1 : M s Bool) t1 true t2) (hn2 : AMap.get? t2.nodes k = some n2)
    (h3 : Ends (tokenPart k n2 : M s Bool) t2 true t3) (hn3 : AMap.get? t3.nodes k = some n3)
    (h4 : Ends (completeNode k n3 : M s Unit) t3 () u) : exec (.nodeComplete k) s = .next u := by
  refine Ends.runE (Ends.now ?_)
  rw [hn]
  dsimp only
  rw [hw, if_neg (by decide)]
  refine Ends.closeThen h1 (Ends.now ?_)
  rw [hn1]
  refine Ends.signalThen h2 (Ends.now ?_)
  rw [hn2]
  refine Ends.tokenThen h3 ?_
  rw [if_neg (by decide)]
  refine Ends.now ?_
  rw [hn3]
  exact h4

/-! ## The node complete -/

/-- Only the node `k` differs among the nodes, and their keys rise. -/
structure OnlyNode (s t : State) (k : Nat) (n : Node) : Prop where
  keys : KeysRise t.nodes
  get : AMap.get? t.nodes k = some n
  rest : ∀ j, j ≠ k → AMap.get? t.nodes j = AMap.get? s.nodes j

theorem onlyNode_self (hk : KeysRise s.nodes) (hn : AMap.get? s.nodes k = some n) : OnlyNode s s k n := ⟨hk, hn, fun _ _ => rfl⟩

theorem OnlyNode.upd {n' : Node} (h : OnlyNode s t k n) : OnlyNode s (t.upd (.node k n')) k n' := by
  refine ⟨?_, ?_, fun j hj => ?_⟩
  · rw [State.upd_nodes]
    exact h.keys.set _ _
  · simp
  · rw [← h.rest j hj, State.upd_nodes]
    exact AMap.get?_set_ne _ _ hj

theorem OnlyNode.of_nodes (h : OnlyNode s t k n) (hu : u.nodes = t.nodes) : OnlyNode s u k n := by
  refine ⟨?_, ?_, ?_⟩ <;> rw [hu]
  exacts [h.keys, h.get, h.rest]

/-- A successor that the node `k` lets go on. -/
def Node.letGo (k w : Nat) (m : Node) : Node := { m with edges := m.edges.filter (· != k), wts := max m.wts w }

theorem Ends.releaseEdges (hk : KeysRise t.nodes) (k w : Nat) : ∃ u, Ends (Machine.releaseEdges k w : M s Unit) t () u ∧
    NodesChanged t u (fun m => m.edges.contains k) (Node.letGo k w) :=
  ⟨_, Ends.now (Ends.updAll _), nodesChanged hk (fun m => m.edges.contains k) (Node.letGo k w)⟩

/-- A node's end lets its successors go on and changes nothing but nodes. -/
theorem OnlyNode.completes {s' : State} (h : OnlyNode s' t k n) (he : k ∉ n.edges) :
    ∃ u, Ends (completeNode k n : M s Unit) t () u ∧ u = { t with nodes := u.nodes } ∧
      Freed s' k { n with state := .complete } u.nodes := by
  have h1 := h.upd (n' := { n with state := .complete })
  obtain ⟨u, hu, hc⟩ := Ends.releaseEdges (s := s) h1.keys k n.wts
  refine ⟨u, Ends.bind (Ends.upd _) hu, by rw [hc.frame]; rfl, ?_, fun j m hj hm => ?_⟩
  · rw [hc.get, h1.get]
    simp [he]
  · rw [hc.get, h1.rest j hj, hm]
    simp [Node.letGo]

/-! ## A word written by a node -/

theorem Ends.writeToken {va val : DWord} {P : Nat} (hn : AMap.get? t.nodes k = some n)
    (hx : ServiceRange t n.ctx kWrite va.toNat P 8) (hl : lockedBytes t.locks P 8 = false) :
    ∃ t1 w, Ends (Machine.writeToken k n va val : M s Unit) t () (t1.upd (.node k { n with se := true, wts := max n.wts w })) ∧
      WordWritten t t1 P 8 val.toNat w ∧ n.wts < w := by
  obtain ⟨t1, w, h1, hw, hlt⟩ := Ends.placeWrite (s := s) (hx 0 (by decide)) hl val.toNat n.wts
  have hn1 : AMap.get? t1.nodes k = some n := by rw [hw.frame]; exact hn
  exact ⟨t1, w, Ends.bind h1 (Ends.modNode hn1 _), hw, hlt⟩

/-- The node `k` is `n`, the other nodes are as in `s`, and a word stands at `P` that it has written past what it had. -/
structure NodeWrote (s t : State) (k : Nat) (n : Node) (P floor : Nat) (val : DWord) : Prop where
  only : OnlyNode s t k n
  bytes : ∀ b, Bytes.get t.mem b = if P ≤ b ∧ b < P + 8 then BitVec.ofNat 8 (val.toNat / 256 ^ (b - P)) else Bytes.get s.mem b
  wts : floor < (t.line P).wts

theorem WordWritten.nodeWrote {n' : Node} {P : Nat} {val : DWord} {w floor : Nat} (h : WordWritten s t P 8 val.toNat w)
    (hk : KeysRise s.nodes) (hn : AMap.get? s.nodes k = some n) (hw : floor < w) :
    NodeWrote s (t.upd (.node k n')) k n' P floor val := by
  have hno : t.nodes = s.nodes := by rw [h.frame]
  refine ⟨((onlyNode_self hk hn).of_nodes hno).upd, fun b => ?_, ?_⟩
  · rw [State.upd_mem, h.frame]
    exact Bytes.get_write ..
  · exact h.wts ▸ hw

/-- The node that has written a word is complete. -/
theorem NodeWrote.completes {s' : State} {P floor : Nat} {val : DWord} (h : NodeWrote s' t k n P floor val) (he : k ∉ n.edges) :
    ∃ u, Ends (completeNode k n : M s Unit) t () u ∧ Freed s' k { n with state := .complete } u.nodes ∧ u.line P = t.line P ∧
      ∀ b, Bytes.get u.mem b = if P ≤ b ∧ b < P + 8 then BitVec.ofNat 8 (val.toNat / 256 ^ (b - P)) else Bytes.get s'.mem b := by
  obtain ⟨u, hu, hf, hfr⟩ := h.only.completes (s := s) he
  refine ⟨u, hu, hfr, ?_, fun b => ?_⟩
  · rw [hf]
    rfl
  · rw [hf]
    exact h.bytes b

/-! ## NODE_COMPLETE -/

/-- Nothing of the node keeps it from its end. -/
structure WorkOver (s : State) (n : Node) : Prop where
  started : n.state = .started ∧ n.cause = 0
  free_ : n.held = false ∧ n.jobs = [] ∧ n.todo = []
  runs : CtxRuns s n.ctx

theorem workDone_iff : workDone s k n = true ↔ WorkOver s n ∧ match nodeDispatch s k with
    | some (_, d) => dispatchDone d = true ∧ d.doom = none
    | none => True := by
  have h : WorkOver s n ↔ (n.state == .started && n.cause == 0 && !n.held && n.jobs.isEmpty && n.todo.isEmpty && ctxRuns s n.ctx) = true := by
    simp only [ctxRuns, Bool.and_eq_true, beq_iff_eq, Bool.not_eq_true', List.isEmpty_iff]
    exact ⟨fun ⟨h1, h2, h3⟩ => ⟨⟨⟨⟨h1, h2.1⟩, h2.2.1⟩, h2.2.2⟩, h3⟩, fun ⟨⟨⟨⟨h1, h2⟩, h3⟩, h4⟩, h5⟩ => ⟨h1, ⟨h2, h3, h4⟩, h5⟩⟩
  unfold workDone
  rw [Bool.and_eq_true, h]
  cases nodeDispatch s k with
  | none => simp
  | some x => simp

theorem execNodeComplete_waits (hn : AMap.get? s.nodes k = some n) (hw : ¬workDone s k n = true) : exec (.nodeComplete k) s = .next s := by
  refine Ends.runE (Ends.now ?_)
  rw [hn]
  dsimp only
  rw [if_pos (by simpa using hw)]
  exact Ends.pure ()

section
variable (hk : KeysRise s.nodes) (hn : AMap.get? s.nodes k = some n) (ho : WorkOver s n) (he : k ∉ n.edges)
include hk hn ho he

section
variable (hd : NoDispatch s k)
include hd

omit hk hn he in
/-- A node with no dispatch begins its end. -/
theorem noDispatch_ends : workDone s k n = true ∧ Ends (closePart s k n : M s Bool) s true s := by
  have h := nodeDispatch_none hd
  refine ⟨workDone_iff.2 ⟨ho, by rw [h]; trivial⟩, ?_⟩
  unfold closePart
  rw [h]
  exact Ends.pure true

theorem execNodeComplete_plain (h6 : n.kind ≠ 6) (htk : n.token = 0) : ∃ t, exec (.nodeComplete k) s = .next t ∧
    t = { s with nodes := t.nodes } ∧ Freed s k { n with state := .complete } t.nodes := by
  obtain ⟨hw, h1⟩ := noDispatch_ends ho hd
  obtain ⟨u, hu, hf⟩ := (onlyNode_self hk hn).completes (s := s) he
  exact ⟨u, execNodeComplete_ends hn hw h1 hn (Ends.signalPart_none h6) hn (Ends.tokenPart_none htk) hn hu, hf⟩

theorem execNodeComplete_token {P : Nat} (h6 : n.kind ≠ 6) (htk : n.token ≠ 0) (hx : ServiceRange s n.ctx kWrite n.token.toNat P 8)
    (hl : lockedBytes s.locks P 8 = false) : ∃ t n', exec (.nodeComplete k) s = .next t ∧
      n' = { n with state := .complete, se := true, wts := max n.wts (t.line P).wts } ∧ Freed s k n' t.nodes ∧
      (∀ b, Bytes.get t.mem b = if P ≤ b ∧ b < P + 8 then BitVec.ofNat 8 (n.tokval.toNat / 256 ^ (b - P)) else Bytes.get s.mem b) ∧
      n.wts < (t.line P).wts := by
  obtain ⟨hw, h1⟩ := noDispatch_ends ho hd
  obtain ⟨t1, w, ht, hp, hlt⟩ := Ends.writeToken (s := s) (va := n.token) (val := n.tokval) hn hx hl
  have hnw := hp.nodeWrote (n' := { n with se := true, wts := max n.wts w }) hk hn hlt
  obtain ⟨u, hu, hf, hline, hb⟩ := hnw.completes (s := s) he
  have hwts : (u.line P).wts = w := by rw [hline]; exact hp.wts
  refine ⟨u, _, execNodeComplete_ends hn hw h1 hn (Ends.signalPart_none h6) hn ?_ hnw.only.get hu, rfl, ?_, hb, by rw [hwts]; exact hlt⟩
  · unfold tokenPart
    rw [if_neg htk]
    exact Ends.nodePart ht
  · rw [hwts]
    exact hf

theorem execNodeComplete_signal {P : Nat} (h6 : n.kind = 6) (hs : n.signalled = false) (htk : n.token = 0)
    (hx : ServiceRange s n.ctx kWrite n.arg0.toNat P 8) (hl : lockedBytes s.locks P 8 = false) : ∃ t n', exec (.nodeComplete k) s = .next t ∧
      n' = { n with state := .complete, se := true, signalled := true, wts := max n.wts (t.line P).wts } ∧ Freed s k n' t.nodes ∧
      n.wts < (t.line P).wts ∧
      ∀ b, Bytes.get t.mem b = if P ≤ b ∧ b < P + 8 then BitVec.ofNat 8 (n.arg1.toNat / 256 ^ (b - P)) else Bytes.get s.mem b := by
  obtain ⟨hw, h1⟩ := noDispatch_ends ho hd
  obtain ⟨t1, w, ht, hp, hlt⟩ := Ends.writeToken (s := s) (va := n.arg0) (val := n.arg1) hn hx hl
  have hnw := hp.nodeWrote (n' := { n with se := true, wts := max n.wts w }) hk hn hlt
  have hnw2 : NodeWrote s ((t1.upd (.node k { n with se := true, wts := max n.wts w })).upd
      (.node k { n with se := true, wts := max n.wts w, signalled := true })) k
        { n with se := true, wts := max n.wts w, signalled := true } P n.wts n.arg1 := ⟨hnw.only.upd, hnw.bytes, hnw.wts⟩
  obtain ⟨u, hu, hf, hline, hb⟩ := hnw2.completes (s := s) he
  have hwts : (u.line P).wts = w := by rw [hline]; exact hp.wts
  refine ⟨u, _, execNodeComplete_ends hn hw h1 hn ?_ hnw2.only.get (Ends.tokenPart_none htk) hnw2.only.get hu, rfl, ?_,
    by rw [hwts]; exact hlt, hb⟩
  · unfold signalPart
    rw [if_neg (by simp [h6, hs])]
    exact Ends.nodePart (Ends.bind ht (Ends.modNode hnw.only.get _))
  · rw [hwts]
    exact hf

end

section
variable {dk : Nat} {d : Dispatch} (hd : AMap.get? s.dispatches dk = some d) (hdk : d.node = some k)
  (hu : ∀ e ∈ s.dispatches, e.2.node = some k → e = (dk, d))
include hd hdk hu

theorem execNodeComplete_dispatch (hdone : dispatchDone d = true) (hdm : d.doom = none) (hv : d.view = none) (h6 : n.kind ≠ 6)
    (htk : n.token = 0) : ∃ t, exec (.nodeComplete k) s = .next t ∧
      t = { s with nodes := t.nodes, dispatches := AMap.erase s.dispatches dk } ∧
      Freed s k { n with state := .complete, se := n.se || d.se, wts := max n.wts d.wts } t.nodes := by
  have h := nodeDispatch_some hd hdk hu
  have hc : OnlyNode s (closed s k dk n d) k { n with se := n.se || d.se, wts := max n.wts d.wts } :=
    ((onlyNode_self hk hn).of_nodes (u := s.upd (.dispatch dk none)) (by simp)).upd
  obtain ⟨u, hu', hf, hfr⟩ := hc.completes (s := s) he
  refine ⟨u, execNodeComplete_ends hn (workDone_iff.2 ⟨ho, by rw [h]; exact ⟨hdone, hdm⟩⟩) ?_ hc.get (Ends.signalPart_none h6) hc.get
    (Ends.tokenPart_none htk) hc.get hu', by rw [hf]; rfl, hfr⟩
  unfold closePart
  rw [h]
  exact Ends.nodePart (Ends.closeDispatch hn hv)

end
end
end Sys2Proof.Machine
end

section
/-! SUPPORT. NODE_FAIL: the failure logged, the node replayed or failed for good (R353, R354). -/

namespace Sys2Proof.Machine

variable {s t u v : State} {k : Nat} {n : Node}

theorem AMap.set_set {α : Type} (m : AMap α) (k : Nat) (x y : α) : AMap.set (AMap.set m k x) k y = AMap.set m k y := by
  induction m with
  | nil => simp [AMap.set]
  | cons kv m ih =>
    obtain ⟨j, z⟩ := kv
    by_cases h1 : k < j
    · simp [AMap.set, h1]
    · by_cases h2 : j = k
      · simp [AMap.set, h2]
      · simp [AMap.set, h1, h2, ih]

/-! ## Replay or failure -/

/-- A node may be replayed (R354). -/
def Replays (retry : Nat) (n : Node) : Prop :=
  n.se = false ∧ n.idempotent = true ∧ n.kind ≠ 6 ∧ n.cause ≠ 0x25 ∧ n.cause ≠ 0x26 ∧ n.refused = false ∧ n.replays < retry

theorem mayReplay_iff {retry : Nat} : mayReplay n retry = true ↔ Replays retry n := by
  unfold mayReplay Replays eNodeField ePredFailed
  simp only [Bool.and_eq_true, Bool.not_eq_true', bne_iff_ne, decide_eq_true_eq, and_assoc, ne_eq]

/-- The node as it waits for its replay. -/
def Node.again (n : Node) : Node :=
  { n with state := .waiting, cause := 0, trappc := 0, se := false, replays := n.replays + 1, jobs := [], signalled := false }

/-- The nodes of `s` after the node `k`, which is `n` when it fails, waits again or has failed for good (R353, R354). -/
def FailEnds (s : State) (k retry : Nat) (n : Node) (nodes : AMap Node) : Prop :=
  (Replays retry n → nodes = AMap.set s.nodes k n.again) ∧ (¬Replays retry n → FailedOn s k { n with state := .failed } nodes)

/-- The last part of NODE_FAIL. -/
def settleNode (k : Nat) (n : Node) (again : Bool) : M s Unit :=
  if again = true then upd (.node k n.again)
  else do
    upd (.node k { n with state := .failed })
    failSuccessors k

/-- A successor of a node that has failed for good. -/
def Node.fellWith (m : Node) : Node := { m with cause := if m.cause = 0 then ePredFailed else m.cause }

theorem Ends.failSuccessors (hk : KeysRise t.nodes) (k : Nat) : ∃ u, Ends (Machine.failSuccessors k : M s Unit) t () u ∧
    NodesChanged t u (fun m => m.edges.contains k && m.incomplete) Node.fellWith :=
  ⟨_, Ends.now (Ends.updAll _), nodesChanged hk (fun m => m.edges.contains k && m.incomplete) Node.fellWith⟩

theorem Ends.settleNode {s' : State} {n0 : Node} {retry : Nat} (h : OnlyNode s' t k n0)
    (hs : ∀ x, AMap.set t.nodes k x = AMap.set s'.nodes k x) (n : Node) :
    ∃ u, Ends (Machine.settleNode k n (mayReplay n retry) : M s Unit) t () u ∧ u = { t with nodes := u.nodes } ∧
      FailEnds s' k retry n u.nodes := by
  unfold Machine.settleNode
  by_cases hr : mayReplay n retry = true
  · rw [if_pos hr]
    exact ⟨_, Ends.upd _, rfl, fun _ => hs _, fun hc => absurd (mayReplay_iff.1 hr) hc⟩
  · rw [if_neg hr]
    have h1 := h.upd (n' := { n with state := .failed })
    obtain ⟨u, hu, hc⟩ := Ends.failSuccessors (s := s) h1.keys k
    refine ⟨u, Ends.bind (Ends.upd _) hu, by rw [hc.frame]; rfl, fun hc' => absurd (mayReplay_iff.2 hc') hr, fun _ => ⟨?_, fun j m hj hm => ?_⟩⟩
    · rw [hc.get, h1.get]
      simp [Node.incomplete]
    · rw [hc.get, h1.rest j hj, hm]
      simp [Node.incomplete, Node.fellWith, ePredFailed]

/-! ## The log -/

/-- The second word of a log entry. -/
def logWord (n : Node) (replayed : Bool) : Nat := n.cause.toNat + 256 * ((if n.se then 1 else 0) + (if replayed then 2 else 0))

/-- A log entry stands at `P` (R353); what its writes do besides apart, nothing differs. -/
def Logged (s t : State) (k : Nat) (n : Node) (replayed : Bool) (P : Nat) : Prop :=
  t = { s with cores := t.cores, owners := t.owners, lines := t.lines, trains := t.trains
               mem := Bytes.write (Bytes.write (Bytes.write (Bytes.write s.mem P 8 k) (P + 8) 8 (logWord n replayed)) (P + 16) 8
                 n.trappc.toNat) (P + 24) 8 0 }

theorem Ends.logWrites {va P : Nat} (hx : ServiceRange s n.ctx kWrite va P 32) (hl : s.locks = []) (replayed : Bool) :
    ∃ t, Ends (do
      let _ ← Machine.placeWrite (serviceEU n.ctx) va 8 k 0
      let _ ← Machine.placeWrite (serviceEU n.ctx) (va + 8) 8 (logWord n replayed) 0
      let _ ← Machine.placeWrite (serviceEU n.ctx) (va + 16) 8 n.trappc.toNat 0
      let _ ← Machine.placeWrite (serviceEU n.ctx) (va + 24) 8 0 0
      Pure.pure () : M s Unit) s () t ∧ Logged s t k n replayed P := by
  have hfree (t : State) (h : t.locks = []) (pa n : Nat) : lockedBytes t.locks pa n = false := by rw [h]; rfl
  obtain ⟨t1, w1, h1, p1, -⟩ := Ends.placeWrite (s := s) (hx 0 (by decide)) (hfree s hl _ 8) k 0
  have l1 : t1.locks = [] := by rw [p1.frame]; exact hl
  obtain ⟨t2, w2, h2, p2, -⟩ := Ends.placeWrite (s := s) (p1.xlAt (hx 8 (by decide))) (hfree t1 l1 _ 8) (logWord n replayed) 0
  have l2 : t2.locks = [] := by rw [p2.frame]; exact l1
  obtain ⟨t3, w3, h3, p3, -⟩ := Ends.placeWrite (s := s) (p2.xlAt (p1.xlAt (hx 16 (by decide)))) (hfree t2 l2 _ 8) n.trappc.toNat 0
  have l3 : t3.locks = [] := by rw [p3.frame]; exact l2
  obtain ⟨t4, w4, h4, p4, -⟩ := Ends.placeWrite (s := s) (p3.xlAt (p2.xlAt (p1.xlAt (hx 24 (by decide))))) (hfree t3 l3 _ 8) 0 0
  refine ⟨t4, Ends.bind h1 (Ends.bind h2 (Ends.bind h3 (Ends.bind h4 (Ends.pure ())))), ?_⟩
  unfold Logged
  rw [p4.frame, p3.frame, p2.frame, p1.frame]
  rfl

/-- The bytes of the second word: the cause, whether the node has had a side effect and whether it is replayed, zeros. -/
theorem logWord_byte (n : Node) (replayed : Bool) {j : Nat} (hj : j < 8) : BitVec.ofNat 8 (logWord n replayed / 256 ^ j) =
    if j = 0 then n.cause else if j = 1 then (if n.se = true then 1 else 0) + if replayed = true then 2 else 0 else 0 := by
  have hc := n.cause.isLt
  have hf : (if n.se = true then 1 else 0) + (if replayed = true then 2 else 0) < 4 := by split <;> split <;> omega
  have hb : BitVec.ofNat 8 ((if n.se = true then 1 else 0) + if replayed = true then 2 else 0) =
      (if n.se = true then 1 else 0) + if replayed = true then 2 else 0 := by split <;> split <;> rfl
  unfold logWord
  rw [← hb]
  generalize (if n.se = true then 1 else 0) + (if replayed = true then 2 else 0) = f at hf
  by_cases h0 : j = 0
  · subst h0
    apply BitVec.eq_of_toNat_eq
    simp only [Nat.pow_zero, Nat.div_one, BitVec.toNat_ofNat, if_pos]
    omega
  rw [if_neg h0]
  by_cases h1 : j = 1
  · subst h1
    rw [if_pos rfl]
    congr 1
    omega
  · rw [if_neg h1, Nat.div_eq_of_lt]
    · rfl
    · calc n.cause.toNat + 256 * f < 256 ^ 2 := by omega
        _ ≤ 256 ^ j := Nat.pow_le_pow_right (by decide) (by omega)

/-- The bytes of a log entry. -/
theorem Logged.bytes {replayed : Bool} {P : Nat} (h : Logged s t k n replayed P) (a : Nat) : Bytes.get t.mem a =
    if P ≤ a ∧ a < P + 8 then BitVec.ofNat 8 (k / 256 ^ (a - P))
    else if a = P + 8 then n.cause
    else if a = P + 9 then (if n.se = true then 1 else 0) + if replayed = true then 2 else 0
    else if P + 16 ≤ a ∧ a < P + 24 then BitVec.ofNat 8 (n.trappc.toNat / 256 ^ (a - P - 16))
    else if P ≤ a ∧ a < P + 32 then 0 else Bytes.get s.mem a := by
  unfold Logged at h
  rw [h]
  simp only [Bytes.get_write]
  by_cases h4 : P + 24 ≤ a ∧ a < P + 24 + 8
  · rw [if_pos h4, if_neg (by omega), if_neg (by omega), if_neg (by omega), if_neg (by omega), if_pos (by omega), Nat.zero_div]
    rfl
  rw [if_neg h4]
  by_cases h3 : P + 16 ≤ a ∧ a < P + 16 + 8
  · rw [if_pos h3, if_neg (by omega), if_neg (by omega), if_neg (by omega), if_pos (by omega), Nat.sub_sub]
  rw [if_neg h3]
  by_cases h2 : P + 8 ≤ a ∧ a < P + 8 + 8
  · obtain ⟨j, rfl⟩ := Nat.exists_eq_add_of_le h2.1
    rw [if_pos h2, Nat.add_sub_cancel_left, logWord_byte n replayed (by omega),
      if_neg (by omega : ¬(P ≤ P + 8 + j ∧ P + 8 + j < P + 8)), if_neg (by omega : ¬(P + 16 ≤ P + 8 + j ∧ P + 8 + j < P + 24)),
      if_pos (by omega : P ≤ P + 8 + j ∧ P + 8 + j < P + 32)]
    simp only [show P + 8 + j = P + 8 ↔ j = 0 by omega, show P + 8 + j = P + 9 ↔ j = 1 by omega]
  rw [if_neg h2]
  by_cases h1 : P ≤ a ∧ a < P + 8
  · rw [if_pos h1, if_pos h1]
  · rw [if_neg h1, if_neg h1, if_neg (by omega), if_neg (by omega), if_neg (by omega), if_neg (by omega)]

theorem Ends.logFailure {P : Nat} (he : (s.ring n.ring).rec_.errlog ≠ 0)
    (hx : ServiceRange s n.ctx kWrite ((s.ring n.ring).rec_.errlog + 32 * ((s.ring n.ring).errcount.toNat % 16)) P 32)
    (hl : s.locks = []) (replayed : Bool) : ∃ t, Ends (Machine.logFailure k n replayed : M s Unit) s ()
      (t.upd (.ring n.ring { s.ring n.ring with errcount := (s.ring n.ring).errcount + 1 })) ∧ Logged s t k n replayed P := by
  obtain ⟨t, ht, h⟩ := Ends.logWrites (k := k) hx hl replayed
  have hr : t.ring n.ring = s.ring n.ring := by rw [h]; rfl
  refine ⟨t, Ends.now ?_, h⟩
  dsimp only
  rw [if_neg he]
  refine Ends.bind (Ends.tryM ht) ?_
  rw [← hr]
  exact Ends.modRing n.ring fun r => { r with errcount := r.errcount + 1 }

end Sys2Proof.Machine
end

section
/-! SUPPORT. NODE_FAIL (R353, R354), and the events of nodes together. -/

namespace Sys2Proof.Machine

variable {s t u v : State} {k : Nat} {n : Node}

/-! ## The cause of a failed node -/

/-- The node is finished, or work of its own is still under way. -/
def NotOver (s : State) (n : Node) : Prop :=
  n.state = .complete ∨ n.state = .failed ∨ n.held = true ∨ n.jobs ≠ [] ∨ n.todo ≠ [] ∨ (n.state = .started ∧ ¬CtxRuns s n.ctx)

/-- The cause that a node whose work is gone fails with. -/
def causeOf (s : State) (k : Nat) (n : Node) : Option (Byte × DWord) :=
  match nodeDispatch s k with
  | some (dk, d) => match d.failed with
    | some f => if dispatchGone s dk then some f else none
    | none => if dispatchDone d then d.doom else none
  | none => if n.cause = 0 then none else some (n.cause, n.trappc)

theorem notOver_iff : NotOver s n ↔
    (!n.incomplete || n.held || !n.jobs.isEmpty || !n.todo.isEmpty || (n.state == .started && !ctxRuns s n.ctx)) = true := by
  have hi : (!n.incomplete) = true ↔ n.state = .complete ∨ n.state = .failed := by
    unfold Node.incomplete
    cases n.state <;> decide
  have hc : (!ctxRuns s n.ctx) = true ↔ ¬CtxRuns s n.ctx := by
    unfold ctxRuns CtxRuns
    cases (s.ctx n.ctx).stopped <;> simp
  simp only [NotOver, Bool.or_eq_true, Bool.and_eq_true, hi, hc, Bool.not_eq_true', beq_iff_eq, List.isEmpty_eq_false_iff, or_assoc, ne_eq]

theorem failedCause_notOver (h : NotOver s n) : failedCause s k n = none := by
  unfold failedCause
  rw [if_pos (notOver_iff.1 h)]

theorem failedCause_over (h : ¬NotOver s n) : failedCause s k n = causeOf s k n := by
  unfold failedCause
  exact if_neg (mt notOver_iff.2 h)

theorem not_notOver (h : n.state = .waiting ∨ (n.state = .started ∧ CtxRuns s n.ctx)) (hh : n.held = false) (hj : n.jobs = [])
    (ht : n.todo = []) : ¬NotOver s n := by
  unfold NotOver
  rcases h with h | ⟨h, hc⟩ <;> simp_all

theorem causeOf_plain (hd : NoDispatch s k) : causeOf s k n = if n.cause = 0 then none else some (n.cause, n.trappc) := by
  unfold causeOf
  rw [nodeDispatch_none hd]

theorem dispatchGone_iff {dk : Nat} : dispatchGone s dk = true ↔ ∀ w ∈ s.wheels, w.2.dispatch ≠ dk := by
  unfold dispatchGone
  simp

theorem dispatchDone_iff {d : Dispatch} (hf : d.failed = none) : dispatchDone d = true ↔ d.joined = true ∧ d.ended = d.wheels := by
  unfold dispatchDone
  simp [hf]

section
variable {dk : Nat} {d : Dispatch} (hd : AMap.get? s.dispatches dk = some d) (hdk : d.node = some k)
  (hu : ∀ e ∈ s.dispatches, e.2.node = some k → e = (dk, d))
include hd hdk hu

theorem causeOf_dispatch : causeOf s k n = match d.failed with
    | some f => if dispatchGone s dk then some f else none
    | none => if dispatchDone d then d.doom else none := by
  unfold causeOf
  rw [nodeDispatch_some hd hdk hu]

theorem causeOf_dispatch_none
    (h : (d.failed ≠ none ∧ ¬∀ w ∈ s.wheels, w.2.dispatch ≠ dk) ∨ (d.failed = none ∧ (d.doom = none ∨ ¬(d.joined = true ∧ d.ended = d.wheels)))) :
    causeOf s k n = none := by
  rw [causeOf_dispatch hd hdk hu]
  rcases h with ⟨hf, hg⟩ | ⟨hf, ho⟩
  · obtain ⟨f, hf⟩ := Option.ne_none_iff_exists'.1 hf
    rw [hf]
    exact if_neg (mt dispatchGone_iff.1 hg)
  · rw [hf]
    dsimp only
    rcases ho with ho | ho
    · rw [ho, ite_self]
    · exact if_neg (mt (dispatchDone_iff hf).1 ho)

theorem causeOf_dispatch_some {f : Byte × DWord}
    (h : (d.failed = some f ∧ ∀ w ∈ s.wheels, w.2.dispatch ≠ dk) ∨ (d.failed = none ∧ d.doom = some f ∧ d.joined = true ∧ d.ended = d.wheels)) :
    causeOf s k n = some f := by
  rw [causeOf_dispatch hd hdk hu]
  rcases h with ⟨hf, hg⟩ | ⟨hf, hdm, ho⟩
  · rw [hf]
    exact if_pos (dispatchGone_iff.2 hg)
  · rw [hf]
    dsimp only
    rw [if_pos ((dispatchDone_iff hf).2 ho), hdm]

end

/-! ## NODE_FAIL -/

theorem execNodeFail_waits (hn : AMap.get? s.nodes k = some n) (h : failedCause s k n = none) : exec (.nodeFail k) s = .next s := by
  refine Ends.runE (Ends.now ?_)
  rw [hn]
  dsimp only
  rw [h]
  exact Ends.pure ()

/-- The last part of NODE_FAIL, in `t`, once the node's dispatch is gone. -/
def failNode (t : State) (k : Nat) (n : Node) : M s Unit := do
  logFailure k n (mayReplay n (t.ring n.ring).rec_.retry)
  settleNode k n (mayReplay n (t.ring n.ring).rec_.retry)

theorem execNodeFail_plain (hn : AMap.get? s.nodes k = some n) (hd : NoDispatch s k) (hc : failedCause s k n = some (n.cause, n.trappc))
    (h : Ends (failNode s k n : M s Unit) s () u) : exec (.nodeFail k) s = .next u := by
  refine Ends.runE (Ends.now ?_)
  rw [hn]
  dsimp only
  rw [hc]
  dsimp only
  rw [nodeDispatch_none hd]
  refine Ends.bind (Ends.pure true) ?_
  rw [if_neg (by decide)]
  refine Ends.now ?_
  rw [hn]
  exact h

theorem execNodeFail_dispatch {dk : Nat} {d : Dispatch} {n1 : Node} {c : Byte} {pc : DWord} (hn : AMap.get? s.nodes k = some n)
    (hd : nodeDispatch s k = some (dk, d)) (hc : failedCause s k n = some (c, pc)) (hcl : Ends (closeDispatch k dk d : M s Unit) s () t)
    (hn1 : AMap.get? t.nodes k = some n1)
    (h : Ends (failNode t k { n1 with cause := c, trappc := pc } : M s Unit) t () u) : exec (.nodeFail k) s = .next u := by
  refine Ends.runE (Ends.now ?_)
  rw [hn]
  dsimp only
  rw [hc]
  dsimp only
  rw [hd]
  refine Ends.bind (Ends.tryM hcl) (Ends.bind (Ends.pure true) ?_)
  rw [if_neg (by decide)]
  refine Ends.now ?_
  rw [hn1]
  exact h

theorem Ends.logFailure_off (h : (t.ring n.ring).rec_.errlog = 0) (replayed : Bool) : Ends (Machine.logFailure k n replayed : M s Unit) t () t := by
  refine Ends.now ?_
  dsimp only
  rw [if_pos h]
  exact Ends.pure ()

/-- What NODE_FAIL does of a node whose ring has no log. -/
theorem Ends.failNode_off {s' : State} {n0 : Node} (h : OnlyNode s' t k n0) (hs : ∀ x, AMap.set t.nodes k x = AMap.set s'.nodes k x)
    (he : (t.ring n.ring).rec_.errlog = 0) : ∃ u, Ends (failNode t k n : M s Unit) t () u ∧ u = { t with nodes := u.nodes } ∧
      FailEnds s' k (t.ring n.ring).rec_.retry n u.nodes := by
  obtain ⟨u, hu, hf, hr⟩ := Ends.settleNode (s := s) h hs n
  exact ⟨u, Ends.bind (Ends.logFailure_off he _) hu, hf, hr⟩

section
variable (hk : KeysRise s.nodes) (hn : AMap.get? s.nodes k = some n)
include hk hn

section
variable (ho : ¬NotOver s n) (hd : NoDispatch s k) (hc : n.cause ≠ 0)
include ho hd hc

omit hk hn in
theorem failedCause_plain : failedCause s k n = some (n.cause, n.trappc) := by
  rw [failedCause_over ho, causeOf_plain hd, if_neg hc]

theorem execNodeFail_unlogged (he : (s.ring n.ring).rec_.errlog = 0) : ∃ t, exec (.nodeFail k) s = .next t ∧ t = { s with nodes := t.nodes } ∧
    FailEnds s k (s.ring n.ring).rec_.retry n t.nodes := by
  obtain ⟨u, hu, hf, hr⟩ := Ends.failNode_off (s := s) (onlyNode_self hk hn) (fun _ => rfl) he
  exact ⟨u, execNodeFail_plain hn hd (failedCause_plain ho hd hc) hu, hf, hr⟩

theorem execNodeFail_logged {P : Nat} (he : (s.ring n.ring).rec_.errlog ≠ 0)
    (hx : ServiceRange s n.ctx kWrite ((s.ring n.ring).rec_.errlog + 32 * ((s.ring n.ring).errcount.toNat % 16)) P 32) (hl : s.locks = [])
    (hr : n.ring < 64) : ∃ t, exec (.nodeFail k) s = .next t ∧ FailEnds s k (s.ring n.ring).rec_.retry n t.nodes ∧
      t.rings.toList = s.rings.toList.set n.ring { s.ring n.ring with errcount := (s.ring n.ring).errcount + 1 } ∧
      ∃ t1, Logged s t1 k n (mayReplay n (s.ring n.ring).rec_.retry) P ∧ t.mem = t1.mem := by
  obtain ⟨t1, h1, hlog⟩ := Ends.logFailure (k := k) he hx hl (mayReplay n (s.ring n.ring).rec_.retry)
  let t2 := t1.upd (.ring n.ring { s.ring n.ring with errcount := (s.ring n.ring).errcount + 1 })
  have h2 : t2 = { t1 with rings := t2.rings } := State.upd_ring_rest ..
  have hno : t2.nodes = s.nodes := by rw [h2, hlog]
  have hri : t2.rings.toList = s.rings.toList.set n.ring { s.ring n.ring with errcount := (s.ring n.ring).errcount + 1 } := by
    have h1r : t1.rings = s.rings := by rw [hlog]
    simp only [t2, State.upd, dif_pos hr, Vector.toList_set, h1r]
  obtain ⟨u, hu, hf, hfe⟩ := Ends.settleNode (s := s) (s' := s) (t := t2) (retry := (s.ring n.ring).rec_.retry) ((onlyNode_self hk hn).of_nodes hno)
    (fun x => by rw [hno]) n
  refine ⟨u, execNodeFail_plain hn hd (failedCause_plain ho hd hc) (Ends.bind h1 hu), hfe, ?_, t1, hlog, ?_⟩
  · rw [hf]
    exact hri
  · rw [hf, h2]

end

theorem execNodeFail_doomed {dk : Nat} {d : Dispatch} {c : Byte} {pc : DWord} (hd : nodeDispatch s k = some (dk, d))
    (hc : failedCause s k n = some (c, pc)) (hv : d.view = none) (he : (s.ring n.ring).rec_.errlog = 0) :
    ∃ t, exec (.nodeFail k) s = .next t ∧ t = { s with nodes := t.nodes, dispatches := AMap.erase s.dispatches dk } ∧
      FailEnds s k (s.ring n.ring).rec_.retry { n with se := n.se || d.se, wts := max n.wts d.wts, cause := c, trappc := pc } t.nodes := by
  have h1 : OnlyNode s (closed s k dk n d) k { n with se := n.se || d.se, wts := max n.wts d.wts } :=
    ((onlyNode_self hk hn).of_nodes (u := s.upd (.dispatch dk none)) (by simp)).upd
  obtain ⟨u, hu, hf, hr⟩ := Ends.failNode_off (s := s) (n := { n with se := n.se || d.se, wts := max n.wts d.wts, cause := c, trappc := pc })
    h1 (fun x => AMap.set_set ..) he
  exact ⟨u, execNodeFail_dispatch hn hd hc (Ends.closeDispatch hn hv) h1.get hu, by rw [hf]; rfl, hr⟩

end
/-! ## The events of nodes -/

theorem Reach.nodes_keys (h : Reach s t) (hk : KeysRise s.nodes) : KeysRise t.nodes :=
  h.keep (P := fun t => KeysRise t.nodes) (fun t u ht => by
    rw [State.upd_nodes]
    split
    exacts [ht.set _ _, ht]) hk

/-- Settles O50: each event of a node by what the node, its dispatch and its ring let it do. -/
theorem nodeEvents : Obligations.NodeEvents := by
  refine ⟨fun s k n hn hk => ?_, fun s k n hn hk hr => ?_⟩
  · refine ⟨execNodeStart_waits hk hn, fun ht hr => ⟨fun hc => ⟨fun h6 => ?_, fun q hq => ?_⟩, execNodeStart_passes hk hn ht hr⟩,
      fun h => execNodeComplete_waits hn fun hw => ?_, fun hst hca hh hj ht hrun he => ?_⟩
    · obtain ⟨t, ht'⟩ := execNodeStart_starts hk hn ht hc (hk.set _ _) (Ends.startWork_signal hn h6)
      exact ⟨t, _, ht'.1, rfl, ht'.2⟩
    · exact execNodeStart_starts hk hn ht hc (q.2.nodes_keys hk) fun _ => ⟨q.2, hq⟩
    · obtain ⟨⟨⟨hst, hca⟩, ⟨hh, hj, ht⟩, hc⟩, -⟩ := workDone_iff.1 hw
      simp [hst, hca, hh, hj, ht, hc] at h
    · have ho : WorkOver s n := ⟨⟨hst, hca⟩, ⟨hh, hj, ht⟩, hrun⟩
      refine ⟨fun hd => execNodeComplete_plain hk hn ho he hd, fun P hd => execNodeComplete_token hk hn ho he hd,
        fun P hd => execNodeComplete_signal hk hn ho he hd, fun dk d hd hdk hu => ⟨fun h => ?_, fun hjo hf hdm hen => ?_⟩⟩
      · refine execNodeComplete_waits hn fun hw => ?_
        obtain ⟨-, hw⟩ := workDone_iff.1 hw
        rw [nodeDispatch_some hd hdk hu] at hw
        obtain ⟨hdone, hdm⟩ := hw
        have hf : d.failed = none := by
          unfold dispatchDone at hdone
          simp_all
        obtain ⟨hjo, hen⟩ := (dispatchDone_iff hf).1 hdone
        simp [hjo, hf, hdm, hen] at h
      · exact execNodeComplete_dispatch hk hn ho he hd hdk hu ((dispatchDone_iff hf).2 ⟨hjo, hen⟩) hdm
  · dsimp only
    refine ⟨fun h => execNodeFail_waits hn ?_, fun hst hh hj ht => ?_⟩
    · by_cases ho : NotOver s n
      · exact failedCause_notOver ho
      · have hd : NoDispatch s k ∧ n.cause = 0 := by
          unfold NotOver at ho
          tauto
        rw [failedCause_over ho, causeOf_plain hd.1, if_pos hd.2]
    · have ho := not_notOver hst hh hj ht
      refine ⟨fun hd hc => ⟨execNodeFail_unlogged hk hn ho hd hc, fun P he hx hl => ?_⟩, fun dk d c pc hd hdk hu => ⟨fun h => ?_, fun h hv he => ?_⟩⟩
      · obtain ⟨t, ht', hends, hri, t1, hlog, hm⟩ := execNodeFail_logged hk hn ho hd hc he hx hl hr
        refine ⟨t, ht', hends, hri, fun b hb a => ?_⟩
        obtain rfl : b = mayReplay n (s.ring n.ring).rec_.retry := Bool.eq_iff_iff.2 (hb.trans mayReplay_iff.symm)
        rw [hm]
        exact hlog.bytes a
      · exact execNodeFail_waits hn (by rw [failedCause_over ho]; exact causeOf_dispatch_none hd hdk hu h)
      · exact execNodeFail_doomed hk hn (nodeDispatch_some hd hdk hu)
          (by rw [failedCause_over ho]; exact causeOf_dispatch_some hd hdk hu h) hv he

end Sys2Proof.Machine
end

section
/-! SUPPORT. A run that begins elsewhere, in a state that differs in the place of one train's entry alone, goes the same way: the reads of a traversal (R333). -/

namespace Sys2Proof.Machine

variable {s s' t u : State} {α β : Type} {id : Nat}

/-! ## An entry written again -/

/-- The map with the value of a key written again: in a map whose keys do not rise the entry may stand twice. -/
def againAt (m : AMap α) (k : Nat) : AMap α :=
  match AMap.get? m k with
  | some x => AMap.set m k x
  | none => m

theorem againAt_some {m : AMap α} {k : Nat} {x : α} (h : AMap.get? m k = some x) : againAt m k = AMap.set m k x := by
  unfold againAt
  rw [h]

@[simp] theorem get?_againAt (m : AMap α) (k j : Nat) : AMap.get? (againAt m k) j = AMap.get? m j := by
  cases h : AMap.get? m k with
  | none => unfold againAt; rw [h]
  | some x =>
    rw [againAt_some h, AMap.get?_set]
    split
    · rename_i hj
      rw [hj, h]
    · rfl

theorem set_comm (m : AMap α) {j k : Nat} (hjk : j ≠ k) (x y : α) : AMap.set (AMap.set m j x) k y = AMap.set (AMap.set m k y) j x := by
  induction m with
  | nil => grind [AMap.set]
  | cons kv m ih => grind [AMap.set]

theorem againAt_set (m : AMap α) (k j : Nat) (y : α) : againAt (AMap.set m j y) k = AMap.set (againAt m k) j y := by
  by_cases hj : j = k
  · subst hj
    rw [againAt_some (AMap.get?_set_self m j y), AMap.set_set]
    cases h : AMap.get? m j with
    | none => unfold againAt; rw [h]
    | some x => rw [againAt_some h, AMap.set_set]
  · cases h : AMap.get? m k with
    | none =>
      have h' : AMap.get? (AMap.set m j y) k = none := by rw [AMap.get?_set_ne _ _ (Ne.symm hj), h]
      unfold againAt
      rw [h, h']
    | some x =>
      rw [againAt_some h, againAt_some (by rw [AMap.get?_set_ne _ _ (Ne.symm hj), h]), set_comm _ hj]

/-- The entries of a map written into another, each changed. -/
def putEntries (g : α → α) (m : AMap α) (l : AMap α) : AMap α := l.foldl (fun m kv => AMap.set m kv.1 (g kv.2)) m

theorem againAt_putEntries (g : α → α) (l : AMap α) (m : AMap α) (k : Nat) : againAt (putEntries g m l) k = putEntries g (againAt m k) l := by
  unfold putEntries
  induction l generalizing m with
  | nil => rfl
  | cons kv l ih => rw [List.foldl_cons, List.foldl_cons, ih, againAt_set]

/-- An entry that stands first of its key among the written ones may be written before them too. -/
theorem putEntries_set (g : α → α) (p : Nat × α → Bool) (l m : AMap α) {k : Nat} {x : α} (h : AMap.get? l k = some x) (hp : p (k, x) = true) :
    putEntries g (AMap.set m k (g x)) (l.filter p) = putEntries g m (l.filter p) := by
  induction l generalizing m with
  | nil => cases h
  | cons kv l ih =>
    obtain ⟨j, z⟩ := kv
    by_cases hj : j = k
    · subst hj
      simp only [AMap.get?, if_pos, Option.some.injEq] at h
      subst h
      unfold putEntries
      rw [List.filter_cons_of_pos hp, List.foldl_cons, List.foldl_cons, AMap.set_set]
    · have h' : AMap.get? l k = some x := by simpa [AMap.get?, hj] using h
      by_cases hz : p (j, z) = true
      · rw [List.filter_cons_of_pos hz]
        have := ih (AMap.set m j (g z)) h'
        unfold putEntries at this ⊢
        rw [List.foldl_cons, List.foldl_cons, ← this, set_comm _ (Ne.symm hj)]
      · rw [List.filter_cons_of_neg hz]
        exact ih m h'

/-- The entry written again is written no other way among those that a filter leaves. -/
theorem putEntries_againAt (g : α → α) (p : Nat × α → Bool) (l m : AMap α) (k : Nat) :
    putEntries g m ((againAt l k).filter p) = putEntries g m (l.filter p) := by
  cases h : AMap.get? l k with
  | none => unfold againAt; rw [h]
  | some x =>
    rw [againAt_some h]
    induction l generalizing m with
    | nil => cases h
    | cons kv l ih =>
      obtain ⟨j, z⟩ := kv
      by_cases hkj : k < j
      · rw [AMap.set, if_pos hkj]
        by_cases hp : p (k, x) = true
        · rw [List.filter_cons_of_pos hp]
          exact putEntries_set g p _ m h hp
        · rw [List.filter_cons_of_neg hp]
      · rw [AMap.set, if_neg hkj]
        by_cases hj : j = k
        · simp only [AMap.get?, hj, if_pos, Option.some.injEq] at h
          rw [if_pos hj, h, hj]
        · rw [if_neg hj]
          have h' : AMap.get? l k = some x := by simpa [AMap.get?, hj] using h
          by_cases hp : p (j, z) = true
          · rw [List.filter_cons_of_pos hp, List.filter_cons_of_pos hp]
            exact ih _ h'
          · rw [List.filter_cons_of_neg hp, List.filter_cons_of_neg hp]
            exact ih _ h'

/-! ## Computations that go the same way -/

/-- The state with the entry of one train written again. -/
def State.againAt (t : State) (id : Nat) : State := { t with trains := Machine.againAt t.trains id }

/-- Where `m'` ends from a state with the train's entry written again, `m` ends from the state with the same answer, and their ends differ in no more. -/
def Parallels (id : Nat) (m : M s α) (m' : M s' α) : Prop :=
  ∀ (t : State) (h : Reach s t) (h' : Reach s' (t.againAt id)) (a : α) (r : Run s'), m' ⟨t.againAt id, h'⟩ = .ok (a, r) →
    ∃ r' : Run s, m ⟨t, h⟩ = .ok (a, r') ∧ r.1 = r'.1.againAt id

theorem Parallels.pure (a : α) : Parallels id (Pure.pure a : M s α) (Pure.pure a : M s' α) := by
  rintro t h h' b r ⟨⟩
  exact ⟨⟨t, h⟩, rfl, rfl⟩

theorem Parallels.bind {m : M s α} {m' : M s' α} {f : α → M s β} {f' : α → M s' β} (hm : Parallels id m m') (hf : ∀ a, Parallels id (f a) (f' a)) :
    Parallels id (m >>= f) (m' >>= f') := by
  intro t h h' b r hr
  rw [M.bind_run] at hr
  cases h1 : m' ⟨t.againAt id, h'⟩ with
  | error e =>
    rw [h1] at hr
    cases hr
  | ok x =>
    obtain ⟨a, r1, h2⟩ := x
    rw [h1] at hr
    obtain ⟨u, hu, rfl⟩ := hm t h h' a _ h1
    obtain ⟨v, hv, e⟩ := hf a u.1 u.2 h2 b r hr
    exact ⟨v, by rw [M.bind_run, hu]; exact hv, e⟩

theorem Parallels.now {f : State → M s α} {f' : State → M s' α} (he : ∀ t : State, f' (t.againAt id) = f' t) (hf : ∀ t, Parallels id (f t) (f' t)) :
    Parallels id (Machine.now >>= f) (Machine.now >>= f') := by
  intro t h h' a r hr
  rw [M.bind_run] at hr
  obtain ⟨u, hu, e⟩ := hf t t h h' a r (by rw [← he]; exact hr)
  exact ⟨u, by rw [M.bind_run]; exact hu, e⟩

theorem Parallels.stop (e : Stop) : Parallels id (stop e : M s α) (stop e : M s' α) := fun _ _ _ _ _ h => nomatch h

theorem Parallels.need (b : Bool) (e : Stop) : Parallels id (need b e : M s Unit) (need b e : M s' Unit) := by
  unfold Machine.need
  cases b
  exacts [.stop e, .pure ()]

theorem Parallels.upd {x : Upd} (hx : ∀ t : State, (t.againAt id).upd x = (t.upd x).againAt id) :
    Parallels id (upd x : M s Unit) (upd x : M s' Unit) := by
  rintro t h h' a r ⟨⟩
  exact ⟨⟨t.upd x, h.step x⟩, rfl, hx t⟩

theorem Parallels.ite {c : Prop} [Decidable c] {m n : M s α} {m' n' : M s' α} (hm : Parallels id m m') (hn : Parallels id n n') :
    Parallels id (if c then m else n) (if c then m' else n') := by
  split
  exacts [hm, hn]

theorem Parallels.mapM {f : α → M s β} {f' : α → M s' β} (hf : ∀ a, Parallels id (f a) (f' a)) (l : List α) :
    Parallels id (l.mapM f) (l.mapM f') := by
  induction l with
  | nil => exact .pure []
  | cons a l ih =>
    rw [List.mapM_cons, List.mapM_cons]
    exact .bind (hf a) fun _ => .bind ih fun _ => .pure _

theorem Parallels.forM {f : α → M s Unit} {f' : α → M s' Unit} (hf : ∀ a, Parallels id (f a) (f' a)) (l : List α) :
    Parallels id (l.forM f) (l.forM f') := by
  induction l with
  | nil => exact .pure ()
  | cons a l ih => exact .bind (hf a) fun _ => ih

/-! ## Writes and reads at their homes -/

theorem Parallels.disown (sector : Nat) : Parallels id (disown sector : M s Unit) (disown sector : M s' Unit) := by
  refine .now (fun _ => rfl) fun t => ?_
  cases AMap.get? t.owners sector with
  | none => exact .pure _
  | some o => exact .bind (.upd fun _ => rfl) fun _ => .upd fun _ => rfl

theorem Parallels.recallOwner (by_ : Option Nat) (pa : Nat) : Parallels id (recallOwner by_ pa : M s Unit) (recallOwner by_ pa : M s' Unit) := by
  refine .now (fun _ => rfl) fun t => ?_
  cases t.ownerOf pa with
  | none => exact .pure _
  | some k => exact .ite (.pure _) (.disown _)

theorem Parallels.touchOwn (k pa : Nat) : Parallels id (touchOwn k pa : M s Unit) (touchOwn k pa : M s' Unit) :=
  .now (fun _ => rfl) fun _ => .ite (.upd fun _ => rfl) (.pure _)

/-- The watch of a train is hit. -/
def Train.watchHit (x : Train) : Train := { x with watch := x.watch.map fun w => { w with hit := true } }

/-- A write at time `wts` hits the train's watch. -/
def Train.watches (sector wts : Nat) (x : Train) : Bool :=
  match x.watch with
  | some w => w.sector == sector && w.wts < wts && !w.hit
  | none => false

theorem Parallels.hitWatches (sector wts : Nat) : Parallels id (hitWatches sector wts : M s Unit) (hitWatches sector wts : M s' Unit) := by
  intro t h h' a r hr
  have hl (v : State) : v.upds ((v.trains.filter fun kv => kv.2.watches sector wts).map fun kv => .train kv.1 (some kv.2.watchHit)) =
      { v with trains := putEntries (fun x => x.watchHit.norm) v.trains (v.trains.filter fun kv => kv.2.watches sector wts) } :=
    upds_train_list Train.watchHit _ v
  have hr' := (updAll_ok _ _).symm.trans hr
  cases hr'
  refine ⟨_, updAll_ok _ ⟨t, h⟩, ?_⟩
  refine (hl _).trans (Eq.trans ?_ (congrArg (State.againAt · id) (hl t)).symm)
  simp only [State.againAt, againAt_putEntries, putEntries_againAt]

theorem Parallels.putMem (a n v : Nat) : Parallels id (putMem a n v : M s Unit) (putMem a n v : M s' Unit) := by
  unfold Machine.putMem
  induction n generalizing a v with
  | zero => exact .pure ()
  | succ n ih => exact .bind (.upd fun _ => rfl) fun _ => ih _ _

theorem Parallels.takeWts (pa floor : Nat) : Parallels id (takeWts pa floor : M s Nat) (takeWts pa floor : M s' Nat) :=
  .now (fun _ => rfl) fun _ => .bind (.upd fun _ => rfl) fun _ => .bind (.hitWatches _ _) fun _ => .pure _

theorem Parallels.homeWrite (by_ : Option Nat) (floor pa n v : Nat) :
    Parallels id (homeWrite by_ floor pa n v : M s Nat) (homeWrite by_ floor pa n v : M s' Nat) :=
  .bind (.recallOwner _ _) fun _ => .bind (.takeWts _ _) fun _ => .bind (.putMem _ _ _) fun _ => .pure _

theorem Parallels.homeRead (by_ : Option Nat) (pa n : Nat) : Parallels id (homeRead by_ pa n : M s Nat) (homeRead by_ pa n : M s' Nat) :=
  .bind (.recallOwner _ _) fun _ => .now (fun _ => rfl) fun _ => .pure _

/-! ## Translations -/

theorem Parallels.setAD (l : Leaf) (kind : BitVec 3) : Parallels id (setAD l kind : M s Nat) (setAD l kind : M s' Nat) := by
  unfold Machine.setAD
  exact .ite (.pure _) (.bind (.homeWrite _ _ _ _ _) fun _ => .pure _)

theorem Parallels.installL3 (die : Nat) (e : Tlb) : Parallels id (installL3 die e : M s Unit) (installL3 die e : M s' Unit) :=
  .now (fun _ => rfl) fun _ => .upd fun _ => rfl

/-- The walk of an engine, which waits for a walker. -/
def walkAt (t : State) (core ctx va : Nat) (kind : BitVec 3) : M s Tlb := do
  need (!walkersBusy t (dieOf core) ctx) .wait
  match walkTable t.mem (t.ctx ctx).ptbase.toNat va with
  | .absent_ => stop (.held (BitVec.ofNat 64 (va / 65536 * 65536)) kind false false)
  | .malformed => stop (.held (BitVec.ofNat 64 (va / 65536 * 65536)) kind false true)
  | .leaf l =>
    if rightsOk (pteR l.e) (pteW l.e) (pteX l.e) kind then do
      let e ← setAD l kind
      let x := tlbOf (t.tagOf ctx) va e l.big
      installL3 (dieOf core) x
      pure x
    else stop (.held (BitVec.ofNat 64 (va / 65536 * 65536)) kind true false)

theorem Parallels.walkAt (t : State) (core ctx va : Nat) (kind : BitVec 3) :
    Parallels id (walkAt t core ctx va kind : M s Tlb) (walkAt t core ctx va kind : M s' Tlb) := by
  refine .bind (.need _ _) fun _ => ?_
  cases walkTable t.mem (t.ctx ctx).ptbase.toNat va with
  | absent_ => exact .stop _
  | malformed => exact .stop _
  | leaf l => exact .ite (.bind (.setAD _ _) fun _ => .bind (.installL3 _ _) fun _ => .pure _) (.stop _)

theorem Parallels.walkNow (core ctx va : Nat) (kind : BitVec 3) :
    Parallels id (walkNow core ctx va kind : M s Tlb) (walkNow core ctx va kind : M s' Tlb) := by
  refine .now (fun _ => rfl) fun t => ?_
  dsimp only
  cases tlbFind (t.l3Of (dieOf core)) (t.tagOf ctx) va with
  | none => exact .walkAt t core ctx va kind
  | some e => exact .ite (.stop _) (.ite (.walkAt t core ctx va kind) (.pure _))

/-! ## Loads -/

theorem Parallels.chimeCount (core : Nat) (tag : BitVec 16) (ctx va : Nat) :
    Parallels id (chimeCount core tag ctx va : M s Unit) (chimeCount core tag ctx va : M s' Unit) := by
  refine .now (fun _ => rfl) fun t => ?_
  dsimp only
  cases tlbFind (t.l3Of (dieOf core)) tag va with
  | none => exact .pure _
  | some e => exact .ite (.pure _) (.bind (.upd fun _ => rfl) fun _ => .ite (.upd fun _ => rfl) (.pure _))

theorem Parallels.chimeAll (core ctx : Nat) (acc : List (Nat × Nat)) :
    Parallels id (chimeAll core ctx acc : M s Unit) (chimeAll core ctx acc : M s' Unit) := by
  refine .now (fun _ => rfl) fun t => .forM (fun k => ?_) _
  cases acc.find? fun a => a.2 / 128 == k with
  | none => exact .pure _
  | some a => exact .chimeCount _ _ _ _

theorem Parallels.fillLine (core lease pa : Nat) : Parallels id (fillLine core lease pa : M s Unit) (fillLine core lease pa : M s' Unit) :=
  .bind (.recallOwner _ _) fun _ => .now (fun _ => rfl) fun _ => .bind (.upd fun _ => rfl) fun _ => .upd fun _ => rfl

theorem Parallels.fill (core ctx : Nat) (l : Load) (a : LaneAcc) (c : Core) :
    Parallels id (loadLane.fill core ctx l a c : M s (Nat × Nat)) (loadLane.fill core ctx l a c : M s' (Nat × Nat)) :=
  .now (fun _ => rfl) fun _ => .bind (.fillLine _ _ _) fun _ => .now (fun _ => rfl) fun _ => .pure _

theorem fbRead_againAt (t : State) (c off : Nat) : fbRead (t.againAt id) c off = fbRead t c off := by
  have h : (t.againAt id).replayBusy c = t.replayBusy c := by
    unfold State.replayBusy State.againAt
    simp only [get?_againAt]
    rfl
  unfold fbRead
  rw [h]
  rfl

theorem mmioRead_againAt (t : State) (off n : Nat) : mmioRead (t.againAt id) off n = mmioRead t off n := by
  unfold mmioRead mmioWord
  rw [fbRead_againAt]
  rfl

theorem Parallels.loadLane (core ctx : Nat) (fifo : List Write) (l : Load) (a : LaneAcc) :
    Parallels id (loadLane core ctx fifo l a : M s (Nat × Nat)) (loadLane core ctx fifo l a : M s' (Nat × Nat)) := by
  unfold Machine.loadLane
  cases fifoRead fifo a.pa l.n
  case fwd v => exact .pure _
  case clear | waits =>
    refine .now (fun t => by rw [mmioRead_againAt]; rfl) fun t => .ite (.pure _) (.ite
      (.bind (.homeRead _ _ _) fun _ => .now (fun _ => rfl) fun _ => .bind (.upd fun _ => rfl) fun _ => .pure _) ?_)
    dsimp only
    cases AMap.get? (t.core core).l1 (a.pa / 1024) with
    | none => exact .ite (.bind (.touchOwn _ _) fun _ => .pure _) (.fill _ _ _ _ _)
    | some x => exact .ite (.bind (.touchOwn _ _) fun _ => .pure _) (.ite (.pure _) (.fill _ _ _ _ _))

/-! ## A traversal -/

theorem Parallels.recordAt (eu : EU) (e : Tlb) (va n : Nat) :
    Parallels id (recordAt eu e va n : M s (Option Nat)) (recordAt eu e va n : M s' (Option Nat)) := by
  refine .now (fun _ => rfl) fun t => ?_
  cases accessCause t false false e va with
  | some _ => exact .pure _
  | none => exact .bind (.chimeAll _ _ _) fun _ => .bind (.loadLane _ _ _ _ _) fun _ => .pure _

theorem Parallels.recordOf (eu : EU) (va n : Nat) :
    Parallels id (recordOf eu va n : M s (Option Nat)) (recordOf eu va n : M s' (Option Nat)) := by
  unfold Machine.recordOf
  exact .ite (.pure _) (.bind (.walkNow _ _ _ _) fun _ => .recordAt _ _ _ _)

theorem Parallels.walkLevel (eu : EU) (obj : Bool) (o d : List Word) (tmin tmax : Word) (n : Nat) (frontier seen : List Nat) :
    Parallels id (walkLevel eu obj o d tmin tmax n frontier seen : M s (List Nat)) (walkLevel eu obj o d tmin tmax n frontier seen : M s' (List Nat)) := by
  induction n generalizing frontier seen with
  | zero => exact .pure _
  | succ n ih =>
    refine .ite (.pure _) (.bind (.mapM (fun w => ?_) _) fun _ => .bind (ih _ _) fun _ => .pure _)
    split
    · refine .bind (.recordOf _ _ _) fun v => ?_
      cases v with
      | none => exact .pure _
      | some v => exact .pure _
    · exact .pure _

theorem Parallels.instHits (eu : EU) (va : Nat) (ray : List Word) (m : Byte) (tmax : Word) :
    Parallels id (instHits eu va ray m tmax : M s (List Hit)) (instHits eu va ray m tmax : M s' (List Hit)) := by
  refine .bind (.recordOf _ _ _) fun v => ?_
  cases v with
  | none => exact .pure _
  | some v =>
    refine .ite (.pure _) (.bind (.walkLevel _ _ _ _ _ _ _ _ _) fun _ => .bind (.mapM (fun x => ?_) _) fun _ => .pure _)
    refine .bind (.recordOf _ _ _) fun w => ?_
    cases w with
    | none => exact .pure _
    | some w => exact .pure _

theorem Parallels.trace (eu : EU) (root : Nat) (ray : List Word) (m : Byte) (tmax : Word) :
    Parallels id (trace eu root ray m tmax : M s (List Hit)) (trace eu root ray m tmax : M s' (List Hit)) :=
  .bind (.walkLevel _ _ _ _ _ _ _ _ _) fun _ => .bind (.mapM (fun _ => .instHits _ _ _ _ _) _) fun _ => .pure _

end Sys2Proof.Machine
end

section
/-! SUPPORT. Lane vectors and masks as functions of the lane. -/

namespace Sys2Proof

variable {α : Type}

theorem PerLane.ext_at {v w : PerLane α} (h : ∀ K, K < 32 → v.at K = w.at K) : v = w := by
  apply Vector.ext
  intro i hi
  have hv := h i hi
  simpa only [PerLane.at, Nat.mod_eq_of_lt hi] using hv

theorem PerLane.at_set (v : PerLane α) {L K : Nat} (hL : L < 32) (hK : K < 32) (x : α) :
    PerLane.at (v.set (L % 32) x (Nat.mod_lt _ (by decide))) K = if K = L then x else v.at K := by
  simp only [PerLane.at, Vector.getElem_set, Nat.mod_eq_of_lt hL, Nat.mod_eq_of_lt hK, eq_comm]

/-- The sum that a mask is made of, over the lanes below `n`. -/
theorem testBit_maskSum (f : Nat → Bool) (n : Nat) :
    (List.range n).foldl (fun acc L => if f L then acc + 2 ^ L else acc) 0 < 2 ^ n ∧
    ∀ K, ((List.range n).foldl (fun acc L => if f L then acc + 2 ^ L else acc) 0).testBit K = (decide (K < n) && f K) := by
  induction n with
  | zero => simp
  | succ n ih =>
    obtain ⟨hlt, hbit⟩ := ih
    rw [List.range_succ, List.foldl_append]
    simp only [List.foldl_cons, List.foldl_nil]
    generalize (List.range n).foldl (fun acc L => if f L then acc + 2 ^ L else acc) 0 = a at hlt hbit
    have hp : 2 ^ (n + 1) = 2 ^ n + 2 ^ n := by rw [Nat.pow_succ]; omega
    cases hf : f n with
    | false =>
      refine ⟨by simp; omega, fun K => ?_⟩
      by_cases hK : K = n
      · simp [hbit, hK, hf]
      · simp [hbit, show K < n + 1 ↔ K < n by omega]
    | true =>
      rw [if_pos rfl]
      refine ⟨by omega, fun K => ?_⟩
      rcases Nat.lt_trichotomy K n with hK | rfl | hK
      · rw [Nat.add_comm, Nat.testBit_two_pow_add_gt hK, hbit]
        simp [hK, Nat.lt_succ_of_lt hK]
      · rw [Nat.add_comm, Nat.testBit_two_pow_add_eq, hbit]
        simp [hf]
      · rw [Nat.testBit_lt_two_pow]
        · simp [show ¬K < n + 1 by omega]
        · calc a + 2 ^ n < 2 ^ (n + 1) := by omega
            _ ≤ 2 ^ K := Nat.pow_le_pow_right (by decide) hK

theorem getLsbD_maskOf (f : Nat → Bool) {K : Nat} (hK : K < 32) : (maskOf f).getLsbD K = f K := by
  unfold maskOf
  rw [BitVec.getLsbD_ofNat, (testBit_maskSum f 32).2]
  simp [hK]

theorem mask_ext {m n : Mask} (h : ∀ K, K < 32 → m.getLsbD K = n.getLsbD K) : m = n := BitVec.eq_of_getLsbD_eq h

end Sys2Proof
end

section
/-! SUPPORT. A query's start in its lanes, and its close (R315, R321, R323, R327). -/

namespace Sys2Proof.Machine

variable {s t u v : State} {id L n : Nat} {x : Train} {q q' : RayQuery}

/-! ## A query as its lanes begin -/

/-- The query after its start in the busy lanes below `n`, with no prediction for a lane looked up now. -/
def begunTo (n : Nat) (q : RayQuery) : RayQuery :=
  let due (K : Nat) : Bool := q.lanes.at K == .busy && !voidRay (q.rays.at K)
  { q with
    lanes := perLane fun K => if K < n ∧ q.lanes.at K = .busy ∧ voidRay (q.rays.at K) = true then .done none 0 else q.lanes.at K
    looked := q.looked ||| maskOf fun K => decide (K < n) && due K
    tp := perLane fun K => if K < n ∧ due K = true ∧ q.looked.getLsbD K = false then none else q.tp.at K }

theorem query_eq {a b : PerLane RayLane} {m m' : Mask} {c d : PerLane (Option Word)} (hl : ∀ K, K < 32 → a.at K = b.at K)
    (hm : ∀ K, K < 32 → m.getLsbD K = m'.getLsbD K) (ht : ∀ K, K < 32 → c.at K = d.at K) :
    ({ q with lanes := a, looked := m, tp := c } : RayQuery) = { q with lanes := b, looked := m', tp := d } := by
  rw [PerLane.ext_at hl, mask_ext hm, PerLane.ext_at ht]

theorem begunTo_rays (q : RayQuery) (n : Nat) : (begunTo n q).rays = q.rays := rfl

theorem begunTo_bind (q : RayQuery) (n : Nat) : (begunTo n q).bind = q.bind := rfl

theorem begunTo_lanes (q : RayQuery) (n : Nat) {K : Nat} (hK : K < 32) : (begunTo n q).lanes.at K =
    if K < n ∧ q.lanes.at K = .busy ∧ voidRay (q.rays.at K) = true then .done none 0 else q.lanes.at K := perLane_at_lt _ hK

theorem begunTo_looked (q : RayQuery) (n : Nat) {K : Nat} (hK : K < 32) : (begunTo n q).looked.getLsbD K =
    (q.looked.getLsbD K || (decide (K < n) && (q.lanes.at K == .busy && !voidRay (q.rays.at K)))) := by
  unfold begunTo
  rw [BitVec.getLsbD_or, getLsbD_maskOf _ hK]

theorem begunTo_tp (q : RayQuery) (n : Nat) {K : Nat} (hK : K < 32) : (begunTo n q).tp.at K =
    if K < n ∧ (q.lanes.at K == .busy && !voidRay (q.rays.at K)) = true ∧ q.looked.getLsbD K = false then none else q.tp.at K :=
  perLane_at_lt _ hK

theorem begunTo_all (q : RayQuery) : begunTo 32 q = begun q := by
  refine query_eq (q := q) (fun K hK => ?_) (fun K hK => ?_) fun K hK => ?_
  · rw [perLane_at_lt _ hK, perLane_at_lt _ hK]
    simp [hK]
  · rw [BitVec.getLsbD_or, BitVec.getLsbD_or, getLsbD_maskOf _ hK, getLsbD_maskOf _ hK]
    simp [hK]
  · rw [perLane_at_lt _ hK, perLane_at_lt _ hK]
    simp [hK]

theorem begunTo_zero (q : RayQuery) : begunTo 0 q = q := by
  refine query_eq (q := q) (fun K hK => ?_) (fun K hK => ?_) fun K hK => ?_
  · exact (begunTo_lanes q 0 hK).trans (if_neg (by simp))
  · exact (begunTo_looked q 0 hK).trans (by simp)
  · exact (begunTo_tp q 0 hK).trans (if_neg (by simp))

/-- One more lane begins: what differs from the query begun below it is that lane's alone. -/
theorem begunTo_succ {a : PerLane RayLane} {m : Mask} {c : PerLane (Option Word)}
    (hrest : ∀ K, K < 32 → K ≠ n → a.at K = (begunTo n q).lanes.at K ∧ m.getLsbD K = (begunTo n q).looked.getLsbD K ∧
      c.at K = (begunTo n q).tp.at K)
    (hl : a.at n = if q.lanes.at n = .busy ∧ voidRay (q.rays.at n) = true then .done none 0 else q.lanes.at n)
    (hm : m.getLsbD n = (q.looked.getLsbD n || (q.lanes.at n == .busy && !voidRay (q.rays.at n))))
    (hc : c.at n = if (q.lanes.at n == .busy && !voidRay (q.rays.at n)) = true ∧ q.looked.getLsbD n = false then none else q.tp.at n) :
    ({ q with lanes := a, looked := m, tp := c } : RayQuery) = begunTo (n + 1) q := by
  have hlt {K : Nat} (h : K ≠ n) : K < n + 1 ↔ K < n := by omega
  refine query_eq (q := q) (fun K hK => ?_) (fun K hK => ?_) fun K hK => ?_
  · refine Eq.trans ?_ (begunTo_lanes q (n + 1) hK).symm
    by_cases h : K = n
    · simp [h, hl]
    · rw [(hrest K hK h).1, begunTo_lanes q n hK]
      simp only [hlt h]
  · refine Eq.trans ?_ (begunTo_looked q (n + 1) hK).symm
    by_cases h : K = n
    · simp [h, hm]
    · rw [(hrest K hK h).2.1, begunTo_looked q n hK]
      simp only [hlt h]
  · refine Eq.trans ?_ (begunTo_tp q (n + 1) hK).symm
    by_cases h : K = n
    · simp [h, hc]
    · rw [(hrest K hK h).2.2, begunTo_tp q n hK]
      simp only [hlt h]

section
variable (hn : n < 32)
include hn

theorem begunTo_lane_self : (begunTo n q).lanes.at n = q.lanes.at n := (begunTo_lanes q n hn).trans (if_neg (by simp))

theorem begunTo_looked_self : (begunTo n q).looked.getLsbD n = q.looked.getLsbD n := (begunTo_looked q n hn).trans (by simp)

theorem begunTo_tp_self : (begunTo n q).tp.at n = q.tp.at n := (begunTo_tp q n hn).trans (if_neg (by simp))

/-- A lane with nothing to do at its start. -/
theorem begunTo_succ_same (h : q.lanes.at n ≠ .busy ∨ (voidRay (q.rays.at n) = false ∧ q.looked.getLsbD n = true)) :
    begunTo n q = begunTo (n + 1) q := by
  refine begunTo_succ (q := q) (fun _ _ _ => ⟨rfl, rfl, rfl⟩) ((begunTo_lane_self hn).trans ?_) ((begunTo_looked_self hn).trans ?_)
    ((begunTo_tp_self hn).trans ?_) <;> rcases h with h | ⟨hv, hl⟩ <;> simp [*]

/-- A lane with a void ray. -/
theorem begunTo_succ_void (hb : q.lanes.at n = .busy) (hv : voidRay (q.rays.at n) = true) :
    (begunTo n q).setLane n (.done none 0) = begunTo (n + 1) q := by
  refine begunTo_succ (q := q) (fun K hK h => ⟨(PerLane.at_set _ hn hK _).trans (if_neg h), rfl, rfl⟩) ?_ ((begunTo_looked_self hn).trans ?_)
    ((begunTo_tp_self hn).trans ?_)
  · rw [if_pos ⟨hb, hv⟩]
    exact (PerLane.at_set _ hn hn _).trans (if_pos rfl)
  · simp [hv]
  · simp [hv]

/-- A lane looked up with no prediction. -/
theorem begunTo_succ_look (hb : q.lanes.at n = .busy) (hv : voidRay (q.rays.at n) = false) (hl : q.looked.getLsbD n = false) :
    ({ begunTo n q with looked := (begunTo n q).looked ||| maskOf (· == n) } : RayQuery).setTp n none = begunTo (n + 1) q := by
  refine begunTo_succ (q := q) (fun K hK h => ⟨rfl, ?_, (PerLane.at_set _ hn hK _).trans (if_neg h)⟩) ((begunTo_lane_self hn).trans ?_) ?_ ?_
  · rw [BitVec.getLsbD_or, getLsbD_maskOf _ hK, beq_eq_false_iff_ne.2 h, Bool.or_false]
  · simp [hv]
  · rw [BitVec.getLsbD_or, getLsbD_maskOf _ hn]
    simp [hb, hv]
  · exact (PerLane.at_set _ hn hn _).trans (by simp [hb, hv, hl])

end

/-! ## The query of a train -/

/-- The query of the train `x` is `q` in `t`, which differs from `s` at most in it. -/
structure Queried (s t : State) (id : Nat) (x : Train) (q : RayQuery) : Prop where
  ok : x.Ok
  found : AMap.get? s.trains id = some x
  state : (t = s ∧ x.ray = some q) ∨ t = s.upd (.train id (some { x with ray := some q }))

theorem Train.Ok.withRay (h : x.Ok) (o : Option RayQuery) : ({ x with ray := o } : Train).Ok := ⟨h.live, h.p7, h.pc, h.opened⟩

theorem Queried.get (h : Queried s t id x q) : AMap.get? t.trains id = some { x with ray := some q } := by
  rcases h.state with ⟨rfl, hr⟩ | rfl
  · rw [h.found, ← hr]
  · rw [get?_upd_train, Train.norm_of_ok (h.ok.withRay _)]

theorem State.upd_train_train (s : State) (id : Nat) (x y : Train) :
    (s.upd (.train id (some x))).upd (.train id (some y)) = s.upd (.train id (some y)) := by
  simp [State.upd, putOpt, AMap.set_set]

theorem Queried.sets (h : Queried s t id x q) (q' : RayQuery) :
    ∃ v, Ends (setQuery id q' : M u Unit) t () v ∧ Queried s v id x q' := by
  refine ⟨s.upd (.train id (some { x with ray := some q' })), ?_, h.ok, h.found, .inr rfl⟩
  have hm := Ends.modTrain (s := u) (f := fun x => { x with ray := some q' }) h.get
  rcases h.state with ⟨rfl, -⟩ | rfl
  · exact hm
  · rw [State.upd_train_train] at hm
    exact hm

theorem Queried.busy (h : Queried s t id x q) (L : Nat) :
    busyLane t id L = if (q.lanes.at L).works then some (q, rayEU s id x) else none := by
  have he : rayEU t id { x with ray := some q } = rayEU s id x := by
    rcases h.state with ⟨rfl, -⟩ | rfl <;> rfl
  unfold busyLane
  rw [h.get]
  simp only [Option.bind_some, he]

end Sys2Proof.Machine
end

section
/-! SUPPORT. The steps of a query: its start in every lane, what a void ray leaves, its close (R315, R319, R323, R327). -/

namespace Sys2Proof.Machine

variable {s t u v : State} {id L n : Nat} {x y : Train} {q q' : RayQuery}

/-! ## Steps -/

theorem Ends.querySteps {m : M s Unit} {l : List (M s Unit)} (hm : Ends m t () u) (hl : Ends (Machine.querySteps id l) u () v) :
    Ends (Machine.querySteps id (m :: l)) t () v :=
  Ends.bind (Ends.tryM hm) hl

/-- No lane that begins is looked up with predictions. -/
def NoLookUp (q : RayQuery) : Prop :=
  q.bind.predict = false ∨ ∀ K, K < 32 → q.lanes.at K = .busy → voidRay (q.rays.at K) = false → q.looked.getLsbD K = true

/-- The start of one more lane. -/
theorem Queried.startLane (h : Queried s t id x (begunTo n q)) (hn : n < 32) (hq : NoLookUp q) :
    ∃ u, Ends (startLane id n : M s Unit) t () u ∧ Queried s u id x (begunTo (n + 1) q) := by
  have hw : ((begunTo n q).lanes.at n).works = (q.lanes.at n == .busy) := by rw [begunTo_lane_self hn]; rfl
  by_cases hb : q.lanes.at n = .busy
  · have hbl : busyLane t id n = some (begunTo n q, rayEU s id x) := by rw [h.busy, hw, hb]; rfl
    by_cases hv : voidRay (q.rays.at n) = true
    · obtain ⟨u, hu, hs⟩ := h.sets (u := s) (begunTo (n + 1) q)
      refine ⟨u, Ends.now ?_, hs⟩
      rw [hbl]
      dsimp only
      rw [begunTo_rays, if_pos hv]
      exact begunTo_succ_void hn hb hv ▸ hu
    · have hv := Bool.eq_false_iff.2 hv
      by_cases hl : q.looked.getLsbD n = true
      · refine ⟨t, Ends.now ?_, begunTo_succ_same hn (.inr ⟨hv, hl⟩) ▸ h⟩
        rw [hbl]
        dsimp only
        rw [begunTo_rays, if_neg (by rw [hv]; decide), if_pos (by rw [begunTo_looked_self hn, hl])]
        exact Ends.pure ()
      · have hl := Bool.eq_false_iff.2 hl
        have hp : q.bind.predict = false := hq.resolve_right fun hc => by simp [hc n hn hb hv] at hl
        obtain ⟨u, hu, hs⟩ := h.sets (u := s) (begunTo (n + 1) q)
        refine ⟨u, Ends.now ?_, hs⟩
        rw [hbl]
        dsimp only
        rw [begunTo_rays, if_neg (by rw [hv]; decide), if_neg (by rw [begunTo_looked_self hn, hl]; decide),
          begunTo_bind, hp, Bool.false_and, if_neg (by decide)]
        exact Ends.bind (Ends.pure none) (begunTo_succ_look hn hb hv hl ▸ hu)
  · refine ⟨t, Ends.now ?_, begunTo_succ_same hn (.inl hb) ▸ h⟩
    rw [h.busy, hw, if_neg (by simpa using hb)]
    exact Ends.pure ()

/-- The start of the lanes from `n` on, before further steps. -/
theorem Queried.startLanes {k : Nat} (h : Queried s t id x (begunTo n q)) (hk : n + k = 32) (hq : NoLookUp q) :
    ∃ u, Queried s u id x (begun q) ∧ ∀ (l : List (M s Unit)) v, Ends (Machine.querySteps id l) u () v →
      Ends (Machine.querySteps id ((List.range' n k).map (Machine.startLane id) ++ l)) t () v := by
  induction k generalizing n t with
  | zero => exact ⟨t, begunTo_all q ▸ (show n = 32 from hk) ▸ h, fun _ _ hl => hl⟩
  | succ k ih =>
    obtain ⟨u, hu, h'⟩ := h.startLane (by omega) hq
    obtain ⟨w, hw, hl⟩ := ih h' (by omega)
    exact ⟨w, hw, fun l v hv => Ends.querySteps hu (hl l v hv)⟩

/-- The work on some lanes of a query, once it has begun in every lane. -/
theorem QueryRuns.laneWork (h : QueryRuns s id x q) (hx : x.Ok) (hq : NoLookUp q) :
    ∃ u, Queried s u id x (begun q) ∧ ∀ (ls : List Nat) v,
      Ends (Machine.querySteps id (ls.flatMap fun L => [shortLane id L, fullLane id L]) : M s Unit) u () v →
      Ends (Machine.querySteps id (Machine.laneWork id ls) : M s Unit) s () v := by
  have h0 : Queried s s id x (begunTo 0 q) := ⟨hx, h.train, .inl ⟨rfl, by rw [begunTo_zero]; exact h.ray⟩⟩
  obtain ⟨u, hu, hl⟩ := h0.startLanes (k := 32) rfl hq
  refine ⟨u, hu, fun ls v hv => ?_⟩
  unfold Machine.laneWork
  rw [List.range_eq_range']
  exact hl _ v hv

theorem QueryRuns.queryMay (h : QueryRuns s id x q) : queryMay s id x = true := by
  obtain ⟨ho, hh⟩ := h.open_
  obtain ⟨hst, hen, hs, hp⟩ := h.runs
  unfold Machine.queryMay issueDone ctxRuns
  rw [h.ray, h.train]
  simp only [ho, hh, hst, hen, hs, hp, Bool.not_false, Bool.and_true, Bool.true_and, Bool.and_eq_true, Bool.not_eq_true', List.any_eq_false,
    decide_eq_true_eq, Nat.not_lt, beq_iff_eq, not_and, and_imp]
  exact ⟨⟨h.settled, h.acquired⟩, h.synced⟩

theorem execCandidatePresent_ends (h : QueryRuns s id x q) (hx : x.Ok) (hq : NoLookUp q) (hL : L < 32) :
    ∃ u, Queried s u id x (begun q) ∧ ∀ v, Ends (Machine.querySteps id [shortLane id L, fullLane id L] : M s Unit) u () v →
      exec (.candidatePresent id L) s = .next v := by
  obtain ⟨u, hu, hl⟩ := h.laneWork hx hq
  refine ⟨u, hu, fun v hv => Ends.runE (Ends.now ?_)⟩
  rw [h.train]
  dsimp only
  rw [h.queryMay, Bool.true_and, if_pos (by simpa using hL)]
  exact hl [L] v hv

/-! ## The close -/

theorem settled_iff : q.settled = true ↔ ∀ K, K < 32 → q.lanes.at K = .outside ∨ ∃ h k, q.lanes.at K = .done h k := by
  have hlane (l : RayLane) : (match l with | .outside | .done _ _ => true | _ => false) = true ↔ l = .outside ∨ ∃ h k, l = .done h k := by
    cases l <;> simp
  unfold RayQuery.settled
  rw [List.all_eq_true]
  constructor
  · intro h K hK
    have hm := h (q.lanes[K % 32]'(Nat.mod_lt _ (by decide))) (by simp)
    exact (hlane _).1 hm
  · intro h l hl
    obtain ⟨K, hK, rfl⟩ := Vector.mem_iff_getElem.1 (Vector.mem_toList_iff.1 hl)
    have hm := (hlane _).2 (h K hK)
    simp only [PerLane.at, Nat.mod_eq_of_lt hK] at hm
    exact hm

theorem not_settled {K : Nat} (hK : K < 32) (h : ∀ h k, q.lanes.at K ≠ .outside ∧ q.lanes.at K ≠ .done h k) : q.settled = false := by
  refine Bool.eq_false_iff.2 fun hc => ?_
  rcases settled_iff.1 hc K hK with hc | ⟨h', k, hc⟩
  · exact (h none 0).1 hc
  · exact (h h' k).2 hc

section
variable (hy : AMap.get? t.trains id = some y) (hr : y.ray = some q) (hw : q.waits = [])
include hy hr hw

theorem Ends.serveWaits_none : Ends (serveWaits id : M s Unit) t () (t.upd (.train id (some y))) := by
  refine Ends.now ?_
  rw [hy, Option.bind_some, hr]
  dsimp only
  rw [hw]
  have hm := Ends.modTrain (s := s) (f := fun x => { x with ray := x.ray.map fun q => { q with waits := [] } }) hy
  have he : ({ y with ray := y.ray.map fun q => { q with waits := [] } } : Train) = y := by
    rw [hr, Option.map_some, ← hw, ← hr]
  rw [he] at hm
  exact hm

theorem Ends.closeQuery_open (hs : q.settled = false) : Ends (closeQuery id : M s Unit) t () (t.upd (.train id (some y))) := by
  refine Ends.bind (Ends.serveWaits_none hy hr hw) (Ends.now ?_)
  rw [get?_upd_train]
  dsimp only
  rw [show y.norm.ray = some q from hr]
  dsimp only
  rw [hs, Bool.not_false, Bool.or_true, if_pos rfl]
  exact Ends.pure ()

theorem Ends.closeQuery_closes (hs : q.settled = true) (ho : q.opened = true) (hp : q.bind.predict = false) :
    Ends (closeQuery id : M s Unit) t () ((t.upd (.train id (some y))).upd (.train id (some
      { y.norm.complete q.op with ray := some { q with opened := false } }))) := by
  refine Ends.bind (Ends.serveWaits_none hy hr hw) (Ends.now ?_)
  rw [get?_upd_train]
  dsimp only
  rw [show y.norm.ray = some q from hr]
  dsimp only
  rw [hs, ho, hp, Bool.false_and, if_neg (by decide), if_neg (by decide)]
  have hm := Ends.modTrain (s := s) (f := fun x => { x.complete q.op with ray := x.ray.map fun q => { q with opened := false } })
    (get?_upd_train (t := t) id y)
  rw [show y.norm.ray = some q from hr] at hm
  exact hm

end

theorem complete_regs (x : Train) (op : Nat) : (x.complete op).s = x.s ∧ (x.complete op).v = x.v := by
  rw [complete_rest]
  exact ⟨rfl, rfl⟩

/-- The train once its query has closed. -/
def Train.queryClosed (x : Train) (q : RayQuery) : Train :=
  { ({ x with ray := some q } : Train).norm.complete q.op with ray := some { q with opened := false } }

/-- A query whose every lane is done closes. -/
theorem Queried.closes (h : Queried s t id x q) (hw : q.waits = []) (hs : q.settled = true) (ho : q.opened = true)
    (hp : q.bind.predict = false) : Ends (closeQuery id : M s Unit) t () (s.upd (.train id (some (x.queryClosed q)))) := by
  have hc := Ends.closeQuery_closes (s := s) h.get rfl hw hs ho hp
  rw [State.upd_train_train] at hc
  rcases h.state with ⟨rfl, -⟩ | rfl
  · exact hc
  · rw [State.upd_train_train] at hc
    exact hc

/-- What the close of a query leaves: its instruction has completed, no register has changed (R327). -/
theorem queryClosed_result (s : State) (id : Nat) (x : Train) (q : RayQuery) : ∃ y,
    s.upd (.train id (some (x.queryClosed q))) = { s with trains := (s.upd (.train id (some (x.queryClosed q)))).trains } ∧
    OnlyTrain s (s.upd (.train id (some (x.queryClosed q)))) id ∧
    AMap.get? (s.upd (.train id (some (x.queryClosed q)))).trains id = some y ∧ Completed x y q.op ∧ y.s = x.s ∧ y.v = x.v ∧
    y.ray = some { q with opened := false } := by
  have hc := complete_completed ({ x with ray := some q } : Train).norm q.op
  have hr := complete_regs ({ x with ray := some q } : Train).norm q.op
  exact ⟨_, rfl, onlyTrain_upd s id _, get?_upd_train id _, ⟨hc.flight, hc.sb, hc.rest⟩, hr.1, hr.2, rfl⟩

/-- A query with a lane that is not done goes on. -/
theorem Queried.stays (h : Queried s t id x q) (hw : q.waits = []) (hs : q.settled = false) :
    Ends (closeQuery id : M s Unit) t () (s.upd (.train id (some { x with ray := some q }))) := by
  have hc := Ends.closeQuery_open (s := s) h.get rfl hw hs
  rcases h.state with ⟨rfl, -⟩ | rfl
  · exact hc
  · rw [State.upd_train_train] at hc
    exact hc

/-! ## Lanes with nothing to trace -/

/-- A lane that is not busy takes no further step. -/
theorem Ends.laneSteps_idle {l : List (M s Unit)} (h : busyLane t id L = none) (hl : Ends (Machine.querySteps id l) t () v) :
    Ends (Machine.querySteps id (shortLane id L :: fullLane id L :: l)) t () v := by
  refine Ends.querySteps (u := t) (Ends.now ?_) (Ends.querySteps (u := t) (Ends.now ?_) hl)
  · rw [h]
    exact Ends.pure ()
  · rw [h]
    exact Ends.pure ()

theorem begun_lane (q : RayQuery) {K : Nat} (hK : K < 32) : (begun q).lanes.at K =
    if q.lanes.at K = .busy ∧ voidRay (q.rays.at K) = true then .done none 0 else q.lanes.at K := perLane_at_lt _ hK

theorem Queried.idle (h : Queried s t id x q) (hL : q.lanes.at L ≠ .busy) : busyLane t id L = none := by
  rw [h.busy]
  exact if_neg (by simpa [RayLane.works] using hL)

/-- Lanes with nothing to trace take no further steps. -/
theorem Queried.lanesIdle (hu : Queried s u id x q') (hi : ∀ K, K < 32 → q'.lanes.at K ≠ .busy) {ls : List Nat}
    (hls : ∀ K ∈ ls, K < 32) (hl : Ends (closeQuery id : M s Unit) u () v) :
    Ends (Machine.querySteps id (ls.flatMap fun L => [shortLane id L, fullLane id L]) : M s Unit) u () v := by
  induction ls with
  | nil => exact hl
  | cons L ls ih =>
    exact Ends.laneSteps_idle (hu.idle (hi L (hls L List.mem_cons_self))) (ih fun K hK => hls K (List.mem_cons_of_mem _ hK))

section
variable (h : QueryRuns s id x q) (hx : x.Ok) (hw : q.waits = []) (hq : NoLookUp q)
include h hx hw hq

section
variable (hL : L < 32) (hb : q.lanes.at L = .busy) (hv : voidRay (q.rays.at L) = true)
include hL hb hv

omit h hx hw hq in
theorem begun_void : (begun q).lanes.at L = .done none 0 := (begun_lane q hL).trans (if_pos ⟨hb, hv⟩)

theorem execCandidatePresent_void (ho : ∃ K, K < 32 ∧ K ≠ L ∧ ∀ h k, (begun q).lanes.at K ≠ .outside ∧ (begun q).lanes.at K ≠ .done h k) :
    exec (.candidatePresent id L) s = .next (s.upd (.train id (some { x with ray := some (begun q) }))) := by
  have hd := begun_void hL hb hv
  have hs : (begun q).settled = false := by
    obtain ⟨K, hK, -, hne⟩ := ho
    exact not_settled hK hne
  obtain ⟨u, hu, hl⟩ := execCandidatePresent_ends h hx hq hL
  exact hl _ (Ends.laneSteps_idle (hu.idle (by rw [hd]; nofun)) (hu.stays hw hs))

theorem execCandidatePresent_last
    (ho : ¬∃ K, K < 32 ∧ K ≠ L ∧ ∀ h k, (begun q).lanes.at K ≠ .outside ∧ (begun q).lanes.at K ≠ .done h k)
    (hp : q.bind.predict = false) : ∃ t y, exec (.candidatePresent id L) s = .next t ∧ t = { s with trains := t.trains } ∧
      OnlyTrain s t id ∧ AMap.get? t.trains id = some y ∧ Completed x y q.op ∧ y.s = x.s ∧ y.v = x.v ∧
      y.ray = some { begun q with opened := false } := by
  have hd := begun_void hL hb hv
  have hs : (begun q).settled = true := by
    refine settled_iff.2 fun K hK => ?_
    by_cases hKL : K = L
    · exact .inr ⟨none, 0, hKL ▸ hd⟩
    · by_contra hc
      rw [not_or, not_exists] at hc
      exact ho ⟨K, hK, hKL, fun h k => ⟨hc.1, fun hk => hc.2 h ⟨k, hk⟩⟩⟩
  obtain ⟨y, hy⟩ := queryClosed_result s id x (begun q)
  obtain ⟨u, hu, hl⟩ := execCandidatePresent_ends h hx hq hL
  exact ⟨_, y, hl _ (Ends.laneSteps_idle (hu.idle (by rw [hd]; nofun)) (hu.closes hw hs h.open_.1 hp)), hy⟩

end
theorem execRayQueryComplete_closes (hn : ∀ kv ∈ s.ray, kv.2.train ≠ id) (hp : q.bind.predict = false)
    (hv : ∀ K, K < 32 → q.lanes.at K = .busy → voidRay (q.rays.at K) = true) (hpe : ∀ K h, K < 32 → q.lanes.at K ≠ .pending h) :
    ∃ t y q', exec (.rayQueryComplete id) s = .next t ∧ t = { s with trains := t.trains } ∧ OnlyTrain s t id ∧
      AMap.get? t.trains id = some y ∧ Completed x y q.op ∧ y.s = x.s ∧ y.v = x.v ∧ y.ray = some q' ∧ q'.opened = false ∧
      ∀ K, K < 32 → q'.lanes.at K = if q.lanes.at K = .busy then .done none 0 else q.lanes.at K := by
  have hlane (K : Nat) (hK : K < 32) : (begun q).lanes.at K = if q.lanes.at K = .busy then .done none 0 else q.lanes.at K := by
    rw [begun_lane q hK]
    by_cases hb : q.lanes.at K = .busy
    · rw [if_pos ⟨hb, hv K hK hb⟩, if_pos hb]
    · rw [if_neg (fun hc => hb hc.1), if_neg hb]
  have hd (K : Nat) (hK : K < 32) : (begun q).lanes.at K = .outside ∨ ∃ h k, (begun q).lanes.at K = .done h k := by
    rw [hlane K hK]
    split
    · exact .inr ⟨none, 0, rfl⟩
    · cases hl : q.lanes.at K with
      | outside => exact .inl rfl
      | busy => exact absurd hl ‹_›
      | pending h => exact absurd hl (hpe K h hK)
      | done h k => exact .inr ⟨h, k, rfl⟩
  have hi (K : Nat) (hK : K < 32) : (begun q).lanes.at K ≠ .busy := by
    rcases hd K hK with h | ⟨h, k, h⟩ <;> rw [h] <;> nofun
  have hf : firstOf s.ray id = none := by
    unfold firstOf
    rw [Option.map_eq_none_iff, List.find?_eq_none]
    exact fun kv hkv => by simpa using hn kv hkv
  obtain ⟨y, hy1, hy2, hy3, hy4, hy5, hy6, hy7⟩ := queryClosed_result s id x (begun q)
  refine ⟨_, y, _, Ends.runE (Ends.now ?_), hy1, hy2, hy3, hy4, hy5, hy6, hy7, rfl, hlane⟩
  rw [h.train]
  dsimp only
  rw [hf]
  dsimp only
  rw [h.queryMay, if_pos rfl]
  obtain ⟨u, hu, hl⟩ := h.laneWork hx hq
  exact hl _ _ (hu.lanesIdle hi (fun K hK => List.mem_range.1 hK) (hu.closes hw (settled_iff.2 hd) h.open_.1 hp))

end

end Sys2Proof.Machine
end

section
/-! SUPPORT. The lane of a query that a traversal answers (R319, R320, R322, R332). -/

namespace Sys2Proof.Machine

variable {s t u v w : State} {id L : Nat} {x y : Train} {q q' : RayQuery} {hits : List Hit}

/-! ## A prediction counter -/

/-- The context with a prediction counter one up, saturating. -/
def Context.hptUp (c : Context) (die i : Nat) : Context :=
  let row := c.hptCounts[die % 4]'(Nat.mod_lt _ (by decide))
  let n := row[i % 5]'(Nat.mod_lt _ (by decide))
  let row := row.set (i % 5) (if n = 0xFFFFFFFF then n else n + 1) (Nat.mod_lt _ (by decide))
  { c with hptCounts := c.hptCounts.set (die % 4) row (Nat.mod_lt _ (by decide)) }

theorem Ends.countHpt (c die i : Nat) : Ends (Machine.countHpt c die i : M s Unit) t () (t.upd (.ctx c ((t.ctx c).hptUp die i))) :=
  Ends.now (Ends.upd _)

theorem hptCount_eq (c : Context) {d j : Nat} (hd : d < 4) (hj : j < 5) : hptCount c d j = (c.hptCounts[d]'hd)[j]'hj := by
  simp [hptCount, hd, hj]

theorem hptCount_hptUp (c : Context) (die : Nat) {i d j : Nat} (hi : i < 5) (hd : d < 4) (hj : j < 5) : hptCount (c.hptUp die i) d j =
    if d = die % 4 ∧ j = i ∧ hptCount c d j ≠ 0xFFFFFFFF then hptCount c d j + 1 else hptCount c d j := by
  rw [hptCount_eq _ hd hj, hptCount_eq _ hd hj]
  simp only [Context.hptUp, Vector.getElem_set, Nat.mod_eq_of_lt hi]
  by_cases h1 : d = die % 4
  · subst h1
    by_cases h2 : j = i
    · subst h2
      by_cases h3 : (c.hptCounts[die % 4]'hd)[j]'hj = 0xFFFFFFFF <;> simp [h3]
    · simp [h2, Ne.symm h2]
  · simp [h1, Ne.symm h1]

theorem ctx_upd_ctx (t : State) {c : Nat} (hc : c < 16) (z : Context) : (t.upd (.ctx c z)).ctx c = z.norm := by
  simp [State.ctx, hc, Nat.mod_eq_of_lt hc]

theorem State.upd_ctx_rest (t : State) (c : Nat) (z : Context) : t.upd (.ctx c z) = { t with ctxs := (t.upd (.ctx c z)).ctxs } := by
  simp only [State.upd]
  split <;> rfl

theorem hptCounted (t : State) {c : Nat} (hc : c < 16) (die : Nat) {i : Nat} (hi : i < 5) :
    HptCounted t (t.upd (.ctx c ((t.ctx c).hptUp die i))) c (die % 4) i := by
  have hx := ctx_upd_ctx t hc ((t.ctx c).hptUp die i)
  refine ⟨by rw [hx]; rfl, fun d j hd hj => ?_⟩
  rw [hx]
  exact hptCount_hptUp (t.ctx c) die hi hd hj

theorem HptCounted.of_ctxs {c die i : Nat} (h : HptCounted s t c die i) (hs : u.ctxs = s.ctxs) (ht : v.ctxs = t.ctxs) :
    HptCounted u v c die i := by
  have hu : u.ctx c = s.ctx c := by unfold State.ctx; simp only [hs]
  have hv : v.ctx c = t.ctx c := by unfold State.ctx; simp only [ht]
  unfold HptCounted at h ⊢
  rw [ht, hu, hv]
  refine ⟨h.1.trans ?_, h.2⟩
  rw [State.upd_ctxs, State.upd_ctxs]
  simp only [hs]

/-! ## What the hits fix -/

/-- The first of the hits that has `P`, if one has. -/
def FirstHit (hits : List Hit) (P : Hit → Prop) (o : Option Hit) : Prop :=
  match o with
  | some h => ∃ a b, hits = a ++ h :: b ∧ P h ∧ ∀ g ∈ a, ¬P g
  | none => ∀ g ∈ hits, ¬P g

theorem firstHit_find {P : Hit → Prop} {p : Hit → Bool} (h : ∀ g, P g ↔ p g = true) : FirstHit hits P (hits.find? p) := by
  cases ho : hits.find? p with
  | none =>
    rw [List.find?_eq_none] at ho
    exact fun g hg hp => ho g hg ((h g).1 hp)
  | some x =>
    obtain ⟨hx, a, b, hab, hno⟩ := List.find?_eq_some_iff_append.1 ho
    exact ⟨a, b, hab, (h x).2 hx, fun g hg hp => by simpa [(h g).1 hp] using hno g hg⟩

/-- The lane `L` of the query as the hits of its traversal leave it, by the kind of the query (R319, R320). -/
def LaneFixed (q : RayQuery) (L : Nat) (hits : List Hit) (l : RayLane) : Prop :=
  match q.kind with
  | .closest => ∃ o, FirstHit hits (fun _ => True) o ∧ l = .done o (if o.isSome then 1 else 0)
  | .occluded => ∃ o, FirstHit hits (·.opaqueHit = true) o ∧ l = .done o (if o.isSome then 1 else 0)
  | .any => ∃ o c, FirstHit hits (·.opaqueHit = true) o ∧
      FirstHit hits (fun h => h.opaqueHit = false ∧ tKey h.t < tKey ((o.map (·.t)).getD 0x7F800000) ∧
        (h.instVa, h.triVa) ∉ q.rejected.at L) c ∧
      l = match c with
        | some h => .pending h
        | none => .done o (if o.isSome then 1 else 0)

theorem firstHit_head : FirstHit hits (fun _ => True) hits.head? := by
  cases hits with
  | nil => exact fun _ h => nomatch h
  | cons h l => exact ⟨[], l, rfl, trivial, fun _ h => nomatch h⟩

/-- The lane that the hits give. -/
def settledLane (q : RayQuery) (L : Nat) (hits : List Hit) : RayLane :=
  match (split q.kind hits).2.find? fun h => !(q.rejected.at L).contains (h.instVa, h.triVa) with
  | some h => .pending h
  | none => .done (split q.kind hits).1 (if (split q.kind hits).1.isSome then 1 else 0)

theorem laneFixed_settledLane : LaneFixed q L hits (settledLane q L hits) := by
  unfold LaneFixed settledLane
  cases q.kind with
  | closest => exact ⟨_, firstHit_head, rfl⟩
  | occluded => exact ⟨_, firstHit_find fun _ => Iff.rfl, rfl⟩
  | any =>
    refine ⟨hits.find? (·.opaqueHit), _, firstHit_find fun _ => Iff.rfl, ?_, rfl⟩
    unfold split
    dsimp only
    rw [List.find?_filter]
    refine firstHit_find (P := fun h => h.opaqueHit = false ∧ tKey h.t < tKey (((hits.find? (·.opaqueHit)).map (·.t)).getD tInf) ∧
      (h.instVa, h.triVa) ∉ q.rejected.at L) fun g => ?_
    cases hits.find? (·.opaqueHit) <;> simp [and_assoc]

section
variable (hL : L < 32)
include hL

theorem settle_lane {K : Nat} (hK : K < 32) : (q.settle L hits).lanes.at K = if K = L then settledLane q L hits else q.lanes.at K :=
  PerLane.at_set _ hL hK _

end

theorem settledLane_works : (settledLane q L hits).works = false := by
  unfold settledLane
  split <;> rfl

/-! ## The traversal of a lane -/

theorem Queried.again (h : Queried s t id x q) : t.againAt id = s.upd (.train id (some { x with ray := some q })) := by
  have he : s.upd (.train id (some { x with ray := some q })) = { s with trains := AMap.set s.trains id { x with ray := some q } } := by
    simp [State.upd, putOpt, Train.norm_of_ok (h.ok.withRay _)]
  rw [he]
  rcases h.state with ⟨rfl, hr⟩ | rfl
  · unfold State.againAt
    rw [againAt_some h.found, ← hr]
  · rw [he]
    unfold State.againAt
    rw [againAt_set]
    show ({ s with trains := _ } : State) = _
    rw [againAt_some h.found, AMap.set_set]

theorem Queried.reach (h : Queried s t id x q) : Reach s t := by
  rcases h.state with ⟨rfl, -⟩ | rfl
  exacts [.refl, Reach.refl.step _]

/-- A traversal made from the query as it begins is the one the unit makes. -/
theorem Queried.trace (h : Queried s t id x q) {eu : EU} {root : Nat} {ray : List Word} {m : Byte} {tmax : Word}
    {r : Run (s.upd (.train id (some { x with ray := some q })))}
    (hr : trace eu root ray m tmax (⟨_, .refl⟩ : Run (s.upd (.train id (some { x with ray := some q })))) = .ok (hits, r)) :
    ∃ w, Ends (Machine.trace eu root ray m tmax : M s (List Hit)) t hits w ∧ r.1 = w.againAt id := by
  have hp := Parallels.trace (s := s) (s' := s.upd (.train id (some { x with ray := some q }))) (id := id) eu root ray m tmax
  obtain ⟨r', hr', e⟩ := hp t h.reach (h.again ▸ .refl) hits r (by
    convert hr using 3
    exact h.again)
  exact ⟨r'.1, fun _ => ⟨r'.2, hr'⟩, e⟩

/-- The state `w` with the query of the train `x` answered. -/
def answered (w : State) (id : Nat) (x : Train) (q : RayQuery) : State :=
  w.upd (.train id (some ({ x with ray := some q } : Train).norm))

/-- What an answer leaves of `r`, which its traversal reached but for the train's place. -/
theorem answered_result {r : State} (hr : r = w.againAt id) (hu : u = { w with ctxs := u.ctxs }) (x : Train) (q : RayQuery) :
    answered u id x q = { r with trains := (answered u id x q).trains, ctxs := (answered u id x q).ctxs } ∧
    OnlyTrain r (answered u id x q) id ∧ (answered u id x q).ctxs = u.ctxs ∧
    ∃ y, AMap.get? (answered u id x q).trains id = some y ∧ y.ray = some q := by
  subst hr
  refine ⟨?_, fun k hk => ?_, rfl, _, get?_upd_train id _, rfl⟩
  · rw [hu]
    rfl
  · refine (onlyTrain_upd u id _ k hk).trans ?_
    rw [hu]
    exact (get?_againAt w.trains id k).symm

/-- An answer for one lane that leaves another open. -/
theorem Ends.answered (hx : AMap.get? w.trains id = some x) (hw : q.waits = []) (hs : q.settled = false) :
    ∃ w1, Ends (setQuery id q : M s Unit) w () w1 ∧ AMap.get? w1.trains id = some ({ x with ray := some q } : Train).norm ∧
      Ends (closeQuery id : M s Unit) w1 () (answered w id x q) := by
  refine ⟨_, Ends.modTrain hx, get?_upd_train id _, ?_⟩
  have hc := Ends.closeQuery_open (s := s) (get?_upd_train (t := w) id ({ x with ray := some q } : Train)) rfl hw hs
  rw [State.upd_train_train] at hc
  exact hc

theorem busyLane_some {z : Train} (hz : AMap.get? t.trains id = some z) (hr : z.ray = some q) :
    busyLane t id L = if (q.lanes.at L).works then some (q, rayEU t id z) else none := by
  unfold busyLane
  rw [hz]
  simp only [Option.bind_some, hr]

section
variable (h : QueryRuns s id x q) (hx : x.Ok) (hw : q.waits = []) (hq : NoLookUp q)
  (hL : L < 32)
  (ho : ∃ K, K < 32 ∧ K ≠ L ∧ ∀ h k, (begun q).lanes.at K ≠ .outside ∧ (begun q).lanes.at K ≠ .done h k)
  (hb : q.lanes.at L = .busy) (hv : voidRay (q.rays.at L) = false)
  {tmax : Word} {r : Run (s.upd (.train id (some { x with ray := some (begun q) })))} {x' : Train}
  (hr : trace (rayEU s id x) q.bind.root.toNat (q.rays.at L) (q.mask.at L) tmax
    (⟨_, .refl⟩ : Run (s.upd (.train id (some { x with ray := some (begun q) })))) = .ok (hits, r))
  (hx' : AMap.get? r.1.trains id = some x')
include hL

theorem begun_busy (hb : q.lanes.at L = .busy) (hv : voidRay (q.rays.at L) = false) : (begun q).lanes.at L = .busy :=
  (begun_lane q hL).trans (by simp [hb, hv])

include ho

theorem settle_open : ((begun q).settle L hits).settled = false := by
  obtain ⟨K, hK, hKL, hne⟩ := ho
  refine not_settled hK ?_
  rw [settle_lane hL hK, if_neg hKL]
  exact hne

include h hx hw hq hb hv hr hx'

theorem execCandidatePresent_full (htp : (begun q).tp.at L = none) (hm : tmax = (q.rays.at L).getD 7 0) : ∃ w, r.1 = w.againAt id ∧
    exec (.candidatePresent id L) s = .next (answered w id x' ((begun q).settle L hits)) := by
  obtain ⟨u, hu, hl⟩ := execCandidatePresent_ends h hx hq hL
  obtain ⟨w, ht, e⟩ := hu.trace hr
  rw [e] at hx'
  obtain ⟨w1, h1, -, hc⟩ := Ends.answered (s := s) (q := (begun q).settle L hits) ((get?_againAt w.trains id id).symm.trans hx') hw
    (settle_open hL ho)
  have hbl : busyLane u id L = some (begun q, rayEU s id x) := by rw [hu.busy, begun_busy hL hb hv]; rfl
  refine ⟨w, e, hl _ (Ends.querySteps (u := u) (Ends.now ?_) (Ends.querySteps (Ends.now ?_) hc))⟩
  · rw [hbl]
    dsimp only
    rw [htp]
    exact Ends.pure ()
  · rw [hbl]
    subst hm
    exact Ends.bind ht h1

theorem execCandidatePresent_short (htp : (begun q).tp.at L = some tmax) (hf : ∃ h ∈ hits, h.opaqueHit = true ∨ q.kind = .closest) :
    ∃ w : State, r.1 = w.againAt id ∧ exec (.candidatePresent id L) s = .next (answered
      (w.upd (.ctx (s.ctxOf x) ((w.ctx (s.ctxOf x)).hptUp (dieOf (s.coreOf x)) 2))) id x' ((begun q).settle L hits)) := by
  obtain ⟨u, hu, hl⟩ := execCandidatePresent_ends h hx hq hL
  obtain ⟨w, ht, e⟩ := hu.trace hr
  rw [e] at hx'
  let w' := w.upd (.ctx (s.ctxOf x) ((w.ctx (s.ctxOf x)).hptUp (dieOf (s.coreOf x)) 2))
  have hx2 : AMap.get? w'.trains id = some x' := by
    rw [State.upd_trains]
    exact (get?_againAt w.trains id id).symm.trans hx'
  obtain ⟨w1, h1, hg, hc⟩ := Ends.answered (s := s) (q := (begun q).settle L hits) hx2 hw (settle_open hL ho)
  have hbl : busyLane u id L = some (begun q, rayEU s id x) := by rw [hu.busy, begun_busy hL hb hv]; rfl
  have hbl1 : busyLane w1 id L = none := by
    rw [busyLane_some hg rfl, settle_lane hL hL, if_pos rfl, settledLane_works]
    rfl
  have hfix : fixes (begun q).kind hits = true := by
    show fixes q.kind hits = true
    unfold fixes
    simpa using hf
  refine ⟨w, e, hl _ (Ends.querySteps (u := w1) (Ends.now ?_) (Ends.querySteps (u := w1) (Ends.now ?_) hc))⟩
  · rw [hbl]
    dsimp only
    rw [htp]
    refine Ends.bind ht (Ends.bind (Ends.countHpt _ _ _) ?_)
    rw [hfix, if_pos rfl]
    exact h1
  · rw [hbl1]
    exact Ends.pure ()

theorem candidatePresent_full (htp : (begun q).tp.at L = none) (hm : tmax = (q.rays.at L).getD 7 0) : ∃ t y q',
    exec (.candidatePresent id L) s = .next t ∧ t = { r.1 with trains := t.trains, ctxs := t.ctxs } ∧ OnlyTrain r.1 t id ∧
    t.ctxs = r.1.ctxs ∧ AMap.get? t.trains id = some y ∧ y.ray = some q' ∧
    (∀ K, K < 32 → K ≠ L → q'.lanes.at K = (begun q).lanes.at K) ∧ LaneFixed q L hits (q'.lanes.at L) := by
  obtain ⟨w, e, he⟩ := execCandidatePresent_full h hx hw hq hL ho hb hv hr hx' htp hm
  obtain ⟨h1, h2, h3, y, h4, h5⟩ := answered_result e (u := w) rfl x' ((begun q).settle L hits)
  refine ⟨_, y, _, he, h1, h2, by rw [h3, e]; rfl, h4, h5, fun K hK hKL => ?_, ?_⟩
  · rw [settle_lane hL hK, if_neg hKL]
  · rw [settle_lane hL hL, if_pos rfl]
    exact laneFixed_settledLane

theorem candidatePresent_short (hc : s.ctxOf x < 16) (htp : (begun q).tp.at L = some tmax)
    (hf : ∃ h ∈ hits, h.opaqueHit = true ∨ q.kind = .closest) : ∃ t y q',
    exec (.candidatePresent id L) s = .next t ∧ t = { r.1 with trains := t.trains, ctxs := t.ctxs } ∧ OnlyTrain r.1 t id ∧
    HptCounted r.1 t (s.ctxOf x) (dieOf (s.coreOf x) % 4) 2 ∧ AMap.get? t.trains id = some y ∧ y.ray = some q' ∧
    (∀ K, K < 32 → K ≠ L → q'.lanes.at K = (begun q).lanes.at K) ∧ LaneFixed q L hits (q'.lanes.at L) := by
  obtain ⟨w, e, he⟩ := execCandidatePresent_short h hx hw hq hL ho hb hv hr hx' htp hf
  have hcount := hptCounted w hc (dieOf (s.coreOf x)) (i := 2) (by decide)
  obtain ⟨h1, h2, h3, y, h4, h5⟩ := answered_result e (State.upd_ctx_rest w _ _) x' ((begun q).settle L hits)
  refine ⟨_, y, _, he, h1, h2, hcount.of_ctxs (by rw [e]; rfl) h3, h4, h5, fun K hK hKL => ?_, ?_⟩
  · rw [settle_lane hL hK, if_neg hKL]
  · rw [settle_lane hL hL, if_pos rfl]
    exact laneFixed_settledLane

end

end Sys2Proof.Machine
end

section
/-! SUPPORT. Records that an engine reads word by word, and the geometry record (R330, Table 18-3). -/

namespace Sys2Proof.Machine

variable {s t u v : State}

theorem Ends.engineRead_free {core ctx va pa : Nat} {priv : Bool} (h : XlAt t core ctx priv kRead va pa) (ho : t.owners = []) (n : Nat) :
    Ends (Machine.engineRead core ctx priv false va n : M s Nat) t (Bytes.read t.mem pa n) t := by
  have hn : t.ownerOf pa = none := by
    unfold State.ownerOf
    rw [ho]
    rfl
  refine Ends.bind (Ends.engineX h) (Ends.now ?_)
  rw [if_neg (by simpa using h.plain)]
  refine Ends.bind (u := t) (a := ()) (Ends.now ?_) (Ends.now (Ends.pure _))
  rw [hn]
  exact Ends.pure ()

theorem Ends.readWords {core ctx : Nat} {priv : Bool} (ho : t.owners = []) (n : Nat) {va pa : Nat}
    (h : ∀ j, j < 8 * n → XlAt t core ctx priv kRead (va + j) (pa + j)) :
    Ends (Machine.readWords core ctx priv va n : M s Nat) t (Bytes.read t.mem pa (8 * n)) t := by
  induction n generalizing va pa with
  | zero => exact Ends.pure 0
  | succ n ih =>
    have hlo := Ends.engineRead_free (s := s) (h 0 (by omega)) ho 8
    have hhi := ih (va := va + 8) (pa := pa + 8) fun j hj => by
      rw [Nat.add_assoc, Nat.add_assoc]
      exact h _ (by omega)
    have he : Bytes.read t.mem pa (8 * (n + 1)) = Bytes.read t.mem pa 8 + 2 ^ 64 * Bytes.read t.mem (pa + 8) (8 * n) := by
      rw [show 8 * (n + 1) = 8 + 8 * n by omega, Bytes.read_add]
      rfl
    rw [he]
    exact Ends.bind hlo (Ends.bind hhi (Ends.pure _))

/-- Bytes of a number read from memory are a field of it. -/
theorem bits_read (m : Bytes) (P : Nat) {o k n : Nat} (h : o + k ≤ n) : bits (Bytes.read m P n) (8 * o) (8 * k) = fieldAt m P o k := by
  obtain ⟨r, rfl⟩ := Nat.exists_eq_add_of_le h
  unfold bits fieldAt
  rw [leVal_get, Nat.add_assoc, Bytes.read_add, Bytes.read_add, Nat.pow_mul, Nat.pow_mul, show (2 : Nat) ^ 8 = 256 by rfl,
    Nat.add_mul_div_left _ _ (Nat.pow_pos (by decide)), Nat.div_eq_of_lt (Bytes.read_lt m P o), Nat.zero_add, Nat.add_mul_mod_self_left,
    Nat.mod_eq_of_lt (Bytes.read_lt ..)]

theorem fieldAt_lt (m : Bytes) (P o k : Nat) : fieldAt m P o k < 256 ^ k := by
  unfold fieldAt
  rw [leVal_get]
  exact Bytes.read_lt ..

/-- What a geometry record must keep (Table 18-3). -/
def GeoOk (m : Bytes) (P : Nat) : Prop :=
  fieldAt m P 0x11 1 < 2 ∧ fieldAt m P 0x12 46 = 0 ∧ -64 ≤ (BitVec.ofNat 8 (fieldAt m P 0x10 1)).toInt ∧
    (BitVec.ofNat 8 (fieldAt m P 0x10 1)).toInt ≤ 63

/-- The binding that a geometry record gives. -/
def geoRead (m : Bytes) (P : Nat) : Geo :=
  { root := BitVec.ofNat 64 (fieldAt m P 0 8), gid := BitVec.ofNat 32 (fieldAt m P 8 4), gen := BitVec.ofNat 32 (fieldAt m P 12 4)
    quant := (BitVec.ofNat 8 (fieldAt m P 0x10 1)).toInt, predict := decide (fieldAt m P 0x11 1 = 1) }

theorem toInt_byte {b : Nat} (h : b < 256) : (BitVec.ofNat 8 b).toInt = if b < 128 then (b : Int) else (b : Int) - 256 := by
  rw [BitVec.toInt_eq_toNat_cond, BitVec.toNat_ofNat, Nat.mod_eq_of_lt h]
  split <;> split <;> omega

/-- The low bit of a byte of a number, and the rest of it. -/
theorem bits_byte (v o : Nat) : bits v (8 * o + 1) 7 = bits v (8 * o) 8 / 2 ∧ bitAt v (8 * o) = decide (bits v (8 * o) 8 % 2 = 1) := by
  unfold bits bitAt
  rw [Nat.pow_succ, ← Nat.div_div_eq_div_mul]
  generalize v / 2 ^ (8 * o) = w
  constructor
  · omega
  · rw [Nat.mod_mod_of_dvd _ (by decide), beq_eq_decide]

theorem geoOf_read (m : Bytes) (P : Nat) : (GeoOk m P → geoOf (Bytes.read m P 64) = some (geoRead m P)) ∧
    (¬GeoOk m P → geoOf (Bytes.read m P 64) = none) := by
  have hroot : bits (Bytes.read m P 64) 0 64 = fieldAt m P 0 8 := bits_read (o := 0) (k := 8) m P (by decide)
  have hgid : bits (Bytes.read m P 64) (32 * 2) 32 = fieldAt m P 8 4 := bits_read (o := 8) (k := 4) m P (by decide)
  have hgen : bits (Bytes.read m P 64) (32 * 3) 32 = fieldAt m P 12 4 := bits_read (o := 12) (k := 4) m P (by decide)
  have hq : bits (Bytes.read m P 64) (8 * 0x10) 8 = fieldAt m P 0x10 1 := bits_read (o := 0x10) (k := 1) m P (by decide)
  have hz : bits (Bytes.read m P 64) (8 * 0x12) (8 * 46) = fieldAt m P 0x12 46 := bits_read m P (by decide)
  have hp : bits (Bytes.read m P 64) (8 * 0x11) 8 = fieldAt m P 0x11 1 := bits_read (o := 0x11) (k := 1) m P (by decide)
  obtain ⟨hp7, hp1⟩ := bits_byte (Bytes.read m P 64) 0x11
  rw [hp] at hp7 hp1
  have hrest : fieldAt m P 0x11 1 / 2 = 0 ↔ fieldAt m P 0x11 1 < 2 := by omega
  have hone (h : fieldAt m P 0x11 1 < 2) : decide (fieldAt m P 0x11 1 % 2 = 1) = decide (fieldAt m P 0x11 1 = 1) := by
    rw [Nat.mod_eq_of_lt h]
  unfold GeoOk geoRead geoOf wordAt
  rw [toInt_byte (fieldAt_lt m P 0x10 1), hroot, hgid, hgen, hq, hz, hp7, hp1]
  simp only [Bool.and_eq_true, decide_eq_true_eq, hrest, and_assoc]
  constructor
  · intro h
    rw [if_pos h, hone h.1]
  · intro h
    rw [if_neg h]

end Sys2Proof.Machine
end

section
/-! SUPPORT. The operations of the ray unit's queue: `rygeo` and `ryinv` (R330, R331). -/

namespace Sys2Proof.Machine

variable {s t u v : State} {op : Nat} {e : EngineOp} {x y : Train} {wh : Wheel}

theorem upds_hpt (f : List HptEntry → List HptEntry) (l : AMap (List HptEntry)) (t : State) :
    t.upds (l.map fun kv => .hpt kv.1 (f kv.2)) = { t with hpt := l.foldl (fun m kv => AMap.set m kv.1 (f kv.2)) t.hpt } := by
  induction l generalizing t with
  | nil => rfl
  | cons kv l ih => exact ih _

/-- The entries of a context leave the table, all or those of one geometry id (R331). -/
def keptHpt (s : State) (ctx : Nat) (gid : Option Word) (l : List HptEntry) : List HptEntry :=
  l.filter fun e => !(e.tag == (s.ctx ctx).xtag && (match gid with | some g => e.gid == g | none => true))

theorem Ends.removeHpt (hk : KeysRise s.hpt) (ctx : Nat) (gid : Option Word) : ∃ m,
    Ends (Machine.removeHpt ctx gid : M s Unit) s () { s with hpt := m } ∧
      ∀ d, AMap.getD m d [] = keptHpt s ctx gid (AMap.getD s.hpt d []) := by
  refine ⟨_, Ends.now (upds_hpt (keptHpt s ctx gid) s.hpt s ▸ Ends.updAll _), fun d => ?_⟩
  unfold AMap.getD
  rw [get?_foldl_set (keptHpt s ctx gid) hk]
  cases AMap.get? s.hpt d <;> rfl

theorem geoAt_eq (wh : Wheel) (k : BitVec 2) : geoAt wh k.toNat = wh.geos[k.toNat]'k.isLt := by
  have hk : k.toNat % 4 = k.toNat := Nat.mod_eq_of_lt k.isLt
  unfold geoAt
  simp only [hk]

/-! ## The first operation of a train's ray queue -/

/-- From `s'`, which a ray operation of the train has reached, the operation ends and leaves its train `y` as `P` says. -/
def RayEnds (s s' : State) (op : Nat) (e : EngineOp) (x : Train) (P : Train → Prop) : Prop :=
  ∃ t y, exec (.rayQueryComplete e.train) s = .next t ∧ t = { s' with trains := t.trains, ray := AMap.erase s.ray op } ∧
    OnlyTrain s t e.train ∧ AMap.get? t.trains e.train = some y ∧ y.s = x.s ∧ y.v = x.v ∧ P y

section
variable (h : OpHead s s.ray op e x wh)
include h

/-- The operation as one of a stream queue with the same entries. -/
theorem OpHead.asStream : OpHead { s with stream := s.ray } s.ray op e x wh :=
  ⟨h.found, h.own, h.keys, h.first, h.train, h.wheel, h.free_, h.runs, h.fifo, h.writes, h.acquired, h.synced⟩

theorem OpHead.opCtx_ray : Machine.opCtx s e = some (ctxOfOp s x wh) := h.asStream.opCtx

theorem OpHead.firstOf_ray : Machine.firstOf s.ray e.train = some op := h.asStream.firstOf

theorem OpHead.issueDone : Machine.issueDone s e.train e.id = true := by
  unfold Machine.issueDone
  rw [h.train, h.own]
  simp only [Bool.and_eq_true, Bool.not_eq_true', List.any_eq_false, decide_eq_true_eq, Nat.not_lt, beq_iff_eq, not_and, and_imp]
  exact ⟨⟨⟨h.fifo, h.writes⟩, h.acquired⟩, h.synced⟩

theorem OpHead.exec_ray (hs : Ends (rayOp op e : M s Unit) s () u) : Machine.exec (.rayQueryComplete e.train) s = .next u := by
  refine Ends.runE (Ends.now ?_)
  rw [h.train]
  dsimp only
  rw [h.firstOf_ray]
  dsimp only
  rw [h.found]
  exact hs

theorem OpHead.acts_ray : (e.held || frozen s (ctxOfOp s x wh).ctx || !Machine.issueDone s e.train e.id) = false := by
  have hf : frozen s (ctxOfOp s x wh).ctx = false := h.runs
  rw [h.free_, hf, h.issueDone]
  rfl

/-- An operation that completes. -/
theorem OpHead.completes_ray {s' : State} (hr : Ends (rayRun e (ctxOfOp s x wh) : M s Unit) s () s') (ht : s'.trains = s.trains)
    (hq : s'.ray = s.ray) : RayEnds s s' op e x (Completed x · op) := by
  obtain ⟨u, y, hu, ho⟩ := Ends.endOp (s := s) (t := s'.upd (.ray op none)) (id := e.train) (op := op) (x := x)
    (by rw [State.upd_trains, ht]; exact h.train)
  refine ⟨u, y, h.exec_ray (Ends.now ?_), by rw [ho.frame, ← hq]; rfl, fun k hk => (ho.only k hk).trans ?_, ho.get, ho.regs.1, ho.regs.2, ho.done⟩
  · rw [h.opCtx_ray]
    dsimp only
    rw [h.acts_ray, if_neg (by decide)]
    exact Ends.bind (Ends.tryM hr) (Ends.bind (Ends.upd _) hu)
  · rw [State.upd_trains, ht]

/-- An operation that finds a trap. -/
theorem OpHead.traps_ray {c : Byte} {lanes : Option Mask} {w : Option DWord}
    (hr : Stops (rayRun e (ctxOfOp s x wh) : M s Unit) s (.trap c lanes w)) : RayEnds s s op e x (Deferred_ x · op c lanes) := by
  obtain ⟨u, y, hu, ho, hd⟩ := Ends.endOp_trap (s := s) (t := s.upd (.ray op none)) (id := e.train) (op := op) (x := x)
    (by simpa using h.train) c lanes (foundValue c w)
  refine ⟨u, y, h.exec_ray (Ends.now ?_), by rw [ho.frame]; rfl, ho.only, ho.get, ho.regs.1, ho.regs.2, hd⟩
  rw [h.opCtx_ray]
  dsimp only
  rw [h.acts_ray, if_neg (by decide)]
  exact Ends.bind (Stops.tryM hr) (Ends.bind (Ends.upd _) hu)

/-! ## `rygeo` -/

/-- The state with a binding of the wheel set. -/
def boundGeo (s : State) (x : Train) (wh : Wheel) (k : BitVec 2) (g : Option Geo) : State :=
  s.upd (.wheel x.wheel (some { wh with geos := wh.geos.set k.toNat g k.isLt }))

theorem Ends.setGeo (k : BitVec 2) (g : Option Geo) : Ends (Machine.setGeo x.wheel k.toNat g : M s Unit) s () (boundGeo s x wh k g) := by
  refine Ends.now ?_
  rw [h.wheel]
  have hk : k.toNat % 4 = k.toNat := Nat.mod_eq_of_lt k.isLt
  simp only [hk]
  exact Ends.upd _

section
variable {sb : Sb} {k : BitVec 2} {a : Src} (he : e.instr = .rygeo sb k a)
include he

omit h in
theorem rayRun_rygeo (o : OpCtx) : (rayRun e o : M s Unit) = bindGeo o k.toNat (e.cap.a.at 0).toNat := by
  unfold rayRun
  rw [he]

theorem rygeo_unbinds (hz : (e.cap.a.at 0).toNat = 0) : RayEnds s (boundGeo s x wh k none) op e x (Completed x · op) := by
  refine h.completes_ray ?_ rfl rfl
  rw [rayRun_rygeo he]
  unfold bindGeo
  rw [if_pos hz]
  exact Ends.setGeo h k none

theorem rygeo_misaligned (hz : (e.cap.a.at 0).toNat % 64 ≠ 0) : RayEnds s s op e x (Deferred_ x · op 0x04 none) := by
  refine h.traps_ray (w := none) ?_
  rw [rayRun_rygeo he]
  unfold bindGeo
  rw [if_neg (by intro hc; simp [hc] at hz), if_pos hz]
  exact Stops.stop _

section
variable {P : Nat} (hz : (e.cap.a.at 0).toNat ≠ 0) (hm : (e.cap.a.at 0).toNat % 64 = 0) (ho : s.owners = [])
  (hx : ∀ j, j < 64 → XlAt s wh.core (s.ctxOf x) (s.privDispatch x) kRead ((e.cap.a.at 0).toNat + j) (P + j))
include hz hm ho hx

theorem rygeo_binds (hg : GeoOk s.mem P) : RayEnds s (boundGeo s x wh k (some (geoRead s.mem P))) op e x (Completed x · op) := by
  refine h.completes_ray ?_ rfl rfl
  rw [rayRun_rygeo he]
  unfold bindGeo
  rw [if_neg hz, if_neg (not_not.2 hm)]
  refine Ends.bind (Ends.readWords ho 8 hx) ?_
  rw [(geoOf_read s.mem P).1 hg]
  exact Ends.setGeo h k _

theorem rygeo_unfit (hg : ¬GeoOk s.mem P) : RayEnds s s op e x (Deferred_ x · op 0x03 none) := by
  refine h.traps_ray (w := none) ?_
  rw [rayRun_rygeo he]
  unfold bindGeo
  rw [if_neg hz, if_neg (not_not.2 hm)]
  refine Stops.bind (Ends.readWords ho 8 hx) ?_
  rw [(geoOf_read s.mem P).2 hg]
  exact Stops.stop _

end
end

/-! ## `ryinv` -/

theorem ryinv_clears {ctx : Nat} {gid : Option Word} (hk : KeysRise s.hpt)
    (hr : (rayRun e (ctxOfOp s x wh) : M s Unit) = removeHpt ctx gid) : ∃ m : AMap (List HptEntry),
      RayEnds s { s with hpt := m } op e x (Completed x · op) ∧ ∀ d, AMap.getD m d [] = keptHpt s ctx gid (AMap.getD s.hpt d []) := by
  obtain ⟨m, hm, hd⟩ := Ends.removeHpt hk ctx gid
  exact ⟨m, h.completes_ray (by rw [hr]; exact hm) rfl rfl, hd⟩

theorem ryinv_all {sb : Sb} (he : e.instr = .ryinv sb none) (hk : KeysRise s.hpt) : ∃ m : AMap (List HptEntry),
    RayEnds s { s with hpt := m } op e x (Completed x · op) ∧
      ∀ d, AMap.getD m d [] = keptHpt s (s.ctxOf x) none (AMap.getD s.hpt d []) :=
  ryinv_clears h hk (by unfold rayRun; rw [he]; rfl)

section
variable {sb : Sb} {k : BitVec 2} (he : e.instr = .ryinv sb (some k))
include he

theorem ryinv_one {g : Geo} (hg : wh.geos[k.toNat]'k.isLt = some g) (hk : KeysRise s.hpt) : ∃ m : AMap (List HptEntry),
    RayEnds s { s with hpt := m } op e x (Completed x · op) ∧
      ∀ d, AMap.getD m d [] = keptHpt s (s.ctxOf x) (some g.gid) (AMap.getD s.hpt d []) := by
  refine ryinv_clears h hk ?_
  unfold rayRun
  rw [he]
  dsimp only
  rw [show (ctxOfOp s x wh).wheel = wh from rfl, geoAt_eq, hg]
  rfl

theorem ryinv_unbound (hg : wh.geos[k.toNat]'k.isLt = none) : RayEnds s s op e x (Deferred_ x · op 0x03 none) := by
  refine h.traps_ray (w := none) ?_
  unfold rayRun
  rw [he]
  dsimp only
  rw [show (ctxOfOp s x wh).wheel = wh from rfl, geoAt_eq, hg]
  exact Stops.stop _

end
end

/-! ## The ray unit -/

/-- Settles O54: a candidate or a result by the hits of the lane's traversal, the close of a query with nothing to trace, and each operation
of the ray unit's queue. -/
theorem rayWork : Obligations.RayWork := by
  refine ⟨fun s id L x q h hx hL hb hw => ?_, fun s id x q h hx hn hw hp hv hpe => ?_, fun s op e x wh h _ => ?_⟩
  · intro q0 s0 others hq
    refine ⟨fun hv => ⟨execCandidatePresent_void h hx hw hq hL hb hv, execCandidatePresent_last h hx hw hq hL hb hv⟩,
      fun hits r hv htp ho hr x' hx' => ?_, fun tp hits r hv htp ho hc hr hf x' hx' => ?_⟩
    · exact candidatePresent_full h hx hw hq hL ho hb hv hr hx' htp rfl
    · exact candidatePresent_short h hx hw hq hL ho hb hv hr hx' hc htp hf
  · exact execRayQueryComplete_closes h hx hw (.inl hp) hn hp hv hpe
  · refine ⟨fun sb k a he => ⟨rygeo_unbinds h he, rygeo_misaligned h he, fun P hz hm ho hxl =>
      ⟨rygeo_binds h he hz hm ho hxl, rygeo_unfit h he hz hm ho hxl⟩⟩, fun sb he => ryinv_all h he,
      fun sb k he hk => ⟨fun g hg => ryinv_one h he hg hk, ryinv_unbound h he⟩⟩

end Sys2Proof.Machine
end

section
/-! SUPPORT. Contexts asked to stop, and contexts let go on (R78, R79, R379). -/

namespace Sys2Proof.Machine

variable {s t u : State} {c k : Nat}

/-! ## One context asked to stop -/

theorem ctx_upd_ctx_ne (t : State) (hk : k < 16) (hc : c < 16) (h : k ≠ c) (z : Context) : (t.upd (.ctx c z)).ctx k = t.ctx k := by
  simp [State.ctx, hc, Nat.mod_eq_of_lt hk, Vector.getElem_set_ne, h.symm]

/-- The context whose stop is under way. -/
def Context.stopping (x : Context) : Context := { x with preempt := true }

/-- The context whose stop is complete. -/
def Context.halted (x : Context) : Context := { x with preempt := false, stopped := true, regulator := 0 }

/-- The state after a context all of whose trains have stopped is noted as stopped. -/
def settled (t : State) (c : Nat) : State :=
  if ((t.ctx c).preempt && (trainsIn t c).all fun kv => kv.2.stopped || kv.2.ending) = true
    then t.upd (.ctx c (t.ctx c).halted) else t

/-- The state after the stop of a context has been requested. -/
def asked (t : State) (c : Nat) : State :=
  if (t.ctx c).stopped = true then t else settled (t.upd (.ctx c (t.ctx c).stopping)) c

theorem Ends.settleStop (c : Nat) : Ends (settleStop c : M s Unit) t () (settled t c) := by
  refine Ends.now ?_
  unfold settled
  dsimp only
  split
  · exact Ends.upd _
  · exact Ends.pure ()

theorem Ends.requestStop (c : Nat) : Ends (requestStop c : M s Unit) t () (asked t c) := by
  refine Ends.now ?_
  unfold asked
  split
  · exact Ends.pure ()
  · exact Ends.bind (Ends.upd _) (Ends.settleStop c)

theorem settled_rest (t : State) (c : Nat) : settled t c = { t with ctxs := (settled t c).ctxs } := by
  unfold settled
  split
  · exact State.upd_ctx_rest ..
  · rfl

theorem asked_rest (t : State) (c : Nat) : asked t c = { t with ctxs := (asked t c).ctxs } := by
  unfold asked
  split
  · rfl
  · rw [settled_rest, State.upd_ctx_rest]

theorem settled_ctx_ne (hk : k < 16) (hc : c < 16) (h : k ≠ c) : (settled t c).ctx k = t.ctx k := by
  unfold settled
  split
  · exact ctx_upd_ctx_ne t hk hc h _
  · rfl

theorem asked_ctx_ne (hk : k < 16) (hc : c < 16) (h : k ≠ c) : (asked t c).ctx k = t.ctx k := by
  unfold asked
  split
  · rfl
  · rw [settled_ctx_ne hk hc h, ctx_upd_ctx_ne t hk hc h]

theorem asked_ctx_stopped (h : (t.ctx c).stopped = true) : (asked t c).ctx c = t.ctx c := by
  unfold asked
  rw [if_pos h]

/-- A stop request does not touch what is saved. -/
theorem asked_saved (hk : k < 16) (hc : c < 16) : ((asked t c).ctx k).saved = (t.ctx k).saved := by
  by_cases h : k = c
  · subst h
    unfold asked settled
    split
    · rfl
    · split <;> simp only [ctx_upd_ctx _ hk] <;> rfl
  · rw [asked_ctx_ne hk hc h]

theorem allStopped_iff : AllStopped t c ↔ ((trainsIn t c).all fun kv => kv.2.stopped || kv.2.ending) = true := by
  simp only [AllStopped, trainsIn, List.all_eq_true, List.mem_filter, beq_iff_eq, Bool.or_eq_true, Prod.forall, and_imp]

/-- Contexts do not tell whether the trains of one have stopped. -/
theorem AllStopped.of_ctxs (hu : u = { t with ctxs := u.ctxs }) : AllStopped u c ↔ AllStopped t c := by
  rw [hu]
  exact Iff.rfl

theorem settled_ctx (hc : c < 16) (hp : (t.ctx c).preempt = true) :
    (AllStopped t c → (settled t c).ctx c = (t.ctx c).halted.norm) ∧ (¬AllStopped t c → (settled t c).ctx c = t.ctx c) := by
  rw [allStopped_iff]
  unfold settled
  rw [hp, Bool.true_and]
  exact ⟨fun h => by rw [if_pos h, ctx_upd_ctx t hc], fun h => by rw [if_neg h]⟩

theorem stopAsked_asked (hc : c < 16) (h : (t.ctx c).stopped = false) : StopAsked t c ((asked t c).ctx c) := by
  have hx := ctx_upd_ctx t hc (t.ctx c).stopping
  have ha : AllStopped (t.upd (.ctx c (t.ctx c).stopping)) c ↔ AllStopped t c := AllStopped.of_ctxs (State.upd_ctx_rest ..)
  obtain ⟨hall, hnot⟩ := settled_ctx hc (t := t.upd (.ctx c (t.ctx c).stopping)) (by rw [hx]; rfl)
  unfold asked
  rw [if_neg (by simp [h])]
  refine ⟨fun hs => ?_, fun hs => ?_⟩
  · rw [hall (ha.2 hs)]
    exact ⟨rfl, rfl⟩
  · rw [hnot fun h' => hs (ha.1 h'), hx]
    exact ⟨h, rfl⟩

/-! ## Several contexts asked to stop -/

/-- From `t`, the stop of the contexts that `on` names has been requested. -/
structure Asked (t u : State) (on : Nat → Prop) : Prop where
  frame : u = { t with ctxs := u.ctxs }
  saved : ∀ c, c < 16 → (u.ctx c).saved = (t.ctx c).saved
  off : ∀ c, c < 16 → ¬on c ∨ (t.ctx c).stopped = true → u.ctx c = t.ctx c
  asked : ∀ c, c < 16 → on c → (t.ctx c).stopped = false → StopAsked t c (u.ctx c)

theorem Ends.requestStops {l : List Nat} (hl : ∀ c ∈ l, c < 16) (hn : l.Nodup) :
    ∃ u, Ends (l.forM Machine.requestStop : M s Unit) t () u ∧ Asked t u (· ∈ l) := by
  induction l generalizing t with
  | nil => exact ⟨t, Ends.pure (), rfl, fun _ _ => rfl, fun _ _ _ => rfl, fun _ _ h => nomatch h⟩
  | cons k l ih =>
    have hk : k < 16 := hl k List.mem_cons_self
    obtain ⟨hkl, hn'⟩ := List.nodup_cons.1 hn
    obtain ⟨u, hu, hf, hsaved, hoff, hask⟩ := ih (t := asked t k) (fun c hc => hl c (List.mem_cons_of_mem _ hc)) hn'
    refine ⟨u, Ends.bind (Ends.requestStop k) hu, ?_, fun c hc => ?_, fun c hc h => ?_, fun c hc h hs => ?_⟩
    · rw [hf, asked_rest]
    · rw [hsaved c hc, asked_saved hc hk]
    · by_cases hck : c = k
      · subst hck
        rw [hoff c hc (.inl hkl), asked_ctx_stopped (by simpa using h)]
      · have e := asked_ctx_ne (t := t) hc hk hck
        rw [hoff c hc (by rw [e]; simpa [hck] using h), e]
    · by_cases hck : c = k
      · subst hck
        rw [hoff c hc (.inl hkl)]
        exact stopAsked_asked hc hs
      · have e := asked_ctx_ne (t := t) hc hk hck
        have := hask c hc (by simpa [hck] using h) (by rw [e]; exact hs)
        unfold StopAsked at this ⊢
        rwa [AllStopped.of_ctxs (asked_rest t k)] at this

theorem contexts_of_mask (mask : BitVec 16) :
    (∀ c ∈ (List.range 16).filter fun c => mask.getLsbD c, c < 16) ∧ ((List.range 16).filter fun c => mask.getLsbD c).Nodup :=
  ⟨fun _ h => List.mem_range.1 (List.mem_filter.1 h).1, List.nodup_range.filter _⟩

theorem mem_contexts_of_mask {mask : BitVec 16} : c ∈ ((List.range 16).filter fun c => mask.getLsbD c) ↔ mask.getLsbD c = true := by
  simp only [List.mem_filter, List.mem_range, and_iff_right_iff_imp]
  exact BitVec.lt_of_getLsbD

theorem Ends.requestAll (mask : BitVec 16) :
    ∃ u, Ends (Machine.requestAll mask : M s Unit) t () u ∧ Asked t u fun c => mask.getLsbD c = true := by
  obtain ⟨u, hu, ha⟩ := Ends.requestStops (s := s) (t := t) (contexts_of_mask mask).1 (contexts_of_mask mask).2
  simp only [mem_contexts_of_mask] at ha
  exact ⟨u, hu, ha⟩

/-! ## One context let go on -/

/-- The context may go on: it stands stopped or a stop of it is under way, and it has not been saved. -/
def Context.MayGoOn (x : Context) : Prop := x.saved = false ∧ (x.stopped = true ∨ x.preempt = true)

/-- The context that has gone on. -/
def Context.running (x : Context) : Context := { x with stopped := false, preempt := false, regulator := 0 }

/-- The state after a context has been let go on, with no thermal stop. -/
def letGo (t : State) (c : Nat) : State :=
  (t.upd (.ctx c (t.ctx c).running)).upds ((t.trains.filter fun kv => t.ctxOf kv.2 == c).map fun kv => .train kv.1 (some (wentOn kv.2)))

/-- The state in which a thermal stop holds a further context. -/
def heldToo (t : State) (c : Nat) : State := t.upd (.mg { t.mg with hold := t.mg.hold.map fun m => m ||| BitVec.ofNat 16 (2 ^ c) })

theorem not_mayGoOn_iff {x : Context} : ¬x.MayGoOn ↔ (x.saved || !(x.stopped || x.preempt)) = true := by
  unfold Context.MayGoOn
  cases x.saved <;> cases x.stopped <;> cases x.preempt <;> simp

theorem Ends.resumeCtx_stays (h : ¬(t.ctx c).MayGoOn) : Ends (resumeCtx c : M s Unit) t () t := by
  refine Ends.now ?_
  dsimp only
  rw [if_pos (not_mayGoOn_iff.1 h)]
  exact Ends.pure ()

theorem Ends.resumeCtx_goes (h : (t.ctx c).MayGoOn) (hh : t.mg.hold = none) : Ends (resumeCtx c : M s Unit) t () (letGo t c) := by
  refine Ends.now ?_
  dsimp only
  rw [if_neg fun h' => not_mayGoOn_iff.2 h' h, hh, if_neg (by decide)]
  exact Ends.bind (Ends.upd _) (Ends.updAll _)

theorem Ends.resumeCtx_held (h : (t.ctx c).MayGoOn) {m : BitVec 16} (hh : t.mg.hold = some m) :
    Ends (resumeCtx c : M s Unit) t () (heldToo t c) := by
  refine Ends.now ?_
  dsimp only
  rw [if_neg fun h' => not_mayGoOn_iff.2 h' h, if_pos (by rw [hh]; rfl)]
  exact Ends.upd _

/-! ## Several contexts let go on -/

/-- From `t`, the contexts that `on` names have gone on, with their trains. -/
structure LetGo (t u : State) (on : Nat → Prop) : Prop where
  frame : u = { t with ctxs := u.ctxs, trains := u.trains }
  ctx : ∀ c, c < 16 → (on c → u.ctx c = (t.ctx c).running.norm) ∧ (¬on c → u.ctx c = t.ctx c)
  keys : KeysRise t.trains → KeysRise u.trains
  train : KeysRise t.trains → ∀ id x, AMap.get? t.trains id = some x → x.Ok →
    (on (t.ctxOf x) → AMap.get? u.trains id = some (wentOn x)) ∧ (¬on (t.ctxOf x) → AMap.get? u.trains id = some x)

theorem letGo_refl {on : Nat → Prop} (h : ∀ c, ¬on c) : LetGo t t on :=
  ⟨rfl, fun c _ => ⟨fun h' => absurd h' (h c), fun _ => rfl⟩, id, fun _ _ _ hx _ => ⟨fun h' => absurd h' (h _), fun _ => hx⟩⟩

theorem LetGo.congr {on on' : Nat → Prop} (h : LetGo t u on) (ho : ∀ c, on c ↔ on' c) : LetGo t u on' := by
  obtain rfl : on = on' := funext fun c => propext (ho c)
  exact h

theorem wentOn_ok {x : Train} (h : x.Ok) : (wentOn x).Ok := ⟨h.live, h.p7, h.pc, h.opened⟩

theorem letGo_letGo (t : State) (hc : c < 16) : LetGo t (letGo t c) (· = c) := by
  let t1 := t.upd (.ctx c (t.ctx c).running)
  have h1 : t1 = { t with ctxs := t1.ctxs } := State.upd_ctx_rest ..
  have he : letGo t c = { t1 with trains := (letGo t c).trains } := by
    unfold letGo
    rw [upds_train_list]
  have ht : t1.trains = t.trains := by rw [h1]
  have hch (hk : KeysRise t.trains) : TrainsChanged t1 (letGo t c) (fun _ z => t.ctxOf z == c) wentOn := by
    have h := trainsChanged (t := t1) (by rw [ht]; exact hk) (fun _ z => t.ctxOf z == c) wentOn
    rwa [ht] at h
  refine ⟨?_, fun k hk => ?_, fun hk => (hch hk).keys, fun hk id x hx hok => ?_⟩
  · rw [he, h1]
  · rw [he]
    refine ⟨fun h => ?_, fun h => ctx_upd_ctx_ne t hk hc h _⟩
    rw [h]
    exact ctx_upd_ctx t hc _
  · have hg := (hch hk).get id
    rw [ht, hx] at hg
    rw [hg]
    refine ⟨fun h => ?_, fun h => ?_⟩
    · simp only [Option.map_some, h, beq_self_eq_true, if_true, Train.norm_of_ok (wentOn_ok hok)]
    · simp only [Option.map_some, beq_iff_eq, h, if_false]

/-- Some contexts go on, and then others. -/
theorem LetGo.trans {v : State} {p q r : Nat → Prop} (h : LetGo t v p) (h' : LetGo v u q) (hd : ∀ c, p c → ¬q c)
    (hr : ∀ c, r c ↔ p c ∨ q c) : LetGo t u r := by
  have hof (x : Train) : v.ctxOf x = t.ctxOf x := by
    rw [h.frame]
    rfl
  refine ⟨by rw [h'.frame, h.frame], fun c hc => ?_, fun hk => h'.keys (h.keys hk), fun hk id x hx hok => ?_⟩
  · obtain ⟨hp, hnp⟩ := h.ctx c hc
    obtain ⟨hq, hnq⟩ := h'.ctx c hc
    rw [hr]
    refine ⟨fun ho => ?_, fun ho => ?_⟩
    · rcases ho with ho | ho
      · rw [hnq (hd c ho), hp ho]
      · rw [hq ho, hnp fun h => hd c h ho]
    · rw [hnq fun h => ho (.inr h), hnp fun h => ho (.inl h)]
  · obtain ⟨hp, hnp⟩ := h.train hk id x hx hok
    have hv {y : Train} (hy : AMap.get? v.trains id = some y) (ok : y.Ok) := h'.train (h.keys hk) id y hy ok
    rw [hr]
    refine ⟨fun ho => ?_, fun ho => ?_⟩
    · rcases ho with ho | ho
      · exact (hv (hp ho) (wentOn_ok hok)).2 (by rw [hof]; exact hd _ ho)
      · exact (hv (hnp fun h => hd _ h ho) hok).1 (by rw [hof]; exact ho)
    · exact (hv (hnp fun h => ho (.inl h)) hok).2 (by rw [hof]; exact fun h => ho (.inr h))

theorem Ends.resumeCtxs {l : List Nat} (hl : ∀ c ∈ l, c < 16) (hn : l.Nodup) (hh : t.mg.hold = none) :
    ∃ u, Ends (l.forM Machine.resumeCtx : M s Unit) t () u ∧ LetGo t u fun c => c ∈ l ∧ (t.ctx c).MayGoOn := by
  induction l generalizing t with
  | nil => exact ⟨t, Ends.pure (), letGo_refl fun _ h => nomatch h.1⟩
  | cons k l ih =>
    have hk : k < 16 := hl k List.mem_cons_self
    obtain ⟨hkl, hn'⟩ := List.nodup_cons.1 hn
    obtain ⟨v, hv, hg⟩ : ∃ v, Ends (resumeCtx k : M s Unit) t () v ∧ LetGo t v fun c => c = k ∧ (t.ctx c).MayGoOn := by
      by_cases hm : (t.ctx k).MayGoOn
      · exact ⟨_, Ends.resumeCtx_goes hm hh, (letGo_letGo t hk).congr fun c => ⟨fun h => ⟨h, h ▸ hm⟩, fun h => h.1⟩⟩
      · exact ⟨t, Ends.resumeCtx_stays hm, letGo_refl fun c h => hm (h.1 ▸ h.2)⟩
    obtain ⟨u, hu, hg'⟩ := ih (t := v) (fun c hc => hl c (List.mem_cons_of_mem _ hc)) hn' (by rw [hg.frame]; exact hh)
    refine ⟨u, Ends.bind hv hu, hg.trans hg' (fun c hp hq => hkl (hp.1 ▸ hq.1)) fun c => ?_⟩
    rw [List.mem_cons, or_and_right]
    refine or_congr_right (and_congr_right fun hc => ?_)
    rw [(hg.ctx c (hl c (List.mem_cons_of_mem _ hc))).2 fun h => hkl (h.1 ▸ hc)]

/-- `resumeAll` with no thermal stop. -/
theorem Ends.resumeAll (hh : t.mg.hold = none) (mask : BitVec 16) : ∃ u, Ends (Machine.resumeAll mask : M s Unit) t () u ∧
    LetGo t u fun c => mask.getLsbD c = true ∧ (t.ctx c).MayGoOn := by
  obtain ⟨u, hu, hg⟩ := Ends.resumeCtxs (s := s) (contexts_of_mask mask).1 (contexts_of_mask mask).2 hh
  simp only [mem_contexts_of_mask] at hg
  exact ⟨u, hu, hg⟩

theorem running_goes (x : Context) : x.running.norm.stopped = false ∧ x.running.norm.preempt = false ∧ x.running.norm.regulator = 0 :=
  ⟨rfl, rfl, rfl⟩

theorem LetGo.resumed {on on' : Nat → Prop} (h : LetGo t u on) (hk : KeysRise t.trains) (ho : ∀ c, on c ↔ on' c) : Resumed t u on' := by
  have h' := h.congr ho
  refine ⟨fun c hc => ⟨fun hon => ?_, (h'.ctx c hc).2⟩, h'.train hk⟩
  rw [(h'.ctx c hc).1 hon]
  exact running_goes _

/-! ## Contexts held by a thermal stop -/

/-- From `t`, a thermal stop that held `m` holds the contexts that `on` names too. -/
structure HeldToo (t u : State) (m : BitVec 16) (on : Nat → Prop) : Prop where
  frame : u = { t with mg := u.mg }
  mg : u.mg.svc = t.mg.svc ∧ u.mg.change = t.mg.change
  hold : ∃ m', u.mg.hold = some m' ∧ ∀ c, c < 16 → (m'.getLsbD c = true ↔ m.getLsbD c = true ∨ on c)

theorem getLsbD_two_pow {c k : Nat} (hk : k < 16) : (BitVec.ofNat 16 (2 ^ c)).getLsbD k = true ↔ k = c := by
  rw [BitVec.getLsbD_ofNat, Nat.testBit_two_pow]
  simp [hk, eq_comm]

theorem Ends.resumeCtxs_held {l : List Nat} {m : BitVec 16} (hh : t.mg.hold = some m) :
    ∃ u, Ends (l.forM Machine.resumeCtx : M s Unit) t () u ∧ HeldToo t u m fun c => c ∈ l ∧ (t.ctx c).MayGoOn := by
  induction l generalizing t m with
  | nil => exact ⟨t, Ends.pure (), rfl, ⟨rfl, rfl⟩, m, hh, fun _ _ => by simp⟩
  | cons k l ih =>
    by_cases hm : (t.ctx k).MayGoOn
    · obtain ⟨u, hu, hf, ⟨hs, hc⟩, m', hm', hb⟩ := ih (t := heldToo t k) (m := m ||| BitVec.ofNat 16 (2 ^ k))
        (show t.mg.hold.map _ = _ by rw [hh]; rfl)
      refine ⟨u, Ends.bind (Ends.resumeCtx_held hm hh) hu, hf, ⟨hs, hc⟩, m', hm', fun c hlt => ?_⟩
      rw [hb c hlt, BitVec.getLsbD_or, Bool.or_eq_true, getLsbD_two_pow hlt, List.mem_cons, or_and_right, or_assoc]
      refine or_congr_right (or_congr_left ⟨fun h => ⟨h, h ▸ hm⟩, fun h => h.1⟩)
    · obtain ⟨u, hu, hf, hmg, m', hm', hb⟩ := ih hh
      refine ⟨u, Ends.bind (Ends.resumeCtx_stays hm) hu, hf, hmg, m', hm', fun c hlt => ?_⟩
      rw [hb c hlt, List.mem_cons, or_and_right, or_iff_right (a := c = k ∧ _) fun h => hm (h.1 ▸ h.2)]

/-- `resumeAll` while a thermal stop lasts. -/
theorem Ends.resumeAll_held {m : BitVec 16} (hh : t.mg.hold = some m) (mask : BitVec 16) :
    ∃ u, Ends (Machine.resumeAll mask : M s Unit) t () u ∧ HeldToo t u m fun c => mask.getLsbD c = true ∧ (t.ctx c).MayGoOn := by
  obtain ⟨u, hu, hg⟩ := Ends.resumeCtxs_held (s := s) (l := (List.range 16).filter fun c => mask.getLsbD c) hh
  simp only [mem_contexts_of_mask] at hg
  exact ⟨u, hu, hg⟩

end Sys2Proof.Machine
end

section
/-! SUPPORT. The events of bring-up and of the limits (R375 to R379). -/

namespace Sys2Proof.Machine

variable {s t u : State}

/-! ## Power-on, firmware and self-test -/

theorem execFirmwareVerify_eq (s : State) (ok : Bool) : exec (.firmwareVerify ok) s = .next (if s.mg.svc = 0 ∧ ok = true then
    (s.upd (.mg { s.mg with svc := 1 })).upd (.agenda (s.agenda ++ [.selfTest])) else s) := by
  refine Ends.runE (Ends.now ?_)
  split
  · rename_i h
    rw [if_pos (by simpa using h)]
    exact Ends.bind (Ends.upd _) (Ends.upd _)
  · rename_i h
    rw [if_neg (by simpa using h)]
    exact Ends.pure ()

theorem upds_core_list (g : Core → Core) (l : AMap Core) (t : State) :
    t.upds (l.map fun kv => .core kv.1 (g kv.2)) = { t with cores := l.foldl (fun m kv => AMap.set m kv.1 (g kv.2)) t.cores } := by
  induction l generalizing t with
  | nil => rfl
  | cons kv l ih => exact ih _

/-- The core whose CLOCK has restarted (R365). -/
def Core.restarted (c : Core) : Core := { c with cycles := 0 }

/-- CLOCK restarts on every core. -/
theorem Ends.clockReset (hk : KeysRise t.cores) : ∃ u, Ends (clockReset : M s Unit) t () u ∧ u = { t with cores := u.cores } ∧
    ∀ k, AMap.get? u.cores k = (AMap.get? t.cores k).map Core.restarted := by
  refine ⟨_, Ends.now (Ends.updAll (t.cores.map fun kv => .core kv.1 kv.2.restarted)), ?_⟩
  rw [upds_core_list Core.restarted]
  refine ⟨rfl, fun k => (get?_foldl_set Core.restarted hk t.cores k).trans ?_⟩
  cases AMap.get? t.cores k <;> rfl

theorem execSelfTestComplete_other (h : s.mg.svc ≠ 2) : exec .selfTestComplete s = .next s := by
  refine Ends.runE (Ends.now ?_)
  rw [if_neg h]
  exact Ends.pure ()

theorem execSelfTestComplete_serves (h : s.mg.svc = 2) (hk : KeysRise s.cores) : ∃ t, exec .selfTestComplete s = .next t ∧
    t = { s with mg := t.mg, cores := t.cores } ∧ t.mg = ({ s.mg with svc := 3 } : Mg).norm ∧
    ∀ k, AMap.get? t.cores k = (AMap.get? s.cores k).map fun c => { c with cycles := 0 } := by
  obtain ⟨u, hu, hf, hg⟩ := Ends.clockReset (s := s) (t := s.upd (.mg { s.mg with svc := 3 })) hk
  refine ⟨u, Ends.runE (Ends.now ?_), hf.trans (by rw [hf]; rfl), by rw [hf]; rfl, hg⟩
  rw [if_pos h]
  exact Ends.bind (Ends.upd _) hu

theorem execSelfTestFail_eq (s : State) (code : Word) :
    exec (.selfTestFail code) s = .next (if s.mg.svc = 2 then s.upd (.mg { s.mg with svc := 5, failcode := code }) else s) := by
  refine Ends.runE (Ends.now ?_)
  split
  · exact Ends.upd _
  · exact Ends.pure ()

/-! ## The change to full service -/

theorem execFullServiceChange_other (h : s.mg.svc ≠ 3) : exec .fullServiceChange s = .next s := by
  refine Ends.runE (Ends.now ?_)
  rw [if_pos h]
  exact Ends.pure ()

/-- The end of the change: once all contexts are stopped the machine serves fully, and they go on. -/
def serveFully : M s Unit := do
  let t ← now
  if (List.range 16).all fun c => (t.ctx c).stopped then do
    upd (.mg { t.mg with svc := 4, change := none })
    resumeAll (t.mg.change.getD 0)
  else pure ()

theorem execFullServiceChange_begins (h : s.mg.svc = 3) (hc : s.mg.change = none)
    (hu : Ends (requestAll 0xFFFF : M s Unit) (s.upd (.mg { s.mg with change := some 0xFFFF })) () u)
    (ht : Ends (serveFully : M s Unit) u () t) : exec .fullServiceChange s = .next t := by
  refine Ends.runE (Ends.now ?_)
  rw [if_neg (by simpa using h), hc]
  exact Ends.bind (Ends.upd _) (Ends.bind hu ht)

theorem execFullServiceChange_continues {m : BitVec 16} (h : s.mg.svc = 3) (hc : s.mg.change = some m)
    (ht : Ends (serveFully : M s Unit) s () t) : exec .fullServiceChange s = .next t := by
  refine Ends.runE (Ends.now ?_)
  rw [if_neg (by simpa using h), hc]
  exact ht

/-- The state that serves fully. -/
def served (t : State) : State := t.upd (.mg { t.mg with svc := 4, change := none })

theorem allStop_iff : ((List.range 16).all fun c => (t.ctx c).stopped) = true ↔ ∀ c, c < 16 → (t.ctx c).stopped = true := by
  simp only [List.all_eq_true, List.mem_range]

theorem Ends.serveFully_waits {c : Nat} (hc : c < 16) (h : (t.ctx c).stopped = false) : Ends (serveFully : M s Unit) t () t := by
  refine Ends.now ?_
  rw [if_neg fun h' => by simp [allStop_iff.1 h' c hc] at h]
  exact Ends.pure ()

theorem Ends.serveFully_resumes {m : BitVec 16} (h : ∀ c, c < 16 → (t.ctx c).stopped = true) (hm : t.mg.change = some m)
    (hr : Ends (Machine.resumeAll m : M s Unit) (served t) () u) : Ends (serveFully : M s Unit) t () u := by
  refine Ends.now ?_
  rw [if_pos (allStop_iff.2 h), hm]
  exact Ends.bind (Ends.upd _) hr

/-- The registers of the package, contexts and trains apart, nothing differs. -/
def Governed (t u : State) : Prop := u = { t with mg := u.mg, ctxs := u.ctxs, trains := u.trains }

theorem Governed.trans {v : State} (h : Governed t u) (h' : Governed u v) : Governed t v := by
  unfold Governed at *
  rw [h', h]

theorem LetGo.governed {on : Nat → Prop} (h : LetGo t u on) : Governed t u := by
  unfold Governed
  rw [h.frame]

theorem Asked.governed {on : Nat → Prop} (h : Asked t u on) : Governed t u := by
  unfold Governed
  rw [h.frame]

theorem HeldToo.governed {m : BitVec 16} {on : Nat → Prop} (h : HeldToo t u m on) : Governed t u := by
  unfold Governed
  rw [h.frame]

theorem governed_upd_mg (t : State) (m : Mg) : Governed t (t.upd (.mg m)) := rfl

/-- The change to full service has ended, from a state whose contexts had all stopped, `m` of them to go on. -/
structure FullService (t u : State) (m : BitVec 16) : Prop where
  governed : Governed t u
  svc : u.mg.svc = 4 ∧ u.mg.change = none
  free : t.mg.hold = none → LetGo (served t) u fun c => m.getLsbD c = true ∧ (t.ctx c).MayGoOn
  held : ∀ h, t.mg.hold = some h → HeldToo (served t) u h fun c => m.getLsbD c = true ∧ (t.ctx c).MayGoOn

theorem Ends.serveFully_serves {m : BitVec 16} (h : ∀ c, c < 16 → (t.ctx c).stopped = true) (hm : t.mg.change = some m) :
    ∃ u, Ends (Machine.serveFully : M s Unit) t () u ∧ FullService t u m := by
  cases hh : t.mg.hold with
  | none =>
    obtain ⟨u, hu, hg⟩ := Ends.resumeAll (s := s) (t := served t) hh m
    refine ⟨u, Ends.serveFully_resumes h hm hu, (governed_upd_mg t _).trans hg.governed, ?_, fun _ => hg, fun _ h => ?_⟩
    · rw [hg.frame]
      exact ⟨rfl, rfl⟩
    · rw [hh] at h
      cases h
  | some h0 =>
    obtain ⟨u, hu, hg⟩ := Ends.resumeAll_held (s := s) (t := served t) hh m
    refine ⟨u, Ends.serveFully_resumes h hm hu, (governed_upd_mg t _).trans hg.governed, hg.mg, fun h => ?_, fun _ h => ?_⟩
    · rw [hh] at h
      cases h
    · rw [hh] at h
      cases h
      exact hg

/-- A stopped context may go on when it is not saved. -/
theorem mayGoOn_iff_of_stopped {x : Context} (h : x.stopped = true) : x.MayGoOn ↔ x.saved = false := by
  unfold Context.MayGoOn
  simp [h]

/-- Under full service every context stands as its saving and a thermal stop say. -/
theorem FullService.ctx {m : BitVec 16} {c : Nat} (h : FullService t u m) (hc : c < 16) (hm : m.getLsbD c = true)
    (hs : (t.ctx c).stopped = true) : ((t.ctx c).saved = true ∨ t.mg.hold ≠ none → (u.ctx c).stopped = true) ∧
      ((t.ctx c).saved = false → t.mg.hold = none → (u.ctx c).stopped = false ∧ (u.ctx c).preempt = false) := by
  refine ⟨fun ho => ?_, fun hv hh => ?_⟩
  · cases hh : t.mg.hold with
    | none =>
      have hv := ho.resolve_right fun h' => h' hh
      rw [((h.free hh).ctx c hc).2 fun h' => by simp [(mayGoOn_iff_of_stopped hs).1 h'.2] at hv]
      exact hs
    | some h0 =>
      rw [(h.held h0 hh).frame]
      exact hs
  · rw [((h.free hh).ctx c hc).1 ⟨hm, (mayGoOn_iff_of_stopped hs).2 hv⟩]
    exact ⟨rfl, rfl⟩

theorem getLsbD_allContexts : ∀ c, c < 16 → (0xFFFF : BitVec 16).getLsbD c = true := by decide

theorem execFullServiceChange_stopping (h3 : s.mg.svc = 3) (hc : s.mg.change = none) : ∃ t, exec .fullServiceChange s = .next t ∧
    t = { s with mg := t.mg, ctxs := t.ctxs, trains := t.trains } ∧
    ((∀ c, c < 16 → (s.ctx c).stopped = true ∨ AllStopped s c) → t.mg.svc = 4 ∧ t.mg.change = none ∧ ∀ c, c < 16 →
      ((s.ctx c).saved = true ∨ s.mg.hold ≠ none → (t.ctx c).stopped = true) ∧
      ((s.ctx c).saved = false → s.mg.hold = none → (t.ctx c).stopped = false ∧ (t.ctx c).preempt = false)) ∧
    ((∃ c, c < 16 ∧ (s.ctx c).stopped = false ∧ ¬AllStopped s c) → t.mg.svc = 3 ∧ t.mg.change = some 0xFFFF ∧ t.trains = s.trains ∧
      ∀ c, c < 16 → (s.ctx c).stopped = false → StopAsked s c (t.ctx c)) := by
  obtain ⟨u, hu, ha⟩ := Ends.requestAll (s := s) (t := s.upd (.mg { s.mg with change := some 0xFFFF })) 0xFFFF
  have hmg : u.mg = ({ s.mg with change := some 0xFFFF } : Mg).norm := by rw [ha.frame]; rfl
  have hask (c : Nat) (hlt : c < 16) (hs : (s.ctx c).stopped = false) : StopAsked s c (u.ctx c) :=
    ha.asked c hlt (getLsbD_allContexts c hlt) hs
  by_cases hall : ∀ c, c < 16 → (s.ctx c).stopped = true ∨ AllStopped s c
  · have hst (c : Nat) (hlt : c < 16) : (u.ctx c).stopped = true := by
      cases hs : (s.ctx c).stopped with
      | true => rw [ha.off c hlt (.inr hs)]; exact hs
      | false => exact ((hask c hlt hs).1 ((hall c hlt).resolve_left (by simp [hs]))).1
    obtain ⟨t, ht, hf⟩ := Ends.serveFully_serves (s := s) hst (m := 0xFFFF) (by rw [hmg]; rfl)
    refine ⟨t, execFullServiceChange_begins h3 hc hu ht, ((governed_upd_mg s _).trans ha.governed).trans hf.governed,
      fun _ => ⟨hf.svc.1, hf.svc.2, fun c hlt => ?_⟩, fun ⟨c, hlt, hs, hna⟩ => ?_⟩
    · have hx := hf.ctx hlt (getLsbD_allContexts c hlt) (hst c hlt)
      rwa [ha.saved c hlt, hmg] at hx
    · exact absurd (hall c hlt) (by simp [hs, hna])
  · obtain ⟨c, hlt, hs, hna⟩ : ∃ c, c < 16 ∧ (s.ctx c).stopped = false ∧ ¬AllStopped s c := by
      push Not at hall
      simpa using hall
    refine ⟨u, execFullServiceChange_begins h3 hc hu (Ends.serveFully_waits hlt ((hask c hlt hs).2 hna).1),
      (governed_upd_mg s _).trans ha.governed, fun h => absurd h hall, fun _ => ⟨?_, ?_, ?_, hask⟩⟩
    · rw [hmg]
      exact h3
    · rw [hmg]
      rfl
    · rw [ha.frame]
      rfl

theorem execFullServiceChange_ends {m : BitVec 16} (h3 : s.mg.svc = 3) (hc : s.mg.change = some m)
    (hs : ∀ c, c < 16 → (s.ctx c).stopped = true) (hk : KeysRise s.trains) : ∃ t, exec .fullServiceChange s = .next t ∧
      t = { s with mg := t.mg, ctxs := t.ctxs, trains := t.trains } ∧ t.mg.svc = 4 ∧ t.mg.change = none ∧
      (s.mg.hold = none → Resumed s t fun c => m.getLsbD c = true ∧ (s.ctx c).saved = false) ∧
      ∀ h, s.mg.hold = some h → t.ctxs = s.ctxs ∧ t.trains = s.trains ∧ ∃ h', t.mg.hold = some h' ∧
        ∀ c, c < 16 → (h'.getLsbD c = true ↔ h.getLsbD c = true ∨ (m.getLsbD c = true ∧ (s.ctx c).saved = false)) := by
  obtain ⟨t, ht, hf⟩ := Ends.serveFully_serves (s := s) hs hc
  have hon (c : Nat) : m.getLsbD c = true ∧ (s.ctx c).MayGoOn ↔ m.getLsbD c = true ∧ (s.ctx c).saved = false :=
    and_congr_right fun hb => mayGoOn_iff_of_stopped (hs c (BitVec.lt_of_getLsbD hb))
  refine ⟨t, execFullServiceChange_continues h3 hc ht, hf.governed, hf.svc.1, hf.svc.2, fun hh => ?_, fun h hh => ?_⟩
  · exact (hf.free hh).resumed hk hon
  · obtain ⟨he, _, h', hh', hb⟩ := hf.held h hh
    refine ⟨?_, ?_, h', hh', fun c hlt => ?_⟩
    · rw [he]
      rfl
    · rw [he]
      rfl
    · rw [hb c hlt, hon]

/-! ## Limits -/

theorem execPowerLimitExceeded_eq (s : State) (watts : Half) (celsius : Byte) : exec (.powerLimitExceeded watts celsius) s =
    .next (s.upd (.mg { s.mg with
      watts := watts, celsius := celsius
      clockMhz := if (s.mg.plimit < watts ∨ 105 < celsius) ∧ 100 < s.mg.clockMhz then s.mg.clockMhz - 100 else s.mg.clockMhz })) := by
  refine Ends.runE (Ends.now ?_)
  dsimp only
  by_cases h : s.mg.plimit < watts ∨ 105 < celsius
  · rw [if_pos (by simpa using h)]
    simp only [h, true_and]
    exact Ends.upd _
  · rw [if_neg (by simpa using h)]
    simp only [h, false_and, if_false]
    exact Ends.upd _

theorem execThermalStop_cool {celsius : Byte} (h : celsius < 115 ∨ s.mg.hold ≠ none) :
    exec (.thermalStop celsius) s = .next (s.upd (.mg { s.mg with celsius := celsius })) := by
  refine Ends.runE (Ends.now ?_)
  dsimp only
  rw [if_pos (by simpa [Option.isSome_iff_ne_none] using h)]
  exact Ends.upd _

theorem runMask_runningMask (s : State) : RunMask s (runningMask s) := by
  intro c hc
  have hsum : (fun a c => a + flag (ctxRuns s c) c) = fun a c => if ctxRuns s c then a + 2 ^ c else a := by
    funext a c
    unfold flag
    split <;> rfl
  unfold runningMask
  rw [BitVec.getLsbD_ofNat, hsum, (testBit_maskSum (ctxRuns s) 16).2]
  simp [hc, ctxRuns]

theorem execThermalStop_hot {celsius : Byte} (h : ¬celsius < 115) (hh : s.mg.hold = none) : ∃ t m,
    exec (.thermalStop celsius) s = .next t ∧ t = { s with mg := t.mg, ctxs := t.ctxs } ∧
      t.mg = ({ s.mg with celsius := celsius, hold := some m } : Mg).norm ∧ RunMask s m ∧ ∀ c, c < 16 →
        ((s.ctx c).stopped = false → StopAsked s c (t.ctx c)) ∧ ((s.ctx c).stopped = true → t.ctx c = s.ctx c) := by
  let m := runningMask s
  obtain ⟨t, ht, ha⟩ := Ends.requestAll (s := s) (t := s.upd (.mg { s.mg with celsius := celsius, hold := some m })) 0xFFFF
  refine ⟨t, m, Ends.runE (Ends.now ?_), ?_, ?_, runMask_runningMask s, fun c hc =>
    ⟨ha.asked c hc (getLsbD_allContexts c hc), fun hs => ha.off c hc (.inr hs)⟩⟩
  · dsimp only
    rw [if_neg (by simpa [hh] using h)]
    exact Ends.bind (Ends.upd _) ht
  · rw [ha.frame]
    rfl
  · rw [ha.frame]
    rfl

theorem execThermalRecover_warm {celsius : Byte} (h : 95 < celsius) :
    exec (.thermalRecover celsius) s = .next (s.upd (.mg { s.mg with celsius := celsius })) := by
  refine Ends.runE (Ends.now ?_)
  dsimp only
  rw [if_pos h]
  exact Ends.upd _

theorem execThermalRecover_cool {celsius : Byte} (h : ¬95 < celsius) (hk : KeysRise s.trains) :
    ∃ t, exec (.thermalRecover celsius) s = .next t ∧ t = { s with mg := t.mg, ctxs := t.ctxs, trains := t.trains } ∧
      t.mg = ({ s.mg with celsius := celsius, hold := none } : Mg).norm ∧
      Resumed s t fun c => (∃ m, s.mg.hold = some m ∧ m.getLsbD c = true) ∧ ((s.ctx c).stopped = true ∨ (s.ctx c).preempt = true) ∧
        (s.ctx c).saved = false := by
  let s1 := s.upd (.mg { s.mg with celsius := celsius, hold := none })
  obtain ⟨t, ht, hg⟩ := Ends.resumeAll (s := s) (t := s1) rfl (s.mg.hold.getD 0)
  refine ⟨t, Ends.runE (Ends.now ?_), (governed_upd_mg s _).trans hg.governed, ?_,
    (hg.resumed hk fun c => and_congr ?_ and_comm : Resumed s1 t _)⟩
  · dsimp only
    rw [if_neg h]
    exact Ends.bind (Ends.upd _) ht
  · rw [hg.frame]
    rfl
  · cases s.mg.hold <;> simp

end Sys2Proof.Machine
end

section
/-! SUPPORT. Objects: the fields of a file, the checks of one without symbols, and the bytes that a load writes (R38 to R41). -/

namespace Sys2Proof.Machine

variable {s t u : State} {f : List Byte}

/-! ## Fields of a file -/

theorem leVal_succ (g : Nat → Byte) (n : Nat) : leVal g (n + 1) = (g 0).toNat + 256 * leVal (fun j => g (j + 1)) n := by
  induction n with
  | zero => simp [leVal]
  | succ n ih =>
    rw [leVal, ih, leVal, Nat.pow_succ]
    ring

theorem fileField_eq (f : List Byte) (off n : Nat) : fileField f off n = fileVal f off n := by
  induction n generalizing off with
  | zero => rfl
  | succ n ih =>
    have hv : fileVal f off (n + 1) = (f.getD off 0).toNat + 256 * fileVal f (off + 1) n := by
      unfold fileVal
      rw [leVal_succ]
      simp only [Nat.add_zero, Nat.add_assoc, Nat.add_comm 1]
    rw [hv, ← ih]
    unfold fileField
    by_cases h : off < f.length
    · rw [List.drop_eq_getElem_cons h, List.take_succ_cons, List.foldr_cons, List.getD_eq_getElem _ _ h]
    · simp [List.drop_eq_nil_of_le (Nat.not_lt.1 h), List.drop_eq_nil_of_le (Nat.le_succ_of_le (Nat.not_lt.1 h)),
        List.getElem?_eq_none (Nat.not_lt.1 h)]

/-! ## Files of one variant -/

/-- The only variant of a file, without symbols and with nothing to relocate. -/
structure PlainVariant (f : List Byte) (sig : Nat) (v : Variant) : Prop where
  only : (List.range (fileField f 6 2)).map (variantOf f) = [v]
  sig : v.sig = sig
  off : v.off = fileVal f 0x48 8
  nsec : v.nsec = fileVal f 0x58 2
  nsym : v.nsym = 0
  nrel : v.nrel = 0

theorem ObjectHead.plain {sig : Nat} (h : ObjectHead f sig) : PlainVariant f sig (variantOf f 0) := by
  obtain ⟨hsig, _, hsym, hrel⟩ := h.variant
  refine ⟨?_, (fileField_eq ..).trans hsig, fileField_eq .., fileField_eq .., (fileField_eq ..).trans hsym, (fileField_eq ..).trans hrel⟩
  rw [fileField_eq, h.magic.2.2.1]
  rfl

section
variable {sig : Nat} {v : Variant} (hv : PlainVariant f sig v)
include hv

theorem PlainVariant.symbols_eq : symbols f v = [] := by
  unfold symbols
  rw [hv.nsym]
  rfl

theorem PlainVariant.relocs_eq : relocs f v = [] := by
  unfold relocs
  rw [hv.nrel]
  rfl

theorem PlainVariant.objectOk (h : ObjectHead f sig) (hr : ∀ x ∈ sections f v, x.rsvd = 0) (hk : ∀ x ∈ sections f v, x.kind ≠ 4) :
    objectOk f = true := by
  have hplaces : ((sections f v).any fun x => x.kind == 4) = false := by simpa using hk
  have hnone : (sections f v).filter (fun x => x.kind == 4) = [] := List.filter_eq_nil_iff.2 (by simpa using hk)
  have hrsvd : ((sections f v).all fun x => x.rsvd == 0) = true := by simpa using hr
  have hpins : placements f v = [] := by
    unfold placements
    rw [hnone]
    rfl
  obtain ⟨h0, h4, h6, h8, hc, h10⟩ := h.magic
  have ho : v.off % 256 = 0 := hv.off ▸ h.variant.2.1
  unfold Machine.objectOk
  dsimp only
  rw [hv.only]
  simp only [fileField_eq, h0, h4, h6, h8, hc, h10, List.all_cons, List.all_nil, hplaces, hnone, hrsvd, hv.symbols_eq, hpins, ho]
  simp

end

/-! ## Refusals -/

/-- The record of a refused object. -/
def refusedObject (c : Nat) (f : List Byte) (base : DWord) (cause : Byte) : Obj :=
  { ctx := c, lo := base.toNat, hi := base.toNat + f.length, refusal := some cause, kernels := [] }

theorem execObjectLoad_malformed {c : Nat} {base : DWord} (h : objectOk f = false) :
    exec (.objectLoad c f base) s = .next (s.upd (.objects (refusedObject c f base 0x22 :: s.objects))) := by
  refine Ends.runE (Ends.now ?_)
  dsimp only
  rw [h, if_pos (by decide)]
  exact Ends.upd _

theorem objectOk_false (h : fileVal f 0 4 ≠ 0x01424F4E ∨ fileVal f 4 2 ≠ 3 ∨ fileVal f 8 4 ≠ 0x300 ∨ fileVal f 0x10 48 ≠ 0) :
    objectOk f = false := by
  unfold objectOk
  simp only [fileField_eq]
  rcases h with h | h | h | h <;> simp [h]

theorem execObjectLoad_foreign {c sig : Nat} {base : DWord} (h : ObjectHead f sig) (hn : fileVal f 0x58 2 = 0) (h0 : sig ≠ 0)
    (hs : sig ≠ (signature s.mg.coreMap).toNat) :
    exec (.objectLoad c f base) s = .next (s.upd (.objects (refusedObject c f base 0x21 :: s.objects))) := by
  have hv := h.plain
  have hnil : sections f (variantOf f 0) = [] := by
    unfold sections
    rw [hv.nsec, hn]
    rfl
  refine Ends.runE (Ends.now ?_)
  dsimp only
  rw [hv.objectOk h (by simp [hnil]) (by simp [hnil]), if_neg (by decide), hv.only]
  simp only [List.find?_cons, List.find?_nil, hv.sig, beq_false_of_ne hs, beq_false_of_ne h0]
  exact Ends.upd _

/-! ## Bytes that the service die writes -/

/-- What an access of the service die may change besides memory: cores, owners, write times and watches. -/
def Stored (t u : State) : Prop := u = { t with cores := u.cores, owners := u.owners, lines := u.lines, trains := u.trains, mem := u.mem }

theorem stored_refl (t : State) : Stored t t := rfl

theorem Stored.trans {v : State} (h : Stored t u) (h' : Stored u v) : Stored t v := by
  unfold Stored at *
  rw [h', h]

theorem Stored.xlAt {core ctx va pa : Nat} {priv : Bool} {kind : BitVec 3} (h : Stored t u) (hx : XlAt t core ctx priv kind va pa) :
    XlAt u core ctx priv kind va pa := by
  unfold Stored at h
  rw [h]
  exact ⟨hx.low, hx.xlate, hx.plain⟩

theorem Ends.eWr_service {ctx va P : Nat} (hx : XlAt t 800 ctx false kWrite va P) (hl : t.locks = []) (n val : Nat) :
    ∃ u, Ends (eWr (serviceEU ctx) va n val : M s Unit) t () u ∧ Stored t u ∧ u.mem = Bytes.write t.mem P n val := by
  obtain ⟨v, w, hv, hw, _⟩ := Ends.homeWrite_none (s := s) (t := t) 0 P n val
  let u := v.upd (.core 800 { v.core 800 with clock := max (v.core 800).clock w, l1 := AMap.erase (v.core 800).l1 (P / 1024) })
  have hwrite : Ends (engineWrite 800 ctx false false va n val : M s Bool) t (u.region P == .fabric) u := by
    refine Ends.bind (Ends.engineX hx) (Ends.now ?_)
    rw [hl, if_neg (by simp [lockedBytes]), if_neg (by simpa using hx.plain)]
    exact Ends.bind hv (Ends.now (Ends.bind (Ends.upd _) (Ends.pure _)))
  refine ⟨u, Ends.bind hwrite ?_, ?_, ?_⟩
  · split <;> exact Ends.pure ()
  · refine Stored.trans (u := v) ?_ rfl
    unfold Stored
    rw [hw.frame]
  · show v.mem = _
    rw [hw.frame]

theorem Ends.writeBytes {ctx : Nat} (l : List Byte) {va P : Nat} (hx : ∀ j, j < l.length → XlAt t 800 ctx false kWrite (va + j) (P + j))
    (hl : t.locks = []) : ∃ u, Ends (Machine.writeBytes (serviceEU ctx) va l : M s Unit) t () u ∧ Stored t u ∧
      ∀ b, Bytes.get u.mem b = if P ≤ b ∧ b < P + l.length then l.getD (b - P) 0 else Bytes.get t.mem b := by
  induction l generalizing t va P with
  | nil => exact ⟨t, Ends.pure (), stored_refl t, fun b => by rw [if_neg (by rw [List.length_nil]; omega)]⟩
  | cons x l ih =>
    obtain ⟨v, hv, hs, hm⟩ := Ends.eWr_service (s := s) (hx 0 (Nat.succ_pos _)) hl 1 x.toNat
    obtain ⟨u, hu, hs', hb⟩ := ih (t := v) (va := va + 1) (P := P + 1)
      (fun j hj => by
        rw [Nat.add_right_comm, Nat.add_right_comm P]
        exact hs.xlAt (hx (j + 1) (Nat.succ_lt_succ hj)))
      (by rw [hs]; exact hl)
    refine ⟨u, Ends.bind hv hu, hs.trans hs', fun b => ?_⟩
    rw [hb b, hm, Bytes.get_write, List.length_cons]
    rcases Nat.lt_trichotomy b P with h | rfl | h
    · rw [if_neg (by omega), if_neg (by omega), if_neg (by omega)]
    · rw [if_neg (by omega), if_pos (by omega), if_pos (by omega)]
      simp
    · rw [if_neg (c := P + 0 ≤ b ∧ _) (by omega), show b - P = b - (P + 1) + 1 by omega, List.getD_cons_succ]
      by_cases hlt : b < P + 1 + l.length
      · rw [if_pos (by omega), if_pos (by omega)]
      · rw [if_neg (by omega), if_neg (by omega)]

/-! ## One plain section -/

/-- The section table's entry at `o` in the file (Table 2-5). -/
def sectAt (f : List Byte) (o : Nat) : Sect :=
  { kind := fileVal f o 4, align := fileVal f (o + 4) 4, size := fileVal f (o + 8) 8, off := fileVal f (o + 16) 8, rsvd := fileVal f (o + 24) 8 }

theorem sections_one {v : Variant} (h : v.nsec = 1) : sections f v = [sectAt f v.off] := by
  unfold sections
  rw [h]
  simp only [fileField_eq]
  rfl

/-- The section of data that a plain file holds. -/
structure DataSection (f : List Byte) (v : Variant) (x : Sect) (off size align : Nat) : Prop where
  fits : off + size ≤ f.length
  only : sections f v = [x]
  kind : x.kind < 3
  align : x.align = align
  size : x.size = size
  off : v.off + x.off = off
  rsvd : x.rsvd = 0

theorem OneSection.data {sig off size align : Nat} {v : Variant} (h : OneSection f off size align) (hv : PlainVariant f sig v) :
    DataSection f v (sectAt f v.off) off size align := by
  have he := h.entry
  rw [← hv.off] at he
  obtain ⟨hk, ha, hz, ho, hr⟩ := he
  exact ⟨h.fits, sections_one (hv.nsec.trans h.count), hk, ha, hz, ho, hr⟩

theorem getD_take_drop (f : List Byte) (off : Nat) {size i : Nat} (hi : i < size) :
    ((f.drop off).take size).getD i 0 = f.getD (off + i) 0 := by
  rw [List.getD_eq_getElem?_getD, List.getD_eq_getElem?_getD, List.getElem?_take_of_lt hi, List.getElem?_drop]

section
variable {v : Variant} {x : Sect} {off size align : Nat} (h : DataSection f v x off size align)
include h

theorem DataSection.not_place : x.kind ≠ 4 := Nat.ne_of_lt (Nat.lt_succ_of_lt h.kind)

theorem DataSection.bytes : sectionBytes f v x = (f.drop off).take size := by
  unfold sectionBytes
  rw [if_neg (Nat.ne_of_lt h.kind), h.off, h.size]

theorem DataSection.length_bytes : ((f.drop off).take size).length = size := by
  have := h.fits
  rw [List.length_take, List.length_drop]
  omega

/-- An aligned base is the section's own. -/
theorem DataSection.bases {base : Nat} (hb : base % 2 ^ align = 0) : sectionBases base [x] = [base] := by
  obtain ⟨q, rfl⟩ := Nat.dvd_of_mod_eq_zero hb
  have hp : 0 < 2 ^ align := Nat.two_pow_pos _
  unfold sectionBases
  rw [if_neg h.not_place, h.align, Nat.add_sub_assoc hp, Nat.mul_add_div hp, Nat.div_eq_of_lt (Nat.sub_lt hp Nat.one_pos), Nat.add_zero,
    Nat.mul_comm]
  rfl

/-- The load of a plain file: the bytes of its section are written, and the object is recorded. -/
theorem DataSection.load {c sig : Nat} {base : DWord} (hf : ObjectHead f sig) (hv : PlainVariant f sig v) (h0 : sig = 0)
    (hb : base.toNat % 2 ^ align = 0)
    (hu : Ends (Machine.writeBytes (serviceEU c) base.toNat ((f.drop off).take size) : M s Unit) s () u) :
    exec (.objectLoad c f base) s = .next (u.upd (.objects
      ({ ctx := c, lo := base.toNat, hi := base.toNat + size, refusal := none, kernels := [] } :: u.objects))) := by
  have hok : objectOk f = true := hv.objectOk hf (by simpa [h.only] using h.rsvd) (by simpa [h.only] using h.not_place)
  have hfind : (([v].find? fun v => v.sig == (signature s.mg.coreMap).toNat).or ([v].find? fun v => v.sig == 0)) = some v := by
    simp only [List.find?_cons, hv.sig, h0]
    split <;> rfl
  refine Ends.runE (Ends.now ?_)
  dsimp only
  rw [hok, if_neg (by decide), hv.only, hfind]
  dsimp only
  rw [h.only, h.bases hb, hv.symbols_eq, hv.relocs_eq]
  have hput : Ends ((fun y : Sect × Nat => if y.1.kind = 4 then pure () else Machine.writeBytes (serviceEU c) y.2 (sectionBytes f v y.1) :
      Sect × Nat → M s Unit) (x, base.toNat)) s () u := by
    dsimp only
    rw [if_neg h.not_place, h.bytes]
    exact hu
  have hhi : ([x].zip [base.toNat]).foldl (fun m y => if y.1.kind = 4 then m else max m (y.2 + y.1.size)) base.toNat = base.toNat + size := by
    simp [h.not_place, h.size]
  rw [hhi]
  exact Ends.bind (Ends.tryM (Ends.bind (Ends.bind hput (Ends.pure ())) (Ends.pure ()))) (Ends.now (Ends.upd _))

end

/-- OBJECT_LOAD of a plain file: its section stands at its place, and the object is recorded. -/
theorem execObjectLoad_plain {c off size align pa : Nat} {base : DWord} (hf : ObjectHead f 0) (h : OneSection f off size align)
    (hb : base.toNat % 2 ^ align = 0) (hl : s.locks = []) (hx : ServiceRange s c kWrite base.toNat pa size) :
    ∃ t, exec (.objectLoad c f base) s = .next t ∧
      t.objects = { ctx := c, lo := base.toNat, hi := base.toNat + size, refusal := none, kernels := [] } :: s.objects ∧
      (∀ b, Bytes.get t.mem b = if pa ≤ b ∧ b < pa + size then f.getD (off + (b - pa)) 0 else Bytes.get s.mem b) ∧
      t.dispatches = s.dispatches ∧ t.wheels = s.wheels ∧ t.ctxs = s.ctxs := by
  have hd := h.data hf.plain
  obtain ⟨u, hu, hs, hm⟩ := Ends.writeBytes (s := s) (ctx := c) ((f.drop off).take size) (va := base.toNat) (P := pa)
    (fun j hj => hx j (by rwa [hd.length_bytes] at hj)) hl
  refine ⟨_, hd.load hf hf.plain rfl hb hu, ?_, fun b => ?_, ?_⟩
  · show _ :: u.objects = _
    rw [hs]
  · show Bytes.get u.mem b = _
    rw [hm b, hd.length_bytes]
    by_cases hin : pa ≤ b ∧ b < pa + size
    · rw [if_pos hin, if_pos hin, getD_take_drop f off (by omega)]
    · rw [if_neg hin, if_neg hin]
  · show u.dispatches = _ ∧ u.wheels = _ ∧ u.ctxs = _
    rw [hs]
    exact ⟨rfl, rfl, rfl⟩

end Sys2Proof.Machine
end

section
/-! SUPPORT. Bring-up, limits and the load of objects, put together. -/

namespace Sys2Proof.Machine

/-- Settles O52: each event of bring-up and of the limits by its own lemma, the two ends of the change to full service by the contexts that
still run, and OBJECT_LOAD by the checks of the file. -/
theorem bringUpAndLimits : Obligations.BringUpAndLimits := by
  intro s
  refine ⟨rfl, execFirmwareVerify_eq s, execSelfTestComplete_other, execSelfTestComplete_serves, execSelfTestFail_eq s,
    execFullServiceChange_other, execFullServiceChange_stopping, fun m h3 hc hk _ => ⟨fun ⟨c, hlt, hs⟩ => ?_, fun hs => ?_⟩,
    execPowerLimitExceeded_eq s, fun celsius => ⟨execThermalStop_cool, execThermalStop_hot, execThermalRecover_warm,
      fun h hk _ => execThermalRecover_cool h hk⟩, fun c f base _ => ⟨fun h => ?_, fun sig hf hn h0 hs => ?_,
      fun off size align pa hf h hb hl hx _ => execObjectLoad_plain hf h hb hl hx⟩⟩
  · exact execFullServiceChange_continues h3 hc (Ends.serveFully_waits hlt hs)
  · exact execFullServiceChange_ends h3 hc hs hk
  · exact execObjectLoad_malformed (objectOk_false h)
  · exact execObjectLoad_foreign hf hn h0 hs

end Sys2Proof.Machine
end

section
/-! SUPPORT. Special values and the execution mask (R61, R64, R91, R112): when `movs` waits and what it writes, and the mask an instruction leaves. -/

namespace Sys2Proof.Machine

variable {s : State} {r : Iss}

/-- A special value is open for WHEELS of a query domain whose join goes on, and else it is the value of Table 4-1. -/
theorem specialVal_eq (s : State) (t : Train) (w : Special) (L : Nat) :
    specialVal s t w L = if w = .wheels ∧ wheelsOpen s t = true then none else some (special s t L w) := by
  cases w with
  | wheels =>
    unfold specialVal wheelsOpen special
    cases s.dispatchOf t with
    | none => simp
    | some d => simp
  | core =>
    simp only [specialVal, special, State.coreOf, reduceCtorEq, false_and, if_false]
    cases s.wheelOf t <;> rfl
  | _ => rfl

theorem local_error {i : Instr} {f : Iss → Except Stop Train} {e : Stop} (h : begin_ s i = .ok r) (hf : f r = .error e) :
    local_ s i f = stopped s e := by
  unfold local_
  simp only [h, hf]

/-- An instruction that stops to wait stands in place. -/
theorem stopped_wait {i : Instr} (h : begin_ s i = .ok r) : stopped s .wait = .next (waited s r) := by
  obtain ⟨hc, ht, -⟩ := issuing_train (begin_ok_iff.1 h).1
  simp only [stopped, stalled, hc, ht]
  rfl

/-- Settles O6: WHEELS that is still open waits; every other special value is the result of its selector. -/
theorem specialValues : Obligations.SpecialValues := by
  intro s g d w r h
  have he : exec (.movs g d w) s = local_ s (.movs g d w) fun r => match specialVal s r.t w 0 with
      | none => .error .wait
      | some _ => .ok (r.done d (specialRegs w) fun L => (specialVal s r.t w L).getD 0) := by
    cases w <;> rfl
  have hv := specialVal_eq s r.t w
  split
  next hopen =>
    exact he.trans ((local_error h (by rw [hv, if_pos hopen])).trans (stopped_wait h))
  next hfixed =>
    refine local_result he h ?_
    simp [hv, hfixed]

/-- The train that goes on with the mask `e` in em. -/
def Iss.withEm (r : Iss) (e : Mask) : Train := ({ r.freed with em := e } : Train).advance r.c none

theorem advance_em (x : Train) (c : Clause) (l : Option Latch) : (x.advance c l).em = x.em := by rw [advance_rest]

theorem advance_setEm (x : Train) (c : Clause) (l : Option Latch) (e : Mask) :
    ({ x.advance c l with em := e } : Train) = ({ x with em := e } : Train).advance c l := by
  unfold Train.advance
  split <;> rfl

theorem withEm_goesOn (r : Iss) (e : Mask) : GoesOn r (· = none) (r.withEm e) := by
  obtain ⟨hr, hy, ht, -⟩ := freed_retired (r := r)
  exact advance_goesOn _ _ _ rfl hr hy ht

theorem freed_em : r.freed.em = r.t.em := by
  unfold Iss.freed
  rw [Train.frees_rest]

theorem withEm_only (r : Iss) (e : Mask) : OnlyRegs r { r.withEm e with em := r.t.em } := by
  unfold Iss.withEm
  rw [advance_setEm]
  refine advance_only _ _ ?_
  rw [← freed_em]

/-- A bracket that is open around the instruction is open around the next one. -/
theorem OnlyRegs.inTx {x : Train} (h : OnlyRegs r x) : x.inTx = r.t.inTx := by
  obtain ⟨ht, hx⟩ := h
  have htx : x.tx = r.t.tx := by rw [hx]
  have htm : x.trap.tm = r.t.trap.tm := by
    obtain e | e := ht <;> rw [e]
    unfold Iss.trapNext
    cases r.c.zw <;> rfl
  unfold Train.inTx
  rw [htx, htm]

theorem withEm_norm (r : Iss) (e : Mask) :
    (r.withEm e).norm.em = if r.t.inTx then e &&& r.t.live &&& r.t.tx.opened else e &&& r.t.live := by
  have ho := withEm_only r e
  have hi : (r.withEm e).inTx = r.t.inTx := ho.inTx
  have hl : (r.withEm e).live = r.t.live := (congrArg Train.live ho.2 :)
  have htx : (r.withEm e).tx = r.t.tx := (congrArg Train.tx ho.2 :)
  have he : (r.withEm e).em = e := advance_em ..
  show (if (r.withEm e).inTx then _ else _) = _
  rw [hi, hl, htx, he]

/-- Settles O8: the three instructions differ in the mask they store alone. -/
theorem emWrites : Obligations.EmWrites := by
  intro s i m r f hi h
  have hx : exec i s = .next (s.upd (.train r.id (some (r.withEm (f r.t.em (r.x0 m)))))) := by
    obtain ⟨rfl, rfl⟩ | ⟨rfl, rfl⟩ | ⟨rfl, rfl⟩ := hi
    · exact (exec_emwr s).trans (local_ok h rfl)
    · rw [← freed_em]; exact (exec_emand s).trans (local_ok h rfl)
    · rw [← freed_em]; exact (exec_emor s).trans (local_ok h rfl)
  exact ⟨_, hx, advance_em .., withEm_norm .., (advance_p ..).trans freed_retired.2.2.2, advance_s .., advance_v ..,
    withEm_goesOn .., withEm_only ..⟩

end Sys2Proof.Machine
end

section
/-! SUPPORT. Transfers of control (R80 to R86): where a train stands after a jump, and what a jump leaves as it was. -/

namespace Sys2Proof.Machine

variable {s : State} {r : Iss} {f : Train → Train}

/-- A word offset of 32 signed bits, as a byte offset. -/
theorem offset_eq (rel : BitVec 32) : (rel.signExtend 64 <<< 3 : DWord) = BitVec.ofInt 64 (8 * rel.toInt) := by
  rw [BitVec.shiftLeft_eq_mul_twoPow]
  apply BitVec.eq_of_toInt_eq
  rw [BitVec.toInt_mul, BitVec.toInt_signExtend_of_le (by decide), BitVec.toInt_ofInt, Int.mul_comm]
  rfl

theorem target_eq (r : Iss) (rel : BitVec 32) : r.target rel = targetOf r rel := by
  unfold Iss.target targetOf Clause.wordAddr
  rw [offset_eq]

/-- A jump ends the clause at its target, if what it does on the way leaves the count of clauses and the trap registers but TM. -/
theorem jump_endsAt (pc : DWord) (y : Bool) (hr : (f r.freed).retired = r.t.retired)
    (ht : (f r.freed).trap = { r.t.trap with tm := (f r.freed).trap.tm }) :
    EndsAt r pc y (r.jump pc y f) ∧ (r.jump pc y f).trap.tm = (f r.freed).trap.tm := by
  have htrap : (r.jump pc y f).trap = { r.trapNext with tm := (f r.freed).trap.tm } := by
    unfold Iss.jump Train.endClause Iss.trapNext
    cases r.c.zw with
    | none => exact ht
    | some z => rfl
  have htm : (r.jump pc y f).trap.tm = (f r.freed).trap.tm := by rw [htrap]
  refine ⟨⟨rfl, rfl, ?_, rfl, rfl, rfl, ?_⟩, htm⟩
  · show (f r.freed).retired + 1 = _
    rw [hr]
  · rw [htm]
    exact htrap

/-- A jump that writes scalar registers alone differs from the issuing train in its registers and its place. -/
theorem jump_only (pc : DWord) (y : Bool) {x : AMap Word} (hf : f r.freed = { r.freed with s := x }) :
    EndsAt r pc y (r.jump pc y f) ∧ OnlyRegs r (r.jump pc y f) ∧ (r.jump pc y f).v = r.freed.v ∧ (r.jump pc y f).p = r.t.p := by
  obtain ⟨hr, -, ht, hp⟩ := freed_retired (r := r)
  have hft : (f r.freed).trap = r.t.trap := by rw [hf]; exact ht
  obtain ⟨he, htm⟩ := jump_endsAt pc y (r := r) (f := f) (by rw [hf]; exact hr) (by rw [hft])
  refine ⟨he, ⟨.inr ?_, ?_⟩, ?_, ?_⟩
  · rw [he.2.2.2.2.2.2, htm, hft]
    unfold Iss.trapNext
    cases r.c.zw <;> rfl
  · have hj : r.jump pc y f = ({ r.freed with s := x } : Train).endClause r.c pc y := congrArg (Train.endClause · r.c pc y) hf
    rw [hj]
    unfold Train.endClause Iss.freed
    rw [Train.frees_rest]
  · show (f r.freed).v = _
    rw [hf]
  · show (f r.freed).p = _
    rw [hf]
    exact hp

/-- A branch whose condition and test hold goes to its target, any other goes on; neither writes a register. -/
theorem branch_settles {i : Instr} {rel : BitVec 32} {p : Iss → Bool} {P : Prop} (he : exec i s = branch s i rel p)
    (h : begin_ s i = .ok r) (hp : p r = true ↔ P) :
    ∃ x, exec i s = .next (s.upd (.train r.id (some x))) ∧ KeepsRegs r x ∧
      (Holds r ∧ P → EndsAt r (targetOf r rel) false x) ∧ (¬(Holds r ∧ P) → GoesOn r (· = none) x) := by
  refine ⟨_, he.trans (local_ok h rfl), ?_⟩
  rw [← holds_iff, ← hp, ← Bool.and_eq_true, ← target_eq]
  split
  next hb => exact ⟨(jump_keeps ..).1, fun _ => (jump_keeps ..).2, fun hn => absurd hb hn⟩
  next hb => exact ⟨doneWith_id_keeps.1, fun hy => absurd hy hb, fun _ => doneWith_id_keeps.2⟩

theorem and_ne_zero_iff {a b : Mask} : (a &&& b != 0) = true ↔ ∃ L, L < 32 ∧ a.getLsbD L ∧ b.getLsbD L := by
  rw [bne_iff_ne, mask_ne_zero]
  simp only [BitVec.getLsbD_and, Bool.and_eq_true]

theorem and_eq_left_iff {a b : Mask} : (a &&& b == a) = true ↔ ∀ L, L < 32 → a.getLsbD L → b.getLsbD L := by
  rw [beq_iff_eq]
  constructor
  · intro h L _ ha
    rw [← h, BitVec.getLsbD_and, Bool.and_eq_true] at ha
    exact ha.2
  · intro h
    refine mask_ext fun L hL => ?_
    rw [BitVec.getLsbD_and]
    cases ha : a.getLsbD L with
    | false => rfl
    | true => rw [h L hL ha]; rfl

/-- The branches of Table 4-8, each with the test it is taken by. -/
theorem branch_transfers {i : Instr} {rel : BitVec 32} {P : Prop} (h : begin_ s i = .ok r) (hi : branchTable r i = some (rel, P)) :
    ∃ x, exec i s = .next (s.upd (.train r.id (some x))) ∧ KeepsRegs r x ∧
      (Holds r ∧ P → EndsAt r (targetOf r rel) false x) ∧ (¬(Holds r ∧ P) → GoesOn r (· = none) x) := by
  unfold branchTable at hi
  split at hi <;> cases hi
  · exact branch_settles rfl h (p := fun _ => true) (by simp)
  · exact branch_settles rfl h (p := fun r => r.x0 _ == 0) beq_iff_eq
  · exact branch_settles rfl h (p := fun r => r.x0 _ != 0) bne_iff_ne
  · exact branch_settles rfl h (p := fun r => r.act &&& r.t.pred _ != 0) and_ne_zero_iff
  · refine branch_settles rfl h (p := fun r => r.act != 0 && r.act &&& r.t.pred _ == r.act) ?_
    rw [Bool.and_eq_true, bne_iff_ne, and_eq_left_iff]

section Call
variable {g : Guard} {n : BitVec 6} {rel : BitVec 32}

theorem setPair_sreg (t : Train) (i k : Nat) (x : DWord) : (t.setPair i x).sreg k =
    if k = i + 1 then x.extractLsb' 32 32 else if k = i then x.extractLsb' 0 32 else t.sreg k := by
  unfold Train.setPair
  rw [Train.sreg_setS, Train.sreg_setS]

theorem append_halves (x : DWord) : x.extractLsb' 32 32 ++ x.extractLsb' 0 32 = x := by
  refine BitVec.eq_of_getLsbD_eq fun i hi => ?_
  rw [BitVec.getLsbD_append, BitVec.getLsbD_extractLsb', BitVec.getLsbD_extractLsb']
  by_cases h : i < 32
  · simp [h]
  · simp [h, show i - 32 < 32 by omega, show 32 + (i - 32) = i by omega]

theorem pair_setPair (t : Train) (i : Nat) (x : DWord) : (t.setPair i x).pair i = x := by
  unfold Train.pair
  rw [setPair_sreg, setPair_sreg, if_pos rfl, if_neg (by omega), if_pos rfl]
  exact append_halves x

/-- `call` links the header after its clause (R82). -/
theorem call_transfers (h : begin_ s (.call g n rel) = .ok r) :
    ∃ x, exec (.call g n rel) s = .next (s.upd (.train r.id (some x))) ∧ x.v = r.freed.v ∧ x.p = r.t.p ∧ OnlyRegs r x ∧
      (Holds r → EndsAt r (targetOf r rel) false x ∧ x.pair n.toNat = headerAfter r ∧
        ∀ k, k ≠ n.toNat → k ≠ n.toNat + 1 → x.sreg k = r.freed.sreg k) ∧
      (¬Holds r → GoesOn r (· = none) x ∧ x.s = r.freed.s) := by
  refine ⟨_, (exec_call s).trans (local_ok h rfl), ?_⟩
  rw [← holds_iff, ← target_eq]
  split
  next hc =>
    obtain ⟨he, ho, hv, hp⟩ := jump_only (r := r) (f := fun t => t.setPair n.toNat r.c.nextHdr) (r.target rel) false rfl
    refine ⟨hv, hp, ho, fun _ => ⟨he, ?_, fun k h0 h1 => ?_⟩, fun hn => absurd hc hn⟩
    · exact pair_setPair r.freed n.toNat r.c.nextHdr
    · show (r.freed.setPair n.toNat r.c.nextHdr).sreg k = _
      rw [setPair_sreg, if_neg h1, if_neg h0]
  next hc =>
    obtain ⟨⟨hs, hv, hp, ho⟩, hg⟩ := doneWith_id_keeps (r := r)
    exact ⟨hv, hp, ho, fun hy => absurd hy hc, fun _ => ⟨hg, hs⟩⟩

/-- `ret` and `jmpi` go to the address in their pair, or trap when it is no multiple of 8 (R82). -/
theorem jumpPair_transfers {i : Instr} (he : exec i s = jumpPair s i n) (h : begin_ s i = .ok r) :
    if Holds r ∧ r.t.pair n.toNat &&& 7 ≠ 0 then exec i s = .next (trapCur s 0x04 none (some (r.t.pair n.toNat)))
    else ∃ x, exec i s = .next (s.upd (.train r.id (some x))) ∧ KeepsRegs r x ∧
      (Holds r → EndsAt r (r.t.pair n.toNat) false x) ∧ (¬Holds r → GoesOn r (· = none) x) := by
  simp only [← holds_iff]
  by_cases hc : r.cond = true
  · by_cases ha : r.t.pair n.toNat &&& 7 = 0
    · rw [if_neg fun hn => hn.2 ha]
      refine ⟨r.jump (r.t.pair n.toNat) false id, he.trans (local_ok h (by dsimp only; rw [hc, if_neg (by decide), if_pos ha])), (jump_keeps ..).1, fun _ => (jump_keeps ..).2,
        fun hn => absurd hc hn⟩
    · rw [if_pos ⟨hc, ha⟩]
      exact he.trans (local_error h (e := .trap eMisalign none (some (r.t.pair n.toNat)))
        (by dsimp only; rw [hc, if_neg (by decide), if_neg ha]))
  · rw [if_neg (by simp [hc])]
    exact ⟨r.doneWith id, he.trans (local_ok h (by simp [hc])), doneWith_id_keeps.1, fun hy => absurd hy hc, fun _ => doneWith_id_keeps.2⟩

/-- `loop` counts its register down and goes back while the count is not zero (R83). -/
theorem loop_transfers (h : begin_ s (.loop g n rel) = .ok r) :
    ∃ x, exec (.loop g n rel) s = .next (s.upd (.train r.id (some x))) ∧ x.v = r.freed.v ∧ x.p = r.t.p ∧ OnlyRegs r x ∧
      (Holds r → x.sreg n.toNat = r.t.sreg n.toNat - 1) ∧ (¬Holds r → x.s = r.freed.s) ∧
      (∀ k, k ≠ n.toNat → x.sreg k = r.freed.sreg k) ∧
      (Holds r ∧ r.t.sreg n.toNat ≠ 1 → EndsAt r (targetOf r rel) false x) ∧
      (¬(Holds r ∧ r.t.sreg n.toNat ≠ 1) → GoesOn r (· = none) x) := by
  have hz : r.t.sreg n.toNat - 1 = 0 ↔ r.t.sreg n.toNat = 1 := by
    rw [sub_eq_zero]
  have hset (k : Nat) : (r.freed.setS n.toNat (r.t.sreg n.toNat - 1)).sreg k =
      if k = n.toNat then r.t.sreg n.toNat - 1 else r.freed.sreg k := Train.sreg_setS ..
  obtain ⟨hr, hy, ht, hp⟩ := freed_retired (r := r)
  refine ⟨_, (exec_loop s).trans (local_ok h rfl), ?_⟩
  rw [← holds_iff, ← target_eq]
  by_cases hc : r.cond = true
  · by_cases hx : r.t.sreg n.toNat - 1 = 0
    · rw [if_neg (by simp [hc]), if_pos hx]
      refine ⟨advance_v .., (advance_p ..).trans hp, advance_only _ _ rfl, fun _ => ?_, fun hn => absurd hc hn, fun k hk => ?_,
        fun hy => absurd (hz.1 hx) hy.2, fun _ => advance_goesOn _ _ _ rfl hr hy ht⟩
      · exact (advance_sreg ..).trans ((hset _).trans (if_pos rfl))
      · exact (advance_sreg ..).trans ((hset _).trans (if_neg hk))
    · rw [if_neg (by simp [hc]), if_neg hx]
      obtain ⟨he, ho, hv, hp⟩ := jump_only (r := r) (f := fun t => t.setS n.toNat (r.t.sreg n.toNat - 1)) (r.target rel) false rfl
      exact ⟨hv, hp, ho, fun _ => (hset _).trans (if_pos rfl), fun hn => absurd hc hn, fun k hk => (hset k).trans (if_neg hk),
        fun _ => he, fun hn => absurd ⟨hc, fun e => hx (hz.2 e)⟩ hn⟩
  · rw [if_pos (by simp [hc])]
    obtain ⟨⟨hs, hv, hp, ho⟩, hg⟩ := doneWith_id_keeps (r := r)
    exact ⟨hv, hp, ho, fun hy => absurd hy hc, fun _ => hs, fun k _ => by unfold Train.sreg; rw [hs], fun hy => absurd hy.1 hc,
      fun _ => hg⟩

end Call

/-- Settles O10: branches, calls, jumps to a pair and counted loops, each by its own lemma. -/
theorem controlTransfers : Obligations.ControlTransfers := by
  refine ⟨fun s i r rel P h hi => branch_transfers h hi, fun s g n rel r => ⟨call_transfers, fun i hi h => ?_⟩,
    fun s g n rel r => loop_transfers⟩
  obtain rfl | rfl := hi
  · exact jumpPair_transfers rfl h
  · exact jumpPair_transfers rfl h

/-- The train in which `exit` has ended its active lanes, before its clause ends (R84). -/
def Train.exits (t : Train) (act : Mask) : Train :=
  { t with
    live := t.live &&& ~~~act
    em := t.em &&& ~~~act
    ending := t.live &&& ~~~act = 0
    trap := { t.trap with tm := t.trap.tm && (t.live &&& ~~~act) != 0 } }

/-- Settles O11: `exit` in a bracket and outside, `yield` and `nop`. -/
theorem exitYieldNop : Obligations.ExitYieldNop := by
  intro s g r
  refine ⟨fun h => ?_, fun h => ?_, fun h => ⟨_, (exec_nop s).trans (local_ok h rfl), doneWith_id_keeps⟩⟩
  · have he : exec (.exit g) s = local_ s (.exit g) fun r =>
        if r.t.inTx then .error (.trap eTxMisuse none none) else if !r.cond then .ok (r.doneWith id)
        else .ok (r.jump r.c.nextHdr false fun t => t.exits r.act) := rfl
    split
    next hx => exact he.trans (local_error h (e := .trap eTxMisuse none none) (by simp [hx]))
    next hx =>
      rw [he, ← holds_iff]
      by_cases hc : r.cond = true
      · obtain ⟨hr, -, ht, hp⟩ := freed_retired (r := r)
        have hl : r.freed.live = r.t.live := by unfold Iss.freed; rw [Train.frees_rest]
        obtain ⟨hend, htm⟩ := jump_endsAt (r := r) (f := fun t => t.exits r.act) r.c.nextHdr false hr (by
          show ({ r.freed.trap with tm := (r.freed.exits r.act).trap.tm } : TrapRegs) = _
          rw [ht])
        refine ⟨r.jump r.c.nextHdr false fun t => t.exits r.act, local_ok h (by simp [hx, hc]), rfl, rfl, hp, fun _ =>
          ⟨hend, ?_, ?_, ?_, ?_⟩, fun hn => absurd hc hn⟩
        · show r.freed.live &&& _ = _
          rw [hl]
        · show r.freed.em &&& _ = _
          rw [freed_em]
        · exact decide_eq_true_iff.symm
        · rw [htm]
          show (r.freed.trap.tm && (r.freed.live &&& ~~~r.act) != 0) = true ↔ _ ∧ r.freed.live &&& ~~~r.act ≠ 0
          rw [Bool.and_eq_true, bne_iff_ne, ht]
      · obtain ⟨⟨hs, hv, hp, ho⟩, hg⟩ := doneWith_id_keeps (r := r)
        exact ⟨r.doneWith id, local_ok h (by simp [hx, hc]), hs, hv, hp, fun hy => absurd hy hc, fun _ => ⟨hg, ho⟩⟩
  · refine ⟨_, (exec_yield s).trans (local_ok h rfl), ?_⟩
    rw [← holds_iff]
    split
    next hc => exact ⟨(jump_keeps ..).1, fun _ => (jump_keeps ..).2, fun hn => absurd hc hn⟩
    next hc => exact ⟨doneWith_id_keeps.1, fun hy => absurd hy hc, fun _ => doneWith_id_keeps.2⟩

/-- The train out of its handler, before its clause ends (R77). -/
def Iss.outOfTrap (r : Iss) : Train :=
  { r.t with em := r.t.trap.tem &&& r.t.live, trap := { r.t.trap with tm := false }, park := none, wait := none, xl := [] }

theorem trapReturn_false (r : Iss) : r.trapReturn false = if r.t.trap.incl = true
    then { r.outOfTrap.endClause r.c r.t.trap.thdr false with resume := some r.t.trap.trappc }
    else { r.outOfTrap.endClause r.c r.t.trap.trappc false with keptPhase := none } := rfl

/-- The trap registers that `trapret` leaves are those of the next clause, TM cleared. -/
theorem outOfTrap_trap (r : Iss) (pc : DWord) : (r.outOfTrap.endClause r.c pc false).trap = { r.trapNext with tm := false } := by
  unfold Train.endClause Iss.trapNext
  cases r.c.zw <;> rfl

/-- Settles O13: outside trap mode E_PRIV, in it the return to each of the three places. -/
theorem trapReturn : Obligations.TrapReturn := by
  intro s next r h hx
  split
  next htm =>
    have hs : Stops (beginOnce (.trapret next) fun r =>
        if !r.t.trap.tm then raise ePriv else upd (.train r.id (some (r.trapReturn next))) : M s Unit) s
        (.trap 0x18 none none) := by
      refine Stops.beginOnce h hx ?_
      rw [htm]
      exact Stops.stop _
    exact hs.runM
  next htm =>
    have hu : Ends (beginOnce (.trapret next) fun r =>
        if !r.t.trap.tm then raise ePriv else upd (.train r.id (some (r.trapReturn next))) : M s Unit) s ()
        (s.upd (.train r.id (some (r.trapReturn next)))) := by
      refine Ends.beginOnce h hx ?_
      rw [Bool.not_eq_false _ |>.mp htm]
      exact Ends.upd _
    refine ⟨r.trapReturn next, hu.runM, ?_⟩
    cases next with
    | true => exact ⟨rfl, outOfTrap_trap r r.t.trap.tnext, rfl, rfl, rfl, rfl, rfl, fun _ => ⟨rfl, rfl⟩, nofun, nofun⟩
    | false =>
      rw [trapReturn_false]
      split
      next hi => exact ⟨rfl, outOfTrap_trap r r.t.trap.thdr, rfl, rfl, rfl, rfl, rfl, nofun, fun _ _ => ⟨rfl, rfl⟩,
        fun _ hn => absurd (hi.symm.trans hn) (by decide)⟩
      next hi => exact ⟨rfl, outOfTrap_trap r r.t.trap.trappc, rfl, rfl, rfl, rfl, rfl, nofun, fun _ hy => absurd hy hi,
        fun _ _ => ⟨rfl, rfl⟩⟩

end Sys2Proof.Machine
end

section
/-! SUPPORT. The instructions that wait for an engine (R73, R85, R256, R262, R296, R303): when each waits, and how it goes on. -/

namespace Sys2Proof.Machine

variable {s : State} {r : Iss}

/-! ## Waits in place, and completions -/

theorem waits_of {i : Instr} {m : M s Unit} (he : exec i s = runM s m) (h : begin_ s i = .ok r) (hm : Stops m s .wait) :
    exec i s = .next (waited s r) := he.trans (Stops.waits h hm)

theorem finishes_of {i : Instr} {m : M s Unit} (he : exec i s = runM s m)
    (hm : Ends m s () (s.upd (.train r.id (some (r.retired r.t))))) :
    ∃ x, exec i s = .next (s.upd (.train r.id (some x))) ∧ Finished r x :=
  ⟨_, he.trans hm.runM, retired_finished r⟩

/-- The train's earlier class S instructions and acquires are done. -/
theorem streamMay_iff : (!hasOps s.stream r.id && accessMay s r.t r.id) = true ↔ hasOps s.stream r.id = false ∧ AcqDone s r := by
  rw [Bool.and_eq_true, Bool.not_eq_true', accessMay_iff]

/-- PHASE is the low four bits of a barrier's first byte (Table 14-4). -/
theorem tbGet_phase (t : State) (W a : Nat) : (tbGet t W a).phase = (Bytes.get (localOf t W) a).toNat % 16 := by
  simp only [tbGet, TBar.ofNat, bits, Bytes.read]
  omega

/-! ## `tbwait` -/

section Tbwait
variable {sb : Sb} {b ph : Src} (h : begin_ s (.tbwait sb b ph) = .ok r) (hx : r.t.inTx = false)
include h hx

theorem tbwait_woken {w : Wait} (hw : r.t.wait = some w) (hk : w.woken = true) :
    ∃ x, exec (.tbwait sb b ph) s = .next (s.upd (.train r.id (some x))) ∧ Finished r x := by
  refine finishes_of (exec_tbwait s) (Ends.beginOnce h hx ?_)
  rw [hw]
  dsimp only
  rw [if_pos hk]
  exact Ends.finishNow (begin_train h)

theorem tbwait_asleep {w : Wait} (hw : r.t.wait = some w) (hk : w.woken = false) :
    exec (.tbwait sb b ph) s = .next (waited s r) := by
  refine waits_of (exec_tbwait s) h (Stops.beginOnce h hx ?_)
  rw [hw]
  dsimp only
  rw [hk]
  exact Stops.stop _

theorem tbwait_held (hw : r.t.wait = none) (hm : ¬(hasOps s.stream r.id = false ∧ AcqDone s r)) :
    exec (.tbwait sb b ph) s = .next (waited s r) := by
  refine waits_of (exec_tbwait s) h (Stops.beginOnce h hx ?_)
  rw [hw]
  exact Stops.now (Stops.bind_left (Stops.need (by rwa [← Bool.not_eq_true, streamMay_iff])))

variable (hw : r.t.wait = none) (hm : hasOps s.stream r.id = false ∧ AcqDone s r)
include hw hm

theorem tbwait_traps {c : Byte} {v : Option DWord} (ht : barTrap s r b = some (c, v)) :
    exec (.tbwait sb b ph) s = .next (trapCur s c none v) := by
  refine (exec_tbwait s).trans (Stops.runM (e := .trap c none v) (Stops.beginOnce h hx ?_))
  rw [hw]
  exact Stops.now (Stops.bind (Ends.need (streamMay_iff.2 hm)) (Stops.bind_left (Stops.tbCheckM ht)))

theorem tbwait_looks (ht : barTrap s r b = none) :
    if (Bytes.get (localOf s r.t.wheel) (r.x0 b).toNat).toNat % 16 = (r.x0 ph).toNat % 16
    then exec (.tbwait sb b ph) s = .next (s.upd (.train r.id (some { r.t with
      wait := some ⟨.tb (r.x0 b).toNat ((r.x0 ph).toNat % 16), false, 0⟩ })))
    else ∃ x, exec (.tbwait sb b ph) s = .next (s.upd (.train r.id (some x))) ∧ Finished r x := by
  rw [← tbGet_phase]
  split
  next hp =>
    refine (exec_tbwait s).trans (Ends.runM (Ends.beginOnce h hx ?_))
    rw [hw]
    refine Ends.now (Ends.bind (Ends.need (streamMay_iff.2 hm)) (Ends.bind (Ends.tbCheckM ht) ?_))
    rw [if_neg (not_not.2 hp)]
    exact Ends.modTrain (begin_train h)
  next hp =>
    refine finishes_of (exec_tbwait s) (Ends.beginOnce h hx ?_)
    rw [hw]
    refine Ends.now (Ends.bind (Ends.need (streamMay_iff.2 hm)) (Ends.bind (Ends.tbCheckM ht) ?_))
    rw [if_pos hp]
    exact Ends.finishNow (begin_train h)

end Tbwait

/-! ## `yieldc` -/

/-- The train whose wait is over and whose kept phase `yieldc` drops, outside trap mode (R73). -/
def Train.dropsPhase (t : Train) : Train := { t with wait := none, keptPhase := if t.trap.tm then t.keptPhase else none }

/-- The phase that `yieldc` waits to differ: the one in memory, or at the execution `trapret` resumes the one kept (R73). -/
def Iss.phaseHeld (r : Iss) (cur : Nat) : Nat := if r.resumes then r.t.keptPhase.getD cur else cur

/-- `yieldc` leaves `x`: the train with its wait over, its kept phase dropped, and no register written. -/
def YieldLeaves (s : State) (i : Instr) (r : Iss) (x : Train) : Prop :=
  exec i s = .next (s.upd (.train r.id (some x))) ∧ x.wait = none ∧ x.keptPhase = (if r.t.trap.tm then r.t.keptPhase else none) ∧
    KeepsRegs r { x with wait := r.t.wait, keptPhase := r.t.keptPhase }

theorem freed_dropsPhase (r : Iss) : r.freed.dropsPhase = { r.freed with
    wait := none, keptPhase := if r.t.trap.tm then r.t.keptPhase else none } := by
  unfold Train.dropsPhase Iss.freed
  rw [Train.frees_rest]

theorem freed_wait (r : Iss) : r.freed.wait = r.t.wait ∧ r.freed.keptPhase = r.t.keptPhase := by
  unfold Iss.freed
  rw [Train.frees_rest]
  exact ⟨rfl, rfl⟩

theorem endClause_setWait (x : Train) (c : Clause) (pc : DWord) (y : Bool) (w : Option Wait) (k : Option Nat) :
    ({ x.endClause c pc y with wait := w, keptPhase := k } : Train) = ({ x with wait := w, keptPhase := k } : Train).endClause c pc y :=
  rfl

theorem advance_setWait (x : Train) (c : Clause) (l : Option Latch) (w : Option Wait) (k : Option Nat) :
    ({ x.advance c l with wait := w, keptPhase := k } : Train) = ({ x with wait := w, keptPhase := k } : Train).advance c l := by
  unfold Train.advance
  split <;> rfl

/-- Taken, `yieldc` ends its clause at the target. -/
theorem yieldc_jumps (r : Iss) (pc : DWord) : let x := r.jump pc false Train.dropsPhase
    x.wait = none ∧ x.keptPhase = (if r.t.trap.tm then r.t.keptPhase else none) ∧
      KeepsRegs r { x with wait := r.t.wait, keptPhase := r.t.keptPhase } ∧ EndsAt r pc false x := by
  obtain ⟨hr, -, ht, -⟩ := freed_retired (r := r)
  obtain ⟨hw, hk⟩ := freed_wait r
  have hx : r.jump pc false Train.dropsPhase = r.freed.dropsPhase.endClause r.c pc false := rfl
  have hback : ({ r.freed.dropsPhase with wait := r.t.wait, keptPhase := r.t.keptPhase } : Train) = r.freed := by
    rw [← hw, ← hk]
    rfl
  refine ⟨rfl, ?_, ?_, (jump_endsAt pc false hr (by rw [freed_dropsPhase]; exact ht ▸ rfl)).1⟩
  · rw [hx, freed_dropsPhase]
    rfl
  · rw [hx, endClause_setWait, hback]
    exact (jump_keeps (r := r) pc false).1

/-- Not taken, `yieldc` goes on. -/
theorem yieldc_goesOn (r : Iss) : let x := r.doneWith Train.dropsPhase
    x.wait = none ∧ x.keptPhase = (if r.t.trap.tm then r.t.keptPhase else none) ∧
      KeepsRegs r { x with wait := r.t.wait, keptPhase := r.t.keptPhase } ∧ GoesOn r (· = none) x := by
  obtain ⟨hr, hy, ht, -⟩ := freed_retired (r := r)
  obtain ⟨hw, hk⟩ := freed_wait r
  have hx : r.doneWith Train.dropsPhase = r.freed.dropsPhase.advance r.c none := rfl
  have hback : ({ r.freed.dropsPhase with wait := r.t.wait, keptPhase := r.t.keptPhase } : Train) = r.freed := by
    rw [← hw, ← hk]
    rfl
  have hrest := advance_rest r.freed.dropsPhase r.c none
  refine ⟨?_, ?_, ?_, advance_goesOn _ _ _ rfl hr hy ht⟩
  · rw [hx, hrest]
    rfl
  · rw [hx, hrest, freed_dropsPhase]
  · rw [hx, advance_setWait, hback]
    exact doneWith_id_keeps.1

section Yieldc
variable {g : Guard} {n : BitVec 6} {rel : BitVec 32} (h : begin_ s (.yieldc g n rel) = .ok r)
include h

omit h in
theorem yieldc_goes {m : M s Unit} (he : execYieldc g n rel s = runM s m)
    (hm : Ends m s () (s.upd (.train r.id (some (r.jump (r.target rel) false Train.dropsPhase))))) :
    ∃ x, YieldLeaves s (.yieldc g n rel) r x ∧ EndsAt r (targetOf r rel) false x := by
  obtain ⟨hw, hk, hr, hend⟩ := yieldc_jumps r (r.target rel)
  rw [← target_eq]
  exact ⟨_, ⟨(exec_yieldc s).trans (he.trans hm.runM), hw, hk, hr⟩, hend⟩

theorem yieldc_woken {w : Wait} (hw : r.t.wait = some w) (hk : w.woken = true) :
    ∃ x, YieldLeaves s (.yieldc g n rel) r x ∧ EndsAt r (targetOf r rel) false x := by
  refine yieldc_goes rfl (Ends.bind (Ends.beginM h) ?_)
  rw [hw]
  dsimp only
  rw [if_pos hk]
  exact Ends.upd _

theorem yieldc_asleep {w : Wait} (hw : r.t.wait = some w) (hk : w.woken = false) :
    exec (.yieldc g n rel) s = .next (waited s r) := by
  refine waits_of (exec_yieldc s) h (Stops.bind (Ends.beginM h) ?_)
  rw [hw]
  dsimp only
  rw [hk]
  exact Stops.stop _

variable (hw : r.t.wait = none)
include hw

theorem yieldc_inTx (hx : r.t.inTx = true) : exec (.yieldc g n rel) s = .next (trapCur s 0x0B none none) := by
  refine (exec_yieldc s).trans (Stops.runM (e := .trap 0x0B none none) (Stops.bind (Ends.beginM h) ?_))
  rw [hw]
  dsimp only
  rw [if_pos hx]
  exact Stops.stop _

variable (hx : r.t.inTx = false)
include hx

theorem yieldc_notTaken (hh : ¬Holds r) : ∃ x, YieldLeaves s (.yieldc g n rel) r x ∧ GoesOn r (· = none) x := by
  obtain ⟨hw', hk, hr, hgo⟩ := yieldc_goesOn r
  refine ⟨_, ⟨(exec_yieldc s).trans (Ends.runM (Ends.bind (Ends.beginM h) ?_)), hw', hk, hr⟩, hgo⟩
  rw [hw]
  dsimp only
  rw [hx, if_neg (by decide), if_pos (by rw [Bool.not_eq_true', ← Bool.not_eq_true, holds_iff]; exact hh)]
  exact Ends.upd _

variable (hh : Holds r)
include hh

theorem yieldc_held (hm : ¬(hasOps s.stream r.id = false ∧ AcqDone s r)) : exec (.yieldc g n rel) s = .next (waited s r) := by
  refine waits_of (exec_yieldc s) h (Stops.bind (Ends.beginM h) ?_)
  rw [hw]
  dsimp only
  rw [hx, if_neg (by decide), if_neg (by rw [holds_iff.2 hh]; decide)]
  exact Stops.now (Stops.bind_left (Stops.need (by rwa [← Bool.not_eq_true, streamMay_iff])))

variable (hm : hasOps s.stream r.id = false ∧ AcqDone s r)
include hm

theorem yieldc_traps {c : Byte} {v : Option DWord} (ht : barTrap s r (.s n) = some (c, v)) :
    exec (.yieldc g n rel) s = .next (trapCur s c none v) := by
  refine (exec_yieldc s).trans (Stops.runM (e := .trap c none v) (Stops.bind (Ends.beginM h) ?_))
  rw [hw]
  dsimp only
  rw [hx, if_neg (by decide), if_neg (by rw [holds_iff.2 hh]; decide)]
  exact Stops.now (Stops.bind (Ends.need (streamMay_iff.2 hm)) (Stops.bind_left (Stops.tbCheckM ht)))

variable (ht : barTrap s r (.s n) = none)
include ht

/-- Past its checks, `yieldc` compares the phase in memory with the one it waits on. -/
theorem yieldc_looks {t : State}
    (hc : Ends (if (tbGet s r.t.wheel (r.t.sreg n.toNat).toNat).phase ≠
        r.phaseHeld (tbGet s r.t.wheel (r.t.sreg n.toNat).toNat).phase
      then upd (.train r.id (some (r.jump (r.target rel) false Train.dropsPhase)))
      else modTrain r.id fun t => { t.dropsPhase with wait := some ⟨.tb (r.t.sreg n.toNat).toNat
        (r.phaseHeld (tbGet s r.t.wheel (r.t.sreg n.toNat).toNat).phase), false, 0⟩ } : M s Unit) s () t) :
    exec (.yieldc g n rel) s = .next t := by
  refine (exec_yieldc s).trans (Ends.runM (Ends.bind (Ends.beginM h) ?_))
  rw [hw]
  dsimp only
  rw [hx, if_neg (by decide), if_neg (by rw [holds_iff.2 hh]; decide)]
  refine Ends.now (Ends.bind (Ends.need (streamMay_iff.2 hm)) (Ends.bind (Ends.tbCheckM (b := .s n) ht) ?_))
  unfold Iss.phaseHeld at hc
  cases hk : r.t.keptPhase with
  | none =>
    simp only [hk, Option.getD_none, ite_self] at hc
    exact hc
  | some p =>
    simp only [hk, Option.getD_some] at hc
    exact hc

theorem yieldc_differs (hp : (tbGet s r.t.wheel (r.t.sreg n.toNat).toNat).phase ≠
      r.phaseHeld (tbGet s r.t.wheel (r.t.sreg n.toNat).toNat).phase) :
    ∃ x, YieldLeaves s (.yieldc g n rel) r x ∧ EndsAt r (targetOf r rel) false x := by
  obtain ⟨hw', hk, hr, hend⟩ := yieldc_jumps r (r.target rel)
  rw [← target_eq]
  refine ⟨_, ⟨yieldc_looks h hw hx hh hm ht ?_, hw', hk, hr⟩, hend⟩
  rw [if_pos hp]
  exact Ends.upd _

theorem yieldc_sleeps (hp : (tbGet s r.t.wheel (r.t.sreg n.toNat).toNat).phase =
      r.phaseHeld (tbGet s r.t.wheel (r.t.sreg n.toNat).toNat).phase) :
    exec (.yieldc g n rel) s = .next (s.upd (.train r.id (some { r.t with
      wait := some ⟨.tb (r.t.sreg n.toNat).toNat (r.phaseHeld (tbGet s r.t.wheel (r.t.sreg n.toNat).toNat).phase), false, 0⟩
      keptPhase := if r.t.trap.tm then r.t.keptPhase else none }))) := by
  refine yieldc_looks h hw hx hh hm ht ?_
  rw [if_neg (not_not.2 hp)]
  exact Ends.modTrain (begin_train h)

end Yieldc

/-! ## `racq` -/

theorem ringOf_eq (wh : Wheel) (k : Nat) : (if k < 4 then ringOf wh k else none) = wh.rings.toList[k]?.join := by
  by_cases hk : k < 4
  · rw [if_pos hk]
    unfold ringOf
    simp [Nat.mod_eq_of_lt hk, hk]
  · rw [if_neg hk]
    simp [hk]

theorem rings_set (wh : Wheel) {k : Nat} (hk : k < 4) (x : Option WRing) :
    (wh.rings.set (k % 4) x (Nat.mod_lt _ (by decide))).toList = wh.rings.toList.set k x := by
  simp [Nat.mod_eq_of_lt hk, Vector.toList_set]

/-- The train that answers `racq` with two words in its destination. -/
def Iss.answers (r : Iss) (d : Dst) (lo hi : Nat) : Train :=
  (r.retired r.t).setDst d 0xFFFFFFFF 0 (fun _ j => BitVec.ofNat 32 (if j = 0 then lo else hi)) 2

theorem answers_is (r : Iss) {d : Dst} (hd : d.scalar = true) (lo hi : Nat) :
    GoesOn r (· = none) (r.answers d lo hi) ∧ OnlyIssue r (r.answers d lo hi) ∧ (r.answers d lo hi).v = r.left.v ∧
      ScalarIs r d 2 (fun j => BitVec.ofNat 32 (if j = 0 then lo else hi)) (r.answers d lo hi) := by
  obtain ⟨hs, hv, hp, hg, ht, hx⟩ := retired_finished r
  have hrest := Train.setDst_rest (r.retired r.t) d 0xFFFFFFFF 0 (fun _ j => BitVec.ofNat 32 (if j = 0 then lo else hi)) 2
  have hval : (r.answers d lo hi).v = (r.retired r.t).v := by
    unfold Iss.answers
    simp only [Train.setDst, hd, if_true]
    cases d.nowb <;> rfl
  refine ⟨?_, ⟨?_, ?_⟩, hval.trans hv, fun k => ?_⟩
  · unfold Iss.answers
    rw [hrest]
    exact hg
  · unfold Iss.answers
    rw [hrest]
    exact ht
  · unfold Iss.answers
    rw [hrest, hx]
  · refine (Train.sreg_setDst ..).trans ?_
    have hk : (r.retired r.t).sreg k = r.left.sreg k := by unfold Train.sreg; rw [hs]
    rw [hk]

/-- A deferred trap stands among the others with its cause, its lanes, and the instruction's address as value where it names none (R204). -/
theorem defers_deferred (x : Train) (op : Nat) (c : Byte) (lanes : Option Mask) (v : Option DWord) :
    ∃ d ∈ (x.defers op c lanes v).deferred, d.order = op ∧ d.cause = c ∧ d.lanes = lanes ∧
      ∀ f, x.inflight.find? (fun f => f.id == op) = some f → d.tval = v.getD f.addr := by
  unfold Train.defers
  refine ⟨_, List.mem_append_left _ (List.mem_append_right _ (List.mem_singleton_self _)), rfl, rfl, rfl, fun f hf => ?_⟩
  rw [hf]

/-- An instruction that issues and meets a trap at once (R204). -/
theorem Ends.issueTrap {dests : List Reg} {c : Byte} (hx : AMap.get? s.trains r.id = some r.t) (hf : FreshFor s r.t) :
    ∃ t x d, Ends (Machine.issueTrap r dests c : M s Unit) s () t ∧ t = { s with nextId := s.nextId + 1, trains := t.trains } ∧
      OnlyTrain s t r.id ∧ AMap.get? t.trains r.id = some x ∧ d ∈ x.deferred ∧ d.order = s.nextId ∧ d.cause = c ∧ d.lanes = none ∧
      d.tval = (pointOf r.c).pc ∧ x.s = r.left.s ∧ x.v = r.left.v ∧ x.inflight = r.t.inflight := by
  obtain ⟨⟨⟨hs, hv, -⟩, -, -, hflight, -⟩, -⟩ := issued_is r s.nextId dests [] (f := id) rfl
  rw [if_pos rfl] at hflight
  have hnone : r.t.inflight.find? (fun f => f.id == s.nextId) = none :=
    List.find?_eq_none.2 fun f hf' => by simpa using hf f hf'
  have hfind : (r.issued s.nextId dests [] id).norm.inflight.find? (fun f => f.id == s.nextId) =
      some ⟨s.nextId, (pointOf r.c).pc, r.u.sb, dests, [], r.t.trap.tm⟩ := by
    show (r.issued s.nextId dests [] id).inflight.find? _ = _
    rw [hflight, List.find?_append, hnone]
    simp
  obtain ⟨d, hd, ho, hc, hl, ht⟩ := defers_deferred (r.issued s.nextId dests [] id).norm s.nextId c none none
  have hz := complete_rest ((r.issued s.nextId dests [] id).norm.defers s.nextId c none none) s.nextId
  have hflown := (complete_completed ((r.issued s.nextId dests [] id).norm.defers s.nextId c none none) s.nextId).flight
  have hend : Ends (deferTrap r.id s.nextId c none none : M s Unit)
      ((s.upd (.nextId (s.nextId + 1))).upd (.train r.id (some (r.issued s.nextId dests [] id)))) () _ :=
    Ends.modTrain (get?_upd_train ..)
  generalize ((r.issued s.nextId dests [] id).norm.defers s.nextId c none none).complete s.nextId = z at hz hflown hend
  refine ⟨(((s.upd (.nextId (s.nextId + 1))).upd (.train r.id (some (r.issued s.nextId dests [] id)))).upd (.train r.id (some z))),
    z.norm, d, Ends.bind Ends.freshId (Ends.bind (Ends.modTrain hx) hend), rfl,
    fun k hk => (onlyTrain_upd _ _ _ k hk).trans (onlyTrain_upd _ _ _ k hk), get?_upd_train .., ?_, ho, hc, hl, ht _ hfind, ?_, ?_, ?_⟩
  · show d ∈ z.deferred
    rw [hz]
    exact hd
  · show z.s = _
    rw [hz]
    exact hs
  · show z.v = _
    rw [hz]
    exact hv
  · refine hflown.trans ?_
    show (r.issued s.nextId dests [] id).inflight.filter _ = _
    rw [hflight, List.filter_append, List.filter_eq_self.2 fun f hf' => by simpa using hf f hf']
    simp

/-- What `racq` does once nothing holds it back: it answers, acquires a slot or sleeps (R262). -/
def racqLook (r : Iss) (d : Dst) (k : Nat) (w : Wheel) : M s Unit :=
  match if k < 4 then ringOf w k else none with
  | none => issueTrap r (dstRegs (d, 2)) eRing
  | some g =>
    let answer (lo hi : Nat) : M s Unit := finishDst r fun t => t.setDst d 0xFFFFFFFF 0 (fun _ j => BitVec.ofNat 32 (if j = 0 then lo else hi)) 2
    if g.total ≤ g.next then answer 0xFFFFFFFF g.total
    else if (if g.drain then g.slots[g.next % g.slots.length]? == some .free else g.slots[g.next % g.slots.length]? == some (.ready g.next)) then do
      setRing r.t.wheel k fun g' => { g' with next := g.next + 1, slots := g'.slots.set (g.next % g.slots.length) (.acquired g.next) }
      answer (g.slotBase + g.next % g.slots.length * g.slotBytes) g.next
    else modTrain r.id fun t => { t with wait := some ⟨.ring k, false, 0⟩ }

theorem execRacq_eq (sb : Sb) (d : Dst) (k : Src) : execRacq sb d k s = runM s (beginOnce (.racq sb d k) fun r => do
    let t ← now
    need (!hasOps t.stream r.id && accessMay t r.t r.id && (match r.t.wait with | some w => w.woken | none => true)) .wait
    let w ← wheelM r
    racqLook r d (r.x0 k).toNat w) := rfl

section Racq
variable {sb : Sb} {d : Dst} {k : Src} {wh : Wheel} (h : begin_ s (.racq sb d k) = .ok r) (hx : r.t.inTx = false)
include h hx

theorem racq_waits (hm : hasOps s.stream r.id = true ∨ ¬AcqDone s r ∨ ∃ w, r.t.wait = some w ∧ w.woken = false) :
    exec (.racq sb d k) s = .next (waited s r) := by
  refine waits_of (exec_racq s) h (Stops.beginOnce h hx (Stops.now (Stops.bind_left (Stops.need ?_))))
  rw [Bool.and_eq_false_iff, ← Bool.not_eq_true, streamMay_iff]
  obtain hm | hm | ⟨w, hw, hk⟩ := hm
  · exact .inl fun hn => by simp [hm] at hn
  · exact .inl fun hn => hm hn.2
  · right
    rw [hw]
    exact hk

variable (hm : ¬(hasOps s.stream r.id = true ∨ ¬AcqDone s r ∨ ∃ w, r.t.wait = some w ∧ w.woken = false))
  (hwh : AMap.get? s.wheels r.t.wheel = some wh)
include hm hwh

/-- Nothing holds the `racq` back: it looks at its ring. -/
theorem racq_looks {t : State} (ht : Ends (racqLook r d (r.x0 k).toNat wh : M s Unit) s () t) : exec (.racq sb d k) s = .next t := by
  refine (exec_racq s).trans ((execRacq_eq sb d k).trans (Ends.runM (Ends.beginOnce h hx (Ends.now (Ends.bind (Ends.need ?_) (Ends.bind (Ends.wheelM hwh) ht))))))
  rw [Bool.and_eq_true, streamMay_iff]
  push Not at hm
  obtain ⟨h1, h2, h3⟩ := hm
  refine ⟨⟨by simpa using h1, h2⟩, ?_⟩
  cases hw : r.t.wait with
  | none => rfl
  | some w => simpa using h3 w hw

theorem racq_unbound (hn : wh.rings.toList[(r.x0 k).toNat]?.join = none) (hf : FreshFor s r.t) :
    DefersAt s (.racq sb d k) r 0x17 (pointOf r.c).pc := by
  obtain ⟨t, x, e, ht, hrest⟩ := Ends.issueTrap (dests := dstRegs (d, 2)) (c := eRing) (begin_train h) hf
  refine ⟨t, x, e, racq_looks h hx hm hwh ?_, hrest⟩
  unfold racqLook
  rw [ringOf_eq, hn]
  exact ht

variable {g : WRing} (hg : wh.rings.toList[(r.x0 k).toNat]?.join = some g)
include hg

theorem racq_past (hq : g.count.foldl (· * ·) 1 ≤ g.next) :
    exec (.racq sb d k) s = .next (s.upd (.train r.id (some (r.answers d 0xFFFFFFFF (g.count.foldl (· * ·) 1))))) := by
  refine racq_looks h hx hm hwh ?_
  unfold racqLook
  rw [ringOf_eq, hg]
  dsimp only
  rw [if_pos (show g.total ≤ g.next from hq)]
  exact Ends.modTrain (begin_train h)

theorem racq_acquires (hq : g.next < g.count.foldl (· * ·) 1)
    (hfree : g.slots[g.next % g.slots.length]? = some (if g.drain then .free else .ready g.next)) :
    ∃ wh', wh' = { wh with rings := wh'.rings } ∧
      wh'.rings.toList = wh.rings.toList.set (r.x0 k).toNat (some { g with
        next := g.next + 1, slots := g.slots.set (g.next % g.slots.length) (.acquired g.next) }) ∧
      exec (.racq sb d k) s = .next ((s.upd (.wheel r.t.wheel (some wh'))).upd (.train r.id (some
        (r.answers d (g.slotBase + g.next % g.slots.length * g.slotBytes) g.next)))) := by
  have hk : (r.x0 k).toNat < 4 := by
    by_contra hk
    rw [← ringOf_eq, if_neg hk] at hg
    cases hg
  have hr : ringOf wh (r.x0 k).toNat = some g := by rw [← hg, ← ringOf_eq, if_pos hk]
  refine ⟨{ wh with rings := wh.rings.set ((r.x0 k).toNat % 4) ((ringOf wh (r.x0 k).toNat).map fun g' => { g' with
    next := g.next + 1, slots := g'.slots.set (g.next % g.slots.length) (.acquired g.next) }) (Nat.mod_lt _ (by decide)) }, rfl, ?_, ?_⟩
  · rw [hr]
    exact rings_set wh hk _
  · refine racq_looks h hx hm hwh ?_
    unfold racqLook
    rw [ringOf_eq, hg]
    dsimp only
    rw [if_neg (show ¬g.total ≤ g.next by exact Nat.not_le.2 hq), if_pos (by rw [hfree]; cases g.drain <;> simp)]
    exact Ends.bind (Ends.now (by rw [hwh]; exact Ends.upd _)) (Ends.modTrain (begin_train (s := s) h))

theorem racq_sleeps (hq : g.next < g.count.foldl (· * ·) 1)
    (hfree : ¬g.slots[g.next % g.slots.length]? = some (if g.drain then .free else .ready g.next)) :
    exec (.racq sb d k) s = .next (s.upd (.train r.id (some { r.t with wait := some ⟨.ring (r.x0 k).toNat, false, 0⟩ }))) := by
  refine racq_looks h hx hm hwh ?_
  unfold racqLook
  rw [ringOf_eq, hg]
  dsimp only
  rw [if_neg (show ¬g.total ≤ g.next by exact Nat.not_le.2 hq), if_neg (by cases hd : g.drain <;> simpa [hd] using hfree)]
  exact Ends.modTrain (begin_train h)

end Racq

/-! ## `twait` and `wsync` -/

/-- The class X instructions that `twait` waits for are complete (R296). -/
def TilesDone (s : State) (r : Iss) (o : Option (BitVec 3)) : Prop :=
  match o with
  | some i => ∀ f ∈ r.t.inflight, i.toNat ∉ f.tiles
  | none => hasOps s.matrix r.id = false

section Twait
variable {sb : Sb} {o : Option (BitVec 3)} (h : begin_ s (.twait sb o) = .ok r)
include h

theorem twait_outside (ho : ¬∀ i, o = some i → i.toNat < tilesOf s r.t) :
    exec (.twait sb o) s = .next (trapCur s 0x03 none none) := by
  refine (exec_twait s).trans (Stops.runM (e := .trap 0x03 none none)
    (Stops.bind (Ends.beginM h) (Stops.now (Stops.bind_left (Stops.need ?_)))))
  cases o with
  | none => exact absurd nofun ho
  | some i => simpa using ho

variable (ho : ∀ i, o = some i → i.toNat < tilesOf s r.t) (hx : r.t.inTx = false)
include ho hx

theorem twait_waits (hd : ¬TilesDone s r o) : exec (.twait sb o) s = .next (waited s r) := by
  refine waits_of (exec_twait s) h (Stops.bind (Ends.beginM h) (Stops.now (Stops.bind (Ends.need ?_) ?_)))
  · cases o with
    | none => rfl
    | some i => simpa using ho i rfl
  · rw [hx, if_neg (by decide)]
    refine Stops.bind_left (Stops.need ?_)
    cases o <;> simpa [TilesDone] using hd

theorem twait_ends (hd : TilesDone s r o) :
    ∃ x, exec (.twait sb o) s = .next (s.upd (.train r.id (some x))) ∧ Finished r x := by
  refine finishes_of (exec_twait s) (Ends.bind (Ends.beginM h) (Ends.now (Ends.bind (Ends.need ?_) ?_)))
  · cases o with
    | none => rfl
    | some i => simpa using ho i rfl
  · rw [hx, if_neg (by decide)]
    refine Ends.bind (Ends.need ?_) (Ends.finishNow (begin_train h))
    cases o <;> simpa [TilesDone] using hd

end Twait

theorem banksClear_iff {m : DWord} {c : Nat} : banksClear s m c = true ↔ ∀ k, k < 64 → m.getLsbD k → BankQuiet s k c := by
  unfold banksClear BankQuiet
  simp only [List.all_eq_true, List.mem_range, Bool.or_eq_true, Bool.not_eq_true', Bool.and_eq_true, decide_eq_true_eq]
  refine forall₂_congr fun k _ => ?_
  cases m.getLsbD k <;> simp

section Wsync
variable {sb : Sb} {m c : Src} (h : begin_ s (.wsync sb m c) = .ok r) (hx : r.t.inTx = false)
include h hx

theorem wsync_none (hg : gapExists s.mg.clockMhz.toNat (r.d0 m) (r.x0 c).toNat = false) :
    exec (.wsync sb m c) s = .next (trapCur s 0x03 none none) := by
  refine (exec_wsync s).trans (Stops.runM (e := .trap 0x03 none none) (Stops.beginOnce h hx (Stops.now ?_)))
  dsimp only
  rw [hg]
  exact Stops.stop _

variable (hg : gapExists s.mg.clockMhz.toNat (r.d0 m) (r.x0 c).toNat = true)
include hg

theorem wsync_waits (hn : ¬∀ k, k < 64 → (r.d0 m).getLsbD k → BankQuiet s k (r.x0 c).toNat) :
    exec (.wsync sb m c) s = .next (waited s r) := by
  refine waits_of (exec_wsync s) h (Stops.beginOnce h hx (Stops.now ?_))
  dsimp only
  rw [hg, if_neg (by decide)]
  exact Stops.bind_left (Stops.need (by rwa [← Bool.not_eq_true, banksClear_iff]))

theorem wsync_ends (hn : ∀ k, k < 64 → (r.d0 m).getLsbD k → BankQuiet s k (r.x0 c).toNat) :
    ∃ x, exec (.wsync sb m c) s = .next (s.upd (.train r.id (some x))) ∧ Finished r x := by
  refine finishes_of (exec_wsync s) (Ends.beginOnce h hx (Ends.now ?_))
  dsimp only
  rw [hg, if_neg (by decide)]
  exact Ends.bind (Ends.need (banksClear_iff.2 hn)) (Ends.finishNow (begin_train h))

end Wsync

/-- The destination of `racq` is scalar (R54). -/
theorem racq_scalar {sb : Sb} {d : Dst} {k : Src} (h : begin_ s (.racq sb d k) = .ok r) : d.scalar = true := by
  have hw : (d.ok 2 && d.scalar && k.unif 1) = true := begin_wf h
  rw [Bool.and_eq_true, Bool.and_eq_true] at hw
  exact hw.1.2

/-- Settles O38: each of the five instructions, by what it finds when it looks. -/
theorem engineWaits : Obligations.EngineWaits := by
  refine ⟨fun s sb b ph r h hx => ⟨fun w hw hk => tbwait_woken h hx hw hk, fun w hw hk => tbwait_asleep h hx hw hk,
      fun hw hm => tbwait_held h hx hw hm, fun hw hm => ⟨fun c v ht => tbwait_traps h hx hw hm ht, tbwait_looks h hx hw hm⟩⟩,
    fun s g n rel r h => ?_, fun s sb d k r wh h hx hwh => ?_, fun s sb o r h => ?_, fun s sb m c r h hx =>
      ⟨wsync_none h hx, wsync_waits h hx, wsync_ends h hx⟩⟩
  · refine ⟨fun w hw hk => yieldc_woken h hw hk, fun w hw hk => yieldc_asleep h hw hk, yieldc_inTx h, yieldc_notTaken h, yieldc_held h, fun hw hx hh hm => ⟨fun c v ht => yieldc_traps h hw hx hh hm ht, fun ht hp => ?_, fun ht hp => ?_⟩⟩
    · rw [← tbGet_phase] at hp
      exact yieldc_differs h hw hx hh hm ht hp
    · rw [← tbGet_phase] at hp ⊢
      exact yieldc_sleeps h hw hx hh hm ht hp
  · refine ⟨racq_waits h hx, fun hm => racq_unbound h hx hm hwh, fun g hm hg => ⟨fun hq => ?_, fun hq hf => ?_, racq_sleeps h hx hm hwh hg⟩⟩
    · exact ⟨_, racq_past h hx hm hwh hg hq, answers_is r (racq_scalar h) _ _⟩
    · obtain ⟨wh', he, hr, ha⟩ := racq_acquires h hx hm hwh hg hq hf
      exact ⟨wh', he, hr, _, ha, answers_is r (racq_scalar h) _ _⟩
  · exact ⟨twait_outside h, fun ho hx hd => twait_waits h ho hx hd, fun ho hx hd => twait_ends h ho hx hd⟩

end Sys2Proof.Machine
end

section
/-! SUPPORT. Waits that end for the trains of one context (R71): the exact state that `wakeTrains` leaves. -/

namespace Sys2Proof.Machine

variable {s t u v : State} {α : Type}

/-- A big step has one outcome. -/
theorem Ends.unique {m : M s α} {a b : α} (hr : Reach s t) (h : Ends m t a u) (h' : Ends m t b v) : a = b ∧ u = v := by
  obtain ⟨_, e⟩ := h hr
  obtain ⟨_, e'⟩ := h' hr
  rw [e] at e'
  simp only [Except.ok.injEq, Prod.mk.injEq, Subtype.mk.injEq] at e'
  exact e'

theorem Ends.reach {m : M s α} {a : α} (hr : Reach s t) (h : Ends m t a u) : Reach s u := (h hr).1

/-- A list whose entries are all one number names that number alone. -/
theorem dedup_of_all_eq {l : List Nat} {c : Nat} (h : ∀ x ∈ l, x = c) : l.dedup = if l = [] then [] else [c] := by
  rw [List.eq_replicate_of_mem h]
  cases l with
  | nil => rfl
  | cons x l => simp [List.replicate_dedup]

/-- The trains whose waits a test ends. -/
def wokenBy (t : State) (f : Nat → Train → Bool) : AMap Train := t.trains.filter fun kv => kv.2.waiting && f kv.1 kv.2

theorem Ends.wakeTrains_list (f : Nat → Train → Bool) : Ends (Machine.wakeTrains f : M s Unit) t ()
    (restartedAll (t.upds ((wokenBy t f).map fun kv => .train kv.1 (some kv.2.woke))) ((wokenBy t f).map fun kv => t.ctxOf kv.2).dedup) :=
  Ends.now (Ends.bind (Ends.updAll _) (Ends.forM (fun _ c => Ends.restartCount c) _ _))

/-- Where the trains whose waits end are of one context, its count alone restarts. -/
theorem Ends.wakeTrains_one {f : Nat → Train → Bool} {c : Nat} (h : ∀ kv ∈ wokenBy t f, t.ctxOf kv.2 = c) :
    Ends (Machine.wakeTrains f : M s Unit) t () (if wokenBy t f = [] then t
      else restarted (t.upds ((wokenBy t f).map fun kv => .train kv.1 (some kv.2.woke))) c) := by
  have hl := Ends.wakeTrains_list (s := s) (t := t) f
  rw [dedup_of_all_eq fun x hx => (List.mem_map.1 hx).elim fun kv hkv => hkv.2 ▸ h kv hkv.1] at hl
  by_cases h0 : wokenBy t f = []
  · rw [if_pos h0]
    rw [h0] at hl
    exact hl
  · rw [if_neg h0]
    rw [if_neg (by simpa using h0)] at hl
    exact hl

/-- The one train of an identity that passes a test. -/
theorem AMap.filter_key {m : AMap α} (hk : KeysRise m) {id : Nat} {x : α} (hx : AMap.get? m id = some x) {p : Nat × α → Bool}
    (hp : ∀ kv, p kv = true → kv.1 = id) : m.filter p = if p (id, x) = true then [(id, x)] else [] := by
  induction m with
  | nil => cases hx
  | cons kv m ih =>
    obtain ⟨i, y⟩ := kv
    obtain ⟨hlt, hk'⟩ := KeysRise.cons.1 hk
    rw [AMap.get?_cons] at hx
    by_cases hi : i = id
    · subst hi
      rw [if_pos rfl] at hx
      cases hx
      have hrest : m.filter p = [] := List.filter_eq_nil_iff.2 fun kv hkv hpk =>
        absurd (hlt kv.1 (List.mem_map_of_mem hkv)) (by rw [hp kv hpk]; exact Nat.lt_irrefl _)
      rw [List.filter_cons, hrest]
    · rw [if_neg hi] at hx
      rw [List.filter_cons, if_neg fun hpk => hi (hp _ hpk)]
      exact ih hk' hx

theorem waiting_iff {x : Train} {w : Wait} (hw : x.wait = some w) : x.waiting = !w.woken := by
  unfold Train.waiting
  rw [hw]

/-- The wait of one train ends. -/
theorem Ends.wakeTrains_self {id : Nat} {x : Train} (hk : KeysRise t.trains) (hx : AMap.get? t.trains id = some x)
    {f : Nat → Train → Bool} (hf : ∀ k y, f k y = true → k = id) : Ends (Machine.wakeTrains f : M s Unit) t ()
      (if (x.waiting && f id x) = true then restarted (t.upd (.train id (some x.woke))) (t.ctxOf x) else t) := by
  have hl : wokenBy t f = if (x.waiting && f id x) = true then [(id, x)] else [] :=
    AMap.filter_key hk hx fun kv hp => hf _ _ (Bool.and_eq_true _ _ |>.mp hp).2
  have h := Ends.wakeTrains_one (s := s) (t := t) (f := f) (c := t.ctxOf x) (by
    rw [hl]
    split
    · simp
    · simp)
  rw [hl] at h
  by_cases hp : (x.waiting && f id x) = true
  · simpa only [if_pos hp, List.cons_ne_nil, if_false, List.map_cons, List.map_nil, State.upds_cons, State.upds_nil] using h
  · simpa only [if_neg hp, if_true] using h

/-- The Regulator's count of a context that restarts is 0. -/
theorem restarted_regulator (t : State) {c : Nat} (hc : c < 16) : ((restarted t c).ctx c).regulator = 0 := by
  unfold restarted
  split
  next h => exact h
  next => rw [ctx_upd_ctx t hc]; rfl

theorem restarted_ctxs (t : State) (c : Nat) :
    (restarted t c).ctxs = t.ctxs ∨ (restarted t c).ctxs = (t.upd (.ctx c { t.ctx c with regulator := 0 })).ctxs := by
  unfold restarted
  split
  · exact .inl rfl
  · exact .inr rfl

end Sys2Proof.Machine
end

section
/-! SUPPORT. Arrivals at a barrier word (R137 to R141): an arrival that waits, and the one that flips the phase. -/

namespace Sys2Proof.Machine

variable {s t u : State} {r : Iss}

/-- An arrival of `mk` (the members that `barm` names) at the word `w` agrees with it on `members` (R139). -/
structure Agrees (s : State) (r : Iss) (w : BarWord) (mk : Option Nat) (members : Nat) : Prop where
  valid : w.valid = true
  rsvd : w.rsvd = 0
  expect : MaskOk s r w.expect
  legal : MaskOk s r members
  same : (mk = none ∧ w.masked = false ∧ members = w.expect) ∨
    (mk = some members ∧ ((w.masked = true ∧ w.members = members) ∨ (w.masked = false ∧ w.arrived = 0)))
  member : members.testBit r.t.index = true
  fresh : w.arrived.testBit r.t.index = false

/-- The word once an arrival of `mk` has named its members (R139). -/
def BarWord.naming (w : BarWord) (mk : Option Nat) (members : Nat) : BarWord :=
  { w with masked := mk.isSome, members := if mk.isSome then members else w.members }

/-- What an arrival does that agrees with the word: it flips the phase, waits, or only counts. -/
def countArrival (r : Iss) (a members : Nat) (w : BarWord) (stay : Bool) : M s Unit :=
  if w.arrived + 2 ^ r.t.index = members then do
    putBar r.t.wheel a { w with phase := (w.phase + 1) % 16, arrived := 0, members := 0, masked := false }
    wakeBarrier r.t.wheel a
    finishNow r id
  else do
    putBar r.t.wheel a { w with arrived := w.arrived + 2 ^ r.t.index }
    if stay then modTrain r.id fun t => { t with wait := some ⟨.barrier a, false, 0⟩ }
    else finishNow r id

theorem countArrival_last {a members : Nat} {w : BarWord} {stay : Bool} (hn : w.arrived + 2 ^ r.t.index = members)
    (h : Ends (do
      putBar r.t.wheel a { w with phase := (w.phase + 1) % 16, arrived := 0, members := 0, masked := false }
      wakeBarrier r.t.wheel a
      finishNow r id : M s Unit) t () u) : Ends (countArrival r a members w stay : M s Unit) t () u := by
  unfold countArrival
  rw [if_pos hn]
  exact h

theorem countArrival_more {a members : Nat} {w : BarWord} {stay : Bool} (hn : w.arrived + 2 ^ r.t.index ≠ members)
    (h : Ends (do
      putBar r.t.wheel a { w with arrived := w.arrived + 2 ^ r.t.index }
      if stay then modTrain r.id fun t => { t with wait := some ⟨.barrier a, false, 0⟩ } else finishNow r id : M s Unit) t () u) :
    Ends (countArrival r a members w stay : M s Unit) t () u := by
  unfold countArrival
  rw [if_neg hn]
  exact h

theorem bitAt_eq (v i : Nat) : bitAt v i = v.testBit i := by
  rw [Nat.testBit_eq_decide_div_mod_eq]
  rfl

/-- An arrival that agrees with its word counts. -/
theorem Ends.arrive_agrees {wh : Wheel} {a members : Nat} {mask : Option Word} {stay : Bool}
    (h : AMap.get? t.wheels r.t.wheel = some wh) (ha : Agrees t r (barAt wh.local_ a) (mask.map (·.toNat)) members)
    (hc : Ends (countArrival r a members ((barAt wh.local_ a).naming (mask.map (·.toNat)) members) stay : M s Unit) t () u) :
    Ends (arrive r a mask stay : M s Unit) t () u := by
  obtain ⟨hvalid, hrsvd, hexpect, hlegal, hsame, hmember, hfresh⟩ := ha
  have hbad {m : Nat} (hm : MaskOk t r m) : (m == 0 || decide (2 ^ trainsOf t r.t ≤ m)) = false := by
    have := not_maskOk_iff (s := t) (r := r) (n := m)
    simp only [hm, not_true, false_iff, not_or] at this
    simp [this.1, this.2]
  unfold arrive
  refine Ends.now (Ends.bind (Ends.wheelM h) ?_)
  have hw : BarWord.ofNat (Bytes.read wh.local_ a 8) = barAt wh.local_ a := rfl
  dsimp only
  rw [hw]
  generalize barAt wh.local_ a = w at *
  rw [if_neg (by rw [hbad hexpect, hvalid, hrsvd]; decide)]
  obtain ⟨hmk, hmasked, rfl⟩ | ⟨hmk, hword⟩ := hsame
  · obtain rfl : mask = none := Option.map_eq_none_iff.1 hmk
    rw [if_neg Bool.false_ne_true]
    have hn : w.naming none w.expect = w := by
      obtain ⟨_, _, masked, _, _, _, _⟩ := w
      cases hmasked
      rfl
    have hmem : (if w.masked = true then w.members else w.expect) = w.expect := if_neg (by simp [hmasked])
    rw [Option.map_none, hn] at hc
    dsimp only
    rw [if_neg (by simp [hmasked, bitAt_eq, hmember, hfresh]), hmem]
    exact hc
  · obtain ⟨m, rfl, hm⟩ := Option.map_eq_some_iff.1 hmk
    subst hm
    rw [if_neg (by simpa using hbad hlegal)]
    have hn : (if (decide (w.arrived = 0) && !w.masked) = true then { w with members := m.toNat, masked := true } else w) =
        w.naming (some m.toNat) m.toNat := by
      obtain ⟨_, _, masked, _, members, _, _⟩ := w
      obtain ⟨h1, h2⟩ | ⟨h1, h2⟩ := hword
      · cases h1
        cases h2
        exact if_neg (by simp)
      · cases h1
        cases h2
        exact if_pos rfl
    have hmem : (if (w.naming (some m.toNat) m.toNat).masked = true then (w.naming (some m.toNat) m.toNat).members
      else (w.naming (some m.toNat) m.toNat).expect) = m.toNat := if_pos rfl
    rw [Option.map_some] at hc
    dsimp only
    simp only [hn]
    rw [if_neg (by simp [BarWord.naming, bitAt_eq, hmember, hfresh]), hmem]
    exact hc

/-- A train of the wheel after the phase of the word at `a` has flipped (R69, R139). -/
def afterFlip (W a : Nat) (y : Train) : Train :=
  if y.wheel = W then { y with
    retired := 0
    wait := match y.wait with
      | some v => some (if v.on = .barrier a then { v with woken := true } else v)
      | none => none } else y

/-- Some train waits for the flip of the word at `a`. -/
def FlipAwaited (t : State) (W a : Nat) : Prop :=
  ∃ j y v, AMap.get? t.trains j = some y ∧ y.wheel = W ∧ y.wait = some v ∧ v.woken = false ∧ v.on = .barrier a

/-- What the flip of a barrier's phase leaves: trains of the wheel woken, the count of their context restarted where one waited. -/
structure Flipped (t u : State) (W a c : Nat) : Prop where
  frame : u = { t with trains := u.trains, ctxs := u.ctxs }
  trains : ∀ j y, y.Ok → AMap.get? t.trains j = some y → AMap.get? u.trains j = some (afterFlip W a y)
  ctxs : u.ctxs = t.ctxs ∨ u.ctxs = (t.upd (.ctx c { t.ctx c with regulator := 0 })).ctxs
  awaited : c < 16 → FlipAwaited t W a → (u.ctx c).regulator = 0

theorem afterRelease_ok (W : Nat) {y : Train} (h : y.Ok) : (afterRelease W y).Ok := by
  unfold afterRelease
  split
  · exact ⟨h.live, h.p7, h.pc, h.opened⟩
  · exact h

/-- Waking after the release is what the flip does to one train. -/
theorem afterFlip_eq (W a : Nat) (y : Train) : afterFlip W a y =
    if (afterRelease W y).waiting && ((afterRelease W y).wheel == W && (match (afterRelease W y).wait with
      | some w => w.on == .barrier a
      | none => false)) then (afterRelease W y).woke else afterRelease W y := by
  unfold afterFlip afterRelease
  by_cases hW : y.wheel = W
  · rw [if_pos hW, if_pos hW]
    obtain hw | ⟨⟨on, woken, age⟩, hw⟩ : y.wait = none ∨ ∃ w, y.wait = some w := by cases y.wait <;> simp
    · simp [Train.waiting, hw]
    · by_cases hon : on = .barrier a
      · cases woken <;> simp [Train.waiting, Train.woke, hw, hW, hon]
      · simp [hw, hon]
  · rw [if_neg hW, if_neg hW, if_neg (by simp [hW])]

theorem Ends.wakeBarrier {W a c : Nat} (hr : Reach s t) (hk : KeysRise t.trains)
    (hc : ∀ j y, AMap.get? t.trains j = some y → y.wheel = W → t.ctxOf y = c) :
    ∃ u, Ends (Machine.wakeBarrier W a : M s Unit) t () u ∧ Flipped t u W a c := by
  obtain ⟨t1, h1, hch⟩ := Ends.wheelReleased (s := s) (W := W) hk
  let f : Nat → Train → Bool := fun _ x => x.wheel == W && (match x.wait with | some w => w.on == .barrier a | none => false)
  obtain ⟨u, h2, hw⟩ := Ends.wakeTrains (s := s) hch.keys f
  have hget (j : Nat) (y : Train) (hok : y.Ok) (hy : AMap.get? t.trains j = some y) :
      AMap.get? t1.trains j = some (afterRelease W y) := by
    rw [hch.get, hy, Option.map_some]
    unfold afterRelease
    by_cases hW : y.wheel = W
    · simp only [hW, beq_self_eq_true, if_true]
      exact congrArg some (Train.norm_of_ok ⟨hok.live, hok.p7, hok.pc, hok.opened⟩)
    · simp [hW]
  have hone := Ends.wakeTrains_one (s := s) (t := t1) (f := f) (c := c) fun kv hkv => by
    obtain ⟨hmem, hp⟩ := List.mem_filter.1 hkv
    obtain ⟨j, z⟩ := kv
    have hz := AMap.get?_of_mem hch.keys hmem
    rw [hch.get] at hz
    obtain ⟨y, hy, hyz⟩ := Option.map_eq_some_iff.1 hz
    have hzW : z.wheel = W := by simpa [f] using ((Bool.and_eq_true _ _ |>.mp hp).2 |> (Bool.and_eq_true _ _ |>.mp ·)).1
    have hwheel : y.wheel = z.wheel := by rw [← hyz]; split <;> rfl
    have hcong : t1.ctxOf z = t.ctxOf y := ctxOf_congr hwheel.symm (fun k => by rw [hch.frame]) (by rw [hch.frame])
    exact hcong.trans (hc j y hy (hwheel.trans hzW))
  have heq := (Ends.unique (Ends.reach hr h1) h2 hone).2
  have hcx : t1.ctxs = t.ctxs := by rw [hch.frame]
  have hX : (t1.upds ((wokenBy t1 f).map fun kv => .train kv.1 (some kv.2.woke))).ctxs = t.ctxs := by
    rw [upds_train_list]
    exact hcx
  have hXc : ((t1.upds ((wokenBy t1 f).map fun kv => .train kv.1 (some kv.2.woke))).upd (.ctx c
      { (t1.upds ((wokenBy t1 f).map fun kv => .train kv.1 (some kv.2.woke))).ctx c with regulator := 0 })).ctxs =
      (t.upd (.ctx c { t.ctx c with regulator := 0 })).ctxs := by
    simp only [State.upd_ctxs, State.ctx, hX]
  refine ⟨u, Ends.bind h1 h2, ?_, fun j y hok hy => ?_, ?_, fun hlt hwait => ?_⟩
  · rw [hw.frame, hch.frame]
  · rw [hw.get, hget j y hok hy, Option.map_some, afterFlip_eq]
    split
    · exact congrArg some (Train.norm_of_ok (afterRelease_ok W hok).woke)
    · rfl
  · rw [heq]
    split
    · exact .inl hcx
    · rw [← hX, ← hXc]
      exact restarted_ctxs _ c
  · obtain ⟨j, y, v, hy, hW, hv, hwo, hon⟩ := hwait
    have hne : wokenBy t1 f ≠ [] := by
      have hz : AMap.get? t1.trains j = some (if (y.wheel == W) = true then ({ y with retired := 0 } : Train).norm else y) := by
        rw [hch.get, hy]
        rfl
      refine List.ne_nil_of_mem (List.mem_filter.2 ⟨AMap.mem_of_get? hz, ?_⟩)
      simp [f, hW, Train.waiting, Train.norm, hv, hwo, hon]
    rw [heq, if_neg hne]
    exact restarted_regulator _ hlt

theorem flipped_self (W a : Nat) (hw : r.t.wait = none) (hW : r.t.wheel = W) : afterFlip W a r.t = { r.t with retired := 0 } := by
  simp only [afterFlip, hW, if_true, hw]

theorem dispatch_with_local (wh : Wheel) (b : Bytes) : ({ wh with local_ := b } : Wheel).dispatch = wh.dispatch := rfl

theorem withBar_dispatch (wh : Wheel) (a : Nat) (w : BarWord) : (withBar wh a w).dispatch = wh.dispatch :=
  dispatch_with_local wh (Bytes.write wh.local_ a 8 w.toNat)

/-- A barrier word is written and the trains that wait on it are woken. -/
theorem putBar_wakes {a : Nat} {wh : Wheel} {y : Train} (hwh : AMap.get? s.wheels y.wheel = some wh) (hk : KeysRise s.trains)
    (w : BarWord) : ∃ u, Ends (putBar y.wheel a w : M s Unit) s () (s.upd (.wheel y.wheel (some (withBar wh a w)))) ∧
      Ends (wakeBarrier y.wheel a : M s Unit) (s.upd (.wheel y.wheel (some (withBar wh a w)))) () u ∧
      Flipped (s.upd (.wheel y.wheel (some (withBar wh a w)))) u y.wheel a (s.ctxOf y) := by
  have hput := Ends.putBar (s := s) (t := s) (a := a) hwh (w := w)
  have hsame := sameWaits_upd_wheel (wh' := withBar wh a w) hwh (withBar_dispatch wh a w)
  have hk' : KeysRise (s.upd (.wheel y.wheel (some (withBar wh a w)))).trains := by simpa using hk
  obtain ⟨u, hu, hfl⟩ := Ends.wakeBarrier (W := y.wheel) (a := a) (c := s.ctxOf y) (Ends.reach .refl hput) hk'
    fun j z _ hz => ctxOf_congr hz hsame.wheels hsame.dispatches
  exact ⟨u, hput, hu, hfl⟩

section
variable {i : Instr} {m : MemB} {mask : Option Src} {stay : Bool} (hb : begin_ s i = .ok r) (ha : AcqDone s r)
  (he : exec i s = runM s (barrierInstr i m mask stay))
include hb ha he

theorem barrier_woken {w : Wait} (hw : r.t.wait = some w) (hk : w.woken = true) :
    ∃ x, exec i s = .next (s.upd (.train r.id (some x))) ∧ Finished r x := by
  refine finishes_of he (Ends.bind (Ends.beginMem hb ha) ?_)
  rw [hw]
  dsimp only
  rw [if_pos hk]
  exact Ends.finishNow (begin_train hb)

theorem barrier_asleep {w : Wait} (hw : r.t.wait = some w) (hk : w.woken = false) : exec i s = .next (waited s r) := by
  refine waits_of he hb (Stops.bind (Ends.beginMem hb ha) ?_)
  rw [hw]
  dsimp only
  rw [hk]
  exact Stops.stop _

variable {wh : Wheel} {a members : Nat} (hw : r.t.wait = none) (hx : r.t.inTx = false) (hh : Holds r)
  (hwh : AMap.get? s.wheels r.t.wheel = some wh) (hm : ArrivalMay s r) (had : Ends (barAddr r m : M s Nat) s a s)
  (hag : Agrees s r (barAt wh.local_ a) ((mask.map r.x0).map (·.toNat)) members)
include hw hx hh hwh hm had hag

/-- An arrival that agrees with its word counts (R139, R141). -/
theorem barrier_counts (hc : Ends (countArrival r a members ((barAt wh.local_ a).naming ((mask.map r.x0).map (·.toNat)) members) stay
    : M s Unit) s () u) : exec i s = .next u := by
  obtain ⟨hf, hl, hwr⟩ := hm
  refine he.trans (Ends.runM (Ends.bind (Ends.beginMem hb ha) ?_))
  rw [hw, hx, show r.acts = true from holds_iff.2 hh]
  refine Ends.bind had (Ends.now (Ends.bind (Ends.need ?_) (Ends.arrive_agrees hwh hag hc)))
  simp only [hf, hl, List.isEmpty_nil, Bool.and_self, Bool.true_and, Core.writesOf, List.all_eq_true, List.mem_filter, beq_iff_eq,
    Bool.and_eq_true, and_imp]
  exact fun w hw' ht => ⟨(hwr w hw' ht).1, fun a h' => (hwr w hw' ht).2 a h'⟩

/-- An arrival that is not the last sets its bit (R139). -/
theorem barrier_stays (hn : (barAt wh.local_ a).arrived + 2 ^ r.t.index ≠ members) :
    ∃ x, exec i s = .next ((s.upd (.wheel r.t.wheel (some (withBar wh a { (barAt wh.local_ a).naming
        ((mask.map r.x0).map (·.toNat)) members with arrived := (barAt wh.local_ a).arrived + 2 ^ r.t.index })))).upd
          (.train r.id (some x))) ∧
      if stay then x = { r.t with wait := some ⟨.barrier a, false, 0⟩ } else Finished r x := by
  have hput := Ends.putBar (s := s) (t := s) (a := a) hwh (w := { (barAt wh.local_ a).naming ((mask.map r.x0).map (·.toNat)) members with
    arrived := (barAt wh.local_ a).arrived + 2 ^ r.t.index })
  have hgo := barrier_counts hb ha he hw hx hh hwh hm had hag (u := (s.upd (.wheel r.t.wheel (some (withBar wh a
    { (barAt wh.local_ a).naming ((mask.map r.x0).map (·.toNat)) members with arrived := (barAt wh.local_ a).arrived + 2 ^ r.t.index })))).upd
      (.train r.id (some (if stay then { r.t with wait := some ⟨.barrier a, false, 0⟩ } else r.retired r.t)))) (by
    refine countArrival_more hn (Ends.bind hput ?_)
    cases stay
    · exact Ends.finishNow (begin_train (s := s) hb)
    · exact Ends.modTrain (begin_train (s := s) hb))
  refine ⟨_, hgo, ?_⟩
  cases stay
  · exact retired_finished r
  · rfl

/-- The last arrival flips the phase (R139). -/
theorem barrier_flips (hn : (barAt wh.local_ a).arrived + 2 ^ r.t.index = members) (hk : KeysRise s.trains)
    (hok : ∀ j y, AMap.get? s.trains j = some y → y.Ok) :
    ∃ u, exec i s = .next (u.upd (.train r.id (some (r.retired { r.t with retired := 0 })))) ∧
      Flipped (s.upd (.wheel r.t.wheel (some (withBar wh a { barAt wh.local_ a with
        phase := ((barAt wh.local_ a).phase + 1) % 16, arrived := 0, members := 0, masked := false })))) u r.t.wheel a (s.ctxOf r.t) := by
  obtain ⟨u, hput, hu, hfl⟩ := putBar_wakes (a := a) hwh hk { barAt wh.local_ a with
    phase := ((barAt wh.local_ a).phase + 1) % 16, arrived := 0, members := 0, masked := false }
  refine ⟨u, barrier_counts hb ha he hw hx hh hwh hm had hag ?_, hfl⟩
  have hme : AMap.get? u.trains r.id = some { r.t with retired := 0 } := by
    have h := hfl.trains r.id r.t (hok _ _ (begin_train hb)) (begin_train (s := s) hb)
    rw [h, flipped_self r.t.wheel a hw rfl]
  exact countArrival_last hn (Ends.bind hput (Ends.bind hu (Ends.modTrain hme)))

end

/-- Settles O27: a train that waited goes on or stays; an arrival that agrees with its word counts, and the last one flips the phase. -/
theorem barrierArrivals : Obligations.BarrierArrivals := by
  intro s i g sb m k stay mk r wh members hi hb ha
  obtain ⟨mask, he, hmk⟩ : ∃ mask : Option Src, exec i s = runM s (barrierInstr i m mask stay) ∧ mk = (mask.map r.x0).map (·.toNat) := by
    obtain ⟨rfl, rfl, rfl⟩ | ⟨rfl, rfl, rfl⟩ | ⟨rfl, rfl, rfl⟩ := hi
    · exact ⟨none, rfl, rfl⟩
    · exact ⟨none, rfl, rfl⟩
    · exact ⟨some k, rfl, rfl⟩
  refine ⟨fun w hw hk => barrier_woken hb ha he hw hk, fun w hw hk => barrier_asleep hb ha he hw hk,
    fun hw hx hh hwh hm ha8 hsz hv hr hme hml hsame hbit hfresh => ?_⟩
  subst hmk
  have had := barAddr_ok (s := s) (t := s) ha8 hsz
  have hag : Agrees s r (barAt wh.local_ (addrOfB r 8 m 0).toNat) ((mask.map r.x0).map (·.toNat)) members :=
    ⟨hv, hr, hme, hml, hsame, hbit, hfresh⟩
  refine ⟨fun hn => barrier_stays hb ha he hw hx hh hwh hm had hag hn, fun hn hk hok => ?_⟩
  obtain ⟨u, hu, hfl⟩ := barrier_flips hb ha he hw hx hh hwh hm had hag hn hk hok
  refine ⟨_, r.retired { r.t with retired := 0 }, hu, ?_,
    hfl.ctxs.imp id fun h => h.trans (by simp only [State.upd_ctxs]; rfl), hfl.awaited, ?_, get?_upd_train .., retired_finished
    { r with t := { r.t with retired := 0 } }, fun j y hj hy => ?_⟩
  · have hfr := hfl.frame
    show ({ u with trains := _ } : State) = _
    rw [hfr]
    rfl
  · have hfr : u.wheels = _ := congrArg State.wheels hfl.frame
    exact hfr
  · exact (onlyTrain_upd u r.id _ j hj).trans (hfl.trains j y (hok j y hy) hy)

end Sys2Proof.Machine
end

section
/-! SUPPORT. Monitors: what an access is when every lane passes its checks, and the watches that `mon`, `mwait` and their events arm, read and end (R117, R142). -/

namespace Sys2Proof.Machine

section
variable {s t u : State} {r : Iss} {n : Nat} {kind : BitVec 3} {dev : Bool} {va : Nat → DWord} {E : Nat → Tlb}

theorem mem_lanesOf {m : Mask} {L : Nat} : L ∈ lanesOf m ↔ L < 32 ∧ m.getLsbD L = true := by
  simp [lanesOf]

theorem lanesWhere_zero {vs : List (Nat × DWord × Verdict)} {f : DWord → Verdict → Bool} (h : ∀ x ∈ vs, f x.2.1 x.2.2 = false) :
    lanesWhere vs f = 0 := by
  by_contra hne
  obtain ⟨L, hL, hl⟩ := mask_ne_zero.1 hne
  rw [lanesWhere, getLsbD_maskOf _ hL, List.any_eq_true] at hl
  obtain ⟨x, hx, hxf⟩ := hl
  simp [h x hx] at hxf

theorem Passes.verdict {L : Nat} (h : Passes s r n kind dev va E L) :
    laneVerdict s r n kind dev (va L) L = .good ⟨L, va L, (E L).paOf (va L).toNat, E L⟩ := by
  obtain ⟨ha, hl, hx, hc⟩ := h
  unfold laneVerdict
  rw [if_neg (by simpa using ha), if_neg (Nat.not_le.2 hl), hx]
  dsimp only
  rw [hc]

/-- Nothing is reported where no lane's translation shows a fault. -/
theorem Ends.reportHits_none {nopark : Bool} {vs : List (Nat × DWord × Verdict)} (h : ∀ x ∈ vs, ∃ a, x.2.2 = .good a) :
    Ends (reportHits r kind nopark vs : M s Unit) t () t := by
  unfold reportHits
  rw [List.filterMap_eq_nil_iff.2]
  · exact Ends.now (Ends.pure ())
  · intro x hx
    obtain ⟨a, ha⟩ := h x hx
    rw [ha]

/-- The checks of an access that every lane of it passes (R117). -/
theorem Ends.settle {lanes : Mask} (hp : ∀ L, lanes.getLsbD L = true → Passes s r n kind dev va E L) :
    Ends (Machine.settle r n kind dev va lanes : M s _) s (some (goodsOf va E lanes, (0 : Mask))) s := by
  have hvs : ((lanesOf lanes).map fun L => (L, va L, laneVerdict s r n kind dev (va L) L)) =
      (lanesOf lanes).map fun L => (L, va L, Verdict.good ⟨L, va L, (E L).paOf (va L).toNat, E L⟩) :=
    List.map_congr_left fun L hL => by rw [(hp L (mem_lanesOf.1 hL).2).verdict]
  have hgood : ∀ x ∈ (lanesOf lanes).map fun L => (L, va L, Verdict.good ⟨L, va L, (E L).paOf (va L).toNat, E L⟩),
      (∃ a, x.2.2 = .good a) ∧ x.2.1.toNat < 2 ^ 55 := by
    intro x hx
    obtain ⟨L, hL, rfl⟩ := List.mem_map.1 hx
    exact ⟨⟨_, rfl⟩, (hp L (mem_lanesOf.1 hL).2).low⟩
  unfold Machine.settle
  refine Ends.now ?_
  rw [hvs]
  generalize hg : ((lanesOf lanes).map fun L => (L, va L, Verdict.good ⟨L, va L, (E L).paOf (va L).toNat, E L⟩)) = vs at hgood
  have hverdict (f : Verdict → Bool) (hf : ∀ a, f (.good a) = false) : ∀ x ∈ vs, f x.2.2 = false := by
    intro x hx
    obtain ⟨⟨a, ha⟩, -⟩ := hgood x hx
    rw [ha, hf]
  have hmis : lanesWhere vs (fun _ v => v == .trap eMisalign) = 0 := lanesWhere_zero (hverdict (· == .trap eMisalign) fun _ => rfl)
  have hrange : lanesWhere vs (fun va _ => decide (2 ^ 55 ≤ va.toNat)) = 0 :=
    lanesWhere_zero fun x hx => decide_eq_false (Nat.not_le.2 (hgood x hx).2)
  have hmiss : (vs.any fun x => x.2.2 == .miss) = false :=
    List.any_eq_false.2 fun x hx => by simp [hverdict (· == .miss) (fun _ => rfl) x hx]
  have hgoods : goodsOf va E lanes = vs.filterMap fun x => match x.2.2 with | .good a => some a | _ => none := by
    rw [← hg, goodsOf, List.filterMap_map, ← List.filterMap_eq_map]
    rfl
  dsimp only
  rw [hmis, hrange, hmiss, List.find?_eq_none.2, lanesWhere_zero, hgoods]
  · exact Ends.bind (Ends.reportHits_none fun x hx => (hgood x hx).1) (Ends.pure _)
  all_goals
    intro x hx
    obtain ⟨⟨a, ha⟩, -⟩ := hgood x hx
    rw [ha]
  exact Bool.false_ne_true

/-- An access that acts once is made for one lane. -/
theorem lanesOf_one {L : Nat} (h : IsLowest r.one L) : lanesOf r.one = [L] := by
  obtain ⟨hL, hl, hlow⟩ := h
  have hone (K : Nat) (hK : K < 32) : r.one.getLsbD K = true ↔ K = L := by
    refine ⟨fun hk => ?_, fun hk => hk ▸ hl⟩
    unfold Iss.one at hk hl
    by_cases ha : r.act = 0
    · rw [if_pos ha] at hk hl
      have hbit (J : Nat) : (1 : Mask).getLsbD J = true ↔ J = 0 := by
        rw [show (1 : Mask) = 1#32 from rfl, BitVec.getLsbD_one]
        simp
      exact ((hbit K).1 hk).trans ((hbit L).1 hl).symm
    · rw [if_neg ha, getLsbD_maskOf _ hK] at hk
      rw [if_neg ha, getLsbD_maskOf _ hL] at hl
      exact (beq_iff_eq.1 hk).trans (beq_iff_eq.1 hl).symm
  calc lanesOf r.one = (List.range 32).filter (· == L) := List.filter_congr fun K hK => by
        rw [Bool.eq_iff_iff, hone K (List.mem_range.1 hK), beq_iff_eq]
    _ = [L] := by rw [List.filter_beq, List.count_eq_one_of_mem List.nodup_range (List.mem_range.2 hL)]; rfl

/-- What follows a step that is made under a condition only. -/
theorem Ends.join {α β : Type} {c : Prop} [Decidable c] {a : α} {b : β} {m : M s α} {k : α → M s β} {v : State}
    (h : Ends (if c then Pure.pure a else m) t a u) (hk : Ends (k a) u b v) : Ends (if c then k a else m >>= k) t b v := by
  by_cases hc : c
  · rw [if_pos hc] at h ⊢
    exact Ends.bind h hk
  · rw [if_neg hc] at h ⊢
    exact Ends.bind h hk

/-! ## `mon` arms a watch -/

/-- Owners, the cores' shares of the sectors, and the counters of the die apart, nothing differs. -/
def ReadsHome (t u : State) : Prop := u = { t with cores := u.cores, owners := u.owners, l3 := u.l3, chime := u.chime }

theorem ReadsHome.trans {v : State} (h : ReadsHome t u) (h' : ReadsHome u v) : ReadsHome t v := by
  unfold ReadsHome at *
  rw [h', h]

theorem Ends.homeRead_some (k pa n : Nat) : ∃ u, Ends (homeRead (some k) pa n : M s Nat) t (Bytes.read t.mem pa n) u ∧ ReadsHome t u := by
  obtain ⟨u, hu, he⟩ : ∃ u, Ends (recallOwner (some k) pa : M s Unit) t () u ∧ u = { t with cores := u.cores, owners := u.owners } := by
    cases ho : t.ownerOf pa with
    | none => exact ⟨t, Ends.now (by rw [ho]; exact Ends.pure ()), rfl⟩
    | some j =>
      by_cases hj : some k = some j
      · exact ⟨t, Ends.now (by rw [ho]; dsimp only; rw [if_pos hj]; exact Ends.pure ()), rfl⟩
      · obtain ⟨u, hu, he⟩ := Ends.disown (s := s) (t := t) (pa / 128)
        exact ⟨u, Ends.now (by rw [ho]; dsimp only; rw [if_neg hj]; exact hu), he⟩
  have hm : u.mem = t.mem := by rw [he]
  refine ⟨u, Ends.bind hu (Ends.now (by rw [hm]; exact Ends.pure _)), ?_⟩
  unfold ReadsHome
  rw [he]

theorem Ends.chimeCount (k : Nat) (tag : BitVec 16) (c va : Nat) :
    ∃ u, Ends (Machine.chimeCount k tag c va : M s Unit) t () u ∧ ReadsHome t u := by
  have hlast (u : State) (b : Prop) [Decidable b] (q : Chime) : ∃ v, Ends (if b then Machine.upd (.chime q) else Pure.pure () : M s Unit) u () v ∧ ReadsHome u v := by
    by_cases hb : b
    · exact ⟨u.upd (.chime q), by rw [if_pos hb]; exact Ends.upd _, rfl⟩
    · exact ⟨u, by rw [if_neg hb]; exact Ends.pure (), rfl⟩
  unfold Machine.chimeCount
  cases hf : tlbFind (t.l3Of (dieOf k)) tag va with
  | none => exact ⟨t, Ends.now (by dsimp only; rw [hf]; exact Ends.pure ()), rfl⟩
  | some e =>
    cases hq : (!e.mig || (t.ctx c).migthresh.toNat = 0 : Bool)
    · let t1 := t.upd (.l3 (dieOf k) ((t.l3Of (dieOf k)).map fun x =>
        if x == e then { e with count := if e.count + 1 = (t.ctx c).migthresh.toNat then 0 else (e.count + 1) % 65536 } else x))
      obtain ⟨u, hu, hr⟩ := hlast t1 (e.count + 1 = (t.ctx c).migthresh.toNat) { t.chime with coming := t.chime.coming ++ [(dieOf k, tag, BitVec.ofNat 64 (va / 65536 * 65536))] }
      refine ⟨u, Ends.now ?_, ReadsHome.trans (u := t1) rfl hr⟩
      dsimp only
      rw [hf]
      dsimp only
      rw [hq]
      exact Ends.bind (Ends.upd _) hu
    · exact ⟨t, Ends.now (by dsimp only; rw [hf]; dsimp only; rw [hq]; exact Ends.pure ()), rfl⟩

/-- A train whose `mon` has issued: its registers and its watch. -/
structure Armed (r : Iss) (d : Dst) (n : Nat) (f : Nat → Word) (w : Watch) (x : Train) : Prop where
  v : x.v = r.left.v
  p : x.p = r.t.p
  park : x.park = none
  sca : ScalarIs r d n f x
  watch : x.watch = some w

theorem Armed.norm {d : Dst} {f : Nat → Word} {w : Watch} {x : Train} (h : Armed r d n f w x) (hok : r.t.Ok) : Armed r d n f w x.norm := by
  refine ⟨h.v, ?_, h.park, h.sca, h.watch⟩
  rw [Train.norm_of_ok hok |>.symm, Train.norm, Train.norm, h.p]

theorem Armed.complete {d : Dst} {f : Nat → Word} {w : Watch} {x : Train} (h : Armed r d n f w x) (op : Nat) :
    Armed r d n f w (x.complete op) := by
  rw [complete_rest]
  exact ⟨h.v, h.p, h.park, h.sca, h.watch⟩

/-- The watch of a train, its waits and its predicates are its own business when it retires an instruction. -/
theorem retired_keeps (r : Iss) (z : Train) :
    (r.retired z).p = z.p ∧ (r.retired z).park = none ∧ (r.retired z).watch = z.watch ∧ SameFiles (r.retired z) (r.freesDone z) := by
  have hadv := advance_rest { r.freesDone z with park := none, wait := none, xl := [] } r.c none
  have hfree := freesDone_rest r z
  have hp : (r.freesDone z).p = z.p := by rw [hfree]
  have hw : (r.freesDone z).watch = z.watch := by rw [hfree]
  exact ⟨(congrArg Train.p hadv).trans hp, congrArg Train.park hadv, (congrArg Train.watch hadv).trans hw, advance_s .., advance_v ..⟩

theorem setDst_scalar_v (z : Train) {d : Dst} (hd : d.scalar = true) (m : Mask) (L0 : Nat) (f : Nat → Nat → Word) (n : Nat) :
    (z.setDst d m L0 f n).v = z.v := by
  induction n with
  | zero => rfl
  | succ n ih =>
    rw [Train.setDst, hd]
    cases d.nowb
    · exact ih
    · exact ih

/-- What `mon` makes of its train. -/
def Iss.monitored (r : Iss) (d : Dst) (n : Nat) (a : Acc) (w : Watch) (v : Nat) : Train :=
  (r.retired { lastPages r.t [a] 0 with watch := some w }).setDst d 0xFFFFFFFF 0 (fun _ j => dwPart (BitVec.ofNat 64 v) j) n

theorem monitored_armed {d : Dst} (hd : d.scalar = true) (a : Acc) (w : Watch) (v : Nat) :
    Armed r d n (fun j => (BitVec.ofNat 64 v).extractLsb' (32 * j) 32) w (r.monitored d n a w v) := by
  have hf : SameFiles (r.freesDone { lastPages r.t [a] 0 with watch := some w }) r.left :=
    SameFiles.freesDone (x := { lastPages r.t [a] 0 with watch := some w }) (y := r.t) ⟨rfl, rfl⟩ r
  obtain ⟨hp, hpark, hwatch, hs, hv⟩ := retired_keeps r { lastPages r.t [a] 0 with watch := some w }
  have hrest := Train.setDst_rest (r.retired { lastPages r.t [a] 0 with watch := some w }) d 0xFFFFFFFF 0
    (fun _ j => dwPart (BitVec.ofNat 64 v) j) n
  refine ⟨?_, ?_, ?_, fun k => ?_, ?_⟩
  · exact ((setDst_scalar_v _ hd ..).trans hv).trans hf.2
  · exact (congrArg Train.p hrest).trans hp
  · exact (congrArg Train.park hrest).trans hpark
  · refine (Train.sreg_setDst ..).trans ?_
    have hk : (r.retired { lastPages r.t [a] 0 with watch := some w }).sreg k = r.left.sreg k := by
      unfold Train.sreg
      rw [hs, hf.1]
    rw [hk]
    rfl
  · exact (congrArg Train.watch hrest).trans hwatch

theorem Ends.finishOp {id op : Nat} {x : Train} (h : AMap.get? t.trains id = some x) :
    ∃ u, Ends (Machine.finishOp id op : M s Unit) t () u ∧ (u = t ∨ u = t.upd (.train id (some (x.complete op)))) := by
  cases hp : partsLeft x (t.core (t.coreOf x)) op
  · exact ⟨_, Ends.now (by rw [h]; dsimp only; rw [hp]; exact Ends.upd _), .inr rfl⟩
  · exact ⟨t, Ends.now (by rw [h]; dsimp only; rw [hp]; exact Ends.pure ()), .inl rfl⟩

/-! ## `mon` -/

section
variable {g : Guard} {sb : Sb} {w : AW} {acq : Bool} {m : MemB} {d : Dst} {L : Nat}
  (hb : begin_ s (.mon g sb w acq m d) = .ok r) (ha : AcqDone s r) (hok : r.t.Ok) (hx : r.t.inTx = false) (hh : Holds r)
  (hl : IsLowest r.one L) (hp : Passes s r w.bytes kRead false (addrOfB r w.bytes m) E L)
include hb ha hok hx hh hl hp

theorem mon_arms (hfifo : ∀ y ∈ r.t.fifo ++ (s.core (s.coreOf r.t)).writes, ∀ j, j < w.bytes →
      y.touches ((E L).paOf (addrOfB r w.bytes m L).toNat + j) = false)
    (hloads : ∀ l ∈ r.t.loads, ∀ b ∈ l.acc, ¬(b.pa < (E L).paOf (addrOfB r w.bytes m L).toNat + w.bytes ∧
      (E L).paOf (addrOfB r w.bytes m L).toNat < b.pa + l.n)) : ∃ t x, exec (.mon g sb w acq m d) s = .next t ∧
      t = { s with trains := t.trains, cores := t.cores, owners := t.owners, l3 := t.l3, chime := t.chime } ∧ OnlyTrain s t r.id ∧
      AMap.get? t.trains r.id = some x ∧
      Armed r d w.regs (fun j => (BitVec.ofNat 64 (Bytes.read s.mem ((E L).paOf (addrOfB r w.bytes m L).toNat) w.bytes)).extractLsb' (32 * j) 32)
        ⟨(E L).paOf (addrOfB r w.bytes m L).toNat / 128, (s.line ((E L).paOf (addrOfB r w.bytes m L).toNat)).wts,
          addrOfB r w.bytes m L, false, false⟩ x ∧
      (acq = true → (s.line ((E L).paOf (addrOfB r w.bytes m L).toNat)).wts ≤ (t.core (s.coreOf r.t)).clock) := by
  have hd : d.scalar = true := by
    have hw : (m.once && d.sca w.regs) = true := begin_wf hb
    rw [Dst.sca, Bool.and_eq_true, Bool.and_eq_true] at hw
    exact hw.2.2
  have hlanes := lanesOf_one hl
  have hsettle := Ends.settle (s := s) (r := r) (n := w.bytes) (kind := kRead) (dev := false) (va := addrOfB r w.bytes m) (E := E)
    (lanes := r.one) fun K hK => by
      have hK' : K ∈ lanesOf r.one := mem_lanesOf.2 ⟨BitVec.lt_of_getLsbD hK, hK⟩
      rw [hlanes, List.mem_singleton] at hK'
      exact hK' ▸ hp
  have hgoods : goodsOf (addrOfB r w.bytes m) E r.one =
      [⟨L, addrOfB r w.bytes m L, (E L).paOf (addrOfB r w.bytes m L).toNat, E L⟩] := by
    rw [goodsOf, hlanes]
    rfl
  rw [hgoods] at hsettle
  generalize hpa : (E L).paOf (addrOfB r w.bytes m L).toNat = pa at *
  have haddr : memAddrB r w.bytes m = addrOfB r w.bytes m := funext fun K => memAddrB_eq r w.bytes m K
  have hover (y : Write) (hy : y ∈ r.t.fifo ++ (s.core (s.coreOf r.t)).writes) : y.overlaps pa w.bytes = false :=
    List.any_eq_false.2 fun j hj => by simp [hfifo y hy j (List.mem_range.1 hj)]
  have hneed : (!(r.t.fifo.any fun x => x.overlaps pa w.bytes) && !(s.core (s.coreOf r.t)).pending pa w.bytes
      && !(r.t.loads.any fun l => l.acc.any fun b => b.pa < pa + w.bytes && pa < b.pa + l.n)) = true := by
    have hf : (r.t.fifo.any fun x => x.overlaps pa w.bytes) = false :=
      List.any_eq_false.2 fun y hy => by simp [hover y (List.mem_append_left _ hy)]
    have hc : (s.core (s.coreOf r.t)).pending pa w.bytes = false :=
      List.any_eq_false.2 fun y hy => by simp [hover y (List.mem_append_right _ hy)]
    have hld : (r.t.loads.any fun l => l.acc.any fun b => b.pa < pa + w.bytes && pa < b.pa + l.n) = false :=
      List.any_eq_false.2 fun l hl => by
        rw [Bool.not_eq_true]
        exact List.any_eq_false.2 fun b hb => by simpa using hloads l hl b hb
    rw [hf, hc, hld]
    rfl
  obtain ⟨t1, h1, hr1⟩ : ∃ u, Ends (if s.ownerOf pa = some (s.coreOf r.t) then Pure.pure ()
      else Machine.chimeCount (s.coreOf r.t) (s.tagOf (s.ctxOf r.t)) (s.ctxOf r.t) (addrOfB r w.bytes m L).toNat : M s Unit) s () u ∧ ReadsHome s u := by
    by_cases ho : s.ownerOf pa = some (s.coreOf r.t)
    · exact ⟨s, by rw [if_pos ho]; exact Ends.pure (), rfl⟩
    · rw [if_neg ho]
      exact Ends.chimeCount ..
  obtain ⟨t2, h2, hr2⟩ := Ends.homeRead_some (s := s) (t := t1) (s.coreOf r.t) pa w.bytes
  have hr := hr1.trans hr2
  have hmem : t1.mem = s.mem := by rw [hr1]
  rw [hmem] at h2
  have htrains : t2.trains = s.trains := by rw [hr]
  have hwts : (t2.line pa).wts = (s.line pa).wts := by rw [hr]; rfl
  let c' : Core := { t2.core (s.coreOf r.t) with
    l1 := AMap.erase (t2.core (s.coreOf r.t)).l1 (pa / 1024)
    clock := if acq then max (t2.core (s.coreOf r.t)).clock (s.line pa).wts else (t2.core (s.coreOf r.t)).clock }
  let a : Acc := ⟨L, addrOfB r w.bytes m L, pa, E L⟩
  let y := r.monitored d w.regs a ⟨pa / 128, (s.line pa).wts, addrOfB r w.bytes m L, false, false⟩ (Bytes.read s.mem pa w.bytes)
  let t4 := (t2.upd (.core (s.coreOf r.t) c')).upd (.train r.id (some y))
  have hy : Armed r d w.regs _ _ y.norm := (monitored_armed hd a _ _).norm hok
  obtain ⟨t5, h5, hr5⟩ : ∃ u, Ends (if r.op = 0 then Pure.pure () else Machine.finishOp r.id r.op : M s Unit) t4 () u ∧
      (u = t4 ∨ u = t4.upd (.train r.id (some (y.norm.complete r.op)))) := by
    by_cases ho : r.op = 0
    · exact ⟨t4, by rw [if_pos ho]; exact Ends.pure (), .inl rfl⟩
    · rw [if_neg ho]
      exact Ends.finishOp (get?_upd_train ..)
  have hgo : exec (.mon g sb w acq m d) s = .next t5 := by
    refine (exec_mon s).trans (Ends.runM (Ends.bind (Ends.beginMem hb ha) ?_))
    rw [hx, show r.acts = true from holds_iff.2 hh, haddr]
    refine Ends.bind hsettle (Ends.now (Ends.bind (Ends.need hneed) (Ends.join h1 (Ends.bind h2 (Ends.now
      (Ends.bind (Ends.upd _) (Ends.bind (Ends.modTrain (x := r.t) ?_) ?_)))))))
    · rw [State.upd_trains]
      exact htrains ▸ begin_train hb
    · rw [hwts]
      exact h5
  have hcore : acq = true → (s.line pa).wts ≤ (t4.core (s.coreOf r.t)).clock := by
    intro hq
    have hk : t4.core (s.coreOf r.t) = c' := (core_upd_core ..).trans (if_pos rfl)
    rw [hk]
    simp only [c', hq, if_true]
    exact Nat.le_max_right _ _
  have hframe : t4 = { s with trains := t4.trains, cores := t4.cores, owners := t4.owners, l3 := t4.l3, chime := t4.chime } := by
    simp only [t4, State.upd]
    rw [hr]
  have honly : OnlyTrain s t4 r.id := fun k hk =>
    (onlyTrain_upd _ r.id y k hk).trans (by rw [State.upd_trains]; exact congrArg (AMap.get? · k) htrains)
  obtain rfl | rfl := hr5
  · exact ⟨t4, y.norm, hgo, hframe, honly, get?_upd_train .., hy, hcore⟩
  · refine ⟨_, _, hgo, ?_, honly.trans (onlyTrain_upd _ _ _), get?_upd_train .., (hy.complete r.op).norm hok, hcore⟩
    rw [hframe]
    rfl
end

/-! ## `mwait` -/

/-- Retiring an instruction leaves the watch as it finds it. -/
theorem retired_withWatch (r : Iss) (z : Train) (o : Option Watch) :
    r.retired { z with watch := o } = { r.retired z with watch := o } := by
  have hf : SameFiles (r.freesDone { z with watch := o }) (r.freesDone z) := 
    SameFiles.freesDone (x := { z with watch := o }) (y := z) ⟨rfl, rfl⟩ r
  have hz : r.freesDone { z with watch := o } = { r.freesDone z with watch := o } := by
    rw [freesDone_rest r { z with watch := o }, freesDone_rest r z, hf.1, hf.2]
  unfold Iss.retired
  rw [hz]
  unfold Train.advance Train.endClause
  split <;> rfl

section
variable {g : Guard} {sb : Sb} (hb : begin_ s (.mwait g sb) = .ok r) (ha : AcqDone s r) (hx : r.t.inTx = false)
include hb ha hx

theorem mwait_unarmed (h : ¬Holds r ∨ r.t.watch = none) : ∃ x, exec (.mwait g sb) s = .next (s.upd (.train r.id (some x))) ∧ Finished r x := by
  refine finishes_of (exec_mwait s) (Ends.bind (Ends.beginMem hb ha) ?_)
  rw [hx]
  cases hc : r.acts
  · exact Ends.finishNow (begin_train hb)
  · rw [h.resolve_left (not_not.2 (holds_iff.1 hc))]
    exact Ends.finishNow (begin_train hb)

variable {w : Watch} (hh : Holds r) (hw : r.t.watch = some w)
include hh hw

theorem mwait_returns (h : w.hit = true ∨ w.lost = true) : ∃ x, exec (.mwait g sb) s = .next (s.upd (.train r.id (some x))) ∧
    x.watch = none ∧ Finished r { x with watch := r.t.watch } := by
  refine ⟨r.retired { r.t with watch := none }, ?_, (retired_keeps r _).2.2.1, ?_⟩
  · refine (exec_mwait s).trans (Ends.runM (Ends.bind (Ends.beginMem hb ha) ?_))
    rw [hx, show r.acts = true from holds_iff.2 hh, hw]
    dsimp only
    rw [(Bool.or_eq_true w.hit w.lost).mpr h]
    exact Ends.modTrain (begin_train hb)
  · rw [retired_withWatch]
    have hsame : ({ r.retired r.t with watch := r.t.watch } : Train) = r.retired r.t := (retired_withWatch r r.t r.t.watch).symm
    exact hsame ▸ retired_finished r

variable (hhit : w.hit = false) (hlost : w.lost = false)
include hhit hlost

theorem mwait_sleeps (hn : r.t.wait = none) :
    exec (.mwait g sb) s = .next (s.upd (.train r.id (some { r.t with wait := some ⟨.monitor, false, 0⟩ }))) := by
  refine (exec_mwait s).trans (Ends.runM (Ends.bind (Ends.beginMem hb ha) ?_))
  rw [hx, show r.acts = true from holds_iff.2 hh, hw]
  dsimp only
  rw [hhit, hlost, hn]
  exact Ends.modTrain (begin_train hb)

theorem mwait_stays (hn : r.t.wait ≠ none) : exec (.mwait g sb) s = .next (waited s r) := by
  refine waits_of (exec_mwait s) hb (Stops.bind (Ends.beginMem hb ha) ?_)
  rw [hx, show r.acts = true from holds_iff.2 hh, hw]
  dsimp only
  rw [hhit, hlost, if_neg (by simp), if_pos (Option.isSome_iff_ne_none.2 hn)]
  exact Stops.stop _
end

/-! ## A watch that is hit or lost -/

/-- The wait of a train has ended, and its watch is `o`. -/
def wokenWith (s : State) (id : Nat) (x : Train) (w : Wait) (o : Option Watch) : State :=
  restarted (s.upd (.train id (some { x with watch := o, wait := some { w with woken := true } }))) (s.ctxOf x)

section
variable {id : Nat} {x : Train} {w : Wait} (hx : AMap.get? s.trains id = some x) (hk : KeysRise s.trains) (hw : x.wait = some w)
include hx hk hw

/-- A train's own wait ends if it has not ended yet. -/
theorem Ends.wakes (hwo : w.woken = false) :
    Ends (Machine.wakeTrains fun k _ => k == id : M s Unit) s () (wokenWith s id x w x.watch) := by
  have h := Ends.wakeTrains_self (s := s) hk hx (f := fun k _ => k == id) fun k _ hk => beq_iff_eq.1 hk
  rw [if_pos (by simp [Train.waiting, hw, hwo])] at h
  have hwk : x.woke = { x with watch := x.watch, wait := some { w with woken := true } } := by
    unfold Train.woke
    rw [hw]
    rfl
  rw [hwk] at h
  exact h

theorem Ends.wakes_not (hwo : w.woken = true) : Ends (Machine.wakeTrains fun k _ => k == id : M s Unit) s () s := by
  have h := Ends.wakeTrains_self (s := s) hk hx (f := fun k _ => k == id) fun k _ hk => beq_iff_eq.1 hk
  rwa [if_neg (by simp [Train.waiting, hw, hwo])] at h

theorem monitorWake_watch {o : Watch} (hon : w.on = .monitor) (ho : x.watch = some o) :
    (w.woken = false → o.hit = true ∨ o.lost = true → exec (.monitorWake id) s = .next (wokenWith s id x w x.watch)) ∧
    (w.woken = true ∨ (o.hit = false ∧ o.lost = false) → exec (.monitorWake id) s = .next s) := by
  have hgo {u : State} (hu : Ends (if o.hit || o.lost then Machine.wakeTrains fun k _ => k == id else Pure.pure () : M s Unit) s () u) :
      exec (.monitorWake id) s = .next u := by
    refine (exec_monitorWake s).trans (Ends.runE (Ends.now ?_))
    rw [hx]
    dsimp only
    rw [hw]
    dsimp only
    rw [hon, ho]
    exact hu
  refine ⟨fun hwo h => hgo ?_, fun h => hgo ?_⟩
  · rw [if_pos (Bool.or_eq_true _ _ ▸ h)]
    exact Ends.wakes hx hk hw hwo
  · cases hq : (o.hit || o.lost)
    · exact Ends.pure ()
    · refine Ends.wakes_not hx hk hw (h.resolve_right fun hn => ?_)
      rw [hn.1, hn.2] at hq
      cases hq

theorem monitorWake_token {va : DWord} {pa : Nat} {v : DWord} (hon : w.on = .token va pa v) :
    (w.woken = false → v.toNat ≤ leVal (fun j => Bytes.get s.mem (pa + j)) 8 →
      exec (.monitorWake id) s = .next (wokenWith s id x w x.watch)) ∧
    (w.woken = true ∨ ¬v.toNat ≤ leVal (fun j => Bytes.get s.mem (pa + j)) 8 → exec (.monitorWake id) s = .next s) := by
  rw [leVal_get]
  have hgo {u : State} (hu : Ends (if v.toNat ≤ Bytes.read s.mem pa 8 then Machine.wakeTrains fun k _ => k == id else Pure.pure ()
      : M s Unit) s () u) : exec (.monitorWake id) s = .next u := by
    refine (exec_monitorWake s).trans (Ends.runE (Ends.now ?_))
    rw [hx]
    dsimp only
    rw [hw]
    dsimp only
    rw [hon]
    exact hu
  refine ⟨fun hwo h => hgo ?_, fun h => hgo ?_⟩
  · rw [if_pos h]
    exact Ends.wakes hx hk hw hwo
  · by_cases hq : v.toNat ≤ Bytes.read s.mem pa 8
    · rw [if_pos hq]
      exact Ends.wakes_not hx hk hw (h.resolve_right (not_not.2 hq))
    · rw [if_neg hq]
      exact Ends.pure ()
end

/-- WATCH_LOST drops the watch, and ends the train's wait where it waits for it. -/
theorem watchLost_ends {id : Nat} {x : Train} {o : Watch} (hx : AMap.get? s.trains id = some x) (hk : KeysRise s.trains)
    (ho : x.watch = some o) : exec (.watchLost id) s = .next (
      if (x.waiting && x.monitoring) = true then
        restarted ((s.upd (.train id (some { x with watch := some { o with lost := true } }))).upd
          (.train id (some ({ x with watch := some { o with lost := true } } : Train).norm.woke)))
          ((s.upd (.train id (some { x with watch := some { o with lost := true } }))).ctxOf ({ x with watch := some { o with lost := true } } : Train).norm)
      else s.upd (.train id (some { x with watch := some { o with lost := true } }))) := by
  refine (exec_watchLost s).trans (Ends.runE (Ends.now ?_))
  rw [hx]
  dsimp only
  rw [ho]
  refine Ends.bind (Ends.upd _) ?_
  have hk' : KeysRise (s.upd (.train id (some { x with watch := some { o with lost := true } }))).trains := by
    rw [State.upd_trains]
    exact hk.putOpt ..
  have h := Ends.wakeTrains_self (s := s) hk' (get?_upd_train ..) (f := fun k y => k == id && y.monitoring) fun k y hk =>
    beq_iff_eq.1 (Bool.and_eq_true _ _ |>.mp hk).1
  rw [beq_self_eq_true, Bool.true_and] at h
  exact h


/-- A train is stored within what every train keeps. -/
theorem upd_train_norm (s : State) (id : Nat) (y : Train) : s.upd (.train id (some y.norm)) = s.upd (.train id (some y)) := by
  have hn : y.norm.norm = y.norm := Train.norm_of_ok (Train.norm_ok y)
  simp only [State.upd, Option.map_some, hn]

theorem watchLost_wakes {id : Nat} {x : Train} {o : Watch} {w : Wait} (hx : AMap.get? s.trains id = some x) (hk : KeysRise s.trains)
    (ho : x.watch = some o) (hw : x.wait = some w) (hon : w.on = .monitor) (hwo : w.woken = false) :
    exec (.watchLost id) s = .next (wokenWith s id x w (some { o with lost := true })) := by
  rw [watchLost_ends hx hk ho, if_pos (by simp [Train.waiting, Train.monitoring, hw, hon, hwo])]
  have hwk : ({ x with watch := some { o with lost := true } } : Train).norm.woke =
      ({ x with watch := some { o with lost := true }, wait := some { w with woken := true } } : Train).norm := by
    simp only [Train.woke, Train.norm, hw, Option.map_some]
  have hc : (s.upd (.train id (some { x with watch := some { o with lost := true } }))).ctxOf
      ({ x with watch := some { o with lost := true } } : Train).norm = s.ctxOf x :=
    ctxOf_congr (z := x) (z' := ({ x with watch := some { o with lost := true } } : Train).norm) rfl
      (fun k => by rw [State.upd_wheels]) (by rw [State.upd_dispatches])
  rw [hc, hwk, State.upd_train_train, upd_train_norm]
  rfl

theorem watchLost_drops {id : Nat} {x : Train} {o : Watch} (hx : AMap.get? s.trains id = some x) (hk : KeysRise s.trains)
    (ho : x.watch = some o) (h : ∀ w, x.wait = some w → w.on ≠ .monitor ∨ w.woken = true) :
    exec (.watchLost id) s = .next (s.upd (.train id (some { x with watch := some { o with lost := true } }))) := by
  rw [watchLost_ends hx hk ho, if_neg]
  intro hq
  obtain ⟨hwt, hm⟩ := (Bool.and_eq_true _ _).mp hq
  unfold Train.waiting at hwt
  unfold Train.monitoring at hm
  split at hwt
  · rename_i w hw
    rw [hw] at hm
    obtain hn | hn := h w hw
    · exact hn (beq_iff_eq.1 hm)
    · simp [hn] at hwt
  · cases hwt

end

/-- Settles O29: `mon` reads and arms; `mwait`, MONITOR_WAKE and WATCH_LOST by what the watch and the wait hold. -/
theorem monitors : Obligations.Monitors := by
  refine ⟨?_, fun s g sb r hb ha hx => ?_, ?_⟩
  · intro s g sb w acq m d r E L hb ha hok hx hh hl hp pa hfifo hloads
    obtain ⟨t, x, hgo, hframe, honly, hget, harm, hclock⟩ := mon_arms hb ha hok hx hh hl hp hfifo hloads
    exact ⟨t, x, hgo, hframe, honly, hget, harm.v, harm.p, harm.park, harm.sca, harm.watch, hclock⟩
  · exact ⟨mwait_unarmed hb ha hx, fun w hh hw => ⟨mwait_returns hb ha hx hh hw, fun hhit hlost => mwait_sleeps hb ha hx hh hw hhit hlost,
      fun hhit hlost => mwait_stays hb ha hx hh hw hhit hlost⟩⟩
  · intro s id x hx hk woken
    refine ⟨fun w o hw hon ho => monitorWake_watch hx hk hw hon ho, fun w va pa v hw hon => monitorWake_token hx hk hw hon, fun o ho =>
      ⟨fun w hw hon hwo => watchLost_wakes hx hk ho hw hon hwo, watchLost_drops hx hk ho⟩⟩

end Sys2Proof.Machine
end

section
/-! SUPPORT. Pre-emption: what the stop of a train does to it and to its context, and the contexts that a resumption names (R78, R79, R241). -/

namespace Sys2Proof.Machine

section
variable {s t u : State} {id : Nat} {x : Train}

/-! ## The masks of a resumption -/

theorem getLsbD_stoppedMask {c : Nat} (hc : c < 16) : (BitVec.ofNat 16 s.stoppedMask).getLsbD c = (s.ctx c).stopped := by
  have hsum : s.stoppedMask = (List.range 16).foldl (fun a c => if (s.ctx c).stopped then a + 2 ^ c else a) 0 := by
    have hstep : (fun a c => a + flag (s.ctx c).stopped c) = fun a c => if (s.ctx c).stopped then a + 2 ^ c else a := by
      funext a c
      unfold flag
      split <;> rfl
    exact congrArg (fun f => (List.range 16).foldl f 0) hstep
  rw [BitVec.getLsbD_ofNat, hsum, (testBit_maskSum (fun c => (s.ctx c).stopped) 16).2]
  simp [hc]

/-- The contexts that CONTEXT_RESUME lets go on. -/
theorem resumes_iff (mask : BitVec 16) (c : Nat) :
    ((mask &&& BitVec.ofNat 16 s.stoppedMask).getLsbD c = true ∧ (s.ctx c).MayGoOn) ↔
      mask.getLsbD c = true ∧ (s.ctx c).stopped = true ∧ (s.ctx c).saved = false := by
  rw [BitVec.getLsbD_and, Bool.and_eq_true]
  constructor
  · rintro ⟨⟨hm, hs⟩, hsaved, -⟩
    exact ⟨hm, by rwa [getLsbD_stoppedMask (BitVec.lt_of_getLsbD hm)] at hs, hsaved⟩
  · rintro ⟨hm, hs, hsaved⟩
    exact ⟨⟨hm, by rwa [getLsbD_stoppedMask (BitVec.lt_of_getLsbD hm)]⟩, hsaved, .inl hs⟩

/-! ## Where a stop takes a train -/

theorem walking_iff : walking s id = true ↔ ∃ w ∈ s.walks, ∃ u ∈ w.2.waiters, u.train = id ∧ u.stays = true := by
  simp only [walking, List.any_eq_true, Bool.and_eq_true, beq_iff_eq]

theorem waiting_iff_waits : x.waiting = true ↔ ∃ w, Waits x w := by
  unfold Train.waiting Waits
  cases x.wait <;> simp

theorem stopPoint_iff : stopPoint s id x = true ↔ StopPoint s id x := by
  unfold stopPoint StopPoint
  simp only [Bool.or_eq_true, Option.isNone_iff_eq_none, Option.isSome_iff_ne_none, waiting_iff_waits, walking_iff, or_assoc]

theorem quiet_iff : quiet x (s.core (s.coreOf x)) id = true ↔
    x.fifo = [] ∧ x.loads = [] ∧ ∀ w ∈ (s.core (s.coreOf x)).writes, w.train ≠ id := by
  simp only [quiet, Bool.and_eq_true, List.isEmpty_iff, and_assoc, Core.writesOf, List.filter_eq_nil_iff, beq_iff_eq]

theorem preemptStop_stays (hx : AMap.get? s.trains id = some x) (h : mayStop s id x = false) : exec (.preemptStop id) s = .next s := by
  refine (exec_preemptStop s).trans (Ends.runE (Ends.now ?_))
  rw [hx]
  dsimp only
  rw [h]
  exact Ends.pure ()

/-- No stop of the train is asked for, it has stopped or ends, or it does not stand where a stop takes it. -/
theorem mayStop_false (h : (s.ctx (s.ctxOf x)).preempt = false ∨ x.stopped = true ∨ x.ending = true ∨ x.fifo ≠ [] ∨ x.loads ≠ [] ∨
    ¬StopPoint s id x) : mayStop s id x = false := by
  rw [← Bool.not_eq_true]
  simp only [mayStop, Bool.and_eq_true, Bool.not_eq_true', quiet_iff, stopPoint_iff, and_assoc]
  rintro ⟨hp, hs, he, -, hf, hl, -, hst⟩
  obtain h | h | h | h | h | h := h
  · rw [h] at hp; cases hp
  · rw [h] at hs; cases hs
  · rw [h] at he; cases he
  · exact h hf
  · exact h hl
  · exact h hst

/-! ## The train and its context at the stop -/

/-- The train that the stop leaves: its open lanes aborted, its park record kept. -/
def Train.preempted (x : Train) : Train := (x.abortLanes 0xFFFFFFFF .preempt).atStop x.park

theorem allOnes_and (m : Mask) : (0xFFFFFFFF : Mask) &&& m = m := by
  rw [show (0xFFFFFFFF : Mask) = BitVec.allOnes 32 from rfl, BitVec.allOnes_and]

theorem abortLanes_all (x : Train) : (x.abortLanes 0xFFFFFFFF .preempt).em = x.em &&& ~~~x.tx.opened ∧
    (x.abortLanes 0xFFFFFFFF .preempt).tx.opened = 0 := by
  refine ⟨?_, ?_⟩
  · show x.em &&& ~~~(0xFFFFFFFF &&& x.tx.opened) = _
    rw [allOnes_and]
  · show x.tx.opened &&& ~~~(0xFFFFFFFF &&& x.tx.opened) = _
    rw [allOnes_and, BitVec.and_not_self]

theorem Train.Ok.abortLanes_all (h : x.Ok) : (x.abortLanes 0xFFFFFFFF .preempt).Ok := by
  obtain ⟨he, ho⟩ := Machine.abortLanes_all x
  refine ⟨?_, h.p7, h.pc, fun hx => ?_⟩
  · rw [he, BitVec.and_assoc, BitVec.and_comm (~~~x.tx.opened), ← BitVec.and_assoc]
    show (x.em &&& ~~~x.live) &&& _ = _
    rw [h.live]
    exact BitVec.zero_and
  · rw [he, h.opened hx]
    exact BitVec.zero_and

theorem Train.Ok.preempted (h : x.Ok) : x.preempted.Ok :=
  ⟨h.abortLanes_all.live, h.p7, h.pc, h.abortLanes_all.opened⟩

theorem preempted_wait (x : Train) : x.preempted.wait = x.wait.map fun w => match w.on with
    | .monitor | .token _ _ _ => { w with woken := true }
    | _ => w := by
  show (x.wait.map fun w => if w.on.afresh then { w with woken := true } else w) = _
  congr
  funext w
  obtain ⟨on, wo, age⟩ := w
  cases on <;> rfl

theorem preempted_cause (x : Train) {L : Nat} (hL : L < 32) :
    x.preempted.tx.cause.at L = if x.tx.opened.getLsbD L then 5 else x.tx.cause.at L := by
  refine (perLane_at_lt _ hL).trans ?_
  rw [allOnes_and]
  rfl

theorem preempted_ray {q : RayQuery} (hq : x.ray = some q) (ho : q.opened = true) : ∃ q', x.preempted.ray = some q' ∧ q'.held = false ∧
    ∀ L, L < 32 → q'.lanes.at L = match q.lanes.at L with
      | .done h k => .done h k
      | .outside => .outside
      | _ => .busy := by
  refine ⟨q.abandoned, ?_, rfl, fun L hL => ?_⟩
  · show (x.ray.map fun q => if q.opened then q.abandoned else q) = _
    rw [hq, Option.map_some, if_pos ho]
  · refine (perLane_at_lt _ hL).trans ?_
    cases q.lanes.at L <;> rfl

/-! ## A stop keeps the park record of a train that waits for no walk -/

theorem missingLanes_zero (h : ∀ w ∈ s.walks, ∀ u ∈ w.2.waiters, u.train ≠ id) : missingLanes s id = 0 := by
  unfold missingLanes
  have hmem : ∀ w ∈ s.walks.flatMap fun kv => kv.2.waiters, w.train ≠ id := by
    intro w hw
    obtain ⟨kv, hkv, hw⟩ := List.mem_flatMap.1 hw
    exact h kv hkv w hw
  generalize s.walks.flatMap (fun kv => kv.2.waiters) = l at hmem
  induction l with
  | nil => rfl
  | cons w l ih =>
    rw [List.forall_mem_cons] at hmem
    rw [List.foldl_cons, show (w.train == id) = false from beq_false_of_ne hmem.1]
    exact ih hmem.2

theorem stopPark_keeps (h : ∀ w ∈ s.walks, ∀ u ∈ w.2.waiters, u.train ≠ id) (hxl : x.xl = []) : stopPark s id x = x.park := by
  unfold stopPark
  rw [missingLanes_zero h, hxl]
  rfl

/-- Walks apart, dropping the waits of a train changes nothing. -/
theorem upds_walk_list {α : Type} (f : α → Nat) (g : α → Option Walk) (l : List α) :
    ∃ w, t.upds (l.map fun a => .walk (f a) (g a)) = { t with walks := w } := by
  induction l generalizing t with
  | nil => exact ⟨t.walks, rfl⟩
  | cons a l ih =>
    obtain ⟨w, hw⟩ := ih (t := t.upd (.walk (f a) (g a)))
    exact ⟨w, hw⟩

/-! ## The stop -/

/-- The context without the train's claim on the serial token (R238, R241). -/
structure TokenLeft (s t : State) (id c : Nat) : Prop where
  stopped : (t.ctx c).stopped = (s.ctx c).stopped
  preempt : (t.ctx c).preempt = (s.ctx c).preempt
  token : ∀ h, (t.ctx c).token = some h → h.1 ≠ id

theorem Ends.releaseToken (hx : AMap.get? t.trains id = some x) (hc : t.ctxOf x < 16) :
    ∃ u, Ends (Machine.releaseToken id : M s Unit) t () u ∧ u = { t with ctxs := u.ctxs } ∧ TokenLeft t u id (t.ctxOf x) := by
  have hgo {u : State} (h : Ends (match (t.ctx (t.ctxOf x)).token with
      | some h => if h.1 = id then Machine.upd (.ctx (t.ctxOf x) { t.ctx (t.ctxOf x) with token := none }) else Pure.pure ()
      | none => Pure.pure () : M s Unit) t () u) : Ends (Machine.releaseToken id : M s Unit) t () u := by
    refine Ends.now ?_
    rw [hx]
    exact h
  cases ht : (t.ctx (t.ctxOf x)).token with
  | none => exact ⟨t, hgo (by rw [ht]; exact Ends.pure ()), rfl, rfl, rfl, fun h hh => by rw [ht] at hh; cases hh⟩
  | some h =>
    by_cases hi : h.1 = id
    · refine ⟨_, hgo (by rw [ht]; dsimp only; rw [if_pos hi]; exact Ends.upd _), State.upd_ctx_rest .., ?_, ?_, fun h hh => ?_⟩
      · rw [ctx_upd_ctx t hc]; rfl
      · rw [ctx_upd_ctx t hc]; rfl
      · rw [ctx_upd_ctx t hc] at hh; cases hh
    · exact ⟨t, hgo (by rw [ht]; dsimp only; rw [if_neg hi]; exact Ends.pure ()), rfl, rfl, rfl, fun h' hh => by
        rw [ht] at hh
        exact (Option.some.inj hh) ▸ hi⟩

/-- What the stop of a train leaves. -/
structure Preempted (s t : State) (id : Nat) (x : Train) : Prop where
  mem : t.mem = s.mem
  others : OnlyTrain s t id
  train : AMap.get? t.trains id = some x.preempted
  token : ∀ h, (t.ctx (s.ctxOf x)).token = some h → h.1 ≠ id
  queue : id ∉ (t.ctx (s.ctxOf x)).tokenQueue
  last : (∀ j z, AMap.get? s.trains j = some z → s.ctxOf z = s.ctxOf x → j ≠ id → z.stopped = true ∨ z.ending = true) →
    (t.ctx (s.ctxOf x)).stopped = true ∧ (t.ctx (s.ctxOf x)).preempt = false
  more : (∃ j z, AMap.get? s.trains j = some z ∧ s.ctxOf z = s.ctxOf x ∧ j ≠ id ∧ z.stopped = false ∧ z.ending = false) →
    (t.ctx (s.ctxOf x)).stopped = (s.ctx (s.ctxOf x)).stopped ∧ (t.ctx (s.ctxOf x)).preempt = true

theorem stopTrain_stops (hx : AMap.get? s.trains id = some x) (hc : s.ctxOf x < 16) (hk : KeysRise s.trains) (hok : x.Ok)
    (hp : (s.ctx (s.ctxOf x)).preempt = true) (he : x.tx.ending = none)
    (hw : ∀ w ∈ s.walks, ∀ u ∈ w.2.waiters, u.train ≠ id) (hxl : x.xl = []) :
    ∃ t, Ends (Machine.stopTrain id x : M s Unit) s () t ∧ Preempted s t id x := by
  obtain ⟨w, hwalks⟩ := upds_walk_list (t := s) (fun kv => kv.1) (fun kv : Nat × Walk =>
    let l := kv.2.waiters.filter fun w => w.train != id
    if l.isEmpty then none else some { kv.2 with waiters := l }) s.walks
  let t1 : State := { s with walks := w }
  let t2 := (t1.upd (.locks (unlockLanes t1.locks id (0xFFFFFFFF &&& x.tx.opened)))).upd (.train id (some (x.abortLanes 0xFFFFFFFF .preempt)))
  have h2 : AMap.get? t2.trains id = some (x.abortLanes 0xFFFFFFFF .preempt) := by
    rw [get?_upd_train, Train.norm_of_ok hok.abortLanes_all]
  have hctx (v : State) (z : Train) (hwh : v.wheels = s.wheels) (hd : v.dispatches = s.dispatches) : v.ctxOf z = s.ctxOf z :=
    ctxOf_congr rfl (fun k => by rw [hwh]) hd
  have hc2 : t2.ctxOf (x.abortLanes 0xFFFFFFFF .preempt) = s.ctxOf x := hctx t2 (x.abortLanes 0xFFFFFFFF .preempt) rfl rfl
  obtain ⟨t3, h3, hf3, htok⟩ := Ends.releaseToken (s := s) h2 (hc2 ▸ hc)
  rw [hc2] at htok
  have hc3 : t3.ctxOf x = s.ctxOf x := hctx t3 x (by rw [hf3]; rfl) (by rw [hf3]; rfl)
  let t4 := t3.upd (.ctx (s.ctxOf x) { t3.ctx (s.ctxOf x) with tokenQueue := (t3.ctx (s.ctxOf x)).tokenQueue.filter (· != id) })
  have hf4 : t4 = { s with walks := t4.walks, locks := t4.locks, trains := t2.trains, ctxs := t4.ctxs } := by
    simp only [t4]
    rw [State.upd_ctx_rest, hf3]
    rfl
  let t5 := t4.upd (.train id (some x.preempted))
  have hget4 : AMap.get? t4.trains id = some (x.abortLanes 0xFFFFFFFF .preempt) := by rw [hf4]; exact h2
  have hrun : Ends (Machine.stopTrain id x : M s Unit) s () (settled t5 (s.ctxOf x)) := by
    unfold Machine.stopTrain
    refine Ends.now ?_
    dsimp only
    rw [stopPark_keeps hw hxl, he]
    have habort : Ends (abortTx id 0xFFFFFFFF .preempt : M s Unit) t1 () t2 := by
      refine Ends.now ?_
      rw [show AMap.get? t1.trains id = some x from hx]
      exact Ends.bind (Ends.upd _) (Ends.upd _)
    refine Ends.bind (hwalks ▸ Ends.updAll _) (Ends.bind habort (Ends.bind h3 (Ends.now ?_)))
    rw [hc3]
    exact Ends.bind (Ends.upd _) (Ends.bind (Ends.modTrain hget4) (Ends.settleStop _))
  have hctx5 : t5.ctx (s.ctxOf x) = ({ t3.ctx (s.ctxOf x) with
      tokenQueue := (t3.ctx (s.ctxOf x)).tokenQueue.filter (· != id) } : Context).norm := ctx_upd_ctx t3 hc _
  have hp5 : (t5.ctx (s.ctxOf x)).preempt = true := by
    rw [hctx5]
    exact htok.preempt.trans hp
  have hget5 (j : Nat) (hj : j ≠ id) : AMap.get? t5.trains j = AMap.get? s.trains j :=
    (onlyTrain_upd t4 id x.preempted j hj).trans (by rw [hf4]; exact onlyTrain_upd s id _ j hj)
  have hself : AMap.get? t5.trains id = some x.preempted := by rw [get?_upd_train, Train.norm_of_ok hok.preempted]
  have hk5 : KeysRise t5.trains := by
    show KeysRise (AMap.set t4.trains id _)
    rw [hf4]
    exact (hk.set _ _).set _ _
  have hof5 (z : Train) : t5.ctxOf z = s.ctxOf z := hctx t5 z (by simp only [t5, State.upd_wheels]; rw [hf4]) (by
    simp only [t5, State.upd_dispatches]
    rw [hf4])
  have hall : AllStopped t5 (s.ctxOf x) ↔
      ∀ j z, AMap.get? s.trains j = some z → s.ctxOf z = s.ctxOf x → j ≠ id → z.stopped = true ∨ z.ending = true := by
    constructor
    · intro h j z hz hcz hj
      exact h j z (AMap.mem_of_get? ((hget5 j hj).trans hz)) ((hof5 z).trans hcz)
    · intro h j z hm hcz
      have hz := AMap.get?_of_mem hk5 hm
      by_cases hj : j = id
      · subst hj
        rw [hself] at hz
        exact .inl (Option.some.inj hz ▸ rfl)
      · exact h j z ((hget5 j hj).symm.trans hz) ((hof5 z).symm.trans hcz) hj
  obtain ⟨hs1, hs2⟩ := settled_ctx (t := t5) hc hp5
  have hrest := settled_rest t5 (s.ctxOf x)
  have htr : (settled t5 (s.ctxOf x)).trains = t5.trains := by rw [hrest]
  have hboth : (∀ h, ((settled t5 (s.ctxOf x)).ctx (s.ctxOf x)).token = some h → h.1 ≠ id) ∧
      id ∉ ((settled t5 (s.ctxOf x)).ctx (s.ctxOf x)).tokenQueue := by
    have htk : ∀ h, (t5.ctx (s.ctxOf x)).token = some h → h.1 ≠ id := by rw [hctx5]; exact htok.token
    have hqu : id ∉ (t5.ctx (s.ctxOf x)).tokenQueue := by
      rw [hctx5]
      simp [Context.norm]
    by_cases ha : AllStopped t5 (s.ctxOf x)
    · rw [hs1 ha]
      exact ⟨htk, hqu⟩
    · rw [hs2 ha]
      exact ⟨htk, hqu⟩
  refine ⟨_, hrun, ?_, fun j hj => ?_, ?_, hboth.1, hboth.2, fun h => ?_, fun ⟨j, z, hz, hcz, hj, hns, hne⟩ => ?_⟩
  · rw [hrest]
    show t4.mem = _
    rw [hf4]
  · rw [htr, hget5 j hj]
  · rw [htr, hself]
  · rw [hs1 (hall.2 h)]
    exact ⟨rfl, rfl⟩
  · rw [hs2 fun ha => by simpa [hns, hne] using hall.1 ha j z hz hcz hj, hctx5]
    exact ⟨htok.stopped, htok.preempt.trans hp⟩

end

/-- Settles O48: a request by the contexts it names, a stop by where its train stands, a resumption by the contexts that are stopped. -/
theorem preemption : Obligations.Preemption := by
  refine ⟨fun s mask => ?_, ?_, ?_⟩
  · have hupd : Ends (Machine.upd (.mg { s.mg with hold := s.mg.hold.map fun m => m &&& ~~~mask }) : M s Unit) s () _ := Ends.upd _
    obtain ⟨t, ht, hf, -, hoff, hon⟩ := Ends.requestAll (s := s) (t := s.upd (.mg { s.mg with hold := s.mg.hold.map fun m => m &&& ~~~mask })) mask
    have hgo : exec (.preemptRequest mask) s = .next t := (exec_preemptRequest s).trans (Ends.runE (Ends.now (Ends.bind hupd ht)))
    refine ⟨t, hgo, ?_, ?_, fun c hc => ⟨fun h => ?_, fun h => ?_⟩⟩
    · rw [hf]
      rfl
    · rw [hf]
      rfl
    · exact hon c hc h.1 h.2
    · exact hoff c hc (h.imp (fun hm => by rw [hm]; exact Bool.false_ne_true) id)
  · intro s id x hx hc hk hok c
    refine ⟨fun h => preemptStop_stays hx (mayStop_false h), fun hp hs he hd hf hl hw hte _ hwk hxl hst => ?_⟩
    obtain ⟨t, hrun, ht⟩ := stopTrain_stops hx hc hk hok hp hte hwk hxl
    have hmay : mayStop s id x = true := by
      have hdue : x.dueTrap = none := by
        unfold Train.dueTrap
        rw [hd]
        simp
      rw [mayStop, hp, hs, he, hdue, quiet_iff.2 ⟨hf, hl, hw⟩, stopPoint_iff.2 hst]
      rfl
    have hgo : exec (.preemptStop id) s = .next t := by
      refine (exec_preemptStop s).trans (Ends.runE (Ends.now ?_))
      rw [hx]
      dsimp only
      rw [hmay]
      exact hrun
    have hwatch : ∀ v, x.preempted.watch = some v → v.lost = true := by
      intro v hv
      obtain ⟨w, -, rfl⟩ := Option.map_eq_some_iff.1 hv
      rfl
    exact ⟨t, x.preempted, hgo, ht.mem, ht.others, ht.train, rfl, rfl, rfl, rfl, rfl, rfl, rfl, rfl, rfl, rfl, rfl, hwatch, rfl,
      preempted_wait x, fun q => preempted_ray, (abortLanes_all x).1, (abortLanes_all x).2, rfl, fun L => preempted_cause x,
      ht.token, ht.queue, ht.last, ht.more⟩
  · intro s mask hk _ asked
    refine ⟨fun hh => ?_, fun m hh => ?_⟩
    · obtain ⟨t, ht, hg⟩ := Ends.resumeAll (s := s) hh (mask &&& BitVec.ofNat 16 s.stoppedMask)
      exact ⟨t, (exec_contextResume s).trans (Ends.runE (Ends.now ht)), hg.frame, hg.resumed hk (resumes_iff mask)⟩
    · obtain ⟨t, ht, hf, -, m', hm', hb⟩ := Ends.resumeAll_held (s := s) hh (mask &&& BitVec.ofNat 16 s.stoppedMask)
      exact ⟨t, m', (exec_contextResume s).trans (Ends.runE (Ends.now ht)), hf, hm', fun c hc =>
        (hb c hc).trans (or_congr_right (resumes_iff mask c))⟩

end Sys2Proof.Machine
end

section
/-! SUPPORT. Events of time: deferred traps, soft errors, tenants and refresh windows (R75, R76, R204, R298, R302). -/

namespace Sys2Proof.Machine

section
variable {s t u : State} {id : Nat} {x : Train}

/-! ## A trap that enters its handler -/

/-- With a vector, outside trap mode and brackets, a trap only sets its train. -/
theorem trapUpds_enters (h : Enters s x) {at_ : TrapAt} {cause : Byte} (hc : cause ≠ 0x13) (lanes : Mask) (tval : DWord) :
    trapUpds s id x at_ cause lanes tval false = [.train id (some (entered x at_ cause lanes tval (vectorOf s x)))] := by
  obtain ⟨hv, htm, htx⟩ := h
  have hno : (decide (vectorOf s x = 0) || x.trap.tm || false) = false := by
    rw [decide_eq_false hv, htm]
    rfl
  have hent : x.trapped at_ cause lanes tval (vectorOf s x) = entered x at_ cause lanes tval (vectorOf s x) := by
    unfold Train.trapped
    rw [htx]
    rfl
  show (if (decide (vectorOf s x = 0) || x.trap.tm || false) = true then _ else (if x.inTx then _ else []) ++ [Upd.train id (some (x.trapped at_ cause lanes tval (vectorOf s x)))] ++ _) = _
  rw [hno, htx, if_neg Bool.false_ne_true, if_neg Bool.false_ne_true, if_neg hc, hent]
  rfl

theorem here_of_clause {c : Clause} (h : x.clause = some c) : x.here = pointOf c := by
  unfold Train.here
  rw [h]
  rfl

theorem here_of_none (h : x.clause = none) : x.here = headerPoint x x.pc := by
  unfold Train.here
  rw [h]
  rfl

/-! ## DEFERRED_TRAP -/

theorem deferredTrap_stays (hx : AMap.get? s.trains id = some x) (he : x.ending = false) (h : x.dueTrap = none) :
    exec (.deferredTrap id) s = .next s := by
  refine (exec_deferredTrap s).trans (Ends.runE (Ends.now ?_))
  rw [hx]
  dsimp only
  rw [he, h]
  exact Ends.pure ()

/-- The first deferred trap is the one that is due, at a boundary or early. -/
theorem dueTrap_first {d : Deferred} {l : List Deferred} (hd : x.deferred = d :: l) (hr : x.resume = none) (hte : x.tx.ending = none)
    (hent : Enters s x) : x.dueTrap = if x.clause.isNone || d.early then some d else none := by
  unfold Train.dueTrap
  rw [hr, hte, hd, hent.2.1, List.find?_cons_of_pos (by simp)]
  rfl

theorem deferredTrap_enters (hx : AMap.get? s.trains id = some x) (he : x.ending = false) {d : Deferred} {l : List Deferred}
    (hd : x.deferred = d :: l) (hin : d.inTm = false) (hent : Enters s x) (hc : d.cause ≠ 0x13) (hdue : x.dueTrap = some d) :
    exec (.deferredTrap id) s = .next
      (s.upd (.train id (some (entered { x with deferred := l } x.here d.cause (d.lanes.getD x.em) d.tval (vectorOf s x))))) := by
  refine (exec_deferredTrap s).trans (Ends.runE (Ends.now ?_))
  rw [hx]
  dsimp only
  rw [if_neg (by simp [he]), hdue]
  have herase : x.deferred.erase d = l := by rw [hd, List.erase_cons_head]
  dsimp only
  rw [herase, hin]
  have hups := trapUpds_enters (s := s) (id := id) (x := { x with deferred := l }) hent (at_ := x.here) hc (d.lanes.getD x.em) d.tval
  show Ends (updAll (trapUpds s id { x with deferred := l } x.here d.cause (d.lanes.getD x.em) d.tval false)) _ _ _
  rw [hups]
  exact Ends.updAll _

/-! ## E_ECC -/

theorem eEcc_enters (hx : AMap.get? s.trains id = some x) {c : Clause} (hc : x.clause = some c) (hent : Enters s x) (w : DWord) :
    exec (.eEcc id w none) s = .next (s.upd (.train id (some (entered x (pointOf c) 0x12 x.em w (vectorOf s x))))) := by
  refine (exec_eEcc s).trans (Ends.runE (Ends.now ?_))
  dsimp only
  rw [hx]
  dsimp only
  rw [hc, here_of_clause hc, show eEccC = 0x12 from rfl, trapUpds_enters hent (by decide)]
  exact Ends.updAll _

/-- An operation that ends with a trap defers it with the value given. -/
theorem Ends.endOp_tval {op : Nat} (h : AMap.get? t.trains id = some x) (c : Byte) (lanes : Option Mask) (w : Option DWord) :
    ∃ u y d, Ends (Machine.endOp id op (some (c, lanes, w)) : M s Unit) t () u ∧ OpEnded t u id op x y ∧
      d ∈ y.deferred ∧ d.order = op ∧ d.cause = c ∧ (∀ v, w = some v → d.tval = v) ∧ ∀ d ∈ x.deferred, d ∈ y.deferred := by
  let x1 : Train := ((reachWts t x).norm).defers op c lanes w
  have hc := complete_completed x1 op
  have e := complete_rest x1 op
  have ho := opEnded_of (t := t) (id := id) (reachWts t x).wtsMax (x := x) (y := x1.complete op) (op := op)
    ⟨hc.flight, hc.sb, hc.rest⟩ (by rw [e]; exact ⟨rfl, rfl⟩) (by rw [e]; rfl)
  have hdef : (x1.complete op).norm.deferred = x1.deferred := by
    show (x1.complete op).deferred = _
    rw [e]
  obtain ⟨d, hd, hord, hcause, htv⟩ : ∃ d ∈ x1.deferred, d.order = op ∧ d.cause = c ∧ ∀ v, w = some v → d.tval = v := by
    refine ⟨_, List.mem_append_left _ (List.mem_append_right _ List.mem_cons_self), rfl, rfl, ?_⟩
    rintro v rfl
    rfl
  refine ⟨_, _, d, Ends.now (Ends.bind (Ends.modTrain h) (Ends.modTrain (get?_upd_train id _))), ho, hdef ▸ hd, hord, hcause, htv,
    fun d' hd' => ?_⟩
  rw [hdef]
  obtain hlt | hle := Nat.lt_or_ge d'.order op
  · exact List.mem_append_left _ (List.mem_append_left _ (List.mem_filter.2 ⟨hd', by simpa using hlt⟩))
  · exact List.mem_append_right _ (List.mem_filter.2 ⟨hd', by simpa using hle⟩)

theorem eEcc_defers {k : Nat} {e : EngineOp} (hx : AMap.get? s.trains id = some x) (hj : AMap.get? s.jobs k = none)
    (he : AMap.get? s.esu k = some e) (ht : e.train = id) (w : DWord) :
    ∃ t y d, exec (.eEcc id w (some k)) s = .next t ∧ t = { s with trains := t.trains, esu := AMap.erase s.esu k } ∧
      OnlyTrain s t id ∧ AMap.get? t.trains id = some y ∧ Completed x y k ∧ y.s = x.s ∧ y.v = x.v ∧ d ∈ y.deferred ∧
      d.order = k ∧ d.cause = 0x12 ∧ d.tval = w := by
  obtain ⟨u, y, d, hu, ho, hd, hord, hcause, htv, -⟩ := Ends.endOp_tval (s := s) (t := s.upd (.esu k none)) (op := k) hx eEccC none (some w)
  refine ⟨u, y, d, (exec_eEcc s).trans (Ends.runE (Ends.now ?_)), ?_, ho.only, ho.get, ho.done, ho.regs.1, ho.regs.2, hd, hord,
    hcause, htv w rfl⟩
  · refine Ends.now ?_
    rw [hj]
    dsimp only
    rw [if_pos]
    · exact Ends.bind (Ends.upd _) hu
    · rw [he]
      exact beq_iff_eq.2 ht
  · rw [ho.frame]
    rfl

/-! ## Tenants and refresh windows -/

theorem mem_tenants {core c : Nat} : c ∈ tenants s core ↔ ∃ w ∈ s.wheels, w.2.core = core ∧
    ∃ d, AMap.get? s.dispatches w.2.dispatch = some d ∧ d.launch.tiles ≠ 0 ∧ d.ctx = c := by
  simp only [tenants, List.mem_dedup, List.mem_filterMap, List.mem_filter, beq_iff_eq, Option.bind_eq_some_iff]
  refine exists_congr fun w => ?_
  rw [and_assoc]
  refine and_congr_right fun _ => and_congr_right fun _ => exists_congr fun d => and_congr_right fun _ => ?_
  split <;> simp [*]

theorem tenantSplit_splits (core : Nat) : ∃ b : Bool, exec (.tenantSplit core) s = .next (s.upd (.core core { s.core core with split := b })) ∧
    (b = true ↔ ∃ w v d f, w ∈ s.wheels ∧ v ∈ s.wheels ∧ w.2.core = core ∧ v.2.core = core ∧
      AMap.get? s.dispatches w.2.dispatch = some d ∧ AMap.get? s.dispatches v.2.dispatch = some f ∧ d.launch.tiles ≠ 0 ∧
      f.launch.tiles ≠ 0 ∧ d.ctx ≠ f.ctx) := by
  refine ⟨_, (exec_tenantSplit s).trans (Ends.runE (Ends.now (Ends.upd _))), ?_⟩
  have htwo : 2 ≤ (tenants s core).length ↔ ∃ a ∈ tenants s core, ∃ b ∈ tenants s core, a ≠ b := by
    rw [← List.toFinset_card_of_nodup (show (tenants s core).Nodup from List.nodup_dedup _), Nat.succ_le_iff, Finset.one_lt_card]
    simp only [List.mem_toFinset]
  rw [decide_eq_true_iff, htwo]
  constructor
  · rintro ⟨a, ha, b, hb, hne⟩
    obtain ⟨w, hw, hwc, d, hd, hdt, rfl⟩ := mem_tenants.1 ha
    obtain ⟨v, hv, hvc, f, hf, hft, rfl⟩ := mem_tenants.1 hb
    exact ⟨w, v, d, f, hw, hv, hwc, hvc, hd, hf, hdt, hft, hne⟩
  · rintro ⟨w, v, d, f, hw, hv, hwc, hvc, hd, hf, hdt, hft, hne⟩
    exact ⟨d.ctx, mem_tenants.2 ⟨w, hw, hwc, d, hd, hdt, rfl⟩, f.ctx, mem_tenants.2 ⟨v, hv, hvc, f, hf, hft, rfl⟩, hne⟩

theorem refreshWindowEnd_moves {k : Nat} (hk : k < 64) : ∃ n, exec (.refreshWindowEnd k) s =
      .next (if n = s.mg.refreshNs then s else s.upd (.mg { s.mg with refreshNs := n })) ∧
    s.mg.refreshNs ≤ n ∧ n < s.mg.refreshNs + 501 ∧ 500 ≤ (n + 64000 - 1000 * k) % 64000 := by
  have hph : bankPhase s.mg.refreshNs k = (s.mg.refreshNs + 64000 - 1000 * k) % 64000 := by rw [bankPhase, Nat.mod_eq_of_lt hk]
  by_cases h : bankPhase s.mg.refreshNs k < 500
  · refine ⟨s.mg.refreshNs + (500 - bankPhase s.mg.refreshNs k), (exec_refreshWindowEnd s).trans (Ends.runE (Ends.now ?_)), ?_, ?_, ?_⟩
    · dsimp only
      rw [if_pos h, if_neg (by omega)]
      exact Ends.upd _
    all_goals omega
  · refine ⟨s.mg.refreshNs, (exec_refreshWindowEnd s).trans (Ends.runE (Ends.now ?_)), le_rfl, by omega, by omega⟩
    dsimp only
    rw [if_neg h, if_pos rfl]
    exact Ends.pure ()

/-! ## E_TENANT -/

/-- The operations of a list end with a trap each. -/
theorem Ends.endOps (c : Byte) (q : AMap EngineOp) (hq : ∀ kv ∈ q, ∃ x, AMap.get? t.trains kv.2.train = some x) :
    ∃ u, Ends (q.forM fun kv => Machine.endOp kv.2.train kv.1 (some (c, none, none)) : M s Unit) t () u ∧ u = { t with trains := u.trains } ∧
      (∀ j x, AMap.get? t.trains j = some x → ∃ y, AMap.get? u.trains j = some y ∧ ∀ d ∈ x.deferred, d ∈ y.deferred) ∧
      ∀ kv ∈ q, ∃ y d, AMap.get? u.trains kv.2.train = some y ∧ d ∈ y.deferred ∧ d.order = kv.1 ∧ d.cause = c := by
  induction q generalizing t with
  | nil => exact ⟨t, Ends.pure (), rfl, fun j x hx => ⟨x, hx, fun d hd => hd⟩, fun kv h => nomatch h⟩
  | cons kv q ih =>
    obtain ⟨x, hx⟩ := hq kv List.mem_cons_self
    obtain ⟨v, y, d, hv, ho, hd, hord, hcause, -, hkeep⟩ := Ends.endOp_tval (s := s) (op := kv.1) hx c none none
    have hstep (j : Nat) (z : Train) (hz : AMap.get? t.trains j = some z) :
        ∃ y, AMap.get? v.trains j = some y ∧ ∀ d ∈ z.deferred, d ∈ y.deferred := by
      by_cases hj : j = kv.2.train
      · subst hj
        exact ⟨y, ho.get, Option.some.inj (hx.symm.trans hz) ▸ hkeep⟩
      · exact ⟨z, (ho.only j hj).trans hz, fun d hd => hd⟩
    obtain ⟨u, hu, hf, hall, hend⟩ := ih (t := v) fun kv' hkv' => by
      obtain ⟨z, hz⟩ := hq kv' (List.mem_cons_of_mem _ hkv')
      obtain ⟨y, hy, -⟩ := hstep _ z hz
      exact ⟨y, hy⟩
    refine ⟨u, Ends.bind hv hu, ?_, fun j z hz => ?_, fun kv' hkv' => ?_⟩
    · rw [hf, ho.frame]
    · obtain ⟨y, hy, h1⟩ := hstep j z hz
      obtain ⟨y', hy', h2⟩ := hall j y hy
      exact ⟨y', hy', fun d hd => h2 d (h1 d hd)⟩
    · rcases List.mem_cons.1 hkv' with rfl | hmem
      · obtain ⟨y', hy', h2⟩ := hall _ y ho.get
        exact ⟨y', d, hy', h2 d hd, hord, hcause⟩
      · exact hend kv' hmem

theorem upds_job_list {α : Type} (f : α → Nat) (g : α → Option Job) (l : List α) :
    ∃ w, t.upds (l.map fun a => .job (f a) (g a)) = { t with jobs := w } := by
  induction l generalizing t with
  | nil => exact ⟨t.jobs, rfl⟩
  | cons a l ih =>
    obtain ⟨w, hw⟩ := ih (t := t.upd (.job (f a) (g a)))
    exact ⟨w, hw⟩

/-- Entries that leave the matrix queue. -/
theorem upds_matrix_drop (q : AMap EngineOp) (hk : KeysRise t.matrix) :
    ∃ m, t.upds (q.map fun kv => .matrix kv.1 none) = { t with matrix := m } ∧
      ∀ k, AMap.get? m k = if k ∈ q.map (·.1) then none else AMap.get? t.matrix k := by
  induction q generalizing t with
  | nil => exact ⟨t.matrix, rfl, fun k => rfl⟩
  | cons kv q ih =>
    obtain ⟨m, hm, hget⟩ := ih (t := t.upd (.matrix kv.1 none)) (hk.erase kv.1)
    refine ⟨m, hm, fun k => (hget k).trans ?_⟩
    have herase : AMap.get? (t.upd (.matrix kv.1 none)).matrix k = if k = kv.1 then none else AMap.get? t.matrix k :=
      AMap.get?_erase t.matrix kv.1 k
    rw [herase]
    simp only [List.map_cons, List.mem_cons]
    by_cases h1 : k ∈ q.map (·.1)
    · simp only [h1, or_true, if_true]
    · simp only [h1, or_false, if_false]

/-- The wheels of a list, as they were in `w0`, read as zero. -/
theorem upds_zeroTiles (w0 : AMap Wheel) (l : List Nat) :
    ∃ m, t.upds (l.filterMap fun k => (AMap.get? w0 k).map fun w => .wheel k (some w.zeroTiles)) = { t with wheels := m } ∧
      ∀ k w, AMap.get? w0 k = some w → AMap.get? m k = if k ∈ l then some w.zeroTiles else AMap.get? t.wheels k := by
  induction l generalizing t with
  | nil => exact ⟨t.wheels, rfl, fun k _ _ => rfl⟩
  | cons j l ih =>
    cases hj : AMap.get? w0 j with
    | none =>
      obtain ⟨m, hm, hget⟩ := ih (t := t)
      refine ⟨m, ?_, fun k w hw => ?_⟩
      · rw [List.filterMap_cons, hj]
        exact hm
      · have hne : k ≠ j := fun h => by rw [h, hj] at hw; cases hw
        simp only [hget k w hw, List.mem_cons, hne, false_or]
    | some v =>
      obtain ⟨m, hm, hget⟩ := ih (t := t.upd (.wheel j (some v.zeroTiles)))
      refine ⟨m, ?_, fun k w hw => ?_⟩
      · rw [List.filterMap_cons, hj]
        exact hm
      · have hset : AMap.get? (t.upd (.wheel j (some v.zeroTiles))).wheels k =
            if k = j then some v.zeroTiles else AMap.get? t.wheels k := AMap.get?_set ..
        rw [hget k w hw, hset]
        simp only [List.mem_cons]
        by_cases hkj : k = j
        · subst hkj
          obtain rfl : w = v := Option.some.inj (hw.symm.trans hj)
          simp
        · simp only [hkj, false_or, if_false]

theorem zeroTiles_zero (w : Wheel) (i : BitVec 3) : (∀ a, Bytes.get (tileOf w.zeroTiles i).data a = 0) ∧
    (tileOf w.zeroTiles i).tscale = 0 ∧ ∀ k, k < 256 → AMap.get? (tileOf w.zeroTiles i).scales k = some 0 := by
  have h : tileOf w.zeroTiles i = { tileOf w i with data := [], scales := (List.range 256).map fun k => (k, 0), tscale := 0 } := by
    unfold tileOf Wheel.zeroTiles
    rw [Vector.getElem_map]
  rw [h]
  refine ⟨fun a => rfl, rfl, fun k hk => AMap.get?_of_mem ?_ (List.mem_map.2 ⟨k, List.mem_range.2 hk, rfl⟩)⟩
  unfold KeysRise
  rw [List.map_map]
  exact (List.map_id _).symm ▸ List.pairwise_lt_range

theorem mxIn_iff {core ctx : Nat} {e : EngineOp} : mxIn s core ctx e = true ↔ OnMatrix s core ctx e := by
  unfold mxIn OnMatrix
  cases AMap.get? s.trains e.train with
  | none => simp
  | some x => simp

theorem eTenant_whole {core : Nat} (h : (s.core core).split = false) (ctx : Nat) : exec (.eTenant core ctx) s = .next s := by
  refine (exec_eTenant s).trans (Ends.runE (Ends.now ?_))
  rw [h]
  exact Ends.pure ()

theorem eTenant_takes {core : Nat} (h : (s.core core).split = true) (ctx : Nat) (hk : KeysRise s.matrix) :
    ∃ t, exec (.eTenant core ctx) s = .next t ∧ t.mem = s.mem ∧
      (∀ k e, AMap.get? s.matrix k = some e → ¬OnMatrix s core ctx e → AMap.get? t.matrix k = some e) ∧
      ∀ k e x wh, AMap.get? s.matrix k = some e → OnMatrix s core ctx e → AMap.get? s.trains e.train = some x →
        AMap.get? s.wheels x.wheel = some wh → AMap.get? t.matrix k = none ∧
        (∃ y d, AMap.get? t.trains e.train = some y ∧ d ∈ y.deferred ∧ d.order = k ∧ d.cause = 0x16) ∧
        AMap.get? t.wheels x.wheel = some wh.zeroTiles := by
  let q := mxQueue s core ctx
  let ws := ((q.filterMap fun kv => (AMap.get? s.trains kv.2.train).map (·.wheel))).dedup
  have hmem (k : Nat) (e : EngineOp) : (k, e) ∈ q ↔ AMap.get? s.matrix k = some e ∧ OnMatrix s core ctx e := by
    rw [show q = s.matrix.filter fun kv => mxIn s core ctx kv.2 from rfl, List.mem_filter, AMap.mem_iff hk, mxIn_iff]
  obtain ⟨j, hj⟩ := upds_job_list (t := s) (fun kv : Nat × Job => kv.1) (fun _ => none) (s.jobs.filter fun kv => match kv.2.kind with
    | .tile op => AMap.has q op
    | _ => false)
  obtain ⟨m, hm, hmget⟩ := upds_matrix_drop (t := { s with jobs := j }) q hk
  obtain ⟨w, hw, hwget⟩ := upds_zeroTiles (t := { s with jobs := j, matrix := m }) s.wheels ws
  obtain ⟨t, ht, hf, -, hend⟩ := Ends.endOps (s := s) (t := { s with jobs := j, matrix := m, wheels := w }) eTenantC q fun kv hkv => by
    obtain ⟨x, hx, -⟩ := ((hmem kv.1 kv.2).1 hkv).2
    exact ⟨x, hx⟩
  have hgo : exec (.eTenant core ctx) s = .next t := by
    refine (exec_eTenant s).trans (Ends.runE (Ends.now ?_))
    rw [h]
    exact Ends.bind (hj ▸ Ends.updAll _) (Ends.bind (hm ▸ Ends.updAll _) (Ends.bind (hw ▸ Ends.updAll _) ht))
  have hmx : t.matrix = m := by rw [hf]
  have hwx : t.wheels = w := by rw [hf]
  refine ⟨t, hgo, by rw [hf], fun k e he hn => ?_, fun k e x wh he hon hx hwh => ⟨?_, hend _ ((hmem k e).2 ⟨he, hon⟩), ?_⟩⟩
  · rw [hmx, hmget, if_neg]
    · exact he
    · rintro hmap
      obtain ⟨⟨k', e'⟩, hke, rfl⟩ := List.mem_map.1 hmap
      obtain ⟨he', hon⟩ := (hmem k' e').1 hke
      exact hn (Option.some.inj (he'.symm.trans he) ▸ hon)
  · rw [hmx, hmget, if_pos (List.mem_map.2 ⟨(k, e), (hmem k e).2 ⟨he, hon⟩, rfl⟩)]
  · rw [hwx, hwget _ wh hwh, if_pos]
    exact List.mem_dedup.2 (List.mem_filterMap.2 ⟨(k, e), (hmem k e).2 ⟨he, hon⟩, by rw [hx]; rfl⟩)

end
end Sys2Proof.Machine
end

section
/-! SUPPORT. E_HANG: the wait-for records are written without waiting, and the longest waiting train is taken out of its wait (R72, R73). -/

namespace Sys2Proof.Machine

section
variable {s t u v : State} {α β : Type}

/-! ## What writing a record changes -/

/-- From `t` to `u` memory is written: trains differ in their watches alone, and wheels, dispatches, contexts, walks and locks not at all. -/
structure Recorded (t u : State) : Prop where
  wheels : u.wheels = t.wheels
  dispatches : u.dispatches = t.dispatches
  ctxs : u.ctxs = t.ctxs
  walks : u.walks = t.walks
  locks : u.locks = t.locks
  keys : KeysRise t.trains → KeysRise u.trains
  trains : KeysRise t.trains → ∀ id x, AMap.get? t.trains id = some x → x.Ok → ∃ o, AMap.get? u.trains id = some { x with watch := o }

theorem Recorded.refl (t : State) : Recorded t t := ⟨rfl, rfl, rfl, rfl, rfl, id, fun _ _ x hx _ => ⟨x.watch, hx⟩⟩

theorem Recorded.trans (h : Recorded t u) (h' : Recorded u v) : Recorded t v := by
  refine ⟨h'.wheels.trans h.wheels, h'.dispatches.trans h.dispatches, h'.ctxs.trans h.ctxs, h'.walks.trans h.walks,
    h'.locks.trans h.locks, fun hk => h'.keys (h.keys hk), fun hk id x hx hok => ?_⟩
  obtain ⟨o, ho⟩ := h.trains hk id x hx hok
  obtain ⟨o', ho'⟩ := h'.trains (h.keys hk) id _ ho ⟨hok.live, hok.p7, hok.pc, hok.opened⟩
  exact ⟨o', ho'⟩

/-- A change of something else. -/
theorem Recorded.of_frame (h : u = { t with mem := u.mem, cores := u.cores, owners := u.owners, lines := u.lines, l3 := u.l3 }) :
    Recorded t u := by
  rw [h]
  exact ⟨rfl, rfl, rfl, rfl, rfl, id, fun _ _ x hx _ => ⟨x.watch, hx⟩⟩

/-- The computation ends, having written memory, or stops for a reason other than a wait. -/
def Goes (m : M s α) (t : State) (p : α → State → Prop) : Prop :=
  (∃ a u, Ends m t a u ∧ Recorded t u ∧ p a u) ∨ ∃ e, Stops m t e ∧ e ≠ .wait

theorem Goes.bind {m : M s α} {f : α → M s β} {p : α → State → Prop} {q : β → State → Prop} (h : Goes m t p)
    (hf : ∀ a u, Recorded t u → p a u → Goes (f a) u q) : Goes (m >>= f) t q := by
  obtain ⟨a, u, hm, hr, hp⟩ | ⟨e, he, hne⟩ := h
  · obtain ⟨b, w, hb, hr', hq⟩ | ⟨e, he, hne⟩ := hf a u hr hp
    · exact .inl ⟨b, w, Ends.bind hm hb, hr.trans hr', hq⟩
    · exact .inr ⟨e, Stops.bind hm he, hne⟩
  · exact .inr ⟨e, Stops.bind_left he, hne⟩

theorem Goes.now {f : State → M s β} {q : β → State → Prop} (h : Goes (f t) t q) : Goes (now >>= f) t q := by
  obtain ⟨b, w, hb, hr, hq⟩ | ⟨e, he, hne⟩ := h
  · exact .inl ⟨b, w, Ends.now hb, hr, hq⟩
  · exact .inr ⟨e, Stops.now he, hne⟩

theorem Goes.pure {a : α} {p : α → State → Prop} (h : p a t) : Goes (Pure.pure a : M s α) t p :=
  .inl ⟨a, t, Ends.pure a, Recorded.refl t, h⟩

theorem Goes.stop {e : Stop} {p : α → State → Prop} (h : e ≠ .wait) : Goes (stop e : M s α) t p := .inr ⟨e, Stops.stop e, h⟩

/-! ## Writes of the service core -/

/-- The watches of some trains are changed. -/
theorem recorded_watches (f : Nat → Train → Bool) (g : Train → Option Watch) :
    Recorded t (t.upds ((t.trains.filter fun kv => f kv.1 kv.2).map fun kv => .train kv.1 (some { kv.2 with watch := g kv.2 }))) := by
  obtain hk | hk := Classical.em (KeysRise t.trains)
  · obtain ⟨hf, hkeys, hget⟩ := trainsChanged hk f fun z => { z with watch := g z }
    refine ⟨by rw [hf], by rw [hf], by rw [hf], by rw [hf], by rw [hf], fun _ => hkeys, fun _ id x hx hok => ?_⟩
    rw [hget, hx, Option.map_some]
    by_cases hp : f id x = true
    · rw [if_pos hp]
      exact ⟨g x, congrArg some (Train.norm_of_ok ⟨hok.live, hok.p7, hok.pc, hok.opened⟩)⟩
    · rw [if_neg hp]
      exact ⟨x.watch, rfl⟩
  · rw [upds_train_list fun z => { z with watch := g z }]
    exact ⟨rfl, rfl, rfl, rfl, rfl, fun h => absurd h hk, fun h => absurd h hk⟩

theorem recorded_hitWatches (sector w : Nat) : Recorded t (t.upds ((t.trains.filter fun kv =>
      match kv.2.watch with
      | some o => o.sector == sector && o.wts < w && !o.hit
      | none => false).map fun kv => .train kv.1 (some { kv.2 with watch := kv.2.watch.map fun o => { o with hit := true } }))) :=
  recorded_watches (fun _ z => match z.watch with
    | some o => o.sector == sector && o.wts < w && !o.hit
    | none => false) fun z => z.watch.map fun o => { o with hit := true }

theorem Goes.homeWrite (floor pa n val : Nat) : Goes (Machine.homeWrite none floor pa n val : M s Nat) t fun _ _ => True := by
  obtain ⟨t1, h1, e1⟩ := Ends.recallOwner_none (s := s) (t := t) pa
  let w := max (max (t1.line pa).wts (t1.line pa).rts + 1) (floor + 1)
  let t2 := t1.upd (.line (pa / 1024) { t1.line pa with wts := w })
  have hr1 : Recorded t t1 := Recorded.of_frame (by rw [e1])
  have hr2 : Recorded t1 t2 := Recorded.of_frame rfl
  have hr3 := recorded_hitWatches (t := t2) (pa / 128) w
  refine .inl ⟨w, _, Ends.bind h1 (Ends.bind (Ends.now (Ends.bind (Ends.upd _) (Ends.bind (Ends.now (Ends.updAll _)) (Ends.pure w))))
    (Ends.bind (Ends.updAll _) (Ends.pure w))), ?_, trivial⟩
  refine ((hr1.trans hr2).trans hr3).trans (Recorded.of_frame ?_)
  rw [State.upds_byteUpds] <;> rfl

theorem Goes.setAD (l : Leaf) (kind : BitVec 3) : Goes (Machine.setAD l kind : M s Nat) t fun _ _ => True := by
  unfold Machine.setAD
  generalize (l.e ||| 2 ^ 53 ||| (if kind.getLsbD 1 then 2 ^ 54 else 0)) = e
  by_cases h : e = l.e
  · exact .inl ⟨l.e, t, by dsimp only; rw [if_pos h]; exact Ends.pure _, Recorded.refl t, trivial⟩
  · dsimp only
    rw [if_neg h]
    exact Goes.bind (Goes.homeWrite ..) fun _ _ _ _ => Goes.pure trivial

/-- An engine's translation for a write. -/
theorem Goes.walkNow {core ctx : Nat} (hw : walkersBusy t (dieOf core) ctx = false) (va : Nat) (kind : BitVec 3) :
    Goes (Machine.walkNow core ctx va kind : M s Tlb) t fun _ _ => True := by
  have hwalk : Goes (do
      Machine.need (!walkersBusy t (dieOf core) ctx) .wait
      match walkTable t.mem (t.ctx ctx).ptbase.toNat va with
      | .absent_ => Machine.stop (.held (BitVec.ofNat 64 (va / 65536 * 65536)) kind false false)
      | .malformed => Machine.stop (.held (BitVec.ofNat 64 (va / 65536 * 65536)) kind false true)
      | .leaf l =>
        if rightsOk (pteR l.e) (pteW l.e) (pteX l.e) kind then do
          let e ← Machine.setAD l kind
          let x := tlbOf (t.tagOf ctx) va e l.big
          installL3 (dieOf core) x
          Pure.pure x
        else Machine.stop (.held (BitVec.ofNat 64 (va / 65536 * 65536)) kind true false) : M s Tlb) t fun _ _ => True := by
    rw [hw]
    refine Goes.bind (p := fun _ u => u = t) (Goes.pure rfl) fun _ u _ hu => ?_
    subst hu
    cases walkTable u.mem (u.ctx ctx).ptbase.toNat va with
    | absent_ => exact Goes.stop nofun
    | malformed => exact Goes.stop nofun
    | leaf l =>
      dsimp only
      split
      · refine Goes.bind (p := fun _ _ => True) ?_ fun e u _ _ => Goes.bind (p := fun _ _ => True) ?_ fun _ _ _ _ => Goes.pure trivial
        · exact Goes.setAD l kind
        · exact .inl ⟨(), _, Ends.now (Ends.upd _), Recorded.of_frame rfl, trivial⟩
      · exact Goes.stop nofun
  unfold Machine.walkNow
  refine Goes.now ?_
  dsimp only
  split
  · split
    · exact Goes.stop nofun
    · split
      · exact hwalk
      · exact Goes.pure trivial
  · exact hwalk

/-- What a write of the service core meets nowhere: no granule is locked, and a walker is free. -/
structure Unhindered (t : State) (core ctx : Nat) : Prop where
  locks : t.locks = []
  walkers : walkersBusy t (dieOf core) ctx = false

theorem Unhindered.recorded {core ctx : Nat} (h : Unhindered t core ctx) (hr : Recorded t u) : Unhindered u core ctx := by
  refine ⟨hr.locks.trans h.locks, ?_⟩
  have hw := h.walkers
  unfold walkersBusy at hw ⊢
  rw [hr.walks]
  exact hw

/-- The write of an engine without privilege: its translation is checked, and no register of the device is written. -/
theorem Goes.engineWrite {core ctx : Nat} (h : Unhindered t core ctx) (va n val : Nat) :
    Goes (Machine.engineWrite core ctx false false va n val : M s Bool) t fun _ _ => True := by
  unfold Machine.engineWrite Machine.engineX
  refine Goes.bind (p := fun pa u => u.region pa ≠ .mmio) ?_ fun pa u hr hpa => Goes.now ?_
  · split
    · exact Goes.stop nofun
    · refine Goes.bind (Goes.walkNow h.walkers va kWrite) fun e u _ _ => Goes.now ?_
      cases hc : accessCause u false false e va with
      | some c => exact Goes.stop nofun
      | none =>
        refine Goes.pure fun hm => ?_
        unfold accessCause at hc
        simp [hm] at hc
  · rw [(h.recorded hr).locks, if_neg (by simp [lockedBytes]), if_neg (by simpa using hpa)]
    exact Goes.bind (Goes.homeWrite ..) fun w v _ _ => Goes.now (.inl ⟨_, _, Ends.bind (Ends.upd _) (Ends.pure _), Recorded.of_frame rfl, trivial⟩)

theorem Goes.forM {core ctx : Nat} {f : α → M s Unit}
    (hf : ∀ a u, Unhindered u core ctx → Goes (f a) u fun _ _ => True) (l : List α) (h : Unhindered t core ctx) :
    Goes (l.forM f) t fun _ _ => True := by
  induction l generalizing t with
  | nil => exact Goes.pure trivial
  | cons a l ih => exact Goes.bind (hf a t h) fun _ u hr _ => ih (h.recorded hr)

/-- Records are written one after the other, without a wait; the first that cannot be ends them. -/
theorem Ends.writeRecords {ctx : Nat} (va n : Nat) (recs : List (List Nat)) (h : Unhindered t serviceCore ctx) :
    ∃ k u, Ends (Machine.writeRecords ctx va n recs : M s Nat) t k u ∧ Recorded t u ∧ k ≤ n + recs.length := by
  induction recs generalizing t n with
  | nil => exact ⟨n, t, Ends.pure n, Recorded.refl t, le_rfl⟩
  | cons r recs ih =>
    have hput : Goes (r.zipIdx.forM fun x => do
        let _ ← Machine.engineWrite serviceCore ctx false false (va + 32 * n + 8 * x.2) 8 x.1
        Pure.pure () : M s Unit) t fun _ _ => True :=
      Goes.forM (fun a u hu => Goes.bind (Goes.engineWrite hu ..) fun _ _ _ _ => Goes.pure trivial) _ h
    obtain ⟨a, u, hm, hr, -⟩ | ⟨e, he, hne⟩ := hput
    · obtain ⟨k, v, hk, hr', hle⟩ := ih (n + 1) (h.recorded hr)
      exact ⟨k, v, Ends.bind (Ends.tryM hm) hk, hr.trans hr', by rw [List.length_cons]; omega⟩
    · refine ⟨n, t, Ends.bind (Stops.tryM he) ?_, Recorded.refl t, by omega⟩
      cases e with
      | wait => exact absurd rfl hne
      | _ => exact Ends.pure n

/-! ## The longest waiting train -/

/-- The key of a waiting train: the longer its wait, the smaller. -/
def hangKey (t : State) (kv : Nat × Train) : List Nat := [2 ^ 64 - kv.2.waited, t.coreOf kv.2, kv.2.index]

/-- One step of the choice. -/
def hangPick (t : State) (b : Option (Nat × List Nat)) (kv : Nat × Train) : Option (Nat × List Nat) :=
  match b with
  | none => some (kv.1, hangKey t kv)
  | some x => if lexLt (hangKey t kv) x.2 then some (kv.1, hangKey t kv) else b

theorem hangVictim_eq (c : Nat) : hangVictim t c = (((trainsIn t c).filter fun kv => kv.2.waiting && watchedTrain t kv.2).foldl
    (hangPick t) none).map (·.1) := rfl

theorem lexLt_head {a b : Nat} (h : a < b) (l m : List Nat) : lexLt (a :: l) (b :: m) = true ∧ lexLt (b :: m) (a :: l) = false := by
  have hba : ¬b < a := by omega
  have hne : (b == a) = false := beq_false_of_ne (by omega)
  simp only [lexLt, h, hba, hne, decide_true, decide_false, Bool.true_or, Bool.false_and, Bool.or_false, and_self]

/-- A train with a smaller key than every other is picked. -/
theorem hangPick_least {kv0 : Nat × Train} {l : List (Nat × Train)}
    (hl : ∀ kv ∈ l, kv ≠ kv0 → lexLt (hangKey t kv0) (hangKey t kv) = true ∧ lexLt (hangKey t kv) (hangKey t kv0) = false)
    (b : Option (Nat × List Nat)) (hb : ∀ x, b = some x → x = (kv0.1, hangKey t kv0) ∨ lexLt (hangKey t kv0) x.2 = true)
    (hm : kv0 ∈ l ∨ b = some (kv0.1, hangKey t kv0)) : l.foldl (hangPick t) b = some (kv0.1, hangKey t kv0) := by
  induction l generalizing b with
  | nil => exact hm.resolve_left List.not_mem_nil
  | cons kv l ih =>
    have hl' := fun kv' h => hl kv' (List.mem_cons_of_mem kv h)
    rw [List.foldl_cons]
    by_cases hkv : kv = kv0
    · have hpick : hangPick t b kv = some (kv0.1, hangKey t kv0) := by
        subst hkv
        cases b with
        | none => rfl
        | some x =>
          obtain rfl | hlt := hb x rfl
          · exact ite_self _
          · exact if_pos hlt
      exact ih hl' _ (fun x hx => .inl (Option.some.inj (hx.symm.trans hpick))) (.inr hpick)
    · obtain ⟨hlt, hge⟩ := hl kv List.mem_cons_self hkv
      refine ih hl' _ (fun x hx => ?_) ?_
      · cases b with
        | none => exact .inr ((Option.some.inj hx) ▸ hlt)
        | some y =>
          unfold hangPick at hx
          dsimp only at hx
          split at hx
          · exact .inr ((Option.some.inj hx) ▸ hlt)
          · exact hb x hx
      · refine hm.imp (fun h => ?_) fun h => ?_
        · exact (List.mem_cons.1 h).resolve_left fun h => hkv h.symm
        · subst h
          exact if_neg (by rw [hge]; exact Bool.false_ne_true)

theorem watched_iff {x : Train} : watchedTrain t x = true ↔ hangOf t x ≠ none := by
  unfold watchedTrain hangOf
  cases t.dispatchOf x with
  | none => simp
  | some d => cases d.launch.watched <;> simp

/-- The train whose wait is the longest of the watched ones is the victim. -/
theorem hangVictim_longest {c id : Nat} {x : Train} {w : Wait} (hk : KeysRise t.trains) (hx : AMap.get? t.trains id = some x)
    (hc : t.ctxOf x = c) (hw : Waits x w) (hage : w.age < 2 ^ 64) (hh : hangOf t x ≠ none)
    (hmax : ∀ j y v, j ≠ id → AMap.get? t.trains j = some y → t.ctxOf y = c → hangOf t y ≠ none → Waits y v → v.age < w.age) :
    hangVictim t c = some id := by
  have hwaited {y : Train} {v : Wait} (h : Waits y v) : y.waited = v.age := by
    unfold Train.waited
    rw [h.1]
  have hpick := hangPick_least (t := t) (kv0 := (id, x)) (l := (trainsIn t c).filter fun kv => kv.2.waiting && watchedTrain t kv.2)
    (fun kv hkv hne => by
      obtain ⟨hin, hp⟩ := List.mem_filter.1 hkv
      obtain ⟨hmem, hcy⟩ := List.mem_filter.1 hin
      obtain ⟨hwy, hwt⟩ := (Bool.and_eq_true _ _).mp hp
      obtain ⟨v, hv⟩ := waiting_iff_waits.1 hwy
      have hget := AMap.get?_of_mem hk hmem
      have hj : kv.1 ≠ id := fun h => hne (Prod.ext h (Option.some.inj ((h ▸ hget).symm.trans hx)))
      have hlt := hmax kv.1 kv.2 v hj hget (beq_iff_eq.1 hcy) (watched_iff.1 hwt) hv
      refine lexLt_head ?_ _ _
      rw [hwaited hv, hwaited hw]
      omega) none nofun (.inl (List.mem_filter.2 ⟨List.mem_filter.2 ⟨AMap.mem_of_get? hx, beq_iff_eq.2 hc⟩, by
        rw [Bool.and_eq_true]
        exact ⟨waiting_iff_waits.2 ⟨w, hw⟩, watched_iff.2 hh⟩⟩))
  rw [hangVictim_eq, hpick]
  rfl

theorem hangLimitOf_eq (c : Nat) : hangLimitOf t c = ((trainsIn t c).filterMap fun kv => hangOf t kv.2).min? := by
  have h : ∀ kv ∈ trainsIn t c, (match t.dispatchOf kv.2 with
      | some d => if d.launch.watched then some (if d.launch.hang = 0 then (t.ctx c).hangLimit.toNat else 2 ^ d.launch.hang) else none
      | none => none) = hangOf t kv.2 := by
    intro kv hkv
    have hc : t.ctxOf kv.2 = c := beq_iff_eq.1 (List.mem_filter.1 hkv).2
    unfold hangOf
    rw [hc] <;> rfl
  exact congrArg List.min? (List.filterMap_congr h)

/-- The limit of a context is no greater than that of one of its watched trains. -/
theorem hangLimit_le {c id lim : Nat} {x : Train} (hx : AMap.get? t.trains id = some x) (hc : t.ctxOf x = c) (hh : hangOf t x = some lim) :
    ∃ l, hangLimitOf t c = some l ∧ l ≤ lim := by
  have hmem : lim ∈ (trainsIn t c).filterMap fun kv => hangOf t kv.2 :=
    List.mem_filterMap.2 ⟨(id, x), List.mem_filter.2 ⟨AMap.mem_of_get? hx, beq_iff_eq.2 hc⟩, hh⟩
  rw [hangLimitOf_eq]
  obtain ⟨l, hl⟩ := Option.isSome_iff_exists.1 (List.isSome_min?_of_mem hmem)
  exact ⟨l, hl, (List.le_min?_iff hl).1 le_rfl lim hmem⟩

theorem hangLimit_none {c : Nat} (hk : KeysRise t.trains) (h : ∀ id x, AMap.get? t.trains id = some x → t.ctxOf x = c → hangOf t x = none) :
    hangLimitOf t c = none := by
  rw [hangLimitOf_eq, List.min?_eq_none_iff, List.filterMap_eq_nil_iff]
  intro kv hkv
  obtain ⟨hmem, hc⟩ := List.mem_filter.1 hkv
  exact h kv.1 kv.2 (AMap.get?_of_mem hk hmem) (beq_iff_eq.1 hc)

theorem eHang_unwatched {c : Nat} (hk : KeysRise s.trains)
    (h : ∀ id x, AMap.get? s.trains id = some x → s.ctxOf x = c → hangOf s x = none) : exec (.eHang c) s = .next s := by
  refine (exec_eHang s).trans (Ends.runE (Ends.now ?_))
  rw [hangLimit_none hk h]
  exact Ends.pure ()

/-! ## E_HANG -/

/-- The train that E_HANG takes keeps its registers, its lanes and its trap state; its place is past a barrier instruction, and at the word of any other. -/
structure Abandoned (x z : Train) (w : Wait) : Prop where
  regs : z.s = x.s ∧ z.v = x.v
  lanes : z.em = x.em ∧ z.live = x.live
  wheel : z.wheel = x.wheel
  tm : z.trap.tm = x.trap.tm
  tx : z.tx = x.tx
  place : ∀ cl, x.clause = some cl → cl.idx < cl.words.length → z.here.pc = match w.on with
    | .barrier _ => cl.hdr + BitVec.ofNat 64 (8 * (cl.idx + 2))
    | _ => cl.hdr + BitVec.ofNat 64 (8 * (cl.idx + 1))

theorem abandoned_is (x : Train) (w : Wait) (b : Bool) : Abandoned x (x.abandoned w b) w := by
  have hsame {z : Train} (hz : z = { x with wait := none, keptPhase := z.keptPhase }) (hb : ∀ a, w.on ≠ .barrier a ∨ x.clause = none) :
      Abandoned x z w := by
    rw [hz]
    refine ⟨⟨rfl, rfl⟩, ⟨rfl, rfl⟩, rfl, rfl, rfl, fun cl hcl _ => ?_⟩
    have hpc : x.here.pc = cl.hdr + BitVec.ofNat 64 (8 * (cl.idx + 1)) := by
      rw [here_of_clause hcl]
      rfl
    cases hon : w.on with
    | barrier a => exact ((hb a).elim (fun h => h hon) fun h => nomatch h.symm.trans hcl).elim
    | _ => exact hpc
  cases hon : w.on with
  | barrier a =>
    cases hcl : x.clause with
    | none => exact hsame (by simp only [Train.abandoned, hon, hcl]) fun a => .inr hcl
    | some cl =>
      have hz : x.abandoned w b = ({ x with wait := none, keptPhase := none } : Train).advance cl none := by
        simp only [Train.abandoned, hon, hcl]
      rw [hz]
      refine ⟨⟨advance_s .., advance_v ..⟩, ?_, ?_, ?_, ?_, fun cl' hcl' hlt => ?_⟩
      · rw [advance_rest]
        exact ⟨rfl, rfl⟩
      · rw [advance_rest]
      · unfold Train.advance Train.endClause
        split
        · rfl
        · dsimp only
          split <;> rfl
      · rw [advance_rest]
      · obtain rfl : cl = cl' := Option.some.inj (hcl.symm.trans hcl')
        rw [hon]
        unfold Train.advance
        split
        · rfl
        · exact congrArg (fun n => cl.hdr + BitVec.ofNat 64 (8 * n)) (by omega)
  | tb a ph =>
    cases b
    · exact hsame (by simp only [Train.abandoned, hon, Bool.false_eq_true, if_false]) fun _ => .inl (by rw [hon]; nofun)
    · exact hsame (by simp only [Train.abandoned, hon, if_true]) fun _ => .inl (by rw [hon]; nofun)
  | _ => exact hsame (by simp only [Train.abandoned, hon]) fun _ => .inl (by rw [hon]; nofun)

theorem eHang_takes {c id lim : Nat} {x : Train} {w : Wait} (hc : c < 16) (hcx : s.ctxOf x = c) (hx : AMap.get? s.trains id = some x)
    (hk : KeysRise s.trains) (hw : Waits x w) (hage : w.age < 2 ^ 64) (hh : hangOf s x = some lim) (hlim : lim ≤ (s.ctx c).regulator)
    (hok : x.Ok) (hent : Enters s x) (hfree : Unhindered s serviceCore c)
    (hmax : ∀ j y v, j ≠ id → AMap.get? s.trains j = some y → s.ctxOf y = c → hangOf s y ≠ none → Waits y v → v.age < w.age) :
    ∃ t y n, exec (.eHang c) s = .next t ∧ (t.ctx c).regulator = 0 ∧ AMap.get? t.trains id = some y ∧ y.wait = none ∧
      y.s = x.s ∧ y.v = x.v ∧ y.em = x.live ∧ y.pc = vectorOf s x &&& ~~~7#64 ∧ y.trap.tm = true ∧ y.trap.cause = 0x0F ∧
      y.trap.tval = BitVec.ofNat 64 n ∧ n ≤ 128 ∧ y.trap.tem = x.em ∧
      ∀ cl, x.clause = some cl → cl.idx < cl.words.length → y.trap.trappc = match w.on with
        | .barrier _ => cl.hdr + BitVec.ofNat 64 (8 * (cl.idx + 2))
        | _ => cl.hdr + BitVec.ofNat 64 (8 * (cl.idx + 1)) := by
  obtain ⟨l, hl, hle⟩ := hangLimit_le hx hcx hh
  have hv := hangVictim_longest hk hx hcx hw hage (by rw [hh]; nofun) hmax
  let s1 := s.upd (.free (s.free + 1))
  let recs := (((trainsIn s c).filter fun kv => kv.2.waiting).filterMap fun kv =>
    kv.2.wait.map fun w => waitRecord s kv.2 w (Config.freeValue s.free).toNat).take 128
  obtain ⟨n, u, hu, hr, hn⟩ := Ends.writeRecords (s := s) (t := s1) (ctx := c) (s.ctx c).hangbuf.toNat 0 recs ⟨hfree.locks, hfree.walkers⟩
  have hn128 : n ≤ 128 := by
    have hlen : recs.length ≤ 128 := (List.length_take_le ..)
    omega
  obtain ⟨o, hxu⟩ := hr.trains hk id x hx hok
  let u2 := u.upd (.ctx c { u.ctx c with regulator := 0 })
  let z := ({ x with watch := o } : Train).abandoned w (atYieldc id { x with watch := o })
  have ha : Abandoned x z w := by
    have h := abandoned_is { x with watch := o } w (atYieldc id { x with watch := o })
    exact ⟨h.regs, h.lanes, h.wheel, h.tm, h.tx, h.place⟩
  have hvec : vectorOf u2 z = vectorOf s x := by
    unfold vectorOf State.dispatchOf State.wheelOf
    rw [ha.wheel, State.upd_wheels, State.upd_dispatches]
    dsimp only
    rw [hr.wheels, hr.dispatches]
    rfl
  have hentz : Enters u2 z := by
    refine ⟨hvec ▸ hent.1, ha.tm.trans hent.2.1, ?_⟩
    unfold Train.inTx
    rw [ha.tx, ha.tm]
    exact hent.2.2
  have htrap := trapUpds_enters hentz (id := id) (at_ := z.here) (cause := 0x0F) (by decide) z.em (BitVec.ofNat 64 n)
  rw [hvec] at htrap
  have hgo : exec (.eHang c) s = .next (u2.upd (.train id (some (entered z z.here 0x0F z.em (BitVec.ofNat 64 n) (vectorOf s x))))) := by
    refine (exec_eHang s).trans (Ends.runE (Ends.now ?_))
    rw [hl, hv]
    dsimp only
    rw [if_neg (by omega), hx]
    refine Ends.bind (Ends.now (Ends.bind (Ends.upd _) (Ends.pure _))) (Ends.bind hu (Ends.now (Ends.bind (Ends.upd _) (Ends.now ?_))))
    rw [State.upd_trains]
    dsimp only
    rw [hxu]
    dsimp only
    rw [hw.1]
    dsimp only
    show Ends (updAll (trapUpds u2 id z z.here 0x0F z.em (BitVec.ofNat 64 n) false)) _ _ _
    rw [htrap]
    exact Ends.updAll _
  refine ⟨_, (entered z z.here 0x0F z.em (BitVec.ofNat 64 n) (vectorOf s x)).norm, n, hgo, ?_, get?_upd_train .., rfl, ha.regs.1, ha.regs.2,
    ?_, rfl, rfl, rfl, rfl, hn128, ha.lanes.1, ha.place⟩
  · show (u2.ctx c).regulator = 0
    rw [ctx_upd_ctx u hc]
    rfl
  · have hem : (entered z z.here 0x0F z.em (BitVec.ofNat 64 n) (vectorOf s x)).norm.em = z.live &&& z.live := by
      unfold Train.norm entered
      simp
    rw [hem, BitVec.and_self, ha.lanes.2]

end
end Sys2Proof.Machine
end

section
/-! SUPPORT. CLOCK_TICK: the ages of trains and waits, the Regulator's counts, the core's clock, and the rings that wait for a stamp (R69, R71, R126, R345). -/

namespace Sys2Proof.Machine

section
variable {s t u : State} {id core : Nat} {x : Train}

/-! ## Trains grow older -/

/-- The trains of a list set in a map, each changed by what `g` makes of it under its name. -/
theorem get?_foldl_named (g : Nat → Train → Train) {l : AMap Train} (hl : KeysRise l) (m : AMap Train) (j : Nat) :
    AMap.get? (l.foldl (fun m kv => AMap.set m kv.1 (g kv.1 kv.2).norm) m) j =
      ((AMap.get? l j).map fun z => (g j z).norm).or (AMap.get? m j) := by
  induction l generalizing m with
  | nil => rfl
  | cons kv l ih =>
    obtain ⟨i, z⟩ := kv
    have ⟨hlt, hl'⟩ := KeysRise.cons.1 hl
    rw [List.foldl_cons, ih hl', AMap.get?_set, AMap.get?_cons]
    by_cases hij : i = j
    · subst hij
      have hn : AMap.get? l i = none :=
        Option.eq_none_iff_forall_not_mem.2 fun y hy => Nat.lt_irrefl i (hlt i (List.mem_map_of_mem (AMap.mem_of_get? hy)))
      simp [hn]
    · simp [hij, Ne.symm hij]

theorem upds_train_named (g : Nat → Train → Train) (l : AMap Train) (t : State) :
    t.upds (l.map fun kv => .train kv.1 (some (g kv.1 kv.2))) =
      { t with trains := l.foldl (fun m kv => AMap.set m kv.1 (g kv.1 kv.2).norm) t.trains } := by
  induction l generalizing t with
  | nil => rfl
  | cons kv l ih => exact ih _

theorem KeysRise.foldl_named (g : Nat → Train → Train) (l : AMap Train) {m : AMap Train} (hm : KeysRise m) :
    KeysRise (l.foldl (fun m kv => AMap.set m kv.1 (g kv.1 kv.2).norm) m) := by
  induction l generalizing m with
  | nil => exact hm
  | cons kv l ih => exact ih (hm.set _ _)

/-- What a tick makes of a train of its core. -/
def agedOn (s : State) (cycles id : Nat) (x : Train) : Train :=
  x.aged (trainReady s id x && !(x.clause.isSome && holdsPort s id x)) cycles

/-- The state after its trains on a core have grown older. -/
def grown (s : State) (core cycles : Nat) : State :=
  s.upds ((s.trains.filter fun kv => s.coreOf kv.2 == core).map fun kv => .train kv.1 (some (agedOn s cycles kv.1 kv.2)))

theorem grown_rest (s : State) (core cycles : Nat) : grown s core cycles = { s with trains := (grown s core cycles).trains } := by
  unfold grown
  rw [upds_train_named (agedOn s cycles)]

theorem agedOn_ok {cycles : Nat} (h : x.Ok) : (agedOn s cycles id x).Ok := ⟨h.live, h.p7, h.pc, h.opened⟩

theorem get?_grown {cycles : Nat} (hk : KeysRise s.trains) (hok : ∀ id x, AMap.get? s.trains id = some x → x.Ok) (j : Nat) :
    AMap.get? (grown s core cycles).trains j =
      (AMap.get? s.trains j).map fun x => if s.coreOf x = core then agedOn s cycles j x else x := by
  unfold grown
  rw [upds_train_named (agedOn s cycles)]
  show AMap.get? (List.foldl _ s.trains _) j = _
  rw [get?_foldl_named _ (hk.filter _), AMap.get?_filter hk]
  cases hj : AMap.get? s.trains j with
  | none => rfl
  | some z =>
    by_cases hp : s.coreOf z = core
    · simp [Option.filter, hp, Train.norm_of_ok (agedOn_ok (s := s) (id := j) (cycles := cycles) (hok j z hj))]
    · simp [Option.filter, hp]

theorem holdsPort_iff : holdsPort s id x = true ↔ portAt (s.core (s.coreOf x)) 0 = some id ∨ portAt (s.core (s.coreOf x)) 1 = some id := by
  simp only [holdsPort, Bool.or_eq_true, beq_iff_eq]

theorem agedOn_eq (cycles : Nat) : agedOn s cycles id x = { x with
    readyAge := if trainReady s id x = true ∧ (x.clause = none ∨ portAt (s.core (s.coreOf x)) 0 ≠ some id ∧
        portAt (s.core (s.coreOf x)) 1 ≠ some id) then x.readyAge + cycles else x.readyAge
    wait := x.wait.map fun w => if w.woken = true then w else { w with age := w.age + cycles } } := by
  have hcond : (trainReady s id x && !(x.clause.isSome && holdsPort s id x)) = true ↔
      trainReady s id x = true ∧ (x.clause = none ∨ portAt (s.core (s.coreOf x)) 0 ≠ some id ∧ portAt (s.core (s.coreOf x)) 1 ≠ some id) := by
    rw [Bool.and_eq_true, Bool.not_eq_true', Bool.and_eq_false_iff, ← Bool.not_eq_true (holdsPort s id x), holdsPort_iff, not_or,
      Option.isSome_eq_false_iff, Option.isNone_iff_eq_none]
  unfold agedOn Train.aged
  simp only [hcond]

theorem agedOn_waiting (cycles : Nat) : (agedOn s cycles id x).waiting = x.waiting := by
  unfold agedOn Train.aged Train.waiting
  cases hw : x.wait with
  | none => rfl
  | some w => cases hwo : w.woken <;> simp [hwo]

/-! ## The Regulator's counts -/

/-- What `n` cycles of a core make of a context. -/
def tickedCtx (t : State) (core n c : Nat) : Context :=
  let x := t.ctx c
  let holder : Bool := match x.token with
    | some (id, _) => (match AMap.get? t.trains id with | some y => t.coreOf y == core | none => false)
    | none => false
  let stall : Bool := match mxHead t core c with
    | some (_, e) => (match opCtx t e with | some o => tvxmStalled t e o | none => false)
    | none => false
  let x := if clockCore t c = some core then { x with regulator := regulated t c n } else x
  let x := if holder then { x with token := x.token.map fun h => (h.1, h.2 + n) } else x
  if stall then { x with mxstall := x.mxstall + BitVec.ofNat 64 n } else x

def ticked (core n : Nat) (t : State) (c : Nat) : State :=
  if tickedCtx t core n c = t.ctx c then t else t.upd (.ctx c (tickedCtx t core n c))

theorem Ends.tickCtx (core n : Nat) (t : State) (c : Nat) : Ends (Machine.tickCtx core n c : M s Unit) t () (ticked core n t c) := by
  refine Ends.now ?_
  unfold ticked
  by_cases h : tickedCtx t core n c = t.ctx c
  · rw [if_pos h]
    refine Eq.mpr (congrArg (fun m => Ends m t () t) (if_pos h)) (Ends.pure ())
  · rw [if_neg h]
    exact Eq.mpr (congrArg (fun m => Ends m t () _) (if_neg h)) (Ends.upd _)

theorem ticked_rest (core n : Nat) (t : State) (c : Nat) : ticked core n t c = { t with ctxs := (ticked core n t c).ctxs } := by
  unfold ticked
  split
  · rfl
  · exact State.upd_ctx_rest ..

/-- The count and the host of a context after a tick. -/
theorem tickedCtx_is (t : State) (core n c : Nat) : (tickedCtx t core n c).host = (t.ctx c).host ∧
    (tickedCtx t core n c).regulator = if clockCore t c = some core then regulated t c n else (t.ctx c).regulator := by
  have hlast (b : Bool) (y : Context) (v : DWord) : (if b then { y with mxstall := v } else y : Context).host = y.host ∧
      (if b then { y with mxstall := v } else y : Context).regulator = y.regulator := by cases b <;> exact ⟨rfl, rfl⟩
  have hmid (b : Bool) (y : Context) (v : Option (Nat × Nat)) : (if b then { y with token := v } else y : Context).host = y.host ∧
      (if b then { y with token := v } else y : Context).regulator = y.regulator := by cases b <;> exact ⟨rfl, rfl⟩
  unfold tickedCtx
  rw [(hlast ..).1, (hmid ..).1, (hlast ..).2, (hmid ..).2]
  by_cases h : clockCore t c = some core
  · rw [if_pos h, if_pos h]
    exact ⟨rfl, rfl⟩
  · rw [if_neg h, if_neg h]
    exact ⟨rfl, rfl⟩

/-- Contexts apart the states are the same, and those of `l` have ticked. -/
structure Ticked (t u : State) (core n : Nat) (l : List Nat) : Prop where
  frame : u = { t with ctxs := u.ctxs }
  host : ∀ k, k < 16 → (u.ctx k).host = (t.ctx k).host
  off : ∀ k, k < 16 → k ∉ l → u.ctx k = t.ctx k
  on : ∀ k, k < 16 → k ∈ l → (u.ctx k).regulator = if clockCore t k = some core then regulated t k n else (t.ctx k).regulator

theorem ticked_one (core n : Nat) (t : State) {c : Nat} (hc : c < 16) : Ticked t (ticked core n t c) core n [c] := by
  obtain ⟨hh, hr⟩ := tickedCtx_is t core n c
  have hself : ((ticked core n t c).ctx c).host = (t.ctx c).host ∧
      ((ticked core n t c).ctx c).regulator = (tickedCtx t core n c).regulator := by
    unfold ticked
    by_cases h : tickedCtx t core n c = t.ctx c
    · rw [if_pos h, h]
      exact ⟨rfl, rfl⟩
    · rw [if_neg h, ctx_upd_ctx t hc]
      exact ⟨hh, rfl⟩
  have hother (k : Nat) (hk : k < 16) (hne : k ≠ c) : (ticked core n t c).ctx k = t.ctx k := by
    unfold ticked
    split
    · rfl
    · exact ctx_upd_ctx_ne t hk hc hne _
  refine ⟨ticked_rest .., fun k hk => ?_, fun k hk hne => hother k hk fun h => hne (List.mem_singleton.2 h), fun k hk hm => ?_⟩
  · by_cases hkc : k = c
    · rw [hkc, hself.1]
    · rw [hother k hk hkc]
  · rw [List.mem_singleton.1 hm, hself.2, hr]

theorem ticked_all (core n : Nat) (l : List Nat) (hl : ∀ c ∈ l, c < 16) (hn : l.Nodup) (t : State) :
    Ticked t (l.foldl (ticked core n) t) core n l := by
  induction l generalizing t with
  | nil => exact ⟨rfl, fun _ _ => rfl, fun _ _ _ => rfl, fun _ _ h => nomatch h⟩
  | cons c l ih =>
    obtain ⟨hcl, hn'⟩ := List.nodup_cons.1 hn
    obtain ⟨hf1, hh1, hoff1, hon1⟩ := ticked_one core n t (hl c List.mem_cons_self)
    obtain ⟨hf2, hh2, hoff2, hon2⟩ := ih (fun c hc => hl c (List.mem_cons_of_mem _ hc)) hn' (ticked core n t c)
    rw [List.foldl_cons]
    refine ⟨by rw [hf2, hf1], fun k hk => (hh2 k hk).trans (hh1 k hk), fun k hk hm => ?_, fun k hk hm => ?_⟩
    · rw [List.mem_cons, not_or] at hm
      rw [hoff2 k hk hm.2, hoff1 k hk fun h => hm.1 (List.mem_singleton.1 h)]
    · by_cases hkc : k = c
      · subst hkc
        rw [hoff2 k hk hcl, hon1 k hk (List.mem_singleton.2 rfl)]
      · rw [hon2 k hk ((List.mem_cons.1 hm).resolve_left hkc)]
        have hsame : (ticked core n t c).ctx k = t.ctx k := hoff1 k hk fun h => hkc (List.mem_singleton.1 h)
        have hcore : clockCore (ticked core n t c) k = clockCore t k := by
          rw [hf1]
          rfl
        have hin : trainsIn (ticked core n t c) k = trainsIn t k := by
          rw [hf1]
          rfl
        have hreg : regulated (ticked core n t c) k n = regulated t k n := by
          unfold regulated
          rw [hsame, hin]
        rw [hcore, hreg, hsame]

/-! ## What the Regulator's count comes to -/

theorem mem_trainsIn {c j : Nat} {y : Train} (hk : KeysRise t.trains) : (j, y) ∈ trainsIn t c ↔ AMap.get? t.trains j = some y ∧ t.ctxOf y = c := by
  rw [trainsIn, List.mem_filter, AMap.mem_iff hk, beq_iff_eq]

theorem clockCore_lowest {c : Nat} (hk : KeysRise t.trains) (hx : AMap.get? t.trains id = some x) (hc : t.ctxOf x = c)
    (hcore : t.coreOf x = core) (hlow : ∀ j y, AMap.get? t.trains j = some y → t.ctxOf y = c → core ≤ t.coreOf y) :
    clockCore t c = some core := by
  unfold clockCore
  rw [List.min?_eq_some_iff]
  refine ⟨List.mem_map.2 ⟨(id, x), (mem_trainsIn hk).2 ⟨hx, hc⟩, hcore⟩, fun b hb => ?_⟩
  obtain ⟨⟨j, y⟩, hy, rfl⟩ := List.mem_map.1 hb
  obtain ⟨hget, hcy⟩ := (mem_trainsIn hk).1 hy
  exact hlow j y hget hcy

theorem regulated_runs {c n : Nat} (hk : KeysRise t.trains) (hx : AMap.get? t.trains id = some x) (hc : t.ctxOf x = c)
    (hw : x.waiting = false) : regulated t c n = (t.ctx c).regulator := by
  unfold regulated
  dsimp only
  rw [if_neg]
  intro hall
  have h := List.all_eq_true.1 hall (id, x) ((mem_trainsIn hk).2 ⟨hx, hc⟩)
  rw [hw] at h
  cases h

theorem regulated_waits {c n : Nat} (hk : KeysRise t.trains) (hne : ∃ j y, AMap.get? t.trains j = some y ∧ t.ctxOf y = c)
    (hw : ∀ j y, AMap.get? t.trains j = some y → t.ctxOf y = c → y.waiting = true) :
    regulated t c n ≤ (t.ctx c).regulator + n ∧
    (∀ j y w, AMap.get? t.trains j = some y → t.ctxOf y = c → Waits y w → regulated t c n ≤ w.age) ∧
    (regulated t c n = (t.ctx c).regulator + n ∨
      ∃ j y w, AMap.get? t.trains j = some y ∧ t.ctxOf y = c ∧ Waits y w ∧ regulated t c n = w.age) := by
  have hwaited {y : Train} {w : Wait} (h : Waits y w) : y.waited = w.age := by
    unfold Train.waited
    rw [h.1]
  obtain ⟨j, y, hy, hcy⟩ := hne
  have hmem : y.waited ∈ (trainsIn t c).map fun kv => kv.2.waited := List.mem_map.2 ⟨(j, y), (mem_trainsIn hk).2 ⟨hy, hcy⟩, rfl⟩
  obtain ⟨m, hm⟩ := Option.isSome_iff_exists.1 (List.isSome_min?_of_mem hmem)
  obtain ⟨hmm, hle⟩ := List.min?_eq_some_iff.1 hm
  have hreg : regulated t c n = min ((t.ctx c).regulator + n) m := by
    unfold regulated
    dsimp only
    rw [if_pos, hm]
    · rfl
    · refine List.all_eq_true.2 fun kv hkv => ?_
      obtain ⟨hget, hc⟩ := (mem_trainsIn hk).1 hkv
      exact hw kv.1 kv.2 hget hc
  rw [hreg]
  refine ⟨Nat.min_le_left .., fun k z w hz hcz hwz => ?_, ?_⟩
  · refine (Nat.min_le_right ..).trans ?_
    rw [← hwaited hwz]
    exact hle _ (List.mem_map.2 ⟨(k, z), (mem_trainsIn hk).2 ⟨hz, hcz⟩, rfl⟩)
  · obtain h | h := Nat.le_total ((t.ctx c).regulator + n) m
    · exact .inl (Nat.min_eq_left h)
    · obtain ⟨⟨k, z⟩, hkz, hzm⟩ := List.mem_map.1 hmm
      obtain ⟨hz, hcz⟩ := (mem_trainsIn hk).1 hkz
      obtain ⟨w, hwz⟩ := waiting_iff_waits.1 (hw k z hz hcz)
      exact .inr ⟨k, z, w, hz, hcz, hwz, (Nat.min_eq_right h).trans (hzm.symm.trans (hwaited hwz))⟩

/-! ## Rings that wait for a stamp -/

theorem ringMay_iff {k : Nat} : ringMay s k = true ↔ RingTakes s k := by
  have hroom : ringNodes s k = s.nodes.filter fun x => x.2.ring == k && (x.2.state == .started || x.2.state == .waiting && x.2.cause == 0) := by
    refine List.filter_congr fun x _ => ?_
    unfold Node.incomplete Node.doomed bne
    generalize (x.2.ring == k) = a
    generalize (x.2.cause == 0) = b
    cases x.2.state <;> cases a <;> cases b <;> rfl
  unfold ringMay
  rw [hroom]
  simp only [Bool.and_eq_true, Bool.not_eq_true', bne_iff_ne, decide_eq_true_eq]
  exact ⟨fun ⟨⟨⟨⟨⟨h1, h2⟩, h3⟩, h4⟩, h5⟩, h6⟩ => ⟨⟨h1, h2, h3, h4, h5⟩, h6⟩, fun ⟨⟨h1, h2, h3, h4, h5⟩, h6⟩ => ⟨⟨⟨⟨⟨h1, h2⟩, h3⟩, h4⟩, h5⟩, h6⟩⟩

theorem upds_ring_list (f : Nat → Ring) (l : List Nat) (hl : ∀ k ∈ l, k < 64) :
    t.upds (l.map fun k => .ring k (f k)) = { t with rings := (t.upds (l.map fun k => .ring k (f k))).rings } ∧
      ∀ k, k < 64 → (t.upds (l.map fun k => .ring k (f k))).ring k = if k ∈ l then f k else t.ring k := by
  induction l generalizing t with
  | nil => exact ⟨rfl, fun _ _ => rfl⟩
  | cons j l ih =>
    have hj := hl j List.mem_cons_self
    have hone : t.upd (.ring j (f j)) = { t with rings := t.rings.set j (f j) hj } := dif_pos hj
    obtain ⟨hf, hr⟩ := ih (t := t.upd (.ring j (f j))) fun k hk => hl k (List.mem_cons_of_mem _ hk)
    rw [List.map_cons, State.upds_cons]
    refine ⟨?_, fun k hk => ?_⟩
    · rw [hf, hone]
    · have hset : (t.upd (.ring j (f j))).ring k = if k = j then f j else t.ring k := by
        rw [hone]
        unfold State.ring
        simp only [Vector.getElem_set, Nat.mod_eq_of_lt hk]
        by_cases h : j = k
        · simp [h]
        · simp [h, Ne.symm h]
      rw [hr k hk, hset]
      simp only [List.mem_cons]
      by_cases hkj : k = j
      · subst hkj
        simp
      · simp only [hkj, false_or, if_false]

/-- The rings after `ns` nanoseconds. -/
def ringsLater (t : State) (ns : Nat) : List Upd :=
  ((List.range 64).filter fun k => ringLater t ns k != t.ring k).map fun k => .ring k (ringLater t ns k)

theorem ringsLater_ring {ns : Nat} (hu : u.rings = t.rings) :
    u.upds (ringsLater t ns) = { u with rings := (u.upds (ringsLater t ns)).rings } ∧
      ∀ k, k < 64 → (u.upds (ringsLater t ns)).ring k = ringLater t ns k := by
  obtain ⟨hf, hr⟩ := upds_ring_list (t := u) (ringLater t ns) ((List.range 64).filter fun k => ringLater t ns k != t.ring k) fun k hk =>
    List.mem_range.1 (List.mem_filter.1 hk).1
  refine ⟨hf, fun k hk => (hr k hk).trans ?_⟩
  by_cases h : ringLater t ns k = t.ring k
  · rw [if_neg fun hm => by simp [h] at hm, h]
    unfold State.ring
    rw [hu]
  · exact if_pos (List.mem_filter.2 ⟨List.mem_range.2 hk, by simpa using h⟩)


/-! ## CLOCK_TICK -/

/-- The core after its cycles: its clock advances by no less than a tick in 64 cycles (R126). -/
def Core.later (c : Core) (cycles ticks : Nat) : Core :=
  { c with
    clock := c.clock + max ticks ((c.owed + cycles) / 64), cycles := c.cycles + BitVec.ofNat 64 cycles
    owed := if (c.owed + cycles) / 64 < max ticks ((c.owed + cycles) / 64) then 0 else (c.owed + cycles) % 64 }

/-- What a tick does to the state, part by part. -/
structure Later (s t : State) (core cycles ticks ns : Nat) : Prop where
  frame : t = { s with trains := t.trains, ctxs := t.ctxs, cores := t.cores, mg := t.mg, rings := t.rings }
  trains : t.trains = (grown s core cycles).trains
  cores : t.cores = AMap.set s.cores core ((s.core core).later cycles ticks)
  refresh : t.mg.refreshNs = s.mg.refreshNs + ns
  rings : ∀ k, k < 64 → t.ring k = ringLater s ns k
  counts : ∀ k, k < 16 → (t.ctx k).regulator = if clockCore (grown s core cycles) k = some core
    then regulated (grown s core cycles) k cycles else (s.ctx k).regulator

theorem later_frame (ht : t = { s with trains := t.trains, ctxs := t.ctxs, cores := t.cores })
    (hu : u = { t with mg := u.mg, rings := u.rings }) :
    u = { s with trains := u.trains, ctxs := u.ctxs, cores := u.cores, mg := u.mg, rings := u.rings } := by
  rw [ht] at hu
  rw [hu]

theorem clockTick_later (s : State) (core cycles ticks ns : Nat) :
    ∃ t, exec (.clockTick core cycles ticks ns) s = .next t ∧ Later s t core cycles ticks ns := by
  obtain ⟨g, hgrown⟩ : ∃ g, g = grown s core cycles := ⟨_, rfl⟩
  have hg : g = { s with trains := g.trains } := hgrown ▸ grown_rest s core cycles
  obtain ⟨t2, hticks, hf, hh, -, hon⟩ : ∃ t2, Ends ((List.range 16).forM fun c => Machine.tickCtx core cycles c : M s Unit) g () t2 ∧
      Ticked g t2 core cycles (List.range 16) :=
    ⟨_, Ends.forM (Ends.tickCtx core cycles) _ _, ticked_all core cycles (List.range 16) (fun c hc => List.mem_range.1 hc) List.nodup_range g⟩
  have hf2 : t2 = { s with trains := g.trains, ctxs := t2.ctxs } := by
    rw [hf, hg]
  let t3 := t2.upd (.core core ((s.core core).later cycles ticks))
  have hf3 : t3 = { s with trains := g.trains, ctxs := t2.ctxs, cores := t3.cores } := by
    simp only [t3, State.upd]
    rw [hf2]
  have hcores : t3.cores = AMap.set s.cores core ((s.core core).later cycles ticks) := by
    show AMap.set t2.cores core _ = _
    rw [hf2]
  have hhost (k : Nat) (hk : k < 16) : (t3.ctx k).host = (s.ctx k).host := by
    refine (show (t3.ctx k).host = (t2.ctx k).host from rfl).trans ((hh k hk).trans ?_)
    rw [hg]
    rfl
  have hcounts (k : Nat) (hk : k < 16) : (t3.ctx k).regulator = if clockCore g k = some core
      then regulated g k cycles else (s.ctx k).regulator := by
    have hctx : g.ctx k = s.ctx k := by rw [hg]; rfl
    refine (show (t3.ctx k).regulator = (t2.ctx k).regulator from rfl).trans ?_
    rw [hon k hk (List.mem_range.2 hk), hctx]
  have hring (k : Nat) : ringLater t3 ns k = ringLater s ns k := by
    have hk : t3.ring k = s.ring k := by rw [hf3]; rfl
    have hgone : t3.ringGone k = s.ringGone k := by
      have hmod (v : State) (c : Nat) : v.ctx c = v.ctx (c % 16) := by
        unfold State.ctx
        simp only [Nat.mod_mod]
      have hmg : t3.mg = s.mg := by rw [hf3]
      unfold State.ringGone
      rw [hk, hmg, hmod t3, hhost _ (Nat.mod_lt _ (by decide)), ← hmod]
    have hnodes : ringNodes t3 k = ringNodes s k := by rw [hf3]; rfl
    unfold ringLater ringMay
    rw [hk, hgone, hnodes]
  have hrun {u : State} (hu : Ends (if ns = 0 then Pure.pure () else do
      let t ← Machine.now
      Machine.upd (.mg { t.mg with refreshNs := t.mg.refreshNs + ns })
      updAll (ringsLater t ns) : M s Unit) t3 () u) : exec (.clockTick core cycles ticks ns) s = .next u := by
    have hgrow : Ends (updAll ((s.trains.filter fun kv => s.coreOf kv.2 == core).map fun kv =>
        .train kv.1 (some (agedOn s cycles kv.1 kv.2))) : M s Unit) s () g := hgrown ▸ Ends.updAll _
    exact (exec_clockTick s).trans (Ends.runE (Ends.now (Ends.bind hgrow (Ends.bind hticks (Ends.bind (Ends.upd _) hu)))))
  by_cases hns : ns = 0
  · refine ⟨t3, hrun (by rw [if_pos hns]; exact Ends.pure ()), ?_, ?_, hcores, ?_, fun k _ => ?_, ?_⟩
    · rw [hf3]
    · rw [hf3, ← hgrown]
    · rw [hf3, hns]
      rfl
    · rw [← hring k, hns]
      unfold ringLater
      dsimp only
      split <;> rfl
    · rw [← hgrown]
      exact hcounts
  · let t4 := t3.upd (.mg { t3.mg with refreshNs := t3.mg.refreshNs + ns })
    obtain ⟨hf5, hr5⟩ := ringsLater_ring (t := t3) (u := t4) (ns := ns) rfl
    refine ⟨t4.upds (ringsLater t3 ns), hrun ?_, ?_, ?_, ?_, ?_, fun k hk => (hr5 k hk).trans (hring k), ?_⟩
    · rw [if_neg hns]
      exact Ends.now (Ends.bind (Ends.upd _) (Ends.updAll _))
    · exact later_frame (t := t3) (by rw [hf3]) (by rw [hf5]; rfl)
    · rw [hf5, ← hgrown]
      show t3.trains = _
      rw [hf3]
    · rw [hf5]
      exact hcores
    · rw [hf5]
      show t3.mg.refreshNs + ns = _
      rw [hf3]
    · rw [hf5, ← hgrown]
      exact hcounts

theorem coreOf_congr {z z' : Train} (hz : z'.wheel = z.wheel) (hw : t.wheels = s.wheels) : t.coreOf z' = s.coreOf z := by
  unfold State.coreOf State.wheelOf
  rw [hz, hw]

/-- A train of the grown state is one of the state before, on the same wheel, waiting as it did. -/
theorem grown_train {cycles : Nat} (hk : KeysRise s.trains) (hok : ∀ id x, AMap.get? s.trains id = some x → x.Ok) {j : Nat} {y : Train}
    (hy : AMap.get? (grown s core cycles).trains j = some y) : ∃ x, AMap.get? s.trains j = some x ∧
      (grown s core cycles).ctxOf y = s.ctxOf x ∧ (grown s core cycles).coreOf y = s.coreOf x ∧ y.waiting = x.waiting := by
  rw [get?_grown hk hok] at hy
  obtain ⟨x, hx, rfl⟩ := Option.map_eq_some_iff.1 hy
  have hwheel : (if s.coreOf x = core then agedOn s cycles j x else x).wheel = x.wheel := by split <;> rfl
  refine ⟨x, hx, ctxOf_congr hwheel (fun k => by rw [grown_rest]) (by rw [grown_rest]), coreOf_congr hwheel (by rw [grown_rest]), ?_⟩
  · split
    · exact agedOn_waiting cycles
    · rfl

theorem grown_of_train {cycles : Nat} (hk : KeysRise s.trains) (hok : ∀ id x, AMap.get? s.trains id = some x → x.Ok)
    (hx : AMap.get? s.trains id = some x) : ∃ y, AMap.get? (grown s core cycles).trains id = some y ∧
      (grown s core cycles).ctxOf y = s.ctxOf x ∧ (grown s core cycles).coreOf y = s.coreOf x ∧ y.waiting = x.waiting := by
  obtain ⟨y, hy⟩ : ∃ y, AMap.get? (grown s core cycles).trains id = some y := by
    rw [get?_grown hk hok, hx]
    exact ⟨_, rfl⟩
  obtain ⟨x', hx', h⟩ := grown_train hk hok hy
  obtain rfl : x = x' := Option.some.inj (hx.symm.trans hx')
  exact ⟨y, hy, h⟩

/-- The counts of the contexts whose cycles the core's ticks stand for. -/
theorem clockTick_counts {cycles ticks ns k : Nat} (hl : Later s t core cycles ticks ns) (hk16 : k < 16) (hk : KeysRise s.trains)
    (hok : ∀ id x, AMap.get? s.trains id = some x → x.Ok)
    (hin : ∃ id x, AMap.get? s.trains id = some x ∧ s.ctxOf x = k ∧ s.coreOf x = core)
    (hlow : ∀ id x, AMap.get? s.trains id = some x → s.ctxOf x = k → core ≤ s.coreOf x) :
    ((∃ id x, AMap.get? s.trains id = some x ∧ s.ctxOf x = k ∧ ∀ w, ¬Waits x w) → (t.ctx k).regulator = (s.ctx k).regulator) ∧
    ((∀ id x, AMap.get? s.trains id = some x → s.ctxOf x = k → ∃ w, Waits x w) →
      (t.ctx k).regulator ≤ (s.ctx k).regulator + cycles ∧
      (∀ id x w, AMap.get? t.trains id = some x → s.ctxOf x = k → Waits x w → (t.ctx k).regulator ≤ w.age) ∧
      ((t.ctx k).regulator = (s.ctx k).regulator + cycles ∨
        ∃ id x w, AMap.get? t.trains id = some x ∧ s.ctxOf x = k ∧ Waits x w ∧ (t.ctx k).regulator = w.age)) := by
  have hg := grown_rest s core cycles
  have hgk : KeysRise (grown s core cycles).trains := by
    unfold grown
    rw [upds_train_named (agedOn s cycles)]
    exact hk.foldl_named _ _
  have hgc (y : Train) : (grown s core cycles).ctxOf y = s.ctxOf y :=
    ctxOf_congr rfl (fun k => by rw [hg]) (by rw [hg])
  have hctx : (grown s core cycles).ctx k = s.ctx k := by rw [hg]; rfl
  have hclock : clockCore (grown s core cycles) k = some core := by
    obtain ⟨id, x, hx, hc, hcore⟩ := hin
    obtain ⟨y, hy, hcy, hcorey, -⟩ := grown_of_train (core := core) (cycles := cycles) hk hok hx
    refine clockCore_lowest hgk hy (hcy.trans hc) (hcorey.trans hcore) fun j z hz hcz => ?_
    obtain ⟨x', hx', hc', hcore', -⟩ := grown_train hk hok hz
    exact hcore' ▸ hlow j x' hx' (hc'.symm.trans hcz)
  have hreg := hl.counts k hk16
  rw [if_pos hclock] at hreg
  rw [hreg, hl.trains, ← hctx]
  refine ⟨fun ⟨id, x, hx, hc, hno⟩ => ?_, fun hall => ?_⟩
  · obtain ⟨y, hy, hcy, -, hwy⟩ := grown_of_train (core := core) (cycles := cycles) hk hok hx
    refine regulated_runs hgk hy (hcy.trans hc) (hwy.trans ?_)
    rw [← Bool.not_eq_true]
    exact fun h => (waiting_iff_waits.1 h).elim hno
  · obtain ⟨id, x, hx, hc, -⟩ := hin
    obtain ⟨y, hy, hcy, -, -⟩ := grown_of_train (core := core) (cycles := cycles) hk hok hx
    have h := regulated_waits (n := cycles) hgk ⟨id, y, hy, hcy.trans hc⟩ fun j z hz hcz => by
      obtain ⟨x', hx', hc', -, hw'⟩ := grown_train hk hok hz
      exact hw'.trans (waiting_iff_waits.2 (hall j x' hx' (hc'.symm.trans hcz)))
    simpa only [hgc] using h

end

/-- Settles O46: each event by its own lemma; a tick by what it makes of trains, contexts, rings and the core. -/
theorem timedEvents : Obligations.TimedEvents := by
  refine ⟨fun s id x hx he => ?_, fun s id k x e w hx hj hesu ht => eEcc_defers hx hj hesu ht w,
    fun s c id x w lim hc hcx hx hk hw hage hh hlim hok hent hl hwk hmax =>
      eHang_takes hc hcx hx hk hw hage hh hlim hok hent ⟨hl, hwk⟩ hmax, fun s c h hk => eHang_unwatched hk h,
    fun s core ctx => ⟨fun h => eTenant_whole h ctx, fun h hk _ => ?_⟩, fun s core => tenantSplit_splits core,
    fun s k hk => refreshWindowEnd_moves hk, ?_⟩
  · refine ⟨fun hd => deferredTrap_stays hx he (by simp [Train.dueTrap, hd]), fun hte => deferredTrap_stays hx he ?_, ?_,
      fun w c hc hent => eEcc_enters hx hc hent w⟩
    · unfold Train.dueTrap
      rw [if_pos (by simp [Option.isSome_iff_ne_none.2 hte])]
    · intro d l hd hin hc hr hte hent taken
      have hdue := dueTrap_first hd hr hte hent
      have hgo := deferredTrap_enters hx he hd hin hent hc
      refine ⟨fun hcl => ?_, fun c hcl => ⟨fun hearly => ?_, fun hearly => deferredTrap_stays hx he ?_⟩⟩
      · rw [here_of_none hcl] at hgo
        exact hgo (by rw [hdue, hcl]; rfl)
      · rw [here_of_clause hcl] at hgo
        exact hgo (by rw [hdue, hearly, Bool.or_true]; rfl)
      · rw [hdue, hcl, hearly]
        rfl
  · obtain ⟨t, hgo, hm, hstay, hgone⟩ := eTenant_takes h ctx hk
    refine ⟨t, hgo, hm, hstay, fun k e x wh he hon hx hwh => ?_⟩
    obtain ⟨h1, h2, h3⟩ := hgone k e x wh he hon hx hwh
    exact ⟨h1, h2, wh.zeroTiles, h3, zeroTiles_zero wh⟩
  · intro s core cycles ticks ns hk hok c
    obtain ⟨t, hgo, hl⟩ := clockTick_later s core cycles ticks ns
    refine ⟨t, hgo, by rw [hl.frame], hl.frame, hl.cores, hl.refresh, fun k hk64 => ⟨fun hm hst => ?_, fun h => ?_⟩, fun id x hx hne => ?_,
      fun id x hx hcore => ?_, fun k hk16 hin hlow => clockTick_counts hl hk16 hk hok hin hlow⟩
    · rw [hl.rings k hk64]
      unfold ringLater
      dsimp only
      rw [ringMay_iff.2 hm, hst]
      rfl
    · rw [hl.rings k hk64]
      unfold ringLater
      dsimp only
      rw [if_neg]
      rw [Bool.and_eq_true, ringMay_iff, Bool.not_eq_true']
      rintro ⟨hm, hst⟩
      obtain h | h := h
      · exact h hm
      · rw [h] at hst
        cases hst
    · rw [hl.trains, get?_grown hk hok, hx, Option.map_some, if_neg hne]
    · rw [hl.trains, get?_grown hk hok, hx, Option.map_some, if_pos hcore, agedOn_eq, hcore]
end Sys2Proof.Machine
end

section
/-! SUPPORT. The end of a wheel where an entry of a COPY node waits for room in the checker of its core (R12, R84, R346). -/

namespace Sys2Proof.Machine

/-- An entry of a COPY node, as read at the node's start. -/
def waitingSlice : Slice :=
  { train := 0, index := 0, op := 6, kind := .cpy, tb := none, ls := 0, ld := 0, src := Layout.empty, dst := Layout.empty, srcOrg := [],
    dstOrg := [], ext := [], nrecv := 0, own := 0, rstride := 0, idx := 0, pending := 0, refused := false }

/-- A COPY node that has started on core 0, one entry of it still without a job. -/
def copyNode : Node :=
  { ring := 1, ctx := 0, order := 1, kind := 3, prio := 1, serial := false, hold := false, idempotent := true, arg0 := 0x10010, arg1 := 1,
    token := 0, tokval := 0, fps := [], edges := [], state := .started, cause := 0, trappc := 0, se := false, replays := 0, jobs := [],
    todo := [(3, waitingSlice)], core := 0, cost := 1, held := false, refused := false, signalled := false, wts := 0 }

/-- The last train of its wheel, drained. -/
def lastTrain : Train := { Train.start 1 0 0x10000 0 with ending := true }

/-- The wheel's last train ends on the core where the node's entry waits. -/
def copyWaits : State :=
  { State.reset with
    nextId := 8, dispatches := [(1, placeDispatch false)], wheels := [(1, placeWheel)], trains := [(1, lastTrain)], nodes := [(6, copyNode)] }

/-- The next free identity that a step leaves. -/
def nextIdAfter (o : Host.Outcome State Fault Refusal) : Nat :=
  match o with
  | .next t => t.nextId
  | _ => 0

/-- The end of the wheel takes an identity for the entry's job: the checker of the core is pumped. -/
theorem copyWaits_pumped : nextIdAfter (exec (.trainEnd 1) copyWaits) = 9 := by
  decide +kernel

theorem copyWaits_drained : Drained copyWaits 1 lastTrain := by
  have hwrites : (copyWaits.core (copyWaits.coreOf lastTrain)).writes = [] := rfl
  have hnone {q : AMap EngineOp} (hq : q = []) : NoOps q 1 := by
    rw [hq]
    exact fun k e h => nomatch h
  have htlbis : copyWaits.tlbis = [] := rfl
  refine ⟨⟨rfl, rfl, by rw [hwrites]; exact nofun⟩, ⟨rfl, rfl, nofun⟩, hnone rfl, hnone rfl, hnone rfl, hnone rfl, by
    rw [htlbis]
    exact nofun⟩

theorem copyWaits_noToken : NoToken copyWaits 1 lastTrain := by
  have htoken : (copyWaits.ctx (copyWaits.ctxOf lastTrain)).token = none := by decide +kernel
  have hqueue : (copyWaits.ctx (copyWaits.ctxOf lastTrain)).tokenQueue = [] := by decide +kernel
  refine ⟨?_, ?_⟩
  · rw [htoken]
    exact nofun
  · rw [hqueue]
    exact List.not_mem_nil

theorem placeWheel_ringless (k : Nat) : ringOf placeWheel k = none := by simp [ringOf, placeWheel]

theorem copyWaits_ringsRest : RingsRest copyWaits placeWheel := by
  refine ⟨fun k r h => ?_, fun v hv _ k r h => ?_⟩
  · rw [placeWheel_ringless] at h
    cases h
  · cases List.mem_singleton.1 hv
    rw [placeWheel_ringless] at h
    cases h

/-- Refutes O47: with the last train of a wheel the checker of its core is pumped, and an entry of a COPY node that waits there becomes a job under a new identity. The clause for the last train says that trains, wheels, `tlbi` instructions and dispatches alone change; its hypotheses put the rings of the core at rest (`RingsRest`), and ask nothing of the entries of nodes. -/
theorem not_wheelsStartAndEnd : ¬Obligations.WheelsStartAndEnd := by
  intro h
  have hkeys : KeysRise copyWaits.trains := List.pairwise_singleton ..
  have hlast : ∀ j y, AMap.get? copyWaits.trains j = some y → j ≠ 1 → y.wheel ≠ lastTrain.wheel := by
    intro j y hy hj
    cases List.mem_singleton.1 (AMap.mem_of_get? hy)
    exact absurd rfl hj
  obtain ⟨-, -, hend, -⟩ := h.2 copyWaits 1 lastTrain placeWheel (placeDispatch false) rfl rfl rfl hkeys
  have hjobs : copyWaits.jobs = [] := rfl
  obtain ⟨-, hends⟩ := hend rfl rfl copyWaits_drained rfl rfl copyWaits_noToken
  have hgo := hends hlast (by rw [hjobs]; exact nofun) copyWaits_ringsRest
  have hnext := congrArg nextIdAfter hgo
  rw [copyWaits_pumped] at hnext
  exact absurd hnext (by decide)

end Sys2Proof.Machine
end
